-- ==== Sys2Proof/Word.lean ====
section
/-! DEFINITION. The machine's word types (R2 to R5) and their plainest arithmetic. -/

namespace Sys2Proof

/-- One byte of memory. -/
abbrev Byte := BitVec 8
/-- One 32-bit token element (R116). -/
abbrev Elem := BitVec 32
/-- A 64-bit scalar, status or reference register, and a word of a descriptor. -/
abbrev Word := BitVec 64
/-- A record in memory: 96 bits in 12 bytes (R273). -/
abbrev Rec96 := BitVec 96

/-- Bits hi:lo of a word as an unsigned number (Table 11.1 `bits`). -/
def field {w : Nat} (x : BitVec w) (hi lo : Nat) : Nat := (x.toNat >>> lo) % 2 ^ (hi + 1 - lo)

/-- Bit `i` of a word. -/
def bitAt {w : Nat} (x : BitVec w) (i : Nat) : Bool := x.getLsbD i

/-- `x` of `n` bits read as a signed number (Table 11.1 `sext`). -/
def signed (n x : Nat) : Int := if x % 2 ^ n < 2 ^ (n - 1) then (x % 2 ^ n : Nat) else (x % 2 ^ n : Nat) - (2 ^ n : Nat)

/-- An integer modulo 2^n, as an unsigned number (Table 11.1 `wrap`). -/
def wrapN (n : Nat) (x : Int) : Nat := (x % (2 ^ n : Nat)).toNat

/-- `clamp(x, lo, hi)` of Table 11.1. -/
def clampI (x lo hi : Int) : Int := if x < lo then lo else if hi < x then hi else x

/-- Little-endian value of a byte list, the first byte least significant (R3). -/
def leNat : List Byte → Nat
  | [] => 0
  | b :: bs => b.toNat + 256 * leNat bs

/-- The `n` bytes of a number, least significant first (R3). -/
def leBytes : Nat → Nat → List Byte
  | 0, _ => []
  | n + 1, x => BitVec.ofNat 8 x :: leBytes n (x / 256)

end Sys2Proof
end

