-- ==== Sys2Proof/Config.lean ====
section
/-! DEFINITION. What the implementation fixes and the free values: constants with no body, which no proof can see into. -/

namespace Sys2Proof.Config

/-- The bits of an FSFU approximation: function, operand (FP32 bits), format code. The spec gives only bounds (R386). Free value, log 1. -/
opaque sfu : Nat → Nat → Nat → Nat

/-- Which of `n` possible turns is taken next, drawn with the counter (R133, R188). Free value, log 2. -/
opaque pick : Nat → Nat → Nat

/-- The port a fixed hash of sector address bits 51:6 chooses among `n` ports (R37). Free value, log 8. -/
opaque portHash : Nat → Nat → Nat

/-- The next physical frame the SCC takes for a page or a table (R453, R181, R212). Free value, log 9. -/
opaque frame : Nat → Nat

/-- A value the spec gives no number for, drawn with the counter. Free value, log 2. -/
opaque freeWord : Nat → Nat

/-- A word of the state dump whose value the spec does not give: the freeze, the dump address. Free value, log 24. -/
opaque dumpFree : Nat → Nat → Nat

/-- The line of main memory, by its sector number, that a place of a cache array holds in a freeze, if any: the freeze, the dump space, the die, the
place. Free value, log 24. -/
opaque cachedLine : Nat → Nat → Nat → Nat → Option Nat

/-- FEATAV of the FD1-2048: features 0 to 17 present (Table 3.4). -/
def featav : BitVec 32 := 0x3FFFF#32

/-- The IEEE 1149.1 identification code (R20). -/
def idcode : BitVec 32 := 0x1F1D0C5B#32

/-- Bytes of main memory, 768 GiB (Table 3.1). -/
def memBytes : Nat := 0xC000000000

/-- The cairn count, 2^20 (R195). -/
def cairnCount : Nat := 1048576

end Sys2Proof.Config
end

