-- ==== Sys2Proof/Syntax.lean ====
section
/-! DEFINITION. The steps of the device: one constructor of Instr for each row of the table of operations and events, with their operands. -/

namespace Sys2Proof

/-- Element formats of a node record, in code order (Table 11.2). -/
inductive Fmt where
  | i8 | i16 | i32 | i64 | n8 | n16 | n32 | n64 | f32 | f16 | bf16 | e4m3 | e5m2 | a8 | a4 | ref
  deriving DecidableEq, Repr

/-- Source of a left or right port (Table 13.2, LSRC and RSRC). -/
inductive Src where
  | token | literal | held | zero
  deriving DecidableEq, Repr

/-- Predicate mode (Table 13.2, PMODE). -/
inductive PMode where
  | always | ifTrue | ifFalse | steer
  deriving DecidableEq, Repr

/-- Port of a node (Table 13.3). -/
inductive Port where
  | left | right | pred | ctl
  deriving DecidableEq, Repr

/-- A target field (Table 13.3): not wired, a node's port, or a region port. -/
inductive Target where
  | unwired
  | node (port : Port) (n : BitVec 7)
  | region (q : BitVec 4)
  deriving DecidableEq, Repr

/-- The operand fields of a node record (Table 13.2); the opcode is the constructor of Instr. -/
structure NodeRec where
  fmt : Fmt
  mod : BitVec 8
  lsrc : Src
  rsrc : Src
  pmode : PMode
  t0 : Target
  t1 : Target
  lit : BitVec 32
  deriving DecidableEq, Repr

/-- The operand fields of a control record (Table 13.4); the opcode is the constructor of Instr. -/
structure CtlRec where
  d : BitVec 5
  a : BitVec 5
  b : BitVec 5
  cc : BitVec 3
  m : BitVec 4
  imm : Word
  deriving DecidableEq, Repr

/-- A Solry link header (Table 2.1). -/
structure FlitHdr where
  typ : BitVec 4
  vch : BitVec 2
  ddev : BitVec 12
  sdev : BitVec 12
  ctx : BitVec 12
  seq : BitVec 12
  ack : BitVec 12
  cred : BitVec 6
  rsv : BitVec 8
  crc : BitVec 16
  deriving DecidableEq, Repr

/-- A flit received on a port: its header and the 84 bytes of its body (R29). -/
structure Flit where
  port : Nat
  hdr : FlitHdr
  body : List Byte
  deriving DecidableEq, Repr

/-- A system command's 64-byte descriptor, words 0 to 7 (R72). -/
structure SysCmd where
  w0 : Word
  w1 : Word
  w2 : Word
  w3 : Word
  w4 : Word
  w5 : Word
  w6 : Word
  w7 : Word
  deriving DecidableEq, Repr

/-- A write access to a management register: offset, width in bytes, value, and whether it came in a flit (R59). -/
structure RegAccess where
  off : Nat
  width : Nat
  val : Word
  fabric : Bool
  deriving DecidableEq, Repr

/-- Why a port declares a link fault (R34). -/
inductive LinkCause where
  | replays | silence | misaligned | peerFrozen
  deriving DecidableEq, Repr

/-- Where an uncorrectable error is found (Table 10.5); or an error of one bit, which the ECC of an array corrects and a partition counts (R228). -/
inductive EccPlace where
  | sector (n : Nat)
  | foldRow (tile row : Nat)
  | matching (tile idx : Nat)
  | channel (tile idx : Nat)
  | missBuffer (tile idx : Nat)
  | elementSlot (tile pe : Nat)
  | accumulator (tile pe : Nat)
  | coreState (key : Nat)
  | orphanLine (sector : Nat)
  | corrected (part : Nat)
  deriving DecidableEq, Repr

/-- The steps of the device, one constructor for each row of the opcode table: events, control records and node records.
A step that acts on something received (a flit, a register access, a management or system command) takes it from the
head of its queue in State; these steps and those without operands stand last. -/
inductive Instr where
  /-- POWER_SAMPLE (R11). -/
  | powerSample (watts : Nat)
  /-- THERMAL_SAMPLE (R17). -/
  | thermalSample (temps : List Nat) (inlet flow : Nat)
  /-- FREEZE_TRIGGER (R18). -/
  | freezeTrigger (periods : Nat)
  /-- CLOCK_STOP (R18). -/
  | clockStop (lag : Nat)
  /-- SAMPLE_PRELOAD (R20). -/
  | samplePreload (pins : Word)
  /-- EXTEST (R20). -/
  | extest (pins : Word)
  /-- STATEDUMP (R20). -/
  | statedump (addr : Word) (write : Bool)
  /-- PORT_TRAINED (R28). -/
  | portTrained (port : Nat) (lo hi : Bool)
  /-- IDLE_NULL_TIMER (R33). -/
  | idleNullTimer (port : Nat)
  /-- LINK_FAULT (R34). -/
  | linkFault (port : Nat) (cause : LinkCause)
  /-- ROUTE_REHASH (R39). -/
  | routeRehash (mdie dev port : Nat)
  /-- CLASS_RELEASE_TIMER (R41). -/
  | classReleaseTimer (port sdev ctx : Nat)
  /-- WAIT_RETRY_TIMER (R46). -/
  | waitRetryTimer (tag : Nat)
  /-- STAGING_TIMEOUT (R50). -/
  | stagingTimeout (cdev xid : Nat)
  /-- QUERY_TIMER (R51). -/
  | queryTimer (cdev xid : Nat)
  /-- KEEP_ALIVE_TIMER (R350). -/
  | keepAliveTimer (xid : Nat)
  /-- COMMIT_RESEND (R52). -/
  | commitResend (xid : Nat)
  /-- PAGE_MOVE (R55). -/
  | pageMove (frame dev : Nat)
  /-- LAUNCH_DESCRIPTOR_TAKE (R67). -/
  | launchDescriptorTake (q die : Nat)
  /-- HELD_LAUNCH_RELEASE (R68). -/
  | heldLaunchRelease (lid : Nat)
  /-- REGION_REPLACE_SWITCH (R75). -/
  | regionReplaceSwitch (key : Nat)
  /-- DISPATCH_CHOICE (R88). -/
  | dispatchChoice (die : Nat)
  /-- L2_MODE_SWITCH (R162). -/
  | l2ModeSwitch (part : Nat)
  /-- PREEMPT (R102). -/
  | preempt (key : Nat)
  /-- BIVOUAC_EXCHANGE (R107). -/
  | bivouacExchange (part : Nat)
  /-- REGION_RESUME (R109). -/
  | regionResume (pid : Nat)
  /-- ARBITER_WINDOW (R98). -/
  | arbiterWindow (tile pe : Nat)
  /-- REPLICATE (R99). -/
  | replicate (key bslot : Nat)
  /-- REPLICA_WITHDRAW (R101). -/
  | replicaWithdraw (key bslot : Nat)
  /-- CONFIG_FETCH_DONE (R93). -/
  | configFetchDone (idx : Nat)
  /-- BLOCK_FETCH (R456). -/
  | blockFetch (key : Nat)
  /-- BLOCK_COMMIT (R123). -/
  | blockCommit (key : Nat)
  /-- FABRIC_BLOCK_MAP (R125). -/
  | fabricBlockMap (key bslot : Nat)
  /-- TOKEN_ARRIVAL (R126). -/
  | tokenArrival (tile idx : Nat)
  /-- UNIT_COMPLETE (R78). -/
  | unitComplete (key bslot : Nat)
  /-- LAUNCH_COMPLETE (R78). -/
  | launchComplete (lid : Nat)
  /-- CANCEL_ADVANCE (R83). -/
  | cancelAdvance (lid : Nat)
  /-- FAULT_TOKEN_ENTRY (R225). -/
  | faultTokenEntry (key : Nat)
  /-- TRAP_ENTRY (R325). -/
  | trapEntry (key : Nat)
  /-- MINOR_FAULT_SERVED (R175). -/
  | minorFaultServed (idx : Nat)
  /-- BUDGET_EXCEEDED (R174). -/
  | budgetExceeded (idx : Nat)
  /-- MAJOR_FAULT_SAVE (R176). -/
  | majorFaultSave (key : Nat)
  /-- MAJOR_FAULT_SERVED (R176). -/
  | majorFaultServed (pid : Nat) (resident : Bool)
  /-- PE_CHECK_FAILURE (R229). -/
  | peCheckFailure (tile pe : Nat)
  /-- CC_ECC_ERROR (R232). -/
  | ccEccError (key : Nat) (committed : Bool)
  /-- UNCORRECTABLE_ERROR (R228). -/
  | uncorrectableError (place : EccPlace)
  /-- TIMESTAMP_REBASE (R191). -/
  | timestampRebase (mdie : Nat)
  /-- CAIRN_WAIT_COMPLETE (R196). -/
  | cairnWaitComplete (idx : Nat)
  /-- IDLE_WAKE (R331). -/
  | idleWake (key : Nat)
  /-- STALLED_PUT_PROCEED (R143). -/
  | stalledPutProceed (tile idx : Nat)
  /-- READ_REEVALUATE (R145). -/
  | readReevaluate (tile idx : Nat)
  /-- BARRIER_RETRY (R210). -/
  | barrierRetry (tile idx : Nat)
  /-- RELOC_RUN (R212). -/
  | relocRun (mdie : Nat)
  /-- STREAM_SCOREBOARD_STEP (R339). -/
  | streamScoreboardStep (tile port : Nat)
  /-- LOAD_STREAM_TOKEN (R336). -/
  | loadStreamToken (tile port : Nat)
  /-- STORE_STREAM_TOKEN (R336). -/
  | storeStreamToken (tile port : Nat)
  /-- STREAM_COMPLETE (R338). -/
  | streamComplete (tile port : Nat)
  /-- ENGINE_DRAIN (R342). -/
  | engineDrain (key idx : Nat)
  /-- ADD (R294). -/
  | addS (r : CtlRec)
  /-- SUB (R294). -/
  | subS (r : CtlRec)
  /-- MUL (R294). -/
  | mulS (r : CtlRec)
  /-- MULH (R294). -/
  | mulhS (r : CtlRec)
  /-- DIV (R295). -/
  | divS (r : CtlRec)
  /-- REM (R295). -/
  | remS (r : CtlRec)
  /-- AND (R294). -/
  | andS (r : CtlRec)
  /-- OR (R294). -/
  | orS (r : CtlRec)
  /-- XOR (R294). -/
  | xorS (r : CtlRec)
  /-- ANDN (R294). -/
  | andnS (r : CtlRec)
  /-- SHL (R294). -/
  | shlS (r : CtlRec)
  /-- SHR (R294). -/
  | shrS (r : CtlRec)
  /-- SAR (R294). -/
  | sarS (r : CtlRec)
  /-- MIN (R294). -/
  | minS (r : CtlRec)
  /-- MAX (R294). -/
  | maxS (r : CtlRec)
  /-- MOVI (R296). -/
  | movi (r : CtlRec)
  /-- SEL (R296). -/
  | sel (r : CtlRec)
  /-- SETC (R296). -/
  | setc (r : CtlRec)
  /-- CLZ (R296). -/
  | clz (r : CtlRec)
  /-- POPC (R296). -/
  | popc (r : CtlRec)
  /-- LDS (R297). -/
  | lds (r : CtlRec)
  /-- STS (R297). -/
  | sts (r : CtlRec)
  /-- CSRR (R298). -/
  | csrr (r : CtlRec)
  /-- CSRW (R298). -/
  | csrw (r : CtlRec)
  /-- RUN (R299). -/
  | run (r : CtlRec)
  /-- RUNW (R299). -/
  | runw (r : CtlRec)
  /-- EXIT (R301). -/
  | exitB (r : CtlRec)
  /-- EXITC (R301). -/
  | exitc (r : CtlRec)
  /-- CALLB (R302). -/
  | callb (r : CtlRec)
  /-- RETB (R302). -/
  | retb (r : CtlRec)
  /-- REPLACE (R304). -/
  | replaceB (r : CtlRec)
  /-- BWAIT (R303). -/
  | bwait (r : CtlRec)
  /-- FEAT (R305). -/
  | feat (r : CtlRec)
  /-- FDECL (R306). -/
  | fdecl (r : CtlRec)
  /-- FRESIZE (R154). -/
  | fresize (r : CtlRec)
  /-- FQRY (R308). -/
  | fqry (r : CtlRec)
  /-- FDROP (R309). -/
  | fdrop (r : CtlRec)
  /-- FSPILL (R310). -/
  | fspill (r : CtlRec)
  /-- FFILL (R310). -/
  | ffill (r : CtlRec)
  /-- CNEW (R311). -/
  | cnew (r : CtlRec)
  /-- CADD (R312). -/
  | cadd (r : CtlRec)
  /-- CWAIT (R313). -/
  | cwait (r : CtlRec)
  /-- CRD (R314). -/
  | crd (r : CtlRec)
  /-- LAUNCH (R315). -/
  | launch (r : CtlRec)
  /-- CANCEL (R316). -/
  | cancel (r : CtlRec)
  /-- ARM (R317). -/
  | arm (r : CtlRec)
  /-- SBIND (R339). -/
  | sbind (r : CtlRec)
  /-- SGO (R339). -/
  | sgo (r : CtlRec)
  /-- SSTOP (R339). -/
  | sstop (r : CtlRec)
  /-- SBAR (R341). -/
  | sbar (r : CtlRec)
  /-- COPY (R344). -/
  | copy (r : CtlRec)
  /-- GATHER (R345). -/
  | gather (r : CtlRec)
  /-- SCATTER (R345). -/
  | scatter (r : CtlRec)
  /-- CRED (R347). -/
  | cred (r : CtlRec)
  /-- RPUT (R346). -/
  | rput (r : CtlRec)
  /-- RGET (R346). -/
  | rget (r : CtlRec)
  /-- XBEGIN (R348). -/
  | xbegin (r : CtlRec)
  /-- XPUT (R349). -/
  | xput (r : CtlRec)
  /-- XCOMMIT (R350). -/
  | xcommit (r : CtlRec)
  /-- XABORT (R350). -/
  | xabort (r : CtlRec)
  /-- HLD (R318). -/
  | hld (r : CtlRec)
  /-- HST (R318). -/
  | hst (r : CtlRec)
  /-- HMOV (R319). -/
  | hmov (r : CtlRec)
  /-- HPIN (R320). -/
  | hpin (r : CtlRec)
  /-- HUNPIN (R320). -/
  | hunpin (r : CtlRec)
  /-- HCMP (R320). -/
  | hcmp (r : CtlRec)
  /-- HNEW (R321). -/
  | hnew (r : CtlRec)
  /-- RELOC (R322). -/
  | reloc (r : CtlRec)
  /-- RELQ (R323). -/
  | relq (r : CtlRec)
  /-- SNAP (R324). -/
  | snap (r : CtlRec)
  /-- SNAPDROP (R324). -/
  | snapdrop (r : CtlRec)
  /-- TRAP (R327). -/
  | trap (r : CtlRec)
  /-- TRAP_RD (R327). -/
  | trapRd (r : CtlRec)
  /-- TRAP_POP (R327). -/
  | trapPop (r : CtlRec)
  /-- RETT (R328). -/
  | rett (r : CtlRec)
  /-- EFENCE (R329). -/
  | efence (r : CtlRec)
  /-- HALT (R330). -/
  | halt (r : CtlRec)
  /-- IDLE (R331). -/
  | idle (r : CtlRec)
  /-- TLBINV (R332). -/
  | tlbinv (r : CtlRec)
  /-- ADD_NODE (R354). -/
  | addNode (n : NodeRec)
  /-- SUB_NODE (R354). -/
  | subNode (n : NodeRec)
  /-- MUL_NODE (R354). -/
  | mulNode (n : NodeRec)
  /-- MULH_NODE (R354). -/
  | mulhNode (n : NodeRec)
  /-- MAD (R354). -/
  | mad (n : NodeRec)
  /-- MIN_NODE (R354). -/
  | minNode (n : NodeRec)
  /-- MAX_NODE (R354). -/
  | maxNode (n : NodeRec)
  /-- ABS (R354). -/
  | abs (n : NodeRec)
  /-- NEG (R354). -/
  | neg (n : NodeRec)
  /-- ADDA (R356). -/
  | adda (n : NodeRec)
  /-- IDX (R357). -/
  | idx (n : NodeRec)
  /-- IOTA (R358). -/
  | iota (n : NodeRec)
  /-- SAD (R355). -/
  | sad (n : NodeRec)
  /-- AND_NODE (R359). -/
  | andNode (n : NodeRec)
  /-- OR_NODE (R359). -/
  | orNode (n : NodeRec)
  /-- XOR_NODE (R359). -/
  | xorNode (n : NodeRec)
  /-- ANDN_NODE (R359). -/
  | andnNode (n : NodeRec)
  /-- NOT (R359). -/
  | notNode (n : NodeRec)
  /-- SHL_NODE (R360). -/
  | shlNode (n : NodeRec)
  /-- SHR_NODE (R360). -/
  | shrNode (n : NodeRec)
  /-- SAR_NODE (R360). -/
  | sarNode (n : NodeRec)
  /-- ROT (R360). -/
  | rot (n : NodeRec)
  /-- CLZ_NODE (R361). -/
  | clzNode (n : NodeRec)
  /-- POPC_NODE (R361). -/
  | popcNode (n : NodeRec)
  /-- BFX (R362). -/
  | bfx (n : NodeRec)
  /-- BFI (R362). -/
  | bfi (n : NodeRec)
  /-- CMP (R363). -/
  | cmp (n : NodeRec)
  /-- SEL_NODE (R364). -/
  | selNode (n : NodeRec)
  /-- PERM (R365). -/
  | perm (n : NodeRec)
  /-- BCAST (R365). -/
  | bcast (n : NodeRec)
  /-- SHFL (R365). -/
  | shfl (n : NodeRec)
  /-- RED (R366). -/
  | red (n : NodeRec)
  /-- SCAN (R367). -/
  | scan (n : NodeRec)
  /-- COMPACT (R368). -/
  | compact (n : NodeRec)
  /-- EXPAND (R369). -/
  | expand (n : NodeRec)
  /-- PACK (R370). -/
  | pack (n : NodeRec)
  /-- UNPACK (R370). -/
  | unpack (n : NodeRec)
  /-- VMASK (R371). -/
  | vmask (n : NodeRec)
  /-- FAN (R372). -/
  | fan (n : NodeRec)
  /-- MERGE (R373). -/
  | merge (n : NodeRec)
  /-- DELAY (R374). -/
  | delay (n : NodeRec)
  /-- TAG (R375). -/
  | tag (n : NodeRec)
  /-- LAST (R376). -/
  | lastNode (n : NodeRec)
  /-- SINK (R377). -/
  | sink (n : NodeRec)
  /-- FADD (R380). -/
  | fadd (n : NodeRec)
  /-- FSUB (R380). -/
  | fsub (n : NodeRec)
  /-- FMUL (R380). -/
  | fmul (n : NodeRec)
  /-- FFMA (R380). -/
  | ffma (n : NodeRec)
  /-- FMIN (R382). -/
  | fmin (n : NodeRec)
  /-- FMAX (R382). -/
  | fmax (n : NodeRec)
  /-- FCMP (R383). -/
  | fcmp (n : NodeRec)
  /-- FSGN (R384). -/
  | fsgn (n : NodeRec)
  /-- FCLASS (R385). -/
  | fclass (n : NodeRec)
  /-- FSFU (R386). -/
  | fsfu (n : NodeRec)
  /-- CVT (R388). -/
  | cvt (n : NodeRec)
  /-- FTOI (R389). -/
  | ftoi (n : NodeRec)
  /-- ITOF (R389). -/
  | itof (n : NodeRec)
  /-- FRND (R390). -/
  | frnd (n : NodeRec)
  /-- QMAX (R391). -/
  | qmax (n : NodeRec)
  /-- QCVT (R392). -/
  | qcvt (n : NodeRec)
  /-- DQT (R395). -/
  | dqt (n : NodeRec)
  /-- SCALE (R396). -/
  | scaleNode (n : NodeRec)
  /-- SCACC (R407). -/
  | scacc (n : NodeRec)
  /-- RNG (R397). -/
  | rng (n : NodeRec)
  /-- MLDB (R401). -/
  | mldb (n : NodeRec)
  /-- MROW (R403). -/
  | mrow (n : NodeRec)
  /-- MQROW (R404). -/
  | mqrow (n : NodeRec)
  /-- MREC (R405). -/
  | mrec (n : NodeRec)
  /-- MOUT (R406). -/
  | mout (n : NodeRec)
  /-- PPSET (R411). -/
  | ppset (n : NodeRec)
  /-- PPMUL (R412). -/
  | ppmul (n : NodeRec)
  /-- PPDIV (R413). -/
  | ppdiv (n : NodeRec)
  /-- PPCMB (R414). -/
  | ppcmb (n : NodeRec)
  /-- PPNRM (R415). -/
  | ppnrm (n : NodeRec)
  /-- PPOUT (R416). -/
  | ppout (n : NodeRec)
  /-- XLAT (R419). -/
  | xlat (n : NodeRec)
  /-- LD (R420). -/
  | ld (n : NodeRec)
  /-- ST (R420). -/
  | st (n : NodeRec)
  /-- LDG (R421). -/
  | ldg (n : NodeRec)
  /-- STX (R421). -/
  | stx (n : NodeRec)
  /-- PREF (R422). -/
  | pref (n : NodeRec)
  /-- PUT (R423). -/
  | putNode (n : NodeRec)
  /-- GET (R424). -/
  | getNode (n : NodeRec)
  /-- GETR (R425). -/
  | getr (n : NodeRec)
  /-- RLS (R424). -/
  | rls (n : NodeRec)
  /-- HLD_NODE (R427). -/
  | hldNode (n : NodeRec)
  /-- HST_NODE (R427). -/
  | hstNode (n : NodeRec)
  /-- HNEW_NODE (R428). -/
  | hnewNode (n : NodeRec)
  /-- HPIN_NODE (R429). -/
  | hpinNode (n : NodeRec)
  /-- HUNPIN_NODE (R429). -/
  | hunpinNode (n : NodeRec)
  /-- HCMP_NODE (R429). -/
  | hcmpNode (n : NodeRec)
  /-- CADD_NODE (R430). -/
  | caddNode (n : NodeRec)
  /-- CWAIT_NODE (R430). -/
  | cwaitNode (n : NodeRec)
  /-- BIN (R431). -/
  | bin (n : NodeRec)
  /-- BOUT (R431). -/
  | bout (n : NodeRec)
  /-- TAP (R432). -/
  | tap (n : NodeRec)
  /-- VOTE (R433). -/
  | vote (n : NodeRec)
  /-- TRAP_NODE (R434). -/
  | trapNode (n : NodeRec)
  /-- BRK (R239). -/
  | brk (n : NodeRec)
  /-- TRACE (R435). -/
  | trace (n : NodeRec)
  /-- EFENCE_NODE (R436). -/
  | efenceNode (n : NodeRec)
  /-- NOP (R434). -/
  | nop (n : NodeRec)
  /-- ABORTED_RECORD_TIMEOUT (R53). -/
  | abortedRecordTimeout (xid : Nat)
  /-- COLD_RESET (R14). -/
  | coldReset
  /-- WARM_RESET (R15). -/
  | warmReset
  /-- RESET_RESTART (R16). -/
  | resetRestart
  /-- THERMAL_TRIP (R17). -/
  | thermalTrip
  /-- FREEZE (R24). -/
  | freezeCmd
  /-- WARMRESET (R24). -/
  | warmresetCmd
  /-- CONT (R24). -/
  | contCmd
  /-- DUMPDATA_READ (R25). -/
  | dumpdataRead
  /-- BYPASS (R20). -/
  | bypass
  /-- IDCODE (R20). -/
  | idcode
  /-- REGISTER_WRITE (R58). -/
  | registerWrite
  /-- DEVNUM_WRITE (R60). -/
  | devnumWrite
  /-- FEATEN_WRITE (R62). -/
  | featenWrite
  /-- LQCTL_WRITE (R66). -/
  | lqctlWrite
  /-- SCQCTL_WRITE (R71). -/
  | scqctlWrite
  /-- NULL (R33). -/
  | nullFlit
  /-- RDREQ (R45). -/
  | rdreq
  /-- WRREQ (R45). -/
  | wrreq
  /-- RDRSP (R45). -/
  | rdrsp
  /-- WRACK (R45). -/
  | wrack
  /-- TOKEN (R43). -/
  | tokenFlit
  /-- CAIRN_ADD (R195). -/
  | cairnAdd
  /-- CAIRN_WAIT (R46). -/
  | cairnWait
  /-- CAIRN_READ (R195). -/
  | cairnRead
  /-- GREPLY (R32). -/
  | greply
  /-- HOP_READ_HEADER (R223). -/
  | hopReadHeader
  /-- HOP_PIN (R223). -/
  | hopPin
  /-- HOP_UNPIN (R223). -/
  | hopUnpin
  /-- HOP_WAIT (R223). -/
  | hopWait
  /-- CLASS_BIND (R41). -/
  | classBind
  /-- CLASS_RELEASE (R41). -/
  | classRelease
  /-- XSTAGE (R47). -/
  | xstage
  /-- PREPARE (R48). -/
  | prepareTxn
  /-- READY (R48). -/
  | readyTxn
  /-- COMMIT (R49). -/
  | commitTxn
  /-- ABORT (R50). -/
  | abortTxn
  /-- DONE (R48). -/
  | doneTxn
  /-- QUERY (R51). -/
  | queryTxn
  /-- KEEP (R350). -/
  | keepTxn
  /-- RECORD_RESUME (R53). -/
  | recordResume
  /-- SYSTEM_COMMAND_TAKE (R71). -/
  | systemCommandTake
  /-- CTXNEW (R76). -/
  | ctxnew
  /-- CTXFREE (R76). -/
  | ctxfree
  /-- CANCEL_COMMAND (R73). -/
  | cancelCommand
  /-- SNAP_COMMAND (R74). -/
  | snapCommand
  /-- SNAPDROP_COMMAND (R182). -/
  | snapdropCommand
  /-- REPLACE_COMMAND (R75). -/
  | replaceCommand
  /-- CFGINV (R65). -/
  | cfginv
  /-- TOPO (R61). -/
  | topo
  /-- CINIT (R77). -/
  | cinit
  /-- MALFORMED_COMMAND (R24). -/
  | malformedCommand
  deriving DecidableEq, Repr

end Sys2Proof
end

