-- ==== Sys2Proof/Machine/State.lean ====
section
/-! DEFINITION. The state of the machine, as plain data: everything the spec gives the device, and the reasons a step stops. -/

namespace Sys2Proof.Machine

/-- A sparse table: keys strictly rising. -/
abbrev Tab (α : Type) := List (Nat × α)

/-- One lane of a token: an element with its VALID and POISON bits (R116). -/
structure Lane where
  val : Elem
  valid : Bool
  poison : Bool
  deriving DecidableEq, Repr

/-- Token flags (Table 5.5); FAULT tokens travel as fault records. -/
structure Flags where
  last : Bool
  scaled : Bool
  mixed : Bool
  compl : Bool
  tear : Bool
  permit : Bool
  deriving DecidableEq, Repr

/-- A token: header (Table 5.4) and 16 lanes. `copy` is the TMR copy it travels for (R235), not a header field. -/
structure Token where
  ctx : Nat
  bslot : Nat
  node : Nat
  port : Port
  itag : BitVec 32
  loff : List Nat
  flags : Flags
  lanes : List Lane
  copy : Nat
  deriving DecidableEq, Repr

/-- A fault record (Tables 10.1, 10.2). -/
structure FaultRec where
  ctx : Nat
  part : Nat
  x : Nat
  y : Nat
  rtile : Nat
  bslot : Nat
  node : Nat
  agent : Nat
  cls : Nat
  reason : Nat
  elem : Nat
  code : Nat
  itag : BitVec 32
  blkid : Nat
  seq : Nat
  addr : Word
  aux0 : Word
  aux1 : Word
  cycle : Word
  ts : Nat
  emask : BitVec 16
  deriving DecidableEq, Repr

/-- A block header (Table 13.1). -/
structure BlockHdr where
  ncnt : Nat
  control : Bool
  ndecl : Nat
  timing : Nat
  blkid : Nat
  next : Nat
  freq : Nat
  deriving DecidableEq, Repr

/-- A fetched block image: header, instruction records, declaration records (R274). -/
structure Image where
  hdr : BlockHdr
  recs : List Rec96
  decls : List Rec96
  deriving DecidableEq, Repr

/-- Progress of a block-in-flight entry (R122). -/
inductive BifPhase where
  | fetched | issued | mapped | cancelled
  deriving DecidableEq, Repr

/-- A block-in-flight entry (R122, Table 5.9): address, kind, tile mask, completion cairn, progress; `blockOrder` is the order of the block whose RUN or
RUNW issued a unit, or the unit's own where control flow reached it. -/
structure Bif where
  addr : Nat
  image : Image
  phase : BifPhase
  mask : BitVec 128
  cairn : Option Nat
  holdCommits : Bool
  order : Nat
  blockOrder : Nat
  deriving DecidableEq, Repr

/-- One access of a firing, record or port: at most one aligned 32-byte beat (R190). `data` is what a store writes, or what a
load has read; `issue` its number among the region's accesses (R329); `err` its error status (R234). Pieces of one `group` but 0, those of a row or
of a stream's token, are performed beat by beat (R189); `tag` is that of the request it was sent with. -/
structure Acc where
  addr : Nat
  len : Nat
  lane : Nat
  store : Bool
  data : List Byte
  psn : Bool
  full : Bool
  va : Nat
  issue : Nat
  sent : Bool
  done : Bool
  err : Bool
  group : Nat
  tag : Nat
  deriving DecidableEq, Repr

/-- How a control block ends (R279), as its records have left it. -/
inductive BlockEnd where
  | fall | goto (a : Nat) | rett | halt
  deriving DecidableEq, Repr

/-- The control block being evaluated (R124, R292): working registers, the status registers as they stood before it, position, effects that stand,
what its commit will do (`pops` the SEQ of
records it retires, `cancels` its CANCELs as level and number, `empties` the cairns of its units of no instance). `descs` is what its checks have read from other devices, by record and address,
`asking` what they are reading (R334, R451). -/
structure Work where
  slot : Nat
  pc : Nat
  s : List Word
  h : List Word
  csrs : Tab Word
  csrw : List (Nat × Word)
  efx : Nat
  checked : Bool
  ending : BlockEnd
  trapCode : Option Nat
  pops : List Nat
  idle : Option Nat
  cancels : List (Nat × Word)
  accs : List Acc
  begun : Bool
  aux : List Nat
  empties : List Nat
  descs : List (Nat × Nat × List Byte)
  asking : Option (Nat × Nat)
  deriving DecidableEq, Repr

/-- Why a region is not running (R102, R105, R176, R239). -/
inductive RunState where
  | running
  | brk
  | preempted
  | major (code : Nat)
  | stopped
  deriving DecidableEq, Repr

/-- A translation cache entry (R169): context, virtual base, leaf fields. -/
structure TlbEntry where
  ctx : Nat
  vbase : Nat
  size : Nat
  pa : Nat
  w : Bool
  x : Bool
  heap : Bool
  cow : Bool
  deriving DecidableEq, Repr

/-- Page state of a heap frame (R208). -/
inductive PageState where
  | normal | evacuating | forwarded
  deriving DecidableEq, Repr

/-- A barrier cache entry (R209): a heap page's translation and page state. -/
structure BarEntry where
  ctx : Nat
  page : Nat
  pa : Nat
  st : PageState
  w : Bool
  cow : Bool
  deriving DecidableEq, Repr

/-- An open allocation buffer of one heap (R219): virtual page, physical page, fill. -/
structure HeapBuf where
  va : Nat
  pa : Nat
  fill : Nat
  deriving DecidableEq, Repr

/-- Who waits for a remote response, a cairn or a minor fault: a control core, a firing, a stream port, an engine by its number, the device on
whose behalf this one asks (with the port it asked by and its tag), an image fetch, a parked region, an arc, a cancelled region, a
transaction applied to a moved page, the SCC. -/
inductive Who where
  | core (key : Nat)
  | fire (tile id : Nat)
  | stream (tile port : Nat)
  | engine (key id : Nat)
  | remote (dev port tag : Nat)
  | fetch (key : Nat)
  | parked (pid : Nat)
  | arc (src : Nat)
  | gone (key : Nat)
  | txn (cdev xid : Nat)
  | scc
  deriving DecidableEq, Repr

/-- A request outstanding at a remote home (R32, R45); `lost` the failed port it was reissued from (R35, R39). -/
structure Req where
  tag : Nat
  typ : Nat
  dev : Nat
  port : Nat
  ctx : Nat
  addr : Nat
  mask : BitVec 64
  operand : Word
  body : List Byte
  who : Who
  lost : Option Nat
  retry : Bool
  deriving DecidableEq, Repr

/-- A response kept for a parked region (R103): the request, the response's body, or the fault code it ended with. -/
structure PendResp where
  req : Req
  body : List Byte
  fault : Option Nat
  deriving DecidableEq, Repr

/-- A piece of an engine's work: `n` bytes at `off` of the whole, its row's index, and the accesses under way: at stage 0 of the index, at 1 of the
source, at 2 of the destination. One without accesses has not begun (R193). -/
structure EngPiece where
  off : Nat
  n : Nat
  stage : Nat
  idx : Nat
  accs : List Acc
  deriving DecidableEq, Repr

/-- An engine command handed over and not drained (R342): what is left of its work, the stage of its signal, a CRED's ordinal in its group. -/
structure Engine where
  id : Nat
  words : List Word
  unit : Option Nat
  blockOrder : Nat
  cairn : Option Nat
  work : List EngPiece
  signal : Nat
  stopped : Bool
  faulted : Bool
  minor : Bool
  joined : Nat
  deriving DecidableEq, Repr

/-- A copy of a unit on free tiles beside its region (R99): for each tile of the unit, by its number in the region, the copy's tile as its
distances from the region's origin, each 16 more than it is. -/
structure Replica where
  bslot : Nat
  id : Nat
  places : List (Nat × Nat × Nat)
  draining : Bool
  torn : Bool
  deriving DecidableEq, Repr

/-- A region bound to a control core (R110 to R113, R122, R225). `idle` is the limit, CYCLE at the block's end, and whether an event is due
(R331); `haltDue` that a pre-emption waits for a resize that has moved its panels (R157); `trapped` that a trap was taken and nothing has been done since. -/
structure Region where
  ctx : Nat
  part : Nat
  core : Nat
  x0 : Nat
  y0 : Nat
  w : Nat
  hgt : Nat
  launch : Nat
  s : List Word
  h : List Word
  exsum : Word
  cycle : Word
  fwb : Word
  fqlost : Nat
  trapbase : Word
  trapblk : Word
  trapcause : Word
  blocks : Tab Bif
  fetched : List Nat
  nextFetch : Option Nat
  nextOrder : Nat
  work : Option Work
  queue : List FaultRec
  seq : Nat
  trapRec : Option FaultRec
  faultTokens : List FaultRec
  run : RunState
  haltAfter : Bool
  haltDue : Bool
  idle : Option (Nat × Nat × Bool)
  trapped : Bool
  pend : List PendResp
  engines : List Engine
  issued : Nat
  errs : List (Nat × Nat)
  txn : Option Nat
  tlb : List TlbEntry
  barrier : List BarEntry
  bufs : Tab HeapBuf
  minor : Bool
  waiting : Bool
  cancelling : Bool
  ccErr : Option Nat
  replaceMark : Bool
  redirect : List (Nat × Nat × Nat)
  placedAt : Nat
  replicas : List Replica
  deriving DecidableEq, Repr

/-- A node record mapped in an element-memory slot (R115, R353) and the state it keeps between firings (R353, R394, R431). `leaving` the cycles its
TEAR has still to go before the slot is free (R130). -/
structure NodeInst where
  ctx : Nat
  bslot : Nat
  node : Nat
  copy : Nat
  bits : Rec96
  word : Elem
  heldL : Option Token
  heldR : Option Token
  ctlPort : Bool
  tear : List Port
  tearing : Bool
  leaving : Option Nat
  stopped : Bool
  ctlToks : Nat
  buf : List Token
  buf2 : List Token
  lanes : List Lane
  loffs : List Nat
  hi : Elem
  lo : Elem
  base : Elem
  name : Option (Nat × Nat)
  flag : Bool
  hist : List Nat
  deriving DecidableEq, Repr

/-- A matching-store entry (R126, R127). -/
structure Entry where
  ctx : Nat
  bslot : Nat
  node : Nat
  copy : Nat
  itag : BitVec 32
  ops : List Token
  since : Nat
  deriving DecidableEq, Repr

/-- The polynomial accumulator of a PE (R268). -/
structure PolyAcc where
  c : List Elem
  e : Int
  d : Nat
  trunc : Bool
  count : Nat
  lost : Bool
  deriving DecidableEq, Repr

/-- The input latches of one firing: node, ITAG, operand tokens (R115). -/
structure Latch where
  node : Nat
  itag : BitVec 32
  ops : List Token
  deriving DecidableEq, Repr

/-- A PE, or the MPE (number 17) (R115). `window` counts the cycles of the arbiter's window, `dealt` the firing slots of its present round (R98). -/
structure Pe where
  policy : BitVec 8
  sticky : BitVec 10
  slots : Tab NodeInst
  entries : List Entry
  acc : PolyAcc
  history : List Latch
  lastFail : Option Nat
  lastFire : Nat
  shares : Tab Nat
  occupancy : Tab Nat
  window : Nat
  dealt : Tab Nat
  deriving DecidableEq, Repr

/-- Why an operand set that has left the matching store has not finished. -/
inductive FireSt where
  | ready | minor | major | slot | released | moving | cairn
  deriving DecidableEq, Repr

/-- A complete operand set of a node, or a firing whose accesses are outstanding (R126, R418). -/
structure Firing where
  ctx : Nat
  bslot : Nat
  node : Nat
  copy : Nat
  pe : Nat
  slot : Nat
  itag : BitVec 32
  l : Option Token
  r : Option Token
  p : Option Token
  c : Option Token
  st : FireSt
  begun : Bool
  accs : List Acc
  lanes : List Lane
  healed : List Lane
  row : Nat
  aux : List Nat
  since : Nat
  id : Nat
  deriving DecidableEq, Repr

/-- Where an arc leads: a node of the tile, a store stream port of the tile, or the instance of a block elsewhere (R282). -/
inductive Dest where
  | node
  | store (port : Nat)
  | block (dev blkid : Nat)
  deriving DecidableEq, Repr

/-- A token in a channel or link buffer with its arc and its remaining timed cycles (R121, R131), of which the last `path` are travel. -/
structure ChanTok where
  tok : Token
  src : Nat
  left : Nat
  path : Nat
  timed : Bool
  dest : Dest
  deriving DecidableEq, Repr

/-- A token that an ordered merger holds (R100): the copy it came from, the tile it leaves from, and what leaves. -/
structure MergeTok where
  copy : Nat
  tile : Nat
  chan : ChanTok
  deriving DecidableEq, Repr

/-- State of a stream port (R339, R455). -/
inductive StreamSt where
  | idle | bound | running | closed
  deriving DecidableEq, Repr

/-- A command queued at a stream port (R339). -/
inductive SCmd where
  | bind (desc : List Word)
  | go
  | stop
  deriving DecidableEq, Repr

/-- A stream port of a tile (R336 to R339, R177, R240): `pos` tokens begun, `flight` those of them whose accesses are not done, by ordinal, `taken`
tokens counted in the digest, `fed` the units that have had a LAST from the port. -/
structure Stream where
  st : StreamSt
  desc : List Word
  pos : Nat
  taken : Nat
  queue : List (SCmd × Nat)
  buf : List Token
  flight : List (Nat × Token)
  accs : List Acc
  fed : List Nat
  ending : Bool
  dirty : Option (Nat × Nat)
  digest : Word
  order : Nat
  minor : Bool
  faulted : Bool
  deriving DecidableEq, Repr

/-- A declared statement (Table 6.1); LAT as the log2 of each modulus; `floor` the resize floor with its widths (R156). -/
structure Stmt where
  rows : Nat
  fmt : Nat
  rank : Nat
  lat : List Nat
  reads : Nat
  dir : List Bool
  base : Nat
  len : Nat
  dist : List Nat
  floor : Option Nat
  widths : List Nat
  resizing : Bool
  deriving DecidableEq, Repr

/-- State of a panel slot (Table 6.2). -/
inductive SlotState where
  | empty | filling | ready | draining
  deriving DecidableEq, Repr

/-- A slot entry (Table 6.2), and READS of the statement when the name now held began FILLING (R151). -/
structure Slot where
  stmt : Nat
  vec : Nat
  st : SlotState
  held : Bool
  rrem : Nat
  fcnt : Nat
  wnode : Nat
  rcnt : Nat
  claim : Nat
  reads : Nat
  deriving DecidableEq, Repr

/-- A fold-store row: a token's lanes with SCALED, MIXED and LOFF (R423). -/
structure Row where
  lanes : List Lane
  scaled : Bool
  mixed : Bool
  loff : List Nat
  deriving DecidableEq, Repr

/-- The stationary operand of the MPE (R400): format code, panel rows. -/
structure MpeB where
  fmt : Nat
  rows : List (List Lane)
  deriving DecidableEq, Repr

/-- A tile (R114). -/
structure Tile where
  pes : Tab Pe
  chans : List ChanTok
  miss : List ChanTok
  ready : List Firing
  streams : Tab Stream
  stmts : Tab Stmt
  slots : Tab Slot
  rows : Tab Row
  mpeB : Option MpeB
  tlb : List TlbEntry
  barrier : List BarEntry
  bufs : Tab HeapBuf
  delayUsed : Nat
  spareUsed : Option Nat
  fenced : List Nat
  nextId : Nat
  deriving DecidableEq, Repr

/-- The splitter and the mergers of a replicated unit (R99 to R101), by its region's key: the copy each ITAG is dealt to, whose turn is next, the
tokens that the mergers hold, and the ITAGs that a fault in a copy holds back. Copy 0 is the unit itself. -/
structure Split where
  key : Nat
  bslot : Nat
  dealt : Tab Nat
  next : Nat
  held : List MergeTok
  lost : List (Nat × Nat)
  deriving DecidableEq, Repr

/-- A parked region with its tiles' share of state by region tile number, in the bivouac of a partition or spilled to its save area (R106, R108);
`image` the save-area unit its image starts
at, `resident` whether no page is missing, `notCore` a control core it may not resume on (R232), `asked` its outstanding requests by tag with who asked, tiles by region tile number (R103), `splits` its splitters
and mergers, tiles by the same numbers (R101). -/
structure Parked where
  region : Region
  tiles : Tab Tile
  part : Option Nat
  image : Option Nat
  since : Nat
  resident : Bool
  notCore : Option Nat
  asked : List (Nat × Who)
  splits : List Split
  deriving DecidableEq, Repr

/-- A bound stream-class entry of a port (R41), with the cycle of the class's last flit; a class of this device with no entry at the peer covers
no channel. -/
structure ClassEntry where
  sdev : Nat
  ctx : Nat
  vchm : Nat
  last : Nat
  deriving DecidableEq, Repr

/-- A token that stands in a port's receive buffer (R43), with the device it came from and whether it takes a place of the pool. -/
structure HeldTok where
  sdev : Nat
  pool : Bool
  tok : Token
  deriving DecidableEq, Repr

/-- A flit that waits at the sender for its class's credit (R42). -/
structure WaitFlit where
  typ : Nat
  ddev : Nat
  ctx : Nat
  body : List Byte
  deriving DecidableEq, Repr

/-- A Solry port (R26, R33, R40, Table 2.4). `buffer` is the replay buffer; `inPool` the SEQ of its flits that went out against pool credits, `pool`
the credits left of each channel, `owed` those to be returned to the peer; `replays` counts the replays in a row of the buffer's first flit,
`lastGood` and `lastSent` are cycles (R33, R34). -/
structure PortSt where
  up : Bool
  degr : Bool
  lfault : Bool
  norsv : Nat
  replay : Nat
  classes : List ClassEntry
  nextSeq : Nat
  expect : Nat
  acked : Nat
  buffer : List Flit
  tokens : List HeldTok
  inPool : List Nat
  pool : List Nat
  owed : List Nat
  waiting : List WaitFlit
  replays : Nat
  lastGood : Nat
  lastSent : Nat
  replayAsked : Bool
  deriving DecidableEq, Repr

/-- A flit accepted and not yet served (R42, R46): whether it takes a place of the pool; of a read or write of a sector, the bytes whose beat has
been performed, as a mask, with what was read and its poison (R190). -/
structure HeldFlit where
  flit : Flit
  pool : Bool
  mask : Nat
  data : List Byte
  psn : Bool
  deriving DecidableEq, Repr

/-- A staged sector of a transaction at a target (R47, R349): the context that wrote it, its address, bytes, byte mask and poison. -/
structure Staged where
  ctx : Nat
  addr : Nat
  bytes : List Byte
  mask : BitVec 64
  poison : Bool
  deriving DecidableEq, Repr

/-- A transaction as its target holds it (R48 to R52): `need` the count a PREPARE named, `seen` the cycle of its last flit. -/
structure TgtTxn where
  cdev : Nat
  xid : Nat
  sectors : List Staged
  ready : Bool
  need : Option Nat
  seen : Nat
  deriving DecidableEq, Repr

/-- Phase of a transaction at its coordinator (Table 2.5). -/
inductive TxnPhase where
  | opened | preparing | committed | aborted
  deriving DecidableEq, Repr

/-- A target as the coordinator counts it: device, sectors staged, READY, DONE. -/
structure TxnTgt where
  dev : Nat
  count : Nat
  ready : Bool
  done : Bool
  deriving DecidableEq, Repr

/-- A transaction at its coordinator, opened by a launch; a record in main memory once it has an outcome (R48, R53): `survived` a warm reset,
`resumed` after it at cycle `since`; `reason` why it was aborted (Table 2.11). -/
structure Txn where
  xid : Nat
  launch : Nat
  cairn : Nat
  phase : TxnPhase
  targets : List TxnTgt
  total : Nat
  num : Nat
  survived : Bool
  resumed : Bool
  advanced : Bool
  unresolved : Bool
  since : Nat
  reason : Nat
  deriving DecidableEq, Repr

/-- What another member of a CRED collective has brought (R347): group, ordinal, rank, descriptor word 4, members, length, bytes, poisoned sectors. -/
structure CredIn where
  group : Nat
  kth : Nat
  rank : Nat
  w4 : Word
  len : Nat
  members : List Word
  data : List Byte
  poison : List Nat
  deriving DecidableEq, Repr

/-- State of a frame of main memory (R180, R181, R208, R56). `fwd` is where the page has moved (R55); `copies` the contexts that copied it on a
write, each with its copy (R181); `held` the snapshots that hold the frame. Addresses are global. -/
structure Frame where
  cow : Bool
  fwd : Option Nat
  copies : List (Nat × Nat)
  page : PageState
  moves : Nat
  frozen : Bool
  held : List (Nat × Nat)
  deriving DecidableEq, Repr

/-- A pending minor fault (R174, R175): kind (fault code), who met it, context, virtual and physical address, heap. -/
structure Minor where
  code : Nat
  who : Who
  ctx : Nat
  va : Nat
  pa : Nat
  heap : Nat
  since : Nat
  key : Nat
  deriving DecidableEq, Repr

/-- A pending cairn wait (R196). -/
structure CWait where
  cairn : Nat
  thresh : Word
  who : Who
  deriving DecidableEq, Repr

/-- Where a launch stands (R68, R78, R83). -/
inductive LaunchSt where
  | held | runnable | placed (key : Nat) | parked (pid : Nat) | ended
  deriving DecidableEq, Repr

/-- A launch taken from a queue or from a LAUNCH record (Table 3.7, R68). -/
structure Launch where
  ctx : Nat
  part : Nat
  anyp : Bool
  w : Nat
  hgt : Nat
  entry : Nat
  done : Nat
  graph : Nat
  phase : Nat
  arg0 : Word
  arg1 : Word
  prio : Nat
  wait : Option (Nat × Word)
  src : Option (Nat × Nat)
  die : Nat
  st : LaunchSt
  halted : Bool
  cancelled : Bool
  deriving DecidableEq, Repr

/-- An arm entry (R79): level 1 graph, 2 phase, 3 job. -/
structure Arm where
  level : Nat
  num : Nat
  cairn : Nat
  count : Nat
  cancelled : Bool
  deriving DecidableEq, Repr

/-- Members of a level that have completed or been cancelled, counted before and after arming (R80). -/
structure Count where
  level : Nat
  num : Nat
  n : Nat
  cancelled : Bool
  deriving DecidableEq, Repr

/-- A snapshot identity of a context (R180, R182), with WCNT at the snap and whether the dirty-range log has overflowed since. -/
structure Snap where
  cairn : Nat
  ident : Word
  base : Nat
  len : Nat
  wcnt : Nat
  stale : Bool
  deriving DecidableEq, Repr

/-- A context (R76, R79, R165, R179, R304). -/
structure Ctx where
  job : Nat
  root : Nat
  feats : Nat
  imageFeats : Nat
  fwb : Nat
  saveBase : Nat
  saveUnits : Nat
  l2Private : Bool
  excluded : List Nat
  redirect : List (Nat × Nat × Nat)
  arms : List Arm
  counts : List Count
  snaps : List Snap
  images : List (Nat × Nat)
  deriving DecidableEq, Repr

/-- A launch queue, or the system command queue (R66, R71). `origin` the origin recorded when EN was last set, none once a stopped queue has got
another cairn; `marks` the posted descriptors that a CANCEL took out of the queue (R73, R83). -/
structure LQueue where
  base : Nat
  ctl : Word
  head : Nat
  origin : Option Nat
  marks : List Nat
  deriving DecidableEq, Repr

/-- A job's place in the round list of one priority on one die (R88); the deficit in tile-cycles. -/
structure Round where
  job : Nat
  deficit : Int
  started : Bool
  deriving DecidableEq, Repr

/-- Cycles over which regions of a number of tiles ran in a partition (R91). -/
structure Charge where
  since : Nat
  upto : Nat
  size : Nat
  deriving DecidableEq, Repr

/-- One dispatch unit (R86, R88). `due` the model's own: the cycle since which it can place a launch or ask for room. -/
structure Die where
  rounds : Tab (List Round)
  fencedFeats : Nat
  due : Option Nat
  deriving DecidableEq, Repr

/-- A configuration cache image (R93); none where its header fails (Table 13.12). The list of a partition's images runs from the
last mapped to the first. -/
structure CfgImage where
  ctx : Nat
  addr : Nat
  image : Option Image
  deriving DecidableEq, Repr

/-- An image fetch on a configuration miss (R93): control core that asked, context, virtual and physical address, partition; sectors that a
remote home has answered, and the code it failed with. -/
structure Fetch where
  key : Nat
  ctx : Nat
  addr : Nat
  pa : Nat
  part : Nat
  got : List (Nat × List Byte)
  failed : Option Nat
  deriving DecidableEq, Repr

/-- A table-pointer entry of a walker cache (R168): context, level, index prefix, table address. -/
structure WalkEntry where
  ctx : Nat
  level : Nat
  pref : Nat
  ptr : Nat
  deriving DecidableEq, Repr

/-- A RELOC queued or running (R212, R322); `cancelled` once its job is (R84). -/
structure Reloc where
  id : Nat
  heap : Nat
  ctx : Nat
  first : Nat
  count : Nat
  threshold : Nat
  cairn : Nat
  cancelled : Bool
  deriving DecidableEq, Repr

/-- A relocation engine (R212, R213, R323): queue, pass, source pages (page, frame), object position, destination page and fill. -/
structure RelocEng where
  queue : List Reloc
  pass : Nat
  pages : List (Nat × Nat)
  cur : Nat
  off : Nat
  moving : Option (Nat × Nat)
  dest : Option HeapBuf
  moved : Nat
  full : Bool
  deriving DecidableEq, Repr

/-- How the input arcs of a unit were held in the arbiter window at hand, and in the last one, in cycles (R99). -/
structure StageUse where
  cycles : Nat
  busy : Nat
  last : Nat
  deriving DecidableEq, Repr

/-- What the host is told (R11, R17, R34, R52, R95, R174, R179, R457). -/
inductive Report where
  | coolant | powerOver | linkFault (port : Nat) | noPlacement (lid : Nat) | pageLost (ctx va : Nat)
  | txnPending (xid : Nat) | heapFull (heap : Nat) | saveFull (lid : Nat) | cairnOverflow (cairn : Nat)
  deriving DecidableEq, Repr

/-- The agent a record or node step serves: a control core, or one firing of a tile. -/
inductive Actor where
  | none | core (key : Nat) | fire (tile idx : Nat)
  deriving DecidableEq, Repr

/-- A turn: an event, the next record of a control core, a firing, or one cycle of the main clock. -/
inductive Turn where
  | event (i : Instr)
  | record (key : Nat)
  | fire (tile idx : Nat)
  | tick
  deriving DecidableEq, Repr

/-- Package, power, clocks, reset, freeze, management registers (spec file 01, and the register rules of 03, 07, 10). `mgmtOff` is the offset
of the last write transfer on the management channel (R24); `dumpKey` the model's own: the counter of free values when the clocks stopped. -/
structure Dev where
  pwrok : Bool
  rstn : Bool
  thermtripN : Bool
  railsOff : Bool
  resetSeq : Option Nat
  warm : Bool
  vaon : Bool
  signatureOk : Bool
  clocksLocked : Bool
  powerLimit : Nat
  powerSamples : List Nat
  powerSteps : Nat
  thermSteps : Tab Nat
  hotTime : Tab Nat
  frzstat : BitVec 32
  freezePending : Option (Nat × Nat)
  dumpKey : Nat
  mgmtstat : BitVec 32
  mgmtOff : Nat
  mgmtIn : List Word
  regIn : List RegAccess
  dumpaddr : Word
  dumpdata : Word
  testIr : BitVec 6
  testAddr : Word
  testData : Word
  testPins : Word
  testBypass : Bool
  devSet : Bool
  devNum : Nat
  herr : Nat
  featen : BitVec 32
  memev : Tab (BitVec 32)
  pgmig : Tab (BitVec 32)
  rasev : Tab Word
  oplog : Tab (BitVec 32)
  oprings : Tab Nat
  hsel : BitVec 32
  dsel : BitVec 32
  reports : List Report
  deriving DecidableEq, Repr

/-- The Solry fabric (spec file 02). -/
structure Link where
  ports : Tab PortSt
  rx : List Flit
  held : List HeldFlit
  tx : List Flit
  routes : Tab (List Nat)
  avoid : List Nat
  topoDone : Bool
  reqs : List Req
  nextTag : Nat
  txns : List Txn
  nextXid : Nat
  targets : List TgtTxn
  creds : List CredIn
  credKth : Tab Nat
  deriving DecidableEq, Repr

/-- Main memory and its side state (spec files 07, 08): cells, poisoned sectors, frames, line timestamps, the device's logical time. -/
structure Mem where
  cells : List Host.Cell
  poison : List Nat
  frames : Tab Frame
  wts : Tab Nat
  rts : Tab Nat
  pts : Nat
  deriving DecidableEq, Repr

/-- Cairn memory (R195) and the waits pending on it (R196). -/
structure Cairns where
  vals : Tab Word
  flags : List Nat
  taken : Tab Nat
  waits : List CWait
  deriving DecidableEq, Repr

/-- Queues, contexts, jobs, launches and dispatch (spec files 03, 04). `headers` are the sectors of remote blocks that the REPLACE command at hand
has read, by address (R75). -/
structure Hosting where
  lq : Tab LQueue
  scq : LQueue
  cmd : Option (SysCmd × Nat)
  replacing : Option (Nat × Nat)
  headers : List (Nat × List Byte)
  ctxs : Tab Ctx
  phases : Tab Nat
  launches : Tab Launch
  nextLid : Nat
  dies : Tab Die
  charged : Tab (List Charge)
  splits : List Split
  stages : Tab StageUse
  minors : List Minor
  deriving DecidableEq, Repr

/-- The managed heap (spec file 09): relocation engines, page addresses ever used in each job's windows, RELOCs still to report. -/
structure HeapSt where
  engines : Tab RelocEng
  used : List (Nat × Nat)
  released : List (Nat × Nat)
  reports : Tab (Nat × Nat × Bool)
  nextId : Nat
  deriving DecidableEq, Repr

/-- Caches (R93, R160, R161, R168): images, fetches, walker entries, L2 modes and copies, LLC lines brought by PREF. -/
structure Caches where
  cfg : Tab (List CfgImage)
  fetches : List Fetch
  walkers : Tab (List WalkEntry)
  l2Private : List Nat
  l2 : Tab (List Nat)
  llc : List Nat
  deriving DecidableEq, Repr

/-- The machine. `agenda`, `actor` and `draws` are the model's own: turns and inputs posted, whom the step serves, the counter of free values. -/
structure State where
  now : Nat
  draws : Nat
  agenda : List Turn
  actor : Actor
  dev : Dev
  link : Link
  mem : Mem
  cairn : Cairns
  host : Hosting
  regions : Tab Region
  parked : Tab Parked
  tiles : Tab Tile
  heap : HeapSt
  caches : Caches
  deriving DecidableEq, Repr

/-- Why a step stops. -/
inductive Fault where
  /-- A control record or a node record is executed with no control block or firing that holds it: raised by the meanings of
  records; no step of the machine leads there. Safe: the device has no such step. -/
  | noActor
  deriving DecidableEq, Repr

/-- Why a step is refused. -/
inductive Refusal where
  /-- An instruction with no meaning yet: raised by exec's arms alone. Safe: nothing is claimed of it. -/
  | notModelled (mnemonic : String)
  deriving DecidableEq, Repr

/-- Device registers after reset (R14, Tables 1.5, 1.7, 3.3, 3.4); registers without a given value are zero (log 5). -/
def Dev.reset : Dev where
  pwrok := true
  rstn := true
  thermtripN := true
  railsOff := false
  resetSeq := none
  warm := false
  vaon := true
  signatureOk := true
  clocksLocked := true
  powerLimit := 2200
  powerSamples := []
  powerSteps := 0
  thermSteps := []
  hotTime := []
  frzstat := 0
  freezePending := none
  dumpKey := 0
  mgmtstat := 0
  mgmtOff := 0
  mgmtIn := []
  regIn := []
  dumpaddr := 0
  dumpdata := 0
  testIr := 0
  testAddr := 0
  testData := 0
  testPins := 0
  testBypass := false
  devSet := false
  devNum := 0xFFF
  herr := 0
  featen := Config.featav
  memev := []
  pgmig := []
  rasev := []
  oplog := []
  oprings := []
  hsel := 0
  dsel := 0
  reports := []

/-- The fabric after reset: ports down until trained, no route, nothing outstanding (log 6). -/
def Link.reset : Link where
  ports := []
  rx := []
  held := []
  tx := []
  routes := []
  avoid := []
  topoDone := false
  reqs := []
  nextTag := 0
  txns := []
  nextXid := 0
  targets := []
  creds := []
  credKth := []

/-- Main memory with nothing listed (log 3). -/
def Mem.reset : Mem := ⟨[], [], [], [], [], 0⟩

/-- Every cairn 0 with its flag clear (R77). -/
def Cairns.reset : Cairns := ⟨[], [], [], []⟩

def LQueue.reset : LQueue := ⟨0, 0, 0, none, []⟩

def Hosting.reset : Hosting where
  lq := []
  scq := LQueue.reset
  cmd := none
  replacing := none
  headers := []
  ctxs := []
  phases := []
  launches := []
  nextLid := 0
  dies := []
  charged := []
  splits := []
  stages := []
  minors := []

def HeapSt.reset : HeapSt := ⟨[], [], [], [], 0⟩

def Caches.reset : Caches := ⟨[], [], [], [], [], []⟩

/-- The machine right after the reset sequence (R14, R15). -/
def State.reset : State where
  now := 0
  draws := 0
  agenda := []
  actor := .none
  dev := Dev.reset
  link := Link.reset
  mem := Mem.reset
  cairn := Cairns.reset
  host := Hosting.reset
  regions := []
  parked := []
  tiles := []
  heap := HeapSt.reset
  caches := Caches.reset

end Sys2Proof.Machine
end

