-- ==== Sys2Proof/Machine/Rules.lean ====
section
/-! DEFINITION. The opcode maps (Tables 13.10, 13.11) and the field rules of every record (Tables 14.1, 15.1, 16.1, 17.1, 18.1, 19.1). -/

namespace Sys2Proof.Rules

/-- The integer formats (FMT 0000 to 0111). -/
def fInt : List Fmt := [.i8, .i16, .i32, .i64, .n8, .n16, .n32, .n64]
/-- Every code but the reference format. -/
def fBits : List Fmt := fInt ++ [.f32, .f16, .bf16, .e4m3, .e5m2, .a8, .a4]
/-- All sixteen codes. -/
def fAny : List Fmt := fBits ++ [.ref]
def fF3 : List Fmt := [.f32, .f16, .bf16]
def fF5 : List Fmt := [.f32, .f16, .bf16, .e4m3, .e5m2]
def fPack : List Fmt := [.i32, .n32, .i16, .n16, .i8, .n8]
def fQ4 : List Fmt := [.e4m3, .e5m2, .a8, .a4]
def fM6 : List Fmt := [.bf16, .f16, .e4m3, .e5m2, .a8, .a4]

/-- Sources a port may take; a port the opcode lacks must have source 11 (R276). -/
def anySrc : List Src := [.token, .literal, .held, .zero]
def noLit : List Src := [.token, .held, .zero]
def lack : List Src := [.zero]

/-- The PMODE column of the field tables. -/
inductive PmRule where
  | any | no | onlyTrue
  deriving DecidableEq, Repr

/-- One row of the field tables of node records. -/
structure NodeRule where
  op : Nat
  left : List Src
  right : List Src
  fmts : List Fmt
  modMask : BitVec 8
  litMask : BitVec 32
  pm : PmRule
  deriving DecidableEq, Repr

/-- The opcode and field rule of a node record, with its fields (Table 13.10). -/
def nodeRule : Instr → Option (NodeRule × NodeRec)
  | .addNode n => some (⟨0x000, anySrc, anySrc, fInt, 0x01#8, 0x0#32, .any⟩, n)
  | .subNode n => some (⟨0x001, anySrc, anySrc, fInt, 0x01#8, 0x0#32, .any⟩, n)
  | .mulNode n => some (⟨0x002, anySrc, anySrc, fInt, 0x00#8, 0x0#32, .any⟩, n)
  | .mulhNode n => some (⟨0x003, anySrc, anySrc, fInt, 0x00#8, 0x0#32, .any⟩, n)
  | .mad n => some (⟨0x004, noLit, noLit, fInt, 0x00#8, 0xFFFFFFFF#32, .any⟩, n)
  | .minNode n => some (⟨0x005, anySrc, anySrc, fInt, 0x00#8, 0x0#32, .any⟩, n)
  | .maxNode n => some (⟨0x006, anySrc, anySrc, fInt, 0x00#8, 0x0#32, .any⟩, n)
  | .abs n => some (⟨0x007, anySrc, lack, [.i8, .i16, .i32, .i64], 0x01#8, 0x0#32, .any⟩, n)
  | .neg n => some (⟨0x008, anySrc, lack, fInt, 0x01#8, 0x0#32, .any⟩, n)
  | .adda n => some (⟨0x009, anySrc, anySrc, [.i64], 0x00#8, 0x0#32, .any⟩, n)
  | .idx n => some (⟨0x00A, anySrc, lack, [.i32, .n32, .i64, .n64], 0x07#8, 0xFFFFFFFF#32, .any⟩, n)
  | .iota n => some (⟨0x00B, lack, lack, fInt, 0x0F#8, 0xFFFFFFFF#32, .any⟩, n)
  | .sad n => some (⟨0x00C, anySrc, anySrc, [.i8, .n8, .i16, .n16], 0x00#8, 0x0#32, .any⟩, n)
  | .andNode n => some (⟨0x040, anySrc, anySrc, fBits, 0x00#8, 0x0#32, .any⟩, n)
  | .orNode n => some (⟨0x041, anySrc, anySrc, fBits, 0x00#8, 0x0#32, .any⟩, n)
  | .xorNode n => some (⟨0x042, anySrc, anySrc, fBits, 0x00#8, 0x0#32, .any⟩, n)
  | .andnNode n => some (⟨0x043, anySrc, anySrc, fBits, 0x00#8, 0x0#32, .any⟩, n)
  | .notNode n => some (⟨0x044, anySrc, lack, fBits, 0x00#8, 0x0#32, .any⟩, n)
  | .shlNode n => some (⟨0x045, anySrc, anySrc, fInt, 0x00#8, 0x0#32, .any⟩, n)
  | .shrNode n => some (⟨0x046, anySrc, anySrc, fInt, 0x00#8, 0x0#32, .any⟩, n)
  | .sarNode n => some (⟨0x047, anySrc, anySrc, fInt, 0x00#8, 0x0#32, .any⟩, n)
  | .rot n => some (⟨0x048, anySrc, anySrc, fInt, 0x00#8, 0x0#32, .any⟩, n)
  | .clzNode n => some (⟨0x049, anySrc, lack, fInt, 0x00#8, 0x0#32, .any⟩, n)
  | .popcNode n => some (⟨0x04A, anySrc, lack, fInt, 0x00#8, 0x0#32, .any⟩, n)
  | .bfx n => some (⟨0x04B, noLit, lack, fInt, 0x00#8, 0x3F3F#32, .any⟩, n)
  | .bfi n => some (⟨0x04C, noLit, noLit, fInt, 0x00#8, 0x3F3F#32, .any⟩, n)
  | .cmp n => some (⟨0x04D, anySrc, anySrc, (fInt ++ [.ref]), 0x07#8, 0x0#32, .any⟩, n)
  | .selNode n => some (⟨0x04E, anySrc, anySrc, fAny, 0x00#8, 0x0#32, .onlyTrue⟩, n)
  | .perm n => some (⟨0x080, anySrc, anySrc, fAny, 0x00#8, 0x0#32, .any⟩, n)
  | .bcast n => some (⟨0x081, anySrc, lack, fAny, 0x01#8, 0x7F#32, .any⟩, n)
  | .shfl n => some (⟨0x082, anySrc, lack, fAny, 0x03#8, 0xF#32, .any⟩, n)
  | .red n => some (⟨0x083, anySrc, lack, (fInt ++ fF3), 0x07#8, 0x0#32, .no⟩, n)
  | .scan n => some (⟨0x084, anySrc, anySrc, (fInt ++ fF3), 0x0F#8, 0x0#32, .no⟩, n)
  | .compact n => some (⟨0x085, anySrc, lack, fAny, 0x00#8, 0x0#32, .no⟩, n)
  | .expand n => some (⟨0x086, anySrc, lack, fAny, 0x00#8, 0x0#32, .no⟩, n)
  | .pack n => some (⟨0x087, anySrc, anySrc, fPack, 0x01#8, 0x0#32, .no⟩, n)
  | .unpack n => some (⟨0x088, anySrc, lack, fPack, 0x01#8, 0x0#32, .no⟩, n)
  | .vmask n => some (⟨0x089, anySrc, anySrc, fAny, 0x03#8, 0xFFFF#32, .any⟩, n)
  | .fan n => some (⟨0x08A, anySrc, lack, fAny, 0x01#8, 0x0#32, .no⟩, n)
  | .merge n => some (⟨0x08B, anySrc, anySrc, fAny, 0x01#8, 0x0#32, .no⟩, n)
  | .delay n => some (⟨0x08C, anySrc, lack, fAny, 0x01#8, 0x1FF#32, .no⟩, n)
  | .tag n => some (⟨0x08D, anySrc, anySrc, fAny, 0x0F#8, 0xFFFFFFFF#32, .no⟩, n)
  | .lastNode n => some (⟨0x08E, anySrc, lack, fAny, 0x01#8, 0xFFFFFFFF#32, .no⟩, n)
  | .sink n => some (⟨0x08F, anySrc, lack, fAny, 0x00#8, 0x0#32, .no⟩, n)
  | .fadd n => some (⟨0x0C0, anySrc, anySrc, fF3, 0x80#8, 0x0#32, .any⟩, n)
  | .fsub n => some (⟨0x0C1, anySrc, anySrc, fF3, 0x80#8, 0x0#32, .any⟩, n)
  | .fmul n => some (⟨0x0C2, anySrc, anySrc, fF3, 0x80#8, 0x0#32, .any⟩, n)
  | .ffma n => some (⟨0x0C3, anySrc, anySrc, fF3, 0x81#8, 0xFFFFFFFF#32, .any⟩, n)
  | .fmin n => some (⟨0x0C4, anySrc, anySrc, fF3, 0x80#8, 0x0#32, .any⟩, n)
  | .fmax n => some (⟨0x0C5, anySrc, anySrc, fF3, 0x80#8, 0x0#32, .any⟩, n)
  | .fcmp n => some (⟨0x0C6, anySrc, anySrc, fF5, 0x87#8, 0x0#32, .any⟩, n)
  | .fsgn n => some (⟨0x0C7, anySrc, anySrc, fF5, 0x83#8, 0x0#32, .any⟩, n)
  | .fclass n => some (⟨0x0C8, anySrc, lack, fF5, 0x80#8, 0x0#32, .any⟩, n)
  | .fsfu n => some (⟨0x100, anySrc, lack, fF3, 0x8F#8, 0x0#32, .any⟩, n)
  | .cvt n => some (⟨0x101, noLit, anySrc, fF5, 0xFF#8, 0x3#32, .any⟩, n)
  | .ftoi n => some (⟨0x102, noLit, anySrc, fInt, 0xFF#8, 0x3#32, .any⟩, n)
  | .itof n => some (⟨0x103, noLit, anySrc, fF5, 0xFF#8, 0x3#32, .any⟩, n)
  | .frnd n => some (⟨0x104, anySrc, lack, fF3, 0xF0#8, 0x0#32, .any⟩, n)
  | .qmax n => some (⟨0x140, anySrc, lack, fQ4, 0x9F#8, 0x1FF#32, .no⟩, n)
  | .qcvt n => some (⟨0x141, anySrc, [.token], fQ4, 0x8F#8, 0x1FF#32, .no⟩, n)
  | .dqt n => some (⟨0x142, anySrc, anySrc, fF3, 0x3F#8, 0x0#32, .no⟩, n)
  | .scaleNode n => some (⟨0x143, anySrc, anySrc, fF3, 0x0F#8, 0x0#32, .any⟩, n)
  | .scacc n => some (⟨0x144, [.token], [.token, .literal, .held], [.f32], 0x1F#8, 0x0#32, .no⟩, n)
  | .rng n => some (⟨0x145, [.token, .zero], [.token, .held, .zero], [.n32, .f32], 0x03#8, 0xFFFF#32, .no⟩, n)
  | .mldb n => some (⟨0x180, [.token, .zero], lack, fM6, 0xFF#8, 0xFFFFFFFF#32, .no⟩, n)
  | .mrow n => some (⟨0x181, [.token], [.token, .held, .zero], [.bf16, .f16, .e4m3, .e5m2], 0x01#8, 0x0#32, .no⟩, n)
  | .mqrow n => some (⟨0x182, [.token], [.token, .literal, .held], [.a8, .a4], 0x03#8, 0x0#32, .no⟩, n)
  | .mrec n => some (⟨0x183, [.token], [.token], [.bf16, .f16], 0x00#8, 0x0#32, .no⟩, n)
  | .mout n => some (⟨0x184, [.token, .zero], lack, fM6, 0x01#8, 0x0#32, .no⟩, n)
  | .ppset n => some (⟨0x1C0, anySrc, lack, [.f32], 0xE1#8, 0x3F#32, .no⟩, n)
  | .ppmul n => some (⟨0x1C1, anySrc, lack, [.f32], 0xE3#8, 0x0#32, .no⟩, n)
  | .ppdiv n => some (⟨0x1C2, anySrc, lack, [.f32], 0xE3#8, 0x0#32, .no⟩, n)
  | .ppcmb n => some (⟨0x1C3, anySrc, lack, [.f32], 0xE0#8, 0x0#32, .no⟩, n)
  | .ppnrm n => some (⟨0x1C4, anySrc, lack, [.f32], 0xE0#8, 0x0#32, .no⟩, n)
  | .ppout n => some (⟨0x1C5, anySrc, lack, [.f32], 0xE1#8, 0x0#32, .no⟩, n)
  | .xlat n => some (⟨0x200, anySrc, lack, [.i64, .n64], 0x01#8, 0x0#32, .any⟩, n)
  | .ld n => some (⟨0x201, anySrc, lack, fAny, 0x00#8, 0xFFFF#32, .any⟩, n)
  | .st n => some (⟨0x202, anySrc, [.token, .held], fAny, 0x00#8, 0xFFFF#32, .any⟩, n)
  | .ldg n => some (⟨0x203, anySrc, [.token, .held], fAny, 0x00#8, 0x0#32, .any⟩, n)
  | .stx n => some (⟨0x204, anySrc, [.token, .held], fAny, 0x00#8, 0x0#32, .any⟩, n)
  | .pref n => some (⟨0x205, anySrc, lack, fAny, 0x01#8, 0x0#32, .any⟩, n)
  | .putNode n => some (⟨0x240, [.token], lack, fAny, 0xFF#8, 0xFFFFFFFF#32, .no⟩, n)
  | .getNode n => some (⟨0x241, [.token, .zero], lack, fAny, 0xFF#8, 0xFFFFFFFF#32, .any⟩, n)
  | .getr n => some (⟨0x242, [.token, .zero], [.token, .held], fAny, 0xFF#8, 0xFFFFFFFF#32, .no⟩, n)
  | .rls n => some (⟨0x243, [.token, .zero], lack, fAny, 0xFF#8, 0xFFFFFFFF#32, .any⟩, n)
  | .hldNode n => some (⟨0x280, anySrc, lack, fAny, 0x00#8, 0xFFFF#32, .any⟩, n)
  | .hstNode n => some (⟨0x281, anySrc, [.token, .held], fAny, 0x00#8, 0xFFFF#32, .any⟩, n)
  | .hnewNode n => some (⟨0x282, anySrc, lack, [.ref], 0x00#8, 0xFFFFF#32, .any⟩, n)
  | .hpinNode n => some (⟨0x283, anySrc, lack, [.ref], 0x00#8, 0x0#32, .any⟩, n)
  | .hunpinNode n => some (⟨0x284, anySrc, lack, [.ref], 0x00#8, 0x0#32, .any⟩, n)
  | .hcmpNode n => some (⟨0x285, anySrc, [.token, .held], [.ref], 0x00#8, 0x0#32, .any⟩, n)
  | .caddNode n => some (⟨0x2C0, anySrc, anySrc, [.n64], 0x03#8, 0xFFFFFFFF#32, .no⟩, n)
  | .cwaitNode n => some (⟨0x2C1, anySrc, anySrc, [.n64], 0x03#8, 0xFFFFFFFF#32, .no⟩, n)
  | .bin n => some (⟨0x2C2, anySrc, [.token], fAny, 0x01#8, 0x0#32, .no⟩, n)
  | .bout n => some (⟨0x2C3, [.token], [.token], fAny, 0x00#8, 0x0#32, .no⟩, n)
  | .tap n => some (⟨0x2C4, anySrc, lack, fAny, 0x01#8, 0xFFFFF#32, .no⟩, n)
  | .vote n => some (⟨0x2C5, anySrc, lack, fAny, 0x00#8, 0x0#32, .no⟩, n)
  | .trapNode n => some (⟨0x300, anySrc, lack, fAny, 0x00#8, 0xF#32, .any⟩, n)
  | .brk n => some (⟨0x301, anySrc, lack, fAny, 0x00#8, 0x0#32, .any⟩, n)
  | .trace n => some (⟨0x302, anySrc, [.held], fAny, 0x00#8, 0xF#32, .no⟩, n)
  | .efenceNode n => some (⟨0x303, anySrc, [.token, .zero], fAny, 0x00#8, 0x0#32, .no⟩, n)
  | .nop n => some (⟨0x304, anySrc, lack, fAny, 0x00#8, 0x0#32, .any⟩, n)
  | _ => none

/-- The node record that opcode names (Table 13.10); none for an unallocated code. -/
def mkNode (op : Nat) (n : NodeRec) : Option Instr :=
  match op with
  | 0x000 => some (.addNode n)
  | 0x001 => some (.subNode n)
  | 0x002 => some (.mulNode n)
  | 0x003 => some (.mulhNode n)
  | 0x004 => some (.mad n)
  | 0x005 => some (.minNode n)
  | 0x006 => some (.maxNode n)
  | 0x007 => some (.abs n)
  | 0x008 => some (.neg n)
  | 0x009 => some (.adda n)
  | 0x00A => some (.idx n)
  | 0x00B => some (.iota n)
  | 0x00C => some (.sad n)
  | 0x040 => some (.andNode n)
  | 0x041 => some (.orNode n)
  | 0x042 => some (.xorNode n)
  | 0x043 => some (.andnNode n)
  | 0x044 => some (.notNode n)
  | 0x045 => some (.shlNode n)
  | 0x046 => some (.shrNode n)
  | 0x047 => some (.sarNode n)
  | 0x048 => some (.rot n)
  | 0x049 => some (.clzNode n)
  | 0x04A => some (.popcNode n)
  | 0x04B => some (.bfx n)
  | 0x04C => some (.bfi n)
  | 0x04D => some (.cmp n)
  | 0x04E => some (.selNode n)
  | 0x080 => some (.perm n)
  | 0x081 => some (.bcast n)
  | 0x082 => some (.shfl n)
  | 0x083 => some (.red n)
  | 0x084 => some (.scan n)
  | 0x085 => some (.compact n)
  | 0x086 => some (.expand n)
  | 0x087 => some (.pack n)
  | 0x088 => some (.unpack n)
  | 0x089 => some (.vmask n)
  | 0x08A => some (.fan n)
  | 0x08B => some (.merge n)
  | 0x08C => some (.delay n)
  | 0x08D => some (.tag n)
  | 0x08E => some (.lastNode n)
  | 0x08F => some (.sink n)
  | 0x0C0 => some (.fadd n)
  | 0x0C1 => some (.fsub n)
  | 0x0C2 => some (.fmul n)
  | 0x0C3 => some (.ffma n)
  | 0x0C4 => some (.fmin n)
  | 0x0C5 => some (.fmax n)
  | 0x0C6 => some (.fcmp n)
  | 0x0C7 => some (.fsgn n)
  | 0x0C8 => some (.fclass n)
  | 0x100 => some (.fsfu n)
  | 0x101 => some (.cvt n)
  | 0x102 => some (.ftoi n)
  | 0x103 => some (.itof n)
  | 0x104 => some (.frnd n)
  | 0x140 => some (.qmax n)
  | 0x141 => some (.qcvt n)
  | 0x142 => some (.dqt n)
  | 0x143 => some (.scaleNode n)
  | 0x144 => some (.scacc n)
  | 0x145 => some (.rng n)
  | 0x180 => some (.mldb n)
  | 0x181 => some (.mrow n)
  | 0x182 => some (.mqrow n)
  | 0x183 => some (.mrec n)
  | 0x184 => some (.mout n)
  | 0x1C0 => some (.ppset n)
  | 0x1C1 => some (.ppmul n)
  | 0x1C2 => some (.ppdiv n)
  | 0x1C3 => some (.ppcmb n)
  | 0x1C4 => some (.ppnrm n)
  | 0x1C5 => some (.ppout n)
  | 0x200 => some (.xlat n)
  | 0x201 => some (.ld n)
  | 0x202 => some (.st n)
  | 0x203 => some (.ldg n)
  | 0x204 => some (.stx n)
  | 0x205 => some (.pref n)
  | 0x240 => some (.putNode n)
  | 0x241 => some (.getNode n)
  | 0x242 => some (.getr n)
  | 0x243 => some (.rls n)
  | 0x280 => some (.hldNode n)
  | 0x281 => some (.hstNode n)
  | 0x282 => some (.hnewNode n)
  | 0x283 => some (.hpinNode n)
  | 0x284 => some (.hunpinNode n)
  | 0x285 => some (.hcmpNode n)
  | 0x2C0 => some (.caddNode n)
  | 0x2C1 => some (.cwaitNode n)
  | 0x2C2 => some (.bin n)
  | 0x2C3 => some (.bout n)
  | 0x2C4 => some (.tap n)
  | 0x2C5 => some (.vote n)
  | 0x300 => some (.trapNode n)
  | 0x301 => some (.brk n)
  | 0x302 => some (.trace n)
  | 0x303 => some (.efenceNode n)
  | 0x304 => some (.nop n)
  | _ => none

/-- When a control record acts (R292); `last` records end a block (R279). -/
inductive CtlKind where
  | wait | effect | loc | last
  deriving DecidableEq, Repr

/-- What a control record's IMM may hold. -/
inductive ImmRule where
  | mask (m : Word)
  | block
  deriving DecidableEq, Repr

/-- The use of one register field: none, a scalar register, or a reference register (0 to 15). -/
inductive RegUse where
  | no | s | h
  deriving DecidableEq, Repr

/-- One row of the field tables of control records, for the M value the record carries. -/
structure CtlRule where
  op : Nat
  kind : CtlKind
  d : RegUse
  a : RegUse
  b : RegUse
  cc : Bool
  imm : ImmRule
  mOk : Bool
  deriving DecidableEq, Repr

/-- Immediate form: M bit 0 set makes IMM the second operand and B unused (R290). -/
def regOrImm (op : Nat) (kind : CtlKind) (d : RegUse) (cc : Bool) (mMax : Nat) (r : CtlRec) : CtlRule :=
  if r.m.getLsbD 0 then ⟨op, kind, d, .s, .no, cc, .mask (BitVec.allOnes 64), decide (r.m.toNat ≤ mMax)⟩
  else ⟨op, kind, d, .s, .s, cc, .mask 0, decide (r.m.toNat ≤ mMax)⟩

/-- A record whose M must be 0. -/
def plain (op : Nat) (kind : CtlKind) (d a b : RegUse) (imm : ImmRule) (r : CtlRec) : CtlRule :=
  ⟨op, kind, d, a, b, false, imm, decide (r.m.toNat = 0)⟩

/-- A stream command: M selects the mask register's tiles, and M = 01 every tile (Table 15.1). -/
def streamCmd (op : Nat) (a : RegUse) (imm : Word) (r : CtlRec) : CtlRule :=
  ⟨op, .effect, .no, a, if r.m.toNat = 1 then .no else .s, false, .mask imm, decide (r.m.toNat ≤ 2)⟩

/-- The field rule of a control record, with its fields (Tables 13.11, 14.1, 15.1). -/
def ctlRule : Instr → Option (CtlRule × CtlRec)
  | .addS r => some (regOrImm 0x00 .loc .s false 1 r, r)
  | .subS r => some (regOrImm 0x01 .loc .s false 1 r, r)
  | .mulS r => some (regOrImm 0x02 .loc .s false 1 r, r)
  | .mulhS r => some (regOrImm 0x03 .loc .s false 3 r, r)
  | .divS r => some (regOrImm 0x04 .loc .s false 3 r, r)
  | .remS r => some (regOrImm 0x05 .loc .s false 3 r, r)
  | .andS r => some (regOrImm 0x06 .loc .s false 1 r, r)
  | .orS r => some (regOrImm 0x07 .loc .s false 1 r, r)
  | .xorS r => some (regOrImm 0x08 .loc .s false 1 r, r)
  | .andnS r => some (regOrImm 0x09 .loc .s false 1 r, r)
  | .shlS r => some (regOrImm 0x0A .loc .s false 1 r, r)
  | .shrS r => some (regOrImm 0x0B .loc .s false 1 r, r)
  | .sarS r => some (regOrImm 0x0C .loc .s false 1 r, r)
  | .minS r => some (regOrImm 0x0D .loc .s false 3 r, r)
  | .maxS r => some (regOrImm 0x0E .loc .s false 3 r, r)
  | .movi r => some (plain 0x0F .loc .s .no .no (.mask (BitVec.allOnes 64)) r, r)
  | .sel r => some (plain 0x10 .loc .s .s .s (.mask (BitVec.allOnes 64)) r, r)
  | .setc r => some (regOrImm 0x11 .loc .s true 1 r, r)
  | .clz r => some (plain 0x12 .loc .s .s .no (.mask 0) r, r)
  | .popc r => some (plain 0x13 .loc .s .s .no (.mask 0) r, r)
  | .lds r => some (⟨0x20, .effect, .s, .s, .no, false, .mask (BitVec.allOnes 64), decide (r.m.toNat ≤ 6)⟩, r)
  | .sts r => some (⟨0x21, .effect, .no, .s, .s, false, .mask (BitVec.allOnes 64), decide (r.m.toNat ≤ 3)⟩, r)
  | .csrr r => some (plain 0x22 .loc .s .no .no (.mask 0xFFF) r, r)
  | .csrw r => some (plain 0x23 .loc .no .s .no (.mask 0xFFF) r, r)
  | .run r => some (if r.m.toNat = 1 then ⟨0x40, .effect, .s, .no, .no, false, .block, true⟩ else ⟨0x40, .effect, .s, .s, .s, false, .block, decide (r.m.toNat = 0)⟩, r)
  | .runw r => some (if r.m.toNat = 1 then ⟨0x41, .effect, .s, .no, .no, false, .block, true⟩ else ⟨0x41, .effect, .s, .s, .s, false, .block, decide (r.m.toNat = 0)⟩, r)
  | .exitB r => some (if r.m.toNat = 1 then ⟨0x42, .last, .no, .s, .no, false, .mask 0, true⟩ else ⟨0x42, .last, .no, .no, .no, false, .block, decide (r.m.toNat = 0)⟩, r)
  | .exitc r => some (⟨0x43, .last, .no, .s, .s, true, .block, decide (r.m.toNat = 0)⟩, r)
  | .callb r => some (plain 0x44 .last .s .no .no (.block) r, r)
  | .retb r => some (plain 0x45 .last .no .s .no (.mask 0) r, r)
  | .replaceB r => some (plain 0x46 .effect .s .s .s (.mask (BitVec.allOnes 64)) r, r)
  | .bwait r => some (plain 0x47 .wait .no .no .no (.mask 0) r, r)
  | .feat r => some (plain 0x48 .loc .s .no .no (.mask 0x7FFFF) r, r)
  | .fdecl r => some (plain 0x60 .effect .no .no .no (.mask 0xF) r, r)
  | .fresize r => some (plain 0x61 .effect .s .s .no (.mask 0xFFFF) r, r)
  | .fqry r => some (plain 0x62 .effect .s .s .s (.mask 0xFF) r, r)
  | .fdrop r => some (plain 0x63 .effect .s .s .no (.mask 0) r, r)
  | .fspill r => some (plain 0x64 .effect .s .s .s (.mask 0x7F) r, r)
  | .ffill r => some (plain 0x65 .effect .s .s .s (.mask 0x7F) r, r)
  | .cnew r => some (plain 0x80 .effect .s .s .no (.mask 0) r, r)
  | .cadd r => some (regOrImm 0x81 .effect .no false 1 r, r)
  | .cwait r => some (regOrImm 0x82 .wait .no false 1 r, r)
  | .crd r => some (⟨0x83, .effect, .s, .s, .no, false, .mask 0, decide (r.m.toNat ≤ 1)⟩, r)
  | .launch r => some (plain 0x84 .effect .s .s .no (.mask 7) r, r)
  | .cancel r => some (plain 0x85 .effect .s .s .no (.mask 3) r, r)
  | .arm r => some (plain 0x86 .effect .no .s .s (.mask 0xFFFFFFFF00000003) r, r)
  | .sbind r => some (streamCmd 0xA0 .s 7 r, r)
  | .sgo r => some (streamCmd 0xA1 .no 0xFF r, r)
  | .sstop r => some (streamCmd 0xA2 .no 0xFF r, r)
  | .sbar r => some (plain 0xA3 .effect .no .no .no (.mask 0) r, r)
  | .copy r => some (plain 0xA4 .effect .s .s .no (.mask 0) r, r)
  | .gather r => some (plain 0xA5 .effect .s .s .no (.mask 0) r, r)
  | .scatter r => some (plain 0xA6 .effect .s .s .no (.mask 0) r, r)
  | .cred r => some (plain 0xA7 .effect .s .s .no (.mask 0) r, r)
  | .rput r => some (plain 0xA8 .effect .s .s .no (.mask 0) r, r)
  | .rget r => some (plain 0xA9 .effect .s .s .no (.mask 0) r, r)
  | .xbegin r => some (plain 0xAA .effect .s .s .no (.mask 0) r, r)
  | .xput r => some (plain 0xAB .effect .s .s .s (.mask 0x1FFFF) r, r)
  | .xcommit r => some (plain 0xAC .effect .no .no .no (.mask 0) r, r)
  | .xabort r => some (plain 0xAD .effect .no .no .no (.mask 0) r, r)
  | .hld r => some (⟨0xC0, .effect, if r.m.getLsbD 3 then .h else .s, .h, .no, false, .mask 0xFFFF, decide (r.m.toNat ≤ 6) || decide (r.m.toNat = 11)⟩, r)
  | .hst r => some (⟨0xC1, .effect, .no, .h, if r.m.getLsbD 3 then .h else .s, false, .mask 0xFFFF, decide (r.m.toNat ≤ 3) || decide (r.m.toNat = 11)⟩, r)
  | .hmov r => some (⟨0xC2, .loc, if r.m.toNat = 1 then .s else .h, if r.m.toNat = 0 then .s else .h, .no, false, .mask 0, decide (r.m.toNat ≤ 2)⟩, r)
  | .hpin r => some (plain 0xC3 .effect .s .h .no (.mask 0) r, r)
  | .hunpin r => some (plain 0xC4 .effect .no .h .no (.mask 0) r, r)
  | .hcmp r => some (plain 0xC5 .effect .s .h .h (.mask 0) r, r)
  | .hnew r => some (plain 0xC6 .effect .h .s .no (.mask 0xFFFFF) r, r)
  | .reloc r => some (plain 0xC7 .effect .s .s .s (.mask 0x1FFFF) r, r)
  | .relq r => some (plain 0xC8 .loc .s .no .no (.mask 3) r, r)
  | .snap r => some (plain 0xC9 .effect .s .s .s (.mask 0xFFFFF) r, r)
  | .snapdrop r => some (plain 0xCA .effect .no .s .no (.mask 0xFFFFF) r, r)
  | .trap r => some (⟨0xE0, .loc, .no, .no, .no, false, .mask 0xFFFF, decide (r.m.toNat = 0)⟩, r)
  | .trapRd r => some (⟨0xE0, .loc, .s, .no, .no, false, .mask 0xF, decide (r.m.toNat = 1)⟩, r)
  | .trapPop r => some (⟨0xE0, .loc, .no, .no, .no, false, .mask 0, decide (r.m.toNat = 2)⟩, r)
  | .rett r => some (plain 0xE1 .last .no .no .no (.mask 0) r, r)
  | .efence r => some (plain 0xE2 .wait .no .no .no (.mask 0) r, r)
  | .halt r => some (plain 0xE3 .last .no .no .no (.mask 0) r, r)
  | .idle r => some (plain 0xE4 .loc .no .no .no (.mask 0xFFFFFFFF) r, r)
  | .tlbinv r => some (plain 0xE5 .effect .no .no .no (.mask 0) r, r)
  | _ => none

/-- The control record that opcode names (Table 13.11); TRAP's form is in M (R327); none for an unallocated code. -/
def mkCtl (op : Nat) (r : CtlRec) : Option Instr :=
  match op with
  | 0x00 => some (.addS r)
  | 0x01 => some (.subS r)
  | 0x02 => some (.mulS r)
  | 0x03 => some (.mulhS r)
  | 0x04 => some (.divS r)
  | 0x05 => some (.remS r)
  | 0x06 => some (.andS r)
  | 0x07 => some (.orS r)
  | 0x08 => some (.xorS r)
  | 0x09 => some (.andnS r)
  | 0x0A => some (.shlS r)
  | 0x0B => some (.shrS r)
  | 0x0C => some (.sarS r)
  | 0x0D => some (.minS r)
  | 0x0E => some (.maxS r)
  | 0x0F => some (.movi r)
  | 0x10 => some (.sel r)
  | 0x11 => some (.setc r)
  | 0x12 => some (.clz r)
  | 0x13 => some (.popc r)
  | 0x20 => some (.lds r)
  | 0x21 => some (.sts r)
  | 0x22 => some (.csrr r)
  | 0x23 => some (.csrw r)
  | 0x40 => some (.run r)
  | 0x41 => some (.runw r)
  | 0x42 => some (.exitB r)
  | 0x43 => some (.exitc r)
  | 0x44 => some (.callb r)
  | 0x45 => some (.retb r)
  | 0x46 => some (.replaceB r)
  | 0x47 => some (.bwait r)
  | 0x48 => some (.feat r)
  | 0x60 => some (.fdecl r)
  | 0x61 => some (.fresize r)
  | 0x62 => some (.fqry r)
  | 0x63 => some (.fdrop r)
  | 0x64 => some (.fspill r)
  | 0x65 => some (.ffill r)
  | 0x80 => some (.cnew r)
  | 0x81 => some (.cadd r)
  | 0x82 => some (.cwait r)
  | 0x83 => some (.crd r)
  | 0x84 => some (.launch r)
  | 0x85 => some (.cancel r)
  | 0x86 => some (.arm r)
  | 0xA0 => some (.sbind r)
  | 0xA1 => some (.sgo r)
  | 0xA2 => some (.sstop r)
  | 0xA3 => some (.sbar r)
  | 0xA4 => some (.copy r)
  | 0xA5 => some (.gather r)
  | 0xA6 => some (.scatter r)
  | 0xA7 => some (.cred r)
  | 0xA8 => some (.rput r)
  | 0xA9 => some (.rget r)
  | 0xAA => some (.xbegin r)
  | 0xAB => some (.xput r)
  | 0xAC => some (.xcommit r)
  | 0xAD => some (.xabort r)
  | 0xC0 => some (.hld r)
  | 0xC1 => some (.hst r)
  | 0xC2 => some (.hmov r)
  | 0xC3 => some (.hpin r)
  | 0xC4 => some (.hunpin r)
  | 0xC5 => some (.hcmp r)
  | 0xC6 => some (.hnew r)
  | 0xC7 => some (.reloc r)
  | 0xC8 => some (.relq r)
  | 0xC9 => some (.snap r)
  | 0xCA => some (.snapdrop r)
  | 0xE0 => if r.m.toNat = 1 then some (.trapRd r) else if r.m.toNat = 2 then some (.trapPop r) else some (.trap r)
  | 0xE1 => some (.rett r)
  | 0xE2 => some (.efence r)
  | 0xE3 => some (.halt r)
  | 0xE4 => some (.idle r)
  | 0xE5 => some (.tlbinv r)
  | _ => none

/-- Bits per value of a format (Table 12.2); 64 for the paired-lane formats. -/
def fmtWidth : Fmt → Nat
  | .i8 | .n8 | .e4m3 | .e5m2 | .a8 => 8
  | .i16 | .n16 | .f16 | .bf16 => 16
  | .i32 | .n32 | .f32 => 32
  | .i64 | .n64 | .ref => 64
  | .a4 => 4

/-- The format of a code (Table 11.2). -/
def fmtOfCode : Nat → Fmt
  | 0 => .i8 | 1 => .i16 | 2 => .i32 | 3 => .i64 | 4 => .n8 | 5 => .n16 | 6 => .n32 | 7 => .n64
  | 8 => .f32 | 9 => .f16 | 10 => .bf16 | 11 => .e4m3 | 12 => .e5m2 | 13 => .a8 | 14 => .a4 | _ => .ref

/-- The code of a format (Table 11.2). -/
def fmtCode : Fmt → Nat
  | .i8 => 0 | .i16 => 1 | .i32 => 2 | .i64 => 3 | .n8 => 4 | .n16 => 5 | .n32 => 6 | .n64 => 7
  | .f32 => 8 | .f16 => 9 | .bf16 => 10 | .e4m3 => 11 | .e5m2 => 12 | .a8 => 13 | .a4 => 14 | .ref => 15

/-- Whether a conversion's ratio m = vt / vs leaves the right port, and whether m is allowed (R387). -/
def convOk (src tgt : Fmt) (n : NodeRec) : Bool :=
  let ws := fmtWidth src
  let wt := fmtWidth tgt
  decide (ws ≤ 4 * wt) && decide (wt ≤ 4 * ws) &&
    (if wt < ws then true else decide (n.rsrc = .zero)) &&
    (if ws < wt then decide (field n.lit 1 0 < wt / ws) && decide (n.rsrc ≠ .literal)
     else (decide (field n.lit 1 0 = 0) || decide (n.rsrc = .literal)))

/-- The source format a conversion names in MOD 3:0 (R378). -/
def srcFmt (n : NodeRec) : Fmt := fmtOfCode (field n.mod 3 0)

/-- Whether a source code names a floating-point format, or an integer one (R378). -/
def isFloat (f : Fmt) : Bool := decide (f ∈ fF5)
def isInt (f : Fmt) : Bool := decide (f ∈ fInt)

/-- The rules of single entries beyond the columns of the field tables, checkable on the record alone. -/
def nodeExtra : Instr → Bool
  | .bfx n | .bfi n => decide (field n.lit 5 0 + field n.lit 13 8 + 1 ≤ fmtWidth n.fmt)
  | .cmp n => decide (field n.mod 2 0 < 6) && (decide (n.fmt ≠ .ref) || decide (field n.mod 2 0 < 2))
  | .bcast n => decide (n.lsrc = .literal) ||
      (if n.mod.getLsbD 0 then decide (field n.lit 6 0 * fmtWidth n.fmt < 512) else decide (field n.lit 6 4 = 0))
  | .red n => decide (field n.mod 2 0 < 6) && (!isFloat n.fmt || decide (field n.mod 2 0 < 3))
  | .scan n => decide (field n.mod 2 0 < 6) && (!isFloat n.fmt || decide (field n.mod 2 0 < 3))
  | .vmask n => (if field n.mod 1 0 = 1 then true else decide (n.rsrc = .zero)) &&
      (decide (field n.mod 1 0 = 0) || decide (field n.mod 1 0 = 2) || decide (n.lit = 0) || decide (n.lsrc = .literal) || decide (n.rsrc = .literal))
  | .fan n => !n.mod.getLsbD 0 || (decide (n.t0 ≠ .unwired) && decide (n.t1 ≠ .unwired))
  | .delay n => decide (1 ≤ field n.lit 8 0) && decide (field n.lit 8 0 ≤ 256)
  | .tag n => (if field n.mod 1 0 = 2 then decide (n.lit = 0) || decide (n.lsrc = .literal) || decide (n.rsrc = .literal)
      else decide (n.rsrc = .zero)) && (decide (field n.mod 1 0 = 1) || decide (field n.mod 3 2 = 0))
  | .lastNode n => !n.mod.getLsbD 0 || decide (n.lit = 0) || decide (n.lsrc = .literal)
  | .sink n => decide (n.t0 = .unwired) && decide (n.t1 = .unwired)
  | .ffma n => if n.mod.getLsbD 0 then decide (n.lit = 0) || decide (n.lsrc = .literal) || decide (n.rsrc = .literal)
      else decide (n.lsrc ≠ .literal) && decide (n.rsrc ≠ .literal)
  | .fsgn n => decide (field n.mod 1 0 < 3)
  | .fsfu n => decide (field n.mod 3 0 < 9)
  | .cvt n => isFloat (srcFmt n) && convOk (srcFmt n) n.fmt n
  | .ftoi n => isFloat (srcFmt n) && convOk (srcFmt n) n.fmt n
  | .itof n => isInt (srcFmt n) && convOk (srcFmt n) n.fmt n
  | .qmax n => decide (srcFmt n ∈ fF3) && decide (1 ≤ field n.lit 8 0) && decide (field n.lit 8 0 ≤ 256)
  | .qcvt n => decide (srcFmt n ∈ fF3) && decide (1 ≤ field n.lit 8 0) && decide (field n.lit 8 0 ≤ 256)
  | .dqt n => decide (srcFmt n ∈ fQ4) && decide (field n.mod 5 4 < 3) &&
      (decide (srcFmt n = .a8) || decide (srcFmt n = .a4) || decide (field n.mod 5 4 = 0))
  | .scaleNode n => decide ((srcFmt n, n.fmt) ∈ [(Fmt.i32, Fmt.f32), (.f32, .f32), (.f16, .f16), (.bf16, .bf16)])
  | .scacc n => decide (field n.mod 3 0 = 2)
  | .mrow n => decide (n.t0 ≠ .unwired) && decide (n.t1 ≠ .unwired) &&
      (if n.mod.getLsbD 0 then decide (n.rsrc ≠ .zero) else decide (n.rsrc = .zero))
  | .mqrow n => decide (n.t0 ≠ .unwired) && decide (n.t1 ≠ .unwired)
  | .mrec n => decide (n.t0 ≠ .unwired) && decide (n.t1 ≠ .unwired)
  | .mout n => !n.mod.getLsbD 0 || decide (n.fmt = .bf16) || decide (n.fmt = .f16)
  | .ppmul n => decide (field n.mod 1 0 < 3)
  | .ppdiv n => decide (field n.mod 1 0 < 3)
  | .ld n => decide (n.lsrc = .literal) || (decide (field n.lit 15 0 ≠ 0) && pairMask n)
  | .st n => decide (n.lsrc = .literal) || (decide (field n.lit 15 0 ≠ 0) && pairMask n)
  | .caddNode n => cairnForm n
  | .cwaitNode n => cairnForm n
  | .bin n => decide (n.t0 ≠ .unwired) && decide (n.t1 ≠ .unwired)
  | .bout n => decide (n.t0 ≠ .unwired) && decide (n.t1 ≠ .unwired)
  | .trace n => decide (5 ≤ field n.lit 3 0) && decide (field n.lit 3 0 ≤ 11)
  | _ => true
where
  /-- For a pair format, LMASK bits 2i and 2i + 1 must be equal (R420). -/
  pairMask (n : NodeRec) : Bool :=
    decide (fmtWidth n.fmt ≠ 64) || decide (((n.lit ^^^ (n.lit >>> 1)) &&& 0x5555#32) = 0)
  /-- CDYN and KL (Table 19.1): with either, its LIT bits must be zero, whatever the sources. -/
  cairnForm (n : NodeRec) : Bool :=
    (if n.mod.getLsbD 1 then decide (field n.lit 19 0 = 0) else decide (n.rsrc = .zero)) &&
    (!n.mod.getLsbD 0 || decide (field n.lit 31 20 = 0))

/-- The feature of Table 13.9 a record needs beside bit 0; 0 where none. A list, for nodes may need two. -/
def needs : Instr → List Nat
  | .ppset n => [5] ++ byFmt n
  | .ppmul n => [5] ++ byFmt n
  | .ppdiv n => [5] ++ byFmt n
  | .ppcmb n => [5] ++ byFmt n
  | .ppnrm n => [5] ++ byFmt n
  | .ppout n => [5] ++ byFmt n
  | .hldNode n => [6] ++ byFmt n
  | .hstNode n => [6] ++ byFmt n
  | .hnewNode n => [6] ++ byFmt n
  | .hpinNode n => [6] ++ byFmt n
  | .hunpinNode n => [6] ++ byFmt n
  | .hcmpNode n => [6] ++ byFmt n
  | .vote n => [10] ++ byFmt n
  | .rng n => [12] ++ byFmt n
  | .fsfu n => [13] ++ byFmt n
  | .trace n => [17] ++ byFmt n
  | .hld _ => [6]
  | .hst _ => [6]
  | .hmov _ => [6]
  | .hpin _ => [6]
  | .hunpin _ => [6]
  | .hcmp _ => [6]
  | .hnew _ => [6]
  | .reloc _ => [7]
  | .relq _ => [7]
  | .snap _ => [8]
  | .snapdrop _ => [8]
  | .xbegin _ => [9]
  | .xput _ => [9]
  | .xcommit _ => [9]
  | .xabort _ => [9]
  | .cred _ => [14]
  | .fresize _ => [15]
  | .mldb n => matrix n ++ byFmt n
  | .mrow n => matrix n ++ byFmt n
  | .mqrow n => matrix n ++ byFmt n
  | .mrec n => matrix n ++ byFmt n
  | .mout n => matrix n ++ byFmt n
  | i => match nodeRule i with
    | some (_, n) => byFmt n
    | none => []
where
  /-- Any node with FMT .a8 needs bit 3, and .a4 bit 4 (Table 13.9). -/
  byFmt (n : NodeRec) : List Nat := if n.fmt = .a8 then [3] else if n.fmt = .a4 then [4] else []
  /-- Group 6 by format (Table 13.9). -/
  matrix (n : NodeRec) : List Nat :=
    if n.fmt = .bf16 ∨ n.fmt = .f16 then [1] else if n.fmt = .e4m3 ∨ n.fmt = .e5m2 then [2] else []

/-- The rules of single control entries beyond the columns of the field tables, checkable on the record alone. -/
def ctlExtra : Instr → Bool
  | .shlS r | .shrS r | .sarS r => !r.m.getLsbD 0 || decide (r.imm.toNat < 64)
  | .cancel r => decide (field r.imm 1 0 ≠ 3) || decide (r.a = 0)
  | .arm r => decide (field r.imm 1 0 ≠ 0) && decide (field r.imm 63 32 ≠ 0) && (decide (field r.imm 1 0 ≠ 3) || decide (r.b = 0))
  | .xput r => decide (1 ≤ r.imm.toNat) && decide (r.imm.toNat ≤ 65536)
  | .reloc r => decide (r.imm.toNat ≤ 65536)
  | _ => true

/-- Whether one register field keeps its rule (R278). -/
def regOk (u : RegUse) (x : BitVec 5) : Bool :=
  match u with
  | .no => decide (x = 0)
  | .s => true
  | .h => decide (x.toNat < 16)

/-- Whether IMM keeps its rule (R279, R291). -/
def immOk (u : ImmRule) (x : Word) : Bool :=
  match u with
  | .mask m => decide (x &&& ~~~m = 0)
  | .block => decide (field x 63 56 = 0) && decide (field x 10 0 = 0)

/-- A block address as an IMM, NEXT or register target must be (R279, R301). -/
def blockAddrOk (x : Word) : Bool := decide (field x 63 56 = 0) && decide (field x 10 0 = 0)

/-- A control record against its rule (R278, R279, R290, R291). -/
def ctlOk (c : CtlRule) (r : CtlRec) : Bool :=
  regOk c.d r.d && regOk c.a r.a && regOk c.b r.b &&
  (if c.cc then decide (r.cc.toNat < 6) else decide (r.cc = 0)) && immOk c.imm r.imm && c.mOk

/-- A node record against its rule (R243, R276, Table 13.12). -/
def nodeOk (c : NodeRule) (n : NodeRec) : Bool :=
  decide (n.lsrc ∈ c.left) && decide (n.rsrc ∈ c.right) && decide (n.fmt ∈ c.fmts) &&
  decide (n.mod &&& ~~~c.modMask = 0) &&
  (decide (n.lsrc = .literal) || decide (n.rsrc = .literal) || decide (n.lit &&& ~~~c.litMask = 0)) &&
  (match c.pm with
    | .any => decide (n.pmode ≠ .steer) || (decide (n.t0 ≠ .unwired) && decide (n.t1 ≠ .unwired))
    | .no => decide (n.pmode = .always)
    | .onlyTrue => decide (n.pmode = .ifTrue))

end Sys2Proof.Rules
end

