-- ==== Sys2Proof/WellFormed.lean ====
section
/-! DEFINITION. Which instructions are well formed: a record keeps the field rules of its entry (Table 13.12); an event names things the device has. -/

namespace Sys2Proof

/-- The checks of Table 13.12 that concern one record alone, and the bounds of an event's operands. -/
def Instr.wf (i : Instr) : Bool :=
  match Rules.nodeRule i, Rules.ctlRule i with
  | some (c, n), _ => Rules.nodeOk c n && Rules.nodeExtra i
  | none, some (c, r) => Rules.ctlOk c r && Rules.ctlExtra i
  | none, none =>
    match i with
    | .portTrained p _ _ | .idleNullTimer p | .linkFault p _ => decide (p < 36)
    | .routeRehash m d p => decide (m < 4) && decide (d < 4096) && decide (p < 9)
    | .classReleaseTimer p d c => decide (p < 36) && decide (d < 4096) && decide (c < 4096)
    | .launchDescriptorTake q d => decide (q < 64) && decide (d < 4)
    | .dispatchChoice d | .relocRun d | .timestampRebase d => decide (d < 4)
    | .l2ModeSwitch p | .bivouacExchange p => decide (p < 16)
    | .preempt k | .regionReplaceSwitch k | .blockFetch k | .blockCommit k | .faultTokenEntry k | .trapEntry k | .majorFaultSave k | .idleWake k => decide (k < 128)
    | .replicate k b | .replicaWithdraw k b | .fabricBlockMap k b | .unitComplete k b => decide (k < 128) && decide (b < 8)
    | .streamScoreboardStep t p | .loadStreamToken t p | .storeStreamToken t p | .streamComplete t p => decide (t < 2048) && decide (p < 8)
    | .arbiterWindow t p | .peCheckFailure t p => decide (t < 2048) && decide (p < 17)
    | _ => true

/-- An instruction the device accepts. -/
abbrev Instr.WellFormed (i : Instr) : Prop := i.wf = true

end Sys2Proof
end

