-- ==== Sys2Proof/Decode.lean ====
section
/-! DEFINITION. Decoding: records (Tables 13.1 to 13.8), flits (Tables 2.1 to 2.12), management and system commands (Tables 1.6, 3.11); and the encoder of records. -/

namespace Sys2Proof

/-- Why words are no instruction. -/
inductive DecodeErr where
  | badLength | badClass | unallocated | reservedBits | illFormed | badCrc | badType | badChannel | badHeader | badDecl
  deriving DecidableEq, Repr

namespace Decode

/-! ### Records -/

def srcOf (x : BitVec 2) : Src :=
  match x with
  | 0#2 => .token | 1#2 => .literal | 2#2 => .held | _ => .zero

def srcBits : Src → BitVec 2
  | .token => 0 | .literal => 1 | .held => 2 | .zero => 3

def pmodeOf (x : BitVec 2) : PMode :=
  match x with
  | 0#2 => .always | 1#2 => .ifTrue | 2#2 => .ifFalse | _ => .steer

def pmodeBits : PMode → BitVec 2
  | .always => 0 | .ifTrue => 1 | .ifFalse => 2 | .steer => 3

def portOf (x : BitVec 2) : Port :=
  match x with
  | 0#2 => .left | 1#2 => .right | 2#2 => .pred | _ => .ctl

def portBits : Port → BitVec 2
  | .left => 0 | .right => 1 | .pred => 2 | .ctl => 3

def fmtOf (x : BitVec 4) : Fmt :=
  match x with
  | 0#4 => .i8 | 1#4 => .i16 | 2#4 => .i32 | 3#4 => .i64 | 4#4 => .n8 | 5#4 => .n16 | 6#4 => .n32 | 7#4 => .n64
  | 8#4 => .f32 | 9#4 => .f16 | 10#4 => .bf16 | 11#4 => .e4m3 | 12#4 => .e5m2 | 13#4 => .a8 | 14#4 => .a4 | _ => .ref

def fmtBits : Fmt → BitVec 4
  | .i8 => 0 | .i16 => 1 | .i32 => 2 | .i64 => 3 | .n8 => 4 | .n16 => 5 | .n32 => 6 | .n64 => 7
  | .f32 => 8 | .f16 => 9 | .bf16 => 10 | .e4m3 => 11 | .e5m2 => 12 | .a8 => 13 | .a4 => 14 | .ref => 15

/-- A target field (Table 13.3, R277). -/
def targetOf (x : BitVec 16) : Option Target :=
  if x.extractLsb' 15 1 = 0#1 then if x = 0#16 then some .unwired else none
  else if x.extractLsb' 7 5 ≠ 0#5 then none
  else if x.extractLsb' 12 1 = 0#1 then some (.node (portOf (x.extractLsb' 13 2)) (x.extractLsb' 0 7))
  else if x.extractLsb' 13 2 = 0#2 ∧ x.extractLsb' 4 3 = 0#3 then some (.region (x.extractLsb' 0 4))
  else none

def targetBits : Target → BitVec 16
  | .unwired => 0#16
  | .node p n => 1#1 ++ portBits p ++ 0#1 ++ 0#5 ++ n
  | .region q => 1#1 ++ 0#2 ++ 1#1 ++ 0#8 ++ q

/-- The fields of a node record below its opcode (Table 13.2). -/
def nodeFields (x : Rec96) : Except DecodeErr NodeRec :=
  if x.extractLsb' 64 2 ≠ 0#2 then .error .reservedBits
  else
    match targetOf (x.extractLsb' 48 16), targetOf (x.extractLsb' 32 16) with
    | some t0, some t1 =>
      .ok ⟨fmtOf (x.extractLsb' 80 4), x.extractLsb' 72 8, srcOf (x.extractLsb' 70 2), srcOf (x.extractLsb' 68 2),
        pmodeOf (x.extractLsb' 66 2), t0, t1, x.extractLsb' 0 32⟩
    | _, _ => .error .reservedBits

/-- The fields of a control record below its opcode (Table 13.4). -/
def ctlFields (x : Rec96) : CtlRec :=
  ⟨x.extractLsb' 81 5, x.extractLsb' 76 5, x.extractLsb' 71 5, x.extractLsb' 68 3, x.extractLsb' 64 4, x.extractLsb' 0 64⟩

/-- A record of 96 bits (R273): a node or control record that keeps the rules of its entry. -/
def record (x : Rec96) : Except DecodeErr Instr :=
  if x.extractLsb' 94 2 = 0#2 then
    match nodeFields x with
    | .error e => .error e
    | .ok n =>
      match Rules.mkNode (x.extractLsb' 84 10).toNat n with
      | none => .error .unallocated
      | some i => if i.wf then .ok i else .error .illFormed
  else if x.extractLsb' 94 2 = 1#2 then
    match Rules.mkCtl (x.extractLsb' 86 8).toNat (ctlFields x) with
    | none => .error .unallocated
    | some i => if i.wf then .ok i else .error .illFormed
  else .error .badClass

/-! ### Block headers and declarations -/

/-- A block header (Table 13.1) and its own checks at fetch (Table 13.12). -/
def header (x : Rec96) : Except DecodeErr Machine.BlockHdr :=
  if x.extractLsb' 94 2 ≠ 2#2 then .error .badHeader
  else if 2 ≤ field x 81 80 then .error .badHeader
  else if bitAt x 86 && decide (field x 81 80 ≠ 0) then .error .badHeader
  else .ok ⟨field x 93 87, bitAt x 86, field x 85 82, field x 81 80, field x 79 64, field x 63 19 * 2048, field x 18 0⟩

/-- A declaration record (Tables 13.6 to 13.8). -/
inductive Decl where
  | stmt1 (idx rows fmt rank : Nat) (lat : List Nat) (reads : Nat) (dir : List Bool) (base len : Nat) (clean : Bool)
  | stmt2 (idx : Nat) (dist : List Nat)
  | port (q : Nat) (into : Bool) (kind sport node : Nat) (port : Port) (dev blkid : Nat)
  | policy (byte : BitVec 8) (first last : Nat)
  | tmr (first last : Nat)
  | iter (widths : List Nat) (clean : Bool)
  | tap (node : Nat) (tsel : Bool) (cairn : Nat)
  | timed (q dirn hops node : Nat) (port : Port)
  deriving DecidableEq, Repr

/-- A declaration record read by its subtype (R280); reserved bits must be zero. -/
def decl (x : Rec96) : Except DecodeErr Decl :=
  if x.extractLsb' 94 2 ≠ 3#2 then .error .badClass
  else
    match field x 93 90 with
    | 0 =>
      if field x 14 0 ≠ 0 then .error .reservedBits
      else
        let rank := field x 70 69 + 1
        let nib := fun d => field x (56 + 4 * d) (53 + 4 * d)
        .ok (.stmt1 (field x 89 82) (field x 81 75 + 1) (field x 74 71) rank ((List.range rank).map nib) (field x 52 45)
          ((List.range rank).map fun d => bitAt x (41 + d)) (field x 40 28) (field x 27 15 + 1)
          ((List.range 4).all fun d => decide (d < rank) || (decide (nib d = 0) && !bitAt x (41 + d))))
    | 1 =>
      if field x 49 0 ≠ 0 then .error .reservedBits
      else .ok (.stmt2 (field x 89 82) ((List.range 4).map fun d => field x (57 + 8 * d) (50 + 8 * d)))
    | 2 =>
      if field x 42 0 ≠ 0 then .error .reservedBits
      else if field x 84 83 = 3 then .error .badDecl
      else .ok (.port (field x 89 86) (bitAt x 85) (field x 84 83) (field x 82 80) (field x 79 73) (portOf (x.extractLsb' 71 2))
        (field x 70 59) (field x 58 43))
    | 3 =>
      if field x 67 0 ≠ 0 then .error .reservedBits else .ok (.policy (x.extractLsb' 82 8) (field x 81 75) (field x 74 68))
    | 4 => if field x 75 0 ≠ 0 then .error .reservedBits else .ok (.tmr (field x 89 83) (field x 82 76))
    | 5 =>
      if field x 63 0 ≠ 0 then .error .reservedBits
      else
        let rank := field x 89 88 + 1
        let w := fun d => field x (87 - 6 * d) (82 - 6 * d)
        .ok (.iter ((List.range rank).map w)
          ((List.range 4).all fun d => if d < rank then decide (1 ≤ w d) && decide (w d ≤ 32) else decide (w d = 0)))
    | 6 => if field x 61 0 ≠ 0 then .error .reservedBits else .ok (.tap (field x 89 83) (bitAt x 82) (field x 81 62))
    | 7 =>
      if field x 70 0 ≠ 0 then .error .reservedBits
      else .ok (.timed (field x 89 86) (field x 85 84) (field x 83 80) (field x 79 73) (portOf (x.extractLsb' 71 2)))
    | _ => .error .badDecl

/-! ### Flits -/

/-- One byte through the CRC-16 of Table 2.1: polynomial 0x1021, most significant bit first. -/
def crc16Bits : Nat → BitVec 16 → BitVec 16
  | 0, c => c
  | n + 1, c => crc16Bits n (if c.getLsbD 15 then (c <<< 1) ^^^ 0x1021#16 else c <<< 1)

/-- Bytes through the CRC one by one; each value is worked out before the next byte, so that the kernel can follow it. -/
def crc16From : List Byte → BitVec 16 → BitVec 16
  | [], c => c
  | b :: bs, c =>
    match (crc16Bits 8 (c ^^^ (BitVec.ofNat 16 b.toNat <<< 8))).toNat with
    | 0 => crc16From bs 0
    | n + 1 => crc16From bs (BitVec.ofNat 16 (n + 1))

/-- The CRC-16 of a byte sequence, initial value all ones (Table 2.1). -/
def crc16 (bs : List Byte) : BitVec 16 := crc16From bs 0xFFFF

/-- A link header of 96 bits (Table 2.1). -/
def flitHdr (x : Rec96) : FlitHdr :=
  ⟨x.extractLsb' 92 4, x.extractLsb' 90 2, x.extractLsb' 78 12, x.extractLsb' 66 12, x.extractLsb' 54 12, x.extractLsb' 42 12,
    x.extractLsb' 30 12, x.extractLsb' 24 6, x.extractLsb' 16 8, x.extractLsb' 0 16⟩

/-- The 96 bits of a link header. -/
def flitHdrBits (h : FlitHdr) : Rec96 :=
  h.typ ++ h.vch ++ h.ddev ++ h.sdev ++ h.ctx ++ h.seq ++ h.ack ++ h.cred ++ h.rsv ++ h.crc

/-- The 96 bytes of a flit (R29). -/
def flitBytes (f : Flit) : List Byte := leBytes 12 (flitHdrBits f.hdr).toNat ++ f.body

/-- The CRC a flit must carry: over its bytes with the field taken as zero (Table 2.1). -/
def flitCrc (f : Flit) : BitVec 16 := crc16 (flitBytes ⟨f.port, ⟨f.hdr.typ, f.hdr.vch, f.hdr.ddev, f.hdr.sdev, f.hdr.ctx, f.hdr.seq,
  f.hdr.ack, f.hdr.cred, f.hdr.rsv, 0⟩, f.body⟩)

/-- The virtual channel of a flit type (Table 2.2). -/
def typeVch : Nat → Nat
  | 0 => 3 | 1 => 0 | 2 => 0 | 3 => 1 | 4 => 1 | 5 => 2 | 6 => 2 | 7 => 0 | 8 => 2 | 9 => 3 | 10 => 1 | _ => 0

/-- Whether every byte of a body outside the named ranges is zero (R32). -/
def onlyBytes (body : List Byte) (named : List (Nat × Nat)) : Bool :=
  (List.range body.length).all fun i => named.any (fun r => decide (r.1 ≤ i) && decide (i ≤ r.2)) || decide (body.getD i 0 = 0)

/-- The little-endian number in body bytes lo to hi (R32). -/
def bodyNum (body : List Byte) (lo hi : Nat) : Nat := leNat ((body.drop lo).take (hi + 1 - lo))

/-- Whether a body keeps the layout of its type (R30, R32). Of a NULL, a request to read and an acknowledgement the bytes that say nothing must be
zero too, and of every memory flit the address bit that says nothing: the model's choice (log 29). -/
def bodyOk (typ : Nat) (body : List Byte) : Bool :=
  decide (body.length = 84) &&
  match typ with
  | 0 => onlyBytes body []
  | 1 | 4 => onlyBytes body [(64, 83)] && decide (bodyNum body 78 83 < 2 ^ 46)
  | 2 | 3 | 7 => decide (bodyNum body 78 83 / 2 ^ 46 % 2 = 0)
  | 5 => true
  | 6 => onlyBytes body [(0, 0), (2, 6), (8, 21)] && decide (1 ≤ bodyNum body 0 0) && decide (bodyNum body 0 0 ≤ 3) && decide (bodyNum body 4 6 < 2 ^ 20)
  | 8 => onlyBytes body [(0, 15)] && decide (1 ≤ bodyNum body 0 0) && decide (bodyNum body 0 0 ≤ 7) && decide (bodyNum body 2 3 < 4096)
  | 9 => onlyBytes body [(0, 0), (2, 4)] && decide (1 ≤ bodyNum body 0 0) && decide (bodyNum body 0 0 ≤ 2) && decide (bodyNum body 2 3 < 4096)
  | 10 => onlyBytes body [(0, 4), (8, 37)] && decide (1 ≤ bodyNum body 0 0) && decide (bodyNum body 0 0 ≤ 2)
  | 11 => onlyBytes body [(0, 0), (2, 3), (8, 13), (16, 21)] && decide (1 ≤ bodyNum body 0 0) && decide (bodyNum body 0 0 ≤ 4)
  | _ => false

/-- Whether a receiver keeps a flit (R31, R32). -/
def flitOk (f : Flit) : Bool :=
  decide (f.hdr.crc = flitCrc f) && decide (f.hdr.rsv = 0) && decide (f.hdr.typ.toNat < 12) &&
  decide (f.hdr.vch.toNat = typeVch f.hdr.typ.toNat) && bodyOk f.hdr.typ.toNat f.body

/-- The step that receives a flit, by TYPE and OP (Tables 2.2, 2.8 to 2.12). -/
def flitStep (f : Flit) : Except DecodeErr Instr :=
  match f.hdr.typ.toNat, bodyNum f.body 0 0 with
  | 0, _ => .ok .nullFlit
  | 1, _ => .ok .rdreq
  | 2, _ => .ok .wrreq
  | 3, _ => .ok .rdrsp
  | 4, _ => .ok .wrack
  | 5, _ => .ok .tokenFlit
  | 6, 1 => .ok .cairnAdd
  | 6, 2 => .ok .cairnWait
  | 6, 3 => .ok .cairnRead
  | 7, _ => .ok .xstage
  | 8, 1 => .ok .prepareTxn
  | 8, 2 => .ok .readyTxn
  | 8, 3 => .ok .commitTxn
  | 8, 4 => .ok .abortTxn
  | 8, 5 => .ok .doneTxn
  | 8, 6 => .ok .queryTxn
  | 8, 7 => .ok .keepTxn
  | 9, 1 => .ok .classBind
  | 9, 2 => .ok .classRelease
  | 10, _ => .ok .greply
  | 11, 1 => .ok .hopReadHeader
  | 11, 2 => .ok .hopPin
  | 11, 3 => .ok .hopUnpin
  | 11, 4 => .ok .hopWait
  | _, _ => .error .badType

/-- A flit of 96 bytes received on a port. -/
def parseFlit (port : Nat) (bs : List Byte) : Flit := ⟨port, flitHdr (BitVec.ofNat 96 (leNat (bs.take 12))), bs.drop 12⟩

/-- The step of a received flit, or why it is discarded (R31). -/
def flit (port : Nat) (bs : List Byte) : Except DecodeErr Instr :=
  let f := parseFlit port bs
  if f.hdr.crc ≠ flitCrc f then .error .badCrc
  else if f.hdr.vch.toNat ≠ typeVch f.hdr.typ.toNat then .error .badChannel
  else if flitOk f then flitStep f else .error .reservedBits

/-! ### Commands -/

/-- A 64-byte system command or launch descriptor as words 0 to 7. -/
def words8 (bs : List Byte) : SysCmd :=
  let w := fun i => BitVec.ofNat 64 (leNat ((bs.drop (8 * i)).take 8))
  ⟨w 0, w 1, w 2, w 3, w 4, w 5, w 6, w 7⟩

/-- Whether a word holds bits only in a mask. -/
def within (x m : Word) : Bool := decide (x &&& ~~~m = 0)

/-- Whether a system command's reserved bits are zero (R72, Table 3.11). -/
def commandOk (c : SysCmd) : Bool :=
  within c.w1 0xFFFFF#64 &&
  match field c.w0 7 0 with
  | 0x10 => within c.w0 0x1FFFF0FFF00FF#64 && within c.w2 0xFFFFFFE000#64 && within c.w3 0x7FFFF#64 && within c.w4 0xFFFFFFFFFFFF#64 && within c.w5 0xFFFFFF0000#64
  | 0x11 | 0x16 => within c.w0 0xFFF00FF#64 && decide (c.w2 = 0) && decide (c.w3 = 0) && decide (c.w4 = 0) && decide (c.w5 = 0)
  | 0x12 => within c.w0 0xFFF00FF#64 && within c.w2 3#64 && decide (c.w5 = 0) &&
      (match field c.w2 1 0 with
        | 0 => within c.w3 0x3F#64
        | 3 => decide (c.w3 = 0) && decide (c.w4 = 0)
        | _ => within c.w3 0xFFFF#64 && decide (c.w4 = 0))
  | 0x13 => within c.w0 0xFFF00FF#64 && within c.w4 0xFFFFF#64 && decide (c.w5 = 0)
  | 0x14 => within c.w0 0xFFF00FF#64 && decide (c.w3 = 0) && within c.w4 0xFFFFF#64 && decide (c.w5 = 0)
  | 0x15 => within c.w0 0xFFF00FF#64 && decide (c.w5 = 0)
  | 0x17 => within c.w0 0xFFF00FF#64 && within c.w3 0xFFF#64 && decide (c.w4 = 0) && decide (c.w5 = 0)
  | 0x18 => within c.w0 0xFF#64 && within c.w2 0xFFFFF#64 && within c.w3 0xFFFFF#64 && decide (c.w4 = 0) && decide (c.w5 = 0)
  | _ => false

/-- The step of a system command by KIND (Table 3.11). -/
def command (c : SysCmd) : Except DecodeErr Instr :=
  match field c.w0 7 0 with
  | 0x10 => .ok .ctxnew
  | 0x11 => .ok .ctxfree
  | 0x12 => .ok .cancelCommand
  | 0x13 => .ok .snapCommand
  | 0x14 => .ok .snapdropCommand
  | 0x15 => .ok .replaceCommand
  | 0x16 => .ok .cfginv
  | 0x17 => .ok .topo
  | 0x18 => .ok .cinit
  | _ => .error .unallocated

/-- The step of a MGMTCMD value (Table 1.6, R24). -/
def mgmt (w : Word) : Instr :=
  if field w 48 0 ≠ 0 then .malformedCommand
  else
    match field w 63 56 with
    | 1 => .freezeCmd
    | 2 => .warmresetCmd
    | 3 => .contCmd
    | _ => .malformedCommand

/-- Decoding by size: a record of 12 bytes, a MGMTCMD value of 8, a system command of 64, a flit of 96. -/
def bytes (bs : List Byte) : Except DecodeErr Instr :=
  if bs.length = 12 then record (BitVec.ofNat 96 (leNat bs))
  else if bs.length = 8 then .ok (mgmt (BitVec.ofNat 64 (leNat bs)))
  else if bs.length = 64 then command (words8 bs)
  else if bs.length = 96 then flit 0 bs
  else .error .badLength

/-! ### The encoder of records -/

/-- The 96 bits of a node record (Table 13.2). -/
def nodeBits (op : Nat) (n : NodeRec) : Rec96 :=
  0#2 ++ BitVec.ofNat 10 op ++ fmtBits n.fmt ++ n.mod ++ srcBits n.lsrc ++ srcBits n.rsrc ++ pmodeBits n.pmode ++ 0#2 ++
    targetBits n.t0 ++ targetBits n.t1 ++ n.lit

/-- The 96 bits of a control record (Table 13.4). -/
def ctlBits (op : Nat) (r : CtlRec) : Rec96 :=
  1#2 ++ BitVec.ofNat 8 op ++ r.d ++ r.a ++ r.b ++ r.cc ++ r.m ++ r.imm

/-- The record of an instruction; none for an event. -/
def encode (i : Instr) : Option Rec96 :=
  match Rules.nodeRule i, Rules.ctlRule i with
  | some (c, n), _ => some (nodeBits c.op n)
  | none, some (c, r) => some (ctlBits c.op r)
  | none, none => none

end Decode

/-- What the decoder reads from an instruction whose low bits are `w` (the host's numbering); the bits above `nbits` are zero. -/
def decodeTableWord (nbits w : Nat) : Option Instr :=
  let n := if nbits = 64 then 8 else if nbits ≤ 96 then 12 else if nbits ≤ 512 then 64 else 96
  match Decode.bytes (leBytes n w) with
  | .ok i => some i
  | .error _ => none

end Sys2Proof
end

