-- ==== Sys2Proof/Machine/Ops.lean ====
section
/-! DEFINITION. Named operations: tables, registers, cairns, fault records, cancellation, taking a trap and returning from one. -/

namespace Sys2Proof.Machine

/-! ### Tables -/

/-- The entry at a key. -/
def tget {α : Type} : Tab α → Nat → Option α
  | [], _ => none
  | (k, v) :: t, n => if k = n then some v else tget t n

/-- The entry at a key, or a default. -/
def tgetD {α : Type} (t : Tab α) (n : Nat) (d : α) : α := (tget t n).getD d

/-- Writes an entry, keeping the keys strictly rising. -/
def tput {α : Type} : Tab α → Nat → α → Tab α
  | [], n, v => [(n, v)]
  | (k, w) :: t, n, v => if n < k then (n, v) :: (k, w) :: t else if k = n then (n, v) :: t else (k, w) :: tput t n v

/-- Removes an entry. -/
def tdel {α : Type} (t : Tab α) (n : Nat) : Tab α := t.filter fun e => decide (e.1 ≠ n)

/-- The entry at list position `n` replaced. -/
def lput {α : Type} : List α → Nat → α → List α
  | [], _, _ => []
  | _ :: t, 0, v => v :: t
  | a :: t, n + 1, v => a :: lput t n v

/-- List position `n` dropped. -/
def ldrop {α : Type} : List α → Nat → List α
  | [], _ => []
  | _ :: t, 0 => t
  | a :: t, n + 1 => a :: ldrop t n

/-- Inserts a number in a strictly rising list. -/
def ninsert : List Nat → Nat → List Nat
  | [], n => [n]
  | k :: t, n => if n < k then n :: k :: t else if k = n then k :: t else k :: ninsert t n

/-! ### Free values -/

/-- A free choice below `n`, drawn with the counter (log 2). -/
def State.choice (s : State) (n : Nat) : Nat := if n = 0 then 0 else Config.pick s.draws n % n

/-- The counter of free values moves on. -/
def State.drawn (s : State) : State := { s with draws := s.draws + 1 }

/-! ### Setters of State -/

def State.putRegion (s : State) (k : Nat) (r : Region) : State := { s with regions := tput s.regions k r }
def State.putTile (s : State) (k : Nat) (t : Tile) : State := { s with tiles := tput s.tiles k t }
def State.post (s : State) (t : Turn) : State := { s with agenda := s.agenda ++ [t] }
def State.report (s : State) (r : Report) : State := { s with dev := { s.dev with reports := s.dev.reports ++ [r] } }
def State.putCtx (s : State) (c : Nat) (x : Ctx) : State := { s with host := { s.host with ctxs := tput s.host.ctxs c x } }
def State.putLaunch (s : State) (l : Nat) (x : Launch) : State := { s with host := { s.host with launches := tput s.host.launches l x } }

/-! ### Blank pieces -/

/-- A polynomial accumulator as its first node finds it (R408). -/
def PolyAcc.blank : PolyAcc := ⟨(0x3F800000#32 : Elem) :: List.replicate 63 0, 0, 63, false, 0, false⟩

def Pe.blank : Pe := ⟨0, 0, [], [], PolyAcc.blank, [], none, 0, [], [], 0, []⟩

/-- Initial value of a stream digest (R240). -/
def digestInit : Word := BitVec.allOnes 64

def Stream.blank : Stream := ⟨.idle, [], 0, 0, [], [], [], [], [], false, none, digestInit, 0, false, false⟩

def Tile.blank : Tile := ⟨[], [], [], [], [], [], [], [], none, [], [], [], 0, none, [], 0⟩

/-- Pool credits of each channel of a trained port (R40). -/
def poolFull : List Nat := [512, 512, 512]

def PortSt.blank : PortSt := ⟨false, false, false, 0, 0, [], 0, 0, 0, [], [], [], poolFull, [0, 0, 0], [], 0, 0, 0, false⟩

def Frame.blank : Frame := ⟨false, none, [], .normal, 0, false, []⟩

def RelocEng.blank : RelocEng := ⟨[], 0, [], 0, 0, none, none, 0, false⟩

def Slot.blank : Slot := ⟨0, 0, .empty, false, 0, 0, 0, 0, 0, 0⟩

def Die.blank : Die := ⟨[], 0, none⟩

/-- A lane with no valid element (R120). -/
def Lane.off : Lane := ⟨0, false, false⟩

/-- A valid clean lane. -/
def Lane.on (v : Elem) : Lane := ⟨v, true, false⟩

def Flags.none : Flags := ⟨false, false, false, false, false, false⟩

def noLanes : List Lane := List.replicate 16 Lane.off
def noLoff : List Nat := List.replicate 16 0

/-- A TEAR token for an arc (R130). -/
def Token.tearTok (ctx bslot node : Nat) (p : Port) (copy : Nat) : Token :=
  ⟨ctx, bslot, node, p, 0, noLoff, { Flags.none with tear := true }, noLanes, copy⟩

/-! ### Regions and tiles -/

/-- Number of tiles of a region. -/
def Region.size (r : Region) : Nat := r.w * r.hgt

/-- Places of the tiles that hold copies of a region's units (R99). -/
def Region.extras (r : Region) : List (Nat × Nat × Nat) := r.replicas.flatMap fun x => x.places

/-- Table key of a copy's tile. -/
def Region.placeKey (r : Region) (p : Nat × Nat × Nat) : Nat := r.part * 128 + (r.y0 + p.2.2 - 16) * 16 + (r.x0 + p.2.1 - 16)

/-- Table key of the tile that a region numbers `t` (R110); beyond its own tiles, those of its units' copies. -/
def Region.tileKey (r : Region) (t : Nat) : Nat :=
  if r.size ≤ t then ((r.extras[t - r.size]?).map r.placeKey).getD 0 else r.part * 128 + (r.y0 + t / r.w) * 16 + (r.x0 + t % r.w)

/-- Number of tiles of a region with those of its units' copies. -/
def Region.total (r : Region) : Nat := r.size + r.extras.length

/-- Keys of a region's tiles, row-major, and of those of its units' copies. -/
def Region.tiles (r : Region) : List Nat := (List.range r.total).map r.tileKey

/-- Table key of a control core. -/
def coreKey (part core : Nat) : Nat := part * 8 + core

/-- The number of one of a region's own tiles. -/
def Region.ownTile (r : Region) (k : Nat) : Option Nat :=
  let x := k % 16
  let y := k / 16 % 8
  if k / 128 = r.part ∧ r.x0 ≤ x ∧ x < r.x0 + r.w ∧ r.y0 ≤ y ∧ y < r.y0 + r.hgt
  then some ((y - r.y0) * r.w + (x - r.x0)) else none

/-- The region's number of a tile, where it holds it; of a copy's tile, that of the tile it is a copy of. -/
def Region.rtile (r : Region) (k : Nat) : Option Nat :=
  match r.ownTile k with
  | some t => some t
  | none => (r.extras.find? fun p => decide (r.placeKey p = k)).map fun p => p.1

/-- The number by which a parked region keeps a tile: no two tiles have one. -/
def Region.numOf (r : Region) (k : Nat) : Nat :=
  match r.ownTile k with
  | some t => t
  | none => (((List.range r.extras.length).find? fun i => decide (r.tileKey (r.size + i) = k)).map fun i => r.size + i).getD 0

/-- The copy of a unit that stands on a tile; 0 for the unit itself. -/
def Region.copyAt (r : Region) (k : Nat) : Nat := ((r.replicas.find? fun x => x.places.any fun p => decide (r.placeKey p = k)).map fun x => x.id).getD 0

/-- The region's own tile that a tile is, or is a copy of. -/
def Region.ownKey (r : Region) (k : Nat) : Nat := ((r.rtile k).map r.tileKey).getD k

/-- The live region that holds a tile, with its key. -/
def State.regionOf (s : State) (tile : Nat) : Option (Nat × Region) := s.regions.find? fun e => (e.2.rtile tile).isSome

/-- The tile at a key, blank where nothing was written. -/
def State.tile (s : State) (k : Nat) : Tile := tgetD s.tiles k Tile.blank

/-- The PE of a tile. -/
def Tile.pe (t : Tile) (p : Nat) : Pe := tgetD t.pes p Pe.blank

def Tile.putPe (t : Tile) (p : Nat) (x : Pe) : Tile := { t with pes := tput t.pes p x }

/-- The stream port of a tile. -/
def Tile.stream (t : Tile) (p : Nat) : Stream := tgetD t.streams p Stream.blank

def Tile.putStream (t : Tile) (p : Nat) (x : Stream) : Tile := { t with streams := tput t.streams p x }

/-- The die of a partition (R8). -/
def dieOf (part : Nat) : Nat := part / 4

/-- FEATEN as a number. -/
def State.featenN (s : State) : Nat := s.dev.featen.toNat

/-- DIEFEAT of a die: FEATEN without the fenced features (Table 4.3). -/
def State.diefeat (s : State) (die : Nat) : Nat :=
  s.featenN &&& (0x7FFFF ^^^ ((tgetD s.host.dies die Die.blank).fencedFeats % 2 ^ 19))

/-- Whether feature bits are all present in a set. -/
def featsIn (need have_ : Nat) : Bool := decide (need &&& have_ = need)

/-! ### Registers -/

/-- A scalar register; `s0` reads as zero (R111). -/
def readS (rs : List Word) (n : BitVec 5) : Word := if n = 0 then 0 else rs.getD n.toNat 0

/-- Writes a scalar register; a write of `s0` is discarded (R111). -/
def writeS (rs : List Word) (n : BitVec 5) (v : Word) : List Word := if n = 0 then rs else lput rs n.toNat v

/-- A reference register (R112). -/
def readH (hs : List Word) (n : BitVec 5) : Word := hs.getD n.toNat 0

def writeH (hs : List Word) (n : BitVec 5) (v : Word) : List Word := lput hs n.toNat v

/-! ### Flags (Table 5.3) -/

def fNV : BitVec 10 := 1#10
def fDZ : BitVec 10 := 2#10
def fOF : BitVec 10 := 4#10
def fUF : BitVec 10 := 8#10
def fNX : BitVec 10 := 16#10
def fSAT : BitVec 10 := 32#10
def fPSN : BitVec 10 := 64#10
def fTRUNC : BitVec 10 := 128#10
def fRMU : BitVec 10 := 256#10
def fUNM : BitVec 10 := 512#10

/-- Sets EXSUM bits of a region (R113). -/
def Region.setFlags (r : Region) (f : BitVec 10) : Region := { r with exsum := r.exsum ||| BitVec.ofNat 64 f.toNat }

def State.setFlags (s : State) (key : Nat) (f : BitVec 10) : State :=
  match tget s.regions key with
  | some r => s.putRegion key (r.setFlags f)
  | none => s

/-! ### Fault codes (Table 10.3) -/

def cAddressForm : Nat := 0x01
def cUnmapped : Nat := 0x02
def cFirstTouch : Nat := 0x03
def cNotResident : Nat := 0x04
def cTableError : Nat := 0x05
def cHeapClass : Nat := 0x06
def cWriteProtect : Nat := 0x07
def cCow : Nat := 0x08
def cWalkMiss : Nat := 0x09
def cUntranslated : Nat := 0x0A
def cFetchProtect : Nat := 0x0B
def cFoldOrder : Nat := 0x10
def cExpired : Nat := 0x11
def cPanelShape : Nat := 0x12
def cNameRange : Nat := 0x13
def cUndeclared : Nat := 0x14
def cNameMismatch : Nat := 0x15
def cRemoteFault : Nat := 0x20
def cRemoteUnknown : Nat := 0x21
def cNoRoute : Nat := 0x22
def cCairnOverflow : Nat := 0x23
def cNoCairn : Nat := 0x24
def cNullRef : Nat := 0x30
def cBadRef : Nat := 0x31
def cNotHeap : Nat := 0x32
def cHeapPageSize : Nat := 0x33
def cHeaderWrite : Nat := 0x34
def cDeadObject : Nat := 0x35
def cObjectBound : Nat := 0x36
def cForwardChain : Nat := 0x37
def cPinOverflow : Nat := 0x38
def cPinUnderflow : Nat := 0x39
def cAllocSize : Nat := 0x3A
def cHeapFull : Nat := 0x3B
def cRefill : Nat := 0x3C
def cStaleRef : Nat := 0x3D
def cScale : Nat := 0x40
def cUncorrectable : Nat := 0x41
def cTrap : Nat := 0x42
def cPoisonedOperand : Nat := 0x43
def cPoisonedLoad : Nat := 0x44
def cPendingError : Nat := 0x45
def cAccLost : Nat := 0x46
def cPeLost : Nat := 0x47
def cVoteDisagree : Nat := 0x48
def cNoMajority : Nat := 0x49
def cIllegalNode : Nat := 0x50
def cUnplaceable : Nat := 0x51
def cAbsentFeature : Nat := 0x52
def cIllegalInstr : Nat := 0x53
def cDeclFault : Nat := 0x54
def cArmFull : Nat := 0x55
def cBudget : Nat := 0x56

/-- CLASS of a code (R224). -/
def codeClass (c : Nat) : Nat :=
  if c = 0x03 ∨ c = 0x08 ∨ c = 0x09 ∨ c = 0x3C then 1
  else if c = 0x04 ∨ c = 0x47 ∨ c = 0x56 then 2
  else if c = 0x23 ∨ c = 0x48 then 3 else 0

/-! ### Cairns (R195) -/

/-- A cairn's value. -/
def Cairns.val (c : Cairns) (k : Nat) : Word := tgetD c.vals k 0

/-- Whether a cairn's cancelled flag is set (R82). -/
def Cairns.flag (c : Cairns) (k : Nat) : Bool := c.flags.contains k

/-- The value after an add, saturating (Table 8.3). -/
def cairnSum (v k : Word) : Word := if v.toNat + k.toNat < 2 ^ 64 then v + k else BitVec.allOnes 64

/-- Whether an add overflows (Table 8.3). -/
def cairnOver (v k : Word) : Bool := decide (2 ^ 64 ≤ v.toNat + k.toNat)

/-- Adds to a cairn (Table 8.3). -/
def Cairns.add (c : Cairns) (k : Nat) (n : Word) : Cairns := { c with vals := tput c.vals k (cairnSum (c.val k) n) }

/-- Advances a completion cairn by 1, with the cancelled flag where asked (R82); a number with no cairn has no effect. -/
def Cairns.advance (c : Cairns) (k : Nat) (cancelled : Bool) : Cairns :=
  if Config.cairnCount ≤ k then c
  else
    let c' := c.add k 1
    if cancelled then { c' with flags := ninsert c'.flags k } else c'

/-- Creates a cairn anew at 0, its flag clear (R77, R311). -/
def Cairns.create (c : Cairns) (k : Nat) : Cairns := { c with vals := tput c.vals k 0, flags := c.flags.filter fun x => decide (x ≠ k) }

def State.cairnAdd (s : State) (k : Nat) (n : Word) : State := { s with cairn := s.cairn.add k n }

/-- An add whose overflow is reported to the SCC: its own, a host's, an engine's (Table 8.3). -/
def State.cairnAddScc (s : State) (c : Nat) (n : Word) : State :=
  if cairnOver (s.cairn.val c) n then (s.cairnAdd c n).report (.cairnOverflow c) else s.cairnAdd c n

/-- A completion cairn advanced by the SCC (R82, Table 8.3). -/
def State.advance (s : State) (k : Nat) (cancelled : Bool) : State :=
  let s1 := { s with cairn := s.cairn.advance k cancelled }
  if k < Config.cairnCount ∧ cairnOver (s.cairn.val k) 1 = true then s1.report (.cairnOverflow k) else s1

/-! ### Flits sent (R29, R33, R36 to R39, R42) -/

/-- Home M-die of a local physical address (R160). -/
def homeDie (a : Nat) : Nat :=
  if a < Config.memBytes then a / 0x3000000000
  else if 0xFE00000000 ≤ a ∧ a < 0xFE00800000 then (a - 0xFE00000000) / 8 % 4 else 0

/-- Device field of a global physical address (R36). -/
def devOf (pa : Nat) : Nat := pa / 2 ^ 40 % 4096

/-- Local part of a global physical address. -/
def localOf (pa : Nat) : Nat := pa % 2 ^ 40

/-- Whether an address is this device's own (R36); before numbering it has no number but 0xFFF (R60). -/
def State.isLocal (s : State) (pa : Nat) : Bool := decide (devOf pa = s.dev.devNum) && s.dev.devSet

/-- A port of the device. -/
def Link.port (l : Link) (p : Nat) : PortSt := tgetD l.ports p PortSt.blank
def Link.putPort (l : Link) (p : Nat) (x : PortSt) : Link := { l with ports := tput l.ports p x }

/-- How an attempt to send ends. -/
inductive Sent where
  | ok (s : State) | noRoute | wait
  deriving DecidableEq, Repr

/-- The port by which an address of a remote device leaves when its route entry lists `ps` (R37): of the M-die that its bits 39:0 name, by a hash
of sector-address bits 51:6. -/
def routeOf (dev a : Nat) (ps : List Nat) : Option Nat :=
  match ps with
  | [] => none
  | ps => some (homeDie (localOf a) * 9 + ps.getD (Config.portHash ((dev * 2 ^ 40 + localOf a) / 64) ps.length % ps.length) 0)

/-- The ports a route entry lists for an address of a remote device. -/
def State.routeList (s : State) (dev a : Nat) : List Nat := tgetD s.link.routes (homeDie (localOf a) * 4096 + dev) []

/-- The port an address of a remote device leaves by (R37); none where its entry is empty (R38). -/
def State.routePort (s : State) (dev a : Nat) : Option Nat := routeOf dev a (s.routeList dev a)

/-- A flit with its link header and CRC (Table 2.1). -/
def mkFlit (port typ ddev sdev ctx seq ack cred : Nat) (body : List Byte) : Flit :=
  let h : FlitHdr := ⟨BitVec.ofNat 4 typ, BitVec.ofNat 2 (Decode.typeVch typ), BitVec.ofNat 12 ddev, BitVec.ofNat 12 sdev,
    BitVec.ofNat 12 ctx, BitVec.ofNat 12 seq, BitVec.ofNat 12 ack, BitVec.ofNat 6 cred, 0, 0⟩
  ⟨port, { h with crc := Decode.flitCrc ⟨port, h, body⟩ }, body⟩

/-- The channel whose pool credits a flit's CRED field returns: its own, or for a link control flit the first to which any are owed (log 29). -/
def PortSt.credChan (p : PortSt) (vch : Nat) : Nat :=
  if vch < 3 then vch else if p.owed.getD 0 0 ≠ 0 then 0 else if p.owed.getD 1 0 ≠ 0 then 1 else 2

/-- Class entries with a flit of a class now (R41). -/
def PortSt.touch (p : PortSt) (sdev ctx now : Nat) : List ClassEntry :=
  p.classes.map fun c => if c.sdev = sdev ∧ c.ctx = ctx then { c with last := now } else c

/-- Puts a flit on a port's wire and into its replay buffer (R33), with the ACK and the pool credits that it carries. -/
def State.putRaw (s : State) (port typ ddev sdev ctx : Nat) (body : List Byte) (pool : Bool) : State :=
  let p := s.link.port port
  let vch := Decode.typeVch typ
  let ch := p.credChan vch
  let cred := min 63 (p.owed.getD ch 0)
  let f := mkFlit port typ ddev sdev ctx p.nextSeq ((p.expect + 4095) % 4096) cred body
  let p' := { p with
    nextSeq := (p.nextSeq + 1) % 4096
    buffer := p.buffer ++ [f]
    classes := if vch < 3 then p.touch sdev ctx s.now else p.classes
    inPool := if pool then p.inPool ++ [p.nextSeq] else p.inPool
    pool := if pool then lput p.pool vch (p.pool.getD vch 0 - 1) else p.pool
    owed := lput p.owed ch (p.owed.getD ch 0 - cred)
    lastSent := s.now }
  { s with link := { s.link.putPort port p' with tx := s.link.tx ++ [f] } }

/-- The number a device signs with (R60). -/
def State.ownNum (s : State) : Nat := if s.dev.devSet then s.dev.devNum else 0xFFF

/-- A CLASS body (Table 2.12). -/
def classBody (op ctx : Nat) : List Byte := leBytes 2 op ++ leBytes 2 ctx ++ leBytes 1 7 ++ List.replicate 79 0

/-! #### Credits of a sender (R40 to R42) -/

/-- Flits of a class on a channel that the peer has not acknowledged: of the class's entry, or of the pool (log 29). -/
def PortSt.inFlight (p : PortSt) (pool : Bool) (vch ctx : Nat) : Nat :=
  (p.buffer.filter fun f => decide (f.hdr.vch.toNat = vch ∧ f.hdr.ctx.toNat = ctx ∧ p.inPool.contains f.hdr.seq.toNat = pool)).length

/-- Whether a class has an entry on a port (R41); a class that uses the pool only is listed with no channel. -/
def PortSt.bound (p : PortSt) (sdev ctx : Nat) : Bool := p.classes.any fun c => decide (c.sdev = sdev ∧ c.ctx = ctx ∧ c.vchm ≠ 0)

/-- Flits the replay buffer has places for (R33). -/
def replayPlaces : Nat := 1024

/-- What a flit of a class may be sent against now: its entry's 4 flits (false), or a credit of the pool within the half-pool limit (true); none
where it waits (R42). Link control flits need only a place in the replay buffer. -/
def PortSt.room (p : PortSt) (sdev ctx vch : Nat) : Option Bool :=
  if replayPlaces ≤ p.buffer.length then none
  else if 3 ≤ vch then some false
  else if p.bound sdev ctx && decide (p.inFlight false vch ctx < 4) then some false
  else if 0 < p.pool.getD vch 0 ∧ p.inFlight true vch ctx < 256 then some true
  else none

/-- Whether flits of a class wait on a channel of a port; later ones stand behind them. -/
def PortSt.queued (p : PortSt) (ctx vch : Nat) : Bool := p.waiting.any fun w => decide (w.ctx = ctx ∧ Decode.typeVch w.typ = vch)

/-- The first flit of a class over a port binds an entry there, unless all 256 are bound: then the class uses the pool only, and NORSV counts it (R41). -/
def State.bindClass (s : State) (port ddev ctx : Nat) : State :=
  let n := s.ownNum
  let p := s.link.port port
  if p.classes.any fun c => decide (c.sdev = n ∧ c.ctx = ctx) then s
  else if 256 ≤ (p.classes.filter fun c => decide (c.sdev = n ∧ c.vchm ≠ 0)).length then
    { s with link := s.link.putPort port { p with classes := p.classes ++ [⟨n, ctx, 0, s.now⟩], norsv := min 255 (p.norsv + 1) } }
  else if replayPlaces ≤ p.buffer.length then s
  else
    let s1 : State := { s with link := s.link.putPort port { p with classes := p.classes ++ [⟨n, ctx, 7, s.now⟩] } }
    s1.putRaw port 9 ddev n ctx (classBody 1 ctx) false

/-- A flit sent against a credit; none where it must wait. -/
def State.trySend (s : State) (port typ ddev ctx : Nat) (body : List Byte) : Option State :=
  let s1 := if Decode.typeVch typ = 3 then s else s.bindClass port ddev ctx
  ((s1.link.port port).room s.ownNum ctx (Decode.typeVch typ)).map fun pool => s1.putRaw port typ ddev s.ownNum ctx body pool

/-- A flit of this device for a port: sent, or kept at the sender until its class has a credit (R42); a port that is down loses it (R35). -/
def State.putFlit (s : State) (port typ ddev ctx : Nat) (body : List Byte) : State :=
  let p := s.link.port port
  let later := { s with link := s.link.putPort port { p with waiting := p.waiting ++ [⟨typ, ddev, ctx, body⟩] } }
  if !p.up then s
  else if p.queued ctx (Decode.typeVch typ) then later
  else (s.trySend port typ ddev ctx body).getD later

/-- Sends of the flits that wait at a port, those that have a credit now; of one class and channel in their order. -/
def State.drainWaits (port : Nat) : List WaitFlit → State → State
  | [], s => s
  | w :: ws, s =>
    let p := s.link.port port
    let later := { s with link := s.link.putPort port { p with waiting := p.waiting ++ [w] } }
    let s1 := if p.queued w.ctx (Decode.typeVch w.typ) then later else (s.trySend port w.typ w.ddev w.ctx w.body).getD later
    State.drainWaits port ws s1

def State.drainPort (s : State) (port : Nat) : State :=
  let p := s.link.port port
  if p.waiting.isEmpty then s
  else State.drainWaits port p.waiting { s with link := s.link.putPort port { p with waiting := [] } }

/-- Sends a flit to a device over the port of an address (R37, R38); it waits at the source while the port is down or being rehashed (R39) and
while its class has no credit (R42). -/
def State.send (s : State) (dev a typ ctx : Nat) (body : List Byte) : Sent :=
  if dev = 0xFFF ∨ !s.link.topoDone then .noRoute
  else
    match s.routePort dev a with
    | none => .noRoute
    | some p =>
      if s.link.avoid.contains p || !(s.link.port p).up || (s.link.port p).queued ctx (Decode.typeVch typ) then .wait
      else
        match s.trySend p typ dev ctx body with
        | some s1 => .ok s1
        | none => .wait

/-- A port that still leads to a device from an M-die: it is up and stands in the route entry (R35, R39). -/
def State.portLeft (s : State) (mdie dev : Nat) : Option Nat :=
  ((tgetD s.link.routes (mdie * 4096 + dev) []).map fun p => mdie * 9 + p).find? fun p => !s.link.avoid.contains p && (s.link.port p).up

/-- A port by which any M-die still reaches a device. -/
def State.anyPort (s : State) (dev : Nat) : Option Nat :=
  if dev = 0xFFF ∨ !s.link.topoDone then none else (List.range 4).findSome? fun m => s.portLeft m dev

/-- Sends by any route that stands (R50 to R52), and does nothing where none does. -/
def State.sendAny (s : State) (dev typ ctx : Nat) (body : List Byte) : State :=
  match s.anyPort dev with
  | some p => s.putFlit p typ dev ctx body
  | none => s

/-- An XCTL body (Table 2.11). -/
def xctlBody (op reason cdev xid count : Nat) : List Byte :=
  leBytes 1 op ++ leBytes 1 reason ++ leBytes 2 cdev ++ leBytes 4 xid ++ leBytes 8 count ++ List.replicate 68 0

/-! ### Aborting a transaction (R50, R54) -/

/-- A transaction's entry at its coordinator. -/
def State.txn? (s : State) (xid : Nat) : Option Txn := s.link.txns.find? fun t => decide (t.xid = xid)

def State.mapTxn (s : State) (xid : Nat) (f : Txn → Txn) : State :=
  { s with link := { s.link with txns := s.link.txns.map fun t => if t.xid = xid then f t else t } }

/-- Drops the staging of a transaction at this device as target (R50). -/
def State.dropStaging (s : State) (cdev xid : Nat) : State :=
  { s with link := { s.link with targets := s.link.targets.filter fun t => decide (t.cdev ≠ cdev ∨ t.xid ≠ xid) } }

/-- Aborts a transaction before its commit point: record ABORTED, ABORT to every target it can reach, 2 on the outcome cairn, once (R50, R54). -/
def State.txnAbort (s : State) (xid reason : Nat) : State :=
  match s.txn? xid with
  | none => s
  | some t =>
    if t.phase = .opened ∨ t.phase = .preparing then
      let s1 := t.targets.foldl (fun s' g =>
        if g.dev = s.dev.devNum then s'.dropStaging g.dev xid
        else s'.sendAny g.dev 8 0 (xctlBody 4 reason s.dev.devNum xid 0)) s
      let s2 := s1.mapTxn xid fun t => { t with phase := .aborted, advanced := true, num := s.dev.devNum, reason := reason, targets := t.targets.filter fun g => decide (g.dev ≠ s.dev.devNum) }
      if t.advanced then s2 else s2.cairnAddScc t.cairn 2
    else s

/-- Cancellation of a launch aborts what it opened and has not committed (R50). -/
def State.txnCancel (s : State) (lid : Nat) : State :=
  (s.link.txns.filter fun t => decide (t.launch = lid ∧ t.survived = false)).foldl (fun s' t => s'.txnAbort t.xid 5) s

/-! ### Fault records (R224, Tables 10.1, 10.2) -/

/-- A record raised by a control core, an engine or the refusal of a block: the region's origin tile, RTILE 0 (R224). -/
def Region.faultRec (r : Region) (agent code reason bslot node blkid : Nat) (addr : Word) (ts : Nat) : FaultRec where
  ctx := r.ctx
  part := r.part
  x := r.x0
  y := r.y0
  rtile := 0
  bslot := bslot
  node := node
  agent := agent
  cls := codeClass code
  reason := reason
  elem := 0
  code := code
  itag := 0
  blkid := blkid
  seq := 0
  addr := addr
  aux0 := 0
  aux1 := 0
  cycle := r.cycle
  ts := ts % 2 ^ 48
  emask := 0

/-- Words 0 to 7 of a record (Tables 10.1, 10.2). -/
def FaultRec.word (f : FaultRec) (n : Nat) : Word :=
  match n with
  | 0 => BitVec.ofNat 64 (f.ctx * 2 ^ 52 + f.part % 16 * 2 ^ 48 + f.x % 16 * 2 ^ 44 + f.y % 8 * 2 ^ 41 + f.rtile % 128 * 2 ^ 34 +
      f.bslot % 8 * 2 ^ 31 + f.node % 128 * 2 ^ 24 + f.agent % 32 * 2 ^ 19 + f.cls % 4 * 2 ^ 17 + f.reason % 16 * 2 ^ 12 +
      f.elem % 16 * 2 ^ 8 + f.code % 256)
  | 1 => BitVec.ofNat 64 (f.itag.toNat * 2 ^ 32 + f.blkid % 65536 * 2 ^ 16 + f.seq % 65536)
  | 2 => f.addr
  | 3 => f.aux0
  | 4 => f.aux1
  | 5 => f.cycle
  | 6 => BitVec.ofNat 64 f.ts
  | _ => BitVec.ofNat 64 f.emask.toNat

/-- A FAULT token on its way to the region's queue (R224). -/
def State.faultToken (s : State) (key : Nat) (f : FaultRec) : State :=
  match tget s.regions key with
  | some r => s.putRegion key { r with faultTokens := r.faultTokens ++ [f] }
  | none => s

/-- A record enters the queue and takes its SEQ (R225). -/
def Region.enqueue (r : Region) (f : FaultRec) : Region :=
  { r with queue := r.queue ++ [{ f with seq := r.seq }], seq := (r.seq + 1) % 65536 }

/-- Drops the first record of a class. -/
def dropClass (c : Nat) : List FaultRec → List FaultRec
  | [] => []
  | f :: fs => if f.cls = c then fs else f :: dropClass c fs

/-- The oldest record of a class. -/
def oldest (q : List FaultRec) (c : Nat) : Option FaultRec := q.find? fun f => decide (f.cls = c)

/-- The queue's software head (R327). -/
def softHead (q : List FaultRec) : Option FaultRec := (oldest q 0).or (oldest q 3)

/-- Retires the software head (R327). -/
def popHead (q : List FaultRec) : List FaultRec := if (oldest q 0).isSome then dropClass 0 q else dropClass 3 q

/-! ### Status registers (Tables 5.1, 5.2, 14.10) -/

/-- RGNID of a region (Table 5.2). -/
def Region.rgnid (r : Region) : Word :=
  BitVec.ofNat 64 (r.ctx * 2 ^ 36 + r.part * 2 ^ 32 + r.core * 2 ^ 29 + r.x0 * 2 ^ 25 + r.y0 * 2 ^ 22 + (r.w - 1) * 2 ^ 18 + (r.hgt - 1) * 2 ^ 15)

/-- A status register read by CSRR; none for an unlisted number (R113). -/
def Region.csr (r : Region) (n : Nat) : Option Word :=
  match n with
  | 0x000 => some r.rgnid
  | 0x001 => some r.exsum
  | 0x002 => some r.cycle
  | 0x003 => some r.fwb
  | 0x004 => some (BitVec.ofNat 64 r.queue.length)
  | 0x005 => some (BitVec.ofNat 64 r.fqlost)
  | 0x010 => some r.trapbase
  | 0x011 => some r.trapblk
  | 0x012 => some r.trapcause
  | _ => none

/-- The status registers as they stand (Table 5.1). -/
def Region.csrs (r : Region) : Tab Word :=
  [0x000, 0x001, 0x002, 0x003, 0x004, 0x005, 0x010, 0x011, 0x012].filterMap fun n => (r.csr n).map fun v => (n, v)

/-- Whether CSRW may write a value to a register (R113, R298). -/
def csrwOk (n : Nat) (v : Word) : Bool :=
  match n with
  | 0x001 => true
  | 0x003 => decide (field v 63 16 = 0)
  | 0x010 | 0x011 => Rules.blockAddrOk v
  | 0x012 => true
  | _ => false

/-- TRAPCAUSE's bits that hold something (Table 14.10). -/
def trapcauseMask : Word := 0x800000FFFFFF01FF#64

/-- A status write at commit (R298). Number 0x1001 is the model's own: EXSUM bits that a record of the block sets (R295). -/
def Region.setCsr (r : Region) (n : Nat) (v : Word) : Region :=
  match n with
  | 0x001 => { r with exsum := r.exsum &&& ~~~v }
  | 0x1001 => { r with exsum := r.exsum ||| v }
  | 0x003 => { r with fwb := if v = 0 then 50 else v }
  | 0x010 => { r with trapbase := v }
  | 0x011 => { r with trapblk := v }
  | 0x012 => { r with trapcause := v &&& trapcauseMask }
  | _ => r

/-- TRAPCAUSE.ACTIVE (Table 14.10). -/
def Region.active (r : Region) : Bool := bitAt r.trapcause 63

/-! ### Block-in-flight entries (R122, R444) -/

/-- The lowest-numbered free block-in-flight entry. -/
def Region.freeSlot (r : Region) : Option Nat := (List.range 8).find? fun n => (tget r.blocks n).isNone

/-- Frees the entries of fetched control blocks, with the block being evaluated (R325, R456). -/
def Region.abandon (r : Region) : Region :=
  { r with blocks := r.blocks.filter (fun e => !r.fetched.contains e.1), fetched := [], work := none, waiting := false, minor := false }

/-! ### Cancellation (R83 to R85) -/

/-- A PE emptied of a context's nodes, as TEAR leaves it (R83, R130). -/
def Pe.cleared : Pe := Pe.blank

/-- Whether a tile holds tokens that a teardown discards (R130). -/
def Tile.unmatched (t : Tile) : Bool :=
  t.pes.any fun e => !e.2.entries.isEmpty || e.2.slots.any fun n => !n.2.buf.isEmpty || !n.2.lanes.isEmpty

/-- The range of virtual bytes written, with further accesses. -/
def dirtyWith (d : Option (Nat × Nat)) (as : List Acc) : Option (Nat × Nat) :=
  as.foldl (fun d a => match d with
    | none => some (a.va, a.va + a.len - 1)
    | some (lo, hi) => some (min lo a.va, max hi (a.va + a.len - 1))) d

/-- A stream port after CANCEL: only the range of what it has written stays, to be deposited (R177). -/
def Stream.cancelled (p : Stream) : Stream := { Stream.blank with dirty := dirtyWith p.dirty (p.accs.filter fun a => a.store && (a.sent || a.done)) }

/-- A tile after CANCEL: nodes, tokens and stream commands gone, panels dropped, slots EMPTY (R83, R84). -/
def Tile.cancelled (t : Tile) : Tile :=
  { Tile.blank with
    streams := (t.streams.map fun e => (e.1, e.2.cancelled)).filter fun e => e.2.dirty.isSome
    spareUsed := t.spareUsed
    fenced := t.fenced
    nextId := t.nextId }

/-- A region after CANCEL reached it: blocks abandoned, units cancelled, engines stopped, node records retired (R83, R84, R225). -/
def Region.cancelled (r : Region) (unm : Bool) : Region :=
  let r1 := r.abandon
  { r1 with
    blocks := r1.blocks.map fun e => (e.1, { e.2 with phase := .cancelled })
    engines := r1.engines.map fun e => { e with stopped := true }
    queue := r1.queue.filter fun f => decide (f.cls = 3)
    faultTokens := []
    nextFetch := none
    cancelling := true
    idle := none
    exsum := if unm then r1.exsum ||| BitVec.ofNat 64 fUNM.toNat else r1.exsum }

/-- Whether a waiter belongs to a region. -/
def Who.ofRegion (key : Nat) (tiles : List Nat) : Who → Bool
  | .core k | .fetch k | .engine k _ => decide (k = key)
  | .fire t _ | .stream t _ => tiles.contains t
  | .arc src => tiles.contains (src / 8192)
  | _ => false

/-- A request of a cancelled region: a read is forgotten, a write is waited for under the region's name, an engine's goes on (R83). -/
def Req.cancelled (key : Nat) (tiles : List Nat) (q : Req) : Option Req :=
  match q.who with
  | .engine .. => some q
  | w => if !w.ofRegion key tiles then some q else if q.typ = 2 then some { q with who := .gone key } else none

/-- Waits and minor faults of a region's control core, nodes, ports and engines are released (R84, R103). -/
def State.releaseWaits (s : State) (key : Nat) (tiles : List Nat) : State :=
  { s with
    cairn := { s.cairn with waits := s.cairn.waits.filter fun w => !w.who.ofRegion key tiles }
    host := { s.host with minors := s.host.minors.filter fun m => !m.who.ofRegion key tiles }
    link := { s.link with reqs := s.link.reqs.filterMap fun q => q.cancelled key tiles }
    caches := { s.caches with fetches := s.caches.fetches.filter fun f => decide (f.key ≠ key) } }

/-- CANCEL reaches a placed region (R83): steps 2 to 5, and its transactions before their commit point (R50). Its cairns advance with CANCEL_ADVANCE. -/
def State.cancelRegion (s : State) (key : Nat) : State :=
  match tget s.regions key with
  | none => s
  | some r =>
    let ts := r.tiles
    let unm := ts.any fun t => (s.tile t).unmatched
    let s1 := (s.putRegion key { r.cancelled unm with txn := none }).releaseWaits key ts
    let s2 : State := { s1 with tiles := s1.tiles.map fun e => if ts.contains e.1 then (e.1, e.2.cancelled) else e }
    s2.txnCancel r.launch

/-- CANCEL of one launch (R83 step 1 for a launch not placed). -/
def State.cancelLaunch (s : State) (lid : Nat) : State :=
  match tget s.host.launches lid with
  | none => s
  | some l =>
    if l.st = .ended then s
    else
      let s1 := s.putLaunch lid { l with cancelled := true }
      match l.st with
      | .placed key => s1.cancelRegion key
      | _ => s1

/-! ### Traps (R325 to R328, R293) -/

/-- TRAPCAUSE at entry (R325, Table 14.10). -/
def trapCause (code swc efx : Nat) (queue : Bool) : Word :=
  BitVec.ofNat 64 (2 ^ 63 + efx % 256 * 2 ^ 32 + swc % 65536 * 2 ^ 16 + (if queue then 256 else 0) + code % 256)

/-- What a control core's abandoned block still waits for is withdrawn: pending cairn waits and minor faults, loads asked of remote homes, failed fetches. -/
def State.dropCore (s : State) (key : Nat) : State :=
  let ask := fun (q : Req) => if q.who = .core key then (if q.typ = 2 then some { q with who := .gone key } else none) else some q
  { s with
    cairn := { s.cairn with waits := s.cairn.waits.filter fun w => decide (w.who ≠ .core key) }
    host := { s.host with minors := s.host.minors.filter fun m => decide (m.who ≠ .core key) }
    link := { s.link with reqs := s.link.reqs.filterMap ask }
    caches := { s.caches with fetches := s.caches.fetches.filter fun f => decide (f.key ≠ key) || f.failed.isNone } }

/-- Whether a trap on a class-00 record of the queue is due. -/
def Region.trapDue (r : Region) : Bool := (oldest r.queue 0).isSome && !r.trapped

/-- The block that a trap or a halt interrupts: the oldest fetched one, or that fetched next (Table 14.9). -/
def Region.resumeAt (r : Region) : Option Nat :=
  match r.fetched.head? with
  | some n => ((tget r.blocks n).map fun (b : Bif) => b.addr).or r.nextFetch
  | none => r.nextFetch

/-- Takes a trap (R325): TRAPBLK and TRAPCAUSE saved, the record kept, fetched blocks abandoned, fetch at TRAPBASE; with a trap
active or no handler the launch is cancelled. A record that is not the queue's takes its SEQ here (R225). -/
def State.takeTrap (s : State) (key : Nat) (rec_ : FaultRec) (resume efx swc : Nat) (queue : Bool) : State :=
  match tget s.regions key with
  | none => s
  | some r =>
    if r.active || decide (r.trapbase = 0) then s.cancelLaunch r.launch
    else
      let r1 := r.abandon
      (s.dropCore key).putRegion key { r1 with
        trapblk := BitVec.ofNat 64 resume
        trapcause := trapCause rec_.code swc efx queue
        trapRec := some (if queue then rec_ else { rec_ with seq := r.seq })
        seq := if queue then r.seq else (r.seq + 1) % 65536
        nextFetch := some r.trapbase.toNat
        trapped := true
        idle := none }

/-- RETT: fetch goes on at TRAPBLK and ACTIVE clears (R328). -/
def Region.returnTrap (r : Region) : Region :=
  { r with nextFetch := some r.trapblk.toNat, trapcause := r.trapcause &&& 0x7FFFFFFFFFFFFFFF#64 }

end Sys2Proof.Machine
end

