-- ==== Sys2Proof/Machine/Mem.lean ====
section
/-! DEFINITION. Main memory: cells in canonical form, poison, frames, line timestamps, beats (R58, R181, R183, R189 to R191). -/

namespace Sys2Proof.Machine

/-! ### Cells -/

/-- What a byte of memory that nothing has written reads as (log 3). -/
def memUnlisted : Byte := 0

/-- The byte at an address. -/
def cellGet : List Host.Cell → Nat → Byte
  | [], _ => memUnlisted
  | (k, b) :: t, a => if k = a then b else if a < k then memUnlisted else cellGet t a

/-- Writes a byte; writing what an unlisted address reads as removes the entry. -/
def cellPut : List Host.Cell → Nat → Byte → List Host.Cell
  | [], a, b => if b = memUnlisted then [] else [(a, b)]
  | (k, c) :: t, a, b =>
    if a < k then (if b = memUnlisted then (k, c) :: t else (a, b) :: (k, c) :: t)
    else if k = a then (if b = memUnlisted then t else (a, b) :: t)
    else (k, c) :: cellPut t a b

/-- Canonical form: addresses strictly rising from `lo`, no entry equal to what an unlisted address reads as. -/
def cellsFrom : Nat → List Host.Cell → Bool
  | _, [] => true
  | lo, (k, b) :: t => decide (lo ≤ k) && decide (b ≠ memUnlisted) && cellsFrom (k + 1) t

/-- The canonical form of memory. -/
def Mem.wf (m : Mem) : Bool := cellsFrom 0 m.cells

/-- `n` bytes from an address. -/
def cellsRead (c : List Host.Cell) : Nat → Nat → List Byte
  | _, 0 => []
  | a, n + 1 => cellGet c a :: cellsRead c (a + 1) n

/-- Writes bytes from an address on. -/
def cellsWrite : List Host.Cell → Nat → List Byte → List Host.Cell
  | c, _, [] => c
  | c, a, b :: bs => cellsWrite (cellPut c a b) (a + 1) bs

def Mem.get (m : Mem) (a : Nat) : Byte := cellGet m.cells a
def Mem.read (m : Mem) (a n : Nat) : List Byte := cellsRead m.cells a n
def Mem.write (m : Mem) (a : Nat) (bs : List Byte) : Mem := { m with cells := cellsWrite m.cells a bs }

/-- Reads a 64-bit word, least significant byte first (R3). -/
def Mem.word (m : Mem) (a : Nat) : Word := BitVec.ofNat 64 (leNat (m.read a 8))

/-- Writes a 64-bit word. -/
def Mem.putWord (m : Mem) (a : Nat) (v : Word) : Mem := m.write a (leBytes 8 v.toNat)

/-- Reads the eight words of a 64-byte descriptor. -/
def Mem.words8 (m : Mem) (a : Nat) : SysCmd := Decode.words8 (m.read a 64)

/-! ### Poison, stamps, frames -/

/-- The sector of an address (R183). -/
def sectorOf (a : Nat) : Nat := a / 64

def Mem.poisoned (m : Mem) (a : Nat) : Bool := m.poison.contains (sectorOf a)

def Mem.setPoison (m : Mem) (a : Nat) (p : Bool) : Mem :=
  if p then { m with poison := ninsert m.poison (sectorOf a) }
  else { m with poison := m.poison.filter fun x => decide (x ≠ sectorOf a) }

/-- The timestamp rule of a store at its home (R191). -/
def Mem.stampStore (m : Mem) (a : Nat) : Mem :=
  let n := sectorOf a
  let ts := max m.pts (tgetD m.rts n 0 + 1)
  { m with wts := tput m.wts n ts, rts := tput m.rts n ts, pts := ts }

/-- The timestamp rule of a load at its home (R191). -/
def Mem.stampLoad (m : Mem) (a : Nat) : Mem :=
  let n := sectorOf a
  let ts := max m.pts (tgetD m.wts n 0)
  { m with rts := tput m.rts n (max (tgetD m.rts n 0) (ts + 256)), pts := ts }

/-- A frame of 64 KiB. -/
def frameOf (a : Nat) : Nat := a / 65536

def Mem.frame (m : Mem) (a : Nat) : Frame := tgetD m.frames (frameOf a) Frame.blank
def Mem.putFrame (m : Mem) (a : Nat) (f : Frame) : Mem := { m with frames := tput m.frames (frameOf a) f }

/-- Where an access of a context to a local address is made: the frame it is forwarded to (R55, R181), as a global address. -/
def Mem.forward (m : Mem) (num : Nat) (ctx a : Nat) : Nat :=
  let step := fun (pa : Nat) =>
    if devOf pa = num then
      let f := m.frame (localOf pa)
      match f.fwd, f.copies.find? fun c => decide (c.1 = ctx) with
      | some g, _ => g + pa % 65536
      | none, some c => c.2 + pa % 65536
      | none, none => pa
    else pa
  step (step (step (step (num * 2 ^ 40 + a))))

/-- What a piece of a store is within the store's sector: whether it carries poison; whether poison that stands in the sector came there before the
store; whether PPW has still to count the store; whether the pieces together are the whole sector, and this is the last of them. -/
structure StoreKind where
  psn : Bool
  old : Bool
  count : Bool
  full : Bool
  last : Bool
  deriving DecidableEq, Repr

/-- The poison of a sector after a piece of a store whose bytes stand in memory (R183, R227); whether its status is error (R234), and whether PPW rises. -/
def Mem.poisonBy (m : Mem) (a : Nat) (k : StoreKind) : Mem × Bool × Bool :=
  let was := m.poisoned a && k.old
  if k.psn then (m.setPoison a true, was, was && k.count && !k.full)
  else if k.full then (if k.last then m.setPoison a false else m, false, false)
  else (m, was, was && k.count)

/-- Bytes stored into one sector of main memory. -/
def Mem.store (m : Mem) (a : Nat) (bs : List Byte) (k : StoreKind) : Mem × Bool × Bool := ((m.write a bs).stampStore a).poisonBy a k

/-- Splits a range into pieces that each lie in one aligned 32-byte beat (R190). -/
def beats : Nat → Nat → Nat → List (Nat × Nat)
  | 0, _, _ => []
  | fuel + 1, a, n =>
    if n = 0 then []
    else
      let k := min n (32 - a % 32)
      (a, k) :: beats fuel (a + k) (n - k)

end Sys2Proof.Machine
end

