-- ==== Sys2Proof/Machine/Regs.lean ====
section
/-! DEFINITION. Management registers (spec files 01, 02, 03, 04, 07, 10) and the windows of the local address space (R58, R59). -/

namespace Sys2Proof.Machine

/-! ### Widths -/

/-- Width in bytes of the register at an offset; 0 where there is none. -/
def regWidth (off : Nat) : Nat :=
  if off = 0x0 ∨ off = 0x8 ∨ off = 0xC ∨ off = 0x40 ∨ off = 0x88 then 4
  else if 0x10 ≤ off ∧ off < 0x20 ∧ off % 4 = 0 then 4
  else if off = 0x80 ∨ off = 0x90 ∨ off = 0x98 then 8
  else if 0x1000 ≤ off ∧ off < 0x1000 + 0x10 * 36 ∧ off % 16 = 0 then 4
  else if 0x1800 ≤ off ∧ off < 0x1840 ∧ off % 16 = 0 then 4
  else if 0x1880 ≤ off ∧ off < 0x18C0 ∧ off % 16 = 0 then 4
  else if 0x2000 ≤ off ∧ off < 0x2800 ∧ off % 8 = 0 ∧ off % 32 < 24 then 8
  else if off = 0x2800 ∨ off = 0x2808 ∨ off = 0x2810 then 8
  else if 0x3000 ≤ off ∧ off < 0x3100 ∧ off % 16 = 0 then 8
  else if off = 0x3800 ∨ off = 0x3810 ∨ off = 0x3814 ∨ off = 0x3818 ∨ off = 0x381C ∨ off = 0x3820 then 4
  else if off = 0x3900 ∨ off = 0x3910 then 4
  else if off = 0x3908 then 8
  else if 0x3C00 ≤ off ∧ off < 0x3C40 ∧ off % 16 = 0 then 4
  else if 0x4000 ≤ off ∧ off < 0x6000 ∧ off % 8 = 0 then 8
  else 0

/-! ### Reads -/

/-- DEVNUM (Table 3.3). -/
def Dev.devnumReg (d : Dev) : Nat := (if d.devSet then 2 ^ 31 else 0) + min d.herr 4095 * 2 ^ 16 + d.devNum % 4096

/-- LNKSTAT (Table 2.4). -/
def PortSt.lnkstat (p : PortSt) : Nat :=
  (if p.up then 2 ^ 31 else 0) + (if p.degr then 2 ^ 30 else 0) + (if p.lfault then 2 ^ 29 else 0) +
    min p.norsv 255 * 2 ^ 16 + min p.replay 65535

/-- A launch queue of the device. -/
def Hosting.queue (h : Hosting) (q : Nat) : LQueue := tgetD h.lq q LQueue.reset

/-- The node in the slot HSEL names (Table 10.8). -/
def State.hselNode (s : State) : Option NodeInst :=
  let h := s.dev.hsel
  if 16 < field h 20 16 then none
  else
    let tile := field h 31 28 * 128 + field h 23 21 * 16 + field h 27 24
    tget ((s.tile tile).pe (field h 20 16)).slots (field h 15 10)

/-- The stream port DSEL names (R240). -/
def State.dselPort (s : State) : Nat × Nat :=
  let d := s.dev.dsel
  (field d 31 28 * 128 + field d 23 21 * 16 + field d 27 24, field d 20 18)

/-- The value of the register at an offset; DUMPDATA is read through the state-dump space (R24). -/
def State.regRead (s : State) (off : Nat) : Word :=
  BitVec.ofNat 64 <|
    if off = 0x0 then s.dev.devnumReg
    else if off = 0x8 then Config.featav.toNat
    else if off = 0xC then s.featenN
    else if 0x10 ≤ off ∧ off < 0x20 then s.diefeat ((off - 0x10) / 4)
    else if off = 0x40 then s.dev.frzstat.toNat
    else if off = 0x88 then s.dev.mgmtstat.toNat
    else if off = 0x90 then s.dev.dumpaddr.toNat
    else if 0x1000 ≤ off ∧ off < 0x1240 then (s.link.port ((off - 0x1000) / 16)).lnkstat
    else if 0x1800 ≤ off ∧ off < 0x1840 then (tgetD s.dev.pgmig ((off - 0x1800) / 16) 0).toNat
    else if 0x1880 ≤ off ∧ off < 0x18C0 then (tgetD s.dev.memev ((off - 0x1880) / 16) 0).toNat
    else if 0x2000 ≤ off ∧ off < 0x2800 then
      let q := s.host.queue ((off - 0x2000) / 32)
      if off % 32 = 0 then q.base else if off % 32 = 8 then q.ctl.toNat else q.head
    else if off = 0x2800 then s.host.scq.base
    else if off = 0x2808 then s.host.scq.ctl.toNat
    else if off = 0x2810 then s.host.scq.head
    else if 0x3000 ≤ off ∧ off < 0x3100 then (tgetD s.dev.rasev ((off - 0x3000) / 16) 0).toNat
    else if off = 0x3800 then s.dev.hsel.toNat
    else if 0x3810 ≤ off ∧ off < 0x3820 then
      match s.hselNode with
      | some n => (n.hist.getD ((off - 0x3810) / 2) 0) + (n.hist.getD ((off - 0x3810) / 2 + 1) 0) * 65536
      | none => 0
    else if off = 0x3820 then
      match s.hselNode with
      | some n => 2 ^ 31 + n.ctx * 2 ^ 19 + n.bslot * 2 ^ 16 + n.node * 2 ^ 9
      | none => 0
    else if off = 0x3900 then s.dev.dsel.toNat
    else if off = 0x3908 then ((s.tile s.dselPort.1).stream s.dselPort.2).digest.toNat
    else if off = 0x3910 then
      if ((s.tile s.dselPort.1).stream s.dselPort.2).st = .idle then 0
      else match s.regionOf s.dselPort.1 with
        | some (_, r) => 2 ^ 31 + r.ctx * 2 ^ 19
        | none => 0
    else if 0x3C00 ≤ off ∧ off < 0x3C40 then (tgetD s.dev.oplog ((off - 0x3C00) / 16) 0).toNat
    else if 0x4000 ≤ off ∧ off < 0x6000 then tgetD s.dev.oprings ((off - 0x4000) / 8) 0
    else 0

/-! ### Writes -/

/-- The first write of DEVNUM.NUM after a reset (R60). -/
def State.writeDevnum (s : State) (v : Nat) : State :=
  if s.dev.devSet then s else { s with dev := { s.dev with devSet := true, devNum := v % 4096 } }

/-- A write of FEATEN (R62). -/
def State.writeFeaten (s : State) (v : Nat) : State :=
  if s.host.ctxs.isEmpty then { s with dev := { s.dev with featen := BitVec.ofNat 32 v &&& Config.featav } } else s

/-- Queue depth of an LQCTL value (Table 3.6). -/
def lqDepth (ctl : Word) : Nat := 2 ^ (field ctl 53 50 + 6)

/-- LQCTL after a write (R66, Table 3.6); `mask` the bits the queue has. -/
def lqctlNext (old v mask : Word) : Word :=
  let w1c := old &&& ~~~(v &&& 0x6000000000000000#64)
  if bitAt old 63 then (if bitAt v 63 then w1c else w1c &&& 0x7FFFFFFFFFFFFFFF#64)
  else
    let kept := (w1c &&& 0x6000000000000000#64) ||| (v &&& mask &&& 0x1FFFFFFFFFFFFFFF#64)
    if bitAt v 63 ∧ field v 53 50 ≤ 10 then kept ||| 0x8000000000000000#64 else kept

/-- A queue after a write of its LQCTL: enabling it records the origin and clears LQHEAD (R66, R67); with another cairn the descriptors posted
to a stopped queue have no number any more (log 87). -/
def LQueue.writeCtl (q : LQueue) (v mask : Word) (c : Cairns) : LQueue :=
  let n := lqctlNext q.ctl v mask
  if !bitAt q.ctl 63 && bitAt n 63 then { q with ctl := n, head := 0, origin := some (c.val (field n 19 0)).toNat, marks := [] }
  else { q with ctl := n, origin := if field n 19 0 = field q.ctl 19 0 then q.origin else none }

/-- Bits a launch queue's LQCTL has, and those SCQCTL has (R71). -/
def lqMask : Word := 0xE1FC0000FFFFFFFF#64
def scqMask : Word := 0xE03C0000000FFFFF#64

def State.writeLqctl (s : State) (q : Nat) (v : Word) : State :=
  { s with host := { s.host with lq := tput s.host.lq q ((s.host.queue q).writeCtl v lqMask s.cairn) } }

def State.writeScqctl (s : State) (v : Word) : State :=
  { s with host := { s.host with scq := s.host.scq.writeCtl v scqMask s.cairn } }

/-- LQBASE keeps bits 39:6, and is fixed while EN is 1 (R66, Table 3.5). -/
def LQueue.writeBase (q : LQueue) (v : Word) : LQueue := if bitAt q.ctl 63 then q else { q with base := (v &&& 0xFFFFFFFFC0#64).toNat }

/-- A register with no behaviour of its own written: plain and W1C registers; read-only ones keep their value (R58). -/
def State.writePlain (s : State) (off : Nat) (v : Word) : State :=
  if off = 0x90 then { s with dev := { s.dev with dumpaddr := v } }
  else if 0x1000 ≤ off ∧ off < 0x1240 then
    let n := (off - 0x1000) / 16
    if bitAt v 29 then { s with link := s.link.putPort n { s.link.port n with lfault := false } } else s
  else if 0x1880 ≤ off ∧ off < 0x18C0 then
    let m := (off - 0x1880) / 16
    { s with dev := { s.dev with memev := tput s.dev.memev m (tgetD s.dev.memev m 0 &&& ~~~(BitVec.ofNat 32 v.toNat)) } }
  else if 0x2000 ≤ off ∧ off < 0x2800 ∧ off % 32 = 0 then
    let q := (off - 0x2000) / 32
    { s with host := { s.host with lq := tput s.host.lq q ((s.host.queue q).writeBase v) } }
  else if off = 0x2800 then { s with host := { s.host with scq := s.host.scq.writeBase v } }
  else if 0x3000 ≤ off ∧ off < 0x3100 then
    let p := (off - 0x3000) / 16
    { s with dev := { s.dev with rasev := tput s.dev.rasev p (tgetD s.dev.rasev p 0 &&& ~~~(v &&& 0xFFFFFFFF0000FFFF#64)) } }
  else if off = 0x3800 then { s with dev := { s.dev with hsel := BitVec.ofNat 32 v.toNat &&& 0xFFFFFC00#32 } }
  else if off = 0x3900 then { s with dev := { s.dev with dsel := BitVec.ofNat 32 v.toNat &&& 0xFFFC0000#32 } }
  else if 0x3C00 ≤ off ∧ off < 0x3C40 then
    let m := (off - 0x3C00) / 16
    { s with dev := { s.dev with oplog := tput s.dev.oplog m (tgetD s.dev.oplog m 0 &&& ~~~(BitVec.ofNat 32 v.toNat &&& 0xFFFF#32)) } }
  else s

/-- Whether a register write can come now: in a freeze only the management channel answers (R19, R24). -/
def State.regServed (s : State) (a : RegAccess) : Bool := !(bitAt s.dev.frzstat 31 && a.fabric)

/-- Starts a freeze from a source: 1 FRZ_N, 2 management command, 3 thermal trip (R18); ignored in reset steps 1 to 3 (R22). Of two triggers
before the clocks stop the first is the source that FRZSTAT reports, which the spec leaves open (log 26). -/
def State.startFreeze (s : State) (src : Nat) : State :=
  if bitAt s.dev.frzstat 31 || s.dev.freezePending.isSome then s
  else
    match s.dev.resetSeq with
    | some n => if n ≤ 3 then s else { s with dev := { s.dev with freezePending := some (src, s.now) } }
    | none => { s with dev := { s.dev with freezePending := some (src, s.now) } }

/-- MGMTSTAT after a command has ended (Table 1.7). -/
def State.mgmtDone (s : State) (res : Nat) : State := { s with dev := { s.dev with mgmtstat := BitVec.ofNat 32 res } }

/-- Starts a warm reset at step 4 (R15), giving up a freeze (R22); a tripped device takes only a cold one (R17), and a cold sequence under way
runs its own steps 4 to 6 (R14, log 25). -/
def State.startWarm (s : State) : State :=
  if s.dev.railsOff || (s.dev.resetSeq.isSome && !s.dev.warm) then s
  else { s with dev := { s.dev with resetSeq := some 4, warm := true, freezePending := none, frzstat := 0 } }

/-- CONT: resumes the region a BRK halted on a control core (R24, R239). -/
def State.mgmtCont (s : State) (part core : Nat) : State :=
  if bitAt s.dev.frzstat 31 then s.mgmtDone 3
  else
    match tget s.regions (coreKey part core) with
    | some r => if r.run = .brk then (s.putRegion (coreKey part core) { r with run := .running }).mgmtDone 0 else s.mgmtDone 2
    | none => s.mgmtDone 2

/-- A write of MGMTCMD (R24); discarded while BUSY. -/
def State.mgmtCommand (s : State) (v : Word) : State :=
  if bitAt s.dev.mgmtstat 31 then s
  else
    match Decode.mgmt v with
    | .freezeCmd => (s.startFreeze 2).mgmtDone 0
    | .warmresetCmd => (s.mgmtDone 0).startWarm
    | .contCmd => s.mgmtCont (field v 55 52) (field v 51 49)
    | _ => s.mgmtDone 1

/-- A write of a management register by offset. -/
def State.regWrite (s : State) (off : Nat) (v : Word) : State :=
  if off = 0x0 then s.writeDevnum v.toNat
  else if off = 0xC then s.writeFeaten v.toNat
  else if off = 0x80 then s.mgmtCommand v
  else if 0x2000 ≤ off ∧ off < 0x2800 ∧ off % 32 = 8 then s.writeLqctl ((off - 0x2000) / 32) v
  else if off = 0x2808 then s.writeScqctl v
  else s.writePlain off v

/-- A discarded host store is counted in HERR when it came in a flit (R59). -/
def State.herrUp (s : State) (fabric : Bool) : State :=
  if fabric then { s with dev := { s.dev with herr := min (s.dev.herr + 1) 4095 } } else s

/-- A register access of R59: applied when aligned and of the register's width, else discarded. -/
def State.regAccess (s : State) (a : RegAccess) : State :=
  if regWidth a.off = a.width ∧ a.width ≠ 0 then s.regWrite a.off a.val else s.herrUp a.fabric

/-! ### The local address space (Table 3.1) -/

/-- PPW and its home rise (R183, Table 7.10). -/
def State.ppwUp (s : State) (a : Nat) : State :=
  let m := homeDie a
  let r := tgetD s.dev.memev m 0
  let n := min (field r 31 16 + 1) 65535
  { s with dev := { s.dev with memev := tput s.dev.memev m (BitVec.ofNat 32 (n * 65536 + field r 15 0)) } }

/-- A load of at most one beat from a local address: bytes and poison, and the state after (R58, R183, R191). -/
def State.loadLocal (s : State) (a n : Nat) : (List Byte × Bool) × State :=
  if a < Config.memBytes then ((s.mem.read a n, s.mem.poisoned a), { s with mem := s.mem.stampLoad a })
  else if 0xFE00000000 ≤ a ∧ a < 0xFE00800000 then
    if n = 8 ∧ a % 8 = 0 then ((leBytes 8 (s.cairn.val ((a - 0xFE00000000) / 8)).toNat, false), s)
    else ((List.replicate n 0, false), s)
  else if 0xFF00000000 ≤ a ∧ a < 0xFF01000000 then
    let off := a - 0xFF00000000
    if regWidth off = n then ((leBytes n (s.regRead off).toNat, false), s) else ((List.replicate n 0, false), s)
  else ((List.replicate n 0, true), s)

/-- A store of at most one beat to a local address, its error status (R58, R59, R183, R234). -/
def State.storeLocal (s : State) (a : Nat) (bs : List Byte) (k : StoreKind) (fabric : Bool) : State × Bool :=
  if a < Config.memBytes then
    match s.mem.store a bs k with
    | (m, err, ppw) => (if ppw then { s with mem := m }.ppwUp a else { s with mem := m }, err)
  else if 0xFF00000000 ≤ a ∧ a < 0xFF01000000 then
    (s.regAccess ⟨a - 0xFF00000000, bs.length, BitVec.ofNat 64 (leNat bs), fabric⟩, false)
  else (s.herrUp fabric, false)

end Sys2Proof.Machine
end

