-- ==== Sys2Proof/Machine/Xlate.lean ====
section
/-! DEFINITION. Translation: page tables, walker and translation caches, translated address elements (R164 to R173, R202, R453), and accesses of contexts. -/

namespace Sys2Proof.Machine

/-! ### Page tables -/

/-- The index of a virtual address at a level 1 to 4 (R165). -/
def walkIndex (va level : Nat) : Nat := va / 2 ^ (56 - 10 * level) % 1024

/-- Bytes a leaf met at a level maps (R165). -/
def leafSize (level : Nat) : Nat := 2 ^ (56 - 10 * level)

/-- What one page-table entry says (R166, R167). -/
inductive Pte where
  | leaf (pa : Nat) (w x heap cow : Bool)
  | table (ptr : Nat)
  | unmapped | firstTouch | notResident | error
  deriving DecidableEq, Repr

/-- Reads an entry met at a level (R165 to R167). -/
def pteOf (e : Word) (level : Nat) : Pte :=
  if field e 63 52 ≠ 0 ∨ bitAt e 12 ∨ field e 9 7 ≠ 0 then .error
  else if !bitAt e 0 then
    match field e 11 10 with
    | 0 => .unmapped
    | 1 => .firstTouch
    | 2 => .notResident
    | _ => .error
  else if bitAt e 1 then
    let pa := field e 51 13 * 8192
    if level = 1 then .error
    else if pa % leafSize level ≠ 0 then .error
    else .leaf pa (bitAt e 2) (bitAt e 3) (bitAt e 4) (bitAt e 5)
  else if level = 4 then .error
  else if field e 51 40 ≠ 0 then .error
  else .table (field e 39 13 * 8192)

/-- Address of the entry of a virtual address in a table. -/
def pteAddr (table va level : Nat) : Nat := table + 8 * walkIndex va level

/-- How a walk ends: at an entry of a level, or with a table pointer the walker's cache lacks. -/
inductive Walk where
  | done (p : Pte) (level entry : Nat)
  | miss
  deriving DecidableEq, Repr

/-- The prefix of a virtual address above the table of a level. -/
def walkPref (va level : Nat) : Nat := va / 2 ^ (66 - 10 * level)

/-- A walk through the cached table pointers; it reads only the entry after the last cached one (R168). -/
def walkCached (m : Mem) (cache : List WalkEntry) (ctx va : Nat) : Nat → Nat → Nat → Walk
  | 0, _, _ => .miss
  | fuel + 1, level, table =>
    match cache.find? fun e => decide (e.ctx = ctx ∧ e.level = level ∧ e.pref = walkPref va (level + 1)) with
    | some e => walkCached m cache ctx va fuel (level + 1) e.ptr
    | none =>
      match pteOf (m.word (pteAddr table va level)) level with
      | .table _ => .miss
      | p => .done p level (pteAddr table va level)

/-- A whole walk as SCC firmware makes it, with the table pointers it met (R168). -/
def walkFull (m : Mem) (ctx va : Nat) : Nat → Nat → Nat → List WalkEntry → Walk × List WalkEntry
  | 0, _, _, acc => (.miss, acc)
  | fuel + 1, level, table, acc =>
    match pteOf (m.word (pteAddr table va level)) level with
    | .table q => walkFull m ctx va fuel (level + 1) q (acc ++ [⟨ctx, level, walkPref va (level + 1), q⟩])
    | p => (.done p level (pteAddr table va level), acc)

/-- Whose translation cache an access uses (R169): a control core's or a tile's, and the die whose walker serves it. -/
inductive TlbOf where
  | core (key : Nat) | tile (t : Nat)
  deriving DecidableEq, Repr

/-- The die of an owner. -/
def TlbOf.die : TlbOf → Nat
  | .core k => dieOf (k / 8)
  | .tile t => dieOf (t / 128)

def State.tlb (s : State) : TlbOf → List TlbEntry
  | .core k => match tget s.regions k with
    | some r => r.tlb
    | none => []
  | .tile t => (s.tile t).tlb

/-- Entries a translation cache holds (R169). -/
def TlbOf.cap : TlbOf → Nat
  | .core _ => 128
  | .tile _ => 256

/-- Adds an entry, dropping the oldest beyond the capacity. -/
def State.tlbAdd (s : State) (o : TlbOf) (e : TlbEntry) : State :=
  match o with
  | .core k => match tget s.regions k with
    | some r => s.putRegion k { r with tlb := (e :: r.tlb).take 128 }
    | none => s
  | .tile t => s.putTile t { s.tile t with tlb := (e :: (s.tile t).tlb).take 256 }

/-- A translation with the leaf's permissions, or the fault of the first row of Table 7.5 that applies. -/
inductive XRes where
  | ok (pa : Nat) (e : TlbEntry)
  | fault (code : Nat)
  deriving DecidableEq, Repr

/-- Root of a context's page table. -/
def State.root (s : State) (ctx : Nat) : Nat :=
  match tget s.host.ctxs ctx with
  | some c => c.root
  | none => 0

/-- The leaf of a virtual address: from the cache, or by a walk (R168, R169). -/
def State.leafOf (s : State) (o : TlbOf) (ctx va : Nat) : XRes × Option Nat :=
  if 2 ^ 56 ≤ va then (.fault cAddressForm, none)
  else
    match (s.tlb o).find? fun e => decide (e.ctx = ctx ∧ e.vbase ≤ va ∧ va < e.vbase + e.size) with
    | some e => (.ok (e.pa + (va - e.vbase)) e, none)
    | none =>
      match walkCached s.mem (tgetD s.caches.walkers o.die []) ctx va 4 1 (s.root ctx) with
      | .miss => (.fault cWalkMiss, none)
      | .done .error _ _ => (.fault cTableError, none)
      | .done .unmapped _ _ => (.fault cUnmapped, none)
      | .done .firstTouch _ _ => (.fault cFirstTouch, none)
      | .done .notResident _ _ => (.fault cNotResident, none)
      | .done (.table _) _ _ => (.fault cWalkMiss, none)
      | .done (.leaf pa w x heap cow) level entry =>
        let size := leafSize level
        let e : TlbEntry := ⟨ctx, va / size * size, size, pa, w, x, heap, cow⟩
        (.ok (pa + va % size) e, some entry)

/-- What an access wants of a leaf. -/
inductive Intent where
  | read | write | fetch | heap
  deriving DecidableEq, Repr

/-- The rows of Table 7.5 below the walk, the fetch checks of R122, and the heap checks of R202. -/
def leafCheck (i : Intent) (pa : Nat) (e : TlbEntry) : XRes :=
  match i with
  | .heap => if !e.heap then .fault cNotHeap else if e.size ≠ 65536 then .fault cHeapPageSize else .ok pa e
  | .fetch => if e.heap then .fault cHeapClass else if !e.x then .fault cFetchProtect else .ok pa e
  | .read => if e.heap then .fault cHeapClass else .ok pa e
  | .write => if e.heap then .fault cHeapClass else if !e.w then .fault cWriteProtect else if e.cow then .fault cCow else .ok pa e

/-- What a store meets in the permissions of a leaf it may otherwise use (Table 7.5). -/
def writeFault (w cow : Bool) : Option Nat := if !w then some cWriteProtect else if cow then some cCow else none

/-- Translation without filling the cache: what a check needs (R451). -/
def State.peek (s : State) (o : TlbOf) (ctx va : Nat) (i : Intent) : XRes :=
  match (s.leafOf o ctx va).1 with
  | .ok pa e => leafCheck i pa e
  | .fault c => .fault c

/-- Translation by an agent: it fills the cache, and a walk sets A in the leaf it uses (R168). -/
def State.translate (s : State) (o : TlbOf) (ctx va : Nat) (i : Intent) : XRes × State :=
  match s.leafOf o ctx va with
  | (.fault c, _) => (.fault c, s)
  | (.ok pa e, none) => (leafCheck i pa e, s)
  | (.ok pa e, some entry) =>
    let s1 := { s with mem := s.mem.putWord entry (s.mem.word entry ||| 0x40#64) }
    (leafCheck i pa e, s1.tlbAdd o e)

/-- Invalidates a context's entries in every translation, walker and barrier cache (R169, R209). -/
def State.invalidate (s : State) (ctx : Nat) : State :=
  { s with
    regions := s.regions.map fun e => (e.1, { e.2 with
      tlb := e.2.tlb.filter fun t => decide (t.ctx ≠ ctx), barrier := e.2.barrier.filter fun t => decide (t.ctx ≠ ctx) })
    tiles := s.tiles.map fun e => (e.1, { e.2 with
      tlb := e.2.tlb.filter fun t => decide (t.ctx ≠ ctx), barrier := e.2.barrier.filter fun t => decide (t.ctx ≠ ctx) })
    caches := { s.caches with walkers := s.caches.walkers.map fun e => (e.1, e.2.filter fun w => decide (w.ctx ≠ ctx)) } }

/-! ### Translated address elements (R170 to R172) -/

/-- SZ of a leaf size (Table 7.4). -/
def szOf (size : Nat) : Nat := if size = 2 ^ 16 then 0 else if size = 2 ^ 26 then 1 else 2

/-- A translated address element (Table 7.4). -/
def mkTae (pa size : Nat) (w pin : Bool) : Word :=
  BitVec.ofNat 64 (2 ^ 63 + szOf size * 2 ^ 61 + (if w then 2 ^ 60 else 0) + (if pin then 2 ^ 59 else 0) + pa % 2 ^ 52)

/-- Bytes of the page an element implies (R170). -/
def taePage (x : Word) : Nat :=
  match field x 62 61 with
  | 0 => 2 ^ 16
  | 1 => 2 ^ 26
  | _ => 2 ^ 36

def taeT (x : Word) : Bool := bitAt x 63 && decide (field x 62 61 ≠ 3)
def taeW (x : Word) : Bool := bitAt x 60
def taePa (x : Word) : Nat := field x 51 0

/-- ADDA (R172, R356): the offset is signed, and a sum across either end of the space lands outside the page. -/
def taeAdd (x off : Word) : Word :=
  let sum : Int := taePa x + off.toInt
  let pa := wrapN 52 sum
  let keep := taeT x && decide (sum / (taePage x : Int) = (taePa x / taePage x : Nat))
  BitVec.ofNat 64 ((if keep then 2 ^ 63 else 0) + field x 62 52 * 2 ^ 52 + pa)

/-! ### Accesses of a context to global addresses -/

/-- Where a context's access is made (R55, R181). -/
def State.target (s : State) (ctx pa : Nat) : Nat :=
  if s.isLocal pa then s.mem.forward s.dev.devNum ctx (localOf pa) else pa

/-- Whether a store meets a copy-on-write frame (R181). -/
def State.storeCow (s : State) (ctx pa : Nat) : Bool :=
  let t := s.target ctx pa
  s.isLocal t && decide (localOf t < Config.memBytes) && (s.mem.frame (localOf t)).cow

end Sys2Proof.Machine
end

