-- ==== Sys2Proof/Machine/Access.lean ====
section
/-! DEFINITION. Accesses of records, firings, ports and engines: laid out beat by beat (R190), performed at their home here or asked of
a remote home (R37, R38, R45), in any order (R188). -/

namespace Sys2Proof.Machine

/-! ### Layout -/

/-- Accesses laid out, or the fault of the first piece that does not translate, with its virtual address. -/
inductive Laid where
  | ok (s : State) (accs : List Acc)
  | fault (s : State) (code va : Nat)
  deriving DecidableEq, Repr

/-- What is laid out: owner of the translation cache, context, intent, element, and for a store its poison and whether it is a full sector. -/
structure LayReq where
  owner : TlbOf
  ctx : Nat
  intent : Intent
  lane : Nat
  store : Bool
  psn : Bool
  full : Bool
  group : Nat
  deriving DecidableEq, Repr

/-- Lays out pieces of at most one beat, translating each (R297); `bs` the bytes a store writes. -/
def State.layPieces (q : LayReq) : List (Nat × Nat) → List Byte → State → List Acc → Laid
  | [], _, s, acc => .ok s acc
  | (va, n) :: ps, bs, s, acc =>
    match s.translate q.owner q.ctx (va % 2 ^ 64) q.intent with
    | (.fault c, s') => .fault s' c (va % 2 ^ 64)
    | (.ok pa _, s') => s'.layPieces q ps (bs.drop n) (acc ++ [⟨pa, n, q.lane, q.store, bs.take n, q.psn, q.full, va % 2 ^ 64, 0, false, false, false, q.group, 0⟩])

/-- Lays out an access of `n` bytes at a virtual address. -/
def State.lay (s : State) (q : LayReq) (va n : Nat) (bs : List Byte) : Laid := s.layPieces q (beats (n + 1) va n) bs []

/-- Lays out an access of `n` bytes at a global physical address, as part of a row where `group` is not 0. -/
def layPhys (lane pa n : Nat) (store : Bool) (bs : List Byte) (psn full : Bool) (group : Nat := 0) : List Acc :=
  go (beats (n + 1) pa n) bs
where
  /-- The pieces with their bytes. -/
  go : List (Nat × Nat) → List Byte → List Acc
    | [], _ => []
    | (a, k) :: ps, b => ⟨a, k, lane, store, b.take k, psn, full, a, 0, false, false, false, group, 0⟩ :: go ps (b.drop k)

/-- Accesses take their issue numbers in the region (R329). -/
def numberAccs (n : Nat) : List Acc → List Acc
  | [] => []
  | a :: as => { a with issue := n } :: numberAccs (n + 1) as

def State.issueAccs (s : State) (key : Nat) (accs : List Acc) : State × List Acc :=
  match tget s.regions key with
  | some r => (s.putRegion key { r with issued := r.issued + accs.length }, numberAccs r.issued accs)
  | none => (s, accs)

/-- Bytes a load of one element has read, in address order. -/
def laneBytes (accs : List Acc) (lane : Nat) : List Byte := (accs.filter fun a => decide (a.lane = lane) && !a.store).flatMap fun a => a.data

/-- Whether a load of one element met poison (R183). -/
def lanePsn (accs : List Acc) (lane : Nat) : Bool := accs.any fun a => decide (a.lane = lane) && !a.store && a.psn

/-- Error statuses of finished accesses are kept for EFENCE (R234). -/
def State.noteErrs (s : State) (key : Nat) (accs : List Acc) : State :=
  match tget s.regions key with
  | some r => s.putRegion key { r with errs := r.errs ++ ((accs.filter fun a => a.err).map fun a => (a.issue, a.addr)) }
  | none => s

/-! ### Memory bodies of flits (R30) -/

/-- A memory body: sector data, mask, timestamp, address field with POISON. -/
def memBody (data : List Byte) (mask ts addr : Nat) (psn : Bool) : List Byte :=
  data ++ leBytes 8 mask ++ leBytes 6 (ts % 2 ^ 48) ++ leBytes 6 (addr / 64 % 2 ^ 46 + if psn then 2 ^ 47 else 0)

/-- The byte mask of a piece within its sector. -/
def sectorMask (a n : Nat) : Nat := (2 ^ n - 1) * 2 ^ (a % 64)

/-- Sector bytes with a piece put in. -/
def sectorBytes (data : List Byte) (off : Nat) (bs : List Byte) : List Byte := data.take off ++ bs ++ data.drop (off + bs.length)

/-- Whether a tag is that of an outstanding request of this device (R32). -/
def State.tagBusy (s : State) (n : Nat) : Bool := s.link.reqs.any fun q => decide (q.tag = n ∧ q.typ ≠ 5 ∧ q.typ ≠ 15)

/-- The next tag that no outstanding request bears (R32). -/
def State.freshTag (s : State) : Nat :=
  let tags := (List.range (s.link.reqs.length + 1)).map fun i => (s.link.nextTag + i) % 65536
  (tags.find? fun n => !s.tagBusy n).getD s.link.nextTag

/-- A request of this device that has gone out by a port, with a tag, kept until it is answered. -/
def State.keepReq (s : State) (tag typ dev port a ctx mask : Nat) (operand : Word) (body : List Byte) (who : Who) : State :=
  { s with link := { s.link with
    nextTag := (tag + 1) % 65536
    reqs := s.link.reqs ++ [⟨tag, typ, dev, port, ctx, a, BitVec.ofNat 64 mask, operand, body, who, none, false⟩] } }

/-- Requests outstanding of the region a waiter belongs to. -/
def State.outstanding (s : State) (who : Who) : Nat :=
  let of := match who with
    | .core key | .engine key _ => (tget s.regions key).map fun r => (key, r)
    | .fire tile _ | .stream tile _ => s.regionOf tile
    | _ => none
  match of with
  | some (key, r) => (s.link.reqs.filter fun q => q.who.ofRegion key r.tiles).length
  | none => 0

/-- A request of this device to a remote home; a region has at most 256 outstanding, the places of its pending-response table (R103). -/
def State.request (s : State) (typ dev a ctx mask : Nat) (operand : Word) (body : List Byte) (who : Who) : Sent :=
  if 256 ≤ s.outstanding who then .wait
  else match s.send dev a typ ctx body with
  | .ok s' => .ok (s'.keepReq s.freshTag typ dev ((s.routePort dev a).getD 0) a ctx mask operand body who)
  | r => r

/-- Whether an address of a remote device leaves by a port that is up and not being removed. -/
def State.portOpen (s : State) (dev a : Nat) : Option Nat :=
  match s.routePort dev a with
  | some p => if dev ≠ 0xFFF ∧ s.link.topoDone = true ∧ s.link.avoid.contains p = false ∧ (s.link.port p).up = true then some p else none
  | none => none

/-! ### Performing -/

/-- How the attempt to perform an access ends. -/
inductive Perf where
  | ok (s : State) (accs : List Acc)
  | wait
  | fault (code va : Nat)
  deriving DecidableEq, Repr

/-- Other pieces of one store in the sector of piece `i`: all of them, as (done) flags. -/
def sameSector (accs : List Acc) (i : Nat) (a : Acc) : List Acc :=
  (accs.zipIdx.filter fun p => decide (p.2 ≠ i) && decide (p.1.store = a.store ∧ p.1.group = a.group) && decide (sectorOf p.1.addr = sectorOf a.addr)).map fun p => p.1

/-- Performs piece `i` at a home on this device. -/
def State.performHere (s : State) (accs : List Acc) (i : Nat) (a : Acc) (t : Nat) : Perf :=
  if a.store then
    if decide (localOf t < Config.memBytes) && (s.mem.frame (localOf t)).cow then .fault cCow a.va
    else
      let rest := sameSector accs i a
      let met := rest.any fun b => b.done && b.err
      match s.storeLocal (localOf t) a.data ⟨a.psn, met || !rest.any fun b => b.done && b.psn, !met, a.full, rest.all fun b => b.done⟩ false with
      | (s', err) => .ok s' (accs.set i { a with done := true, err := err })
  else
    match s.loadLocal (localOf t) a.len with
    | ((bs, p), s') => .ok s' (accs.set i { a with data := bs, psn := p, done := true })

/-- Whether a piece waits for another: two writes of one store stream to a beat are performed in pattern order (R338). -/
def heldBack (accs : List Acc) (a : Acc) : Bool :=
  a.store && accs.any fun b => b.store && !b.done && decide (0 < b.group ∧ b.group < a.group ∧ b.addr / 32 = a.addr / 32)

/-- Asks a remote home for piece `i`, with every other waiting piece of its sector (R30, R45). -/
def State.performThere (s : State) (ctx : Nat) (who : Who) (accs : List Acc) (a : Acc) (t : Nat) : Perf :=
  let mine := fun (b : Acc) => !b.sent && !b.done && decide (b.store = a.store ∧ b.group = a.group ∧ sectorOf b.addr = sectorOf a.addr) && !heldBack accs b
  let group := accs.filter mine
  let mask := group.foldl (fun m b => m ||| sectorMask b.addr b.len) 0
  let data := if a.store then group.foldl (fun d b => sectorBytes d (b.addr % 64) b.data) (List.replicate 64 0) else List.replicate 64 0
  let psn := a.store && group.any fun b => b.psn
  match s.request (if a.store then 2 else 1) (devOf t) (t / 64 * 64) ctx mask (BitVec.ofNat 64 (a.addr / 64 * 64)) (memBody data mask s.mem.pts t psn) who with
  | .ok s' => .ok s' (accs.map fun b => if mine b then { b with sent := true, tag := s.freshTag } else b)
  | .wait => .wait
  | .noRoute => .fault cNoRoute a.va

/-- The pieces performed with piece `i`: those of its row or token that wait in its beat (R189). -/
def peersOf (accs : List Acc) (i : Nat) (a : Acc) : List Nat :=
  if a.group = 0 then [i]
  else (accs.zipIdx.filter fun p => !p.1.sent && !p.1.done && decide (p.1.group = a.group ∧ p.1.store = a.store ∧ p.1.addr / 32 = a.addr / 32)).map fun p => p.2

/-- Performs pieces of one beat at a home on this device, at once. -/
def State.performAll (ctx : Nat) : List Nat → State → List Acc → Perf
  | [], s, accs => .ok s accs
  | i :: is, s, accs =>
    match accs[i]? with
    | none => State.performAll ctx is s accs
    | some a =>
      match s.performHere accs i a (s.target ctx a.addr) with
      | .ok s1 accs1 => State.performAll ctx is s1 accs1
      | r => r

/-- Performs piece `i` for a context. -/
def State.perform (s : State) (ctx : Nat) (who : Who) (accs : List Acc) (i : Nat) : Perf :=
  match accs[i]? with
  | none => .wait
  | some a =>
    let t := s.target ctx a.addr
    if s.isLocal t then State.performAll ctx (peersOf accs i a) s accs else s.performThere ctx who accs a t

/-- Pieces neither performed nor asked for, which can be now. -/
def pendingAccs (accs : List Acc) : List Nat := (accs.zipIdx.filter fun p => !p.1.sent && !p.1.done && !heldBack accs p.1).map fun p => p.2

/-- A turn of accesses: one of those that wait is performed, whichever (R188). -/
inductive Turned where
  | more (s : State) (accs : List Acc)
  | all (s : State) (accs : List Acc)
  | fault (s : State) (code va : Nat)
  deriving DecidableEq, Repr

def State.turnAccs (s : State) (ctx : Nat) (who : Who) (accs : List Acc) : Turned :=
  match pendingAccs accs with
  | [] => if accs.all fun a => a.done then .all s accs else .more s accs
  | ps =>
    match s.perform ctx who accs (ps.getD (s.choice ps.length) 0) with
    | .ok s' accs' => if accs'.all fun a => a.done then .all s'.drawn accs' else .more s'.drawn accs'
    | .wait => .more s accs
    | .fault c va => .fault s c va

/-! ### Answers -/

/-- The pieces that the response to a request completes (R45). -/
def answerAccs (store : Bool) (tag : Nat) (data : List Byte) (psn : Bool) (accs : List Acc) : List Acc :=
  accs.map fun a =>
    if a.sent && !a.done && decide (a.store = store ∧ a.tag = tag) then
      if store then { a with done := true } else { a with done := true, data := (data.drop (a.addr % 64)).take a.len, psn := psn }
    else a

/-- Applies a change to the accesses of an agent. -/
def State.mapAccs (s : State) (who : Who) (f : List Acc → List Acc) : State :=
  match who with
  | .core key =>
    match tget s.regions key with
    | some r => s.putRegion key { r with work := r.work.map fun w => { w with accs := f w.accs } }
    | none => s
  | .fire tile id =>
    let t := s.tile tile
    s.putTile tile { t with ready := t.ready.map fun x => if x.id = id then { x with accs := f x.accs } else x }
  | .stream tile port =>
    let t := s.tile tile
    s.putTile tile (t.putStream port { t.stream port with accs := f (t.stream port).accs })
  | .engine key id =>
    match tget s.regions key with
    | some r => s.putRegion key { r with engines := r.engines.map fun e => if e.id = id then { e with work := e.work.map fun p => { p with accs := f p.accs } } else e }
    | none => s
  | _ => s

/-! ### Faults that wait for the SCC (R174 to R176) -/

/-- A minor or major fault waits with the SCC: who met it, at a virtual address or, at a home, at a physical one. Other faults do not. -/
def State.minorAt (s : State) (code : Nat) (who : Who) (ctx va pa heap key : Nat) : State :=
  if codeClass code = 1 ∨ codeClass code = 2 then
    { s with host := { s.host with minors := s.host.minors ++ [⟨code, who, ctx, va, pa, heap, s.now, key⟩] } }
  else s

/-! ### Accesses made at once at a home here -/

/-- Bytes from a local address, beat by beat, with poison. -/
def State.loadPieces : List (Nat × Nat) → State → List Byte × Bool × State
  | [], s => ([], false, s)
  | (a, n) :: t, s =>
    match s.loadLocal (localOf a) n with
    | ((bs, p), s1) => match State.loadPieces t s1 with
      | (bs', p', s2) => (bs ++ bs', p || p', s2)

/-- Bytes to a local address, beat by beat, each a partial store; the addresses with error status (R234). -/
def State.storePieces (psn : Bool) : List (Nat × Nat) → List Byte → Option Nat → State → State × List Nat
  | [], _, _, s => (s, [])
  | (a, n) :: t, bs, prev, s =>
    let first := decide (prev ≠ some (sectorOf a))
    match s.storeLocal (localOf a) (bs.take n) ⟨psn, first, first, false, false⟩ false with
    | (s1, err) => match State.storePieces psn t (bs.drop n) (some (sectorOf a)) s1 with
      | (s2, es) => (s2, if err then a :: es else es)

/-- A load, or store, of `n` bytes at a global address of this device. -/
def State.loadNow (s : State) (a n : Nat) : List Byte × Bool × State := State.loadPieces (beats (n + 1) a n) s
def State.storeNow (s : State) (a : Nat) (bs : List Byte) (psn : Bool) : State × List Nat :=
  State.storePieces psn (beats (bs.length + 1) a bs.length) bs none s

/-! ### Bodies of CAIRN and HOP flits (Tables 2.8, 2.9) -/

def cairnBody (op tag cairn operand ts : Nat) : List Byte :=
  leBytes 2 op ++ leBytes 2 tag ++ leBytes 4 (cairn % 2 ^ 20) ++ leBytes 8 operand ++ leBytes 6 (ts % 2 ^ 48) ++ List.replicate 62 0

def hopBody (op tag haddr ts : Nat) : List Byte :=
  leBytes 2 op ++ leBytes 2 tag ++ leBytes 4 0 ++ leBytes 6 (haddr / 16) ++ leBytes 2 0 ++ leBytes 6 (ts % 2 ^ 48) ++ List.replicate 62 0

/-- A header operation asked of a remote heap unit (R223). -/
def State.askHop (s : State) (op pa ctx : Nat) (who : Who) : Sent :=
  s.request 11 (devOf pa) pa ctx 0 0 (hopBody op s.freshTag pa s.mem.pts) who

end Sys2Proof.Machine
end

