-- ==== Sys2Proof/Machine/Fold.lean ====
section
/-! DEFINITION. Named panels and the fold: iteration vectors, the order of names, slots, puts and reads, declaring, resizing, dropping (R137 to R159). -/

namespace Sys2Proof.Machine

/-! ### Iteration vectors (R118, R139 to R141) -/

/-- The dimensions of an ITAG under widths, dimension 0 first. -/
def dimsOf : List Nat → Nat → List Nat
  | [], _ => []
  | w :: ws, v => v % 2 ^ w :: dimsOf ws (v / 2 ^ w)

/-- An ITAG from its dimensions. -/
def undims : List Nat → List Nat → Nat
  | w :: ws, d :: ds => d % 2 ^ w + 2 ^ w * undims ws ds
  | _, _ => 0

/-- Widths a block declares by .iter; one dimension of 32 bits without (R118). -/
def Image.widths (m : Image) : List Nat :=
  match m.decls.findSome? fun x => match Decode.decl x with
    | .ok (.iter ws _) => some ws
    | _ => none with
  | some ws => ws
  | none => [32]

/-- Whether `a` is later than `b` in one dimension, ascending or descending (R140). -/
def dimLater (w : Nat) (desc : Bool) (a b : Nat) : Bool :=
  let d := if desc then (b + 2 ^ w - a % 2 ^ w) % 2 ^ w else (a + 2 ^ w - b % 2 ^ w) % 2 ^ w
  decide (1 ≤ d) && decide (d ≤ 2 ^ (w - 1))

/-- Whether name `a` is later than `b`: lists of (width, descending, a, b) from the outermost dimension (R140). -/
def laterFrom : List (Nat × Bool × Nat × Nat) → Bool
  | [] => false
  | (w, desc, a, b) :: t => if a = b then laterFrom t else dimLater w desc a b

def nameLater (ws : List Nat) (dir : List Bool) (a b : List Nat) : Bool :=
  laterFrom (ws.zip (dir.zip (a.zip b))).reverse

/-- Number of slots of a statement. -/
def Stmt.foot (st : Stmt) : Nat := st.lat.foldl (fun p l => p * 2 ^ l) 1

/-- The slot index of a vector under a lattice of log2 moduli, outermost dimension most significant (R141). -/
def latIndex : List Nat → List Nat → Nat
  | l :: ls, d :: ds => d % 2 ^ l + 2 ^ l * latIndex ls ds
  | _, _ => 0

/-- Row address of a name's slot (R141). -/
def Stmt.slotRow (st : Stmt) (ds : List Nat) : Nat := st.base + latIndex st.lat ds * st.rows

def Tile.slot (t : Tile) (row : Nat) : Slot := tgetD t.slots row Slot.blank
def Tile.putSlot (t : Tile) (row : Nat) (e : Slot) : Tile := { t with slots := tput t.slots row e }

/-- A slot entry's words (Table 6.2). -/
def Slot.word0 (e : Slot) : Nat :=
  e.stmt % 256 * 2 ^ 56 + e.vec % 2 ^ 32 * 2 ^ 24 +
    (match e.st with
      | .empty => 0 | .filling => 1 | .ready => 2 | .draining => 3) * 2 ^ 22 +
    (if e.held then 2 ^ 21 else 0) + e.rrem % 256 * 2 ^ 13 + min e.fcnt 255 * 2 ^ 5
def Slot.word1 (e : Slot) : Nat := e.wnode % 128 * 2 ^ 57 + e.rcnt % 128 * 2 ^ 50 + e.claim % 256 * 2 ^ 42

/-- A fold fault against a slot raises FCNT (R142). -/
def Tile.foldFault (t : Tile) (row : Nat) : Tile :=
  let e := t.slot row
  t.putSlot row { e with fcnt := min (e.fcnt + 1) 255 }

/-! ### Names of a firing (R139, R152) -/

/-- How a firing's name stands. -/
inductive NameRes where
  | name (ds : List Nat)
  | boundary
  | mismatch
  deriving DecidableEq, Repr

/-- A dimension with a signed offset; none where it falls outside its width. -/
def addOff (w d : Nat) (off : BitVec 8) : Option Nat :=
  let x : Int := (d : Int) + off.toInt
  if 0 ≤ x ∧ x < (2 ^ w : Nat) then some x.toNat else none

/-- The dimensions of a name with offsets added, all inside their widths or none. -/
def addOffs : List Nat → List Nat → List (BitVec 8) → Option (List Nat)
  | w :: ws, d :: ds, o :: os =>
    match addOff w d o, addOffs ws ds os with
    | some x, some xs => some (x :: xs)
    | _, _ => none
  | _, _, _ => some []

/-- The name of a firing: ITAG dimensions below RANK, each plus its LIT byte. -/
def nameOf (st : Stmt) (ws : List Nat) (itag : Nat) (lit : BitVec 32) : NameRes :=
  let offs := (List.range 4).map fun d => lit.extractLsb' (8 * d) 8
  if ws.length < st.rank then .mismatch
  else if (offs.drop st.rank).any fun o => decide (o ≠ 0) then .mismatch
  else if (ws.zip st.lat).any fun p => decide (p.1 < p.2) then .mismatch
  else
    match addOffs (ws.take st.rank) ((dimsOf ws itag).take st.rank) offs with
    | some ds => .name ds
    | none => .boundary

/-- The vector of a slot's last name. -/
def Slot.dims (e : Slot) (ws : List Nat) (rank : Nat) : List Nat := (dimsOf ws e.vec).take rank

/-- Whether a name is not later than the statement's resize floor (R156). -/
def Stmt.floored (st : Stmt) (ws ds : List Nat) : Bool :=
  match st.floor with
  | none => false
  | some f => !nameLater ws st.dir ds ((dimsOf st.widths f).take st.rank)

/-! ### Puts (Table 6.3) -/

inductive PutRes where
  | begins | stalls | order
  deriving DecidableEq, Repr

/-- The first row of a PUT of a name at its slot. -/
def Tile.putFirst (t : Tile) (st : Stmt) (idx : Nat) (ws ds : List Nat) : PutRes :=
  let e := t.slot (st.slotRow ds)
  if st.resizing then .stalls
  else if st.floored ws ds then .order
  else if !e.held || decide (e.stmt ≠ idx) then .begins
  else if nameLater ws st.dir ds (e.dims ws st.rank) then
    match e.st with
    | .empty => .begins
    | _ => .stalls
  else .order

/-- A slot begins FILLING with a name. -/
def Tile.beginFill (t : Tile) (st : Stmt) (idx : Nat) (ws ds : List Nat) (wnode : Nat) : Tile :=
  let row := st.slotRow ds
  let e := t.slot row
  { t.putSlot row ⟨idx, undims ws ds, .filling, true, 0, e.fcnt, wnode, 0, 0, st.reads⟩ with stmts := tput t.stmts idx { st with widths := ws } }

/-- The row `n` of the panel in a slot. -/
def Tile.putRow (t : Tile) (row n : Nat) (x : Row) : Tile := { t with rows := tput t.rows (row + n) x }

/-- The last row has been written: READY with RREM := READS, the value that stood when the name began FILLING (R144, R151). -/
def Tile.finishFill (t : Tile) (row : Nat) : Tile :=
  let e := t.slot row
  t.putSlot row { e with st := .ready, rrem := e.reads, rcnt := (e.rcnt + 1) % 128, claim := 0 }

/-! ### Reads (Table 6.4) -/

inductive ReadRes where
  | waits | issues | expired (reason : Nat)
  deriving DecidableEq, Repr

/-- A read of a name at its slot, the first row that applies. -/
def Tile.readName (t : Tile) (st : Stmt) (idx : Nat) (ws ds : List Nat) : ReadRes :=
  let e := t.slot (st.slotRow ds)
  let mine := e.held && decide (e.stmt = idx)
  if mine && decide (e.dims ws st.rank = ds) then
    match e.st with
    | .filling => .waits
    | .ready | .draining => if e.claim < e.rrem then .issues else .waits
    | .empty => .expired 1
  else if mine && nameLater ws st.dir (e.dims ws st.rank) ds then .expired 2
  else if st.floored ws ds then .expired 3
  else .waits

/-- A claim taken. -/
def Tile.claim (t : Tile) (row : Nat) : Tile :=
  let e := t.slot row
  t.putSlot row { e with claim := e.claim + 1 }

/-- A read counted: CLAIM and RREM fall, and at RREM 0 in READY the slot is EMPTY and keeps its name (R145). -/
def Tile.countRead (t : Tile) (row : Nat) : Tile :=
  let e := t.slot row
  let n := e.rrem - 1
  t.putSlot row { e with claim := e.claim - 1, rrem := n, st := if n = 0 ∧ e.st = .ready then .empty else e.st }

/-- A row of a panel. -/
def Tile.row (t : Tile) (n : Nat) : Row := tgetD t.rows n ⟨noLanes, false, false, noLoff⟩

/-! ### Declaring (Table 6.6) -/

/-- A statement from its two declaration records. -/
def stmtOf (x y : Rec96) : Option (Nat × Stmt) :=
  match Decode.decl x, Decode.decl y with
  | .ok (.stmt1 idx rows fmt rank lat reads dir base len _), .ok (.stmt2 idx2 dist) =>
    if idx = idx2 then some (idx, ⟨rows, fmt, rank, lat, reads, dir, base, len, dist.take rank, none, [32], false⟩) else none
  | _, _ => none

/-- Number of the first check of Table 6.6 that fails; 0 where all seven pass. -/
def declCheck (idx : Nat) (d : Stmt) (have_ : Tab Stmt) (clean : Bool) : Nat :=
  if 4 < d.rank ∨ 128 < d.rows ∨ d.fmt ∉ [8, 9, 10, 11, 12, 13, 14, 0, 1, 2, 3, 4, 5, 6, 7, 15] ∨ !clean then 1
  else if d.reads = 0 then 2
  else if d.lat.any fun l => decide (8 < l) then 3
  else if (d.lat.zip d.dist).any fun p => decide (2 ^ p.1 ≤ p.2) then 4
  else if d.len < d.foot * d.rows ∨ 8192 < d.base + d.len then 5
  else if have_.any fun e => decide (e.1 ≠ idx) && decide (e.2.base < d.base + d.len) && decide (d.base < e.2.base + e.2.len) then 6
  else
    match tget have_ idx with
    | some o => if o.rank = d.rank ∧ o.rows = d.rows ∧ o.fmt = d.fmt ∧ o.base = d.base ∧ o.len = d.len then 0 else 7
    | none => 0

/-- Slot entries of a range at reset values. -/
def resetSlots (t : Tab Slot) (base len : Nat) : Tab Slot := t.filter fun e => decide (e.1 < base ∨ base + len ≤ e.1)

/-- Installs a new statement on a tile (R150). -/
def Tile.declare (t : Tile) (idx : Nat) (d : Stmt) : Tile :=
  { t with stmts := tput t.stmts idx d, slots := resetSlots t.slots d.base d.len }

/-- Undeclares a statement (R152). -/
def Tile.drop (t : Tile) (idx : Nat) : Tile :=
  match tget t.stmts idx with
  | some d => { t with stmts := tdel t.stmts idx, slots := resetSlots t.slots d.base d.len }
  | none => t

/-- Slot rows of a statement. -/
def Stmt.slotRows (d : Stmt) : List Nat := (List.range d.foot).map fun i => d.base + i * d.rows

/-- Whether a slot of the statement is in one of the states. -/
def Tile.anySlot (t : Tile) (d : Stmt) (p : SlotState → Bool) : Bool := d.slotRows.any fun r => (t.slot r).held && p (t.slot r).st

/-! ### Resizing (R154 to R156) -/

/-- The live names: (slot row, entry). -/
def Tile.liveNames (t : Tile) (d : Stmt) : List (Nat × Slot) :=
  ((d.slotRows.map fun r => (r, t.slot r)).filter fun p => p.2.held && decide (p.2.st = .ready) && decide (0 < p.2.rrem))

/-- New slot row of a live name. -/
def Stmt.newRow (d : Stmt) (lat : List Nat) (e : Slot) : Nat := d.base + latIndex lat (e.dims d.widths d.rank) * d.rows

/-- Whether a list of numbers holds one twice. -/
def hasTwice : List Nat → Bool
  | [] => false
  | a :: t => t.contains a || hasTwice t

/-- Status of a lattice for one tile (Table 6.7). -/
def Tile.resizeCheck (t : Tile) (d : Stmt) (lat : List Nat) : Nat :=
  if lat.any (fun l => decide (8 < l)) || decide (lat.length ≠ d.rank) then 3
  else if d.len < (lat.foldl (fun p l => p * 2 ^ l) 1) * d.rows then 2
  else if hasTwice ((t.liveNames d).map fun p => d.newRow lat p.2) then 1
  else 0

/-- The latest of the names a statement's slots hold, and the old floor (R156). -/
def Tile.latest (t : Tile) (d : Stmt) : Option Nat :=
  let held := (d.slotRows.map t.slot).filter fun e => e.held
  held.foldl (fun m e => match m with
    | none => some (undims d.widths (e.dims d.widths d.rank))
    | some v => if nameLater d.widths d.dir (e.dims d.widths d.rank) ((dimsOf d.widths v).take d.rank) then some (undims d.widths (e.dims d.widths d.rank)) else some v)
    d.floor

/-- A read of the statement that has issued: a GET, GETR or MLDB firing with the slot row of its claim first in `aux`. -/
def Tile.readsPanel (t : Tile) (idx : Nat) (f : Firing) : Bool :=
  f.begun && decide (f.aux.getD 2 0 = 0) && match (tget (t.pe f.pe).slots f.slot).map fun n => Decode.record n.bits with
    | some (.ok (.getNode r)) | some (.ok (.getr r)) | some (.ok (.mldb r)) => decide (r.mod.toNat = idx)
    | _ => false

/-- A read in progress goes on at the place its panel has moved to. -/
def Firing.followPanel (moved : List (Nat × Nat)) (f : Firing) : Firing :=
  match f.aux with
  | row :: more =>
    match moved.find? fun m => decide (m.1 = row) with
    | some m => { f with aux := m.2 :: more }
    | none => f
  | [] => f

/-- Steps 5 and 6 on one tile: live panels at their new slots, with the reads that hold a claim on them; every other slot at reset
values; the resize floor (R155, R156). -/
def Tile.resize (t : Tile) (idx : Nat) (d : Stmt) (lat : List Nat) : Tile :=
  let live := t.liveNames d
  let slots := live.foldl (fun m p => tput m (d.newRow lat p.2) p.2) (resetSlots t.slots d.base d.len)
  let rows := live.foldl (fun m p => (List.range d.rows).foldl (fun m n => tput m (d.newRow lat p.2 + n) (t.row (p.1 + n))) m) t.rows
  let moved := live.map fun p => (p.1, d.newRow lat p.2)
  { t with
    slots := slots
    rows := rows
    stmts := tput t.stmts idx { d with lat := lat, floor := t.latest d }
    ready := t.ready.map fun f => if t.readsPanel idx f then f.followPanel moved else f }

/-- The freeze of step 1 set or lifted on a tile. -/
def Tile.setResizing (t : Tile) (idx : Nat) (b : Bool) : Tile :=
  match tget t.stmts idx with
  | some d => { t with stmts := tput t.stmts idx { d with resizing := b } }
  | none => t

/-- Applies a change to every tile of a region. -/
def State.mapTiles (s : State) (ks : List Nat) (f : Tile → Tile) : State := ks.foldl (fun s' k => s'.putTile k (f (s'.tile k))) s

/-- Stalled PUTs of a statement stand to be evaluated afresh (R154 step 7). -/
def Tile.releasePuts (t : Tile) (idx : Nat) : Tile :=
  { t with ready := t.ready.map fun f =>
      match tget (t.pe f.pe).slots f.slot with
      | some n =>
        match Decode.record n.bits with
        | .ok (.putNode r) => if f.st = .slot ∧ r.mod.toNat = idx then { f with st := .released } else f
        | _ => f
      | none => f }

end Sys2Proof.Machine
end

