-- ==== Sys2Proof/Machine/Heap.lean ====
section
/-! DEFINITION. The managed heap: references, headers, the barrier, healing, pinning, allocation, frames and the mapping of pages
(R201 to R223, R453, R457). -/

namespace Sys2Proof.Machine

/-! ### References and headers (R204 to R207) -/

/-- The fault of a reference's form; none where it is well formed (R206). -/
def refFault (r : Word) : Option Nat :=
  if r = 0 then some cNullRef
  else if field r 63 60 ≠ 10 ∨ field r 53 48 ≠ 0 ∨ field r 3 0 ≠ 0 then some cBadRef
  else none

/-- First address of a heap's window (R201). -/
def heapBase (h : Nat) : Nat := 0x80000000000000 + h * 2 ^ 48

/-- Whether an address lies in a heap window (R201). -/
def inHeap (va : Nat) : Bool := decide (heapBase 0 ≤ va) && decide (va < heapBase 16)

/-- Virtual address of the object a reference names (R205). -/
def refVa (r : Word) : Nat := heapBase (field r 59 56) + field r 47 0

/-- A reference to an offset of a heap, COLOUR 00. -/
def mkRef (h off : Nat) : Word := BitVec.ofNat 64 (10 * 2 ^ 60 + h % 16 * 2 ^ 56 + off % 2 ^ 48)

/-- Word 0 of a header (Table 9.1). -/
def hdrWord0 (cls pin st size16 : Nat) : Word :=
  BitVec.ofNat 64 (cls % 65536 * 2 ^ 48 + pin % 65536 * 2 ^ 32 + st % 4 * 2 ^ 30 + size16 % 8192)

def hdrState (w : Word) : Nat := field w 31 30
def hdrPin (w : Word) : Nat := field w 47 32
def hdrSize (w : Word) : Nat := 16 * field w 12 0

/-- A header's word 0 with another STATE or PIN. -/
def setHdrState (w : Word) (st : Nat) : Word := BitVec.ofNat 64 (field w 63 32 * 2 ^ 32 + st % 4 * 2 ^ 30 + field w 29 0)
def setHdrPin (w : Word) (n : Nat) : Word := BitVec.ofNat 64 (field w 63 48 * 2 ^ 48 + n % 65536 * 2 ^ 32 + field w 31 0)

/-- The healed reference (R215). -/
def healRef (r fwd : Word) : Word := BitVec.ofNat 64 (field r 63 48 * 2 ^ 48 + field fwd 47 0)

/-- Whether two resolved references name one object (R216). -/
def sameObject (a b : Word) : Bool := decide (field a 59 56 = field b 59 56) && decide (field a 47 0 = field b 47 0)

/-! ### Jobs and pages -/

/-- The job of a context. -/
def State.jobOf (s : State) (ctx : Nat) : Nat :=
  match tget s.host.ctxs ctx with
  | some c => c.job
  | none => 0

/-- Whether a heap page of a job was released (R220). -/
def State.pageReleased (s : State) (ctx page : Nat) : Bool := s.heap.released.contains (s.jobOf ctx, page)

/-- Page state of a local heap frame (R208). -/
def State.pageSt (s : State) (pa : Nat) : PageState := (s.mem.frame (localOf pa)).page

/-! ### The barrier (R209, R210) -/

def State.barrierOf (s : State) : TlbOf → List BarEntry
  | .core k => match tget s.regions k with
    | some r => r.barrier
    | none => []
  | .tile t => (s.tile t).barrier

/-- Adds a barrier cache entry, dropping the oldest beyond 64 or 512 (R209). -/
def State.barrierAdd (s : State) (o : TlbOf) (e : BarEntry) : State :=
  match o with
  | .core k => match tget s.regions k with
    | some r => s.putRegion k { r with barrier := (e :: r.barrier).take 64 }
    | none => s
  | .tile t => s.putTile t { s.tile t with barrier := (e :: (s.tile t).barrier).take 512 }

/-- What the barrier answers: the header's global address and the reference now; a wait for a MOVING object; a header to ask of a
remote home; or a fault. -/
inductive Barrier where
  | ok (s : State) (ref : Word) (pa : Nat) (hops : Nat)
  | waits (s : State) (ref : Word) (pa : Nat) (hops : Nat)
  | ask (s : State) (ref : Word) (pa : Nat) (hops : Nat)
  | fault (s : State) (code : Nat) (ref : Word) (hops : Nat)
  deriving DecidableEq, Repr

/-- The barrier's lookup of a reference's page: translation, with write intent where the access passes it as a store, and page state (R210). The state of a page homed elsewhere is no part of this
device: whether its header must be read is a free choice. -/
def State.barrierLookup (s : State) (o : TlbOf) (ctx page : Nat) (store : Bool) : XRes × PageState × State :=
  let allowed := fun (pa : Nat) (w cow : Bool) => match if store then writeFault w cow else none with
    | some c => XRes.fault c
    | none => XRes.ok pa ⟨ctx, page, 65536, pa, w, false, true, cow⟩
  match (s.barrierOf o).find? fun e => decide (e.ctx = ctx ∧ e.page = page) with
  | some e => (allowed e.pa e.w e.cow, e.st, s)
  | none =>
    match s.translate o ctx page .heap with
    | (.fault c, s') => (.fault c, .normal, s')
    | (.ok pa e, s') =>
      let t := s'.target ctx pa
      let st := if s'.isLocal t then s'.pageSt t else if s'.choice 2 = 0 then .normal else .evacuating
      (allowed t e.w e.cow, st, (s'.barrierAdd o ⟨ctx, page, t, st, e.w, e.cow⟩).drawn)

/-- The header at a local address. -/
def State.header (s : State) (pa : Nat) : Word × Word := (s.mem.word (localOf pa), s.mem.word (localOf pa + 8))

/-- One barrier run: `f`, `n` the field, `hdr` a header that a remote home has answered for the reference at hand. -/
def State.barrier (o : TlbOf) (ctx : Nat) (store : Bool) (f n : Nat) : Nat → State → Word → Nat → Option (Word × Word) → Barrier
  | 0, s, r, hops, _ => .fault s cForwardChain r hops
  | fuel + 1, s, r, hops, hdr =>
    match refFault r with
    | some c => .fault s c r hops
    | none =>
      let va := refVa r
      let page := va / 65536 * 65536
      if s.pageReleased ctx page then .fault s cStaleRef r hops
      else
        match s.barrierLookup o ctx page store with
        | (.fault c, _, s') => .fault s' c r hops
        | (.ok ppa _, st, s') =>
          let pa := ppa + va % 65536
          if st = .normal && hdr.isNone then
            if 65536 < va % 65536 + f + n then .fault s' cObjectBound r hops else .ok s' r pa hops
          else
            match if s'.isLocal pa then some (s'.header pa) else hdr with
            | none => .ask s' r pa hops
            | some (w0, w1) =>
              if hdrState w0 = 0 then .fault s' cDeadObject r hops
              else if hdrSize w0 < f + n then .fault s' cObjectBound r hops
              else if hdrState w0 = 1 then .ok s' r pa hops
              else if hdrState w0 = 2 then (if store then .waits s' r pa hops else .ok s' r pa hops)
              else if 4 ≤ hops then .fault s' cForwardChain r hops
              else s'.barrier o ctx store f n fuel (healRef r w1) (hops + 1) none

/-! ### Pinning (R217, R218) -/

/-- How a header operation ends. -/
inductive PinRes where
  | ok (s : State)
  | fault (code : Nat)
  deriving DecidableEq, Repr

/-- Adds 1 to, or takes 1 from, the PIN of a local header. -/
def State.pinHere (s : State) (pa : Nat) (up : Bool) : PinRes :=
  let a := localOf pa
  let w := s.mem.word a
  if (s.mem.frame a).cow then .fault cCow
  else if up then
    if hdrPin w = 65535 then .fault cPinOverflow else .ok { s with mem := (s.mem.putWord a (setHdrPin w (hdrPin w + 1))).stampStore a }
  else if hdrPin w = 0 then .fault cPinUnderflow
  else .ok { s with mem := (s.mem.putWord a (setHdrPin w (hdrPin w - 1))).stampStore a }

/-! ### One heap access of an agent (R210, R223) -/

/-- What a heap record or node does through a reference. -/
inductive HeapOp where
  | load | store | pin | unpin | cmp
  deriving DecidableEq, Repr

/-- Whether it passes the barrier as a store (R210). -/
def HeapOp.asStore : HeapOp → Bool
  | .store | .pin | .unpin => true
  | _ => false

/-- How far an access through a reference has come: the reference now, DONE entries followed, and with a remote home its stage: 0 none,
1 header asked, 2 header answered (w0, w1), 3 wait asked, 4 pin or unpin asked (w1 the address), 5 answered (w0 the status), 6 accessing. -/
structure HeapJob where
  ref : Word
  hops : Nat
  stage : Nat
  w0 : Word
  w1 : Word
  deriving DecidableEq, Repr

def HeapJob.start (r : Word) : HeapJob := ⟨r, 0, 0, 0, 0⟩

/-- A job in an agent's numbers, and back. -/
def HeapJob.nums (j : HeapJob) : List Nat := [j.ref.toNat, j.hops, j.stage, j.w0.toNat, j.w1.toNat]
def HeapJob.ofNums (l : List Nat) : HeapJob :=
  ⟨BitVec.ofNat 64 (l.getD 0 0), l.getD 1 0, l.getD 2 0, BitVec.ofNat 64 (l.getD 3 0), BitVec.ofNat 64 (l.getD 4 0)⟩

/-- A job after a heap reply (Table 2.10). A pin or unpin that met an object on its way, or gone, changed nothing: the header that came back takes
the barrier on (R217). -/
def HeapJob.answer (j : HeapJob) (status : Nat) (w0 w1 : Word) : HeapJob :=
  if status = 6 then { j with stage := 5, w0 := 6 }
  else
    match j.stage with
    | 1 => { j with stage := 2, w0 := w0, w1 := w1 }
    | 3 => { j with stage := 0 }
    | 4 => if status = 0 ∧ 2 ≤ hdrState w0 then { j with stage := 2, w0 := w0, w1 := w1 } else { j with stage := 5, w0 := BitVec.ofNat 64 status }
    | _ => j

/-- What one turn of an access through a reference gives: done, with the reference, DONE entries followed, the header's address, what was read
and addresses with error; standing, on MOVING here or on a remote home; or a fault with its address, virtual or physical. -/
inductive HeapRes where
  | done (s : State) (ref : Word) (hops pa : Nat) (data : List Byte) (psn : Bool) (errs : List Nat)
  | stand (s : State) (j : HeapJob) (accs : List Acc) (moving : Bool)
  | fault (s : State) (j : HeapJob) (code addr : Nat) (phys : Bool)
  deriving DecidableEq, Repr

/-- Asks a remote heap unit and stands. -/
def State.heapAsk (s : State) (op pa ctx : Nat) (who : Who) (j : HeapJob) (stage : Nat) : HeapRes :=
  match s.askHop op pa ctx who with
  | .ok s' => .stand s' { j with stage := stage } [] false
  | .wait => .stand s j [] false
  | .noRoute => .fault s j cNoRoute pa true

/-- The address a barrier fault reports: the virtual one of a translation fault, else the reference. -/
def barrierAddr (code : Nat) (r : Word) : Nat := if code < 0x20 then refVa r else r.toNat

/-- The access itself at a resolved header: here in one step, at a remote home through its accesses. -/
def State.heapAt (s : State) (ctx : Nat) (who : Who) (op : HeapOp) (f n : Nat) (bs : List Byte) (psn : Bool) (j : HeapJob) (pa : Nat) : HeapRes :=
  let here := s.isLocal pa
  match op with
  | .cmp => .done s j.ref j.hops pa [] false []
  | .load =>
    if here then (match s.loadNow (pa + f) n with
      | (data, p, s1) => .done s1 j.ref j.hops pa data p [])
    else .stand s { j with stage := 6, w1 := BitVec.ofNat 64 pa } (layPhys 0 (pa + f) n false [] false false) false
  | .store =>
    if here then
      if (s.mem.frame (localOf pa)).cow then .fault s j cCow pa true
      else (match s.storeNow (pa + f) bs psn with
        | (s1, es) => .done s1 j.ref j.hops pa [] false es)
    else .stand s { j with stage := 6, w1 := BitVec.ofNat 64 pa } (layPhys 0 (pa + f) n true bs psn false) false
  | .pin | .unpin =>
    if here then (match s.pinHere pa (decide (op = .pin)) with
      | .ok s1 => .done s1 j.ref j.hops pa [] false []
      | .fault c => .fault s j c (if c = cCow then pa else j.ref.toNat) (decide (c = cCow)))
    else s.heapAsk (if op = .pin then 2 else 3) pa ctx who { j with w1 := BitVec.ofNat 64 pa } 4

/-- One turn of an access of `n` bytes at object offset `f` (R210). -/
def State.heapTurn (s : State) (o : TlbOf) (ctx : Nat) (who : Who) (op : HeapOp) (f n : Nat) (bs : List Byte) (psn : Bool)
    (j : HeapJob) (accs : List Acc) : HeapRes :=
  match j.stage with
  | 1 | 3 | 4 => .stand s j accs false
  | 5 =>
    match j.w0.toNat with
    | 4 => .fault s j cPinOverflow j.ref.toNat false
    | 5 => .fault s j cPinUnderflow j.ref.toNat false
    | 6 => .fault s j cNotHeap (refVa j.ref) false
    | _ => .done s j.ref j.hops j.w1.toNat [] false []
  | 6 =>
    match s.turnAccs ctx who accs with
    | .more s' as => .stand s' j as false
    | .all s' as => .done s' j.ref j.hops j.w1.toNat (laneBytes as 0) (lanePsn as 0) ((as.filter fun a => a.err).map fun a => a.addr)
    | .fault s' c va => .fault s' j c va true
  | st =>
    match s.barrier o ctx op.asStore f n 6 j.ref j.hops (if st = 2 then some (j.w0, j.w1) else none) with
    | .fault s' c r h => .fault s' { j with ref := r, hops := h, stage := 0 } c (barrierAddr c r) false
    | .waits s' r pa h =>
      let j' : HeapJob := ⟨r, h, 0, 0, 0⟩
      if s'.isLocal pa then .stand s' j' [] true else s'.heapAsk 4 pa ctx who j' 3
    | .ask s' r pa h => s'.heapAsk 1 pa ctx who ⟨r, h, 0, 0, 0⟩ 1
    | .ok s' r pa h => s'.heapAt ctx who op f n bs psn ⟨r, h, 0, 0, 0⟩ pa

/-- Error addresses of heap stores, kept for EFENCE and for the completion token. -/
def State.heapErrs (s : State) (key : Nat) (es : List Nat) : State :=
  match tget s.regions key with
  | some r => if es.isEmpty then s else s.putRegion key { r with errs := r.errs ++ (es.map fun a => (r.issued, a)), issued := r.issued + 1 }
  | none => s

/-! ### Frames and mapping (R453, R181) -/

/-- A range of memory made zero. -/
def Mem.zero (m : Mem) (a n : Nat) : Mem :=
  { m with
    cells := m.cells.filter fun c => decide (c.1 < a ∨ a + n ≤ c.1)
    poison := m.poison.filter fun x => decide (x * 64 < a ∨ a + n ≤ x * 64) }

/-- The virtual page at which a page table maps a frame: a search of the table. -/
def findVa (m : Mem) (g : Nat) : Nat → Nat → Nat → Nat → Option Nat
  | 0, _, _, _ => none
  | fuel + 1, level, table, va =>
    (List.range 1024).findSome? fun i =>
      let v := va + i * leafSize level
      match pteOf (m.word (table + 8 * i)) level with
      | .leaf pa _ _ _ _ => if pa ≤ g ∧ g < pa + leafSize level then some (v + (g - pa)) else none
      | .table q => findVa m g fuel (level + 1) q v
      | _ => none

/-- Whether a context uses a local frame: its root table, its save area, a page it maps. -/
def State.ctxUses (s : State) (a : Nat) (c : Ctx) : Bool :=
  decide (frameOf c.root = frameOf a) || decide (c.saveBase ≤ a ∧ a < c.saveBase + c.saveUnits * 65536) ||
  (findVa s.mem (s.dev.devNum * 2 ^ 40 + a) 4 1 c.root 0).isSome

/-- Whether a local frame is free for the SCC to take: it holds nothing, has no state of its own, and no context, queue or transaction uses it (log 9). -/
def State.frameFree (s : State) (a : Nat) : Bool :=
  !(s.mem.cells.any fun c => decide (frameOf c.1 = frameOf a)) && !(s.mem.poison.any fun x => decide (x / 1024 = frameOf a)) &&
  (tget s.mem.frames (frameOf a)).isNone && !(s.host.ctxs.any fun e => s.ctxUses a e.2) &&
  !(s.host.lq.any fun e => decide (e.2.base ≤ a + 65535 ∧ a < e.2.base + 64 * 65536)) &&
  !(s.link.targets.any fun t => t.sectors.any fun g => decide (frameOf g.addr = frameOf a))

/-- The first free frame of `fuel` from frame number `n` on, around the end of main memory. -/
def State.freeFrom (s : State) : Nat → Nat → Option Nat
  | 0, _ => none
  | fuel + 1, n =>
    let a := n % (Config.memBytes / 65536) * 65536
    if s.frameFree a then some a else s.freeFrom fuel (n + 1)

/-- A fresh zeroed 64 KiB frame, whichever of the free ones the SCC takes, with a frame state of its own from now on; none where there is none
(log 9). -/
def State.newFrame (s : State) : Option (Nat × State) :=
  (s.freeFrom (Config.memBytes / 65536) (Config.frame s.draws)).map fun a => (a, { s.drawn with mem := s.mem.putFrame a Frame.blank })

/-- A frame filled with free values: what the page held where it was kept. -/
def fillFree : Nat → Mem → Nat → Nat → Mem
  | 0, m, _, _ => m
  | n + 1, m, a, d => fillFree n (m.putWord a (Config.freeWord d)) (a + 8) (d + 1)

/-- Fills a new table page with absent entries that carry an ABS code. -/
def fillTable : Nat → Mem → Nat → Word → Mem
  | 0, m, _, _ => m
  | n + 1, m, a, v => fillTable n (m.putWord a v) (a + 8) v

/-- Writes a leaf for a page, building missing tables whose unused entries take the ABS of the entry they replace (R453). -/
def State.mapLeaf (va : Nat) (leaf : Word) : Nat → Nat → Nat → State → Option State
  | 0, _, _, _ => none
  | fuel + 1, level, table, s =>
    let a := pteAddr table va level
    if level = 4 then some { s with mem := s.mem.putWord a leaf }
    else
      match pteOf (s.mem.word a) level with
      | .table q => s.mapLeaf va leaf fuel (level + 1) q
      | _ =>
        let old := s.mem.word a
        match s.newFrame with
        | none => none
        | some (f, s1) =>
          let m := fillTable 1024 s1.mem f (if bitAt old 0 then 0 else old &&& 0xC00#64)
          ({ s1 with mem := m.putWord a (BitVec.ofNat 64 (f + 1)) }).mapLeaf va leaf fuel (level + 1) f

/-- Maps a local frame at a page of a context, as R453 gives, readable, writable, A set, and invalidates as the SCC does whenever it changes an
entry (R169); none where no frame is left for a table. -/
def State.mapFrame (s : State) (ctx va frame : Nat) (heap : Bool) : Option State :=
  (s.mapLeaf va (BitVec.ofNat 64 (s.dev.devNum * 2 ^ 40 + frame + 0x47 + if heap then 16 else 0)) 4 1 (s.root ctx)).map fun s2 => s2.invalidate ctx

/-- A fresh heap page laid out as one FREE object (R453). -/
def State.freePage (s : State) (frame : Nat) : State := { s with mem := s.mem.putWord frame (hdrWord0 0 0 0 4096) }

/-- The entry at which a context's walk for an address ends (R165). -/
def State.pteAt (s : State) (ctx va : Nat) : Pte :=
  match (walkFull s.mem ctx va 4 1 (s.root ctx) []).1 with
  | .done p _ _ => p
  | .miss => .error

/-- Where a context maps a page: its frame and the address of the leaf; none where it does not. -/
def State.leafAt (s : State) (ctx va : Nat) : Option (Nat × Nat) :=
  match (walkFull s.mem ctx va 4 1 (s.root ctx) []).1 with
  | .done (.leaf pa _ _ _ _) level entry => some (pa + va % leafSize level / 65536 * 65536, entry)
  | _ => none

/-! ### The dirty-range log (R177 to R179) -/

/-- Save-area base of a context. -/
def State.saveBase (s : State) (ctx : Nat) : Nat :=
  match tget s.host.ctxs ctx with
  | some c => c.saveBase
  | none => 0

/-- The log of a context has overflowed: its snapshots no longer know what was written since (R178, R180). -/
def State.logOverflow (s : State) (ctx : Nat) : State :=
  match tget s.host.ctxs ctx with
  | some c => s.putCtx ctx { c with snaps := c.snaps.map fun x => { x with stale := true } }
  | none => s

/-- Deposits a record; a full ring overflows and then holds it alone. -/
def State.deposit (s : State) (ctx lo hi : Nat) (cowf : Bool) : State :=
  let b := s.saveBase ctx
  let c := b + 0x10000
  let w := s.mem.word c
  let over_ := decide ((s.mem.word (c + 8)).toNat + 4096 ≤ w.toNat)
  let m0 := if over_ then (s.mem.putWord (c + 16) (s.mem.word (c + 16) ||| 1)).putWord (c + 8) w else s.mem
  let a := b + 16 * (w.toNat % 4096)
  let m1 := (m0.putWord a (BitVec.ofNat 64 (lo % 2 ^ 56))).putWord (a + 8) (BitVec.ofNat 64 (hi % 2 ^ 56 + if cowf then 2 ^ 63 else 0))
  let s1 := { s with mem := m1.putWord c (w + 1) }
  if over_ then s1.logOverflow ctx else s1

/-! ### Copy-on-write (R181) -/

/-- Entries of a split leaf: leaves of the next smaller size. -/
def splitFill : Nat → Mem → Nat → Word → Nat → Mem
  | 0, m, _, _, _ => m
  | n + 1, m, a, e, size => splitFill n (m.putWord a e) (a + 8) (e + BitVec.ofNat 64 size) size

/-- Splits larger leaves on a page's path down to 64 KiB; none where no frame is left for a table. -/
def State.splitLeaf (ctx va : Nat) : Nat → State → Option State
  | 0, s => some s
  | fuel + 1, s =>
    match (walkFull s.mem ctx va 4 1 (s.root ctx) []).1 with
    | .done (.leaf ..) level entry =>
      if 4 ≤ level then some s
      else
        let e := s.mem.word entry
        match s.newFrame with
        | none => none
        | some (f, s1) => State.splitLeaf ctx va fuel { s1 with mem := (splitFill 1024 s1.mem f e (leafSize (level + 1))).putWord entry (BitVec.ofNat 64 (f + 1)) }
    | _ => some s

/-- Copies a frame of main memory: bytes and poison. -/
def Mem.copyFrame (m : Mem) (a b : Nat) : Mem :=
  let m1 := m.write b (m.read a 65536)
  { m1 with poison := (m.poison.filter fun x => decide (a / 64 ≤ x ∧ x < a / 64 + 1024)).foldl (fun p x => ninsert p (x - a / 64 + b / 64)) m1.poison }

/-- A frame address in a leaf replaced, writable and not COW. -/
def leafTo (e : Word) (g : Nat) : Word := BitVec.ofNat 64 ((e.toNat % 8192) + g) &&& ~~~0x20#64 ||| 0x4#64

/-- CWF of a frame's home rises (Table 7.10). -/
def State.cwfUp (s : State) (a : Nat) : State :=
  let m := homeDie a
  let r := tgetD s.dev.memev m 0
  { s with dev := { s.dev with memev := tput s.dev.memev m (BitVec.ofNat 32 (field r 31 16 * 65536 + min (field r 15 0 + 1) 65535)) } }

/-- A page of a context that is copied on a write gets its copy's frame, writable and without COW, in a leaf of its own; the log's record (R177, R181);
none where no frame is left for a split leaf's table. -/
def State.mapCopy (s : State) (ctx va g : Nat) : Option State :=
  (State.splitLeaf ctx va 3 s).map fun s1 =>
    match s1.leafAt ctx va with
    | some (_, entry) =>
      let s2 := { s1 with mem := s1.mem.putWord entry (leafTo (s1.mem.word entry) g) }
      (s2.invalidate ctx).deposit ctx (va / 65536 * 65536) (va / 65536 * 65536 + 65535) true
    | none => s1

/-- The service of a copy-on-write fault of a context on a local frame (R181): the copy, its mapping where the context maps the frame, the old
frame's forwarding, the log's record; none where no frame can be had. -/
def State.copyCow (s : State) (ctx old : Nat) : Option State :=
  match s.newFrame with
  | none => none
  | some (f, s1) =>
    let fr := s.mem.frame old
    let g := s.dev.devNum * 2 ^ 40 + f
    let m := ((s1.mem.copyFrame old f).putFrame f { Frame.blank with page := fr.page }).putFrame old { fr with copies := fr.copies ++ [(ctx, g)] }
    let s2 := { s1 with mem := m }.cwfUp old
    match findVa s2.mem (s.dev.devNum * 2 ^ 40 + old) 4 1 (s2.root ctx) 0 with
    | none => some s2
    | some va => s2.mapCopy ctx va g

/-- A store of a context that reaches a frame at its home: a COW frame is copied first (R181); unchanged where no frame can be had. -/
def State.serveCow (s : State) (ctx a : Nat) : State :=
  if (s.mem.frame a).cow then (s.copyCow ctx (a / 65536 * 65536)).getD s else s

/-! ### Allocation (R219) -/

/-- Whether a page of a context is mapped. -/
def State.mapped (s : State) (ctx va : Nat) : Bool :=
  match (walkFull s.mem ctx va 4 1 (s.root ctx) []).1 with
  | .done (.leaf ..) _ _ => true
  | _ => false

/-- The next unused page address of a heap's window, ascending; none where the window has no more. -/
def State.nextPage (s : State) (ctx h : Nat) : Option Nat := go 4294967296 (heapBase h)
where
  /-- Tries pages upward. -/
  go : Nat → Nat → Option Nat
    | 0, _ => none
    | fuel + 1, va =>
      if heapBase h + 2 ^ 48 ≤ va then none
      else if s.heap.used.contains (s.jobOf ctx, va) || s.mapped ctx va then go fuel (va + 65536)
      else some va

/-- Marks a page address used (R212). -/
def State.usePage (s : State) (ctx va : Nat) : State := { s with heap := { s.heap with used := s.heap.used ++ [(s.jobOf ctx, va)] } }

def State.bufOf (s : State) (o : TlbOf) (h : Nat) : Option HeapBuf :=
  match o with
  | .core k => match tget s.regions k with
    | some r => tget r.bufs h
    | none => none
  | .tile t => tget (s.tile t).bufs h

def State.putBuf (s : State) (o : TlbOf) (h : Nat) (b : Option HeapBuf) : State :=
  let f := fun (t : Tab HeapBuf) => match b with
    | some x => tput t h x
    | none => tdel t h
  match o with
  | .core k => match tget s.regions k with
    | some r => s.putRegion k { r with bufs := f r.bufs }
    | none => s
  | .tile t => s.putTile t { s.tile t with bufs := f (s.tile t).bufs }

/-- Where a buffer's page stands now: a local address. -/
def State.bufAt (s : State) (ctx : Nat) (b : HeapBuf) : Nat :=
  match s.leafAt ctx b.va with
  | some (pa, _) => localOf (s.target ctx pa)
  | none => localOf b.pa

/-- Closes the rest of a page as one FREE object (R219, R450). -/
def State.closeRest (s : State) (a fill : Nat) : State :=
  if 65536 ≤ fill then s else { s with mem := s.mem.putWord (a + fill) (hdrWord0 0 0 0 ((65536 - fill) / 16)) }

/-- The rest of a buffer's page closed; copy-on-write is served first (R181). -/
def State.closePage (s : State) (ctx : Nat) (b : HeapBuf) : State :=
  let s1 := if (s.mem.frame (s.bufAt ctx b)).cow then s.serveCow ctx (s.bufAt ctx b) else s
  if (s1.mem.frame (s1.bufAt ctx b)).cow then s1 else s1.closeRest (s1.bufAt ctx b) b.fill

/-- The context of the owner of a buffer. -/
def State.ownerCtx (s : State) : TlbOf → Nat
  | .core k => ((tget s.regions k).map fun r => r.ctx).getD 0
  | .tile t => ((s.regionOf t).map fun e => e.2.ctx).getD 0

def State.closeBuf (s : State) (o : TlbOf) (h : Nat) : State :=
  match s.bufOf o h with
  | some b => (s.closePage (s.ownerCtx o) b).putBuf o h none
  | none => s

/-- Whether an open allocation buffer lies in a frame (R219). -/
def State.openBuffer (s : State) (frame : Nat) : Bool :=
  let hit := fun (ctx : Nat) (b : HeapBuf) => decide (frameOf (s.bufAt ctx b) = frameOf frame)
  (s.regions.any fun e => e.2.bufs.any fun b => hit e.2.ctx b.2) || s.tiles.any fun e => e.2.bufs.any fun b => hit (s.ownerCtx (.tile e.1)) b.2

/-- What an allocation gives: the reference, or a fault. -/
inductive AllocRes where
  | ok (s : State) (ref : Word)
  | fault (s : State) (code va : Nat)
  deriving DecidableEq, Repr

/-- HNEW: the header, and the rest of the page as one FREE object behind it (R203, R219). -/
def State.alloc (s : State) (o : TlbOf) (ctx size cls h : Nat) : AllocRes :=
  if size < 16 ∨ 65536 < size ∨ size % 16 ≠ 0 then .fault s cAllocSize 0
  else
    match s.bufOf o h with
    | some b =>
      if b.fill + size ≤ 65536 then
        let a := s.bufAt ctx b + b.fill
        if (s.mem.frame a).cow then .fault s cCow (b.va + b.fill)
        else let s1 := { s with mem := ((s.mem.putWord a (hdrWord0 cls 0 1 (size / 16))).putWord (a + 8) 0).stampStore a }.closeRest (s.bufAt ctx b) (b.fill + size)
          .ok (s1.putBuf o h (some { b with fill := b.fill + size })) (mkRef h (b.va - heapBase h + b.fill))
      else if (s.nextPage ctx h).isNone then .fault s cHeapFull 0
      else .fault (s.closeBuf o h) cRefill 0
    | none => if (s.nextPage ctx h).isNone then .fault s cHeapFull 0 else .fault s cRefill 0

/-- The refill of a buffer with a fresh page (R219); none where no frame can be had. -/
def State.refill (s : State) (o : TlbOf) (ctx h : Nat) : Option State :=
  match s.nextPage ctx h with
  | none => some s
  | some va =>
    match (s.closeBuf o h).newFrame with
    | none => none
    | some (f, s1) => (s1.mapFrame ctx va f true).map fun s2 => ((s2.freePage f).usePage ctx va).putBuf o h (some ⟨va, s1.dev.devNum * 2 ^ 40 + f, 0⟩)

end Sys2Proof.Machine
end

