-- ==== Sys2Proof/Machine/Fabric.lean ====
section
/-! DEFINITION. Tokens and nodes: where an instance's nodes stand, sending a token along an arc, arrival and matching, teardown, faults of
nodes (R114 to R136, R224, R235, R282, R443). -/

namespace Sys2Proof.Machine

/-! ### Records and images -/

/-- The instruction of a node record with its rule and fields. -/
def nodeRecOf (x : Rec96) : Option (Instr × Rules.NodeRule × NodeRec) :=
  match Decode.record x with
  | .ok i =>
    match Rules.nodeRule i with
    | some (c, n) => some (i, c, n)
    | none => none
  | .error _ => none

/-- The declaration records of an image that read as such. -/
def Image.declList (m : Image) : List Decode.Decl :=
  m.decls.filterMap fun x => match Decode.decl x with
    | .ok d => some d
    | .error _ => none

/-- The TMR group that holds a node, as (first, last) (R235). -/
def Image.tmrOf (m : Image) (n : Nat) : Option (Nat × Nat) :=
  m.declList.findSome? fun d => match d with
    | .tmr a b => if a ≤ n ∧ n ≤ b then some (a, b) else none
    | _ => none

/-- The policy a block declares for a node (R134, R282). -/
def Image.policyOf (m : Image) (n : Nat) : BitVec 8 :=
  (m.declList.findSome? fun d => match d with
    | .policy p a b => if a ≤ n ∧ n ≤ b then some p else none
    | _ => none).getD 0

/-- Firing latency by opcode (Table 5.7); nodes marked "not fixed" leave one cycle after they fire at the earliest. -/
def latency (op : Nat) (n : NodeRec) : Nat :=
  if op = 2 ∨ op = 3 ∨ op = 4 then 3
  else if op = 0x83 ∨ op = 0x84 then 4
  else if op = 0x8C then (if n.mod.getLsbD 0 then 1 else field n.lit 8 0)
  else if op / 64 = 3 then 4
  else if op = 0x100 then 12
  else if op = 0x145 then 10
  else if op / 64 = 4 ∨ op / 64 = 5 then 2
  else if op = 0x181 ∨ op = 0x182 ∨ op = 0x183 then 8
  else 1

/-! ### Where the nodes of an instance stand -/

/-- The tiles of a unit's mask, in region order (R299). -/
def maskTiles (r : Region) (b : Bif) : List Nat := ((List.range r.size).filter fun t => b.mask.getLsbD t).map r.tileKey

/-- Tiles of one copy of a unit, in the order of the unit's own. -/
def copyTiles (r : Region) (b : Bif) (bslot id : Nat) : List Nat :=
  match r.replicas.find? fun x => decide (x.bslot = bslot ∧ x.id = id) with
  | some x => x.places.map r.placeKey
  | none => maskTiles r b

/-- Tiles of the copy of a unit that a tile belongs to. -/
def instTiles (r : Region) (b : Bif) (tile : Nat) : List Nat :=
  match r.replicas.find? fun x => x.places.any fun p => decide (r.placeKey p = tile) with
  | some x => x.places.map r.placeKey
  | none => maskTiles r b

/-- The copies of a unit, by number. -/
def Region.copies (r : Region) (bslot : Nat) : List Nat := 0 :: (r.replicas.filter fun x => decide (x.bslot = bslot)).map fun x => x.id

/-- Tiles of a unit and of all its copies. -/
def unitTiles (r : Region) (b : Bif) (bslot : Nat) : List Nat := (r.copies bslot).flatMap (copyTiles r b bslot)

/-- Position of a number in a list. -/
def posOf : List Nat → Nat → Option Nat
  | [], _ => none
  | a :: t, x => if a = x then some 0 else (posOf t x).map (· + 1)

/-- The tile of copy `c` of the instance whose own tile is `home`: three distinct tiles where the mask has them (R235). -/
def copyTile (ts : List Nat) (home c : Nat) : Nat :=
  if ts.length < 3 then home
  else match posOf ts home with
    | some p => ts.getD ((p + c) % ts.length) home
    | none => home

/-- The own tile of the instance whose copy `c` stands on a tile. -/
def homeTile (ts : List Nat) (tile c : Nat) : Nat :=
  if ts.length < 3 then tile
  else match posOf ts tile with
    | some p => ts.getD ((p + ts.length - c % ts.length) % ts.length) tile
    | none => tile

/-- The slot of a node of a unit on a tile: (PE, slot). -/
def Tile.findNode (t : Tile) (ctx bslot node copy : Nat) : Option (Nat × Nat) :=
  t.pes.findSome? fun p =>
    (p.2.slots.find? fun e => decide (e.2.ctx = ctx ∧ e.2.bslot = bslot ∧ e.2.node = node ∧ e.2.copy = copy)).map fun e => (p.1, e.1)

/-- The node in a slot. -/
def Tile.inst (t : Tile) (pe slot : Nat) : Option NodeInst := tget (t.pe pe).slots slot

def Tile.putInst (t : Tile) (pe slot : Nat) (n : NodeInst) : Tile := t.putPe pe { t.pe pe with slots := tput (t.pe pe).slots slot n }

/-! ### The site of a firing -/

/-- The firing a step serves, with the tile, region, unit and node it belongs to. -/
structure Site where
  tile : Nat
  idx : Nat
  f : Firing
  key : Nat
  rg : Region
  blk : Bif
  inst : NodeInst
  pol : BitVec 8
  deriving DecidableEq, Repr

/-- The site of the acting firing. -/
def State.site (s : State) : Option Site :=
  match s.actor with
  | .fire tile idx =>
    match (s.tile tile).ready[idx]?, s.regionOf tile with
    | some f, some (k, rg) =>
      match (s.tile tile).inst f.pe f.slot, tget rg.blocks f.bslot with
      | some n, some b => some ⟨tile, idx, f, k, rg, b, n, ((s.tile tile).pe f.pe).policy⟩
      | _, _ => none
    | _, _ => none
  | _ => none

/-- Widths of the block's .iter declaration. -/
def Site.widths (x : Site) : List Nat := x.blk.image.widths

/-- The waiter that stands for this firing. -/
def Site.who (x : Site) : Who := .fire x.tile x.f.id

/-! ### Headers of tokens (Tables 5.4, 5.5) -/

/-- The number of a port (Table 13.3). -/
def portNum (p : Port) : Nat := (Decode.portBits p).toNat

/-- FLAGS (Table 5.5). -/
def Flags.num (f : Flags) : Nat :=
  (if f.last then 128 else 0) + (if f.scaled then 64 else 0) + (if f.mixed then 32 else 0) + (if f.compl then 8 else 0) +
    (if f.tear then 4 else 0) + (if f.permit then 2 else 0)

def Flags.ofNum (n : Nat) : Flags :=
  ⟨n.testBit 7, n.testBit 6, n.testBit 5, n.testBit 3, n.testBit 2, n.testBit 1⟩

/-- Bits of lanes as a number. -/
def laneBits (ls : List Lane) (g : Lane → Bool) : Nat := ls.zipIdx.foldl (fun w p => w + if g p.1 then 2 ^ p.2 else 0) 0

/-- The 160-bit header of a token (Table 5.4). -/
def Token.header (t : Token) : Nat :=
  t.ctx % 4096 * 2 ^ 148 + t.bslot % 8 * 2 ^ 145 + t.node % 128 * 2 ^ 138 + portNum t.port * 2 ^ 136 + t.itag.toNat * 2 ^ 104 +
    (t.loff.zipIdx.foldl (fun w p => w + p.1 % 16 * 2 ^ (4 * p.2)) 0) % 2 ^ 64 * 2 ^ 40 +
    laneBits t.lanes (fun l => l.valid) * 2 ^ 24 + laneBits t.lanes (fun l => l.poison) * 2 ^ 8 + t.flags.num

/-- A token's 84 bytes in a Solry flit: header, then elements (R30, R117). -/
def Token.bytes (t : Token) : List Byte := leBytes 20 t.header ++ t.lanes.flatMap fun l => leBytes 4 l.val.toNat

/-- A token read from 84 bytes. -/
def Token.ofBytes (bs : List Byte) : Token :=
  let h := leNat (bs.take 20)
  let f := fun (hi lo : Nat) => h / 2 ^ lo % 2 ^ (hi + 1 - lo)
  { ctx := f 159 148
    bslot := f 147 145
    node := f 144 138
    port := Decode.portOf (BitVec.ofNat 2 (f 137 136))
    itag := BitVec.ofNat 32 (f 135 104)
    loff := (List.range 16).map fun i => f (43 + 4 * i) (40 + 4 * i)
    flags := Flags.ofNum (f 7 0)
    lanes := (List.range 16).map fun i =>
      ⟨BitVec.ofNat 32 (leNat ((bs.drop (20 + 4 * i)).take 4)), (h / 2 ^ (24 + i)).testBit 0, (h / 2 ^ (8 + i)).testBit 0⟩
    copy := 0 }

/-! ### Sending tokens -/

def State.toChan (s : State) (tile : Nat) (c : ChanTok) : State :=
  let t := s.tile tile
  s.putTile tile { t with chans := t.chans ++ [c] }

/-- The splitter and mergers of a unit. -/
def State.splitOf (s : State) (key bslot : Nat) : Option Split := s.host.splits.find? fun x => decide (x.key = key ∧ x.bslot = bslot)

def State.putSplit (s : State) (x : Split) : State :=
  { s with host := { s.host with splits := s.host.splits.map fun y => if y.key = x.key ∧ y.bslot = x.bslot then x else y } }

/-- A token of a unit's output arc on its way; from a replicated unit by way of the arc's merger (R100). -/
def State.toOut (s : State) (key bslot copy tile : Nat) (c : ChanTok) : State :=
  match s.splitOf key bslot with
  | some x => s.putSplit { x with held := x.held ++ [⟨copy, tile, c⟩] }
  | none => s.toChan tile c

/-- The number of an arc: tile, block slot, node, copy, target field. -/
def arcOf (tile bslot node copy k : Nat) : Nat := (((tile * 8 + bslot) * 128 + node) * 4 + copy) * 2 + k

/-- Hops between two tiles of a partition. -/
def hops (a b : Nat) : Nat :=
  let d := fun (x y : Nat) => (x - y) + (y - x)
  d (a % 16) (b % 16) + d (a / 16 % 8) (b / 16 % 8)

/-- The tile `n` hops from another in a direction 0 +x, 1 -x, 2 +y, 3 -y (Table 13.8). -/
def stepTile (tile dirn n : Nat) : Nat :=
  match dirn with
  | 0 => tile + n
  | 1 => tile - n
  | 2 => tile + 16 * n
  | _ => tile - 16 * n

/-- Cycles between two nodes' places: 1 on one PE, 2 in one tile, hops + 2 otherwise (R131). -/
def travel (t1 p1 t2 p2 : Nat) : Nat := if t1 = t2 then (if p1 = p2 then 1 else 2) else hops t1 t2 + 2

/-- An add to a cairn from a node or a port: an overflow queues its record and the add saturates (Table 8.3). -/
def State.cairnAddBy (s : State) (key c : Nat) (n : Word) (f : FaultRec) : State :=
  if cairnOver (s.cairn.val c) n then (s.cairnAdd c n).faultToken key f else s.cairnAdd c n

/-- The record of a fault at a node (Table 10.1). -/
def Site.faultRec (x : Site) (s : State) (code reason elem : Nat) (emask : BitVec 16) (addr aux0 aux1 : Word) : FaultRec where
  ctx := x.rg.ctx
  part := x.rg.part
  x := x.tile % 16
  y := x.tile / 16 % 8
  rtile := (x.rg.rtile x.tile).getD 0
  bslot := x.f.bslot
  node := x.f.node
  agent := x.f.pe
  cls := codeClass code
  reason := reason
  elem := elem
  code := code
  itag := x.f.itag
  blkid := x.blk.image.hdr.blkid
  seq := 0
  addr := addr
  aux0 := aux0
  aux1 := aux1
  cycle := x.rg.cycle
  ts := s.mem.pts % 2 ^ 48
  emask := emask

/-- Taps of an arc: a LAST token adds 1 to each declared tap's cairn (R197). -/
def State.tapArc (s : State) (key : Nat) (img : Image) (node k : Nat) (tok : Token) (rec_ : FaultRec) : State :=
  if !tok.flags.last || tok.flags.tear then s
  else img.declList.foldl (fun s' d => match d with
    | .tap n t c => if n = node ∧ (if t then k = 1 else k = 0) then s'.cairnAddBy key c 1 rec_ else s'
    | _ => s') s

/-- What one end of an arc is, for sending: source place and copy, its region and unit, its latency. -/
structure Src1 where
  tile : Nat
  pe : Nat
  key : Nat
  rg : Region
  bslot : Nat
  blk : Bif
  node : Nat
  copy : Nat
  lat : Nat
  deriving DecidableEq, Repr

/-- Sends a token to node `m` of the same instance, copy by copy (R131, R235). -/
def State.sendNode (s : State) (q : Src1) (k : Nat) (p : Port) (m : Nat) (tok : Token) : State :=
  let img := q.blk.image
  let ts := instTiles q.rg q.blk q.tile
  let home := homeTile ts q.tile q.copy
  let mine := img.tmrOf q.node
  let theirs := img.tmrOf m
  let ends : List (Nat × Nat) :=
    if theirs.isSome ∧ theirs = mine then [(q.tile, q.copy)]
    else if theirs.isSome then [(copyTile ts home 0, 0), (copyTile ts home 1, 1), (copyTile ts home 2, 2)]
    else [(home, 0)]
  ends.foldl (fun s' e =>
    let pe2 := match (s'.tile e.1).findNode q.rg.ctx q.bslot m e.2 with
      | some (pe2, _) => pe2
      | none => 16
    let tok' := { tok with ctx := q.rg.ctx, bslot := q.bslot, node := m, port := p, copy := if theirs.isSome then e.2 else q.copy }
    let path := travel q.tile q.pe e.1 pe2
    s'.toChan e.1 ⟨tok', arcOf q.tile q.bslot q.node q.copy k, q.lat + path, path, decide (q.tile = e.1), .node⟩) s

/-- Sends a token out by a region port (R133, R282). -/
def State.sendPort (s : State) (q : Src1) (k : Nat) (port : Nat) (tok : Token) : State :=
  let own := q.rg.ownKey q.tile
  let src := arcOf own q.bslot q.node q.copy k
  let out := fun (c : ChanTok) => s.toOut q.key q.bslot (q.rg.copyAt q.tile) own c
  let d := q.blk.image.declList.find? fun d => match d with
    | .port r into _ _ _ _ _ _ => decide (r = port) && !into
    | .timed r _ _ _ _ => decide (r = port)
    | _ => false
  let tok := { tok with ctx := q.rg.ctx, bslot := q.bslot, copy := 0 }
  match d with
  | some (.port _ _ kind sport node p dev blkid) =>
    match kind with
    | 0 => out ⟨tok, src, q.lat + 2, 2, false, .store sport⟩
    | 1 => out ⟨{ tok with node := node, port := p }, src, q.lat + 2, 2, false, .block s.dev.devNum blkid⟩
    | _ => out ⟨{ tok with node := node, port := p }, src, q.lat + 2, 2, false, .block dev blkid⟩
  | some (.timed _ dirn n node p) =>
    s.toChan (stepTile q.tile dirn n) ⟨{ tok with node := node, port := p }, src, q.lat + n + 2, n + 2, true, .node⟩
  | _ => s

/-- Sends a token on target field `k` of a node, if it is wired, with its taps. -/
def State.emit (s : State) (q : Src1) (n : NodeRec) (k : Nat) (tok : Token) (rec_ : FaultRec) : State :=
  let s1 := s.tapArc q.key q.blk.image q.node k tok rec_
  match if k = 0 then n.t0 else n.t1 with
  | .unwired => s
  | .node p m => s1.sendNode q k p m.toNat tok
  | .region r => s1.sendPort q k r.toNat tok

/-- The source end of a site's arcs. -/
def Site.src (x : Site) (lat : Nat) : Src1 := ⟨x.tile, x.f.pe, x.key, x.rg, x.f.bslot, x.blk, x.f.node, x.f.copy, lat⟩

/-! ### Teardown (R130) -/

/-- Ports of a node that take tokens: its matching ports and those that count for teardown. -/
def tokenPorts (i : Instr) (n : NodeRec) (ctl : Bool) : List Port :=
  (if n.lsrc = .token then [Port.left] else []) ++ (if n.rsrc = .token then [Port.right] else []) ++
    (if n.pmode ≠ .always then [Port.pred] else []) ++
    (if ctl then [Port.ctl] else match i with
      | .stx _ => [Port.ctl]
      | _ => [])

/-- Ports on which TEAR begins a node's teardown (R130, R405, R454). -/
def tearPorts (i : Instr) (n : NodeRec) (ctl : Bool) : List Port :=
  match i with
  | .bin n => (if n.lsrc = .token then [Port.left] else [.right]) ++ (if ctl then [.ctl] else [])
  | .mrec _ => [Port.right] ++ (if ctl then [.ctl] else [])
  | _ => tokenPorts i n ctl

/-- Whether a node fires without its held right operand: TRACE, whose ring base may come late (R435). -/
def heldLate : Instr → Bool
  | .trace _ => true
  | _ => false

/-- Ports whose held operand must have come before the node fires (R128). -/
def heldReady (i : Instr) (n : NodeRec) (x : NodeInst) : Bool :=
  (decide (n.lsrc ≠ .held) || x.heldL.isSome) && (decide (n.rsrc ≠ .held) || x.heldR.isSome || heldLate i)

/-- A port whose source is held: TEAR there begins no teardown and closes nothing (R128, R130). -/
def holdsPort (n : NodeRec) (p : Port) : Bool :=
  match p with
  | .left => decide (n.lsrc = .held)
  | .right => decide (n.rsrc = .held)
  | _ => false

/-- Whether a node with no port that counts for teardown has had the one firing of its start: it tears down after that one (R128, R130). -/
def NodeInst.tearReady (i : Instr) (n : NodeRec) (x : NodeInst) : Bool := !(tearPorts i n x.ctlPort).isEmpty || heldReady i n x

/-- Whether a node frees its slot only when TEAR has come back on another port as well: BIN's belay, MREC's fed-back port. -/
def backPort : Instr → Option Port
  | .bin _ => some .right
  | .mrec _ => some .left
  | _ => none

/-- What a node holds between firings that a teardown discards with UNM (R353, R394, R448). -/
def NodeInst.holds (i : Instr) (x : NodeInst) : Bool :=
  match i with
  | .compact _ | .merge _ | .qcvt _ | .ppcmb _ | .ppset _ => !x.buf.isEmpty || !x.buf2.isEmpty || !x.lanes.isEmpty
  | .qmax _ => decide (x.word ≠ 0)
  | _ => false

/-- Frees the slot of a node; the last node of a PE leaves it without policy (R134). -/
def Tile.freeSlot (t : Tile) (pe slot : Nat) : Tile :=
  let p := t.pe pe
  let p' := { p with slots := tdel p.slots slot }
  t.putPe pe (if p'.slots.isEmpty then { p' with policy := 0 } else p')

/-- Whether a firing of a node still stands. -/
def Tile.firingOf (t : Tile) (ctx bslot node copy : Nat) : Bool :=
  t.ready.any fun f => decide (f.ctx = ctx ∧ f.bslot = bslot ∧ f.node = node ∧ f.copy = copy)

/-- Whether a unit still has a heap node on the tile (R219). -/
def Tile.heapNodes (t : Tile) (ctx bslot : Nat) : Bool :=
  t.pes.any fun p => p.2.slots.any fun e => decide (e.2.ctx = ctx ∧ e.2.bslot = bslot) && match nodeRecOf e.2.bits with
    | some (_, c, _) => decide (c.op / 64 = 10)
    | none => false

/-- Frees the slot of a node whose TEAR has left: the delay store entries return (R374), and with the unit's last heap node of the tile its allocation
buffers close (R219). -/
def State.freeNode (s : State) (tile pe slot : Nat) : State :=
  match (s.tile tile).inst pe slot with
  | none => s
  | some x =>
    let t1 := (s.tile tile).freeSlot pe slot
    match nodeRecOf x.bits with
    | some (.delay n, _, _) => s.putTile tile { t1 with delayUsed := t1.delayUsed - field n.lit 8 0 }
    | some (_, c, _) =>
      if c.op / 64 = 10 && !t1.heapNodes x.ctx x.bslot then (List.range 16).foldl (fun s' h => s'.closeBuf (.tile tile) h) (s.putTile tile t1)
      else s.putTile tile t1
    | none => s.putTile tile t1

/-- Slots of a tile whose TEAR leaves in this cycle. -/
def Tile.leavers (t : Tile) : List (Nat × Nat) :=
  t.pes.flatMap fun p => (p.2.slots.filter fun e => decide (e.2.leaving = some 0)).map fun e => (p.1, e.1)

/-- Carries out the teardown of a node whose firings are done: TEAR goes out on every wired target, and when it has left the slot is free (R130); BIN
and MREC keep the slot until TEAR returns (R405, R454). -/
def State.tearDone (s : State) (key : Nat) (rg : Region) (blk : Bif) (tile pe slot : Nat) (i : Instr) (op : Nat) (n : NodeRec) (x : NodeInst) : State :=
  let t := s.tile tile
  if !x.tearing || x.stopped || x.leaving.isSome || t.firingOf x.ctx x.bslot x.node x.copy then s
  else
    let lat := latency op n
    let q : Src1 := ⟨tile, pe, key, rg, x.bslot, blk, x.node, x.copy, lat⟩
    let leave := fun (s' : State) (k : Nat) => s'.putTile tile ((s'.tile tile).putInst pe slot { x with leaving := some k })
    let noRec := rg.faultRec 0 cCairnOverflow 0 x.bslot x.node blk.image.hdr.blkid 0 s.mem.pts
    let tt := Token.tearTok rg.ctx x.bslot x.node .left x.copy
    let sent := s.emit q n 0 tt noRec
    let sent := sent.emit q n 1 tt noRec
    match backPort i with
    | some p =>
      if x.flag then (if x.tear.contains p then leave s 0 else s)
      else if x.tear.contains p then leave sent lat
      else sent.putTile tile ((sent.tile tile).putInst pe slot { x with flag := true })
    | none => leave sent lat

/-- Begins the teardown of a node when TEAR stands on every port that counts and its firings are done: incomplete sets and held elements are discarded, with UNM;
DELAY's tokens leave ahead of the TEAR (R130, R353). -/
def State.tearBegin (s : State) (key : Nat) (tile pe slot : Nat) (i : Instr) (n : NodeRec) (x : NodeInst) : State × NodeInst :=
  if x.tearing || x.stopped || ((tearPorts i n x.ctlPort).any fun p => !x.tear.contains p) || !x.tearReady i n then (s, x)
  else if (s.tile tile).firingOf x.ctx x.bslot x.node x.copy || (match i with
      | .bin _ => !x.buf.isEmpty
      | _ => false) then (s, x)
  else
    let t := s.tile tile
    let p := t.pe pe
    let mine := fun (e : Entry) => decide (e.ctx = x.ctx ∧ e.bslot = x.bslot ∧ e.node = x.node ∧ e.copy = x.copy)
    let unm := p.entries.any mine || x.holds i
    let x' := { x with tearing := true, buf := [], buf2 := [], lanes := [], loffs := [], ctlToks := 0 }
    let s1 := s.putTile tile ((t.putPe pe { p with entries := p.entries.filter fun e => !mine e }).putInst pe slot x')
    (if unm then s1.setFlags key fUNM else s1, x')

/-- A node's teardown carried as far as it can go. -/
def State.tearRun (s : State) (key : Nat) (tile pe slot : Nat) : State :=
  match tget s.regions key, (s.tile tile).inst pe slot with
  | some rg, some x =>
    match nodeRecOf x.bits, tget rg.blocks x.bslot with
    | some (i, c, n), some b =>
      match s.tearBegin key tile pe slot i n x with
      | (s1, x1) => s1.tearDone key rg b tile pe slot i c.op n x1
    | _, _ => s
  | _, _ => s

/-! ### Votes (R235, R236) -/

/-- The TMR group whose node feeds a VOTE's left port. -/
def Image.voteGroup (m : Image) (v : Nat) : Option (Nat × Nat) :=
  m.recs.zipIdx.findSome? fun p => match nodeRecOf p.1 with
    | some (_, _, n) => if n.t0 = .node .left (BitVec.ofNat 7 v) ∨ n.t1 = .node .left (BitVec.ofNat 7 v) then m.tmrOf p.2 else none
    | none => none

/-- Whether copy `c` of a group of an instance has met a fault (R236). -/
def State.copyFaulted (s : State) (rg : Region) (blk : Bif) (bslot home : Nat) (g : Nat × Nat) (c : Nat) : Bool :=
  (s.tile (copyTile (instTiles rg blk home) home c)).pes.any fun p => p.2.slots.any fun e =>
    e.2.stopped && decide (e.2.ctx = rg.ctx ∧ e.2.bslot = bslot ∧ e.2.copy = c ∧ g.1 ≤ e.2.node ∧ e.2.node ≤ g.2)

/-- The teardown of a tile's VOTE nodes: TEAR has come when it has from every copy without a fault. -/
def State.voteCheck (s : State) (key tile : Nat) : State :=
  match tget s.regions key with
  | none => s
  | some rg =>
    let votes := (s.tile tile).pes.flatMap fun p => p.2.slots.filterMap fun e => match nodeRecOf e.2.bits with
      | some (.vote _, _, _) => some (p.1, e.1, e.2)
      | _ => none
    votes.foldl (fun s' v =>
      match tget rg.blocks v.2.2.bslot with
      | none => s'
      | some b =>
        match b.image.voteGroup v.2.2.node with
        | none => s'
        | some g =>
          if (List.range 3).all fun c => v.2.2.loffs.contains c || s'.copyFaulted rg b v.2.2.bslot tile g c then
            (s'.putTile tile ((s'.tile tile).putInst v.1 v.2.1 { v.2.2 with tear := if v.2.2.tear.contains .left then v.2.2.tear else v.2.2.tear ++ [.left] })).tearRun key tile v.1 v.2.1
          else s') s

/-! ### Matching (R126 to R128) -/

/-- Nodes that take each token by itself, in arc order, and do their own matching. -/
def solo : Instr → Bool
  | .merge _ | .compact _ | .qcvt _ | .bin _ | .vote _ | .mrec _ => true
  | .ppset n => n.mod.getLsbD 0
  | .ppcmb _ => true
  | _ => false

/-- The operand of a port in a set of operand tokens. -/
def opAt (ops : List Token) (p : Port) : Option Token := ops.find? fun t => decide (t.port = p)

/-- A firing from a complete operand set. -/
def mkFiring (x : NodeInst) (pe slot : Nat) (itag : BitVec 32) (ops : List Token) (since id : Nat) : Firing :=
  ⟨x.ctx, x.bslot, x.node, x.copy, pe, slot, itag, opAt ops .left, opAt ops .right, opAt ops .pred, opAt ops .ctl,
    .ready, false, [], [], [], 0, [], since, id⟩

def Tile.addReady (t : Tile) (f : Nat → Firing) : Tile := { t with ready := t.ready ++ [f t.nextId], nextId := t.nextId + 1 }

/-- Moves every complete set of a node to its firings, oldest first, once its held ports are loaded. -/
def Tile.complete (t : Tile) (pe slot : Nat) (x : NodeInst) (need : List Port) (held : Bool) : Tile :=
  if !held then t
  else
    let p := t.pe pe
    let full := fun (e : Entry) => decide (e.ctx = x.ctx ∧ e.bslot = x.bslot ∧ e.node = x.node ∧ e.copy = x.copy) &&
      need.all fun q => (opAt e.ops q).isSome
    let done := p.entries.filter full
    let t1 := t.putPe pe { p with entries := p.entries.filter fun e => !full e }
    done.foldl (fun t' e => t'.addReady fun id => mkFiring x pe slot e.itag e.ops e.since id) t1

/-- Matching-store entries of what a node holds between firings: a queued token each, VOTE's copies of one ITAG together, what is being gathered or
counted one (R353, R394). -/
def NodeInst.heldEntries (i : Instr) (x : NodeInst) : Nat :=
  match i with
  | .merge _ | .bin _ | .mrec _ => x.buf.length + x.buf2.length + x.ctlToks
  | .compact _ => if x.lanes.isEmpty then 0 else 1
  | .qcvt _ => x.buf2.length + (if x.buf.isEmpty then 0 else 1) + x.ctlToks
  | .vote _ => ((x.buf ++ x.buf2).map fun t => t.itag).eraseDups.length
  | .ppcmb _ | .ppset _ => (if x.buf.isEmpty then 0 else 1) + x.ctlToks
  | .qmax _ => if x.word = 0 then 0 else 1
  | _ => 0

/-- Whether a token that a node takes by itself completes what the node holds, and so needs no entry of its own (R127). -/
def NodeInst.completes (i : Instr) (x : NodeInst) (tok : Token) : Bool :=
  match i, tok.port with
  | .compact _, .ctl => true
  | .vote _, _ => (x.buf ++ x.buf2).any fun t => decide (t.itag = tok.itag)
  | _, .ctl => false
  | .merge n, p => n.mod.getLsbD 0 && (if p = .left then !x.buf2.isEmpty || x.word.getLsbD 1 else !x.buf.isEmpty || x.word.getLsbD 0)
  | .bin _, p => if p = .left then !x.buf2.isEmpty else !x.buf.isEmpty
  | .mrec _, p => decide (p = .right)
  | .qcvt _, p => decide (p = .left) && !x.buf.isEmpty
  | .compact _, _ => !x.lanes.isEmpty
  | .ppcmb _, _ | .ppset _, _ => !x.buf.isEmpty
  | _, _ => false

/-- Matching-store entries of a node: incomplete sets, complete ones that have not fired (R126), and what it holds between firings. -/
def Tile.entriesOf (t : Tile) (pe : Nat) (n : NodeInst) : Nat :=
  (match nodeRecOf n.bits with
    | some (i, _, _) => n.heldEntries i
    | none => 0) +
  ((t.pe pe).entries.filter fun e => decide (e.ctx = n.ctx ∧ e.bslot = n.bslot ∧ e.node = n.node ∧ e.copy = n.copy)).length +
  (t.ready.filter fun f => decide (f.ctx = n.ctx ∧ f.bslot = n.bslot ∧ f.node = n.node ∧ f.copy = n.copy) && !f.begun).length

/-- Whether a new matching-store entry can be taken by a node: its own, or else a shared one (R127). -/
def Tile.roomFor (t : Tile) (pe : Nat) (x : NodeInst) : Bool :=
  let p := t.pe pe
  decide (t.entriesOf pe x = 0) || decide ((p.slots.map fun e => t.entriesOf pe e.2 - 1).sum < 64 - p.slots.length)

/-- Whether a PUT of a node stalls: then later tokens on its arcs wait in their channels (R143). -/
def Tile.putStalls (t : Tile) (i : Instr) (x : NodeInst) : Bool :=
  match i with
  | .putNode _ => t.ready.any fun f => decide (f.ctx = x.ctx ∧ f.bslot = x.bslot ∧ f.node = x.node ∧ f.copy = x.copy ∧ f.st = .slot)
  | _ => false

/-- A token put into a matching-store entry. -/
def Pe.putOp (p : Pe) (x : NodeInst) (tok : Token) (now : Nat) : Pe :=
  let hit := fun (e : Entry) => decide (e.ctx = x.ctx ∧ e.bslot = x.bslot ∧ e.node = x.node ∧ e.copy = x.copy ∧ e.itag = tok.itag)
  if p.entries.any hit then
    { p with entries := p.entries.map fun e => if hit e then { e with ops := (e.ops.filter fun o => decide (o.port ≠ tok.port)) ++ [tok] } else e }
  else { p with entries := p.entries ++ [⟨x.ctx, x.bslot, x.node, x.copy, tok.itag, [tok], now⟩] }

/-- Whether another token for the same node and given port is due in the tile's channels. -/
def Tile.dueAt (t : Tile) (tok : Token) (p : Port) : Bool :=
  t.chans.any fun c => decide (c.dest = .node ∧ c.left = 0 ∧ c.tok.ctx = tok.ctx ∧ c.tok.bslot = tok.bslot ∧ c.tok.node = tok.node ∧
    c.tok.copy = tok.copy ∧ c.tok.port = p)

/-- Whether a token takes a control token of its node with it, where the control port is wired (R276): those that make a node fire. -/
def gated (i : Instr) (p : Port) : Bool :=
  match i with
  | .compact _ => false
  | .qcvt _ | .vote _ => decide (p = .left)
  | .mrec _ => decide (p = .right)
  | .bin n => if n.lsrc = .token then decide (p = .left) else decide (p = .right)
  | _ => decide (p ≠ .ctl)

/-- Whether a token must wait for a control token; VOTE's is of the same ITAG. -/
def gateWait (i : Instr) (x : NodeInst) (tok : Token) : Bool :=
  x.ctlPort && gated i tok.port &&
  match i with
  | .vote _ => !x.buf2.any fun c => decide (c.itag = tok.itag)
  | _ => decide (x.ctlToks = 0)

/-- A node after a token has taken its control token. -/
def NodeInst.passGate (i : Instr) (x : NodeInst) (tok : Token) : NodeInst :=
  match i with
  | .vote _ => x
  | _ => if x.ctlPort && gated i tok.port then { x with ctlToks := x.ctlToks - 1 } else x

/-- Whether a node that takes each token by itself must leave this one in its channel: its previous token is still being taken; an
ordered MERGE holds one head for each port (R373); a control token of COMPACT and a left token of MERGE go first (R368, R373); QCVT takes a
scale at the start of a block (R392); MREC a row when a fed-back one stands (R405). -/
def Tile.soloWait (t : Tile) (i : Instr) (x : NodeInst) (tok : Token) : Bool :=
  t.firingOf x.ctx x.bslot x.node x.copy || gateWait i x tok ||
  match i with
  | .merge n => if n.mod.getLsbD 0 then !(if tok.port = .left then x.buf.isEmpty else x.buf2.isEmpty)
      else decide (tok.port = .right) && t.dueAt tok .left
  | .compact _ => decide (tok.port = .left) && t.dueAt tok .ctl
  | .qcvt _ => if tok.port = .right then !x.buf2.isEmpty else x.buf2.isEmpty
  | .mrec _ => decide (tok.port = .right) && decide (x.word ≠ 0) && x.buf.isEmpty
  | _ => false

/-- A token taken by a node that does its own matching: a scale, a fed-back row or a control token is kept, any other token makes a firing. -/
def Tile.takeSolo (t0 : Tile) (i : Instr) (pe slot : Nat) (x0 : NodeInst) (tok : Token) (now : Nat) : Tile :=
  let x := x0.passGate i tok
  let t := t0.putInst pe slot x
  match i, tok.port with
  | .compact _, .ctl => t.addReady fun id => mkFiring x pe slot tok.itag [tok] now id
  | .vote _, .ctl => t.putInst pe slot { x with buf2 := x.buf2 ++ [tok] }
  | _, .ctl => t.putInst pe slot { x with ctlToks := x.ctlToks + 1 }
  | .qcvt _, .right => t.putInst pe slot { x with buf2 := [tok] }
  | .mrec _, .left => t.putInst pe slot { x with buf := x.buf ++ [tok] }
  | .mrec _, .right =>
    (t.putInst pe slot { x with buf := x.buf.drop 1, word := 1 }).addReady fun id =>
      mkFiring x pe slot tok.itag ((if x.word = 0 then [] else (x.buf.take 1).map fun a => { a with port := .left }) ++ [tok]) now id
  | _, _ => t.addReady fun id => mkFiring x pe slot tok.itag [tok] now id

/-- A held token taken: sets that waited for it fire, and a node with no token-sourced port fires its once (R128). -/
def Tile.takeHeld (t : Tile) (pe slot : Nat) (x x' : NodeInst) (need : List Port) (i : Instr) (n : NodeRec) (now : Nat) : Tile :=
  let t1 := (t.putInst pe slot x').complete pe slot x' need (heldReady i n x')
  if need.isEmpty && heldReady i n x' && !heldReady i n x then t1.addReady fun id => mkFiring x' pe slot 0 [] now id else t1

/-- What the arrival of a token at a mapped node does; none where the token must wait in its channel. -/
def State.deliver (s : State) (tile pe slot : Nat) (x : NodeInst) (tok : Token) : Option State :=
  match nodeRecOf x.bits with
  | none => none
  | some (i, _, n) =>
    let t := s.tile tile
    let need := tokenPorts i n x.ctlPort
    match tget s.regions ((s.regionOf tile).elim 0 fun e => e.1) with
    | none => none
    | some _ =>
      let key := (s.regionOf tile).elim 0 fun e => e.1
      if tok.flags.tear && (match i with
          | .vote _ => decide (tok.port = .left)
          | _ => false) then
        some ((s.putTile tile (t.putInst pe slot { x with loffs := x.loffs ++ [tok.copy] })).voteCheck key tile)
      else if tok.flags.tear && holdsPort n tok.port then some s
      else if tok.flags.tear then
        some ((s.putTile tile (t.putInst pe slot { x with tear := if x.tear.contains tok.port then x.tear else x.tear ++ [tok.port] })).tearRun key tile pe slot)
      else if x.stopped then none
      else if x.tearing then some s
      else if solo i then
        if t.soloWait i x tok || (!x.completes i tok && !t.roomFor pe x) then none else some (s.putTile tile (t.takeSolo i pe slot x tok s.now))
      else if holdsPort n tok.port && decide (tok.port = .left) then
        some (s.putTile tile (t.takeHeld pe slot x { x with heldL := some tok } need i n s.now))
      else if holdsPort n tok.port then
        some (s.putTile tile (t.takeHeld pe slot x { x with heldR := some tok } need i n s.now))
      else
        let p := t.pe pe
        let hit := p.entries.any fun e => decide (e.ctx = x.ctx ∧ e.bslot = x.bslot ∧ e.node = x.node ∧ e.copy = x.copy ∧ e.itag = tok.itag)
        if (!hit && !t.roomFor pe x) || t.putStalls i x then none
        else some (s.putTile tile ((t.putPe pe (p.putOp x tok s.now)).complete pe slot x need (heldReady i n x)))

/-! ### Ends of firings -/

/-- The region's and the PE's sticky flags (R113); the MPE, number 17, sets EXSUM alone (R262). -/
def State.fireFlags (s : State) (key tile pe : Nat) (fl : BitVec 10) : State :=
  if fl = 0 then s
  else if pe = 17 then s.setFlags key fl
  else
    let t := s.tile tile
    (s.setFlags key fl).putTile tile (t.putPe pe { t.pe pe with sticky := (t.pe pe).sticky ||| fl })

/-- Bucket of a wait (R237). -/
def bucket (d : Nat) : Nat :=
  if d < 4 then 0 else if d < 16 then 1 else if d < 64 then 2 else if d < 256 then 3 else if d < 1024 then 4 else if d < 4096 then 5 else if d < 16384 then 6 else 7

/-- A count added to a node's wait histogram, saturating (R237). -/
def NodeInst.count (x : NodeInst) (d : Nat) : NodeInst :=
  let h := if x.hist.isEmpty then List.replicate 8 0 else x.hist
  { x with hist := lput h (bucket d) (min (h.getD (bucket d) 0 + 1) 65535) }

/-- A firing slot dealt to a node, whether it can use it or not (R98). -/
def Pe.deal (p : Pe) (slot : Nat) : Pe := { p with dealt := tput p.dealt slot (tgetD p.dealt slot 0 + 1) }

/-- A firing's start: input latches, histogram, the PE's slot of this cycle (R115, R237). -/
def State.fireStart (s : State) (x : Site) : State :=
  let t := s.tile x.tile
  let p := t.pe x.f.pe
  let t1 := t.putPe x.f.pe { (p.deal x.f.slot) with
    lastFire := s.now + 1
    history := (⟨x.f.node, x.f.itag, [x.f.l, x.f.r, x.f.p, x.f.c].filterMap fun o => o⟩ :: p.history).take 4 }
  match t1.inst x.f.pe x.f.slot with
  | some n => s.putTile x.tile (if s.featenN.testBit 17 then t1.putInst x.f.pe x.f.slot (n.count (s.now - x.f.since)) else t1)
  | none => s.putTile x.tile t1

/-- A firing ends: it leaves the tile's list, and a teardown that waited for it goes on. -/
def State.fireEnd (s : State) (x : Site) : State :=
  let t := s.tile x.tile
  let s1 := s.putTile x.tile { t with ready := t.ready.filter fun f => decide (f.id ≠ x.f.id) }
  s1.tearRun x.key x.tile x.f.pe x.f.slot

/-- Changes the acting firing in place. -/
def State.putFiring (s : State) (x : Site) (f : Firing) : State :=
  let t := s.tile x.tile
  s.putTile x.tile { t with ready := t.ready.map fun g => if g.id = f.id then f else g }

/-- A slot dealt to a node that could not use it. -/
def State.passSlot (s : State) (x : Site) : State := s.putTile x.tile ((s.tile x.tile).putPe x.f.pe (((s.tile x.tile).pe x.f.pe).deal x.f.slot))

/-- Whether a firing stands in its tile as begun, or as waiting on a cairn. -/
def State.firingBegun (s : State) (x : Site) : Bool := (s.tile x.tile).ready.any fun f => decide (f.id = x.f.id) && (f.begun || decide (f.st = .cairn))

/-- A firing that starts keeps what its node's held ports hold (R128). -/
def State.holdOps (s : State) (x : Site) (n : NodeRec) : State :=
  let t := s.tile x.tile
  let keep := fun (f : Firing) => if f.id = x.f.id then
    { f with l := if n.lsrc = .held then x.inst.heldL else f.l, r := if n.rsrc = .held then x.inst.heldR else f.r } else f
  s.putTile x.tile { t with ready := t.ready.map keep }

/-- The start of a firing that its first turn leaves standing. -/
def State.began (s : State) (x : Site) (n : NodeRec) : State := if x.f.begun then s else (s.fireStart x).holdOps x n

def State.putInst (s : State) (x : Site) (n : NodeInst) : State := s.putTile x.tile ((s.tile x.tile).putInst x.f.pe x.f.slot n)

/-- The mergers of a replicated unit wait at the ITAG of a fault (R101). -/
def State.holdBack (s : State) (x : Site) : State :=
  match s.splitOf x.key x.f.bslot with
  | some y => s.putSplit { y with lost := y.lost ++ [(x.rg.copyAt x.tile, x.f.itag.toNat)] }
  | none => s

/-- A fault of a node (R224, R226): FAULT token; a class-00 fault stops the node and its firing ends without a token; a minor fault waits
for the SCC with what the firing has done so far kept (R175), a major one for its resume (R176). -/
def State.nodeFault (s : State) (x : Site) (f : FaultRec) : State :=
  let s1 := s.faultToken x.key f
  let setSt := fun (st : FireSt) (s' : State) =>
    let t := s'.tile x.tile
    s'.putTile x.tile { t with ready := t.ready.map fun g => if g.id = x.f.id then { g with st := st } else g }
  match codeClass f.code with
  | 3 => s1
  | 1 => setSt .minor s1
  | 2 => setSt .major s1
  | _ =>
    let t := s1.tile x.tile
    let t1 := match t.inst x.f.pe x.f.slot with
      | some n => t.putInst x.f.pe x.f.slot { n with stopped := true }
      | none => t
    let s2 := (s1.putTile x.tile { t1 with ready := t1.ready.filter fun g => decide (g.id ≠ x.f.id) }).holdBack x
    if (x.blk.image.tmrOf x.f.node).isSome then s2.voteCheck x.key (homeTile (instTiles x.rg x.blk x.tile) x.tile x.f.copy) else s2

end Sys2Proof.Machine
end

