-- ==== Sys2Proof/Machine/Float.lean ====
section
/-! DEFINITION. Floating point: formats, exact values, one rounding, policy, NaN results, conversions (R247 to R261), exact sums (R262). -/

namespace Sys2Proof.Machine

/-! ### Formats (R247, R248) -/

/-- Mantissa bits of a floating format (Table 12.1). -/
def fpM : Fmt → Nat
  | .f16 => 10 | .bf16 => 7 | .e4m3 => 3 | .e5m2 => 2 | _ => 23

/-- Exponent bits. -/
def fpE : Fmt → Nat
  | .f16 => 5 | .bf16 => 8 | .e4m3 => 4 | .e5m2 => 5 | _ => 8

def fpBias (f : Fmt) : Nat := 2 ^ (fpE f - 1) - 1

/-- Exponent of the smallest normal. -/
def fpEmin (f : Fmt) : Int := 1 - (fpBias f : Int)

/-- Encoding of the largest finite value, without sign (Table 12.1). -/
def fpMax : Fmt → Nat
  | .f16 => 0x7BFF | .bf16 => 0x7F7F | .e4m3 => 0x7E | .e5m2 => 0x7B | _ => 0x7F7FFFFF

/-- Encoding of +∞; E4M3 has none and this is its NaN (R248). -/
def fpInf : Fmt → Nat
  | .f16 => 0x7C00 | .bf16 => 0x7F80 | .e4m3 => 0x7F | .e5m2 => 0x7C | _ => 0x7F800000

/-- Canonical quiet NaN (Table 12.1). -/
def fpNan : Fmt → Nat
  | .f16 => 0x7E00 | .bf16 => 0x7FC0 | .e4m3 => 0x7F | .e5m2 => 0x7E | _ => 0x7FC00000

/-- The sign bit of a format. -/
def fpSign (f : Fmt) (neg : Bool) : Nat := if neg then 2 ^ (fpM f + fpE f) else 0

/-- A floating value widened (R249): a NaN as FP32 bits, ±∞, or ±m × 2^e exactly. -/
inductive Fv where
  | nan (b : Nat)
  | inf (neg : Bool)
  | fin (neg : Bool) (m : Nat) (e : Int)
  deriving DecidableEq, Repr

/-- Reads an encoding (R247 to R249). -/
def fvOf (f : Fmt) (x : Nat) : Fv :=
  let mb := fpM f
  let neg := x / 2 ^ (mb + fpE f) % 2 == 1
  let xe := x / 2 ^ mb % 2 ^ fpE f
  let m := x % 2 ^ mb
  if f = .e4m3 then
    if xe = 15 ∧ m = 7 then .nan (fpSign .f32 neg + 0x7FC00000)
    else if xe = 0 then .fin neg m (-9) else .fin neg (m + 8) ((xe : Int) - 10)
  else if xe = 2 ^ fpE f - 1 then
    if m = 0 then .inf neg else .nan (fpSign .f32 neg + 0x7F800000 + m * 2 ^ (23 - mb))
  else if xe = 0 then .fin neg m (fpEmin f - mb)
  else .fin neg (m + 2 ^ mb) ((xe : Int) - fpBias f - mb)

def Fv.isNan : Fv → Bool
  | .nan _ => true
  | _ => false

/-- A signalling NaN (R248). -/
def Fv.isSnan : Fv → Bool
  | .nan b => b / 2 ^ 22 % 2 == 0
  | _ => false

def Fv.isInf : Fv → Bool
  | .inf _ => true
  | _ => false

def Fv.finite : Fv → Bool
  | .fin .. => true
  | _ => false

def Fv.neg : Fv → Bool
  | .nan b => b / 2 ^ 31 % 2 == 1
  | .inf n => n
  | .fin n _ _ => n

def Fv.isZero : Fv → Bool
  | .fin _ 0 _ => true
  | _ => false

/-- The opposite value. -/
def Fv.negate : Fv → Fv
  | .nan b => .nan b
  | .inf n => .inf !n
  | .fin n m e => .fin (!n) m e

/-- FZI on an operand in FP32 (R260). -/
def Fv.flush : Fv → Fv
  | .fin n m e => if m ≠ 0 ∧ (Nat.log2 m : Int) + e < -126 then .fin n 0 0 else .fin n m e
  | v => v

/-- m × 2^k for k of either sign, k clipped where the caller has excluded it. -/
def shl (m : Nat) (k : Int) : Nat := m * 2 ^ k.toNat

/-- Order of two finite values: -1, 0, 1; -0 equals +0. -/
def finCmp (n1 : Bool) (m1 : Nat) (e1 : Int) (n2 : Bool) (m2 : Nat) (e2 : Int) : Int :=
  let lo := min e1 e2
  let a : Int := (if n1 then -1 else 1) * (shl m1 (e1 - lo) : Int)
  let b : Int := (if n2 then -1 else 1) * (shl m2 (e2 - lo) : Int)
  if a < b then -1 else if a = b then 0 else 1

/-- Order of two values that are no NaN. -/
def Fv.cmp (x y : Fv) : Int :=
  match x, y with
  | .inf a, .inf b => if a = b then 0 else if a then -1 else 1
  | .inf a, _ => if a then -1 else 1
  | _, .inf b => if b then 1 else -1
  | .fin n1 m1 e1, .fin n2 m2 e2 => finCmp n1 m1 e1 n2 m2 e2
  | _, _ => 0

/-! ### Exact results -/

/-- The exact result of an operation, or an IEEE special value: ±(n / d) × 2^e. -/
inductive Ey where
  | nan (invalid : Bool)
  | inf (neg : Bool)
  | num (neg : Bool) (n d : Nat) (e : Int)
  deriving DecidableEq, Repr

/-- A value as the result of the identity. -/
def Fv.ey : Fv → Ey
  | .nan b => .nan (Fv.isSnan (.nan b))
  | .inf n => .inf n
  | .fin n m e => .num n m 1 e

/-- Rounding modes of RND: 0 nearest even, 1 toward zero, 2 up, 3 down (Table 5.8). Signed dyadic m × 2^e as a result; an exact zero is -0 only under 3. -/
def eyOfInt (m : Int) (e : Int) (mode : Nat) : Ey := .num (if m = 0 then decide (mode = 3) else decide (m < 0)) m.natAbs 1 e

/-- The signed integer of a finite value over 2^lo. -/
def finInt (n : Bool) (m : Nat) (e lo : Int) : Int := (if n then -1 else 1) * (shl m (e - lo) : Int)

/-- Exact sum (IEEE 754 signs of zero). -/
def fvAdd (x y : Fv) (mode : Nat) : Ey :=
  match x, y with
  | .nan a, .nan b => .nan (Fv.isSnan (.nan a) || Fv.isSnan (.nan b))
  | .nan a, _ => .nan (Fv.isSnan (.nan a))
  | _, .nan b => .nan (Fv.isSnan (.nan b))
  | .inf a, .inf b => if a = b then .inf a else .nan true
  | .inf a, _ => .inf a
  | _, .inf b => .inf b
  | .fin n1 m1 e1, .fin n2 m2 e2 =>
    if m1 = 0 ∧ m2 = 0 then .num (if n1 = n2 then n1 else decide (mode = 3)) 0 1 0
    else
      let lo := min e1 e2
      eyOfInt (finInt n1 m1 e1 lo + finInt n2 m2 e2 lo) lo mode

/-- Exact product. -/
def fvMul (x y : Fv) : Ey :=
  match x, y with
  | .nan a, .nan b => .nan (Fv.isSnan (.nan a) || Fv.isSnan (.nan b))
  | .nan a, _ => .nan (Fv.isSnan (.nan a))
  | _, .nan b => .nan (Fv.isSnan (.nan b))
  | .inf a, .inf b => .inf (a != b)
  | .inf a, .fin n m _ => if m = 0 then .nan true else .inf (a != n)
  | .fin n m _, .inf b => if m = 0 then .nan true else .inf (n != b)
  | .fin n1 m1 e1, .fin n2 m2 e2 => .num (n1 != n2) (m1 * m2) 1 (e1 + e2)

/-- Exact product plus addend; ∞ × 0 is invalid whatever the addend (R380). -/
def fvFma (x y w : Fv) (mode : Nat) : Ey :=
  match fvMul x y with
  | .nan i => .nan (i || w.isSnan)
  | .inf a =>
    match w with
    | .nan b => .nan (Fv.isSnan (.nan b))
    | .inf c => if a = c then .inf a else .nan true
    | _ => .inf a
  | .num n m _ e => fvAdd (.fin n m e) w mode

/-- Exact quotient. -/
def fvDiv (x y : Fv) : Ey :=
  match x, y with
  | .nan a, .nan b => .nan (Fv.isSnan (.nan a) || Fv.isSnan (.nan b))
  | .nan a, _ => .nan (Fv.isSnan (.nan a))
  | _, .nan b => .nan (Fv.isSnan (.nan b))
  | .inf _, .inf _ => .nan true
  | .inf a, .fin n _ _ => .inf (a != n)
  | .fin n _ _, .inf b => .num (n != b) 0 1 0
  | .fin n1 m1 e1, .fin n2 m2 e2 =>
    if m2 = 0 then (if m1 = 0 then .nan true else .inf (n1 != n2)) else .num (n1 != n2) m1 m2 (e1 - e2)

/-! ### Rounding (R254, R255) -/

/-- floor(log2 (n / d)) for n, d above 0. -/
def floorLog2 (n d : Nat) : Int :=
  let t : Int := (Nat.log2 n : Int) - Nat.log2 d
  if shl d t ≤ shl n (-t) then t else t - 1

/-- Quotient rounded in a mode: q with remainder r of d. -/
def roundQ (mode : Nat) (neg : Bool) (q r d : Nat) : Nat :=
  match mode with
  | 0 => if d < 2 * r ∨ (d = 2 * r ∧ q % 2 = 1) then q + 1 else q
  | 1 => q
  | 2 => if r ≠ 0 ∧ !neg then q + 1 else q
  | _ => if r ≠ 0 ∧ neg then q + 1 else q

/-- The outcome of rounding a non-zero magnitude to a format: encoding without sign, or overflow; inexact; tiny before rounding. -/
structure Rnd where
  ovf : Bool
  bits : Nat
  inexact : Bool
  tiny : Bool
  deriving DecidableEq, Repr

/-- Encoding of m × 2^e, m below 2^(M+1), e at or above the subnormal quantum. -/
def fpPack (f : Fmt) (m : Nat) (e : Int) : Nat :=
  if m < 2 ^ fpM f then m else (e + fpM f + fpBias f).toNat * 2 ^ fpM f + (m - 2 ^ fpM f)

/-- Rounds (n / d) × 2^e to a format, n and d above 0. -/
def fpRound (f : Fmt) (mode : Nat) (neg : Bool) (n d : Nat) (e : Int) : Rnd :=
  let k := floorLog2 n d + e
  let emin := fpEmin f
  if 140 < k then ⟨true, 0, true, false⟩
  else
    let q0 := if k < emin - 40 then emin - fpM f else max (k - fpM f) (emin - fpM f)
    let tiny := decide (k < emin)
    if k < emin - 40 then ⟨false, roundQ mode neg 0 1 4, true, tiny⟩
    else
      let num := shl n (e - q0)
      let den := shl d (q0 - e)
      let q := num / den
      let r := num % den
      let m := roundQ mode neg q r den
      let (m, q1) := if m = 2 ^ (fpM f + 1) then (2 ^ fpM f, q0 + 1) else (m, q0)
      let bits := fpPack f m q1
      ⟨decide (fpMax f < bits), bits, decide (r ≠ 0), tiny⟩

/-- What IEEE 754 gives on overflow (R255). -/
def fpOverflow (f : Fmt) (mode : Nat) (neg : Bool) : Nat :=
  if mode = 1 ∨ (mode = 2 ∧ neg) ∨ (mode = 3 ∧ !neg) then fpMax f else fpInf f

/-! ### Policy (R257 to R261) -/

def polRnd (p : BitVec 8) : Nat := field p 7 6
def polPsn (p : BitVec 8) : Bool := bitAt p 5
def polSat (p : BitVec 8) : Bool := bitAt p 4
def polNanm (p : BitVec 8) : Nat := field p 3 2
def polFzo (p : BitVec 8) : Bool := bitAt p 1
def polFzi (p : BitVec 8) : Bool := bitAt p 0

/-- A value's result: bits, flags set, poison that policy adds. -/
structure VRes where
  bits : Nat
  flags : BitVec 10
  psn : Bool
  deriving DecidableEq, Repr

/-- A NaN narrowed: sign, quiet bit, top payload; E4M3 has one NaN for each sign (R249). -/
def nanNarrow (f : Fmt) (b : Nat) : Nat :=
  let neg := b / 2 ^ 31 % 2 == 1
  if f = .e4m3 then fpSign f neg + 0x7F
  else fpSign f neg + fpInf f + ((b % 2 ^ 23) ||| 2 ^ 22) / 2 ^ (23 - fpM f)

/-- nan_result (R259): the operands in order left, right, third. -/
def nanResult (f : Fmt) (p : BitVec 8) (ops : List Fv) : Nat :=
  if polNanm p = 1 then
    match ops.find? Fv.isNan with
    | some (.nan b) => nanNarrow f b
    | _ => fpNan f
  else fpNan f

/-- The operands as the arithmetic receives them (R257, R260). -/
def polIn (p : BitVec 8) (x : Fv) : Fv := if polFzi p then x.flush else x

/-- A subnormal encoding. -/
def fpIsSub (f : Fmt) (b : Nat) : Bool := decide (b % 2 ^ fpM f ≠ 0) && decide (b / 2 ^ fpM f % 2 ^ fpE f = 0)

/-- ±∞ or a NaN by its encoding. -/
def fpNonFinite (f : Fmt) (b : Nat) : Bool := !(fvOf f b).finite

/-- The policy of R257 on an exact result; `ops` the operands after FZI. -/
def policy (f : Fmt) (p : BitVec 8) (mode : Nat) (ops : List Fv) (y : Ey) : VRes :=
  let psn0 := polPsn p && ops.any fun o => !o.finite
  let snan := if ops.any Fv.isSnan then fNV else 0
  match y with
  | .nan inv => ⟨nanResult f p ops, snan ||| (if inv then fNV else 0), psn0 || polPsn p || decide (polNanm p = 2)⟩
  | .inf neg =>
    if polSat p then ⟨fpSign f neg + fpMax f, snan ||| fSAT, psn0 || polPsn p⟩
    else ⟨fpSign f neg + fpInf f, snan ||| (if f = .e4m3 then fNV else 0), psn0 || polPsn p || (decide (f = .e4m3) && decide (polNanm p = 2))⟩
  | .num neg n d e =>
    if n = 0 then ⟨fpSign f neg, snan, psn0⟩
    else
      let r := fpRound f mode neg n d e
      if r.ovf then
        if polSat p then ⟨fpSign f neg + fpMax f, snan ||| fSAT ||| fNX, psn0⟩
        else
          let z := fpOverflow f mode neg
          let bad := fpNonFinite f z
          ⟨fpSign f neg + z, snan ||| fOF ||| fNX, psn0 || (polPsn p && bad) || (decide (polNanm p = 2) && (fvOf f z).isNan)⟩
      else
        let fl := snan ||| (if r.inexact then fNX else 0) ||| (if r.inexact && r.tiny then fUF else 0)
        if polFzo p && fpIsSub f r.bits then ⟨fpSign f neg, fl ||| fUF ||| fNX, psn0⟩ else ⟨fpSign f neg + r.bits, fl, psn0⟩

/-- Rounds an exact value to an integer in a mode; the integer and whether it is inexact. -/
def roundInt (mode : Nat) (neg : Bool) (n d : Nat) (e : Int) : Int × Bool :=
  let k := if n = 0 then (0 : Int) else floorLog2 n d + e
  if 200 < k then ((if neg then -1 else 1) * (2 ^ 200 : Int), false)
  else if k < -8 then ((if neg then -1 else 1) * (roundQ mode neg 0 (if n = 0 then 0 else 1) 4 : Int), decide (n ≠ 0))
  else
    let num := shl n e
    let den := shl d (-e)
    ((if neg then -1 else 1) * (roundQ mode neg (num / den) (num % den) den : Int), decide (num % den ≠ 0))

/-- Least and greatest value of an integer format. -/
def intMin (f : Fmt) : Int := match f with
  | .i8 => -(2 ^ 7) | .i16 => -(2 ^ 15) | .i32 => -(2 ^ 31) | .i64 => -(2 ^ 63) | _ => 0
def intMax (f : Fmt) : Int := match f with
  | .i8 => 2 ^ 7 - 1 | .i16 => 2 ^ 15 - 1 | .i32 => 2 ^ 31 - 1 | .i64 => 2 ^ 63 - 1
  | .n8 => 2 ^ 8 - 1 | .n16 => 2 ^ 16 - 1 | .n32 => 2 ^ 32 - 1 | .n64 => 2 ^ 64 - 1 | _ => 0

/-- Whether a format is read signed. -/
def fmtSigned : Fmt → Bool
  | .i8 | .i16 | .i32 | .i64 => true
  | _ => false

/-- A value converted to an integer target (R257, R258, Table 12.3). -/
def toInt (f : Fmt) (p : BitVec 8) (mode : Nat) (x : Fv) : VRes :=
  let w := Rules.fmtWidth f
  let psn0 := polPsn p && !x.finite
  let bad : Nat := if fmtSigned f then wrapN w (intMin f) else wrapN w (intMax f)
  match x with
  | .nan _ =>
    if polSat p then ⟨0, fNV, psn0 || decide (polNanm p = 2)⟩ else ⟨bad, fNV, psn0 || decide (polNanm p = 2)⟩
  | .inf neg =>
    if polSat p then ⟨wrapN w (if neg then intMin f else intMax f), fSAT ||| fNX, psn0⟩ else ⟨bad, fNV, psn0⟩
  | .fin neg m e =>
    let (v, ix) := roundInt mode neg m 1 e
    if v < intMin f ∨ intMax f < v then
      if polSat p then ⟨wrapN w (clampI v (intMin f) (intMax f)), fSAT ||| fNX, psn0⟩ else ⟨bad, fNV, psn0⟩
    else ⟨wrapN w v, if ix then fNX else 0, psn0⟩

/-- An exact dyadic rounded to FP32 nearest even, flags of R254; an overflow is ±∞ with OF and NX. -/
def roundF32 (y : Ey) : VRes := policy .f32 0 0 [] y

/-! ### Exact dyadics and the matrix row sum (R262) -/

/-- A signed dyadic m × 2^e. -/
structure Dy where
  m : Int
  e : Int
  deriving DecidableEq, Repr

def Dy.add (x y : Dy) : Dy :=
  if x.m = 0 then y else if y.m = 0 then x
  else
    let lo := min x.e y.e
    ⟨x.m * 2 ^ (x.e - lo).toNat + y.m * 2 ^ (y.e - lo).toNat, lo⟩

def Dy.mul (x y : Dy) : Dy := ⟨x.m * y.m, x.e + y.e⟩

def Fv.dy : Fv → Dy
  | .fin n m e => ⟨if n then -(m : Int) else m, e⟩
  | _ => ⟨0, 0⟩

/-- floor(log2 |x|) of a non-zero dyadic. -/
def Dy.log2 (x : Dy) : Int := (Nat.log2 x.m.natAbs : Int) + x.e

def Dy.ey (x : Dy) : Ey := .num (decide (x.m < 0)) x.m.natAbs 1 x.e

/-- Truncation toward zero to a multiple of 2^q. -/
def Dy.trunc (x : Dy) (q : Int) : Int :=
  if q ≤ x.e then x.m * 2 ^ (x.e - q).toNat else Int.tdiv x.m (2 ^ (q - x.e).toNat : Nat)

/-- One output element of a matrix row firing (R262, R403): pairs of valid A and B values, accumulator. Bits and flags. -/
def matrixRowSum (ps : List (Fv × Fv)) (acc : Fv) : Nat × BitVec 10 :=
  let prods := ps.map fun p => fvMul p.1 p.2
  let special := prods.any (fun y => match y with
    | .num .. => false
    | _ => true) || !acc.finite
  if special then
    let inv := prods.any fun y => match y with
      | .nan i => i
      | _ => false
    let nan := prods.any fun y => match y with
      | .nan _ => true
      | _ => false
    let pos := prods.any (fun y => decide (y = .inf false)) || decide (acc = .inf false)
    let ngt := prods.any (fun y => decide (y = .inf true)) || decide (acc = .inf true)
    let fl := if inv || acc.isSnan || (pos && ngt) then fNV else 0
    if nan || acc.isNan || (pos && ngt) then (fpNan .f32, fl) else (fpSign .f32 ngt + fpInf .f32, fl)
  else
    let nz := (ps.map fun p => p.1.dy.mul p.2.dy).filter fun d => decide (d.m ≠ 0)
    match nz with
    | [] =>
      match acc with
      | .fin n m e => if m = 0 then (fpSign .f32 n, 0) else let r := roundF32 (.num n m 1 e); (r.bits, r.flags)
      | _ => (0, 0)
    | d :: ds =>
      let emax := ds.foldl (fun k x => max k x.log2) d.log2
      let q := emax - 40
      let sum := nz.foldl (fun a x => a + x.trunc q) (0 : Int)
      let tot := acc.dy.add ⟨sum, q⟩
      let r := roundF32 (if tot.m = 0 then .num false 0 1 0 else tot.ey)
      (r.bits, r.flags)

end Sys2Proof.Machine
end

