-- ==== Sys2Proof/Machine/Operands.lean ====
section
/-! DEFINITION. Operand forms: operands of a firing, packed and paired values, outputs of a firing (R116, R119, R120, R129, R251, R265, R352);
descriptors of streams, engines and launches (Tables 15.3, 15.7 to 15.9, 3.7); scalar operands and conditions (Table 13.5). -/

namespace Sys2Proof.Machine

/-! ### Values in lanes (R116, R251) -/

/-- Values of width `w` packed in an element, value 0 first; `w` at most 32. -/
def elemVals (w : Nat) (v : Elem) : List Nat := (List.range (32 / w)).map fun k => v.toNat / 2 ^ (w * k) % 2 ^ w

/-- Packs values of width `w`, value 0 in the low bits. -/
def packVals (w : Nat) : List Nat → Nat
  | [] => 0
  | v :: vs => v % 2 ^ w + 2 ^ w * packVals w vs

def toElem (n : Nat) : Elem := BitVec.ofNat 32 n

/-- The lane at an index. -/
def laneAt (ls : List Lane) (i : Nat) : Lane := ls.getD i Lane.off

/-- The 64-bit value of element pair `i`. -/
def pairVal (ls : List Lane) (i : Nat) : Nat := (laneAt ls (2 * i)).val.toNat + 2 ^ 32 * (laneAt ls (2 * i + 1)).val.toNat

/-- Whether pair `i` is valid, and whether it is poisoned (R116). -/
def pairValid (ls : List Lane) (i : Nat) : Bool := (laneAt ls (2 * i)).valid && (laneAt ls (2 * i + 1)).valid
def pairPsn (ls : List Lane) (i : Nat) : Bool := (laneAt ls (2 * i)).poison || (laneAt ls (2 * i + 1)).poison

/-- An element as a node of a format sees it: of a pair, valid when both its elements are, and poisoned when either is (R116, log 13). -/
def unitLane (f : Fmt) (ls : List Lane) (e : Nat) : Lane :=
  if decide (Rules.fmtWidth f = 64) then ⟨(laneAt ls e).val, pairValid ls (e / 2), pairPsn ls (e / 2)⟩ else laneAt ls e

/-- A lane from its parts; an invalid lane has payload 0 and no poison (R117, R120). -/
def mkLane (v : Nat) (valid poison : Bool) : Lane := if valid then ⟨toElem v, true, poison⟩ else Lane.off

/-- The two lanes of a pair. -/
def mkPair (v : Nat) (valid poison : Bool) : List Lane := [mkLane (v % 2 ^ 32) valid poison, mkLane (v / 2 ^ 32) valid poison]

/-- Whether a format takes element pairs. -/
def isPair (f : Fmt) : Bool := decide (Rules.fmtWidth f = 64)

/-- A token's lanes as a node of a format sees them: both elements of a pair carry one VALID bit and one POISON bit (R116), so a pair with one
valid element is an invalid pair (log 13). -/
def pairLanes (f : Fmt) (ls : List Lane) : List Lane :=
  if isPair f then (List.range 16).map fun e => mkLane (laneAt ls e).val.toNat (pairValid ls (e / 2)) (pairPsn ls (e / 2)) else ls

/-- Number of values per element (Table 12.2); 1 for a pair. -/
def perElem (f : Fmt) : Nat := if isPair f then 1 else 32 / Rules.fmtWidth f

/-- The values at one position of each operand, transposed: position k of every list. -/
def column (k : Nat) (xs : List (List Nat)) : List Nat := xs.map fun x => x.getD k 0

/-- One output element or pair from operands' values: results of each packed value. -/
def combine (w : Nat) (rs : List VRes) : Nat × BitVec 10 × Bool :=
  (packVals w (rs.map fun r => r.bits), rs.foldl (fun f r => f ||| r.flags) 0, rs.any fun r => r.psn)

/-- Applies a function of values to each valid element, or pair, of the operands (R120, R241, R251): lanes and flags. `keep` names the elements
the predicate selects; one it does not select comes out invalid (R129) and raises no flag. -/
def mapLanes (f : Fmt) (keep : Nat → Bool) (ops : List (List Lane)) (g : List Nat → VRes) : List Lane × BitVec 10 :=
  if isPair f then
    let rs := (List.range 8).map fun i =>
      let valid := ops.all fun o => pairValid o i
      let r := g (ops.map fun o => pairVal o i)
      (mkPair r.bits valid ((ops.any fun o => pairPsn o i) || r.psn), if valid && keep (2 * i) then r.flags else 0)
    (rs.flatMap fun r => r.1, rs.foldl (fun a r => a ||| r.2) 0)
  else
    let w := Rules.fmtWidth f
    let rs := (List.range 16).map fun i =>
      let valid := ops.all fun o => (laneAt o i).valid
      let vals := ops.map fun o => elemVals w (laneAt o i).val
      let c := combine w ((List.range (32 / w)).map fun k => g (column k vals))
      (mkLane c.1 valid ((ops.any fun o => (laneAt o i).poison) || c.2.2), if valid && keep i then c.2.1 else 0)
    (rs.map fun r => r.1, rs.foldl (fun a r => a ||| r.2) 0)

/-- Every value of a token's lanes by value index (R251). -/
def allVals (f : Fmt) (ls : List Lane) : List Nat :=
  if isPair f then (List.range 8).map fun i => pairVal ls i else (List.range 16).flatMap fun i => elemVals (Rules.fmtWidth f) (laneAt ls i).val

/-- The element, or first element of the pair, that holds a value index. -/
def elemOf (f : Fmt) (j : Nat) : Nat := if isPair f then 2 * j else j / perElem f

/-- Lanes from values by value index, with validity and poison per element or pair. -/
def lanesOf (f : Fmt) (vals : List Nat) (valid poison : Nat → Bool) : List Lane :=
  if isPair f then (List.range 8).flatMap fun i => mkPair (vals.getD i 0) (valid (2 * i)) (poison (2 * i))
  else
    let v := perElem f
    (List.range 16).map fun i => mkLane (packVals (Rules.fmtWidth f) ((vals.drop (v * i)).take v)) (valid i) (poison i)

/-! ### Operands of a firing -/

/-- A literal operand in every element, extended to 64 bits by the format's signedness (R246, R352). -/
def litLanes (f : Fmt) (lit : BitVec 32) : List Lane :=
  if isPair f then
    let hi : Elem := if fmtSigned f && lit.getLsbD 31 then 0xFFFFFFFF else 0
    (List.range 8).flatMap fun _ => [Lane.on lit, Lane.on hi]
  else List.replicate 16 (Lane.on lit)

/-- The operand a source names (Table 13.2): token, literal, held token or zero. -/
def srcLanes (f : Fmt) (src : Src) (tok held : Option Token) (lit : BitVec 32) : List Lane :=
  match src with
  | .token => (tok.map fun t => t.lanes).getD noLanes
  | .held => (held.map fun t => t.lanes).getD noLanes
  | .literal => litLanes f lit
  | .zero => List.replicate 16 (Lane.on 0)

/-- The token of a held port: what the firing found there as it started (R128). -/
def Site.heldL (x : Site) : Option Token := x.f.l.or x.inst.heldL
def Site.heldR (x : Site) : Option Token := x.f.r.or x.inst.heldR

def Site.opA (x : Site) (n : NodeRec) (f : Fmt) : List Lane := srcLanes f n.lsrc x.f.l x.heldL n.lit
def Site.opB (x : Site) (n : NodeRec) (f : Fmt) : List Lane := srcLanes f n.rsrc x.f.r x.heldR n.lit
def Site.opC (x : Site) : List Lane := (x.f.c.map fun t => t.lanes).getD noLanes

/-- The token of a token-sourced or held operand. -/
def srcTok (src : Src) (tok held : Option Token) : List Token :=
  match src with
  | .token => tok.toList
  | .held => held.toList
  | _ => []

/-- Token-sourced and held data operands; `c` where the control port is a data operand (R265, R381, R399). -/
def Site.dataToks (x : Site) (n : NodeRec) (c : Bool) : List Token :=
  srcTok n.lsrc x.f.l x.heldL ++ srcTok n.rsrc x.f.r x.heldR ++ (if c then x.f.c.toList else [])

/-- SCALED of an output (R265). -/
def scaledOf (ts : List Token) : Bool := !ts.isEmpty && ts.all fun t => t.flags.scaled

/-- The left operand's token, if it is one. -/
def Site.left (x : Site) (n : NodeRec) : Option Token := (srcTok n.lsrc x.f.l x.heldL).head?

/-! ### Outputs -/

/-- An output of a firing before predication: header parts and lanes. -/
structure Out where
  itag : BitVec 32
  last : Bool
  compl : Bool
  scaled : Bool
  permit : Bool
  mixed : Bool
  loff : List Nat
  lanes : List Lane
  deriving DecidableEq, Repr

/-- The output header that starts from the left operand (R119, R120, R352). -/
def Site.out (x : Site) (n : NodeRec) (c : Bool) (lanes : List Lane) : Out :=
  match x.left n with
  | some t => ⟨x.f.itag, t.flags.last, t.flags.compl, scaledOf (x.dataToks n c), false, t.flags.mixed, t.loff, lanes⟩
  | none => ⟨x.f.itag, false, false, scaledOf (x.dataToks n c), false, false, noLoff, lanes⟩

/-- MIXED and LOFF cleared, with LAST kept and COMPL clear: the header of conversions with m ≠ 1, matrix and memory nodes. -/
def Out.plain (o : Out) : Out := { o with mixed := false, loff := noLoff }

/-- Whether a token has a valid element. -/
def anyValid (ls : List Lane) : Bool := ls.any fun l => l.valid

/-- The token of an output; a token with no valid element is not MIXED (R119). -/
def Out.tok (o : Out) : Token :=
  let mx := o.mixed && anyValid o.lanes
  ⟨0, 0, 0, .left, o.itag, if mx then o.loff else noLoff, ⟨o.last, o.scaled, mx, o.compl, false, o.permit⟩, o.lanes, 0⟩

/-- Whether predicate element `i` is true (R129); where SEL chooses a pair, its even element (R364). -/
def predAt (p : Option Token) (pair : Bool) (i : Nat) : Bool :=
  match p with
  | some t => let l := laneAt t.lanes (if pair then i / 2 * 2 else i); l.valid && decide (l.val ≠ 0)
  | none => false

/-- POISON of predicate element `i`; where SEL chooses a pair, of its even element (R364). -/
def predPsn (p : Option Token) (pair : Bool) (i : Nat) : Bool :=
  match p with
  | some t => (laneAt t.lanes (if pair then i / 2 * 2 else i)).poison
  | none => false

/-- Whether the predicate gives element `i` the truth `want`. The port is read element by element (R129) and both elements of a pair carry
one VALID bit (R116), so a pair is selected where both of its elements are (DEDUCED, log 12). -/
def predTakes (p : Option Token) (pair want : Bool) (i : Nat) : Bool :=
  if pair then predAt p false (i / 2 * 2) == want && predAt p false (i / 2 * 2 + 1) == want else predAt p false i == want

/-- The POISON a predicate ORs into element `i`; a pair takes that of both elements (R116, R129). -/
def predTaint (p : Option Token) (pair : Bool) (i : Nat) : Bool :=
  if pair then predPsn p false (i / 2 * 2) || predPsn p false (i / 2 * 2 + 1) else predPsn p false i

/-- Whether a node's predicate selects element `e` (R129): one not selected comes out invalid, raises no flag and makes no access. -/
def Site.sel (x : Site) (n : NodeRec) (e : Nat) : Bool :=
  match n.pmode with
  | .ifTrue => predTakes x.f.p (isPair n.fmt) true e
  | .ifFalse => predTakes x.f.p (isPair n.fmt) false e
  | .steer => predTakes x.f.p (isPair n.fmt) true e || predTakes x.f.p (isPair n.fmt) false e
  | .always => true

/-- Whether a predicate selects any element (R424, R434, R239); a node without predicate is selected. -/
def Site.selected (x : Site) (n : NodeRec) : Bool := decide (n.pmode = .steer) || (List.range 16).any (x.sel n)

/-- Lanes selected by a predicate, its poison ORed in (R129). -/
def maskLanes (ls : List Lane) (keep psn : Nat → Bool) : List Lane :=
  ls.zipIdx.map fun p => if p.1.valid && keep p.2 then { p.1 with poison := p.1.poison || psn p.2 } else Lane.off

/-- The tokens of an output under PMODE, with their targets (R129). -/
def Site.sends (x : Site) (n : NodeRec) (o : Out) : List (Nat × Token) :=
  let pair := isPair n.fmt
  let psn := predTaint x.f.p pair
  let yes := predTakes x.f.p pair true
  let no := predTakes x.f.p pair false
  match n.pmode with
  | .always => [(0, o.tok), (1, o.tok)]
  | .ifTrue => let t := { o with lanes := maskLanes o.lanes yes psn }.tok; [(0, t), (1, t)]
  | .ifFalse => let t := { o with lanes := maskLanes o.lanes no psn }.tok; [(0, t), (1, t)]
  | .steer =>
    let a := { o with lanes := maskLanes o.lanes yes psn }.tok
    let b := { o with lanes := maskLanes o.lanes no psn }.tok
    (if anyValid a.lanes || o.last then [(0, a)] else []) ++ (if anyValid b.lanes || o.last then [(1, b)] else [])

/-- Whether any predicate element is true. -/
def Site.anyPred (x : Site) : Bool := (List.range 16).any (predAt x.f.p false)

/-- PSN when a firing produced a poisoned element (R256). -/
def psnFlag (out : List (Nat × Token)) : BitVec 10 := if out.any fun p => p.2.lanes.any fun l => l.poison then fPSN else 0

/-! ### Shells of firings -/

/-- What a firing's turn does: it ends with tokens and flags (each token with its target; or with its target and the cycles it leaves
later), faults, or stands. -/
inductive FireRes where
  | fired (s : State) (out : List (Nat × Token)) (flags : BitVec 10)
  | firedAt (s : State) (out : List (Nat × Nat × Token)) (flags : BitVec 10)
  | fault (s : State) (f : FaultRec)
  | stay (s : State)
  deriving DecidableEq, Repr

/-- A fault record without address of a firing. -/
def Site.rec0 (x : Site) (s : State) (code reason : Nat) : FaultRec := x.faultRec s code reason 0 0 0 0 0

/-- A tap's overflow record. -/
def Site.tapRec (x : Site) (s : State) : FaultRec := x.rec0 s cCairnOverflow 0

/-- Sends tokens in order; the second target of a two-output node leaves `gap` cycles later. -/
def State.sendAll (s : State) (x : Site) (n : NodeRec) (lat gap : Nat) (out : List (Nat × Token)) : State :=
  out.foldl (fun s' p => s'.emit (x.src (lat + if p.1 = 1 then gap else 0)) n p.1 p.2 (x.tapRec s')) s

/-- Carries out the result of a firing's turn. -/
def FireRes.run (r : FireRes) (x : Site) (n : NodeRec) (lat gap : Nat) : State :=
  match r with
  | .fired s1 out fl => ((((s1.began x n).fireFlags x.key x.tile x.f.pe (fl ||| psnFlag out)).sendAll x n lat gap out)).fireEnd x
  | .firedAt s1 out fl =>
    let s2 := (s1.began x n).fireFlags x.key x.tile x.f.pe (fl ||| psnFlag (out.map fun o => (o.1, o.2.2)))
    (out.foldl (fun s' o => s'.emit (x.src (lat + o.2.1)) n o.1 o.2.2 (x.tapRec s')) s2).fireEnd x
  | .fault s1 f => (s1.began x n).nodeFault x f
  | .stay s1 => if x.f.begun then s1 else if s1.firingBegun x then s1.began x n else s1.passSlot x

/-- A node's firing: the meaning of every node record. -/
def fireNode (s : State) (n : NodeRec) (lat gap : Nat) (g : State → Site → FireRes) : Host.Outcome State Fault Refusal :=
  match s.site with
  | none => .fault .noActor
  | some x => .next ((g s x).run x n lat gap)

/-- A firing that is a function of its operands: one output, flags. -/
def firePure (s : State) (n : NodeRec) (op : Nat) (g : Site → Out × BitVec 10) : Host.Outcome State Fault Refusal :=
  fireNode s n (latency op n) 0 fun s x => match g x with
    | (o, fl) => .fired s (x.sends n o) fl

/-- A firing whose lanes are a function of values of the left operand, or of both. -/
def fireMap1 (s : State) (n : NodeRec) (op : Nat) (g : Nat → VRes) : Host.Outcome State Fault Refusal :=
  firePure s n op fun x => match mapLanes n.fmt (x.sel n) [x.opA n n.fmt] fun v => g (v.getD 0 0) with
    | (ls, fl) => (x.out n false ls, fl)

def fireMap2 (s : State) (n : NodeRec) (op : Nat) (g : Nat → Nat → VRes) : Host.Outcome State Fault Refusal :=
  firePure s n op fun x => match mapLanes n.fmt (x.sel n) [x.opA n n.fmt, x.opB n n.fmt] fun v => g (v.getD 0 0) (v.getD 1 0) with
    | (ls, fl) => (x.out n false ls, fl)

/-! ### Scalar operands and conditions (Tables 13.5, 14.1) -/

/-- The second operand of a control record: s[B], or IMM under M.0. -/
def secondOp (r : CtlRec) (s : List Word) : Word := if r.m.getLsbD 0 then r.imm else readS s r.b

/-- The condition CC between two words (Table 13.5). -/
def condHolds (cc : BitVec 3) (a b : Word) : Bool :=
  match cc.toNat with
  | 0 => decide (a = b)
  | 1 => decide (a ≠ b)
  | 2 => decide (a.toInt < b.toInt)
  | 3 => decide (b.toInt ≤ a.toInt)
  | 4 => decide (a.toNat < b.toNat)
  | _ => decide (b.toNat ≤ a.toNat)

/-- Bytes of an access by its width modifier (Table 14.2). -/
def widthBytes (m : BitVec 4) : Nat :=
  match m.toNat with
  | 0 | 4 => 1 | 1 | 5 => 2 | 2 | 6 => 4 | _ => 8

/-- A loaded value extended by its width modifier (Table 14.2). -/
def widthVal (m : BitVec 4) (v : Nat) : Word :=
  match m.toNat with
  | 4 => (BitVec.ofNat 8 v).signExtend 64
  | 5 => (BitVec.ofNat 16 v).signExtend 64
  | 6 => (BitVec.ofNat 32 v).signExtend 64
  | _ => BitVec.ofNat 64 v

/-! ### Stream descriptors (Table 15.3) -/

/-- A stream pattern descriptor's fields. -/
structure Pattern where
  base : Nat
  itag0 : Nat
  blkid : Nat
  rank : Nat
  store : Bool
  fmt : Nat
  tstride : Int
  counts : List Nat
  strides : List Int
  deriving DecidableEq, Repr

/-- A word of a descriptor. -/
def dw (w : List Word) (i : Nat) : Word := w.getD i 0

/-- A signed 32-bit field. -/
def sfield (x : Word) (hi lo : Nat) : Int := signed (hi + 1 - lo) (field x hi lo)

def patternOf (w : List Word) : Pattern where
  base := field (dw w 0) 55 0
  itag0 := field (dw w 1) 63 32
  blkid := field (dw w 1) 23 8
  rank := field (dw w 1) 6 5 + 1
  store := bitAt (dw w 1) 4
  fmt := field (dw w 1) 3 0
  tstride := (dw w 2).toInt
  counts := (List.range 4).map fun d => field (dw w 3) (16 * d + 15) (16 * d) + 1
  strides := [sfield (dw w 4) 31 0, sfield (dw w 4) 63 32, sfield (dw w 5) 31 0, sfield (dw w 5) 63 32]

/-- Bytes of an element. -/
def Pattern.esize (p : Pattern) : Nat := if isPair (Rules.fmtOfCode p.fmt) then 8 else 4

/-- Whether a stream descriptor keeps its layout (R335). -/
def patternOk (w : List Word) : Bool :=
  let p := patternOf w
  decide (field (dw w 0) 63 56 = 0) && decide (field (dw w 1) 31 24 = 0) && bitAt (dw w 1) 7 == false &&
  decide (dw w 6 = 0) && decide (dw w 7 = 0) &&
  ((List.range 4).all fun d => decide (d < p.rank) || (decide (p.counts.getD d 1 = 1) && decide (p.strides.getD d 0 = 0))) &&
  decide (p.base % p.esize = 0) && decide (p.tstride % (p.esize : Int) = 0)

/-- Elements, or pairs, of a full token. -/
def Pattern.per (p : Pattern) : Nat := if p.esize = 8 then 8 else 16

/-- Tokens of one run of the innermost dimension (R336). -/
def Pattern.runToks (p : Pattern) : Nat := (p.counts.getD 0 1 + p.per - 1) / p.per

/-- Tokens of the whole pattern. -/
def Pattern.total (p : Pattern) : Nat := p.runToks * ((p.counts.drop 1).foldl (fun a c => a * c) 1)

/-- Addresses of the elements of token `k` on region tile `t`, exact (R335, R336). -/
def Pattern.addrs (p : Pattern) (t k : Nat) : List Int :=
  let run := k / p.runToks
  let part := k % p.runToks
  let c1 := p.counts.getD 1 1
  let c2 := p.counts.getD 2 1
  let i1 := run % c1
  let i2 := run / c1 % c2
  let i3 := run / c1 / c2
  let n := min p.per (p.counts.getD 0 1 - part * p.per)
  (List.range n).map fun j =>
    (p.base : Int) + p.tstride * t + (p.esize : Int) * (((part * p.per + j : Nat) : Int) * p.strides.getD 0 0 + (i1 : Int) * p.strides.getD 1 0 +
      (i2 : Int) * p.strides.getD 2 0 + (i3 : Int) * p.strides.getD 3 0)

/-! ### Engine descriptors (Tables 15.7 to 15.9) -/

def engKind (w : List Word) : Nat := field (dw w 0) 7 0
def engTv (w : List Word) : Bool := bitAt (dw w 0) 16
def engTtile (w : List Word) : Nat := field (dw w 0) 32 26
def engLen (w : List Word) : Nat := (dw w 3).toNat
def engRow (w : List Word) : Nat := (field (dw w 4) 29 20 + 1) * 64
def engNidx (w : List Word) : Nat := field (dw w 4) 19 0 + 1

/-- Whether rows are moved by an index list. -/
def engRows (w : List Word) : Bool := decide (engKind w = 0x21 ∨ engKind w = 0x22)

/-- Bytes an engine moves in all. -/
def engTotal (w : List Word) : Nat := if engRows w then engNidx w * engRow w else engLen w

def credMembers (w : List Word) : Nat := field (dw w 4) 23 20 + 1
def credRank (w : List Word) : Nat := field (dw w 4) 19 16
def credGroup (w : List Word) : Nat := field (dw w 4) 15 0

/-- Member device `r` of a CRED: 12 bits at 12r of words 5 (low), 6 and 7. -/
def credMember (w : List Word) (r : Nat) : Nat :=
  ((dw w 5).toNat + 2 ^ 64 * (dw w 6).toNat + 2 ^ 128 * (dw w 7).toNat) / 2 ^ (12 * r) % 4096

/-- Whether an engine descriptor keeps its layout; `tiles` the region's tiles, `bound` whether the engine binds to a unit (R334, R342). -/
def engineOk (kind : Nat) (w : List Word) (tiles : Nat) (bound : Bool) : Bool :=
  decide (engKind w = kind) && decide (field (dw w 0) 63 33 = 0) && decide (field (dw w 0) 15 8 = 0) &&
  (!engTv w || (bound && decide (engTtile w < tiles))) &&
  decide (field (dw w 1) 63 56 = 0) && decide (field (dw w 2) 63 56 = 0) &&
  (match kind with
    | 0x20 => decide (1 ≤ engLen w) && decide (engLen w ≤ 2 ^ 32) && decide (dw w 4 = 0) && decide (dw w 5 = 0) && decide (dw w 6 = 0) && decide (dw w 7 = 0)
    | 0x21 | 0x22 => decide (field (dw w 3) 63 56 = 0) && decide (field (dw w 4) 63 31 = 0) && decide (dw w 6 = 0) && decide (dw w 7 = 0)
    | 0x24 | 0x25 => decide (1 ≤ engLen w) && decide (engLen w ≤ 2 ^ 32) && decide (field (dw w 4) 63 33 = 0) && decide (dw w 5 = 0) && decide (dw w 6 = 0) && decide (dw w 7 = 0)
    | _ => decide (64 ≤ engLen w) && decide (engLen w ≤ 2 ^ 28) && decide (engLen w % 64 = 0) && decide (field (dw w 4) 63 32 = 0) &&
        decide (field (dw w 4) 31 28 = 8 ∨ field (dw w 4) 31 28 = 10 ∨ field (dw w 4) 31 28 = 2) && decide (field (dw w 4) 27 24 ≤ 2) &&
        decide (1 ≤ field (dw w 4) 23 20) && decide (credRank w ≤ field (dw w 4) 23 20))

/-! ### Launch descriptors (Table 3.7) -/

/-- Whether a launch descriptor is well formed, its context apart (R68). -/
def launchOk (c : SysCmd) : Bool :=
  decide (field c.w0 7 0 = 1) && Decode.within c.w0 0x7F1FFF#64 && decide (field c.w1 63 56 = 0) && decide (field c.w1 10 0 = 0) &&
  Decode.within c.w2 0xFFFFF#64 && Decode.within c.w3 0x1FFFFF#64 && Decode.within c.w5 0xFFFFFFFF#64

/-- A launch from its descriptor. -/
def launchOf (c : SysCmd) (ctx prio die : Nat) (src : Option (Nat × Nat)) : Launch where
  ctx := ctx
  part := field c.w0 11 8
  anyp := bitAt c.w0 12
  w := field c.w0 19 16 + 1
  hgt := field c.w0 22 20 + 1
  entry := c.w1.toNat
  done := field c.w2 19 0
  graph := field c.w5 15 0
  phase := field c.w5 31 16
  arg0 := c.w6
  arg1 := c.w7
  prio := prio
  wait := if bitAt c.w3 20 then some (field c.w3 19 0, c.w4) else none
  src := src
  die := die
  st := .held
  halted := false
  cancelled := false

end Sys2Proof.Machine
end

