-- ==== Sys2Proof/Machine/Spots.lean ====
section
/-! DEFINITION. Where a launch can be placed, and what has to be pre-empted for it (R86 to R91, R95, R161). -/

namespace Sys2Proof.Machine

/-- The dies of a context's placement set (R87, R95, R96). -/
def State.placementDies (s : State) (ctx : Nat) : List Nat :=
  match tget s.host.ctxs ctx with
  | none => []
  | some c => (List.range 4).filter fun d => featsIn (c.feats ||| c.imageFeats) (s.diefeat d) && !c.excluded.contains d

/-! ### Rectangles and control cores (R91, R161) -/

/-- Whether two rectangles of a partition share a tile. -/
def rectsMeet (x y w h x' y' w' h' : Nat) : Bool := decide (x < x' + w') && decide (x' < x + w) && decide (y < y' + h') && decide (y' < y + h)

/-- Whether a rectangle is free of live regions but those of some keys, of replicas, and of tiles with a fenced-off PE. -/
def State.rectFree (s : State) (out : List Nat) (part x y w h : Nat) : Bool :=
  (s.regions.all fun e => out.contains e.1 || decide (e.2.part ≠ part) || !rectsMeet x y w h e.2.x0 e.2.y0 e.2.w e.2.hgt) &&
  (List.range (w * h)).all fun i =>
    let k := part * 128 + (y + i / w) * 16 + (x + i % w)
    (s.tile k).fenced.isEmpty && s.regions.all fun e => out.contains e.1 || !e.2.extras.any fun p => decide (e.2.placeKey p = k)

/-- Whether the copies of a region's units fit beside it at an origin (R101). -/
def State.extrasFree (s : State) (out : List Nat) (part x y : Nat) (ps : List (Nat × Nat × Nat)) : Bool :=
  ps.all fun p => decide (16 ≤ x + p.2.1 ∧ x + p.2.1 < 32 ∧ 16 ≤ y + p.2.2 ∧ y + p.2.2 < 24) && s.rectFree out part (x + p.2.1 - 16) (y + p.2.2 - 16) 1 1

/-- Candidate origins in row-major order. -/
def origins (w h : Nat) : List (Nat × Nat) := (List.range (9 - h)).flatMap fun y => (List.range (17 - w)).map fun x => (x, y)

/-- Whether a context's L2 mode goes with the live regions of a partition (R161). -/
def State.modeFits (s : State) (out : List Nat) (part ctx : Nat) : Bool :=
  let mode := fun c => ((tget s.host.ctxs c).map fun x => x.l2Private).getD false
  s.regions.all fun e => out.contains e.1 || decide (e.2.part ≠ part) || mode e.2.ctx == mode ctx

/-- A place in a partition: control core and origin. -/
structure Spot where
  part : Nat
  core : Nat
  x : Nat
  y : Nat
  deriving DecidableEq, Repr

/-- The first place in a partition with the regions of some keys away: lowest free control core, first free rectangle that has room beside it for
copies of units at some distances. -/
def State.spotFor (s : State) (out : List Nat) (notCore : Option Nat) (ctx w h : Nat) (ps : List (Nat × Nat × Nat)) (part : Nat) : Option Spot :=
  if !s.modeFits out part ctx then none
  else
    let free := fun c => (out.contains (coreKey part c) || (tget s.regions (coreKey part c)).isNone) && decide (notCore ≠ some (coreKey part c))
    match (List.range 8).find? free, (origins w h).find? fun o => s.rectFree out part o.1 o.2 w h && s.extrasFree out part o.1 o.2 ps with
    | some c, some o => some ⟨part, c, o.1, o.2⟩
    | _, _ => none

/-- The first place in a partition for a region without copies. -/
def State.spotIn (s : State) (out : List Nat) (notCore : Option Nat) (ctx w h part : Nat) : Option Spot := s.spotFor out notCore ctx w h [] part

/-- A list put in ascending order of a number, ties as they stand. -/
def sortUp (f : Nat → Nat) : List Nat → List Nat
  | [] => []
  | a :: t => put a (sortUp f t)
where
  /-- Inserts before the first larger one. -/
  put (a : Nat) : List Nat → List Nat
    | [] => [a]
    | b :: t => if f b < f a then b :: put a t else a :: b :: t

/-- Cycles of 1 ms, over which charged partition-time is counted (R91). -/
def cycles1ms : Nat := 2400000

/-- Partition-time charged in a partition over the last 1 ms, in tile-cycles (R91). -/
def State.chargedOf (s : State) (part : Nat) : Nat :=
  ((tgetD s.host.charged part []).map fun c => (c.upto - max c.since (s.now - cycles1ms)) * c.size).sum

/-- The partitions a launch may go to on a die: its own, or for ANYP all four in ascending order of charged partition-time. -/
def State.partsFor (s : State) (l : Launch) (die : Nat) : List Nat :=
  if !(s.placementDies l.ctx).contains die then []
  else if l.anyp then sortUp s.chargedOf ((List.range 4).map fun i => die * 4 + i)
  else [l.part]

/-- Where a launch can be placed with the regions of some keys away. -/
def State.placeable (s : State) (out : List Nat) (l : Launch) (die : Nat) : Option Spot :=
  (s.partsFor l die).findSome? (s.spotIn out none l.ctx l.w l.hgt)

/-- Priority of a launch. -/
def State.prioOf (s : State) (lid : Nat) : Nat := ((tget s.host.launches lid).map fun l => l.prio).getD 0

/-! ### The bivouac and the save area (R106 to R108, R179) -/

/-- 64 KiB units of an image of a region. -/
def imageUnits (r : Region) : Nat := 1 + 10 * r.total

/-- The first unit at which an image fits, first-fit from offset 0x2_0000 (R179). -/
def Ctx.fitImage (c : Ctx) (n : Nat) : Option Nat :=
  (List.range c.saveUnits).find? fun a => decide (2 ≤ a) && decide (a + n ≤ c.saveUnits) && c.images.all fun e => decide (a + n ≤ e.1 ∨ e.1 + e.2 ≤ a)

/-- Takes an image of a region in its context's save area. -/
def State.takeImage (s : State) (r : Region) : Option (Nat × State) :=
  match tget s.host.ctxs r.ctx with
  | none => none
  | some c => (c.fitImage (imageUnits r)).map fun a => (a, s.putCtx r.ctx { c with images := c.images ++ [(a, imageUnits r)] })

/-- Parked regions of a partition's bivouac. -/
def State.inBivouac (s : State) (part : Nat) : List (Nat × Parked) := s.parked.filter fun e => decide (e.2.part = some part)

/-- Whether two regions of a partition need the slot of one tile. -/
def Region.meets (r q : Region) : Bool := r.tiles.any q.tiles.contains

/-- Parked regions of a partition whose slots a region would need. -/
def State.inSlots (s : State) (part : Nat) (r : Region) : List (Nat × Parked) :=
  (s.inBivouac part).filter fun e => r.meets e.2.region

/-- Spills parked regions, lowest priority and longest parked first, until a rectangle's slots and a place among the 8 are free; those it is to be
swapped with stay. The victims are regions already parked: the overlapping ones, or else all (log 41). -/
def State.makeRoom (part : Nat) (r : Region) (swap : List Nat) : Nat → State → Option State
  | 0, _ => none
  | fuel + 1, s =>
    let held := (s.inBivouac part).filter fun e => !swap.contains e.1
    let hit := held.filter fun e => r.meets e.2.region
    if hit.isEmpty && decide (held.length < 8) then some s
    else
      let cands := if hit.isEmpty then held else hit
      let order := sortUp (fun pid => ((tget s.parked pid).map fun p => p.since).getD 0) (cands.map fun e => e.1)
      match (sortUp s.prioOf order).findSome? fun pid => match tget s.parked pid with
        | some p => (s.takeImage p.region).map fun a => (pid, p, a)
        | none => none with
      | some (pid, p, a, s1) => State.makeRoom part r swap fuel { s1 with parked := tput s1.parked pid { p with part := none, image := some a } }
      | none => none

/-! ### The choice (R88, R89) -/

/-- Runnable launches of a die at a priority, the oldest first. -/
def State.runnable (s : State) (die p : Nat) : List (Nat × Launch) :=
  s.host.launches.filter fun e => decide (e.2.st = .runnable ∧ e.2.die = die ∧ e.2.prio = p) && !e.2.cancelled

/-- The round list of a priority, with a place for each job that has a runnable launch. -/
def State.roundList (s : State) (die p : Nat) : List Round :=
  (s.runnable die p).foldl (fun rs e =>
    if rs.any fun r => decide (r.job = s.jobOf e.2.ctx) then rs else rs ++ [⟨s.jobOf e.2.ctx, 0, false⟩])
    (tgetD (tgetD s.host.dies die Die.blank).rounds p [])

/-- One quantum, 1 ms of partition-time, in tile-cycles. -/
def quantum : Int := 307200000

/-- The deficit of a job at a priority on a die. -/
def State.deficit (s : State) (die p job : Nat) : Int :=
  (((s.roundList die p).find? fun r => decide (r.job = job)).map fun r => r.deficit).getD 0

/-- Regions of a partition that may be pre-empted, of one priority, the most recently placed first. -/
def State.victimsAt (s : State) (part q : Nat) : List Nat :=
  sortUp (fun k => s.now + 1 - ((tget s.regions k).map fun r => r.placedAt + 1).getD 0)
    ((s.regions.filter fun e => decide (e.2.part = part ∧ s.prioOf e.2.launch = q) && !e.2.cancelling && match e.2.run with
      | .running | .brk => true
      | _ => false).map fun e => e.1)

/-- The regions of the first step of R89: those of the priorities below. -/
def State.lowerVictims (s : State) (p part : Nat) : List Nat := (List.range p).flatMap (s.victimsAt part)

/-- The regions of the second step of R89: those of the same priority whose job has no deficit left. -/
def State.spentVictims (s : State) (p part : Nat) : List Nat :=
  (s.victimsAt part p).filter fun k => match tget s.regions k with
    | some r => decide (s.deficit (dieOf part) p (s.jobOf r.ctx) ≤ 0)
    | none => false

/-- Regions of a partition on their way out: halted for pre-emption, with room to be parked or spilled. -/
def State.halting (s : State) (part : Nat) : List Nat :=
  (s.regions.filter fun e => decide (e.2.part = part ∧ e.2.run = .preempted) && !e.2.cancelling &&
    ((State.makeRoom part e.2 [] 9 s).isSome || (s.takeImage e.2).isSome)).map fun e => e.1

/-- Sublists of a length, in order. -/
def choose : Nat → List Nat → List (List Nat)
  | 0, _ => [[]]
  | _ + 1, [] => []
  | n + 1, a :: t => (choose n t).map (fun l => a :: l) ++ choose (n + 1) t

/-- The fewest of some regions of a partition that, gone with those on their way out, leave a launch a place. -/
def State.freeing (s : State) (l : Launch) (parts : List Nat) (vs : Nat → List Nat) : Option (List Nat) :=
  (List.range 9).findSome? fun n => parts.findSome? fun part =>
    (choose n (vs part)).find? fun out => (s.spotIn (s.halting part ++ out) none l.ctx l.w l.hgt part).isSome

/-- The regions to be pre-empted for a launch (R89): of the lower priorities, or where none of those suffice with the spent ones of its own; an
empty list where those already on their way out suffice; none where no set does. -/
def State.preemption (s : State) (l : Launch) (die : Nat) : Option (List Nat) :=
  (s.freeing l (s.partsFor l die) (s.lowerVictims l.prio)).or
    (s.freeing l (s.partsFor l die) fun part => s.lowerVictims l.prio part ++ s.spentVictims l.prio part)

/-- What a dispatch unit does next: the highest priority with a launch it can place, now (none) or by pre-emption of some regions (R88). -/
def State.dieChoice (s : State) (die : Nat) : Option (Nat × Option (List Nat)) :=
  (List.range 8).findSome? fun i =>
    let p := 7 - i
    if (s.runnable die p).any fun e => (s.placeable [] e.2 die).isSome then some (p, none)
    else ((s.runnable die p).findSome? fun e => s.preemption e.2 die).map fun ks => (p, some ks)

/-- Whether a dispatch unit has something to do now: not where it waits for regions on their way out. -/
def State.dieActs (s : State) (die : Nat) : Bool :=
  match s.dieChoice die with
  | some (_, some []) | none => false
  | some _ => true

/-- A dispatch unit leaves a choice it can make standing for at most one quantum, which keeps the bound of R90 (log 19). -/
def State.dieLate (s : State) (die : Nat) : Bool :=
  match (tgetD s.host.dies die Die.blank).due with
  | some t => decide (t + cycles1ms ≤ s.now) && s.dieActs die
  | none => false

end Sys2Proof.Machine
end

