-- ==== Sys2Proof/Machine/Levels.lean ====
section
/-! DEFINITION. Levels of work: launches admitted, members counted, levels armed and cancelled, phases (R68, R73, R78 to R87). -/

namespace Sys2Proof.Machine

/-! ### Members -/

/-- Whether a launch belongs to a level of a context: 0 launches by DONE, 1 graph, 2 phase, 3 the context's job. -/
def State.isMember (s : State) (ctx level num : Nat) (l : Launch) : Bool :=
  match level with
  | 0 => decide (l.ctx = ctx ∧ l.done = num)
  | 1 => decide (l.ctx = ctx ∧ l.graph = num)
  | 2 => decide (l.ctx = ctx ∧ l.phase = num)
  | _ => decide (s.jobOf l.ctx = s.jobOf ctx)

/-- Launches of a level that have not ended, by number. -/
def State.liveMembers (s : State) (ctx level num : Nat) : List Nat :=
  (s.host.launches.filter fun e => s.isMember ctx level num e.2 && decide (e.2.st ≠ .ended)).map fun e => e.1

/-- Descriptors posted to a queue and not yet taken, those of a stopped queue with them (R67, R76). -/
def State.postedTo (s : State) (q : LQueue) : Nat :=
  match q.origin with
  | some o => (s.cairn.val (field q.ctl 19 0)).toNat - o - q.head
  | none => 0

/-- The descriptor `m` of a queue (R67). -/
def State.descriptor (s : State) (q : LQueue) (m : Nat) : SysCmd := s.mem.words8 (q.base + 64 * (m % lqDepth q.ctl))

/-- Whether a queue launches into a context, or for a job level into one of its job (R85). -/
def State.queueFor (s : State) (ctx level : Nat) (q : LQueue) : Bool :=
  let c := field q.ctl 31 20
  (tget s.host.ctxs c).isSome && (decide (c = ctx) || (decide (level = 3) && decide (s.jobOf c = s.jobOf ctx)))

/-- Posted descriptors of a queue that belong to a level and that no CANCEL has taken out, by number; of a job malformed ones too (R73, R83). -/
def State.postedMembers (s : State) (ctx level num : Nat) (q : LQueue) : List Nat :=
  if !s.queueFor ctx level q then []
  else ((List.range (min (s.postedTo q) (lqDepth q.ctl))).map fun i => q.head + i).filter fun m =>
    let d := s.descriptor q m
    !q.marks.contains m && (decide (level = 3) || (launchOk d && s.isMember ctx level num (launchOf d (field q.ctl 31 20) 0 0 none)))

/-- Whether a level has a member that has neither completed nor been cancelled (R85). -/
def State.anyMember (s : State) (ctx level num : Nat) : Bool :=
  ((s.liveMembers ctx level num).any fun k => match tget s.host.launches k with
    | some l => !l.cancelled
    | none => false) ||
  s.host.lq.any fun e => !(s.postedMembers ctx level num e.2).isEmpty

/-- Whether launches that a CANCEL of a level reached still have to end. -/
def State.pendingMembers (s : State) (ctx level num : Nat) : Bool :=
  s.host.launches.any fun e => s.isMember ctx level num e.2 && decide (e.2.st ≠ .ended) && e.2.cancelled

/-! ### Counting (R78 to R82) -/

/-- The count of a level's members. -/
def Ctx.countOf (c : Ctx) (level num : Nat) : Nat := ((c.counts.find? fun k => decide (k.level = level ∧ k.num = num)).map fun k => k.n).getD 0

def Ctx.setCount (c : Ctx) (level num n : Nat) : Ctx :=
  { c with counts := (c.counts.filter fun k => decide (k.level ≠ level ∨ k.num ≠ num)) ++ if n = 0 then [] else [⟨level, num, n, false⟩] }

/-- The arm entry of a level. -/
def Ctx.armOf (c : Ctx) (level num : Nat) : Option Arm := c.arms.find? fun a => decide (a.level = level ∧ a.num = num)

/-- The objects of a heap page, by page offset, with word 0 of each header (R203). -/
def scanPage (m : Mem) (a : Nat) : Nat → Nat → List (Nat × Word)
  | 0, _ => []
  | fuel + 1, off =>
    if 65536 ≤ off then []
    else
      let w := m.word (a + off)
      if hdrSize w = 0 then [] else (off, w) :: scanPage m a fuel (off + hdrSize w)

/-- Bytes of LIVE objects in a page. -/
def liveBytes (m : Mem) (a : Nat) : Nat := (((scanPage m a 4097 0).filter fun e => decide (hdrState e.2 = 1)).map fun e => hdrSize e.2).sum

/-- Contexts of a job. -/
def State.jobCtxs (s : State) (job : Nat) : List Nat := (s.host.ctxs.filter fun e => decide (e.2.job = job)).map fun e => e.1

/-- The pages of a job's heap windows whose frames here are FORWARDED, whoever mapped them (R208). -/
def State.forwardedPages (s : State) (job : Nat) : List (Nat × Nat) :=
  s.mem.frames.filterMap fun e =>
    if e.2.page = .forwarded then
      (((s.jobCtxs job).findSome? fun c => findVa s.mem (s.dev.devNum * 2 ^ 40 + e.1 * 65536) 4 1 (s.root c) 0).filter inHeap).map fun va => (job, va)
    else none

/-- A phase of a job ends: its FORWARDED heap pages that hold no LIVE object are released (R220). -/
def State.releasePages (s : State) (job : Nat) : State :=
  ((s.forwardedPages job).filter fun u => !s.heap.released.contains u).foldl (fun s' u =>
    match (s'.jobCtxs job).findSome? fun c => s'.leafAt c u.2 with
    | none => s'
    | some (pa, _) =>
      let f := s'.mem.frame (localOf pa)
      if s'.isLocal pa && decide (f.page = .forwarded) && decide (liveBytes s'.mem (localOf pa) = 0) then
        let s1 := (s'.jobCtxs job).foldl (fun s2 c => match s2.leafAt c u.2 with
          | some (_, entry) => ({ s2 with mem := s2.mem.putWord entry 0 }).invalidate c
          | none => s2) s'
        { s1 with
          mem := if f.held.isEmpty then { s1.mem with frames := tdel s1.mem.frames (frameOf (localOf pa)) } else s1.mem
          heap := { s1.heap with released := s1.heap.released ++ [u] } }
      else s') s

/-- A phase ends: page moves and freezes of the phase end, old frames stop forwarding, PGMIG clears, forwarded heap pages are released
(R56, R181, R220, Table 2.7). -/
def State.phaseEnds (s : State) (job : Nat) : State :=
  let mine := s.jobCtxs job
  let over_ := fun (f : Frame) => { f with moves := 0, frozen := false, fwd := none, copies := f.copies.filter fun c => !mine.contains c.1 }
  { (s.releasePages job) with
    mem := { (s.releasePages job).mem with frames := (s.releasePages job).mem.frames.map fun e => (e.1, over_ e.2) }
    dev := { s.dev with pgmig := [] } }

/-- A job's current phase goes on: past phases that a CANCEL ended before they were current, and not past 65,535 (R81). -/
def State.nextPhase (job : Nat) : Nat → State → State
  | 0, s => s
  | fuel + 1, s =>
    let cur := tgetD s.host.phases job 0
    if 65535 ≤ cur then s
    else
      let s1 := ({ s with host := { s.host with phases := tput s.host.phases job (cur + 1) } }).phaseEnds job
      let gone := fun (k : Count) => decide (k.level = 2 ∧ k.num = cur + 1) && k.cancelled
      if s1.host.ctxs.any fun e => decide (e.2.job = job) && e.2.counts.any gone then
        State.nextPhase job fuel s1
      else s1

/-- One more member of a level of a context. -/
def Ctx.countUp (c : Ctx) (level num : Nat) : Ctx := c.setCount level num (c.countOf level num + 1)

def State.countUp (s : State) (ctx level num : Nat) : State :=
  match tget s.host.ctxs ctx with
  | some c => s.putCtx ctx (c.countUp level num)
  | none => s

/-- A phase completed is counted towards its job in each of the job's contexts (R82). -/
def State.jobUp (s : State) (job : Nat) : State :=
  { s with host := { s.host with ctxs := s.host.ctxs.map fun e => if e.2.job = job then (e.1, e.2.countUp 3 0) else e } }

/-- Whether an armed level completes now: its count is reached, a phase's once it is current (R81), or it was cancelled and no member is left. -/
def State.armDue (s : State) (ctx : Nat) (c : Ctx) (a : Arm) : Bool :=
  (a.cancelled && !s.pendingMembers ctx a.level a.num) ||
  (decide (a.count ≤ c.countOf a.level a.num) && (decide (a.level ≠ 2) || decide (a.num ≤ tgetD s.host.phases c.job 0)))

/-- The phase to which a graph of a context belongs: that of its latest launch. -/
def State.phaseOf (s : State) (ctx graph : Nat) : Nat :=
  (((s.host.launches.filter fun e => decide (e.2.ctx = ctx ∧ e.2.graph = graph)).getLast?).map fun e => e.2.phase).getD 0

/-- A level completes: its cairn advances once, the entry is freed, and it is counted at the level above (R79 to R82). -/
def State.completeArm (s : State) (ctx : Nat) (c : Ctx) (a : Arm) : State :=
  let c1 := { (c.setCount a.level a.num (c.countOf a.level a.num - a.count)) with arms := c.arms.filter fun b => decide (b.level ≠ a.level ∨ b.num ≠ a.num) }
  let s1 := (s.putCtx ctx c1).advance a.cairn a.cancelled
  match a.level with
  | 1 => s1.countUp ctx 2 (s.phaseOf ctx a.num)
  | 2 =>
    let cur := tgetD s.host.phases c.job 0
    let s2 := if a.num = cur then State.nextPhase c.job 65536 s1
      else if cur < a.num then s1.putCtx ctx { c1 with counts := c1.counts ++ [⟨2, a.num, 0, true⟩] }
      else s1
    s2.jobUp c.job
  | _ => s1

/-- The first armed level of a job that completes now, the lower levels first. -/
def State.dueArm (s : State) (job : Nat) : Option (Nat × Ctx × Arm) :=
  [1, 2, 3].findSome? fun lv => s.host.ctxs.findSome? fun e =>
    if e.2.job = job then (e.2.arms.find? fun a => decide (a.level = lv) && s.armDue e.1 e.2 a).map fun a => (e.1, e.2, a) else none

/-- Every level of a job that completes now does, one after the other. -/
def State.settleAll (job : Nat) : Nat → State → State
  | 0, s => s
  | fuel + 1, s =>
    match s.dueArm job with
    | some (ctx, c, a) => State.settleAll job fuel (s.completeArm ctx c a)
    | none => s

/-- The levels of a context's job settled: at most one step for each of its armed levels. -/
def State.settle (s : State) (ctx : Nat) : State :=
  s.settleAll (s.jobOf ctx) (s.host.ctxs.map fun e => e.2.arms.length).sum

/-- A launch ends: DONE advances once, and it counts towards its graph (R70, R78, R82). -/
def State.endLaunch (s : State) (lid : Nat) (flagged : Bool) : State :=
  match tget s.host.launches lid with
  | none => s
  | some l =>
    if l.st = .ended then s
    else (((s.putLaunch lid { l with st := .ended }).advance l.done flagged).countUp l.ctx 1 l.graph).settle l.ctx

/-! ### Taking a launch (R68, R81, R86, R87) -/

/-- Whether a launch has to be held: its wait, or its phase (R68, R81). -/
def State.mustHold (s : State) (l : Launch) : Bool :=
  (match l.wait with
    | some (c, v) => decide ((s.cairn.val c).toNat < v.toNat)
    | none => false) || decide (tgetD s.host.phases (s.jobOf l.ctx) 0 < l.phase)

/-- Whether a die's held set of 256 launches has room (R68). -/
def State.heldRoom (s : State) (die : Nat) : Bool :=
  decide ((s.host.launches.filter fun e => decide (e.2.st = .held ∧ e.2.die = die) && !e.2.cancelled).length < 256)

/-- The die that takes a launch; none while its held set is full. An ANYP launch goes to the lowest die of its placement set that has a place for
it now, or else that gets one by pre-emption; where none has, which die is soonest is a free choice (R86, log 19). One held while its placement set
is empty is held on the die that took it (log 19). -/
def State.launchDie (s : State) (l : Launch) (own : Nat) : Option Nat :=
  if !l.anyp then (if s.mustHold l && !s.heldRoom (dieOf l.part) then none else some (dieOf l.part))
  else
    let ds := s.placementDies l.ctx
    if s.mustHold l then (if ds.isEmpty then some own else ds.find? s.heldRoom)
    else ((ds.find? fun d => (s.placeable [] l d).isSome).or (ds.find? fun d => (s.preemption l d).isSome)).or (some (ds.getD (s.choice ds.length) own))

/-- A well-formed launch taken: held or runnable; one whose phase has gone by ends cancelled (R81). -/
def State.admitLaunch (s : State) (l : Launch) : State :=
  let s1 := { (s.putLaunch s.host.nextLid { l with st := if s.mustHold l then .held else .runnable }) with
    host := { (s.putLaunch s.host.nextLid { l with st := if s.mustHold l then .held else .runnable }).host with nextLid := s.host.nextLid + 1 } }
  if l.phase < tgetD s.host.phases (s.jobOf l.ctx) 0 then s1.endLaunch s.host.nextLid true else s1

/-! ### Arming and cancelling (R79, R80, R83, R85) -/

/-- Whether the arm table of a context refuses a level (R79). -/
def armFull (arms : List Arm) (level num : Nat) : Bool := decide (256 ≤ arms.length) || arms.any fun a => decide (a.level = level ∧ a.num = num)

/-- ARM. -/
def State.arm (s : State) (ctx level num cairn count : Nat) : State :=
  match tget s.host.ctxs ctx with
  | none => s
  | some c =>
    (s.putCtx ctx { c with arms := c.arms ++ [⟨level, num, cairn, count, false⟩] }).settle ctx

/-- Arm entries of a cancelled level and of the levels under it. -/
def State.markArms (s : State) (ctx level num : Nat) : State :=
  let hit := fun (k : Nat) (a : Arm) =>
    (decide (k = ctx) && decide (a.level = level ∧ a.num = num)) ||
    (decide (level = 2 ∧ k = ctx ∧ a.level = 1) && (s.liveMembers ctx 1 a.num).any fun l => match tget s.host.launches l with
      | some x => decide (x.phase = num)
      | none => false) ||
    (decide (level = 3) && decide (s.jobOf k = s.jobOf ctx))
  { s with host := { s.host with ctxs := s.host.ctxs.map fun e => (e.1, { e.2 with arms := e.2.arms.map fun a => if hit e.1 a then { a with cancelled := true } else a }) } }

/-- A posted descriptor that a CANCEL takes out of its queue: a launch that never runs, to end by CANCEL_ADVANCE; a malformed one has its DONE
advanced at once (R68, R73). -/
def State.cancelPosted (s : State) (n : Nat) (q : LQueue) (m : Nat) : State :=
  let d := s.descriptor q m
  let q1 := { q with marks := (s.host.queue n).marks ++ [m] }
  let s1 := { s with host := { s.host with lq := tput s.host.lq n q1 } }
  if launchOk d then
    let l := launchOf d (field q.ctl 31 20) (field q.ctl 56 54) 0 (some (n, m))
    { s1 with host := { s1.host with launches := tput s1.host.launches s1.host.nextLid { l with cancelled := true }, nextLid := s1.host.nextLid + 1 } }
  else s1.advance (field d.w2 19 0) true

/-- The posted descriptors of a level leave their queues; a job's queues stop (R73, R83, R85). -/
def State.cancelQueues (s : State) (ctx level num : Nat) : State :=
  s.host.lq.foldl (fun s' e =>
    let s1 := (s.postedMembers ctx level num e.2).foldl (fun s2 m => s2.cancelPosted e.1 e.2 m) s'
    if level = 3 ∧ s.queueFor ctx level e.2 = true then
      { s1 with host := { s1.host with lq := tput s1.host.lq e.1 { s1.host.queue e.1 with ctl := e.2.ctl &&& 0x7FFFFFFFFFFFFFFF#64 } } }
    else s1) s

/-- RELOCs of a cancelled job: each stops after its current object (R213). -/
def State.cancelRelocs (s : State) (job : Nat) : State :=
  let mark := fun (q : Reloc) => if s.jobOf q.ctx = job then { q with cancelled := true } else q
  { s with heap := { s.heap with engines := s.heap.engines.map fun e => (e.1, { e.2 with queue := e.2.queue.map mark }) } }

/-- CANCEL of a level (R83); cairns advance with CANCEL_ADVANCE. -/
def State.cancelLevel (s : State) (ctx level num : Nat) : State :=
  let s1 := s.cancelQueues ctx level num
  let ms := s1.liveMembers ctx level num
  let s2 := if level = 0 then s1 else s1.markArms ctx level num
  let s3 := ms.foldl (fun s' l => s'.cancelLaunch l) s2
  (if level = 3 then s3.cancelRelocs (s3.jobOf ctx) else s3).settle ctx

end Sys2Proof.Machine
end

