-- ==== Sys2Proof/Machine/Ctl.lean ====
section
/-! DEFINITION. Control records: the control block that is evaluated, what a record does to it, faults of the control core, fetching images
(R122 to R124, R290 to R293, R224, R304, R451). -/

namespace Sys2Proof.Machine

/-! ### The block that is evaluated -/

/-- The control core a record runs on: its key, region, block at work and entry. -/
structure CSite where
  key : Nat
  rg : Region
  w : Work
  blk : Bif
  deriving DecidableEq, Repr

/-- The site of the acting control core. -/
def State.csite (s : State) : Option CSite :=
  match s.actor with
  | .core key =>
    match tget s.regions key with
    | some rg =>
      match rg.work with
      | some w =>
        match tget rg.blocks w.slot with
        | some b => some ⟨key, rg, w, b⟩
        | none => none
      | none => none
    | none => none
  | _ => none

/-- A fresh evaluation of the block in a slot (R124). -/
def Work.start (r : Region) (slot : Nat) : Work where
  slot := slot
  pc := 0
  s := r.s
  h := r.h
  csrs := r.csrs
  csrw := []
  efx := 0
  checked := false
  ending := .fall
  trapCode := none
  pops := []
  idle := none
  cancels := []
  accs := []
  begun := false
  aux := []
  empties := []
  descs := []
  asking := none

def State.putWork (s : State) (key : Nat) (w : Work) : State :=
  match tget s.regions key with
  | some r => s.putRegion key { r with work := some w }
  | none => s

/-- The waiter that stands for a control core. -/
def CSite.who (c : CSite) : Who := .core c.key

/-- Operands of a record as earlier records of its block have left them. -/
def CSite.sA (c : CSite) (r : CtlRec) : Word := readS c.w.s r.a
def CSite.sB (c : CSite) (r : CtlRec) : Word := readS c.w.s r.b
def CSite.x (c : CSite) (r : CtlRec) : Word := secondOp r c.w.s
def CSite.hA (c : CSite) (r : CtlRec) : Word := readH c.w.h r.a
def CSite.hB (c : CSite) (r : CtlRec) : Word := readH c.w.h r.b

def Work.setS (w : Work) (n : BitVec 5) (v : Word) : Work := { w with s := writeS w.s n v }
def Work.setH (w : Work) (n : BitVec 5) (v : Word) : Work := { w with h := writeH w.h n v }

/-- The record at hand has ended. -/
def Work.step (w : Work) : Work := { w with pc := w.pc + 1, accs := [], begun := false, aux := [] }

/-! ### Local records -/

/-- A local record's outcome: the block goes on, or faults. -/
inductive LRes where
  | ok (w : Work)
  | fault (code : Nat)
  deriving DecidableEq, Repr

/-- What a record does: local or wait ended, effect performed, it stands, or it faults with code, reason and address. -/
inductive CRes where
  | next (s : State) (w : Work)
  | effect (s : State) (w : Work)
  | stay (s : State) (w : Work)
  | fault (s : State) (w : Work) (code reason addr : Nat)
  deriving DecidableEq, Repr

/-! ### Faults (R224, R293, R325, R174) -/

/-- Starts the cancellations a block's CANCELs asked for (R316); level 0 of 0 is this launch. -/
def State.startCancels (s : State) (ctx launch : Nat) (cs : List (Nat × Word)) : State :=
  cs.foldl (fun s' c => if c.1 = 0 ∧ c.2 = 0 then s'.cancelLaunch launch else s'.cancelLevel ctx c.1 c.2.toNat) s

/-- The cairns of units of no instance advance (R299). -/
def State.advanceAll (s : State) (ks : List Nat) : State := ks.foldl (fun s' k => s'.advance k false) s

/-- The record of a control-core fault. -/
def CSite.faultRec (c : CSite) (s : State) (code reason addr : Nat) : FaultRec :=
  c.rg.faultRec 31 code reason c.w.slot 0 c.blk.image.hdr.blkid (BitVec.ofNat 64 addr) s.mem.pts

/-- A fault of the block: class 00 traps, naming the block; a minor one waits for the SCC and the record is performed again; a major one
halts the region (R293, R325, R174, R176). -/
def State.coreFault (s : State) (c : CSite) (w : Work) (code reason addr : Nat) : State :=
  match codeClass code with
  | 1 =>
    let s1 := s.putWork c.key w
    match tget s1.regions c.key with
    | some r => s1.putRegion c.key { r with minor := true }
    | none => s1
  | 2 =>
    let s1 := s.putWork c.key w
    match tget s1.regions c.key with
    | some r => s1.putRegion c.key { r with run := .major code }
    | none => s1
  | _ => ((s.advanceAll w.empties).takeTrap c.key (c.faultRec s code reason addr) c.blk.addr w.efx 0 false).startCancels c.rg.ctx c.rg.launch w.cancels

/-- Carries out what a record does. -/
def CRes.run (r : CRes) (c : CSite) : State :=
  match r with
  | .next s w => s.putWork c.key w.step
  | .effect s w => s.putWork c.key { w.step with efx := w.efx + 1 }
  | .stay s w => s.putWork c.key w
  | .fault s w code reason addr => s.coreFault c w code reason addr

/-- A local record (R292). -/
def ctlLocal (s : State) (g : State → CSite → LRes) : Host.Outcome State Fault Refusal :=
  match s.csite with
  | none => .fault .noActor
  | some c =>
    match g s c with
    | .ok w => .next ((CRes.next s w).run c)
    | .fault code => .next ((CRes.fault s c.w code 0 0).run c)

/-- The status registers as they stand when a wait of a block has ended: what the block's edges order before it is before the block (R113, R124). -/
def CRes.afterWait (r : CRes) (c : CSite) : CRes :=
  match r with
  | .next s w => .next s { w with csrs := ((tget s.regions c.key).getD c.rg).csrs }
  | _ => r

/-- A wait (R292). -/
def ctlWait (s : State) (g : State → CSite → CRes) : Host.Outcome State Fault Refusal :=
  match s.csite with
  | none => .fault .noActor
  | some c => .next (((g s c).afterWait c).run c)

/-! ### Fetching images (R93, R122, R274, R304) -/

/-- The address a fetch of a region is made at, by the redirection table it has switched to (R304, R75). -/
def Region.redirected (r : Region) (a : Nat) : Nat :=
  match r.redirect.find? fun e => decide (e.1 ≤ a ∧ a < e.1 + e.2.2) with
  | some (old, new, _) => new + (a - old)
  | none => a

/-- Record `k` of a block's bytes. -/
def recAt (bs : List Byte) (k : Nat) : Rec96 := BitVec.ofNat 96 (leNat ((bs.drop (12 * k)).take 12))

/-- A block image from its 2,048 bytes; none where its header fails (R274, Table 13.12). -/
def imageOf (bs : List Byte) : Option Image :=
  match Decode.header (recAt bs 0) with
  | .error _ => none
  | .ok h => some ⟨h, (List.range (h.ncnt + 1)).map fun n => recAt bs (n + 1), (List.range h.ndecl).map fun n => recAt bs (h.ncnt + 2 + n)⟩

/-- What asking for an image gives: the image, or none where its header fails; a fault of the fetch; or a wait until it has been fetched. -/
inductive ImgRes where
  | ok (s : State) (i : Option Image)
  | fault (s : State) (code va : Nat)
  | wait (s : State)
  deriving DecidableEq, Repr

/-- An image in a partition's configuration cache. -/
def State.cached (s : State) (part ctx a : Nat) : Option CfgImage :=
  (tgetD s.caches.cfg part []).find? fun i => decide (i.ctx = ctx ∧ i.addr = a)

/-- Whether a live region of a partition has a block mapped or in flight: its image is kept (R93). -/
def State.imageHeld (s : State) (part : Nat) (i : CfgImage) : Bool :=
  s.regions.any fun e => decide (e.2.part = part ∧ e.2.ctx = i.ctx) && e.2.blocks.any fun b => decide (e.2.redirected b.2.addr = i.addr)

/-- A mapped image goes to the front of its partition's list. -/
def State.touchImage (s : State) (part ctx a : Nat) : State :=
  match s.cached part ctx a with
  | some i =>
    let rest := (tgetD s.caches.cfg part []).filter fun j => !decide (j.ctx = ctx ∧ j.addr = a)
    { s with caches := { s.caches with cfg := tput s.caches.cfg part (i :: rest) } }
  | none => s

/-- Asks for the image of a block of a region, through the core's TLB and the partition's configuration cache. -/
def State.wantImage (s : State) (key : Nat) (rg : Region) (a : Nat) : ImgRes :=
  let a' := rg.redirected a
  match s.translate (.core key) rg.ctx a' .fetch with
  | (.fault c, s') => .fault s' c a'
  | (.ok pa _, s') =>
    match s'.cached rg.part rg.ctx a' with
    | some i => .ok s' i.image
    | none =>
      let mine := fun (f : Fetch) => decide (f.ctx = rg.ctx ∧ f.addr = a' ∧ f.part = rg.part)
      match s'.caches.fetches.find? mine with
      | some f => match f.failed with
        | some c => .fault { s' with caches := { s'.caches with fetches := s'.caches.fetches.filter fun g => !mine g } } c a'
        | none => .wait s'
      | none => .wait { s' with caches := { s'.caches with fetches := s'.caches.fetches ++ [⟨key, rg.ctx, a', pa, rg.part, [], none⟩] } }

/-- Whether a control record needs a feature its block lacks (R283, Table 13.9). -/
def needsOk (i : Instr) (freq : Nat) : Bool := (Rules.needs i).all fun f => freq.testBit f

end Sys2Proof.Machine
end

