-- ==== Sys2Proof/Machine/CtlScalar.lean ====
section
/-! DEFINITION. Control records: scalar integer and status registers (R294 to R296, R298). -/

namespace Sys2Proof.Machine

/-! ### Values (Tables 14.4, 14.5) -/

/-- MULH: bits 127:64 of the exact product. -/
def mulhVal (u : Bool) (a x : Word) : Word :=
  if u then BitVec.ofNat 64 (a.toNat * x.toNat / 2 ^ 64) else BitVec.ofInt 64 (a.toInt * x.toInt / 2 ^ 64)

/-- DIV (Table 14.5). -/
def divVal (u : Bool) (a x : Word) : Word :=
  if x = 0 then BitVec.allOnes 64
  else if u then BitVec.ofNat 64 (a.toNat / x.toNat)
  else BitVec.ofInt 64 (a.toInt.tdiv x.toInt)

/-- REM (Table 14.5). -/
def remVal (u : Bool) (a x : Word) : Word :=
  if x = 0 then a
  else if u then BitVec.ofNat 64 (a.toNat % x.toNat)
  else BitVec.ofInt 64 (a.toInt.tmod x.toInt)

def minVal (u : Bool) (a x : Word) : Word := if u then (if x.toNat < a.toNat then x else a) else (if x.toInt < a.toInt then x else a)
def maxVal (u : Bool) (a x : Word) : Word := if u then (if a.toNat < x.toNat then x else a) else (if a.toInt < x.toInt then x else a)

/-- The shift count (R294). -/
def shiftCount (x : Word) : Nat := field x 5 0

/-- Leading zero bits of a word of `n` bits that remain to be looked at. -/
def clzFrom (x : Word) : Nat → Nat
  | 0 => 0
  | n + 1 => if x.getLsbD n then 0 else 1 + clzFrom x n

/-- One bits among the low `n`. -/
def popFrom (x : Word) : Nat → Nat
  | 0 => 0
  | n + 1 => (if x.getLsbD n then 1 else 0) + popFrom x n

/-! ### Binary records (R294) -/

/-- D := f(a, x). -/
def binWork (r : CtlRec) (f : Word → Word → Word) (c : CSite) : LRes := .ok (c.w.setS r.d (f (c.sA r) (c.x r)))

/-- Unsigned operation (R290). -/
def isU (r : CtlRec) : Bool := r.m.getLsbD 1

def addSWork (r : CtlRec) (c : CSite) : LRes := binWork r (fun a x => a + x) c
def subSWork (r : CtlRec) (c : CSite) : LRes := binWork r (fun a x => a - x) c
def mulSWork (r : CtlRec) (c : CSite) : LRes := binWork r (fun a x => a * x) c
def mulhSWork (r : CtlRec) (c : CSite) : LRes := binWork r (mulhVal (isU r)) c
def andSWork (r : CtlRec) (c : CSite) : LRes := binWork r (fun a x => a &&& x) c
def orSWork (r : CtlRec) (c : CSite) : LRes := binWork r (fun a x => a ||| x) c
def xorSWork (r : CtlRec) (c : CSite) : LRes := binWork r (fun a x => a ^^^ x) c
def andnSWork (r : CtlRec) (c : CSite) : LRes := binWork r (fun a x => a &&& ~~~x) c
def shlSWork (r : CtlRec) (c : CSite) : LRes := binWork r (fun a x => a <<< shiftCount x) c
def shrSWork (r : CtlRec) (c : CSite) : LRes := binWork r (fun a x => a >>> shiftCount x) c
def sarSWork (r : CtlRec) (c : CSite) : LRes := binWork r (fun a x => a.sshiftRight (shiftCount x)) c
def minSWork (r : CtlRec) (c : CSite) : LRes := binWork r (minVal (isU r)) c
def maxSWork (r : CtlRec) (c : CSite) : LRes := binWork r (maxVal (isU r)) c

/-- A division by zero sets DZ when its block commits (Table 14.5). -/
def divWork (r : CtlRec) (f : Word → Word → Word) (c : CSite) : LRes :=
  let w := c.w.setS r.d (f (c.sA r) (c.x r))
  .ok (if c.x r = 0 then { w with csrw := w.csrw ++ [(0x1001, BitVec.ofNat 64 fDZ.toNat)] } else w)

def divSWork (r : CtlRec) (c : CSite) : LRes := divWork r (divVal (isU r)) c
def remSWork (r : CtlRec) (c : CSite) : LRes := divWork r (remVal (isU r)) c

/-- ADD. -/
def execAddS (r : CtlRec) (s : State) : Host.Outcome State Fault Refusal := ctlLocal s fun _ => addSWork r
/-- SUB. -/
def execSubS (r : CtlRec) (s : State) : Host.Outcome State Fault Refusal := ctlLocal s fun _ => subSWork r
/-- MUL. -/
def execMulS (r : CtlRec) (s : State) : Host.Outcome State Fault Refusal := ctlLocal s fun _ => mulSWork r
/-- MULH. -/
def execMulhS (r : CtlRec) (s : State) : Host.Outcome State Fault Refusal := ctlLocal s fun _ => mulhSWork r
/-- DIV. -/
def execDivS (r : CtlRec) (s : State) : Host.Outcome State Fault Refusal := ctlLocal s fun _ => divSWork r
/-- REM. -/
def execRemS (r : CtlRec) (s : State) : Host.Outcome State Fault Refusal := ctlLocal s fun _ => remSWork r
/-- AND. -/
def execAndS (r : CtlRec) (s : State) : Host.Outcome State Fault Refusal := ctlLocal s fun _ => andSWork r
/-- OR. -/
def execOrS (r : CtlRec) (s : State) : Host.Outcome State Fault Refusal := ctlLocal s fun _ => orSWork r
/-- XOR. -/
def execXorS (r : CtlRec) (s : State) : Host.Outcome State Fault Refusal := ctlLocal s fun _ => xorSWork r
/-- ANDN. -/
def execAndnS (r : CtlRec) (s : State) : Host.Outcome State Fault Refusal := ctlLocal s fun _ => andnSWork r
/-- SHL. -/
def execShlS (r : CtlRec) (s : State) : Host.Outcome State Fault Refusal := ctlLocal s fun _ => shlSWork r
/-- SHR. -/
def execShrS (r : CtlRec) (s : State) : Host.Outcome State Fault Refusal := ctlLocal s fun _ => shrSWork r
/-- SAR. -/
def execSarS (r : CtlRec) (s : State) : Host.Outcome State Fault Refusal := ctlLocal s fun _ => sarSWork r
/-- MIN. -/
def execMinS (r : CtlRec) (s : State) : Host.Outcome State Fault Refusal := ctlLocal s fun _ => minSWork r
/-- MAX. -/
def execMaxS (r : CtlRec) (s : State) : Host.Outcome State Fault Refusal := ctlLocal s fun _ => maxSWork r

/-! ### The other scalar records (R296) -/

def moviWork (r : CtlRec) (c : CSite) : LRes := .ok (c.w.setS r.d r.imm)
def selWork (r : CtlRec) (c : CSite) : LRes := .ok (c.w.setS r.d (if c.sA r ≠ 0 then c.sB r else r.imm))
def setcWork (r : CtlRec) (c : CSite) : LRes := .ok (c.w.setS r.d (if condHolds r.cc (c.sA r) (c.x r) then 1 else 0))
def clzWork (r : CtlRec) (c : CSite) : LRes := .ok (c.w.setS r.d (BitVec.ofNat 64 (clzFrom (c.sA r) 64)))
def popcWork (r : CtlRec) (c : CSite) : LRes := .ok (c.w.setS r.d (BitVec.ofNat 64 (popFrom (c.sA r) 64)))

/-- MOVI. -/
def execMovi (r : CtlRec) (s : State) : Host.Outcome State Fault Refusal := ctlLocal s fun _ => moviWork r
/-- SEL. -/
def execSel (r : CtlRec) (s : State) : Host.Outcome State Fault Refusal := ctlLocal s fun _ => selWork r
/-- SETC. -/
def execSetc (r : CtlRec) (s : State) : Host.Outcome State Fault Refusal := ctlLocal s fun _ => setcWork r
/-- CLZ. -/
def execClz (r : CtlRec) (s : State) : Host.Outcome State Fault Refusal := ctlLocal s fun _ => clzWork r
/-- POPC. -/
def execPopc (r : CtlRec) (s : State) : Host.Outcome State Fault Refusal := ctlLocal s fun _ => popcWork r

/-! ### Status registers (R298, R113) -/

/-- CSRR: a status register as it stood before the block (R124); an unlisted number is no register. -/
def csrrWork (r : CtlRec) (c : CSite) : LRes :=
  match tget c.w.csrs (field r.imm 11 0) with
  | some v => .ok (c.w.setS r.d v)
  | none => .fault cIllegalInstr

/-- CSRW: it takes effect at commit. -/
def csrwWork (r : CtlRec) (c : CSite) : LRes :=
  if csrwOk (field r.imm 11 0) (c.sA r) then .ok { c.w with csrw := c.w.csrw ++ [(field r.imm 11 0, c.sA r)] } else .fault cIllegalInstr

/-- CSRR. -/
def execCsrr (r : CtlRec) (s : State) : Host.Outcome State Fault Refusal := ctlLocal s fun _ => csrrWork r
/-- CSRW. -/
def execCsrw (r : CtlRec) (s : State) : Host.Outcome State Fault Refusal := ctlLocal s fun _ => csrwWork r

end Sys2Proof.Machine
end

