-- ==== Sys2Proof/Machine/CtlFlow.lean ====
section
/-! DEFINITION. Control records without effect on memory or other agents: control flow, features, reference moves, traps, halting, idling, RELQ;
and the waits BWAIT, CWAIT, EFENCE (R196, R234, R301 to R303, R305, R313, R319, R323, R325 to R331). -/

namespace Sys2Proof.Machine

/-! ### Control flow (R301, R302) -/

/-- A register target: bits 63:56 and 10:0 must be zero. -/
def targetWork (v : Word) (c : CSite) : LRes := if Rules.blockAddrOk v then .ok { c.w with ending := .goto v.toNat } else .fault cIllegalInstr

def exitBWork (r : CtlRec) (c : CSite) : LRes := if r.m.getLsbD 0 then targetWork (c.sA r) c else .ok { c.w with ending := .goto r.imm.toNat }
def exitcWork (r : CtlRec) (c : CSite) : LRes :=
  .ok { c.w with ending := .goto (if condHolds r.cc (c.sA r) (c.sB r) then r.imm.toNat else c.blk.image.hdr.next) }
def callbWork (r : CtlRec) (c : CSite) : LRes := .ok { (c.w.setS r.d (BitVec.ofNat 64 c.blk.image.hdr.next)) with ending := .goto r.imm.toNat }
def retbWork (r : CtlRec) (c : CSite) : LRes := targetWork (c.sA r) c

/-- EXIT. -/
def execExitB (r : CtlRec) (s : State) : Host.Outcome State Fault Refusal := ctlLocal s fun _ => exitBWork r
/-- EXITC. -/
def execExitc (r : CtlRec) (s : State) : Host.Outcome State Fault Refusal := ctlLocal s fun _ => exitcWork r
/-- CALLB. -/
def execCallb (r : CtlRec) (s : State) : Host.Outcome State Fault Refusal := ctlLocal s fun _ => callbWork r
/-- RETB. -/
def execRetb (r : CtlRec) (s : State) : Host.Outcome State Fault Refusal := ctlLocal s fun _ => retbWork r

/-! ### Features and references (R305, R319) -/

def featWork (r : CtlRec) (s : State) (c : CSite) : LRes := .ok (c.w.setS r.d (BitVec.ofNat 64 (r.imm.toNat &&& s.diefeat (dieOf c.rg.part))))

/-- HMOV's direction M: 00 to a reference register, 01 from one, 10 between two. -/
def hmovWork (r : CtlRec) (c : CSite) : LRes :=
  match field r.m 1 0 with
  | 0 => .ok (c.w.setH r.d (c.sA r))
  | 1 => .ok (c.w.setS r.d (c.hA r))
  | _ => .ok (c.w.setH r.d (c.hA r))

/-- FEAT. -/
def execFeat (r : CtlRec) (s : State) : Host.Outcome State Fault Refusal := ctlLocal s (featWork r)
/-- HMOV. -/
def execHmov (r : CtlRec) (s : State) : Host.Outcome State Fault Refusal := ctlLocal s fun _ => hmovWork r

/-! ### RELQ (R323, Table 14.8) -/

/-- The value RELQ reads of an engine. -/
def RelocEng.relq (e : RelocEng) : Word := BitVec.ofNat 64 (min e.queue.length 17 * 2 ^ 59 + e.pass % 8 * 2 ^ 56 + e.moved % 2 ^ 32)

def relqWork (r : CtlRec) (s : State) (c : CSite) : LRes := .ok (c.w.setS r.d (tgetD s.heap.engines (field r.imm 1 0) RelocEng.blank).relq)

/-- RELQ. -/
def execRelq (r : CtlRec) (s : State) : Host.Outcome State Fault Refusal := ctlLocal s (relqWork r)

/-! ### Traps (R327, R328) -/

/-- The fault queue as the block's TRAP.POPs leave it. -/
def CSite.queue (c : CSite) : List FaultRec := c.rg.queue.filter fun f => !c.w.pops.contains f.seq

/-- The record TRAP.RD reads: the trap record, or the software head. -/
def trapSel (imm : Word) (c : CSite) : Option FaultRec := if bitAt imm 3 then softHead c.queue else c.rg.trapRec

def trapRdWork (r : CtlRec) (c : CSite) : LRes :=
  .ok (c.w.setS r.d (match trapSel r.imm c with
    | some f => f.word (field r.imm 2 0)
    | none => 0))

def trapPopWork (_r : CtlRec) (c : CSite) : LRes :=
  .ok (match softHead c.queue with
    | some f => { c.w with pops := c.w.pops ++ [f.seq] }
    | none => c.w)

def trapWork (r : CtlRec) (c : CSite) : LRes := .ok { c.w with trapCode := some (field r.imm 15 0) }

def rettWork (_r : CtlRec) (c : CSite) : LRes := .ok { c.w with ending := .rett }
def haltWork (_r : CtlRec) (c : CSite) : LRes := .ok { c.w with ending := .halt }
def idleWork (r : CtlRec) (c : CSite) : LRes := .ok { c.w with idle := some (field r.imm 31 0) }

/-- TRAP: the trap is taken after the block's commit. -/
def execTrap (r : CtlRec) (s : State) : Host.Outcome State Fault Refusal := ctlLocal s fun _ => trapWork r
/-- TRAP.RD. -/
def execTrapRd (r : CtlRec) (s : State) : Host.Outcome State Fault Refusal := ctlLocal s fun _ => trapRdWork r
/-- TRAP.POP. -/
def execTrapPop (r : CtlRec) (s : State) : Host.Outcome State Fault Refusal := ctlLocal s fun _ => trapPopWork r
/-- RETT. -/
def execRett (r : CtlRec) (s : State) : Host.Outcome State Fault Refusal := ctlLocal s fun _ => rettWork r
/-- HALT. -/
def execHalt (r : CtlRec) (s : State) : Host.Outcome State Fault Refusal := ctlLocal s fun _ => haltWork r
/-- IDLE. -/
def execIdle (r : CtlRec) (s : State) : Host.Outcome State Fault Refusal := ctlLocal s fun _ => idleWork r

/-! ### Waits -/

/-- Whether a unit of the region has not completed. -/
def Region.anyUnit (r : Region) : Bool := r.blocks.any fun e => !e.2.image.hdr.control

/-- BWAIT: every unit that earlier blocks issued has completed (R303). -/
def execBwait (_r : CtlRec) (s : State) : Host.Outcome State Fault Refusal :=
  ctlWait s fun s c => if c.rg.anyUnit then .stay s c.w else .next s c.w

/-- A wait posted at the cairn unit: the control core stands until it completes (R196). -/
def State.postWait (s : State) (key c : Nat) (w : Word) : State :=
  let s1 := { s with cairn := { s.cairn with waits := s.cairn.waits ++ [⟨c, w, .core key⟩] } }
  match tget s1.regions key with
  | some r => s1.putRegion key { r with waiting := true }
  | none => s1

/-- CWAIT (R313): it ends at a point at which the cairn has reached the operand; `begun` once its pending wait has completed. -/
def execCwait (r : CtlRec) (s : State) : Host.Outcome State Fault Refusal :=
  ctlWait s fun s c =>
    if c.w.begun then .next s c.w
    else if 2 ^ 20 ≤ (c.sA r).toNat then .fault s c.w cNoCairn 0 0
    else if (c.x r).toNat ≤ (s.cairn.val (c.sA r).toNat).toNat then .next s c.w
    else .stay (s.postWait c.key (c.sA r).toNat (c.x r)) c.w

/-- Accesses of a region that have been issued and not yet accounted for: those of its firings, stream ports and engines. -/
def State.openAccs (s : State) (r : Region) : List Acc :=
  (r.tiles.flatMap fun k => (s.tile k).ready.flatMap fun f => f.accs) ++
  (r.tiles.flatMap fun k => (s.tile k).streams.flatMap fun p => p.2.accs) ++
  r.engines.flatMap fun e => e.work.flatMap fun p => p.accs

/-- EFENCE (R329, R234): it waits for every access issued before it that none has covered, and covers them. -/
def execEfence (_r : CtlRec) (s : State) : Host.Outcome State Fault Refusal :=
  ctlWait s fun s c =>
    let w := if c.w.aux.isEmpty then { c.w with aux := [c.rg.issued] } else c.w
    let mark := w.aux.getD 0 0
    if (s.openAccs c.rg).any fun a => decide (a.issue < mark) then .stay s w
    else
      let bad := c.rg.errs.filter fun e => decide (e.1 < mark)
      let s1 := s.putRegion c.key { c.rg with errs := c.rg.errs.filter fun e => !decide (e.1 < mark) }
      match bad with
      | [] => .next s1 w
      | e :: es => .fault s1 w cPendingError 0 (es.foldl (fun m x => min m x.2) e.2)

/-! ### Every local record, for the checks that come before a block's first effect (R451) -/

/-- What a local record does; none for a wait, an effect, a node or an event. -/
def localRes (s : State) (c : CSite) (i : Instr) : Option LRes :=
  match i with
  | .addS r => some (addSWork r c)
  | .subS r => some (subSWork r c)
  | .mulS r => some (mulSWork r c)
  | .mulhS r => some (mulhSWork r c)
  | .divS r => some (divSWork r c)
  | .remS r => some (remSWork r c)
  | .andS r => some (andSWork r c)
  | .orS r => some (orSWork r c)
  | .xorS r => some (xorSWork r c)
  | .andnS r => some (andnSWork r c)
  | .shlS r => some (shlSWork r c)
  | .shrS r => some (shrSWork r c)
  | .sarS r => some (sarSWork r c)
  | .minS r => some (minSWork r c)
  | .maxS r => some (maxSWork r c)
  | .movi r => some (moviWork r c)
  | .sel r => some (selWork r c)
  | .setc r => some (setcWork r c)
  | .clz r => some (clzWork r c)
  | .popc r => some (popcWork r c)
  | .csrr r => some (csrrWork r c)
  | .csrw r => some (csrwWork r c)
  | .exitB r => some (exitBWork r c)
  | .exitc r => some (exitcWork r c)
  | .callb r => some (callbWork r c)
  | .retb r => some (retbWork r c)
  | .feat r => some (featWork r s c)
  | .hmov r => some (hmovWork r c)
  | .relq r => some (relqWork r s c)
  | .trap r => some (trapWork r c)
  | .trapRd r => some (trapRdWork r c)
  | .trapPop r => some (trapPopWork r c)
  | .rett r => some (rettWork r c)
  | .halt r => some (haltWork r c)
  | .idle r => some (idleWork r c)
  | _ => none

/-- Whether a record is a wait (R292). -/
def isWait : Instr → Bool
  | .cwait _ | .bwait _ | .efence _ => true
  | _ => false

/-- Whether a record ends its block (R279). -/
def endsBlock : Instr → Bool
  | .exitB _ | .exitc _ | .callb _ | .retb _ | .rett _ | .halt _ => true
  | _ => false

end Sys2Proof.Machine
end

