-- ==== Sys2Proof/Machine/Check.lean ====
section
/-! DEFINITION. The checks of a control block that come before its first effect (R451), and the shell of an effect (R292, R293). -/

namespace Sys2Proof.Machine

/-! ### Pieces of the checks -/

/-- A fault found by a check: code, reason, reported address, virtual address for the SCC. -/
structure CFault where
  code : Nat
  reason : Nat
  addr : Nat
  va : Nat
  deriving DecidableEq, Repr

/-- Translation of the pieces of an access without making it: the first fault, or the physical pieces. -/
def State.peekPieces (s : State) (key ctx : Nat) (it : Intent) : List (Nat × Nat) → List (Nat × Nat) → Except CFault (List (Nat × Nat))
  | [], acc => .ok acc
  | (va, n) :: t, acc =>
    let v := va % 2 ^ 64
    match s.peek (.core key) ctx v it with
    | .fault code => .error ⟨code, 0, v, v⟩
    | .ok pa _ =>
      if it = .write ∧ s.storeCow ctx pa = true then .error ⟨cCow, 0, v, v⟩ else s.peekPieces key ctx it t (acc ++ [(pa, n)])

/-- Translation of `n` bytes at a virtual address. -/
def State.peekSpan (s : State) (key ctx : Nat) (it : Intent) (va n : Nat) : Except CFault (List (Nat × Nat)) :=
  s.peekPieces key ctx it (beats (n + 1) va n) []

def spanFault (r : Except CFault (List (Nat × Nat))) : Option CFault :=
  match r with
  | .ok _ => none
  | .error f => some f

/-- A fault without address. -/
def plainFault (code : Nat) : CFault := ⟨code, 0, 0, 0⟩

/-- A cairn number above 0xF_FFFF (R313). -/
def cairnFault (v : Word) : Option CFault := if 2 ^ 20 ≤ v.toNat then some (plainFault cNoCairn) else none

/-- The virtual address of LDS and STS (R297). -/
def CSite.va (c : CSite) (r : CtlRec) : Nat := (c.sA r + r.imm).toNat

/-- The declaration FDECL names: IDX, statement, and whether unused fields are zero; none where its halves are malformed (R281). -/
def Image.declAt (m : Image) (n : Nat) : Option (Nat × Stmt × Bool) :=
  match m.decls[n]?, m.decls[n + 1]? with
  | some x, some y =>
    match stmtOf x y, Decode.decl x with
    | some (i, d), .ok (.stmt1 _ _ _ _ _ _ _ _ _ clean) => some (i, d, clean && match Decode.decl y with
      | .ok (.stmt2 _ dist) => (dist.drop d.rank).all fun v => decide (v = 0)
      | _ => false)
    | _, _ => none
  | _, _ => none

/-- The number of the first check of Table 6.6 that an FDECL fails; 0 for none. -/
def fdeclFails (m : Image) (n : Nat) (stmts : Tab Stmt) : Nat :=
  match m.declAt n with
  | none => 1
  | some (i, d, clean) => declCheck i d stmts clean

/-- The statements of a region: every tile holds the same. -/
def State.stmtsOf (s : State) (rg : Region) : Tab Stmt := (s.tile (rg.tileKey 0)).stmts

/-- The check of a reference that comes before an access: form, header write, released page, translation (R204, R206, R220); a pin passes as a
store at object offset 16. -/
def State.heapFault (s : State) (key ctx : Nat) (store : Bool) (f : Nat) (r : Word) : Option CFault :=
  match refFault r with
  | some c => some ⟨c, 0, r.toNat, 0⟩
  | none =>
    let page := refVa r / 65536 * 65536
    if store && decide (f < 16) then some ⟨cHeaderWrite, 0, r.toNat, 0⟩
    else if s.pageReleased ctx page then some ⟨cStaleRef, 0, r.toNat, 0⟩
    else
      let found := match (s.barrierOf (.core key)).find? fun e => decide (e.ctx = ctx ∧ e.page = page) with
        | some e => XRes.ok e.pa ⟨ctx, page, 65536, e.pa, e.w, false, true, e.cow⟩
        | none => s.peek (.core key) ctx page .heap
      (match found with
        | .fault c => some c
        | .ok _ e => if store then writeFault e.w e.cow else none).map fun c => ⟨c, 0, refVa r, refVa r⟩

/-- The words of a descriptor's bytes. -/
def wordsOf (bs : List Byte) : List Word := (List.range 8).map fun i => BitVec.ofNat 64 (leNat ((bs.drop (8 * i)).take 8))

/-- A descriptor as a system command or launch. -/
def sysCmdOf (w : List Word) : SysCmd := ⟨dw w 0, dw w 1, dw w 2, dw w 3, dw w 4, dw w 5, dw w 6, dw w 7⟩

/-- The pages of a range of an RPUT or RGET, as far as they are mapped, lie on the right side (R346). -/
def State.sideOk (s : State) (key ctx va len : Nat) (remote : Bool) : Bool :=
  (List.range (len / 65536 + 2)).all fun i =>
    let a := if i = 0 then va else (va / 65536 + i) * 65536
    decide (va + len ≤ a) || match (s.leafOf (.core key) ctx a).1 with
      | .ok pa _ => s.isLocal pa == !remote
      | .fault _ => true

/-- Whether an engine descriptor keeps its layout and its sides (R334, R346), and a remote signal its feature (R63). -/
def State.engineFits (s : State) (c : CSite) (kind : Nat) (w : List Word) (bound : Bool) : Bool :=
  engineOk kind w c.rg.size bound &&
  (decide (kind ≠ 0x24 ∧ kind ≠ 0x25) || !bitAt (dw w 4) 32 || decide (field (dw w 4) 31 20 = s.dev.devNum) || s.featenN.testBit 16) &&
  match kind with
  | 0x24 => s.sideOk c.key c.rg.ctx (field (dw w 1) 55 0) (engLen w) false && s.sideOk c.key c.rg.ctx (field (dw w 2) 55 0) (engLen w) true
  | 0x25 => s.sideOk c.key c.rg.ctx (field (dw w 1) 55 0) (engLen w) true && s.sideOk c.key c.rg.ctx (field (dw w 2) 55 0) (engLen w) false
  | _ => true

/-- What the checks have read from another device for a record, at an address. -/
def Work.descAt (w : Work) (n va : Nat) : Option (List Byte) := (w.descs.find? fun d => decide (d.1 = n ∧ d.2.1 = va)).map fun d => d.2.2

/-- Blocks of a range as far as it is mapped: their virtual addresses, and where they lie. -/
def State.newBlocks (s : State) (o : TlbOf) (ctx new len : Nat) : List (Nat × Nat) :=
  (List.range (len / 2048)).filterMap fun i =>
    match s.peek o ctx (new + 2048 * i) .fetch with
    | .fault _ => none
    | .ok pa _ => some (new + 2048 * i, s.target ctx pa)

/-- The absent-feature check of REPLACE, record `n` of its block: block headers of the new range, as far as it is mapped (R304). -/
def State.replaceLacks (s : State) (c : CSite) (n new len have_ : Nat) : Bool :=
  (s.newBlocks (.core c.key) c.rg.ctx new len).any fun b =>
    match Decode.header (recAt (if s.isLocal b.2 then (s.loadNow b.2 12).1 else (c.w.descAt n b.1).getD []) 0) with
    | .ok h => !featsIn h.freq have_
    | .error _ => false

/-! ### The walk over a block's records -/

/-- The region tiles a stream command names: 00 tiles 0 to 63 by s[B], 01 all, 10 tiles 64 to 127 by s[B]. -/
def CSite.streamTiles (c : CSite) (r : CtlRec) : List Nat :=
  let v := c.sB r
  ((List.range c.rg.size).filter fun t => match field r.m 1 0 with
    | 0 => decide (t < 64) && v.getLsbD t
    | 1 => true
    | _ => decide (64 ≤ t) && v.getLsbD (t - 64)).map c.rg.tileKey

/-- The ports of a mask. -/
def portsOf (imm : Word) : List Nat := (List.range 8).filter fun p => bitAt imm p

/-- The tile mask of a RUN: bits at or above the region's tile count are ignored. -/
def CSite.runMask (c : CSite) (r : CtlRec) : BitVec 128 :=
  let all := BitVec.ofNat 128 (2 ^ c.rg.size - 1)
  if r.m.getLsbD 0 then all else BitVec.ofNat 128 ((c.sA r).toNat + 2 ^ 64 * (c.sB r).toNat) &&& all

/-- What is known while the records are walked: working registers, registers that hold what an effect has produced, statements and arm
entries as the block's effects leave them, whether a RUN has come, where stores have gone (`wild`: anywhere), whether a transaction is open; stream commands by
tile and port, engine commands and units of the block. -/
structure Chk where
  w : Work
  ts : List (BitVec 5)
  th : List (BitVec 5)
  stmts : Option (Tab Stmt)
  arms : Option (List Arm)
  runs : Bool
  stored : List (Nat × Nat)
  wild : Bool
  txn : Option Bool
  cmds : List Nat
  engines : Nat
  units : Nat
  deriving DecidableEq, Repr

def Chk.start (s : State) (c : CSite) : Chk where
  w := c.w
  ts := []
  th := []
  stmts := some (s.stmtsOf c.rg)
  arms := (tget s.host.ctxs c.rg.ctx).map fun x => x.arms
  runs := c.rg.anyUnit
  stored := []
  wild := false
  txn := some c.rg.txn.isSome
  cmds := []
  engines := 0
  units := 0

def Chk.cleanS (k : Chk) (n : BitVec 5) : Bool := !k.ts.contains n
def Chk.cleanH (k : Chk) (n : BitVec 5) : Bool := !k.th.contains n

/-- A register now holds what an effect has produced, or what is known. -/
def Chk.taintS (k : Chk) (n : BitVec 5) : Chk := if n = 0 then k else { k with ts := n :: k.ts }
def Chk.taintH (k : Chk) (n : BitVec 5) : Chk := { k with th := n :: k.th }

/-- Whether an earlier store of the block may reach some physical pieces. -/
def Chk.hits (k : Chk) (ps : List (Nat × Nat)) : Bool :=
  k.wild || ps.any fun p => k.stored.any fun q => decide (q.1 < p.1 + p.2 ∧ p.1 < q.1 + q.2)

/-- The descriptor at s[A] of record `n`: alignment, translation, and its words where no store of the block has them (R334). -/
def State.descFault (s : State) (c : CSite) (k : Chk) (n : Nat) (r : CtlRec) (ok : List Word → Bool) : Option CFault :=
  if !k.cleanS r.a then none
  else
    let a := (c.sA r).toNat
    if a % 64 ≠ 0 then some ⟨cAddressForm, 0, a, 0⟩
    else
      match s.peekSpan c.key c.rg.ctx .read a 64 with
      | .error f => some f
      | .ok ps =>
        if k.hits ps then none
        else
          let bs := (c.w.descAt n a).getD (ps.flatMap fun p => (s.loadNow (s.target c.rg.ctx p.1) p.2).1)
          if ok (wordsOf bs) then none else some (plainFault cIllegalInstr)

/-- Whether the descriptor at s[A] of record `n` has still to be read from another device for its check. -/
def State.descAway (s : State) (c : CSite) (k : Chk) (n : Nat) (r : CtlRec) : Option Nat :=
  let a := (c.sA r).toNat
  if !k.cleanS r.a || decide (a % 64 ≠ 0) || (c.w.descAt n a).isSome then none
  else
    match s.peekSpan c.key c.rg.ctx .read a 64 with
    | .error _ => none
    | .ok ps => if k.hits ps || ps.all fun p => s.isLocal (s.target c.rg.ctx p.1) then none else some a

/-- What a check of record `n` has still to read from another device: a descriptor (R334), or a block header of REPLACE's new range (R304). -/
def State.checkReads (s : State) (c : CSite) (k : Chk) (n : Nat) (i : Instr) : Option Nat :=
  match i with
  | .sbind r | .copy r | .gather r | .scatter r | .cred r | .rput r | .rget r => s.descAway c k n r
  | .replaceB r =>
    if k.cleanS r.a && k.cleanS r.b && decide ((c.sA r).toNat % 2048 = 0 ∧ (c.sB r).toNat % 2048 = 0 ∧ r.imm.toNat % 2048 = 0) then
      ((s.newBlocks (.core c.key) c.rg.ctx (c.sB r).toNat r.imm.toNat).find? fun b => !s.isLocal b.2 && (c.w.descAt n b.1).isNone).map fun b => b.1
    else none
  | _ => none

/-- The name FSPILL and FFILL give by s[A]: IDX, vector and widths (R310). -/
def spillIdx (v : Word) : Nat := field v 39 32
def spillWidth (v : Word) (d : Nat) : Nat := field v (45 + 6 * d) (40 + 6 * d)

/-- Whether the width fields keep their rules. -/
def spillOk (v : Word) (st : Stmt) : Bool :=
  ((List.range 4).all fun d => if d < st.rank then decide (1 ≤ spillWidth v d ∧ spillWidth v d ≤ 32 ∧ st.lat.getD d 0 ≤ spillWidth v d) else decide (spillWidth v d = 0)) &&
  decide (((List.range st.rank).map (spillWidth v)).sum ≤ 32)

/-- A check that the operands of an effect, record `n`, allow before it is performed. -/
def effFault (s : State) (c : CSite) (k : Chk) (n : Nat) (i : Instr) : Option CFault :=
  match i with
  | .lds r => if k.cleanS r.a then spanFault (s.peekSpan c.key c.rg.ctx .read (c.va r) (widthBytes r.m)) else none
  | .sts r => if k.cleanS r.a then spanFault (s.peekSpan c.key c.rg.ctx .write (c.va r) (widthBytes r.m)) else none
  | .cadd r | .crd r | .xbegin r => if k.cleanS r.a then cairnFault (c.sA r) else none
  | .cnew r => if k.cleanS r.a && decide (r.a ≠ 0) then cairnFault (c.sA r) else none
  | .launch r =>
    if !k.cleanS r.a then none
    else if (c.sA r).toNat % 64 ≠ 0 then some ⟨cAddressForm, 0, (c.sA r).toNat, 0⟩
    else spanFault (s.peekSpan c.key c.rg.ctx .read (c.sA r).toNat 64)
  | .arm r =>
    (if k.cleanS r.a then cairnFault (c.sA r) else none).or <|
      match k.arms with
      | some l => if k.cleanS r.b && armFull l (field r.imm 1 0) (if field r.imm 1 0 = 3 then 0 else (c.sB r).toNat) then some (plainFault cArmFull) else none
      | none => none
  | .hld r => if k.cleanH r.a then s.heapFault c.key c.rg.ctx false r.imm.toNat (c.hA r) else none
  | .hst r => if k.cleanH r.a then s.heapFault c.key c.rg.ctx true r.imm.toNat (c.hA r) else none
  | .hpin r | .hunpin r => if k.cleanH r.a then s.heapFault c.key c.rg.ctx true 16 (c.hA r) else none
  | .hcmp r =>
    if k.cleanH r.a && k.cleanH r.b && decide (c.hA r ≠ 0) && decide (c.hB r ≠ 0) then
      (s.heapFault c.key c.rg.ctx false 0 (c.hA r)).or (s.heapFault c.key c.rg.ctx false 0 (c.hB r))
    else none
  | .hnew r =>
    if k.cleanS r.a && decide ((c.sA r).toNat < 16 ∨ 65536 < (c.sA r).toNat ∨ (c.sA r).toNat % 16 ≠ 0) then some (plainFault cAllocSize) else none
  | .reloc r => if k.cleanS r.a && !inHeap (c.sA r).toNat then some ⟨cNotHeap, 0, (c.sA r).toNat, 0⟩ else none
  | .replaceB r =>
    if k.cleanS r.a && k.cleanS r.b && decide ((c.sA r).toNat % 2048 = 0 ∧ (c.sB r).toNat % 2048 = 0 ∧ r.imm.toNat % 2048 = 0) &&
        s.replaceLacks c n (c.sB r).toNat r.imm.toNat (s.diefeat (dieOf c.rg.part)) then
      some (plainFault cAbsentFeature)
    else none
  | .fdecl r =>
    match k.stmts with
    | some t => let m := fdeclFails c.blk.image (field r.imm 3 0) t
      if m ≠ 0 then some ⟨cDeclFault, m, 0, 0⟩ else none
    | none => none
  | .fspill r | .ffill r =>
    match k.stmts with
    | some t =>
      if !k.cleanS r.a || !k.cleanS r.b then none
      else
        match tget t (spillIdx (c.sA r)) with
        | none => none
        | some st =>
          if c.rg.size ≤ field r.imm 6 0 ∨ spillOk (c.sA r) st = false then none
          else
            let it := match i with
              | .fspill _ => Intent.write
              | _ => .read
            spanFault (s.peekSpan c.key c.rg.ctx it ((c.sB r).toNat / 64 * 64) (st.rows * 64))
    | none => none
  | .run r | .runw r => if k.cleanS r.d && decide (r.d ≠ 0) then cairnFault (readS c.w.s r.d) else none
  | .sbind r => s.descFault c k n r patternOk
  | .copy r => engFault r 0x20
  | .gather r => engFault r 0x21
  | .scatter r => engFault r 0x22
  | .cred r => engFault r 0x23
  | .rput r => engFault r 0x24
  | .rget r => engFault r 0x25
  | .xput r =>
    if k.txn = some true ∧ k.cleanS r.a = true ∧ k.cleanS r.b = true then
      (spanFault (s.peekSpan c.key c.rg.ctx .read (c.sA r).toNat r.imm.toNat)).or
        (spanFault (s.peekSpan c.key c.rg.ctx .write (c.sB r).toNat r.imm.toNat))
    else none
  | _ => none
where
  /-- An engine command's cairn and descriptor. -/
  engFault (r : CtlRec) (kind : Nat) : Option CFault :=
    (if k.cleanS r.d && decide (r.d ≠ 0) then cairnFault (readS c.w.s r.d) else none).or
      (s.descFault c k n r fun w => s.engineFits c kind w k.runs)

/-- Stream commands of a record, where its tiles are known. -/
def Chk.commands (k : Chk) (c : CSite) (r : CtlRec) (ps : List Nat) : Chk :=
  if decide (field r.m 1 0 ≠ 1) && !k.cleanS r.b then k
  else { k with cmds := k.cmds ++ (c.streamTiles r).flatMap fun t => ps.map fun p => t * 8 + p }

/-- A unit of a record, where its mask is known and not empty. -/
def Chk.unit (k : Chk) (c : CSite) (r : CtlRec) : Chk :=
  if (r.m.getLsbD 0 || (k.cleanS r.a && k.cleanS r.b)) && decide (c.runMask r ≠ 0) then { k with units := k.units + 1, runs := true } else { k with runs := true }

/-- Whether a block has to be held before its first effect: a command queue, the engines or the free entries have no room for what it issues
(R299, R339, R342). -/
def Chk.holds (k : Chk) (s : State) (rg : Region) : Bool :=
  (k.cmds.dedup.any fun x => decide (4 < ((s.tile (x / 8)).stream (x % 8)).queue.length + min 4 (k.cmds.count x))) ||
  decide (0 < k.engines ∧ 16 < rg.engines.length + min 16 k.engines) ||
  decide (((List.range 8).filter fun n => (tget rg.blocks n).isNone).length < min 7 k.units)

/-- What is known after an effect. -/
def effAfter (s : State) (c : CSite) (k : Chk) (i : Instr) : Chk :=
  match i with
  | .lds r | .crd r | .cnew r | .launch r | .cancel r | .replaceB r | .fresize r | .fqry r | .xput r | .reloc r | .snap r => k.taintS r.d
  | .sts r =>
    if k.cleanS r.a then
      match s.peekSpan c.key c.rg.ctx .write (c.va r) (widthBytes r.m) with
      | .ok ps => { k with stored := k.stored ++ ps }
      | .error _ => k
    else { k with wild := true }
  | .hld r => (if r.m = 11 then k.taintH r.d else k.taintS r.d).taintH r.a
  | .hst r | .hunpin r => k.taintH r.a
  | .hpin r => (k.taintS r.d).taintH r.a
  | .hcmp r => ((k.taintS r.d).taintH r.a).taintH r.b
  | .hnew r => k.taintH r.d
  | .arm r => { k with arms := k.arms.bind fun l => if k.cleanS r.b then some (l ++ [⟨field r.imm 1 0, if field r.imm 1 0 = 3 then 0 else (c.sB r).toNat, 0, 1, false⟩]) else none }
  | .fdecl r => { k with stmts := k.stmts.map fun t => match c.blk.image.declAt (field r.imm 3 0) with
      | some (n, d, _) => tput t n d
      | none => t }
  | .fdrop r => { k with stmts := if k.cleanS r.a then k.stmts.map fun t => tdel t (c.sA r).toNat else none }.taintS r.d
  | .fspill r => { k with wild := true }.taintS r.d
  | .ffill r => k.taintS r.d
  | .run r | .runw r => k.unit c r
  | .sbind r => k.commands c r [field r.imm 2 0]
  | .sgo r | .sstop r => k.commands c r (portsOf r.imm)
  | .copy _ | .gather _ | .scatter _ | .cred _ | .rput _ | .rget _ => { k with engines := k.engines + 1 }
  | .xbegin r => { k with txn := none }.taintS r.d
  | .xcommit _ | .xabort _ => { k with txn := some false }
  | _ => k

/-- The registers a local record reads and writes: whether a source holds what an effect has produced, and the record's result then. -/
def localTaint (k : Chk) (i : Instr) : Option Chk :=
  match i, Rules.ctlRule i with
  | .hmov r, _ =>
    match field r.m 1 0 with
    | 0 => if k.cleanS r.a then none else some (k.taintH r.d)
    | 1 => if k.cleanH r.a then none else some (k.taintS r.d)
    | _ => if k.cleanH r.a then none else some (k.taintH r.d)
  | _, some (_, r) => if k.cleanS r.a && k.cleanS r.b then none else some (k.taintS r.d)
  | _, none => none

/-- A local record's result is known again. -/
def localClean (k : Chk) (i : Instr) : Chk :=
  match i, Rules.ctlRule i with
  | .hmov r, _ => if field r.m 1 0 = 1 then { k with ts := k.ts.filter fun n => decide (n ≠ r.d) } else { k with th := k.th.filter fun n => decide (n ≠ r.d) }
  | _, some (_, r) => { k with ts := k.ts.filter fun n => decide (n ≠ r.d) }
  | _, none => k

/-- How the checks end: passed; the block is held; something of another device has to be read for record `n`; a fault. -/
inductive Pre where
  | ok (s : State)
  | hold (s : State)
  | ask (s : State) (n va : Nat)
  | fault (s : State) (f : CFault)
  deriving DecidableEq, Repr

/-- The image of a fabric block that RUN or RUNW names: its header is fetched before the block commits (R299). -/
def State.runHeader (s : State) (c : CSite) (i : Instr) : Pre :=
  match i with
  | .run r | .runw r =>
    match s.wantImage c.key c.rg r.imm.toNat with
    | .fault s' code va => .fault s' ⟨code, 0, va, va⟩
    | .wait s' => .hold s'
    | .ok s' (some m) => if m.hdr.control then .fault s' (plainFault cIllegalInstr) else .ok s'
    | .ok s' none => .fault s' (plainFault cIllegalInstr)
  | _ => .ok s

/-- The checks over the records that remain (R451). -/
def State.walkRecs (c : CSite) : List Rec96 → State → Chk → Pre
  | [], s, k => if k.holds s c.rg then .hold s else .ok s
  | x :: xs, s, k =>
    match Decode.record x with
    | .error _ => State.walkRecs c xs s k
    | .ok i =>
      let c' := { c with w := k.w }
      match localRes s c' i with
      | some lr =>
        match localTaint k i with
        | some k' => State.walkRecs c xs s k'
        | none =>
          match lr with
          | .ok w => State.walkRecs c xs s { localClean k i with w := w }
          | .fault code => .fault s (plainFault code)
      | none =>
        let n := c.blk.image.recs.length - (xs.length + 1)
        match s.checkReads c' k n i with
        | some va => .ask s n va
        | none =>
          match effFault s c' k n i with
          | some f => .fault s f
          | none =>
            match s.runHeader c' i with
            | .ok s' => State.walkRecs c xs s' (effAfter s c' k i)
            | p => p

def State.precheck (s : State) (c : CSite) : Pre := State.walkRecs c (c.blk.image.recs.drop c.w.pc) s (Chk.start s c)

/-! ### Accesses of a record -/

/-- One turn of a record's accesses; `g` what follows when all are performed. -/
def State.ctlTurn (s : State) (c : CSite) (accs : List Acc) (g : State → Work → List Acc → CRes) : CRes :=
  match s.turnAccs c.rg.ctx c.who accs with
  | .more s' as => .stay s' { c.w with begun := true, accs := as }
  | .all s' as => g s' { c.w with begun := true, accs := as } as
  | .fault s' code va => .fault (s'.minorAt code c.who c.rg.ctx va 0 0 c.key) { c.w with begun := true, accs := accs } code 0 va

/-- The accesses of a record at a virtual address: laid out once, then performed one by one. -/
def State.ctlAccess (s : State) (c : CSite) (it : Intent) (va n : Nat) (bs : List Byte) (psn full : Bool)
    (g : State → Work → List Acc → CRes) : CRes :=
  if c.w.begun then s.ctlTurn c c.w.accs g
  else
    match s.lay ⟨.core c.key, c.rg.ctx, it, 0, decide (it = .write), psn, full, 0⟩ va n bs with
    | .fault s' code a => .fault (s'.minorAt code c.who c.rg.ctx a 0 0 c.key) c.w code 0 a
    | .ok s' accs => match s'.issueAccs c.key accs with
      | (s2, as) => s2.ctlTurn c as g

/-- A load by a record: poison faults (R227). -/
def State.ctlLoad (s : State) (c : CSite) (va n : Nat) (g : State → Work → List Byte → CRes) : CRes :=
  s.ctlAccess c .read va n [] false false fun s' w as =>
    match as.find? fun a => a.psn with
    | some a => .fault s' w cPoisonedLoad 0 a.va
    | none => g s' w (laneBytes as 0)

/-! ### The shell of an effect -/

/-- The checks read the sector at an address of another device for record `n` (R451). -/
def State.checkRead (s : State) (c : CSite) (n va : Nat) : CRes :=
  s.ctlAccess c .read va 64 [] false false fun s' w as =>
    match as.find? fun a => a.psn with
    | some a => .fault s' w cPoisonedLoad 0 a.va
    | none => .stay s' { w with accs := [], begun := false, asking := none, descs := w.descs ++ [(n, va, laneBytes as 0)] }

/-- An effect: the first one of a block is performed only when every check of R451 has passed, and not while a trap is due (R225). -/
def ctlEffect (s : State) (g : State → CSite → CRes) : Host.Outcome State Fault Refusal :=
  match s.csite with
  | none => .fault .noActor
  | some c =>
    if c.w.checked then .next ((g s c).run c)
    else if c.rg.trapDue then .next s
    else
      match c.w.asking with
      | some (n, va) => .next ((s.checkRead c n va).run c)
      | none =>
      match s.precheck c with
      | .hold s1 => .next s1
      | .ask s1 n va => .next (s1.putWork c.key { c.w with asking := some (n, va) })
      | .fault s1 f => .next ((CRes.fault (s1.minorAt f.code c.who c.rg.ctx f.va 0 0 c.key) c.w f.code f.reason f.addr).run c)
      | .ok s1 =>
        match s1.csite with
        | none => .next s1
        | some c1 => .next ((g s1 { c1 with w := { c1.w with checked := true } }).run c1)

end Sys2Proof.Machine
end

