-- ==== Sys2Proof/Machine/CtlMem.lean ====
section
/-! DEFINITION. Control records: scalar memory, cairns, launches, cancellation, arming (R297, R311 to R317). -/

namespace Sys2Proof.Machine

/-! ### LDS and STS (R297) -/

/-- A store by a record; its error statuses are kept for EFENCE. -/
def State.ctlStore (s : State) (c : CSite) (va : Nat) (bs : List Byte) (psn full : Bool) (g : State → Work → CRes) : CRes :=
  s.ctlAccess c .write va bs.length bs psn full fun s' w as => g (s'.noteErrs c.key as) w

/-- LDS. -/
def execLds (r : CtlRec) (s : State) : Host.Outcome State Fault Refusal :=
  ctlEffect s fun s c => s.ctlLoad c (c.va r) (widthBytes r.m) fun s' w bs => .effect s' (w.setS r.d (widthVal r.m (leNat bs)))

/-- STS. -/
def execSts (r : CtlRec) (s : State) : Host.Outcome State Fault Refusal :=
  ctlEffect s fun s c => s.ctlStore c (c.va r) (leBytes (widthBytes r.m) (c.sB r).toNat) false false fun s' w => .effect s' w

/-! ### Cairns (R311, R312, R314) -/

/-- A free cairn of the device's range, whichever is taken; none where every one is taken. -/
def State.freeCairn (s : State) : Option Nat := go (s.cairn.taken.length + 1) (s.choice 524288)
where
  /-- Tries cairns upward from a place, round the range. -/
  go : Nat → Nat → Option Nat
    | 0, _ => none
    | fuel + 1, i =>
      let k := 524288 + i % 524288
      if (tget s.cairn.taken k).isSome then go fuel (i + 1) else some k

/-- CNEW. -/
def execCnew (r : CtlRec) (s : State) : Host.Outcome State Fault Refusal :=
  ctlEffect s fun s c =>
    if r.a ≠ 0 then
      if 2 ^ 20 ≤ (c.sA r).toNat then .fault s c.w cNoCairn 0 0
      else .effect { s with cairn := s.cairn.create (c.sA r).toNat } (c.w.setS r.d (c.sA r))
    else
      match s.freeCairn with
      | none => .effect s (c.w.setS r.d (BitVec.allOnes 64))
      | some k =>
        let cs := { s.cairn.create k with taken := tput s.cairn.taken k c.rg.ctx }
        .effect { s with cairn := cs, draws := s.draws + 1 } (c.w.setS r.d (BitVec.ofNat 64 k))

/-- CADD: an overflow queues its record, and the block goes on. -/
def execCadd (r : CtlRec) (s : State) : Host.Outcome State Fault Refusal :=
  ctlEffect s fun s c =>
    if 2 ^ 20 ≤ (c.sA r).toNat then .fault s c.w cNoCairn 0 0
    else .effect (s.cairnAddBy c.key (c.sA r).toNat (c.x r) (c.faultRec s cCairnOverflow 0 0)) c.w

/-- CRD. -/
def execCrd (r : CtlRec) (s : State) : Host.Outcome State Fault Refusal :=
  ctlEffect s fun s c =>
    if 2 ^ 20 ≤ (c.sA r).toNat then .fault s c.w cNoCairn 0 0
    else .effect s (c.w.setS r.d (if r.m.getLsbD 0 then (if s.cairn.flag (c.sA r).toNat then 1 else 0) else s.cairn.val (c.sA r).toNat))

/-! ### Launches (R315) -/

/-- LAUNCH. -/
def execLaunch (r : CtlRec) (s : State) : Host.Outcome State Fault Refusal :=
  ctlEffect s fun s c =>
    if (c.sA r).toNat % 64 ≠ 0 then .fault s c.w cAddressForm 0 (c.sA r).toNat
    else s.ctlLoad c (c.sA r).toNat 64 fun s' w bs =>
      let d := sysCmdOf (wordsOf bs)
      if !launchOk d then .effect (s'.advance (field d.w2 19 0) true) (w.setS r.d 1)
      else
        let l := launchOf d c.rg.ctx (field r.imm 2 0) 0 none
        match s'.launchDie l (dieOf c.rg.part) with
        | none => .stay s' w
        | some die => .effect ((s'.admitLaunch { l with die := die }).drawn) (w.setS r.d 0)

/-- CANCEL: the cancellation starts when the block has committed. -/
def execCancel (r : CtlRec) (s : State) : Host.Outcome State Fault Refusal :=
  ctlEffect s fun s c =>
    let level := field r.imm 1 0
    let here := decide (level = 0) && decide (c.sA r = 0)
    if here || s.anyMember c.rg.ctx level (c.sA r).toNat then
      .effect s { (c.w.setS r.d 0) with cancels := c.w.cancels ++ [(level, c.sA r)] }
    else .effect s (c.w.setS r.d 5)

/-- ARM. -/
def execArm (r : CtlRec) (s : State) : Host.Outcome State Fault Refusal :=
  ctlEffect s fun s c =>
    let level := field r.imm 1 0
    let num := if level = 3 then 0 else (c.sB r).toNat
    let arms := match tget s.host.ctxs c.rg.ctx with
      | some x => x.arms
      | none => []
    if 2 ^ 20 ≤ (c.sA r).toNat then .fault s c.w cNoCairn 0 0
    else if armFull arms level num then .fault s c.w cArmFull 0 0
    else .effect (s.arm c.rg.ctx level num (c.sA r).toNat (field r.imm 63 32)) c.w

end Sys2Proof.Machine
end

