-- ==== Sys2Proof/Machine/CtlFold.lean ====
section
/-! DEFINITION. Control records: issuing fabric blocks, REPLACE, fold management (R147 to R157, R299, R304, R306 to R310, R452). -/

namespace Sys2Proof.Machine

/-! ### RUN and RUNW (R299, R444) -/

/-- The unit takes a block-in-flight entry. -/
def Region.issueUnit (rg : Region) (slot addr : Nat) (m : Image) (mask : BitVec 128) (cairn : Option Nat) (hold : Bool) (blockOrder : Nat) : Region :=
  { rg with
    blocks := tput rg.blocks slot ⟨addr, m, .issued, mask, cairn, hold, rg.nextOrder, blockOrder⟩
    trapped := false
    nextOrder := rg.nextOrder + 1 }

/-- RUN, or RUNW with `hold`. -/
def runTurn (r : CtlRec) (hold : Bool) (s : State) (c : CSite) : CRes :=
  let d := readS c.w.s r.d
  if r.d ≠ 0 ∧ 2 ^ 20 ≤ d.toNat then .fault s c.w cNoCairn 0 0
  else
    match s.wantImage c.key c.rg r.imm.toNat with
    | .fault s' code va => .fault (s'.minorAt code c.who c.rg.ctx va 0 0 c.key) c.w code 0 va
    | .wait s' => .stay s' c.w
    | .ok s' none => .fault s' c.w cIllegalInstr 0 0
    | .ok s' (some m) =>
      if m.hdr.control then .fault s' c.w cIllegalInstr 0 0
      else
        let mask := c.runMask r
        let cairn := if r.d = 0 then none else some d.toNat
        if mask = 0 then .effect s' { c.w with empties := c.w.empties ++ cairn.toList }
        else
          match tget s'.regions c.key with
          | none => .stay s' c.w
          | some rg =>
            match rg.freeSlot with
            | none => .stay s' c.w
            | some b => .effect (s'.putRegion c.key (rg.issueUnit b r.imm.toNat m mask cairn hold c.blk.order)) c.w

/-- RUN. -/
def execRun (r : CtlRec) (s : State) : Host.Outcome State Fault Refusal := ctlEffect s (runTurn r false)
/-- RUNW. -/
def execRunw (r : CtlRec) (s : State) : Host.Outcome State Fault Refusal := ctlEffect s (runTurn r true)

/-! ### REPLACE (R304, R75) -/

/-- The redirection table after REPLACE; none where it has no room. -/
def redirectAfter (t : List (Nat × Nat × Nat)) (old new len : Nat) : Option (List (Nat × Nat × Nat)) :=
  if len = 0 then some (t.filter fun e => decide (e.1 ≠ old))
  else
    let keep := t.filter fun e => decide (e.1 + e.2.2 ≤ old ∨ old + len ≤ e.1)
    if 16 ≤ keep.length then none else some (keep ++ [(old, new, len)])

/-- Installs an entry and marks every region of the context, live or parked, to switch at its next boundary. -/
def State.replaceCode (s : State) (ctx : Nat) (t : List (Nat × Nat × Nat)) : State :=
  match tget s.host.ctxs ctx with
  | none => s
  | some x =>
    let mark := fun (r : Region) => if r.ctx = ctx then { r with replaceMark := true } else r
    { (s.putCtx ctx { x with redirect := t }) with
      regions := s.regions.map fun e => (e.1, mark e.2)
      parked := s.parked.map fun e => (e.1, { e.2 with region := mark e.2.region }) }

/-- Table of a context. -/
def State.redirectOf (s : State) (ctx : Nat) : List (Nat × Nat × Nat) :=
  match tget s.host.ctxs ctx with
  | some x => x.redirect
  | none => []

/-- REPLACE. -/
def execReplaceB (r : CtlRec) (s : State) : Host.Outcome State Fault Refusal :=
  ctlEffect s fun s c =>
    let old := (c.sA r).toNat
    let new := (c.sB r).toNat
    let len := r.imm.toNat
    if old % 2048 ≠ 0 ∨ new % 2048 ≠ 0 ∨ len % 2048 ≠ 0 then .effect s (c.w.setS r.d 2)
    else if s.replaceLacks c c.w.pc new len (s.diefeat (dieOf c.rg.part)) then .fault s c.w cAbsentFeature 0 0
    else
      match redirectAfter (s.redirectOf c.rg.ctx) old new len with
      | none => .effect s (c.w.setS r.d 1)
      | some t => .effect (s.replaceCode c.rg.ctx t) (c.w.setS r.d 0)

/-! ### Resizing (R154, R452) -/

/-- How a turn of the resize sequence ends: it goes on at a stage, or has a status. -/
inductive ResizeRes where
  | goes (s : State) (stage : Nat)
  | done (s : State) (status : Nat)
  deriving DecidableEq, Repr

/-- Whether a released PUT of a statement has still to be evaluated afresh. -/
def Tile.anyReleased (t : Tile) (idx : Nat) : Bool :=
  t.ready.any fun f => decide (f.st = .released) && match (t.inst f.pe f.slot).map fun n => Decode.record n.bits with
    | some (.ok (.putNode r)) => decide (r.mod.toNat = idx)
    | _ => false

/-- One turn of the sequence on every tile of the region: freeze; wait, check and move; wait for the released PUTs. -/
def State.resizeTurn (s : State) (rg : Region) (idx : Nat) (lat : List Nat) (stage : Nat) : ResizeRes :=
  let ks := rg.tiles
  let release := fun (s' : State) => s'.mapTiles ks fun t => (t.setResizing idx false).releasePuts idx
  match stage with
  | 0 => .goes (s.mapTiles ks fun t => t.setResizing idx true) 1
  | 1 =>
    let held := fun (k : Nat) => (tget (s.tile k).stmts idx).any fun d => (s.tile k).anySlot d fun e => decide (e = .filling ∨ e = .draining)
    if ks.any held then .goes s 1
    else
      let status := ks.foldl (fun m k => max m (match tget (s.tile k).stmts idx with
        | some d => (s.tile k).resizeCheck d lat
        | none => 0)) 0
      if status ≠ 0 then .done (release s) status
      else
        .goes (release (s.mapTiles ks fun t => match tget t.stmts idx with
          | some d => t.resize idx d lat
          | none => t)) 2
  | _ => if ks.any fun k => (s.tile k).anyReleased idx then .goes s 2 else .done s 0

/-- The lattice an FRESIZE names: log2 of each modulus; a nibble at or above RANK makes it too long. -/
def resizeLat (imm : Word) (rank : Nat) : List Nat :=
  let ns := (List.range 4).map fun d => field imm (4 * d + 3) (4 * d)
  if (ns.drop rank).any fun v => decide (v ≠ 0) then ns ++ [0] else ns.take rank

/-- FRESIZE. -/
def execFresize (r : CtlRec) (s : State) : Host.Outcome State Fault Refusal :=
  ctlEffect s fun s c =>
    let idx := (c.sA r).toNat
    match tget (s.stmtsOf c.rg) idx with
    | none => .effect s (c.w.setS r.d 4)
    | some d =>
      match s.resizeTurn c.rg idx (resizeLat r.imm d.rank) (c.w.aux.getD 0 0) with
      | .goes s' n => .stay s' { c.w with begun := true, aux := [n] }
      | .done s' st => .effect s' (c.w.setS r.d (BitVec.ofNat 64 st))

/-! ### Declaring, querying, dropping (R306, R308, R309) -/

/-- A redeclaration's READS, DIR and DIST (R151). -/
def Tile.redeclare (t : Tile) (idx : Nat) (d : Stmt) : Tile :=
  match tget t.stmts idx with
  | some o => { t with stmts := tput t.stmts idx { o with reads := d.reads, dir := d.dir, dist := d.dist } }
  | none => t

/-- FDECL. -/
def execFdecl (r : CtlRec) (s : State) : Host.Outcome State Fault Refusal :=
  ctlEffect s fun s c =>
    let n := field r.imm 3 0
    match c.blk.image.declAt n with
    | none => .fault s c.w cDeclFault 1 0
    | some (idx, d, clean) =>
      let have_ := s.stmtsOf c.rg
      let bad := declCheck idx d have_ clean
      if bad ≠ 0 then .fault s c.w cDeclFault bad 0
      else
        match tget have_ idx with
        | none => .effect (s.mapTiles c.rg.tiles fun t => t.declare idx d) c.w
        | some o =>
          let same := decide (o.lat = d.lat) && decide (c.w.aux = [])
          if same then .effect (s.mapTiles c.rg.tiles fun t => t.redeclare idx d) c.w
          else
            match s.resizeTurn c.rg idx d.lat (c.w.aux.getD 0 0) with
            | .goes s' k => .stay s' { c.w with begun := true, aux := [k] }
            | .done s' 0 => .effect (s'.mapTiles c.rg.tiles fun t => t.redeclare idx d) c.w
            | .done s' _ => .fault s' c.w cDeclFault 8 0

/-- FQRY. -/
def execFqry (r : CtlRec) (s : State) : Host.Outcome State Fault Refusal :=
  ctlEffect s fun s c =>
    let t := field r.imm 7 1
    let v := match tget (s.stmtsOf c.rg) (c.sA r).toNat with
      | none => 1
      | some d =>
        if d.foot ≤ (c.sB r).toNat ∨ c.rg.size ≤ t then 1
        else
          let e := (s.tile (c.rg.tileKey t)).slot (d.base + (c.sB r).toNat * d.rows)
          if bitAt r.imm 0 then e.word1 else e.word0
    .effect s (c.w.setS r.d (BitVec.ofNat 64 v))

/-- FDROP. -/
def execFdrop (r : CtlRec) (s : State) : Host.Outcome State Fault Refusal :=
  ctlEffect s fun s c =>
    let idx := (c.sA r).toNat
    match tget (s.stmtsOf c.rg) idx with
    | none => .effect s (c.w.setS r.d 4)
    | some d =>
      if c.rg.tiles.any fun k => (s.tile k).anySlot d fun e => decide (e = .draining) then .stay s c.w
      else .effect (s.mapTiles c.rg.tiles fun t => t.drop idx) (c.w.setS r.d 0)

/-! ### Spilling and filling (R147, R148, R310) -/

/-- The name FSPILL or FFILL gives, with its widths; its status where there is none. -/
inductive SpillName where
  | status (n : Nat)
  | name (idx : Nat) (st : Stmt) (tile : Nat) (ws ds : List Nat)
  deriving DecidableEq, Repr

/-- The name and the tile; the statement is the named tile's own, whose resize floor it is (R452). -/
def State.spillName (s : State) (c : CSite) (r : CtlRec) : SpillName :=
  let v := c.sA r
  match tget (s.stmtsOf c.rg) (spillIdx v) with
  | none => .status 4
  | some st =>
    if c.rg.size ≤ field r.imm 6 0 ∨ spillOk v st = false then .status 3
    else
      let ws := (List.range st.rank).map (spillWidth v)
      let k := c.rg.tileKey (field r.imm 6 0)
      .name (spillIdx v) ((tget (s.tile k).stmts (spillIdx v)).getD st) k ws ((dimsOf ws (field v 31 0)).take st.rank)

/-- Rows laid out as full sectors at successive addresses; the element number of an access is its row. -/
def State.layRows (s : State) (c : CSite) (it : Intent) : List (List Byte × Bool) → Nat → Nat → List Acc → Laid
  | [], _, _, acc => .ok s acc
  | (bs, psn) :: rs, n, va, acc =>
    match s.lay ⟨.core c.key, c.rg.ctx, it, n, decide (it = .write), psn, decide (it = .write), 0⟩ va 64 bs with
    | .fault s' code a => .fault s' code a
    | .ok s' as => s'.layRows c it rs (n + 1) (va + 64) (acc ++ as)

/-- The bytes of a row, and whether an element of it is poisoned. -/
def Row.bytes (x : Row) : List Byte := x.lanes.flatMap fun l => leBytes 4 l.val.toNat
def Row.psn (x : Row) : Bool := x.lanes.any fun l => l.poison

/-- The end of a spill: READY while reads remain, else EMPTY (R147). -/
def Tile.endSpill (t : Tile) (row : Nat) : Tile :=
  let e := t.slot row
  t.putSlot row { e with st := if 0 < e.rrem then .ready else .empty }

/-- FSPILL. -/
def execFspill (r : CtlRec) (s : State) : Host.Outcome State Fault Refusal :=
  ctlEffect s fun s c =>
    match s.spillName c r with
    | .status n => .effect s (c.w.setS r.d (BitVec.ofNat 64 n))
    | .name idx st tile ws ds =>
      let row := st.slotRow ds
      let fin := fun (s' : State) (w : Work) (as : List Acc) =>
        CRes.effect ((s'.noteErrs c.key as).putTile tile ((s'.noteErrs c.key as).tile tile |>.endSpill row)) (w.setS r.d 0)
      if c.w.begun then s.ctlTurn c c.w.accs fin
      else
        let t := s.tile tile
        let e := t.slot row
        if !(e.held && decide (e.stmt = idx) && decide (e.st = .ready) && decide (e.dims ws st.rank = ds)) then .effect s (c.w.setS r.d 1)
        else
          let rows := (List.range st.rows).map fun n => ((t.row (row + n)).bytes, (t.row (row + n)).psn)
          match s.layRows c .write rows 0 ((c.sB r).toNat / 64 * 64) [] with
          | .fault s' code a => .fault (s'.minorAt code c.who c.rg.ctx a 0 0 c.key) c.w code 0 a
          | .ok s' accs =>
            match (s'.putTile tile ((s'.tile tile).putSlot row { e with st := .draining })).issueAccs c.key accs with
            | (s2, as) => .stay s2 { c.w with begun := true, accs := as }

/-- A row that FFILL has loaded. -/
def filledRow (as : List Acc) (n : Nat) : Row :=
  let bs := laneBytes as n
  ⟨(List.range 16).map fun i => ⟨BitVec.ofNat 32 (leNat ((bs.drop (4 * i)).take 4)), true, lanePsn as n⟩, false, false, noLoff⟩

/-- FFILL. -/
def execFfill (r : CtlRec) (s : State) : Host.Outcome State Fault Refusal :=
  ctlEffect s fun s c =>
    match s.spillName c r with
    | .status n => .effect s (c.w.setS r.d (BitVec.ofNat 64 n))
    | .name idx st tile ws ds =>
      let row := st.slotRow ds
      let fin := fun (s' : State) (w : Work) (as : List Acc) =>
        let t := (List.range st.rows).foldl (fun t n => t.putRow row n (filledRow as n)) (s'.tile tile)
        CRes.effect (s'.putTile tile (t.finishFill row)) (w.setS r.d 0)
      if c.w.begun then s.ctlTurn c c.w.accs fin
      else
        match (s.tile tile).putFirst st idx ws ds with
        | .order => .effect s (c.w.setS r.d 2)
        | .stalls => .stay s c.w
        | .begins =>
          match s.layRows c .read ((List.range st.rows).map fun _ => ([], false)) 0 ((c.sB r).toNat / 64 * 64) [] with
          | .fault s' code a => .fault (s'.minorAt code c.who c.rg.ctx a 0 0 c.key) c.w code 0 a
          | .ok s' accs =>
            match (s'.putTile tile ((s'.tile tile).beginFill st idx ws ds 127)).issueAccs c.key accs with
            | (s2, as) => .stay s2 { c.w with begun := true, accs := as }

end Sys2Proof.Machine
end

