-- ==== Sys2Proof/Machine/Snap.lean ====
section
/-! DEFINITION. Snapshots: SNAP and SNAPDROP (R74, R178 to R182). -/

namespace Sys2Proof.Machine

/-! ### SNAP and SNAPDROP (R180, R182) -/

/-- The log read to its end by a SNAP. -/
def State.drainLog (s : State) (ctx : Nat) : State :=
  let c := s.saveBase ctx + 0x10000
  { s with mem := ((s.mem.putWord (c + 8) (s.mem.word c)).putWord (c + 16) (s.mem.word (c + 16) &&& ~~~1#64)) }

/-- Pages from an index of the log's records on up to WCNT: the ranges they name. -/
def State.logSince (s : State) (ctx : Nat) : Nat → Nat → List (Nat × Nat)
  | 0, _ => []
  | n + 1, i =>
    let a := s.saveBase ctx + 16 * (i % 4096)
    ((s.mem.word a).toNat % 2 ^ 56, (s.mem.word (a + 8)).toNat % 2 ^ 56) :: s.logSince ctx n (i + 1)

/-- The last snap of a context through a cairn that covers a page and knows what has been written since: no overflow, and its records still in the ring. -/
def State.snapOf (s : State) (ctx cairn va : Nat) : Option Snap :=
  let wcnt := (s.mem.word (s.saveBase ctx + 0x10000)).toNat
  match tget s.host.ctxs ctx with
  | some c => c.snaps.reverse.find? fun x => decide (x.cairn = cairn ∧ x.base ≤ va ∧ va < x.base + x.len ∧ wcnt ≤ x.wcnt + 4096) && !x.stale
  | none => none

/-- Whether a SNAP visits a page: not where an earlier one through the same cairn covers it and no record since names it (R180). -/
def State.snapVisits (s : State) (ctx cairn va : Nat) : Bool :=
  match s.snapOf ctx cairn va with
  | none => true
  | some x =>
    let wcnt := (s.mem.word (s.saveBase ctx + 0x10000)).toNat
    (s.logSince ctx (wcnt - x.wcnt) x.wcnt).any fun r => decide (r.1 < va + 65536 ∧ va ≤ r.2)

/-- Sets COW in the writable leaf of a page and in its frame, where the page is visited; the snapshot holds the frame where it carries COW. An
unmapped page is skipped. -/
def State.snapPage (s : State) (ctx cairn ident va : Nat) (visit : Bool) : State :=
  match (walkFull s.mem ctx va 4 1 (s.root ctx) []).1 with
  | .done (.leaf pa true _ _ _) level entry =>
    let m := if visit then s.mem.putWord entry (s.mem.word entry ||| 0x20#64) else s.mem
    let t := { s with mem := m }.target ctx (pa + va % leafSize level / 65536 * 65536)
    let f := m.frame (localOf t)
    if s.isLocal t && decide (localOf t < Config.memBytes) && (visit || f.cow) then
      { s with mem := m.putFrame (localOf t) { f with cow := true, held := f.held ++ [(cairn, ident)] } }
    else { s with mem := m }
  | _ => s

/-- Every page from an address on; `visits` says which, of the state before the SNAP. -/
def State.snapPages (ctx cairn ident : Nat) (visits : Nat → Bool) : Nat → Nat → State → State
  | 0, _, s => s
  | n + 1, va, s => State.snapPages ctx cairn ident visits n (va + 65536) (s.snapPage ctx cairn ident va (visits va))

/-- SNAP at one point: the identity is the cairn's value, and the cairn rises by 1 (Table 8.3). -/
def State.snap (s : State) (ctx base len cairn : Nat) : Word × State :=
  let v := s.cairn.val cairn
  let wcnt := (s.mem.word (s.saveBase ctx + 0x10000)).toNat
  let s1 := ((State.snapPages ctx cairn v.toNat (s.snapVisits ctx cairn) (len / 65536) base s).drainLog ctx).invalidate ctx
  match tget s1.host.ctxs ctx with
  | some c => (v, (s1.putCtx ctx { c with snaps := c.snaps ++ [⟨cairn, v, base, len, wcnt, false⟩] }).cairnAddScc cairn 1)
  | none => (v, s1.cairnAddScc cairn 1)

/-- Whether a context holds a snapshot identity of a cairn. -/
def State.hasSnap (s : State) (ctx cairn : Nat) (ident : Word) : Bool :=
  match tget s.host.ctxs ctx with
  | some c => c.snaps.any fun x => decide (x.cairn = cairn ∧ x.ident = ident)
  | none => false

/-- SNAPDROP: old frames that only this identity holds are freed. -/
def State.snapDrop (s : State) (ctx cairn : Nat) (ident : Word) : State :=
  if !s.hasSnap ctx cairn ident then s
  else
    let s1 := { s with mem := { s.mem with frames := s.mem.frames.map fun e =>
      (e.1, { e.2 with held := e.2.held.filter fun h => decide (h ≠ (cairn, ident.toNat)) }) } }
    match tget s1.host.ctxs ctx with
    | some c => s1.putCtx ctx { c with snaps := c.snaps.filter fun x => !decide (x.cairn = cairn ∧ x.ident = ident) }
    | none => s1

end Sys2Proof.Machine
end

