-- ==== Sys2Proof/Machine/CtlHeap.lean ====
section
/-! DEFINITION. Control records: heap accesses, pins, allocation, relocation, snapshots, TLBINV (R210 to R219, R318 to R324, R332). -/

namespace Sys2Proof.Machine

/-! ### Accesses through references (R318, R320) -/

/-- The reference register a record used, healed where the barrier followed DONE entries (R215). -/
def Work.heal (w : Work) (n : BitVec 5) (hops : Nat) (ref : Word) : Work := if 0 < hops then w.setH n ref else w

/-- One turn of a record's access through a reference; `g` what follows when it has been performed: state, work, healed reference, DONE
entries followed, header address, bytes read, poison. -/
def State.ctlHeap (s : State) (c : CSite) (op : HeapOp) (f n : Nat) (bs : List Byte) (ref : Word) (aux : List Nat)
    (g : State → Work → Word → Nat → Nat → List Byte → Bool → CRes) : CRes :=
  let job := if c.w.begun then HeapJob.ofNums (c.w.aux.drop aux.length) else HeapJob.start ref
  match s.heapTurn (.core c.key) c.rg.ctx c.who op f n bs false job c.w.accs with
  | .stand s1 j as _ => .stay s1 { c.w with begun := true, aux := aux ++ j.nums, accs := as }
  | .fault s1 j code addr phys =>
    .fault (s1.minorAt code c.who c.rg.ctx (if phys then 0 else addr) (if phys then addr else 0) 0 c.key) { c.w with begun := true, aux := aux ++ j.nums } code 0 addr
  | .done s1 r hops pa data psn errs => g (s1.heapErrs c.key errs) c.w r hops pa data psn

/-- A header write by HST (R204). -/
def headerWrite (f : Nat) : Bool := decide (f < 16)

/-- HLD. -/
def execHld (r : CtlRec) (s : State) : Host.Outcome State Fault Refusal :=
  ctlEffect s fun s c =>
    let f := field r.imm 15 0
    s.ctlHeap c .load f (if r.m = 11 then 8 else widthBytes r.m) [] (c.hA r) [] fun s1 w ref hops _ data psn =>
      if psn then .fault s1 w cPoisonedLoad 0 (refVa ref + f)
      else
        let w1 := w.heal r.a hops ref
        .effect s1 (if r.m = 11 then w1.setH r.d (BitVec.ofNat 64 (leNat data)) else w1.setS r.d (widthVal r.m (leNat data)))

/-- HST. -/
def execHst (r : CtlRec) (s : State) : Host.Outcome State Fault Refusal :=
  ctlEffect s fun s c =>
    let f := field r.imm 15 0
    let v := if r.m = 11 then c.hB r else c.sB r
    if (refFault (c.hA r)).isNone && headerWrite f then .fault s c.w cHeaderWrite 0 (c.hA r).toNat
    else s.ctlHeap c .store f (if r.m = 11 then 8 else widthBytes r.m) (leBytes (if r.m = 11 then 8 else widthBytes r.m) v.toNat) (c.hA r) []
      fun s1 w ref hops _ _ _ => .effect s1 (w.heal r.a hops ref)

/-- HPIN. -/
def execHpin (r : CtlRec) (s : State) : Host.Outcome State Fault Refusal :=
  ctlEffect s fun s c =>
    s.ctlHeap c .pin 0 0 [] (c.hA r) [] fun s1 w ref hops pa _ _ => .effect s1 ((w.heal r.a hops ref).setS r.d (mkTae pa 65536 true true))

/-- HUNPIN. -/
def execHunpin (r : CtlRec) (s : State) : Host.Outcome State Fault Refusal :=
  ctlEffect s fun s c => s.ctlHeap c .unpin 0 0 [] (c.hA r) [] fun s1 w ref hops _ _ _ => .effect s1 (w.heal r.a hops ref)

/-- HCMP: both references pass the barrier, unless one is null; the first number of `aux` says which is at hand, then the left result. -/
def execHcmp (r : CtlRec) (s : State) : Host.Outcome State Fault Refusal :=
  ctlEffect s fun s c =>
    let a := c.hA r
    let b := c.hB r
    if a = 0 ∨ b = 0 then .effect s (c.w.setS r.d (if a = b then 1 else 0))
    else
      let right := decide (c.w.aux.getD 0 0 = 1)
      if !right then
        s.ctlHeap c .cmp 0 0 [] a [0, 0, 0] fun s1 w ref hops _ _ _ =>
          .stay s1 { w with begun := true, accs := [], aux := [1, ref.toNat, hops] ++ (HeapJob.start b).nums }
      else
        let left := BitVec.ofNat 64 (c.w.aux.getD 1 0)
        let lhops := c.w.aux.getD 2 0
        s.ctlHeap c .cmp 0 0 [] b [1, left.toNat, lhops] fun s1 w ref hops _ _ _ =>
          .effect s1 (((w.heal r.a lhops left).heal r.b hops ref).setS r.d (if sameObject left ref then 1 else 0))

/-- HNEW. -/
def execHnew (r : CtlRec) (s : State) : Host.Outcome State Fault Refusal :=
  ctlEffect s fun s c =>
    let h := field r.imm 19 16
    match s.alloc (.core c.key) c.rg.ctx (c.sA r).toNat (field r.imm 15 0) h with
    | .ok s1 ref => .effect s1 (c.w.setH r.d ref)
    | .fault s1 code va => .fault (s1.minorAt code c.who c.rg.ctx va 0 h c.key) c.w code 0 va

/-! ### Relocation (R322, R212) -/

/-- The M-dies that home a mapped heap page of a range of a heap's window. -/
def State.relocHomes (s : State) (ctx first count : Nat) : List Nat :=
  let homes := (List.range count).filterMap fun i =>
    let va := first + 65536 * i
    if va / 2 ^ 48 = first / 2 ^ 48 then
      match (walkFull s.mem ctx va 4 1 (s.root ctx) []).1 with
      | .done (.leaf pa _ _ true _) _ _ => let t := s.target ctx pa
        if s.isLocal t then some (homeDie (localOf t)) else none
      | _ => none
    else none
  (List.range 4).filter fun d => homes.contains d

/-- RELOC: it is queued at every engine that homes a page of the range, or nowhere. -/
def execReloc (r : CtlRec) (s : State) : Host.Outcome State Fault Refusal :=
  ctlEffect s fun s c =>
    let first := (c.sA r).toNat / 65536 * 65536
    let count := field (c.sB r) 31 0
    let cairn := field (c.sB r) 51 32
    if !inHeap (c.sA r).toNat then .fault s c.w cNotHeap 0 (c.sA r).toNat
    else
      let homes := s.relocHomes c.rg.ctx first count
      let eng := fun d => tgetD s.heap.engines d RelocEng.blank
      if homes.any fun d => decide (17 ≤ (eng d).queue.length) then .effect s (c.w.setS r.d 1)
      else if homes.isEmpty then .effect (s.advance cairn false) (c.w.setS r.d 0)
      else
        let job : Reloc := ⟨s.heap.nextId, (first - heapBase 0) / 2 ^ 48, c.rg.ctx, first, count, r.imm.toNat, cairn, false⟩
        let engines := homes.foldl (fun t d => tput t d { eng d with queue := (eng d).queue ++ [job] }) s.heap.engines
        .effect { s with heap := { s.heap with
          engines := engines
          reports := tput s.heap.reports s.heap.nextId (homes.length, cairn, false)
          nextId := s.heap.nextId + 1 } } (c.w.setS r.d 0)

/-! ### Snapshots and TLBINV (R324, R332) -/

/-- SNAP. -/
def execSnap (r : CtlRec) (s : State) : Host.Outcome State Fault Refusal :=
  ctlEffect s fun s c =>
    match s.snap c.rg.ctx ((c.sA r).toNat / 65536 * 65536) ((c.sB r).toNat / 65536 * 65536) (field r.imm 19 0) with
    | (v, s1) => .effect s1 (c.w.setS r.d v)

/-- SNAPDROP. -/
def execSnapdrop (r : CtlRec) (s : State) : Host.Outcome State Fault Refusal :=
  ctlEffect s fun s c => .effect (s.snapDrop c.rg.ctx (field r.imm 19 0) (c.sA r)) c.w

/-- TLBINV: every die has acknowledged. -/
def execTlbinv (_r : CtlRec) (s : State) : Host.Outcome State Fault Refusal :=
  ctlEffect s fun s c => .effect (s.invalidate c.rg.ctx) c.w

end Sys2Proof.Machine
end

