-- ==== Sys2Proof/Machine/Txn.lean ====
section
/-! DEFINITION. Cross-chip transactions: staging and applying at a target, the phases at the coordinator (R47 to R54, R348 to R350). -/

namespace Sys2Proof.Machine

/-! ### A sector written under a mask (R30, R183, R234) -/

/-- Bytes of a sector under a mask put in place. -/
def maskCells (mask : BitVec 64) (a : Nat) : Nat → List Byte → List Host.Cell → List Host.Cell
  | _, [], c => c
  | i, b :: bs, c => maskCells mask a (i + 1) bs (if mask.getLsbD i then cellPut c (a + i) b else c)

/-- Bytes of a sector of main memory written under a mask, with the poison rules: the memory, the status error, whether PPW rises. -/
def Mem.storeMasked (m : Mem) (a : Nat) (bs : List Byte) (mask : BitVec 64) (k : StoreKind) : Mem × Bool × Bool :=
  { m with cells := maskCells mask a 0 (bs.take 64) m.cells }.poisonBy a k

/-- A mask that is one run of bytes: first byte and length. -/
def maskRun (m : Nat) : Option (Nat × Nat) :=
  let on := (List.range 64).filter fun i => m.testBit i
  match on with
  | [] => some (0, 0)
  | i :: _ => if m = (2 ^ on.length - 1) * 2 ^ i then some (i, on.length) else none

/-- The bytes `now_` of a write of a sector under a mask at a local address, after those of `done` (R183, R191, R227); outside main memory as one
store of the run of bytes, counted in HERR where it is discarded and came in a flit (R58, R59). -/
def State.writeSector (s : State) (a now_ done mask : Nat) (bs : List Byte) (psn fabric : Bool) : State :=
  if a < Config.memBytes then
    let first := decide (done = 0)
    match s.mem.storeMasked a bs (BitVec.ofNat 64 now_) ⟨psn, first, first, decide (mask = 2 ^ 64 - 1), decide (done + now_ = mask)⟩ with
    | (m, _, ppw) => if ppw then { s with mem := m.stampStore a }.ppwUp a else { s with mem := m.stampStore a }
  else
    match maskRun now_ with
    | some (off, n) => (s.storeLocal (a + off) ((bs.drop off).take n) ⟨psn, true, true, false, true⟩ fabric).1
    | none => s.herrUp fabric

/-! ### At a target (R47, R49, R50) -/

/-- How the staging of a transaction stands at this device. -/
def State.staging (s : State) (cdev xid : Nat) : Option TgtTxn := s.link.targets.find? fun t => decide (t.cdev = cdev ∧ t.xid = xid)

def State.mapTgt (s : State) (cdev xid : Nat) (f : TgtTxn → TgtTxn) : State :=
  { s with link := { s.link with targets := s.link.targets.map fun t => if t.cdev = cdev ∧ t.xid = xid then f t else t } }

/-- Whether an M-die can hold staging for one more transaction: at most 256 (R47). -/
def State.stagingRoom (s : State) (mdie : Nat) : Bool :=
  decide ((s.link.targets.filter fun t => t.sectors.any fun g => decide (homeDie g.addr = mdie)).length < 256)

/-- Places a staged sector; none where no staging line can be had. -/
def State.stage (s : State) (cdev xid : Nat) (g : Staged) : Option State :=
  match s.staging cdev xid with
  | some t =>
    if (t.sectors.any fun h => decide (homeDie h.addr = homeDie g.addr)) || s.stagingRoom (homeDie g.addr) then
      some (s.mapTgt cdev xid fun t => { t with sectors := t.sectors ++ [g], seen := s.now })
    else none
  | none =>
    if s.stagingRoom (homeDie g.addr) then
      some { s with link := { s.link with targets := s.link.targets ++ [⟨cdev, xid, [g], false, none, s.now⟩] } }
    else none

/-- Where a staged sector is applied, as a global address: the frame its context's accesses are forwarded to. -/
def State.stagedTo (s : State) (g : Staged) : Nat := s.target g.ctx (s.dev.devNum * 2 ^ 40 + g.addr)

/-- Its local part. -/
def State.stagedAt (s : State) (g : Staged) : Nat := localOf (s.stagedTo g)

/-- Copy-on-write frames of staged sectors are served first (R350). -/
def State.serveStaged (s : State) (gs : List Staged) : State :=
  gs.foldl (fun s' g => if s'.isLocal (s'.stagedTo g) && (s'.mem.frame (s'.stagedAt g)).cow then s'.serveCow g.ctx (s'.stagedAt g) else s') s

/-- One staged sector made live, without its timestamp: in main memory; outside it as any store to a management register (R58), discarded and,
when it came in a flit, counted where it is none (R59); of a page that has moved by a write at its new home (R55). -/
def State.applySector (cdev xid : Nat) (s : State) (g : Staged) : State :=
  let t := s.stagedTo g
  let a := localOf t
  if !s.isLocal t then
    let body := memBody g.bytes g.mask.toNat s.mem.pts t g.poison
    match s.portOpen (devOf t) t with
    | some p => (s.putFlit p 2 (devOf t) g.ctx body).keepReq s.freshTag 2 (devOf t) p (t / 64 * 64) g.ctx g.mask.toNat (BitVec.ofNat 64 (t / 64 * 64)) body (.txn cdev xid)
    | none => s
  else if Config.memBytes ≤ a then s.writeSector a g.mask.toNat 0 g.mask.toNat g.bytes g.poison (decide (cdev ≠ s.dev.devNum))
  else match s.mem.storeMasked a g.bytes g.mask ⟨g.poison, true, true, decide (g.mask = BitVec.allOnes 64), true⟩ with
  | (m, _, ppw) => if ppw then { s with mem := m }.ppwUp a else { s with mem := m }

/-- Whether a page that has moved can take the writes of a transaction's staged sectors now. -/
def State.canApply (s : State) (gs : List Staged) : Bool :=
  gs.all fun g => let t := s.stagedTo g
    s.isLocal t || (s.portOpen (devOf t) t).isSome || (s.routeList (devOf t) t).isEmpty

/-- Whether writes of a transaction to pages that have moved are still on their way. -/
def State.applying (s : State) (cdev xid : Nat) : Bool := s.link.reqs.any fun q => decide (q.who = .txn cdev xid)

/-- Sets the timestamps of sectors to one logical time. -/
def Mem.stampAt (m : Mem) (ts : Nat) (ns : List Nat) : Mem :=
  { m with
    wts := ns.foldl (fun t n => tput t n ts) m.wts
    rts := ns.foldl (fun t n => tput t n ts) m.rts
    pts := ts }

/-- All staged sectors of a transaction go live at one logical timestamp, in XPUT order, once (R48, R49, R52); nothing while one of a moved page
cannot be sent on. -/
def State.applyTxn (s : State) (cdev xid : Nat) : State :=
  match s.staging cdev xid with
  | none => s
  | some t =>
    if !s.canApply t.sectors then s
    else
      let s1 := s.serveStaged t.sectors
      let ns := (t.sectors.filter fun g => s1.isLocal (s1.stagedTo g)).map fun g => sectorOf (s1.stagedAt g)
      let ts := ns.foldl (fun m n => max m (tgetD s1.mem.rts n 0 + 1)) s1.mem.pts
      let s2 := t.sectors.foldl (State.applySector cdev xid) s1
      { s2 with
        mem := s2.mem.stampAt ts ns
        link := { s2.link with targets := s2.link.targets.filter fun u => decide (u.cdev ≠ cdev ∨ u.xid ≠ xid) } }

/-! ### At the coordinator (R48, R52, R54) -/

def Txn.mapTarget (t : Txn) (dev : Nat) (f : TxnTgt → TxnTgt) : Txn := { t with targets := t.targets.map fun g => if g.dev = dev then f g else g }

/-- Sends an XCTL flit about a transaction of this device to a target, by any route it has. -/
def State.sendXctl (s : State) (dev op reason xid count : Nat) : State := s.sendAny dev 8 0 (xctlBody op reason s.dev.devNum xid count)

/-- With DONE from every target the outcome cairn advances by 1 and the record is freed; a record resumed after a reset advances none (R48, R53). -/
def State.txnFinish (s : State) (xid : Nat) : State :=
  match s.txn? xid with
  | none => s
  | some t =>
    if t.phase = .committed ∧ (t.targets.all fun g => g.done) = true then
      let s1 := { s with link := { s.link with txns := s.link.txns.filter fun u => decide (u.xid ≠ xid) } }
      if t.advanced || t.survived then s1 else s1.cairnAddScc t.cairn 1
    else s

/-- COMMIT to every target that has not answered DONE; this device applies its own staging. -/
def State.sendCommits (s : State) (xid : Nat) : State :=
  match s.txn? xid with
  | none => s
  | some t =>
    (t.targets.filter fun g => !g.done).foldl (fun s' g =>
      if g.dev = s.dev.devNum then
        let s1 := s'.applyTxn g.dev xid
        s1.mapTxn xid fun u => u.mapTarget g.dev fun h => { h with done := (s1.staging g.dev xid).isNone && !s1.applying g.dev xid }
      else s'.sendXctl g.dev 3 0 xid 0) s

/-- With READY from every target the record COMMITTED is written: the commit point (R48). -/
def State.commitPoint (s : State) (xid : Nat) : State :=
  match s.txn? xid with
  | none => s
  | some t =>
    if t.phase = .preparing ∧ (t.targets.all fun g => g.ready) = true then
      ((s.mapTxn xid fun u => { u with phase := .committed, num := s.dev.devNum }).sendCommits xid).txnFinish xid
    else s

/-- Whether a route entry of any M-die lists a port for a device. -/
def State.anyRoute (s : State) (dev : Nat) : Bool :=
  s.link.topoDone && decide (dev ≠ 0xFFF) && (List.range 4).any fun m => !(tgetD s.link.routes (m * 4096 + dev) []).isEmpty

/-- Whether each target can be sent to now: none where one waits; false where one has no route. -/
def State.canSend (s : State) (devs : List Nat) : Option Bool :=
  devs.foldl (fun r d => match r with
    | some true =>
      if d = s.dev.devNum ∨ (s.anyPort d).isSome = true then some true
      else if s.anyRoute d then none else some false
    | r => r) (some true)

/-- XCOMMIT's PREPARE to every target; this device has its own staging ready at once (R48). -/
def State.prepareTxn (s : State) (xid : Nat) : State :=
  match s.txn? xid with
  | none => s
  | some t =>
    let s1 := s.mapTxn xid fun u => { u with phase := .preparing }
    let s2 := t.targets.foldl (fun s' g =>
      if g.dev = s.dev.devNum then
        (s'.mapTgt g.dev xid fun v => { v with ready := true }).mapTxn xid fun u => u.mapTarget g.dev fun h => { h with ready := true }
      else s'.sendXctl g.dev 1 0 xid g.count) s1
    s2.commitPoint xid

end Sys2Proof.Machine
end

