-- ==== Sys2Proof/Machine/CtlStream.lean ====
section
/-! DEFINITION. Control records of group 5: stream commands, SBAR, engine commands, transactions (R333 to R350). -/

namespace Sys2Proof.Machine

/-! ### Stream commands (R333, R339) -/

/-- Whether the queues of some ports have room on every tile: 4 commands a port. -/
def State.streamRoom (s : State) (ks ps : List Nat) : Bool :=
  ks.all fun k => ps.all fun p => decide (((s.tile k).stream p).queue.length < 4)

/-- Puts a command into the queues of ports. -/
def State.queueStream (s : State) (ks ps : List Nat) (cmd : SCmd) (order : Nat) : State :=
  s.mapTiles ks fun t => ps.foldl (fun t p => t.putStream p { t.stream p with queue := (t.stream p).queue ++ [(cmd, order)] }) t

/-- SGO and SSTOP. -/
def streamTurn (cmd : SCmd) (r : CtlRec) (s : State) (c : CSite) : CRes :=
  let ks := c.streamTiles r
  let ps := portsOf r.imm
  if s.streamRoom ks ps then .effect (s.queueStream ks ps cmd c.blk.order) c.w else .stay s c.w

/-- The descriptor at s[A], read as the commit's access (R334); one of another device has been read by the check. -/
def State.ctlDesc (s : State) (c : CSite) (r : CtlRec) (g : State → Work → List Word → CRes) : CRes :=
  if (c.sA r).toNat % 64 ≠ 0 then .fault s c.w cAddressForm 0 (c.sA r).toNat
  else
    match c.w.descAt c.w.pc (c.sA r).toNat with
    | some bs => g s c.w (wordsOf bs)
    | none => s.ctlLoad c (c.sA r).toNat 64 fun s' w bs => g s' w (wordsOf bs)

/-- SBIND. -/
def execSbind (r : CtlRec) (s : State) : Host.Outcome State Fault Refusal :=
  ctlEffect s fun s c =>
    s.ctlDesc c r fun s' w d =>
      let ks := c.streamTiles r
      let ps := [field r.imm 2 0]
      if !patternOk d then .fault s' w cIllegalInstr 0 0
      else if s'.streamRoom ks ps then .effect (s'.queueStream ks ps (.bind d) c.blk.order) w
      else .stay s' w

/-- SGO. -/
def execSgo (r : CtlRec) (s : State) : Host.Outcome State Fault Refusal := ctlEffect s (streamTurn .go r)
/-- SSTOP. -/
def execSstop (r : CtlRec) (s : State) : Host.Outcome State Fault Refusal := ctlEffect s (streamTurn .stop r)

/-- Whether a port still has a stream command of an earlier block in its queue, or runs a stream one started (R341). -/
def Stream.pendingBefore (p : Stream) (order : Nat) : Bool :=
  (p.queue.any fun q => decide (q.2 < order)) || (decide (p.st = .running ∨ p.st = .closed) && decide (p.order < order))

/-- SBAR. -/
def execSbar (_r : CtlRec) (s : State) : Host.Outcome State Fault Refusal :=
  ctlEffect s fun s c =>
    let n := c.blk.order
    if (c.rg.tiles.any fun k => (s.tile k).streams.any fun p => p.2.pendingBefore n) || c.rg.engines.any fun e => decide (e.blockOrder < n) then
      .stay s c.w
    else .effect s c.w

/-! ### Engine commands (R342, R343) -/

/-- The unit an engine binds to: the latest that a RUN or RUNW issued and that has not completed (R342). -/
def Region.latestUnit (r : Region) : Option Nat :=
  (r.blocks.foldl (fun (m : Option (Nat × Nat)) e =>
    if e.2.image.hdr.control || decide (e.2.blockOrder = e.2.order) then m
    else match m with
      | none => some (e.2.order, e.1)
      | some (o, b) => if o < e.2.order then some (e.2.order, e.1) else some (o, b)) none).map fun p => p.2

/-- The ordinal a CRED takes in its group on this device (R347). -/
def State.credOrdinal (s : State) (kind : Nat) (d : List Word) : Nat × State :=
  if kind = 0x23 then
    let n := tgetD s.link.credKth (credGroup d) 0
    (n, { s with link := { s.link with credKth := tput s.link.credKth (credGroup d) (n + 1) } })
  else (0, s)

/-- An engine command: it is handed over, one of at most 16. -/
def engineTurn (kind : Nat) (r : CtlRec) (s : State) (c : CSite) : CRes :=
  let d := readS c.w.s r.d
  if r.d ≠ 0 ∧ 2 ^ 20 ≤ d.toNat then .fault s c.w cNoCairn 0 0
  else s.ctlDesc c r fun s1 w desc =>
    match tget s1.regions c.key with
    | none => .stay s1 w
    | some rg =>
      if !s1.engineFits c kind desc rg.latestUnit.isSome then .fault s1 w cIllegalInstr 0 0
      else if 16 ≤ rg.engines.length then .stay s1 w
      else
        match s1.credOrdinal kind desc with
        | (k, s2) =>
          let e : Engine := ⟨rg.nextOrder, desc, rg.latestUnit, c.blk.order, if r.d = 0 then none else some d.toNat,
            [⟨0, engTotal desc, if engRows desc then 0 else 1, 0, []⟩], 0, false, false, false, k⟩
          .effect (s2.putRegion c.key { rg with engines := rg.engines ++ [e], nextOrder := rg.nextOrder + 1 }) w

/-- COPY. -/
def execCopy (r : CtlRec) (s : State) : Host.Outcome State Fault Refusal := ctlEffect s (engineTurn 0x20 r)
/-- GATHER. -/
def execGather (r : CtlRec) (s : State) : Host.Outcome State Fault Refusal := ctlEffect s (engineTurn 0x21 r)
/-- SCATTER. -/
def execScatter (r : CtlRec) (s : State) : Host.Outcome State Fault Refusal := ctlEffect s (engineTurn 0x22 r)
/-- CRED. -/
def execCred (r : CtlRec) (s : State) : Host.Outcome State Fault Refusal := ctlEffect s (engineTurn 0x23 r)
/-- RPUT. -/
def execRput (r : CtlRec) (s : State) : Host.Outcome State Fault Refusal := ctlEffect s (engineTurn 0x24 r)
/-- RGET. -/
def execRget (r : CtlRec) (s : State) : Host.Outcome State Fault Refusal := ctlEffect s (engineTurn 0x25 r)

/-! ### Transactions (R348 to R350) -/

/-- Open transactions whose outcome cairn one unit homes (R195, R348). -/
def State.openTxns (s : State) (mdie : Nat) : Nat :=
  (s.link.txns.filter fun t => decide (t.cairn % 4 = mdie) && decide (t.phase = .opened ∨ t.phase = .preparing)).length

def State.setTxn (s : State) (key : Nat) (x : Option Nat) : State :=
  match tget s.regions key with
  | some r => s.putRegion key { r with txn := x }
  | none => s

/-- XBEGIN. -/
def execXbegin (r : CtlRec) (s : State) : Host.Outcome State Fault Refusal :=
  ctlEffect s fun s c =>
    let k := (c.sA r).toNat
    if 2 ^ 20 ≤ k then .fault s c.w cNoCairn 0 0
    else if c.rg.txn.isSome || decide (64 ≤ s.openTxns (k % 4)) || decide (s.cairn.val k = BitVec.allOnes 64) then
      .effect s (c.w.setS r.d (BitVec.allOnes 64))
    else
      let t : Txn := ⟨s.link.nextXid, c.rg.launch, k, .opened, [], 0, s.dev.devNum, false, false, false, false, 0, 0⟩
      let s1 := { s with link := { s.link with txns := s.link.txns ++ [t], nextXid := (s.link.nextXid + 1) % 2 ^ 32 } }
      .effect (s1.setTxn c.key (some s.link.nextXid)) (c.w.setS r.d (s.cairn.val k))

/-- The sectors an XPUT stages: device, sector of its destination, with global addresses; `acc` those built so far, the last first. -/
def sectorsOf (ctx : Nat) (locate : Nat → Nat) : List Acc → List (Nat × Staged) → List (Nat × Staged)
  | [], acc => acc.reverse
  | a :: as, acc =>
    let g := locate a.addr
    let base := localOf g / 64 * 64
    let m := BitVec.ofNat 64 (sectorMask g a.len)
    match acc with
    | (dev, t) :: rest =>
      if dev = devOf g ∧ t.addr = base then
        sectorsOf ctx locate as ((dev, { t with bytes := sectorBytes t.bytes (g % 64) a.data, mask := t.mask ||| m, poison := t.poison || a.psn }) :: rest)
      else sectorsOf ctx locate as ((devOf g, ⟨ctx, base, sectorBytes (List.replicate 64 0) (g % 64) a.data, m, a.psn⟩) :: acc)
    | [] => sectorsOf ctx locate as [(devOf g, ⟨ctx, base, sectorBytes (List.replicate 64 0) (g % 64) a.data, m, a.psn⟩)]

/-- Poison of each byte of a load, in address order. -/
def bytePsn (as : List Acc) : List Bool := as.flatMap fun a => List.replicate a.len a.psn

/-- Store pieces with the bytes of the source and their poison. -/
def fillPieces : List Acc → List Byte → List Bool → List Acc
  | [], _, _ => []
  | a :: as, bs, ps => { a with data := bs.take a.len, psn := (ps.take a.len).any fun b => b } :: fillPieces as (bs.drop a.len) (ps.drop a.len)

/-- One more sector counted against a transaction and its target. -/
def Txn.count (t : Txn) (dev : Nat) : Txn :=
  let ts := if t.targets.any fun g => decide (g.dev = dev) then t.targets.map fun g => if g.dev = dev then { g with count := g.count + 1 } else g
    else t.targets ++ [⟨dev, 1, false, false⟩]
  { t with targets := ts, total := t.total + 64 }

/-- How the staging of an XPUT ends: all staged, aborted, waiting at a sector, or no route. -/
inductive StageRes where
  | done (s : State)
  | dead (s : State)
  | waits (s : State) (n : Nat)
  | noRoute (s : State)
  deriving DecidableEq, Repr

/-- Stages sectors from the `n`-th on. -/
def State.stageAll (xid : Nat) : List (Nat × Staged) → Nat → State → StageRes
  | [], _, s => .done s
  | (dev, g) :: gs, n, s =>
    if dev = s.dev.devNum then
      match s.stage dev xid g with
      | some s1 => State.stageAll xid gs (n + 1) (s1.mapTxn xid fun t => t.count dev)
      | none => .dead (s.txnAbort xid 3)
    else
      match s.send dev (dev * 2 ^ 40 + g.addr) 7 g.ctx (memBody g.bytes g.mask.toNat (xid + s.dev.devNum * 2 ^ 32) (dev * 2 ^ 40 + g.addr) g.poison) with
      | .ok s1 => State.stageAll xid gs (n + 1) (s1.mapTxn xid fun t => t.count dev)
      | .wait => .waits s n
      | .noRoute => .noRoute s

/-- Whether sectors would take a transaction past 4 MiB or 16 targets (R47). -/
def Txn.limit (t : Txn) (gs : List (Nat × Staged)) : Bool :=
  let devs := gs.foldl (fun l g => if l.contains g.1 then l else l ++ [g.1]) (t.targets.map fun g => g.dev)
  decide (4194304 < t.total + 64 * gs.length) || decide (16 < devs.length)

/-- XPUT's staging when its source has been read; `n` the sectors staged in earlier turns. -/
def xputStage (r : CtlRec) (c : CSite) (t : Txn) (n : Nat) (s : State) (w : Work) (as : List Acc) : CRes :=
  match s.lay ⟨.core c.key, c.rg.ctx, .write, 0, true, false, false, 0⟩ (c.sB r).toNat r.imm.toNat [] with
  | .fault s1 code va => .fault (s1.minorAt code c.who c.rg.ctx va 0 0 c.key) w code 0 va
  | .ok s1 ps =>
    match ps.find? fun a => s1.storeCow c.rg.ctx a.addr with
    | some a => .fault (s1.minorAt cCow c.who c.rg.ctx a.va 0 0 c.key) w cCow 0 a.va
    | none =>
      let gs := sectorsOf c.rg.ctx (s1.target c.rg.ctx) (fillPieces ps (laneBytes as 0) (bytePsn as)) []
      if n = 0 ∧ t.limit gs = true then .effect (s1.txnAbort t.xid 2) (w.setS r.d 2)
      else
        match State.stageAll t.xid (gs.drop n) n s1 with
        | .done s2 => .effect s2 (w.setS r.d 0)
        | .dead s2 => .effect s2 (w.setS r.d 2)
        | .waits s2 k => .stay s2 { w with aux := [k] }
        | .noRoute s2 => .fault s2 w cNoRoute 0 (c.sB r).toNat

/-- XPUT. -/
def execXput (r : CtlRec) (s : State) : Host.Outcome State Fault Refusal :=
  ctlEffect s fun s c =>
    match c.rg.txn with
    | none => .effect s (c.w.setS r.d 1)
    | some xid =>
      match s.txn? xid with
      | none => .effect s (c.w.setS r.d 2)
      | some t =>
        if t.phase ≠ .opened then .effect s (c.w.setS r.d 2)
        else s.ctlAccess c .read (c.sA r).toNat r.imm.toNat [] false false (xputStage r c t (c.w.aux.getD 0 0))

/-- XCOMMIT: it holds while a target's port is rehashed; a target without route aborts the transaction (R50). -/
def execXcommit (_r : CtlRec) (s : State) : Host.Outcome State Fault Refusal :=
  ctlEffect s fun s c =>
    match c.rg.txn with
    | none => .effect s c.w
    | some xid =>
      match s.txn? xid with
      | none => .effect (s.setTxn c.key none) c.w
      | some t =>
        if t.phase ≠ .opened then .effect (s.setTxn c.key none) c.w
        else
          match s.canSend (t.targets.map fun g => g.dev) with
          | none => .stay s c.w
          | some false => .effect ((s.txnAbort xid 4).setTxn c.key none) c.w
          | some true => .effect ((s.prepareTxn xid).setTxn c.key none) c.w

/-- XABORT. -/
def execXabort (_r : CtlRec) (s : State) : Host.Outcome State Fault Refusal :=
  ctlEffect s fun s c =>
    match c.rg.txn with
    | none => .effect s c.w
    | some xid => .effect ((s.txnAbort xid 1).setTxn c.key none) c.w

end Sys2Proof.Machine
end

