-- ==== Sys2Proof/Machine/EvStream.lean ====
section
/-! DEFINITION. Events of stream ports (R335 to R340, R443, R455, R177, R240). -/

namespace Sys2Proof.Machine

/-! ### A port and its region -/

/-- A stream port with the region that holds its tile. -/
structure SSite where
  tile : Nat
  port : Nat
  key : Nat
  rg : Region
  p : Stream
  deriving DecidableEq, Repr

def State.ssite (s : State) (tile port : Nat) : Option SSite :=
  match s.regionOf tile with
  | some (k, rg) => some ⟨tile, port, k, rg, (s.tile tile).stream port⟩
  | none => none

def State.putPort (s : State) (x : SSite) (p : Stream) : State := s.putTile x.tile ((s.tile x.tile).putStream x.port p)

/-- The waiter that stands for a port. -/
def SSite.who (x : SSite) : Who := .stream x.tile x.port

/-- The element of a token and the token's ITAG that an access of a port at a virtual address belongs to: an access laid out and not done, or one of
the token to be begun, whose ITAG is given. -/
def SSite.elemAt (x : SSite) (va : Nat) (itag : BitVec 32) : Nat × BitVec 32 :=
  let q := patternOf x.p.desc
  match x.p.accs.find? fun a => decide (a.va = va) && !a.done with
  | some a => (a.lane, ((x.p.flight.find? fun f => decide (f.1 + 1 = a.group)).map fun f => f.2.itag).getD itag)
  | none => ((((q.addrs ((x.rg.rtile x.tile).getD 0) x.p.pos).zipIdx.find? fun e => decide ((e.1 % 2 ^ 64).toNat = va)).map fun e => e.2).getD 0, itag)

/-- The ITAG of the token a port begins next: a store port's head token's, a load port's by its pattern. -/
def SSite.nextItag (x : SSite) : BitVec 32 :=
  let q := patternOf x.p.desc
  if q.store then (x.p.buf.head?.map fun t => t.itag).getD 0 else BitVec.ofNat 32 (q.itag0 + x.p.pos)

/-- The record of a fault of a port: AGENT 18 (R337), with the ITAG and element of its token (Table 10.2). -/
def SSite.faultRec (x : SSite) (s : State) (code va : Nat) : FaultRec :=
  let q := patternOf x.p.desc
  let e := x.elemAt va x.nextItag
  { x.rg.faultRec 18 code 0 0 0 q.blkid (BitVec.ofNat 64 va) s.mem.pts with
    x := x.tile % 16
    y := x.tile / 16 % 8
    rtile := (x.rg.rtile x.tile).getD 0
    itag := e.2
    elem := if q.esize = 8 then 2 * e.1 else e.1
    emask := BitVec.ofNat 16 (if q.esize = 8 then 3 * 2 ^ (2 * e.1) else 2 ^ e.1) }

/-- A fault of a port (R337, R174, R175): it stops at the access; a minor or major one waits for the SCC. -/
def State.streamFault (s : State) (x : SSite) (code va : Nat) : State :=
  let s1 := (s.minorAt code x.who x.rg.ctx va 0 0 x.key).faultToken x.key (x.faultRec s code va)
  s1.putPort x (if codeClass code = 0 then { x.p with faulted := true } else { x.p with minor := true })

/-- Tokens of a list but TEAR. -/
def dataToks (ts : List Token) : List Token := ts.filter fun t => !t.flags.tear

/-- Discards tokens a port holds, with UNM where any of them is data (R455, R338). -/
def State.dropToks (s : State) (key : Nat) (ts : List Token) : State := if (dataToks ts).isEmpty then s else s.setFlags key fUNM

/-! ### The digest (R240) -/

/-- One byte through the CRC-64 of R240, most significant bit first. -/
def crc64Bits : Nat → BitVec 64 → BitVec 64
  | 0, c => c
  | n + 1, c => crc64Bits n (if c.getLsbD 63 then (c <<< 1) ^^^ 0x42F0E1EBA9EA3693#64 else c <<< 1)

def crc64 (c : Word) (bs : List Byte) : Word := bs.foldl (fun c b => crc64Bits 8 (c ^^^ (BitVec.ofNat 64 b.toNat <<< 56))) c

/-- The bytes a digest takes of a token. -/
def Token.digestBytes (t : Token) : List Byte :=
  leBytes 4 t.itag.toNat ++ leBytes 2 (laneBits t.lanes fun l => l.valid) ++ leBytes 2 (laneBits t.lanes fun l => l.poison) ++
    t.lanes.flatMap fun l => if l.valid then leBytes 4 l.val.toNat else []

def Stream.digestTok (p : Stream) (t : Token) : Stream := { p with digest := crc64 p.digest t.digestBytes, taken := p.taken + 1 }

/-! ### Tokens in flight (R338)

Several tokens of a port may be in flight; the pieces of token `k` are group `k + 1` of the port's accesses. -/

/-- The accesses of a token in flight. -/
def Stream.accsOf (p : Stream) (k : Nat) : List Acc := p.accs.filter fun a => decide (a.group = k + 1)

/-- Whether every access of a token in flight has been performed. -/
def Stream.tokDone (p : Stream) (k : Nat) : Bool := (p.accsOf k).all fun a => a.done

/-- A port without a token in flight. -/
def Stream.landed (p : Stream) (k : Nat) : Stream :=
  { p with flight := p.flight.filter fun f => decide (f.1 ≠ k), accs := p.accs.filter fun a => decide (a.group ≠ k + 1) }

/-- Whether a port has a place for one more token (R336). -/
def Stream.room (p : Stream) : Bool := decide ((dataToks p.buf).length + p.flight.length < 16)

/-- A token of a load stream from what its elements have read. -/
def loadTok (q : Pattern) (k n : Nat) (as : List Acc) (last : Bool) : Token :=
  let ls := (List.range n).flatMap fun i =>
    let v := leNat (laneBytes as i)
    if q.esize = 8 then mkPair v true (lanePsn as i) else [mkLane v true (lanePsn as i)]
  { ctx := 0
    bslot := 0
    node := 0
    port := .left
    itag := BitVec.ofNat 32 (q.itag0 + k)
    loff := noLoff
    flags := { Flags.none with last := last }
    lanes := ls ++ List.replicate (16 - ls.length) Lane.off
    copy := 0 }

/-- A load port with a token sent: into its output buffer, behind a LAST the TEAR, which ends the stream (R443). -/
def Stream.sendTok (p : Stream) (t : Token) : Stream :=
  let p1 := p.digestTok t
  if t.flags.last then { p1 with buf := p1.buf ++ [t, Token.tearTok 0 0 0 .left 0], st := .closed } else { p1 with buf := p1.buf ++ [t] }

/-- A load stream told to stop: the newest token in flight is its last, or else an empty one (R339). -/
def Stream.endLoad (p : Stream) : Option Stream :=
  match p.flight.getLast? with
  | some (k, t) => some { p with ending := true, flight := p.flight.dropLast ++ [(k, { t with flags := { t.flags with last := true } })] }
  | none => if p.room then some (p.sendTok (loadTok (patternOf p.desc) p.pos 0 [] true)) else none

/-! ### STREAM_SCOREBOARD_STEP (R339, R455) -/

/-- What a command does to a port, where it can be performed now; and the tokens it discards. -/
def Stream.command (p : Stream) (c : SCmd) (order : Nat) : Option (Stream × List Token) :=
  match c with
  | .bind d =>
    if p.st = .idle ∨ p.st = .bound then
      some ({ p with st := .bound, desc := d, pos := 0, taken := 0, flight := [], accs := [], ending := false, dirty := none, digest := digestInit, order := order }, [])
    else none
  | .go => some (if p.st = .bound then { p with st := .running, order := order } else p, [])
  | .stop =>
    match p.st with
    | .running =>
      if (patternOf p.desc).store then some ({ p with st := .closed, buf := [] }, p.buf)
      else if p.ending then some (p, []) else p.endLoad.map fun p1 => (p1, [])
    | .bound => some ({ p with st := .idle, desc := [], buf := [] }, p.buf)
    | _ => some (p, [])

/-- STREAM_SCOREBOARD_STEP. -/
def execStreamScoreboardStep (tile port : Nat) (s : State) : Host.Outcome State Fault Refusal :=
  match s.ssite tile port with
  | none => .next s
  | some x =>
    match x.p.queue with
    | [] => .next s
    | (c, n) :: rest =>
      match x.p.command c n with
      | none => .next s
      | some (p, ts) => .next ((s.putPort x { p with queue := rest }).dropToks x.key ts)

/-! ### Tokens into an instance (R282, R342) -/

/-- The least cycles an elastic token travels between two tiles: the timed figure where both lie in one partition (R133). -/
def elasticMin (a b : Nat) : Nat := if a / 128 = b / 128 then hops a b + 2 else 2

/-- The tiles at the same places as a tile, in the copies of a unit that a splitter deals a token to: round-robin by ITAG, TEAR to all (R100). -/
def State.dealTo (s : State) (rg : Region) (bslot : Nat) (blk : Bif) (tile : Nat) (tok : Token) : State × List Nat :=
  let key := coreKey rg.part rg.core
  match s.splitOf key bslot, tget s.regions key with
  | some x, some r =>
    let at_ := fun id => (copyTiles r blk bslot id).getD ((posOf (maskTiles r blk) tile).getD 0) tile
    let dead := fun (p : Replica → Bool) (id : Nat) => r.replicas.any fun y => decide (y.bslot = bslot ∧ y.id = id) && p y
    if tok.flags.tear then (s, ((r.copies bslot).filter fun id => !dead (fun y => y.torn) id).map at_)
    else
      match tget x.dealt tok.itag.toNat with
      | some id => (s, [at_ id])
      | none =>
        let live := (r.copies bslot).filter fun id => !dead (fun y => y.draining) id
        let id := live.getD (x.next % live.length) 0
        (s.putSplit { x with dealt := tput x.dealt tok.itag.toNat id, next := x.next + 1 }, [at_ id])
  | _, _ => (s, [tile])

/-- Puts a token that comes from a tile on an arc into a node of an instance on its tile, on every copy of the node (R235). -/
def State.injectAt (s : State) (via tile : Nat) (rg : Region) (bslot : Nat) (blk : Bif) (node : Nat) (p : Port) (src : Nat) (tok : Token) : State :=
  let ts := instTiles rg blk tile
  let ends : List (Nat × Nat) :=
    if (blk.image.tmrOf node).isSome then [(copyTile ts tile 0, 0), (copyTile ts tile 1, 1), (copyTile ts tile 2, 2)] else [(tile, 0)]
  ends.foldl (fun s' e => s'.toChan e.1 ⟨{ tok with ctx := rg.ctx, bslot := bslot, node := node, port := p, copy := e.2 }, src, elasticMin via e.1, elasticMin via e.1, false, .node⟩) s

/-- Puts a token that comes from a tile on an arc into a node of an instance, or of the copy of it that its splitter names. -/
def State.inject (s : State) (via tile : Nat) (rg : Region) (bslot : Nat) (blk : Bif) (node : Nat) (p : Port) (src : Nat) (tok : Token) : State :=
  match s.dealTo rg bslot blk tile tok with
  | (s1, ts) => ts.foldl (fun s' k => s'.injectAt via k rg bslot blk node p src tok) s1

/-- The place of the binding of a load stream port in a block: receiving node and port. -/
def Image.loadBinding (m : Image) (port : Nat) : Option (Nat × Port) :=
  m.declList.findSome? fun d => match d with
    | .port _ true 0 sport node p _ _ => if sport = port then some (node, p) else none
    | _ => none

/-- The instance a load stream feeds: the oldest mapped one of its block that binds the port and has had no LAST from it (R336). -/
def SSite.feeds (x : SSite) : Option (Nat × Bif × Nat × Port) :=
  let q := patternOf x.p.desc
  let cands := x.rg.blocks.filterMap fun e =>
    if e.2.phase = .mapped ∧ e.2.image.hdr.blkid = q.blkid ∧ !e.2.image.hdr.control ∧ (maskTiles x.rg e.2).contains x.tile ∧ !x.p.fed.contains e.2.order then
      (e.2.image.loadBinding x.port).map fun b => (e.1, e.2, b.1, b.2)
    else none
  cands.foldl (fun m c => match m with
    | none => some c
    | some b => if c.2.1.order < b.2.1.order then some c else m) none

/-- The source number of the arc out of a port. -/
def portSrc (tile port : Nat) : Nat := 2 ^ 40 + tile * 8 + port

/-! ### LOAD_STREAM_TOKEN (R336, R338, R443) -/

/-- Lays out the reads of a token's elements, each as its own access (R336). -/
def State.layElems (s : State) (q : LayReq) (size : Nat) : List Int → Nat → List Acc → Laid
  | [], _, acc => .ok s acc
  | a :: as, i, acc =>
    if a < 0 ∨ 2 ^ 56 ≤ a then .fault s cAddressForm (a % 2 ^ 64).toNat
    else
      match s.lay { q with lane := i } a.toNat size [] with
      | .fault s' c va => .fault s' c va
      | .ok s' xs => s'.layElems q size as (i + 1) (acc ++ xs)

/-- A load port when a token in flight has been read. -/
def Stream.readTok (p : Stream) (k : Nat) (last : Bool) : Stream :=
  let q := patternOf p.desc
  (p.landed k).sendTok (loadTok q k (q.addrs 0 k).length (p.accsOf k) (last || decide (q.total ≤ k + 1)))

/-- The head of a port's output buffer goes to its instance; TEAR ends its feeding. -/
def State.feed (s : State) (x : SSite) (c : Nat × Bif × Nat × Port) (t : Token) (rest : List Token) : State :=
  let s1 := s.putPort x { x.p with buf := rest, fed := if t.flags.tear then x.p.fed ++ [c.2.1.order] else x.p.fed }
  s1.inject x.tile x.tile x.rg c.1 c.2.1 c.2.2.1 c.2.2.2 (portSrc x.tile x.port) t

/-- A load port begins its next token: the reads of its elements are laid out. -/
def State.beginRead (s : State) (x : SSite) : State :=
  let q := patternOf x.p.desc
  match s.layElems ⟨.tile x.tile, x.rg.ctx, .read, 0, false, false, false, x.p.pos + 1⟩ q.esize (q.addrs ((x.rg.rtile x.tile).getD 0) x.p.pos) 0 [] with
  | .fault s1 c va => s1.streamFault x c va
  | .ok s1 as => match s1.issueAccs x.key as with
    | (s2, bs) => s2.putPort x { x.p with
        accs := x.p.accs ++ bs
        flight := x.p.flight ++ [(x.p.pos, loadTok q x.p.pos 0 [] false)]
        pos := x.p.pos + 1 }

/-- Whether a load port may begin another token. -/
def SSite.mayRead (x : SSite) : Bool :=
  decide (x.p.st = .running) && !x.p.ending && decide (x.p.pos < (patternOf x.p.desc).total) && x.p.room && decide (x.rg.run = .running)

/-- Whether a store port may take another token. -/
def SSite.mayTake (x : SSite) : Bool := decide (x.p.st = .running ∧ x.p.flight.length < 16 ∧ x.rg.run = .running)

/-- One turn of the accesses of a port. -/
def State.turnPort (s : State) (x : SSite) : State :=
  match s.turnAccs x.rg.ctx x.who x.p.accs with
  | .more s1 as | .all s1 as => s1.putPort x { x.p with accs := as }
  | .fault s1 c va => s1.streamFault x c va

/-- Whether a port begins another token now, or goes on with those in flight: as it chooses, where it can do both (R188). -/
def State.begins (s : State) (x : SSite) (may : Bool) : Bool := may && ((pendingAccs x.p.accs).isEmpty || decide (s.choice 2 = 0))

/-- LOAD_STREAM_TOKEN: one turn of a load port: a token that can go on does; or the oldest in flight, once read, is sent; or one is begun, or an
access performed. -/
def execLoadStreamToken (tile port : Nat) (s : State) : Host.Outcome State Fault Refusal :=
  match s.ssite tile port with
  | none => .next s
  | some x =>
    let q := patternOf x.p.desc
    if (x.p.st ≠ .running ∧ x.p.st ≠ .closed) ∨ q.store = true ∨ x.p.faulted = true ∨ x.p.minor = true then .next s
    else
      match if x.rg.run = .running then x.p.buf else [], x.feeds, x.p.flight with
      | t :: rest, some c, _ => .next (s.feed x c t rest)
      | _, _, f :: _ =>
        if x.p.tokDone f.1 then .next (s.putPort x (x.p.readTok f.1 f.2.flags.last))
        else .next (if s.begins x x.mayRead then s.drawn.beginRead x else s.drawn.turnPort x)
      | _, _, [] => .next (if x.mayRead then s.beginRead x else s)

/-! ### STORE_STREAM_TOKEN (R336 to R338) -/

/-- The elements of a token that a store stream writes: their number and address. -/
def storeElems (q : Pattern) (rt k : Nat) (t : Token) : List (Nat × Int) :=
  ((q.addrs rt k).zipIdx.filter fun p => if q.esize = 8 then (laneAt t.lanes (2 * p.2)).valid && (laneAt t.lanes (2 * p.2 + 1)).valid else (laneAt t.lanes p.2).valid).map
    fun p => (p.2, p.1)

/-- Bytes and poison of an element, or pair, of a token. -/
def elemBytes (q : Pattern) (t : Token) (i : Nat) : List Byte × Bool :=
  if q.esize = 8 then
    (leBytes 4 (laneAt t.lanes (2 * i)).val.toNat ++ leBytes 4 (laneAt t.lanes (2 * i + 1)).val.toNat, (laneAt t.lanes (2 * i)).poison || (laneAt t.lanes (2 * i + 1)).poison)
  else (leBytes 4 (laneAt t.lanes i).val.toNat, (laneAt t.lanes i).poison)

/-- Whether a token is a full-sector store: every element valid, and together one aligned sector (R336, R183). -/
def fullStore (q : Pattern) (es : List (Nat × Int)) (t : Token) : Bool :=
  decide (es.length = q.per) && (t.lanes.all fun l => l.valid) &&
  match es with
  | [] => false
  | e :: _ => decide (e.2 % 64 = 0) && es.all fun p => decide (p.2 = e.2 + (q.esize : Int) * (p.1 : Int))

/-- Lays out the writes of a token; a full-sector store carries poison in all its pieces where an element has any (R183). -/
def State.layStore (s : State) (owner : TlbOf) (ctx : Nat) (q : Pattern) (t : Token) (k : Nat) (full : Bool) : List (Nat × Int) → List Acc → Laid
  | [], acc => .ok s acc
  | (i, a) :: es, acc =>
    if a < 0 ∨ 2 ^ 56 ≤ a then .fault s cAddressForm (a % 2 ^ 64).toNat
    else
      match s.lay ⟨owner, ctx, .write, i, true, if full then t.lanes.any fun l => l.poison else (elemBytes q t i).2, full, k + 1⟩ a.toNat q.esize (elemBytes q t i).1 with
      | .fault s' c va => .fault s' c va
      | .ok s' xs => s'.layStore owner ctx q t k full es (acc ++ xs)

/-- A store port takes its head token: its writes are laid out; at LAST or at the pattern's end the port closes, and drops what it holds. -/
def State.takeTok (s : State) (x : SSite) (t : Token) (rest : List Token) : State :=
  let q := patternOf x.p.desc
  let es := storeElems q ((x.rg.rtile x.tile).getD 0) x.p.pos t
  match s.layStore (.tile x.tile) x.rg.ctx q t x.p.pos (fullStore q es t) es [] with
  | .fault s1 c va => s1.streamFault x c va
  | .ok s1 as => match s1.issueAccs x.key as with
    | (s2, bs) =>
      let p := { (x.p.digestTok t) with
        pos := x.p.pos + 1
        accs := x.p.accs ++ bs
        flight := x.p.flight ++ [(x.p.pos, t)]
        buf := rest }
      if t.flags.last || decide (q.total ≤ x.p.pos + 1) then (s2.putPort x { p with st := .closed, buf := [] }).dropToks x.key rest else s2.putPort x p

/-- A store port when a token in flight has been written. -/
def State.wroteTok (s : State) (x : SSite) (k : Nat) : State :=
  (s.noteErrs x.key (x.p.accsOf k)).putPort x { (x.p.landed k) with dirty := dirtyWith x.p.dirty (x.p.accsOf k) }

/-- STORE_STREAM_TOKEN: one turn of a store port: a token whose writes are performed is done with; or the next is taken, or a write performed. -/
def execStoreStreamToken (tile port : Nat) (s : State) : Host.Outcome State Fault Refusal :=
  match s.ssite tile port with
  | none => .next s
  | some x =>
    let q := patternOf x.p.desc
    if (x.p.st ≠ .running ∧ x.p.st ≠ .closed) ∨ q.store = false ∨ x.p.faulted = true ∨ x.p.minor = true then .next s
    else
      match x.p.flight.find? fun f => x.p.tokDone f.1, x.p.buf with
      | some f, _ => .next (s.wroteTok x f.1)
      | none, t :: rest =>
        if t.flags.tear then .next (s.putPort x { x.p with buf := rest })
        else .next (if s.begins x x.mayTake then s.drawn.takeTok x t rest else s.drawn.turnPort x)
      | none, [] => .next (s.turnPort x)

/-! ### STREAM_COMPLETE (R338, R177) -/

/-- STREAM_COMPLETE: a closed port whose accesses are performed deposits its dirty range and becomes unbound. -/
def execStreamComplete (tile port : Nat) (s : State) : Host.Outcome State Fault Refusal :=
  match s.ssite tile port with
  | none => .next s
  | some x =>
    if x.p.st ≠ .closed ∨ !x.p.flight.isEmpty ∨ !x.p.buf.isEmpty then .next s
    else
      let s1 := match x.p.dirty with
        | some (lo, hi) => s.deposit x.rg.ctx lo hi false
        | none => s
      .next (s1.putPort x { x.p with st := .idle, desc := [], dirty := none, ending := false })

end Sys2Proof.Machine
end

