-- ==== Sys2Proof/Machine/Flags.lean ====
section
/-! DEFINITION. Values with the flags they set: integer results (R241, R354), floating operations under policy (R257, R380 to R385, R264),
reductions (R264, R366, R367). -/

namespace Sys2Proof.Machine

/-- A value read in a format's signedness. -/
def intOf (f : Fmt) (v : Nat) : Int := if fmtSigned f then signed (Rules.fmtWidth f) v else ((v % 2 ^ Rules.fmtWidth f : Nat) : Int)

/-- A result with no flag. -/
def VRes.plain (v : Nat) : VRes := ⟨v, 0, false⟩

/-- An exact integer result brought into a format: clamped with SAT, or wrapped (R354). -/
def intRes (f : Fmt) (sat : Bool) (v : Int) : VRes :=
  let w := Rules.fmtWidth f
  if sat then
    let z := clampI v (intMin f) (intMax f)
    ⟨wrapN w z, if z = v then 0 else fSAT, false⟩
  else VRes.plain (wrapN w v)

/-- All ones of a format's width, or zero. -/
def maskRes (f : Fmt) (b : Bool) : Nat := if b then 2 ^ Rules.fmtWidth f - 1 else 0

/-! ### Floating operations on values -/

/-- An operation of two values under a policy (R257): operands flushed, exact result, policy. -/
def fpOp2 (f : Fmt) (p : BitVec 8) (g : Fv → Fv → Nat → Ey) (a b : Nat) : VRes :=
  let x := polIn p (fvOf f a)
  let y := polIn p (fvOf f b)
  policy f p (polRnd p) [x, y] (g x y (polRnd p))

def fpAdd (f : Fmt) (p : BitVec 8) : Nat → Nat → VRes := fpOp2 f p fvAdd
def fpSub (f : Fmt) (p : BitVec 8) : Nat → Nat → VRes := fpOp2 f p fun x y m => fvAdd x (if y.isNan then y else y.negate) m
def fpMul (f : Fmt) (p : BitVec 8) : Nat → Nat → VRes := fpOp2 f p fun x y _ => fvMul x y

/-- One rounding of x × y + w; the NaN operands ranked left, right, addend (R380). -/
def fpFma (f : Fmt) (p : BitVec 8) (a b c : Nat) : VRes :=
  let x := polIn p (fvOf f a)
  let y := polIn p (fvOf f b)
  let w := polIn p (fvOf f c)
  policy f p (polRnd p) [x, y, w] (fvFma x y w (polRnd p))

/-- The operand of FMIN or FMAX that IEEE 754-2019 minimumNumber or maximumNumber returns; -0 is less than +0 (R382). -/
def pickMin (hi : Bool) (x y : Fv) : Ey :=
  let less := decide (x.cmp y = -1) || (decide (x.cmp y = 0) && x.neg && !y.neg)
  match x, y with
  | .nan _, .nan _ => .nan (x.isSnan || y.isSnan)
  | .nan _, _ => y.ey
  | _, .nan _ => x.ey
  | _, _ => if less = hi then y.ey else x.ey

/-- A policy with SAT off, for results that are an operand or an integral value as it stands (R382, R390). -/
def noSat (p : BitVec 8) : BitVec 8 := p &&& 0xEF#8

def fpLesser (f : Fmt) (p : BitVec 8) : Nat → Nat → VRes := fpOp2 f (noSat p) fun x y _ => pickMin false x y
def fpGreater (f : Fmt) (p : BitVec 8) : Nat → Nat → VRes := fpOp2 f (noSat p) fun x y _ => pickMin true x y

/-- An FCMP condition (Table 17.3). -/
def fpCond (m : Nat) (x y : Fv) : Bool :=
  let nan := x.isNan || y.isNan
  let c := x.cmp y
  match m with
  | 0 => !nan && decide (c = 0)
  | 1 => nan || decide (c ≠ 0)
  | 2 => !nan && decide (c = -1)
  | 3 => !nan && decide (c ≠ -1)
  | 4 => !nan && decide (c ≠ 1)
  | 5 => !nan && decide (c = 1)
  | 6 => nan
  | _ => !nan

/-- FCMP on values: all ones or zero, NV as Table 17.3, PSN's poison; FZI applies (R383). -/
def fpCmp (f : Fmt) (p : BitVec 8) (m : Nat) (a b : Nat) : VRes :=
  let x := polIn p (fvOf f a)
  let y := polIn p (fvOf f b)
  let ordered := decide (m = 2) || decide (m = 3) || decide (m = 4) || decide (m = 5)
  let nv := x.isSnan || y.isSnan || (ordered && (x.isNan || y.isNan))
  ⟨maskRes f (fpCond m x y), if nv then fNV else 0, polPsn p && (!x.finite || !y.finite)⟩

/-- The class code of a value, before any flush (R385). -/
def fpClass (f : Fmt) (a : Nat) : Nat :=
  match fvOf f a with
  | .nan b => if Fv.isSnan (.nan b) then 8 else 9
  | .inf n => if n then 0 else 7
  | .fin n m _ =>
    if m = 0 then (if n then 3 else 4)
    else if fpIsSub f a then (if n then 2 else 5) else (if n then 1 else 6)

/-! ### Reductions -/

/-- One combining step of RED and SCAN on values of a format: 0 add, 1 min, 2 max, 3 and, 4 or, 5 xor (R366). -/
def redStep (f : Fmt) (p : BitVec 8) (op : Nat) (a b : Nat) : VRes :=
  if Rules.isFloat f then
    match op with
    | 0 => fpAdd f p a b
    | 1 => fpLesser f p a b
    | _ => fpGreater f p a b
  else
    match op with
    | 0 => intRes f false (intOf f a + intOf f b)
    | 1 => VRes.plain (if intOf f b < intOf f a then b else a)
    | 2 => VRes.plain (if intOf f a < intOf f b then b else a)
    | 3 => VRes.plain (a &&& b)
    | 4 => VRes.plain (a ||| b)
    | _ => VRes.plain (a ^^^ b)

/-- The identity of an operation in a format (R367). -/
def redIdent (f : Fmt) (op : Nat) : Nat :=
  match op with
  | 1 => if Rules.isFloat f then fpInf f else wrapN (Rules.fmtWidth f) (intMax f)
  | 2 => if Rules.isFloat f then fpSign f true + fpInf f else wrapN (Rules.fmtWidth f) (intMin f)
  | 3 => 2 ^ Rules.fmtWidth f - 1
  | _ => 0

/-- A result that may be invalid, in a reduction. -/
abbrev Part := Option VRes

/-- One combination of the tree: an invalid side passes the other on unchanged (R264). -/
def redPair (g : Nat → Nat → VRes) (x y : Part) : Part :=
  match x, y with
  | some a, some b => let r := g a.bits b.bits; some ⟨r.bits, a.flags ||| b.flags ||| r.flags, a.psn || b.psn || r.psn⟩
  | some a, none => some a
  | none, y => y

/-- One level of the tree. -/
def redLevel (g : Nat → Nat → VRes) : List Part → List Part
  | x :: y :: t => redPair g x y :: redLevel g t
  | t => t

/-- The pairwise tree (R264). -/
def redTree (g : Nat → Nat → VRes) : Nat → List Part → Part
  | 0, xs => xs.head?.getD none
  | n + 1, xs => match xs with
    | [] => none
    | [x] => x
    | _ => redTree g n (redLevel g xs)

/-- SCAN's prefixes: values with their validity, the running value, what is written for each, flags and policy's poison (R367). -/
def scanRun (g : Nat → Nat → VRes) (excl : Bool) (ident : Nat) : List (Nat × Bool) → Option Nat → List VRes
  | [], _ => []
  | (x, valid) :: t, s =>
    if !valid then VRes.plain 0 :: scanRun g excl ident t s
    else
      let r := match s with
        | none => VRes.plain x
        | some a => g a x
      { r with bits := if excl then s.getD ident else r.bits } :: scanRun g excl ident t (some r.bits)

end Sys2Proof.Machine
end

