-- ==== Sys2Proof/Machine/EvEngine.lean ====
section
/-! DEFINITION. The event of an engine: its pieces of work, its signal, its completion (R342 to R347, R83, R184). -/

namespace Sys2Proof.Machine

/-- An engine with the region it serves. -/
structure ESite where
  key : Nat
  rg : Region
  e : Engine
  deriving DecidableEq, Repr

def State.esite (s : State) (key idx : Nat) : Option ESite :=
  match tget s.regions key with
  | some rg => match rg.engines[idx]? with
    | some e => some ⟨key, rg, e⟩
    | none => none
  | none => none

/-- The engine of a region by its number. -/
def State.esiteId (s : State) (key id : Nat) : Option ESite :=
  match tget s.regions key with
  | some rg => (rg.engines.find? fun e => decide (e.id = id)).map fun e => ⟨key, rg, e⟩
  | none => none

def State.putEngine (s : State) (key : Nat) (e : Engine) : State :=
  match tget s.regions key with
  | some r => s.putRegion key { r with engines := r.engines.map fun x => if x.id = e.id then e else x }
  | none => s

def State.dropEngine (s : State) (key id : Nat) : State :=
  match tget s.regions key with
  | some r => s.putRegion key { r with engines := r.engines.filter fun x => decide (x.id ≠ id) }
  | none => s

/-- The waiter that stands for an engine. -/
def ESite.who (x : ESite) : Who := .engine x.key x.e.id

/-- The record of an engine's fault: AGENT 19, NODE 0 (R343). -/
def ESite.faultRec (x : ESite) (s : State) (code va : Nat) : FaultRec :=
  let b := x.e.unit.bind fun u => tget x.rg.blocks u
  x.rg.faultRec 19 code 0 (x.e.unit.getD 0) 0 ((b.map fun b => b.image.hdr.blkid).getD 0) (BitVec.ofNat 64 va) s.mem.pts

/-- A fault of an engine (R343, R174, R175): it stops at the access; a minor or major one waits for the SCC. -/
def State.engineFault (s : State) (x : ESite) (e : Engine) (code va : Nat) : State :=
  let s1 := (s.minorAt code x.who x.rg.ctx va 0 0 x.key).faultToken x.key (x.faultRec s code va)
  s1.putEngine x.key (if codeClass code = 0 then { e with faulted := true } else { e with minor := true })

/-! ### Where the next piece lies (R344, R345) -/

/-- Bytes of an index. -/
def engIw (w : List Word) : Nat := if bitAt (dw w 4) 30 then 8 else 4

/-- A piece: its source and destination, exact, and its bytes: up to the next 64-byte boundary of the destination. -/
structure Piece where
  src : Int
  dst : Int
  n : Nat
  deriving DecidableEq, Repr

/-- The piece of a copying engine at an offset, for its row's index. -/
def enginePiece (w : List Word) (pos : Nat) (idx : Int) : Piece :=
  let src := (field (dw w 1) 55 0 : Int)
  let dst := (field (dw w 2) 55 0 : Int)
  let off := if engRows w then pos % engRow w else pos
  let rest := if engRows w then engRow w - off else engLen w - off
  let s := if engKind w = 0x21 then src + idx * (dw w 5).toInt + off else src + pos
  let d := if engKind w = 0x22 then dst + idx * (dw w 5).toInt + off else dst + pos
  ⟨s, d, min (64 - (d % 64).toNat) rest⟩

/-- Lays out an engine's access at an exact address. -/
def State.layEngine (s : State) (x : ESite) (it : Intent) (lane : Nat) (a : Int) (n : Nat) (bs : List Byte) (psn full : Bool) : Laid :=
  if a < 0 ∨ 2 ^ 56 ≤ a then .fault s cAddressForm (a % 2 ^ 64).toNat
  else s.lay ⟨.core x.key, x.rg.ctx, it, lane, decide (it = .write), psn, full, 0⟩ a.toNat n bs

/-! ### Pieces under way (R193)

The pieces of an engine's work have no order: those that wait begin, and go on, as they are chosen. -/

/-- The accesses of an engine's pieces. -/
def Engine.accs (e : Engine) : List Acc := e.work.flatMap fun p => p.accs

/-- An engine with others in the place of a piece. -/
def Engine.swap (e : Engine) (i : Nat) (ps : List EngPiece) : Engine := { e with work := e.work.take i ++ ps ++ e.work.drop (i + 1) }

/-- What is left of a piece after its first `k` bytes. -/
def EngPiece.after (p : EngPiece) (k : Nat) : List EngPiece := if p.n ≤ k then [] else [{ p with off := p.off + k, n := p.n - k }]

/-- Accesses of an engine start: those of `k` bytes of a piece, at its stage; the rest of the piece waits. -/
def startPiece (x : ESite) (i : Nat) (p : EngPiece) (k : Nat) (l : Laid) : State :=
  match l with
  | .fault s1 c va => s1.engineFault x x.e c va
  | .ok s1 as => match s1.issueAccs x.key as with
    | (s2, bs) => s2.putEngine x.key (x.e.swap i ({ p with n := k, accs := bs } :: p.after k))

/-- What an engine writes of a piece whose source it has read: the bytes and their poison, with the flags it raises. -/
structure EngOut where
  bytes : List Byte
  psn : Bool
  flags : BitVec 10
  deriving DecidableEq, Repr

/-- How an engine cuts its work into pieces, and what it writes of each. -/
structure EngKind where
  cut : EngPiece → Piece
  out : EngPiece → List Acc → EngOut

/-- The value of an index read. -/
def idxVal (w : List Word) (bs : List Byte) : Nat := leNat (bs.take (engIw w))

/-- A piece that waits begins: the read of its row's index, or of its source. -/
def State.beginPiece (s : State) (x : ESite) (g : EngKind) (i : Nat) (p : EngPiece) : State :=
  let w := x.e.words
  if p.stage = 0 then
    startPiece x i p (engRow w) (s.layEngine x .read 1 ((field (dw w 3) 55 0 + p.off / engRow w * engIw w : Nat) : Int) (engIw w) [] false false)
  else startPiece x i p (g.cut p).n (s.layEngine x .read 0 (g.cut p).src (g.cut p).n [] false false)

/-- What follows when the accesses of a piece are done: with the index the row's pieces, with the source the write, with the write nothing. -/
def State.pieceDone (s : State) (x : ESite) (g : EngKind) (i : Nat) (p : EngPiece) (as : List Acc) : State :=
  match p.stage with
  | 0 =>
    if lanePsn as 1 then s.engineFault x x.e cPoisonedOperand ((as.map fun a => a.va).headD 0)
    else s.putEngine x.key (x.e.swap i [{ p with stage := 1, idx := idxVal x.e.words (laneBytes as 1), accs := [] }])
  | 1 =>
    let o := g.out p as
    match (s.setFlags x.key o.flags).layEngine x .write 0 (g.cut p).dst p.n o.bytes o.psn (decide ((g.cut p).dst % 64 = 0 ∧ p.n = 64)) with
    | .fault s1 c va => s1.engineFault x (x.e.swap i [{ p with accs := as }]) c va
    | .ok s1 bs => match s1.issueAccs x.key bs with
      | (s2, cs) => s2.putEngine x.key (x.e.swap i [{ p with stage := 2, accs := cs }])
  | _ => (s.noteErrs x.key as).putEngine x.key (x.e.swap i [])

/-- One turn of a piece under way. -/
def State.turnPiece (s : State) (x : ESite) (g : EngKind) (i : Nat) (p : EngPiece) : State :=
  match s.turnAccs x.rg.ctx x.who p.accs with
  | .more s1 as => s1.putEngine x.key (x.e.swap i [{ p with accs := as }])
  | .fault s1 c va => s1.engineFault x x.e c va
  | .all s1 as => s1.pieceDone x g i p as

/-- Whether a piece can take a turn: it waits, or an access of it can be performed, or all are. A halted region's begins none (R102). -/
def EngPiece.ready (p : EngPiece) (run : Bool) : Bool :=
  if p.accs.isEmpty then run else !(pendingAccs p.accs).isEmpty || p.accs.all fun a => a.done

/-- The pieces of an engine that can take a turn. -/
def Engine.ready (e : Engine) (run : Bool) : List Nat := (e.work.zipIdx.filter fun p => p.1.ready run).map fun p => p.2

/-- One turn of an engine's work: a piece of it, whichever. -/
def State.workTurn (s : State) (x : ESite) (g : EngKind) : State :=
  let ps := x.e.ready (decide (x.rg.run = .running))
  let i := ps.getD (s.choice ps.length) 0
  match if ps.isEmpty then none else x.e.work[i]? with
  | none => s
  | some p => if p.accs.isEmpty then s.drawn.beginPiece x g i p else s.drawn.turnPiece x g i p

/-! ### Completion (R342, R346) -/

/-- The completion token of an engine. -/
def complTok : Token := ⟨0, 0, 0, .left, 0, noLoff, { Flags.none with compl := true }, noLanes, 0⟩

/-- The source number of the arc out of an engine. -/
def engineSrc (key id : Nat) : Nat := 2 ^ 41 + key * 2 ^ 20 + id

/-- The engine has drained: its cairn advances, its token is sent, and it is no more. -/
def State.drain (s : State) (x : ESite) : State :=
  let w := x.e.words
  let s1 := match x.e.cairn with
    | some k => s.cairnAddScc k 1
    | none => s
  let s2 := match x.e.unit with
    | some u => match tget x.rg.blocks u with
      | some b => if engTv w then s1.inject (x.rg.tileKey (engTtile w)) (x.rg.tileKey (engTtile w)) x.rg u b (field (dw w 0) 23 17)
          (Decode.portOf (BitVec.ofNat 2 (field (dw w 0) 25 24))) (engineSrc x.key x.e.id) complTok else s1
      | none => s1
    | none => s1
  s2.dropEngine x.key x.e.id

/-- The end of an engine's work: a signal goes out first, and a remote one is answered first (R346). -/
def State.finishEngine (s : State) (x : ESite) : State :=
  let w := x.e.words
  let cairn := field (dw w 4) 19 0
  let dev := field (dw w 4) 31 20
  if (engKind w = 0x24 ∨ engKind w = 0x25) ∧ bitAt (dw w 4) 32 = true then
    if dev = s.dev.devNum then (s.cairnAddScc cairn 1).drain x
    else match x.e.signal with
      | 0 => match s.request 6 dev 0 x.rg.ctx 0 1 (cairnBody 1 s.freshTag cairn 1 s.mem.pts) x.who with
        | .ok s1 => s1.putEngine x.key { x.e with signal := 1 }
        | .wait => s
        | .noRoute => s.engineFault x x.e cNoRoute 0
      | 2 => s.drain x
      | _ => s
  else s.drain x

/-! ### The copying engines -/

/-- The work of COPY, GATHER, SCATTER, RPUT and RGET. -/
def copyKind (w : List Word) : EngKind where
  cut p := enginePiece w p.off (signed (8 * engIw w) p.idx)
  out _ as := ⟨laneBytes as 0, lanePsn as 0, 0⟩

/-- One turn of COPY, GATHER, SCATTER, RPUT or RGET. -/
def State.copyTurn (s : State) (x : ESite) : State := if x.e.work.isEmpty then s.finishEngine x else s.workTurn x (copyKind x.e.words)

/-! ### CRED (R347) -/

/-- Another member's input to this CRED. -/
def State.credIn (s : State) (e : Engine) (r : Nat) : Option CredIn :=
  s.link.creds.find? fun c => decide (c.group = credGroup e.words ∧ c.kth = e.joined ∧ c.rank = r)

/-- Ranks of the other members. -/
def credOthers (w : List Word) : List Nat := (List.range (credMembers w)).filter fun r => decide (r ≠ credRank w)

/-- Whether another member's descriptor agrees with this one's: all but RANK. -/
def credAgrees (w : List Word) (c : CredIn) : Bool :=
  decide (c.w4 &&& ~~~0xF0000#64 = dw w 4 &&& ~~~0xF0000#64) && decide (c.len = engLen w) && decide (c.members = [dw w 5, dw w 6, dw w 7])

/-- One step of the fold: 0 add, 1 max, 2 min. -/
def credStep (f : Fmt) (op a b : Nat) : VRes :=
  match f with
  | .i32 =>
    let x := signed 32 a
    let y := signed 32 b
    VRes.plain (wrapN 32 (match op with
      | 0 => x + y
      | 1 => max x y
      | _ => min x y))
  | f => match op with
    | 0 => fpAdd f 0 a b
    | 1 => fpGreater f 0 a b
    | _ => fpLesser f 0 a b

/-- The left fold of one element over the members' values, with its flags. -/
def credFold (f : Fmt) (op : Nat) : List Nat → Nat × BitVec 10
  | [] => (0, 0)
  | v :: vs => vs.foldl (fun r b => ((credStep f op r.1 b).bits, r.2 ||| (credStep f op r.1 b).flags)) (v, 0)

def credFmt (w : List Word) : Fmt := if field (dw w 4) 31 28 = 8 then .f32 else if field (dw w 4) 31 28 = 10 then .bf16 else .i32

/-- The fold of 64 bytes of each member, in rank order. -/
def credSector (w : List Word) (parts : List (List Byte)) : List Byte × BitVec 10 :=
  let size := if credFmt w = .bf16 then 2 else 4
  let rs := (List.range (64 / size)).map fun i => credFold (credFmt w) (field (dw w 4) 27 24) (parts.map fun p => leNat ((p.drop (size * i)).take size))
  (rs.flatMap fun r => leBytes size r.1, rs.foldl (fun m r => m ||| r.2) 0)

/-- What every member brings to the piece at an offset; this member's own bytes in its place. -/
def State.credParts (s : State) (e : Engine) (off : Nat) (mine : List Byte) : List (List Byte) :=
  (List.range (credMembers e.words)).map fun r =>
    if r = credRank e.words then mine else ((s.credIn e r).map fun c => (c.data.drop off).take 64).getD []

/-- Whether another member's piece at an offset is poisoned. -/
def State.credPsn (s : State) (e : Engine) (off : Nat) : Bool :=
  (credOthers e.words).any fun r => ((s.credIn e r).map fun c => c.poison.contains (off / 64)).getD false

/-- The work of CRED: 64 bytes of every member, folded. -/
def State.credKind (s : State) (e : Engine) : EngKind where
  cut p := ⟨((field (dw e.words 1) 55 0 + p.off : Nat) : Int), ((field (dw e.words 2) 55 0 + p.off : Nat) : Int), 64⟩
  out p as := match credSector e.words (s.credParts e p.off (laneBytes as 0)) with
    | (bs, fl) => ⟨bs, lanePsn as 0 || s.credPsn e p.off, fl⟩

/-- One turn of CRED: it waits until every member has joined; members that differ, or a list that lacks this device at RANK, fault it. -/
def State.credTurn (s : State) (x : ESite) : State :=
  let w := x.e.words
  let e := x.e
  if credMember w (credRank w) ≠ s.dev.devNum then s.engineFault x e cIllegalInstr 0
  else if (credOthers w).any fun r => (s.credIn e r).isNone then s
  else if (credOthers w).any fun r => ((s.credIn e r).map fun c => !credAgrees w c).getD true then s.engineFault x e cIllegalInstr 0
  else if e.work.isEmpty then
    ({ s with link := { s.link with creds := s.link.creds.filter fun c => decide (c.group ≠ credGroup w ∨ c.kth ≠ e.joined) } }).drain x
  else s.workTurn x (s.credKind e)

/-! ### ENGINE_DRAIN -/

/-- An engine that a CANCEL stopped: the sectors it writes are finished, then its cairn advances with the cancelled flag (R83). -/
def State.stoppedTurn (s : State) (x : ESite) : State :=
  let e := x.e
  let gone := fun (s' : State) => (match e.cairn with
    | some k => s'.advance k true
    | none => s').dropEngine x.key e.id
  if e.faulted || e.minor then (if e.accs.any fun a => a.store && a.sent && !a.done then s else gone s)
  else
    match e.work.filter fun p => decide (p.stage = 2) with
    | [] => gone s
    | p :: ps => match s.turnAccs x.rg.ctx x.who p.accs with
      | .more s1 as => s1.putEngine x.key { e with work := ps ++ [{ p with accs := as }] }
      | .all s1 _ => s1.putEngine x.key { e with work := ps }
      | .fault s1 _ _ => s1.putEngine x.key { e with faulted := true }

/-- ENGINE_DRAIN: one turn of an engine: of one of its pieces, or its completion when none is left. -/
def execEngineDrain (key idx : Nat) (s : State) : Host.Outcome State Fault Refusal :=
  match s.esite key idx with
  | none => .next s
  | some x =>
    if x.e.stopped then .next (s.stoppedTurn x)
    else if x.e.faulted || x.e.minor then .next s
    else if engKind x.e.words = 0x23 then .next (s.credTurn x)
    else .next (s.copyTurn x)

end Sys2Proof.Machine
end

