-- ==== Sys2Proof/Machine/EvSolry.lean ====
section
/-! DEFINITION. Received flits of memory, tokens, cairns, heap headers and classes, and what completes when an answer arrives
(R28 to R46, R58 to R61, R103, R195, R223). -/

namespace Sys2Proof.Machine

/-! ### Taking a flit (R31, R33, R60) -/

/-- A NULL flit: ACK of the last good flit (R33), where the replay buffer has a place for it. Which DDEV a link control flit bears is the model's
choice, 0xFFF (log 29). -/
def State.sendNull (s : State) (port : Nat) : State :=
  if replayPlaces ≤ (s.link.port port).buffer.length then s else s.putRaw port 0 0xFFF s.ownNum 0 (List.replicate 84 0) false

/-- A gap or a discarded flit: ACK of the last good flit with a replay request (R33). -/
def State.askReplay (s : State) (port : Nat) : State :=
  let s1 := s.sendNull port
  { s1 with link := s1.link.putPort port { s1.link.port port with replayAsked := true } }

/-- Flits of the replay buffer up to an acknowledged SEQ are dropped (R33). -/
def ackDrop (buf : List Flit) (ack : BitVec 12) : List Flit :=
  if buf.any fun f => decide (f.hdr.seq = ack) then (buf.dropWhile fun f => decide (f.hdr.seq ≠ ack)).drop 1 else buf

/-- Pool credits that a flit's CRED field brings: for the flit's own channel; of a link control flit for whichever, a free choice (log 29). -/
def PortSt.credited (p : PortSt) (ch cred : Nat) : List Nat := lput p.pool ch (min 512 (p.pool.getD ch 0 + cred))

/-- A good flit in order: its ACK and credits are taken, tokens that the peer acknowledged are done, flits that waited for a credit go out (R33, R42). -/
def State.acceptFlit (s : State) (f : Flit) : State :=
  let p := s.link.port f.port
  let buf := ackDrop p.buffer f.hdr.ack
  let still := fun (q : Req) => decide (q.typ ≠ 5 ∨ q.port ≠ f.port) || buf.any fun g => decide (g.hdr.seq.toNat = q.tag)
  let free := decide (f.hdr.vch = 3#2 ∧ f.hdr.cred ≠ 0)
  let s1 := { (if free then s.drawn else s) with link := { s.link.putPort f.port { p with
      expect := (p.expect + 1) % 4096
      acked := f.hdr.ack.toNat
      buffer := buf
      classes := if f.hdr.vch = 3#2 then p.classes else p.touch f.hdr.sdev.toNat f.hdr.ctx.toNat s.now
      inPool := p.inPool.filter fun n => buf.any fun g => decide (g.hdr.seq.toNat = n)
      pool := p.credited (if free then s.choice 3 else f.hdr.vch.toNat) f.hdr.cred.toNat
      replays := if buf.length = p.buffer.length then p.replays else 0
      lastGood := s.now
      replayAsked := false } with
    reqs := s.link.reqs.filter still } }
  s1.drainPort f.port

/-! ### The receive buffer (R40 to R43) -/

/-- Whether two flits are of one class on one channel of a port. -/
def sameClass (f g : Flit) : Bool := decide (f.port = g.port ∧ f.hdr.vch = g.hdr.vch ∧ f.hdr.sdev = g.hdr.sdev ∧ f.hdr.ctx = g.hdr.ctx)

/-- Whether an accepted flit takes a place of the pool: its class has no entry, or has its four places taken (R40, log 29). -/
def State.poolPlace (s : State) (f : Flit) : Bool :=
  let p := s.link.port f.port
  let flits := (s.link.held.filter fun h => sameClass h.flit f && !h.pool).length
  let toks := (p.tokens.filter fun t => decide (f.hdr.vch = 2#2 ∧ t.sdev = f.hdr.sdev.toNat ∧ t.tok.ctx = f.hdr.ctx.toNat ∧ t.pool = false)).length
  decide (f.hdr.vch ≠ 3#2) && (!p.bound f.hdr.sdev.toNat f.hdr.ctx.toNat || decide (4 ≤ flits + toks))

/-- A place of the pool is free again: a credit of its channel is owed to the peer. -/
def State.owe (s : State) (port vch : Nat) (pool : Bool) : State :=
  if pool then
    let p := s.link.port port
    { s with link := s.link.putPort port { p with owed := lput p.owed vch (p.owed.getD vch 0 + 1) } }
  else s

/-- A flit that starts its service: nothing done. -/
def HeldFlit.fresh (f : Flit) (pool : Bool) : HeldFlit := ⟨f, pool, 0, List.replicate 64 0, false⟩

/-- The global sector address of a memory body (R30). -/
def flitAddr (f : Flit) : Nat := Decode.bodyNum f.body 78 83 % 2 ^ 46 * 64

/-- Whether a local address lies in the management window (Table 3.1). -/
def inMgmt (a : Nat) : Bool := decide (0xFF00000000 ≤ a) && decide (a < 0xFF01000000)

/-- Whether a flit is addressed to this device: by its number, or before it has one a request to its management window (R60). -/
def State.forMe (s : State) (f : Flit) : Bool :=
  decide (f.hdr.vch = 3#2) ||
  if s.dev.devSet then decide (f.hdr.ddev.toNat = s.dev.devNum)
  else decide (f.hdr.ddev = 0xFFF#12) && decide (f.hdr.typ = 1#4 ∨ f.hdr.typ = 2#4) && inMgmt (localOf (flitAddr f))

/-- How the service of a flit ends: done; with its token kept in the flit's place (R43); with one of its beats done; or standing as it is. -/
inductive Served where
  | done (s : State) | held (s : State) | part (s : State) (h : HeldFlit) | wait
  deriving DecidableEq, Repr

/-- Whether a flit is of a step's type and OP (0 for any). -/
def flitIs (typ op : Nat) (f : Flit) : Bool := decide (f.hdr.typ.toNat = typ ∧ (op = 0 ∨ Decode.bodyNum f.body 0 0 = op))

/-- Places in the receive buffers of flits that a step can serve: of its type, and the first of their class on their channel (R42). -/
def State.heldFor (s : State) (typ op : Nat) : List Nat :=
  (s.link.held.zipIdx.filter fun h => flitIs typ op h.1.flit && !(s.link.held.take h.2).any fun k => sameClass k.flit h.1.flit).map fun h => h.2

/-- Serves the flit at a place of the receive buffers. -/
def State.serveHeld (s : State) (i : Nat) (g : State → HeldFlit → Served) : State :=
  match s.link.held[i]? with
  | none => s
  | some h =>
    match g { s with link := { s.link with held := ldrop s.link.held i } } h with
    | .done s1 => s1.owe h.flit.port h.flit.hdr.vch.toNat h.pool
    | .held s1 => s1
    | .part s1 k => { s1 with link := { s1.link with held := s1.link.held.take i ++ k :: s1.link.held.drop i } }
    | .wait => s

/-- The next flit from the wires, taken by the step of its type and OP: one that is not good, or out of order, asks for replay (R31, R33); behind
another of its class, or where it cannot be served yet, it stands in the receive buffer. -/
def State.takeRx (s : State) (typ op : Nat) (g : State → HeldFlit → Served) : State :=
  match s.link.rx with
  | [] => s
  | f :: rest =>
    let s0 := { s with link := { s.link with rx := rest } }
    if !(s.link.port f.port).up then s0
    else if !Decode.flitOk f || decide (f.hdr.seq.toNat ≠ (s.link.port f.port).expect) then s0.askReplay f.port
    else if !flitIs typ op f then s
    else
      let s1 := s0.acceptFlit f
      let h := HeldFlit.fresh f (s1.poolPlace f)
      let keep := fun (k : HeldFlit) (s' : State) => { s' with link := { s'.link with held := s'.link.held ++ [k] } }
      if !s1.forMe f then s1.owe f.port f.hdr.vch.toNat h.pool
      else if s1.link.held.any fun k => sameClass k.flit f then keep h s1
      else
        match g s1 h with
        | .done s2 => s2.owe f.port f.hdr.vch.toNat h.pool
        | .held s2 => s2
        | .part s2 k => keep k s2
        | .wait => keep h s1

/-- A step of received flits: of those it can serve in the receive buffers and the next from the wires, whichever. -/
def recvHeld (typ op : Nat) (s : State) (g : State → HeldFlit → Served) : Host.Outcome State Fault Refusal :=
  let hs := s.heldFor typ op
  if hs.isEmpty then .next (s.takeRx typ op g)
  else
    match hs[s.choice (hs.length + 1)]? with
    | some i => .next (s.drawn.serveHeld i g)
    | none => .next (s.drawn.takeRx typ op g)

/-- A step of flits that are served whole; `g` answers none where the flit must stand in the receive buffer. -/
def recvFlit (typ op : Nat) (s : State) (g : State → Flit → Option State) : Host.Outcome State Fault Refusal :=
  recvHeld typ op s fun s1 h => match g s1 h.flit with
    | some s2 => .done s2
    | none => .wait

/-- The replay buffer resent, counted in REPLAY (R33, Table 2.4); with the eighth replay of its first flit in a row a link fault is due (R34). -/
def State.replayAll (s : State) (port : Nat) : State :=
  let p := s.link.port port
  let s1 := { s with link := { s.link.putPort port { p with
    replay := min 65535 (p.replay + p.buffer.length)
    replays := p.replays + 1 } with tx := s.link.tx ++ p.buffer } }
  if 8 ≤ p.replays + 1 then s1.post (.event (.linkFault port .replays)) else s1

/-- NULL: whether the peer asks for replay with it is a free choice, since its header has no field for that (log 28). -/
def execNullFlit (s : State) : Host.Outcome State Fault Refusal :=
  recvFlit 0 0 s fun s1 f =>
    if (s1.link.port f.port).buffer.isEmpty then some s1
    else if s1.choice 2 = 0 then some s1.drawn else some (s1.drawn.replayAll f.port)

/-! ### Time of a requester (R191) -/

/-- This device's logical time is at least one that a flit carries. -/
def State.seeTime (s : State) (ts : Nat) : State := { s with mem := { s.mem with pts := max s.mem.pts ts } }

/-! ### Requests for memory (R45, R58 to R61) -/

/-- Where a request of another device is performed: before numbering in the management window only. -/
def State.homeOf (s : State) (ctx a : Nat) : Nat := if s.dev.devSet then s.target ctx a else 0xFFF * 2 ^ 40 + localOf a

/-- Whether an address is this device's, numbered or not. -/
def State.ours (s : State) (t : Nat) : Bool := s.isLocal t || !s.dev.devSet

/-- Bytes a mask selects, the others zero. -/
def maskBytes (m : Nat) (bs : List Byte) : List Byte := bs.zipIdx.map fun p => if m.testBit p.2 then p.1 else 0

/-- A read of a sector under a mask at a local address: data and poison. -/
def State.readSector (s : State) (a mask : Nat) : (List Byte × Bool) × State :=
  if a < Config.memBytes then ((maskBytes mask (s.mem.read a 64), s.mem.poisoned a), { s with mem := s.mem.stampLoad a })
  else
    match maskRun mask with
    | some (off, n) =>
      match s.loadLocal (a + off) n with
      | ((bs, p), s1) => ((sectorBytes (List.replicate 64 0) off bs, p), s1)
    | none => ((List.replicate 64 0, (s.loadLocal a 64).1.2), s)

/-- Bytes of a mask in the lower or the upper beat of a sector (R190). -/
def beatMask (upper : Bool) (mask : Nat) : Nat := if upper then mask / 2 ^ 32 * 2 ^ 32 else mask % 2 ^ 32

/-- The bytes that the next step of a flit's service reads or writes: outside main memory all that it names; in it all, or those of one beat where
it names bytes of both and neither is done, whichever (R190). -/
def State.partNow (s : State) (main : Bool) (mask done : Nat) : Nat :=
  let left := mask - done
  if !main || decide (beatMask false left = 0) || decide (beatMask true left = 0) then left
  else match s.choice 3 with
    | 0 => left
    | 1 => beatMask false left
    | _ => beatMask true left

/-- Two sectors' bytes, those of a mask from the second. -/
def mergeBytes (mask : Nat) (old new : List Byte) : List Byte := old.zipIdx.map fun p => if mask.testBit p.2 then new.getD p.2 0 else p.1

/-- RDREQ: performed at the home, both beats at once or one after the other, or passed on where the page has moved (R55), and answered on the
port it came by (R61). -/
def execRdreq (s : State) : Host.Outcome State Fault Refusal :=
  recvHeld 1 0 s fun s1 h =>
    let f := h.flit
    let ctx := f.hdr.ctx.toNat
    let mask := Decode.bodyNum f.body 64 71
    let t := s1.homeOf ctx (flitAddr f)
    let s2 := s1.seeTime (Decode.bodyNum f.body 72 77)
    if s2.ours t then
      let now_ := s2.partNow (decide (localOf t < Config.memBytes)) mask h.mask
      match s2.drawn.readSector (localOf t) now_ with
      | ((bs, p), s3) =>
        let k : HeldFlit := { h with mask := h.mask + now_, data := mergeBytes now_ h.data bs, psn := h.psn || p }
        if k.mask = mask then .done (s3.putFlit f.port 3 f.hdr.sdev.toNat ctx (memBody k.data mask s3.mem.pts (flitAddr f) k.psn))
        else .part s3 k
    else
      match s2.request 1 (devOf t) t ctx mask (BitVec.ofNat 64 (flitAddr f)) (memBody (List.replicate 64 0) mask s2.mem.pts t false)
          (.remote f.hdr.sdev.toNat f.port 0) with
      | .ok s3 => .done s3
      | _ => .wait

/-- Whether a context maps a local frame. -/
def State.mapsFrame (s : State) (ctx a : Nat) : Bool :=
  (tget s.host.ctxs ctx).isSome && (findVa s.mem (s.dev.devNum * 2 ^ 40 + a / 65536 * 65536) 4 1 (s.root ctx) 0).isSome

/-- WRREQ: of a context that maps it, a copy-on-write frame is served first (R181); the host's store is made in place (log 32). Then the sector is written, both beats at once or one after the other, and acknowledged.
The WRACK of the write that gives the device its number bears that number (log 32). -/
def execWrreq (s : State) : Host.Outcome State Fault Refusal :=
  recvHeld 2 0 s fun s1 h =>
    let f := h.flit
    let ctx := f.hdr.ctx.toNat
    let mask := Decode.bodyNum f.body 64 71
    let psn := (Decode.bodyNum f.body 78 83).testBit 47
    let s2 := s1.seeTime (Decode.bodyNum f.body 72 77)
    let t0 := s2.homeOf ctx (flitAddr f)
    let s3 := if s2.ours t0 && decide (localOf t0 < Config.memBytes) && (s2.mem.frame (localOf t0)).cow && s2.mapsFrame ctx (localOf t0) then s2.serveCow ctx (localOf t0) else s2
    let t := s3.homeOf ctx (flitAddr f)
    if s3.ours t then
      let now_ := s3.partNow (decide (localOf t < Config.memBytes)) mask h.mask
      let s4 := s3.drawn.writeSector (localOf t) now_ h.mask mask (f.body.take 64) psn true
      if h.mask + now_ = mask then .done (s4.putFlit f.port 4 f.hdr.sdev.toNat ctx (memBody (List.replicate 64 0) mask s4.mem.pts (flitAddr f) false))
      else .part s4 { h with mask := h.mask + now_ }
    else
      match s3.request 2 (devOf t) t ctx mask (BitVec.ofNat 64 (flitAddr f)) (memBody (f.body.take 64) mask s3.mem.pts t psn)
          (.remote f.hdr.sdev.toNat f.port 0) with
      | .ok s4 => .done s4
      | _ => .wait

/-! ### Answers for memory (R45, R103) -/

def State.dropReq (s : State) (q : Req) : State := { s with link := { s.link with reqs := s.link.reqs.filter fun r => decide (r ≠ q) } }

/-- A response kept for a parked region (R103). -/
def State.keepResp (s : State) (pid : Nat) (q : Req) (body : List Byte) (fault : Option Nat) : State :=
  match tget s.parked pid with
  | some p => { s with parked := tput s.parked pid { p with region := { p.region with pend := p.region.pend ++ [⟨q, body, fault⟩] } } }
  | none => s

/-- A sector that an image fetch waits for (R93). -/
def Fetch.take (f : Fetch) (pa : Nat) (bs : List Byte) : Fetch :=
  if f.pa ≤ pa ∧ pa < f.pa + 2048 ∧ (f.got.any fun g => decide (g.1 = pa)) = false then { f with got := f.got ++ [(pa, bs)] } else f

/-- The response to a load or store of a sector reaches whoever asked. -/
def State.deliverMem (s : State) (q : Req) (body : List Byte) : State :=
  let store := decide (q.typ = 2)
  let psn := (Decode.bodyNum body 78 83).testBit 47
  let s1 := (s.dropReq q).seeTime (Decode.bodyNum body 72 77)
  match q.who with
  | .parked pid => s1.keepResp pid q body none
  | .remote dev port _ =>
    s1.putFlit port (if store then 4 else 3) dev q.ctx (memBody (body.take 64) q.mask.toNat s1.mem.pts q.operand.toNat psn)
  | .txn cdev xid =>
    if s1.applying cdev xid then s1
    else if cdev = s1.dev.devNum then (s1.mapTxn xid fun u => u.mapTarget cdev fun h => { h with done := true }).txnFinish xid
    else s1.sendAny cdev 8 0 (xctlBody 5 0 cdev xid 0)
  | .fetch key =>
    let fs := s1.caches.fetches.map fun f => if f.key = key then f.take q.operand.toNat (body.take 64) else f
    { s1 with caches := { s1.caches with fetches := fs } }
  | .scc => if store then s1 else { s1 with host := { s1.host with headers := s1.host.headers ++ [(q.operand.toNat, body.take 64)] } }
  | w => s1.mapAccs w (answerAccs store q.tag (body.take 64) psn)

/-- The oldest request of a context that a response of a type answers. -/
def State.reqFor (s : State) (typ dev ctx a : Nat) : Option Req :=
  s.link.reqs.find? fun q => decide (q.typ = typ ∧ q.dev = dev ∧ q.ctx = ctx ∧ q.addr / 64 * 64 = a)

def memAnswer (typ : Nat) (s1 : State) (f : Flit) : Option State :=
  match s1.reqFor typ f.hdr.sdev.toNat f.hdr.ctx.toNat (flitAddr f) with
  | some q => some (s1.deliverMem q f.body)
  | none => some s1

/-- RDRSP. -/
def execRdrsp (s : State) : Host.Outcome State Fault Refusal := recvFlit 3 0 s (memAnswer 1)
/-- WRACK. -/
def execWrack (s : State) : Host.Outcome State Fault Refusal := recvFlit 4 0 s (memAnswer 2)

/-! ### Tokens (R43, R94, R282) -/

/-- The source number of an arc from another device. -/
def remoteSrc (t : Token) : Nat := 2 ^ 42 + ((t.bslot * 128 + t.node) * 4 + portNum t.port) * 4096 + t.ctx

/-- Instances of a context's mapped units that hold a token's node: region, unit and tile. -/
def State.tokenHomes (s : State) (t : Token) : List (Nat × Nat × Nat) :=
  s.regions.flatMap fun e =>
    if e.2.ctx = t.ctx ∧ e.2.run = .running then
      match tget e.2.blocks t.bslot with
      | some b =>
        if b.phase = .mapped ∧ b.image.hdr.control = false then
          ((maskTiles e.2 b).filter fun k => ((s.tile k).findNode t.ctx t.bslot t.node 0).isSome).map fun k => (e.1, t.bslot, k)
        else []
      | none => []
    else []

/-- A token of another device put on the arc to its node; none where no instance stands. Which of several instances is a free choice. -/
def State.landToken (s : State) (t : Token) : Option State :=
  match s.tokenHomes t with
  | [] => none
  | hs =>
    match hs.getD (s.choice hs.length) (0, 0, 0) with
    | (key, bslot, tile) =>
      match tget s.regions key with
      | some rg =>
        match tget rg.blocks bslot with
        | some b => some (s.drawn.inject tile tile rg bslot b t.node t.port (remoteSrc t) t)
        | none => none
      | none => none

/-- TOKEN: delivered to its node, or held in the receive buffer until the context resumes or the block maps. -/
def execTokenFlit (s : State) : Host.Outcome State Fault Refusal :=
  recvHeld 5 0 s fun s1 h =>
    let t := Token.ofBytes h.flit.body
    let p := s1.link.port h.flit.port
    let held := p.tokens.any fun u => decide (remoteSrc u.tok = remoteSrc t)
    match if held then none else s1.landToken t with
    | some s2 => .done s2
    | none =>
      let s2 := { s1 with link := s1.link.putPort h.flit.port { p with tokens := p.tokens ++ [⟨h.flit.hdr.sdev.toNat, h.pool, t⟩] } }
      .held s2

/-! ### Cairn requests (R195, R46, R32) -/

/-- A GREPLY body (Table 2.10). -/
def greplyBody (kind status tag : Nat) (flag : Bool) (v w0 w1 : Word) (ts : Nat) : List Byte :=
  leBytes 1 kind ++ leBytes 1 status ++ leBytes 2 tag ++ leBytes 1 (if flag then 1 else 0) ++ leBytes 3 0 ++ leBytes 8 v.toNat ++
    leBytes 8 w0.toNat ++ leBytes 8 w1.toNat ++ leBytes 6 (ts % 2 ^ 48) ++ List.replicate 46 0

/-- The reply to a cairn request. -/
def State.cairnReply (s : State) (port dev ctx tag c status : Nat) : State :=
  s.putFlit port 10 dev ctx (greplyBody 1 status tag (s.cairn.flag c) (s.cairn.val c) 0 0 s.mem.pts)

def flitTag (f : Flit) : Nat := Decode.bodyNum f.body 2 3
def flitCairn (f : Flit) : Nat := Decode.bodyNum f.body 4 6
def flitOperand (f : Flit) : Word := BitVec.ofNat 64 (Decode.bodyNum f.body 8 15)
def flitTs (f : Flit) : Nat := Decode.bodyNum f.body 16 21

/-- CAIRN add: an overflow is reported to the SCC, and answered (Table 8.3). -/
def execCairnAdd (s : State) : Host.Outcome State Fault Refusal :=
  recvFlit 6 1 s fun s1 f =>
    let over_ := cairnOver (s1.cairn.val (flitCairn f)) (flitOperand f)
    let s2 := (s1.seeTime (flitTs f)).cairnAddScc (flitCairn f) (flitOperand f)
    some (s2.cairnReply f.port f.hdr.sdev.toNat f.hdr.ctx.toNat (flitTag f) (flitCairn f) (if over_ then 3 else 0))

/-- Waits of other devices that one M-die's cairn unit holds. -/
def State.remoteWaits (s : State) (mdie : Nat) : Nat :=
  (s.cairn.waits.filter fun w => decide (w.cairn % 4 = mdie) && match w.who with
    | .remote .. => true
    | _ => false).length

/-- CAIRN wait: answered when it completes, or retry where the unit's 4,096 places are taken. -/
def execCairnWait (s : State) : Host.Outcome State Fault Refusal :=
  recvFlit 6 2 s fun s1 f =>
    let s2 := s1.seeTime (flitTs f)
    let dev := f.hdr.sdev.toNat
    let ctx := f.hdr.ctx.toNat
    if (flitOperand f).toNat ≤ (s2.cairn.val (flitCairn f)).toNat then some (s2.cairnReply f.port dev ctx (flitTag f) (flitCairn f) 0)
    else if 4096 ≤ s2.remoteWaits ((flitCairn f) % 4) then some (s2.cairnReply f.port dev ctx (flitTag f) (flitCairn f) 1)
    else some { s2 with cairn := { s2.cairn with waits := s2.cairn.waits ++ [(⟨(flitCairn f), (flitOperand f), .remote dev f.port ((flitTag f) + 65536 * ctx)⟩ : CWait)] } }

/-- CAIRN read. -/
def execCairnRead (s : State) : Host.Outcome State Fault Refusal :=
  recvFlit 6 3 s fun s1 f => some ((s1.seeTime (flitTs f)).cairnReply f.port f.hdr.sdev.toNat f.hdr.ctx.toNat (flitTag f) (flitCairn f) 0)

/-! ### Header operations at the home heap unit (R223) -/

def State.heapReply (s : State) (port dev ctx tag status a : Nat) : State :=
  s.putFlit port 10 dev ctx (greplyBody 2 status tag false 0 (s.mem.word a) (s.mem.word (a + 8)) s.mem.pts)

/-- How a header operation ends at the heap unit: with a status at an address; standing until the object is not MOVING; or it is kept, since its
page cannot be copied yet. -/
inductive HopRes where
  | done (s : State) (status a : Nat)
  | stand
  | keep
  deriving DecidableEq, Repr

/-- A header operation of another device: at its page here, passed on where the page has moved, *not heap* outside main memory. -/
def hopStep (op : Nat) (g : State → Flit → Nat → HopRes) (s : State) : Host.Outcome State Fault Refusal :=
  recvFlit 11 op s fun s1 f =>
    let ctx := f.hdr.ctx.toNat
    let dev := f.hdr.sdev.toNat
    let s2 := s1.seeTime (flitTs f)
    let t := s2.target ctx (Decode.bodyNum f.body 8 13 * 16)
    if s2.isLocal t then
      if Config.memBytes ≤ localOf t then some (s2.putFlit f.port 10 dev ctx (greplyBody 2 6 (flitTag f) false 0 0 0 s2.mem.pts))
      else
        match g s2 f (localOf t) with
        | .done s3 status a => some (s3.heapReply f.port dev ctx (flitTag f) status a)
        | .keep => none
        | .stand => some { s2 with link := { s2.link with reqs := s2.link.reqs ++ [⟨(flitTag f), 15, dev, f.port, ctx, localOf t, 0, 0, [], .remote dev f.port (flitTag f), none, false⟩] } }
    else
      match s2.askHop op t ctx (.remote dev f.port (flitTag f)) with
      | .ok s3 => some s3
      | _ => none

/-- Where a frame's byte stands for a context after a copy (R181). -/
def State.nowAt (s : State) (ctx a : Nat) : Nat := localOf (s.target ctx (s.dev.devNum * 2 ^ 40 + a))

/-- A PIN changed at its home (R217, R218): a copy of a COW frame comes first; of a MOVING object the request stands, of one that has gone the
header tells so, and nothing is pinned. -/
def State.pinFor (s : State) (ctx a : Nat) (up : Bool) : HopRes :=
  let s1 := s.serveCow ctx a
  let b := s1.nowAt ctx a
  match hdrState (s1.mem.word b) with
  | 2 => .stand
  | 3 => .done s1 0 b
  | _ =>
    match s1.pinHere b up with
    | .ok s2 => .done s2 0 b
    | .fault c => if c = cCow then .keep else .done s1 (if c = cPinOverflow then 4 else 5) b

/-- HOP read header. -/
def execHopReadHeader (s : State) : Host.Outcome State Fault Refusal :=
  hopStep 1 (fun s1 _ a => .done { s1 with mem := s1.mem.stampLoad a } 0 a) s
/-- HOP pin. -/
def execHopPin (s : State) : Host.Outcome State Fault Refusal := hopStep 2 (fun s1 f a => s1.pinFor f.hdr.ctx.toNat a true) s
/-- HOP unpin. -/
def execHopUnpin (s : State) : Host.Outcome State Fault Refusal := hopStep 3 (fun s1 f a => s1.pinFor f.hdr.ctx.toNat a false) s
/-- HOP wait: while the object is MOVING the request stands with the heap unit. -/
def execHopWait (s : State) : Host.Outcome State Fault Refusal :=
  hopStep 4 (fun s1 _ a => if hdrState (s1.mem.word a) = 2 then .stand else .done { s1 with mem := s1.mem.stampLoad a } 0 a) s

/-- The waits of other devices on objects that have left MOVING are answered. -/
def State.hopWake (s : State) : State :=
  let due := s.link.reqs.filter fun q => decide (q.typ = 15 ∧ hdrState (s.mem.word (s.nowAt q.ctx q.addr)) ≠ 2)
  due.foldl (fun s' q => (s'.dropReq q).heapReply q.port q.dev q.ctx q.tag 0 (s'.nowAt q.ctx q.addr)) s

/-! ### Replies (R32, R46) -/

/-- The heap access of an agent after a change of its job, the last five of its numbers. -/
def jobMap (f : HeapJob → HeapJob) (aux : List Nat) : List Nat :=
  aux.take (aux.length - 5) ++ (f (HeapJob.ofNums (aux.drop (aux.length - 5)))).nums

def State.mapJob (s : State) (who : Who) (f : HeapJob → HeapJob) : State :=
  match who with
  | .core key =>
    match tget s.regions key with
    | some r => s.putRegion key { r with work := r.work.map fun w => { w with aux := jobMap f w.aux } }
    | none => s
  | .fire tile id =>
    let t := s.tile tile
    s.putTile tile { t with ready := t.ready.map fun x => if x.id = id then { x with aux := jobMap f x.aux } else x }
  | _ => s

/-- A reply reaches whoever asked. -/
def State.deliverReply (s : State) (q : Req) (body : List Byte) : State :=
  let status := Decode.bodyNum body 1 1
  let w0 := BitVec.ofNat 64 (Decode.bodyNum body 16 23)
  let w1 := BitVec.ofNat 64 (Decode.bodyNum body 24 31)
  let s1 := (s.dropReq q).seeTime (Decode.bodyNum body 32 37)
  match q.who with
  | .parked pid => s1.keepResp pid q body none
  | .remote dev port tag => s1.putFlit port 10 dev q.ctx (greplyBody 2 status tag false 0 w0 w1 s1.mem.pts)
  | .engine key id =>
    match s1.esiteId key id with
    | some x => if status = 2 then s1.engineFault x x.e cNoCairn 0 else s1.putEngine key { x.e with signal := 2 }
    | none => s1
  | w => s1.mapJob w fun j => j.answer status w0 w1

/-- GREPLY: matched by its TAG; retry leaves the request to be reissued. -/
def execGreply (s : State) : Host.Outcome State Fault Refusal :=
  recvFlit 10 0 s fun s1 f =>
    let typ := if Decode.bodyNum f.body 0 0 = 1 then 6 else 11
    match s1.link.reqs.find? fun q => decide (q.typ = typ ∧ q.dev = f.hdr.sdev.toNat ∧ q.tag = (flitTag f)) with
    | none => some s1
    | some q =>
      if Decode.bodyNum f.body 1 1 = 1 then
        some { s1 with link := { s1.link with reqs := s1.link.reqs.map fun r => if r = q then { r with retry := true } else r } }
      else some (s1.deliverReply q f.body)

/-- WAIT_RETRY_TIMER: a request answered retry is sent again (R46). -/
def execWaitRetryTimer (tag : Nat) (s : State) : Host.Outcome State Fault Refusal :=
  match s.link.reqs.find? fun q => decide (q.tag = tag ∧ q.typ ≠ 5 ∧ q.typ ≠ 15) && q.retry with
  | none => .next s
  | some q =>
    match s.send q.dev q.addr q.typ q.ctx q.body with
    | .ok s1 =>
      let p := (s.routePort q.dev q.addr).getD q.port
      .next { s1 with link := { s1.link with reqs := s1.link.reqs.map fun r => if r = q then { r with retry := false, port := p } else r } }
    | _ => .next s

/-! ### Stream classes (R40, R41) -/

/-- CLASS bind: at most 256 entries for the classes that send to a port; further ones are counted in NORSV. -/
def execClassBind (s : State) : Host.Outcome State Fault Refusal :=
  recvFlit 9 1 s fun s1 f =>
    let p := s1.link.port f.port
    let e : ClassEntry := ⟨f.hdr.sdev.toNat, Decode.bodyNum f.body 2 3, Decode.bodyNum f.body 4 4, s1.now⟩
    let others := p.classes.filter fun c => decide (c.sdev ≠ e.sdev ∨ c.ctx ≠ e.ctx)
    if 256 ≤ (others.filter fun c => decide (c.sdev ≠ s1.ownNum)).length then
      some { s1 with link := s1.link.putPort f.port { p with norsv := min 255 (p.norsv + 1) } }
    else some { s1 with link := s1.link.putPort f.port { p with classes := others ++ [e] } }

/-- An entry freed. -/
def PortSt.freeClass (p : PortSt) (sdev ctx : Nat) : PortSt := { p with classes := p.classes.filter fun c => decide (c.sdev ≠ sdev ∨ c.ctx ≠ ctx) }

/-- CLASS release. -/
def execClassRelease (s : State) : Host.Outcome State Fault Refusal :=
  recvFlit 9 2 s fun s1 f =>
    some { s1 with link := s1.link.putPort f.port ((s1.link.port f.port).freeClass f.hdr.sdev.toNat (Decode.bodyNum f.body 2 3)) }

/-- Whether a class has a flit in a port's receive buffer, held tokens included (R43). -/
def State.classBusy (s : State) (port sdev ctx : Nat) : Bool :=
  (s.link.rx.any fun f => decide (f.port = port ∧ f.hdr.sdev.toNat = sdev ∧ f.hdr.ctx.toNat = ctx)) ||
  (s.link.held.any fun h => decide (h.flit.port = port ∧ h.flit.hdr.sdev.toNat = sdev ∧ h.flit.hdr.ctx.toNat = ctx)) ||
  ((s.link.port port).tokens.any fun t => decide (t.sdev = sdev ∧ t.tok.ctx = ctx)) ||
  decide (sdev = s.ownNum) && ((s.link.port port).buffer.any (fun f => decide (f.hdr.vch ≠ 3#2 ∧ f.hdr.ctx.toNat = ctx)) || (s.link.port port).waiting.any fun w => decide (w.ctx = ctx))

/-- Main-clock cycles of 64 µs at 2.4 GHz (R13, R41). -/
def cycles64us : Nat := 153600

/-- Whether an entry of a class has had no flit for 64 µs (R41). -/
def PortSt.idleClass (p : PortSt) (sdev ctx now : Nat) : Bool := p.classes.any fun c => decide (c.sdev = sdev ∧ c.ctx = ctx ∧ c.last + cycles64us ≤ now)

/-- CLASS_RELEASE_TIMER: a class of this device tells the peer; an entry with flits in the buffer, or in the last 64 µs, stays. -/
def execClassReleaseTimer (port sdev ctx : Nat) (s : State) : Host.Outcome State Fault Refusal :=
  let p := s.link.port port
  if !p.idleClass sdev ctx s.now || s.classBusy port sdev ctx then .next s
  else
    let s1 := { s with link := s.link.putPort port (p.freeClass sdev ctx) }
    .next (if sdev = s.ownNum then s1.putFlit port 9 0xFFF ctx (classBody 2 ctx) else s1)

/-! ### Idle links (R33) -/

/-- IDLE_NULL_TIMER. -/
def execIdleNullTimer (port : Nat) (s : State) : Host.Outcome State Fault Refusal :=
  .next (if (s.link.port port).up then s.sendNull port else s)

end Sys2Proof.Machine
end

