-- ==== Sys2Proof/Machine/NodeMem.lean ====
section
/-! DEFINITION. Node records of group 8: translation and memory (R170 to R173, R418 to R422). -/

namespace Sys2Proof.Machine

/-! ### Shared by memory and heap nodes -/

/-- An output of a node of groups 8 to 12 (R418): the left token's ITAG and LAST, MIXED, LOFF and COMPL clear. -/
def Site.memOut (x : Site) (n : NodeRec) (lanes : List Lane) : Out := { (x.out n false lanes).plain with compl := false }

/-- A completion token's status: element 0, and in pair 1 the lowest address with error (R418). -/
def complLanes (errs : List Nat) : List Lane :=
  match errs with
  | [] => padLanes16 [Lane.on 0]
  | e :: es =>
    let a := es.foldl min e
    padLanes16 ([Lane.on 1, Lane.off] ++ mkPair a true false)
where
  /-- Sixteen lanes, the rest invalid. -/
  padLanes16 (ls : List Lane) : List Lane := ls ++ List.replicate (16 - ls.length) Lane.off

/-- A completion token. -/
def Site.complOut (x : Site) (n : NodeRec) (errs : List Nat) : Out := { x.memOut n (complLanes errs) with compl := true }

/-- Both targets. -/
def toBoth (t : Token) : List (Nat × Token) := [(0, t), (1, t)]

/-- The mask and the lowest of a list of faulting elements. -/
def elemMask (es : List Nat) : BitVec 16 := BitVec.ofNat 16 ((es.map fun i => 2 ^ i).sum)
def lowest (es : List Nat) : Nat := es.foldl min (es.headD 0)

/-- A fault of a firing at elements, with an address. -/
def Site.elemFault (x : Site) (s : State) (code reason : Nat) (es : List Nat) (addr : Nat) : FaultRec :=
  x.faultRec s code reason (lowest es) (elemMask es) (BitVec.ofNat 64 addr) 0 0

/-- Whether a firing may start among its node's at most 16 outstanding ones (R418). -/
def State.roomOut (s : State) (x : Site) : Bool :=
  decide (((s.tile x.tile).ready.filter fun g => decide (g.slot = x.f.slot ∧ g.pe = x.f.pe) && g.begun).length < 16)

/-- A firing whose accesses are laid out: they take their issue numbers and wait to be performed. -/
def State.beginAccs (s : State) (x : Site) (accs : List Acc) (lanes : List Lane) : State :=
  match s.issueAccs x.key accs with
  | (s1, as) => s1.putFiring x { x.f with st := .ready, begun := true, accs := as, lanes := lanes }

/-- Element a fault of a piece belongs to. -/
def accLane (accs : List Acc) (va : Nat) : Nat := ((accs.find? fun a => decide (a.va = va) && !a.done).map fun a => a.lane).getD 0

/-- One turn of a begun firing's accesses; when all are done, what follows. -/
def State.turnFiring (s : State) (x : Site) (g : State → List Acc → FireRes) : FireRes :=
  match s.turnAccs x.rg.ctx x.who x.f.accs with
  | .more s1 as => .stay (s1.putFiring x { x.f with accs := as })
  | .all s1 as => g (s1.noteErrs x.key as) as
  | .fault s1 c va => .fault (s1.minorAt c x.who x.rg.ctx 0 va 0 x.key) (x.elemFault s1 c 0 [accLane x.f.accs va] va)

/-- The error addresses of finished accesses. -/
def accErrs (as : List Acc) : List Nat := (as.filter fun a => a.err).map fun a => a.addr

/-! ### XLAT (R171, R419) -/

/-- Translations of the valid unpoisoned pairs, in order: pair, outcome. -/
def State.xlatPairs (s : State) (o : TlbOf) (ctx : Nat) (it : Intent) : List (Nat × Nat) → List (Nat × XRes) → List (Nat × XRes) × State
  | [], acc => (acc, s)
  | (i, va) :: t, acc => match s.translate o ctx va it with
    | (r, s') => s'.xlatPairs o ctx it t (acc ++ [(i, r)])

/-- XLAT. -/
def execXlat (n : NodeRec) (s : State) : Host.Outcome State Fault Refusal :=
  fireNode s n (latency 0x200 n) 0 fun s x =>
    let a := x.opA n n.fmt
    let pairs := ((List.range 8).filter fun i => pairValid a i && !pairPsn a i && x.sel n (2 * i)).map fun i => (i, pairVal a i)
    match s.xlatPairs (.tile x.tile) x.rg.ctx (if n.mod.getLsbD 0 then .write else .read) pairs [] with
    | (rs, s1) =>
      let bad := rs.filterMap fun r => match r.2 with
        | .fault c => some (r.1, c)
        | .ok .. => none
      match bad with
      | (i, c) :: _ =>
        .fault (s1.minorAt c x.who x.rg.ctx (pairVal a i) 0 0 x.key) (x.elemFault s1 c 0 (bad.flatMap fun b => [2 * b.1, 2 * b.1 + 1]) (pairVal a i))
      | [] =>
        let val := fun i => (rs.findSome? fun r => match r.2 with
          | .ok pa e => if r.1 = i then some (mkTae pa e.size (e.w && !e.cow) false).toNat else none
          | .fault _ => none).getD 0
        .fired s1 (x.sends n (x.memOut n ((List.range 8).flatMap fun i => mkPair (val i) (pairValid a i) (pairPsn a i)))) 0

/-! ### LD and ST (R420) -/

/-- Bytes of an element, or pair. -/
def elemSize (f : Fmt) : Nat := if isPair f then 8 else 4

/-- What the address of a row says: no access, a poisoned one, a fault, or the address. -/
inductive RowAddr where
  | none | poisoned | fault (code reason addr : Nat) | at (pa : Nat)
  deriving DecidableEq, Repr

/-- The checks of a translated element as the base of an access (R173, R420): the element itself. -/
def baseCheck (a : List Lane) (store : Bool) : RowAddr :=
  if !pairValid a 0 then .none
  else if pairPsn a 0 then .poisoned
  else
    let t := BitVec.ofNat 64 (pairVal a 0)
    if !taeT t then .fault cUntranslated 0 (taePa t)
    else if store && !taeW t then .fault cWriteProtect 0 (taePa t)
    else .at (taePa t)

/-- The page of a translated element. -/
def basePage (a : List Lane) : Nat := taePage (BitVec.ofNat 64 (pairVal a 0))

/-- The checks of a 64-byte row at a translated element. -/
def rowAddr (f : Fmt) (a : List Lane) (store : Bool) : RowAddr :=
  match baseCheck a store with
  | .at pa =>
    if pa % elemSize f ≠ 0 then .fault cAddressForm 1 pa
    else if (pa + 63) / basePage a ≠ pa / basePage a then .fault cUntranslated 0 pa
    else .at pa
  | r => r

/-- Units (elements, or pairs) of a row, with the element that governs each. -/
def rowUnits (f : Fmt) : List Nat := (List.range (if isPair f then 8 else 16)).map fun i => if isPair f then 2 * i else i

/-- Result lanes of a load: those under a mask valid, with what was read. -/
def loadLanes (f : Fmt) (as : List Acc) (valid poison : Nat → Bool) : List Lane :=
  (rowUnits f).flatMap fun e =>
    let v := leNat (laneBytes as e)
    if isPair f then mkPair v (valid e) (lanePsn as e || poison e) else [mkLane v (valid e) (lanePsn as e || poison e)]

/-- LD. -/
def execLd (n : NodeRec) (s : State) : Host.Outcome State Fault Refusal :=
  fireNode s n (latency 0x201 n) 0 fun s x =>
    let a := x.opA n .i64
    let on := fun e => n.lit.getLsbD e && x.sel n e
    if x.f.begun then
      s.turnFiring x fun s1 as => .fired s1 (x.sends n (x.memOut n (loadLanes n.fmt as on fun _ => false))) 0
    else if !s.roomOut x then .stay s
    else
      match rowAddr n.fmt a false with
      | .none => .fired s (x.sends n (x.memOut n noLanes)) 0
      | .poisoned => .fired s (x.sends n (x.memOut n (loadLanes n.fmt [] on fun _ => true))) fPSN
      | .fault c r addr => .fault s (x.elemFault s c r [0, 1] addr)
      | .at pa => .stay (s.beginAccs x (((rowUnits n.fmt).filter on).flatMap fun e =>
          layPhys e (pa + 4 * e) (elemSize n.fmt) false [] false false 1) [])

/-- Bytes of a unit of a token. -/
def unitBytes (f : Fmt) (d : List Lane) (e : Nat) : List Byte :=
  leBytes 4 (laneAt d e).val.toNat ++ if isPair f then leBytes 4 (laneAt d (e + 1)).val.toNat else []

/-- Whether a unit of a token is valid, and poisoned. -/
def unitValid (f : Fmt) (d : List Lane) (e : Nat) : Bool := (laneAt d e).valid && (!isPair f || (laneAt d (e + 1)).valid)
def unitPsn (f : Fmt) (d : List Lane) (e : Nat) : Bool := (laneAt d e).poison || (isPair f && (laneAt d (e + 1)).poison)

/-- ST. -/
def execSt (n : NodeRec) (s : State) : Host.Outcome State Fault Refusal :=
  fireNode s n (latency 0x202 n) 0 fun s x =>
    let a := x.opA n .i64
    let d := x.opB n n.fmt
    if x.f.begun then
      s.turnFiring x fun s1 as => .fired s1 (x.sends n (x.complOut n (accErrs as))) 0
    else if !s.roomOut x then .stay s
    else
      match rowAddr n.fmt a true with
      | .none => .fired s (x.sends n (x.complOut n [])) 0
      | .poisoned => .fired s (x.sends n (x.complOut n [])) fPSN
      | .fault c r addr => .fault s (x.elemFault s c r [0, 1] addr)
      | .at pa =>
        let us := (rowUnits n.fmt).filter fun e => n.lit.getLsbD e && unitValid n.fmt d e && x.sel n e
        let full := decide (pa % 64 = 0) && decide (us.length = (rowUnits n.fmt).length)
        let psn := fun e => if full then us.any (unitPsn n.fmt d) else unitPsn n.fmt d e
        if us.isEmpty then .fired s (x.sends n (x.complOut n [])) 0
        else .stay (s.beginAccs x (us.flatMap fun e =>
          layPhys e (pa + 4 * e) (elemSize n.fmt) true (unitBytes n.fmt d e) (psn e) full 1) [])

/-! ### LDG and STX (R421) -/

/-- The address of an indexed element. -/
def idxAddr (f : Fmt) (pa : Nat) (b : List Lane) (e : Nat) : Int := (pa : Int) + (elemSize f : Int) * (laneAt b e).val.toInt

/-- The fault of an indexed element; none where it is in the page and aligned. -/
def idxFault (f : Fmt) (page pa : Nat) (b : List Lane) (e : Nat) : Option Nat :=
  let x := idxAddr f pa b e
  if x < 0 ∨ x / (page : Int) ≠ (pa / page : Nat) ∨ (x + elemSize f - 1) / (page : Int) ≠ (pa / page : Nat) then some cUntranslated
  else if x % (elemSize f : Int) ≠ 0 then some cAddressForm
  else none

/-- The faulting elements of an indexed firing with the code of the lowest. -/
def idxFaults (f : Fmt) (page pa : Nat) (b : List Lane) (es : List Nat) : Option (Nat × List Nat) :=
  let bad := es.filter fun e => (idxFault f page pa b e).isSome
  match bad with
  | [] => none
  | e :: _ => (idxFault f page pa b e).map fun c => (c, bad)

/-- LDG. -/
def execLdg (n : NodeRec) (s : State) : Host.Outcome State Fault Refusal :=
  fireNode s n (latency 0x203 n) 0 fun s x =>
    let a := x.opA n .i64
    let b := x.opB n n.fmt
    let on := fun e => (laneAt b e).valid && x.sel n e
    let psn := fun e => (laneAt b e).poison
    let anyPsn : BitVec 10 := if (rowUnits n.fmt).any fun e => on e && psn e then fPSN else 0
    if x.f.begun then
      s.turnFiring x fun s1 as => .fired s1 (x.sends n (x.memOut n (loadLanes n.fmt as on psn))) anyPsn
    else if !s.roomOut x then .stay s
    else
      match baseCheck a false with
      | .none => .fired s (x.sends n (x.memOut n noLanes)) 0
      | .poisoned => .fired s (x.sends n (x.memOut n (loadLanes n.fmt [] on fun _ => true))) fPSN
      | .fault c r addr => .fault s (x.elemFault s c r [0, 1] addr)
      | .at pa =>
        let es := (rowUnits n.fmt).filter fun e => on e && !psn e
        match idxFaults n.fmt (basePage a) pa b es with
        | some (c, bad) => .fault s (x.elemFault s c (if c = cAddressForm then 1 else 0) bad (idxAddr n.fmt pa b (lowest bad)).toNat)
        | none =>
          if es.isEmpty then .fired s (x.sends n (x.memOut n (loadLanes n.fmt [] on psn))) anyPsn
          else .stay (s.beginAccs x (es.flatMap fun e => layPhys e (idxAddr n.fmt pa b e).toNat (elemSize n.fmt) false [] false false) [])

/-- STX: among elements that name the same bytes only the highest-numbered writes. -/
def execStx (n : NodeRec) (s : State) : Host.Outcome State Fault Refusal :=
  fireNode s n (latency 0x204 n) 0 fun s x =>
    let a := x.opA n .i64
    let b := x.opB n n.fmt
    let d := x.opC
    let compl := fun errs => { x.complOut n errs with scaled := scaledOf (x.dataToks n true) }
    let on := fun e => (laneAt b e).valid && unitValid n.fmt d e && x.sel n e
    let anyPsn : BitVec 10 := if (rowUnits n.fmt).any fun e => on e && (laneAt b e).poison then fPSN else 0
    if x.f.begun then
      s.turnFiring x fun s1 as => .fired s1 (x.sends n (compl (accErrs as))) anyPsn
    else if !s.roomOut x then .stay s
    else
      match baseCheck a true with
      | .none => .fired s (x.sends n (compl [])) 0
      | .poisoned => .fired s (x.sends n (compl [])) fPSN
      | .fault c r addr => .fault s (x.elemFault s c r [0, 1] addr)
      | .at pa =>
        let es := (rowUnits n.fmt).filter fun e => (laneAt b e).valid && !(laneAt b e).poison && x.sel n e
        match idxFaults n.fmt (basePage a) pa b es with
        | some (c, bad) => .fault s (x.elemFault s c (if c = cAddressForm then 1 else 0) bad (idxAddr n.fmt pa b (lowest bad)).toNat)
        | none =>
          let ws := es.filter fun e => unitValid n.fmt d e && !es.any fun k => decide (e < k) && unitValid n.fmt d k &&
            decide (idxAddr n.fmt pa b k = idxAddr n.fmt pa b e)
          if ws.isEmpty then .fired s (x.sends n (compl [])) anyPsn
          else .stay (s.beginAccs x (ws.flatMap fun e => layPhys e (idxAddr n.fmt pa b e).toNat (elemSize n.fmt) true (unitBytes n.fmt d e)
            (unitPsn n.fmt d e) false) [])

/-! ### PREF (R422) -/

/-- A line brought into the LLC of its home, and with `l2` into the L2 of a partition (R160). -/
def State.prefetch (s : State) (part pa : Nat) (l2 : Bool) : State :=
  if s.isLocal pa && decide (localOf pa < Config.memBytes) then
    let line := localOf pa / 64
    let c := s.caches
    { s with caches := { c with llc := ninsert c.llc line, l2 := if l2 then tput c.l2 part (ninsert (tgetD c.l2 part []) line) else c.l2 } }
  else s

/-- PREF. -/
def execPref (n : NodeRec) (s : State) : Host.Outcome State Fault Refusal :=
  fireNode s n (latency 0x205 n) 0 fun s x =>
    let s1 := match baseCheck (x.opA n .i64) false with
      | .at pa => s.prefetch x.rg.part pa (n.mod.getLsbD 0)
      | _ => s
    .fired s1 (x.sends n (x.memOut n noLanes)) 0

end Sys2Proof.Machine
end

