-- ==== Sys2Proof/Machine/EvLink.lean ====
section
/-! DEFINITION. Ports trained and faulted, routes rehashed, pages moved, held tokens let go (R28, R34, R35, R39, R43, R50, R55 to R57). -/

namespace Sys2Proof.Machine

/-! ### Held tokens (R43) -/

/-- Held tokens in order: those whose instance stands now go to it, the others stay, with every later one of their arc. -/
def State.landList (port : Nat) : List HeldTok → List HeldTok → State → State × List HeldTok
  | [], kept, s => (s, kept)
  | t :: ts, kept, s =>
    match if kept.any fun u => decide (remoteSrc u.tok = remoteSrc t.tok) then none else s.landToken t.tok with
    | some s1 => (s1.owe port 2 t.pool).landList port ts kept
    | none => s.landList port ts (kept ++ [t])

/-- Tokens that ports hold for a context that has resumed, or for a block that has mapped. -/
def State.landHeld (s : State) : State :=
  s.link.ports.foldl (fun s' e =>
    if e.2.tokens.isEmpty then s'
    else match s'.landList e.1 e.2.tokens [] with
      | (s1, kept) => { s1 with link := s1.link.putPort e.1 { s1.link.port e.1 with tokens := kept } }) s

/-! ### A remote operation that ends in a fault (R35) -/

/-- The control core's site, whichever agent the step serves. -/
def State.csiteOf (s : State) (key : Nat) : Option CSite := { s with actor := .core key }.csite

/-- The site of a firing by its number. -/
def State.siteOf (s : State) (tile id : Nat) : Option Site :=
  match posOf ((s.tile tile).ready.map fun f => f.id) id with
  | some i => { s with actor := .fire tile i }.site
  | none => none

/-- The fault of a node that produced a token which a link lost: the node stops, where it still stands, and later tokens of the arc are not sent (R35). -/
def State.arcFault (s0 : State) (src code : Nat) (itag : BitVec 32) : State :=
  let tile := src / 8192
  let s := s0.putTile tile { s0.tile tile with chans := (s0.tile tile).chans.filter fun c => decide (c.src ≠ src) }
  let bslot := src / 1024 % 8
  let node := src / 8 % 128
  match s.regionOf tile with
  | none => s
  | some (key, rg) =>
    match tget rg.blocks bslot with
    | none => s
    | some b =>
      let pe := ((s.tile tile).findNode rg.ctx bslot node (src / 2 % 4)).getD (0, 0)
      let f0 := rg.faultRec pe.1 code 0 bslot node b.image.hdr.blkid 0 s.mem.pts
      let f := { f0 with
        x := tile % 16
        y := tile / 16 % 8
        itag := itag
        rtile := (rg.rtile tile).getD 0 }
      let s1 := s.faultToken key f
      match (s1.tile tile).inst pe.1 pe.2 with
      | some n => if n.bslot = bslot ∧ n.node = node then s1.putTile tile ((s1.tile tile).putInst pe.1 pe.2 { n with stopped := true }) else s1
      | none => s1

/-- A request ends without an answer: whoever asked faults (R35, Table 2.3). -/
def State.faultWho (s : State) (q : Req) (code : Nat) : State :=
  let addr := q.operand.toNat
  let s1 := s.dropReq q
  match q.who with
  | .core key =>
    match s1.csiteOf key with
    | some c => s1.coreFault c c.w code 0 ((c.w.accs.find? fun a => a.sent && !a.done && decide (a.tag = q.tag)).elim addr fun a => a.va)
    | none => s1
  | .fire tile id =>
    match s1.siteOf tile id with
    | some x =>
      let hit := x.f.accs.filter fun a => a.sent && !a.done && decide (a.tag = q.tag)
      s1.nodeFault x (x.elemFault s1 code 0 (hit.map fun a => a.lane) ((hit.map fun a => a.va).headD addr))
    | none => s1
  | .stream tile port =>
    match s1.ssite tile port with
    | some x => s1.streamFault x code ((x.p.accs.find? fun a => a.sent && !a.done && decide (a.tag = q.tag)).elim addr fun a => a.va)
    | none => s1
  | .engine key id =>
    match s1.esiteId key id with
    | some x => s1.engineFault x x.e code ((x.e.accs.find? fun a => a.sent && !a.done && decide (a.tag = q.tag)).elim addr fun a => a.va)
    | none => s1
  | .fetch key =>
    let fs := s1.caches.fetches.map fun f => if f.key = key ∧ f.pa ≤ addr ∧ addr < f.pa + 2048 then { f with failed := some code } else f
    { s1 with caches := { s1.caches with fetches := fs } }
  | .parked pid => s1.keepResp pid q [] (some code)
  | .arc src => s1.arcFault src code (Token.ofBytes q.body).itag
  | .scc => if q.typ = 1 then { s1 with host := { s1.host with headers := s1.host.headers ++ [(addr, [])] } } else s1
  | .remote .. | .gone _ | .txn .. => s1

/-! ### LINK_FAULT (R34, R35, R50) -/

/-- Whether a path to a device uses a port. -/
def State.pathUses (s : State) (port dev : Nat) : Bool := (tgetD s.link.routes (port / 9 * 4096 + dev) []).contains (port % 9)

/-- What a request that a link fault caught becomes: 1 reissued, 2 *outcome unknown*, 3 *remote link fault*. -/
def Req.caught (q : Req) : Nat :=
  match q.typ with
  | 1 => if q.lost.isSome then 3 else 1
  | 2 | 6 => 2
  | 11 => let op := Decode.bodyNum q.body 0 0
    if op = 4 then 1 else if op = 1 then (if q.lost.isSome then 3 else 1) else 2
  | _ => 3

/-- A request reissued over the remaining route, or its fault. -/
def State.reissue (s : State) (q : Req) : State :=
  match q.caught with
  | 1 =>
    match s.portLeft (homeDie (localOf q.addr)) q.dev with
    | some p =>
      let s1 := s.putFlit p q.typ q.dev q.ctx q.body
      { s1 with link := { s1.link with reqs := s1.link.reqs.map fun r => if r = q then { r with lost := some q.port, port := p } else r } }
    | none => s.faultWho q cRemoteFault
  | 2 => s.faultWho q cRemoteUnknown
  | _ => s.faultWho q cRemoteFault

/-- CREDs with a member behind a port fault. -/
def State.credsCaught (s : State) (port : Nat) : State :=
  s.regions.foldl (fun s' e => e.2.engines.foldl (fun s2 g =>
    let devs := (List.range (credMembers g.words)).map (credMember g.words)
    if engKind g.words = 0x23 ∧ g.faulted = false ∧ (devs.any fun d => decide (d ≠ s.dev.devNum) && s.pathUses port d) = true then
      match s2.esiteId e.1 g.id with
      | some x => s2.engineFault x x.e cRemoteFault 0
      | none => s2
    else s2) s') s

/-- A port's link fault: buffers dropped, LFAULT, report, its route held back; what it lost has its outcomes (Table 2.3). -/
def State.linkFault (s : State) (port : Nat) : State :=
  let p := s.link.port port
  let down : PortSt := { p with
    up := false
    lfault := true
    classes := []
    buffer := []
    tokens := []
    inPool := []
    waiting := []
    replayAsked := false }
  let l := { s.link.putPort port down with
    rx := s.link.rx.filter fun f => decide (f.port ≠ port)
    held := s.link.held.filter fun h => decide (h.flit.port ≠ port)
    avoid := ninsert s.link.avoid port }
  let s1 := { s with link := l }.report (.linkFault port)
  let s2 := (s1.link.reqs.filter fun q => decide (q.port = port ∧ q.typ ≠ 15)).foldl (fun s' q => s'.reissue q) s1
  let s3 := (s2.link.txns.filter fun t => t.targets.any fun g => decide (g.dev ≠ s.dev.devNum) && s.pathUses port g.dev).foldl
    (fun s' t => s'.txnAbort t.xid 4) s2
  s3.credsCaught port

/-- LINK_FAULT. -/
def execLinkFault (port : Nat) (_cause : LinkCause) (s : State) : Host.Outcome State Fault Refusal :=
  .next (if port < 36 then s.linkFault port else s)

/-- PORT_TRAINED: full, on the half that trained, or down; sequence numbers start again (log 28). -/
def execPortTrained (port : Nat) (lo hi : Bool) (s : State) : Host.Outcome State Fault Refusal :=
  if port < 36 then
    let p := s.link.port port
    .next { s with link := s.link.putPort port { p with
      up := lo || hi
      degr := lo != hi
      nextSeq := 0
      expect := 0
      acked := 0
      buffer := []
      inPool := []
      pool := poolFull
      owed := [0, 0, 0]
      replays := 0
      lastGood := s.now
      lastSent := s.now } }
  else .next s

/-- Whether a request keeps a failed port in the route entries: it went out by it, was reissued from it, or would change its port with the entry
rehashed (R39). -/
def State.holdsPort (s : State) (mdie dev port : Nat) (q : Req) : Bool :=
  let p := mdie * 9 + port
  let ps := (s.routeList q.dev q.addr).filter fun x => decide (x ≠ port)
  decide (q.typ ≠ 15) && (decide (q.port = p ∨ q.lost = some p) ||
    decide (q.dev = dev ∧ homeDie (localOf q.addr) = mdie ∧ routeOf q.dev q.addr ps ≠ some q.port))

/-- ROUTE_REHASH: once nothing is outstanding on a failed port its route entry loses it (R39). -/
def execRouteRehash (mdie dev port : Nat) (s : State) : Host.Outcome State Fault Refusal :=
  let p := mdie * 9 + port
  if !s.link.avoid.contains p || s.link.reqs.any (s.holdsPort mdie dev port) then .next s
  else
    let k := mdie * 4096 + dev
    let routes := if (tgetD s.link.routes k []).contains port then tput s.link.routes k ((tgetD s.link.routes k []).filter fun x => decide (x ≠ port)) else s.link.routes
    let left := routes.any fun e => decide (e.1 / 4096 = mdie) && e.2.contains port
    let avoid := if left then s.link.avoid else s.link.avoid.filter fun x => decide (x ≠ p)
    .next { s with link := { s.link with routes := routes, avoid := avoid } }

/-! ### Page migration (R55 to R57) -/

/-- PGMIG of an M-die with one more move or one more request met with *page frozen* (Table 2.7). -/
def State.pgmigUp (s : State) (m : Nat) (move : Bool) : State :=
  let r := tgetD s.dev.pgmig m 0
  let hi := if move then min 65535 (field r 31 16 + 1) else field r 31 16
  let lo := if move then field r 15 0 else min 65535 (field r 15 0 + 1)
  { s with dev := { s.dev with pgmig := tput s.dev.pgmig m (BitVec.ofNat 32 (hi * 65536 + lo)) } }

/-- Whether a frame holds staging of an open transaction. -/
def State.frameStaged (s : State) (a : Nat) : Bool := s.link.targets.any fun t => t.sectors.any fun g => decide (frameOf (s.stagedAt g) = frameOf a)

/-- A leaf's frame address replaced. -/
def leafAddr (e : Word) (g : Nat) : Word := BitVec.ofNat 64 (e.toNat % 8192 + g)

/-- A context's leaf of a moved frame follows it; none where no frame is left for a split leaf's table. -/
def State.remap (s : State) (ctx old new : Nat) : Option State :=
  match findVa s.mem old 4 1 (s.root ctx) 0 with
  | none => some s
  | some va =>
    (State.splitLeaf ctx va 3 s).map fun s1 =>
      match s1.leafAt ctx va with
      | some (_, entry) => ({ s1 with mem := s1.mem.putWord entry (leafAddr (s1.mem.word entry) new) }).invalidate ctx
      | none => s1

/-- A page of another device that this one asked for: it comes to a frame here with what it held, counted in MOVES, or its home has frozen it, which
this device counts in FROZEN; a free choice (R55, R56, log 31). -/
def State.pageComes (s : State) (a : Nat) : State :=
  if s.choice 2 = 0 then s.drawn.pgmigUp (homeDie a) false
  else
    let d := s.draws + 1
    { s with draws := d + 8192, mem := { (fillFree 8192 s.mem a d) with frames := tdel s.mem.frames (frameOf a) } }.pgmigUp (homeDie a) true

/-- PAGE_MOVE: a frame of main memory moves to a device that writes it, at an address there that is a free value; a fourth move in a phase
freezes it; a page in staging waits, and one with an open allocation buffer. Named with this device's own number it is a page that this one asked for. -/
def execPageMove (frame dev : Nat) (s : State) : Host.Outcome State Fault Refusal :=
  let a := frame * 65536
  let f := s.mem.frame a
  if Config.memBytes ≤ a ∨ s.dev.devSet = false ∨ 0xFFF ≤ dev then .next s
  else if dev = s.dev.devNum then .next (s.pageComes a)
  else if f.fwd.isSome = true ∨ s.frameStaged a = true ∨ s.openBuffer a = true ∨ f.frozen = true then .next s
  else if 3 ≤ f.moves then .next { s with mem := s.mem.putFrame a { f with frozen := true } }
  else
    let g := dev * 2 ^ 40 + Config.frame s.draws % (Config.memBytes / 65536) * 65536
    let s1 := { s with draws := s.draws + 1, mem := s.mem.putFrame a { f with fwd := some g, moves := f.moves + 1 } }
    match s.host.ctxs.foldl (fun o e => o.bind fun s' => s'.remap e.1 (s.dev.devNum * 2 ^ 40 + a) g) (some s1) with
    | some s2 => .next (s2.pgmigUp (homeDie a) true)
    | none => .next s

end Sys2Proof.Machine
end

