-- ==== Sys2Proof/Machine/EvTxn.lean ====
section
/-! DEFINITION. Received transaction flits and the transaction timers (R47 to R54, R348 to R350). -/

namespace Sys2Proof.Machine

/-- XID and coordinator of an XSTAGE body (R32). -/
def stageXid (f : Flit) : Nat := Decode.bodyNum f.body 72 75
def stageCdev (f : Flit) : Nat := Decode.bodyNum f.body 76 77 % 4096

/-- XID, coordinator and COUNT of an XCTL body (Table 2.11). -/
def xctlXid (f : Flit) : Nat := Decode.bodyNum f.body 4 7
def xctlCdev (f : Flit) : Nat := Decode.bodyNum f.body 2 3
def xctlCount (f : Flit) : Nat := Decode.bodyNum f.body 8 15

/-- An answer about a transaction on the port a flit came by. -/
def State.answerXctl (s : State) (f : Flit) (op reason cdev xid : Nat) : State :=
  s.putFlit f.port 8 f.hdr.sdev.toNat 0 (xctlBody op reason cdev xid 0)

/-! ### At a target -/

/-- A target whose count has arrived is ready and says so (Table 2.5). -/
def State.readyCheck (s : State) (f : Flit) (cdev xid : Nat) : State :=
  match s.staging cdev xid with
  | some t =>
    if t.ready then s
    else if t.need = some t.sectors.length then (s.mapTgt cdev xid fun u => { u with ready := true }).answerXctl f 2 0 cdev xid
    else s
  | none => s

/-- XSTAGE: a staging line, or ABORT with reason FULL (R47). -/
def execXstage (s : State) : Host.Outcome State Fault Refusal :=
  recvFlit 7 0 s fun s1 f =>
    let g : Staged := ⟨f.hdr.ctx.toNat, localOf (flitAddr f), f.body.take 64, BitVec.ofNat 64 (Decode.bodyNum f.body 64 71),
      (Decode.bodyNum f.body 78 83).testBit 47⟩
    match s1.stage (stageCdev f) (stageXid f) g with
    | some s2 => some (s2.readyCheck f (stageCdev f) (stageXid f))
    | none => some ((s1.dropStaging (stageCdev f) (stageXid f)).answerXctl f 4 3 (stageCdev f) (stageXid f))

/-- PREPARE: READY once the count of staged sectors has arrived; without it the staging waits and times out. -/
def execPrepareTxn (s : State) : Host.Outcome State Fault Refusal :=
  recvFlit 8 1 s fun s1 f =>
    let s2 := if (s1.staging (xctlCdev f) (xctlXid f)).isSome then s1.mapTgt (xctlCdev f) (xctlXid f) fun t => { t with need := some (xctlCount f), seen := s1.now }
      else { s1 with link := { s1.link with targets := s1.link.targets ++ [(⟨xctlCdev f, xctlXid f, [], false, some (xctlCount f), s1.now⟩ : TgtTxn)] } }
    some (s2.readyCheck f (xctlCdev f) (xctlXid f))

/-- COMMIT: the staging goes live once, DONE is answered each time (R49, R52), but not while writes to pages that have moved are on their way:
the coordinator sends COMMIT again. -/
def execCommitTxn (s : State) : Host.Outcome State Fault Refusal :=
  recvFlit 8 3 s fun s1 f =>
    let s2 := s1.applyTxn (xctlCdev f) (xctlXid f)
    some (if (s2.staging (xctlCdev f) (xctlXid f)).isSome || s2.applying (xctlCdev f) (xctlXid f) then s2
      else s2.answerXctl f 5 0 (xctlCdev f) (xctlXid f))

/-- ABORT: a target discards its staging and answers; the coordinator of a transaction that a target refuses aborts it (R47, R50). -/
def execAbortTxn (s : State) : Host.Outcome State Fault Refusal :=
  recvFlit 8 4 s fun s1 f =>
    if xctlCdev f = s1.dev.devNum then some (s1.txnAbort (xctlXid f) (Decode.bodyNum f.body 1 1))
    else some ((s1.dropStaging (xctlCdev f) (xctlXid f)).answerXctl f 5 0 (xctlCdev f) (xctlXid f))

/-- KEEP: the staging of an open transaction is kept (R350). -/
def execKeepTxn (s : State) : Host.Outcome State Fault Refusal :=
  recvFlit 8 7 s fun s1 f => some (s1.mapTgt (xctlCdev f) (xctlXid f) fun t => { t with seen := s1.now })

/-- Main-clock cycles of 100 µs at 2.4 GHz (R13). -/
def cycles100us : Nat := 240000

/-- STAGING_TIMEOUT: staging that has not answered READY goes after 100 µs without a flit, and the coordinator is told (R50). -/
def execStagingTimeout (cdev xid : Nat) (s : State) : Host.Outcome State Fault Refusal :=
  match s.staging cdev xid with
  | none => .next s
  | some t =>
    if t.ready ∨ s.now < t.seen + cycles100us ∨ cdev = s.dev.devNum then .next s
    else .next ((s.dropStaging cdev xid).sendAny cdev 8 0 (xctlBody 4 6 cdev xid 0))

/-- QUERY_TIMER (R51). -/
def execQueryTimer (cdev xid : Nat) (s : State) : Host.Outcome State Fault Refusal :=
  match s.staging cdev xid with
  | none => .next s
  | some t => if t.ready ∧ cdev ≠ s.dev.devNum then .next (s.sendAny cdev 8 0 (xctlBody 6 0 cdev xid 0)) else .next s

/-! ### At the coordinator -/

/-- READY: with it from every target the record COMMITTED is written and COMMIT sent. -/
def execReadyTxn (s : State) : Host.Outcome State Fault Refusal :=
  recvFlit 8 2 s fun s1 f =>
    some ((s1.mapTxn (xctlXid f) fun t => t.mapTarget f.hdr.sdev.toNat fun g => { g with ready := true }).commitPoint (xctlXid f))

/-- A record ABORTED is freed once every target has answered (R53). -/
def State.abortFinish (s : State) (xid : Nat) : State :=
  match s.txn? xid with
  | some t =>
    if t.phase = .aborted ∧ (t.targets.all fun g => g.done) = true then
      { s with link := { s.link with txns := s.link.txns.filter fun u => decide (u.xid ≠ xid) } }
    else s
  | none => s

/-- DONE: with it from every target the outcome cairn advances by 1 and the record is freed. -/
def execDoneTxn (s : State) : Host.Outcome State Fault Refusal :=
  recvFlit 8 5 s fun s1 f =>
    some (((s1.mapTxn (xctlXid f) fun t => t.mapTarget f.hdr.sdev.toNat fun g => { g with done := true }).txnFinish (xctlXid f)).abortFinish (xctlXid f))

/-- QUERY: COMMIT or ABORT from the record; without one ABORT, and a transaction still open is aborted with it; a record not yet resumed
after a reset answers nothing (R51, R53). -/
def execQueryTxn (s : State) : Host.Outcome State Fault Refusal :=
  recvFlit 8 6 s fun s1 f =>
    let xid := xctlXid f
    match s1.txn? xid with
    | none => some (s1.drawn.answerXctl f 4 (1 + s1.choice 6) (xctlCdev f) xid)
    | some t =>
      if t.survived && !t.resumed then some s1
      else
        match t.phase with
        | .committed => some (s1.answerXctl f 3 0 (xctlCdev f) xid)
        | .aborted => some (s1.answerXctl f 4 t.reason (xctlCdev f) xid)
        | _ => some ((s1.txnAbort xid 4).answerXctl f 4 4 (xctlCdev f) xid)

/-- KEEP_ALIVE_TIMER: KEEP to each target of an open transaction (R350). -/
def execKeepAliveTimer (xid : Nat) (s : State) : Host.Outcome State Fault Refusal :=
  match s.txn? xid with
  | none => .next s
  | some t =>
    if t.phase = .opened ∨ t.phase = .preparing then
      .next ((t.targets.filter fun g => decide (g.dev ≠ s.dev.devNum)).foldl (fun s' g => s'.sendXctl g.dev 7 0 xid 0) s)
    else .next s

/-- *Transaction pending* told once. -/
def State.pending (s : State) (xid : Nat) : State :=
  if s.dev.reports.contains (.txnPending xid) then s else s.report (.txnPending xid)

/-- COMMIT_RESEND: COMMIT again to every target that has not answered; one without a route is reported (R52). -/
def execCommitResend (xid : Nat) (s : State) : Host.Outcome State Fault Refusal :=
  match s.txn? xid with
  | none => .next s
  | some t =>
    if t.phase = .committed ∧ (t.survived = false ∨ t.resumed = true) then
      let s1 := (s.sendCommits xid).txnFinish xid
      .next (if t.targets.any fun g => !g.done && decide (g.dev ≠ s.dev.devNum) && (s.anyPort g.dev).isNone then s1.pending xid else s1)
    else .next s

/-- RECORD_RESUME: after a warm reset, with the number and the routes in place, each record is resumed by its outcome; one that names
another number stays unresolved and is reported (R53). -/
def execRecordResume (s : State) : Host.Outcome State Fault Refusal :=
  if !s.dev.devSet || !s.link.topoDone then .next s
  else
    .next ((s.link.txns.filter fun t => t.survived && !t.resumed).foldl (fun s' t =>
      if t.num ≠ s.dev.devNum then (s'.mapTxn t.xid fun u => { u with unresolved := true }).pending t.xid
      else
        let s1 := s'.mapTxn t.xid fun u => { u with resumed := true, unresolved := false, since := s.now }
        if t.phase = .committed then (s1.sendCommits t.xid).txnFinish t.xid
        else (t.targets.filter fun g => !g.done).foldl (fun s2 g => s2.sendXctl g.dev 4 t.reason t.xid 0) s1) s)

/-- ABORTED_RECORD_TIMEOUT: 100 µs after its ABORTs a resumed record ABORTED is freed (R53). -/
def execAbortedRecordTimeout (xid : Nat) (s : State) : Host.Outcome State Fault Refusal :=
  .next { s with link := { s.link with txns := s.link.txns.filter fun t =>
    !(decide (t.xid = xid) && t.survived && t.resumed && decide (t.phase = .aborted ∧ t.since + cycles100us ≤ s.now)) } }

end Sys2Proof.Machine
end

