-- ==== Sys2Proof/Machine/EvHost.lean ====
section
/-! DEFINITION. Launch queues and the system command queue (R60 to R77, R81, R86, R304). -/

namespace Sys2Proof.Machine

/-! ### Queues (R66, R67, R71) -/

/-- The value of a queue's doorbell. -/
def State.bell (s : State) (q : LQueue) : Nat := (s.cairn.val (field q.ctl 19 0)).toNat

/-- The doorbell's value beyond which the next descriptor is posted. -/
def LQueue.next (q : LQueue) : Nat := q.origin.getD 0 + q.head

/-- Whether a queue is overrun. -/
def State.overrun (s : State) (q : LQueue) : Bool := decide (q.next + lqDepth q.ctl < s.bell q)

/-- OVF set and EN cleared. -/
def LQueue.stop (q : LQueue) : LQueue := { q with ctl := (q.ctl ||| 0x4000000000000000#64) &&& 0x7FFFFFFFFFFFFFFF#64 }

/-- BAD set. -/
def LQueue.bad (q : LQueue) : LQueue := { q with ctl := q.ctl ||| 0x2000000000000000#64 }

def State.putQueue (s : State) (n : Nat) (q : LQueue) : State := { s with host := { s.host with lq := tput s.host.lq n q } }

/-- BAD of the queue that a launch came from (R81). -/
def State.badSrc (s : State) (l : Launch) : State :=
  match l.src with
  | some (n, _) => s.putQueue n (s.host.queue n).bad
  | none => s

/-- LAUNCH_DESCRIPTOR_TAKE: the next descriptor of a queue, taken by a die, unless its held set is full; one that a CANCEL took out is passed over
(R67, R68, R73, R81, R86). -/
def execLaunchDescriptorTake (n die : Nat) (s : State) : Host.Outcome State Fault Refusal :=
  let q := s.host.queue n
  if 64 ≤ n ∨ !bitAt q.ctl 63 then .next s
  else if s.overrun q then .next (s.putQueue n q.stop)
  else if s.bell q ≤ q.next then .next s
  else if q.marks.contains q.head then .next (s.putQueue n { q with head := q.head + 1 })
  else
    let d := s.descriptor q q.head
    let ctx := field q.ctl 31 20
    let taken := { q with head := q.head + 1 }
    if !launchOk d || (tget s.host.ctxs ctx).isNone then .next ((s.putQueue n taken.bad).advance (field d.w2 19 0) true)
    else
      let l := launchOf d ctx (field q.ctl 56 54) die (some (n, q.head))
      let late := decide (l.phase < tgetD s.host.phases (s.jobOf ctx) 0)
      if late then .next ((s.putQueue n taken.bad).admitLaunch l)
      else
        match s.launchDie l die with
        | none => .next s
        | some k => .next (((s.putQueue n taken).admitLaunch { l with die := k }).drawn)

/-- HELD_LAUNCH_RELEASE: a held launch becomes runnable, or is discarded where its phase has gone by (R68, R81). -/
def execHeldLaunchRelease (lid : Nat) (s : State) : Host.Outcome State Fault Refusal :=
  match tget s.host.launches lid with
  | none => .next s
  | some l =>
    if l.st ≠ .held ∨ l.cancelled = true then .next s
    else if l.phase < tgetD s.host.phases (s.jobOf l.ctx) 0 then .next ((s.badSrc l).endLaunch lid true)
    else if s.mustHold l then .next s
    else .next (s.putLaunch lid { l with st := .runnable })

/-! ### The command at hand (R71, R72) -/

/-- A command ends: RESULT and STATUS are written, then 1 is added to DONE. -/
def State.finishCmd (s : State) (c : SysCmd) (a code : Nat) (result : Word) : State :=
  let m := if a + 64 ≤ Config.memBytes then ((s.mem.putWord (a + 48) result).putWord (a + 56) (BitVec.ofNat 64 code)).stampStore a else s.mem
  { s with mem := m, host := { s.host with cmd := none, headers := [] } }.cairnAddScc (field c.w1 19 0) 1

/-- SYSTEM_COMMAND_TAKE: the next posted command, one at a time; an unlisted KIND or a reserved bit ends it with code 1. -/
def execSystemCommandTake (s : State) : Host.Outcome State Fault Refusal :=
  let q := s.host.scq
  if s.host.cmd.isSome ∨ !bitAt q.ctl 63 then .next s
  else if s.overrun q then .next { s with host := { s.host with scq := q.stop } }
  else if s.bell q ≤ q.next then .next s
  else
    let c := s.descriptor q q.head
    let a := q.base + 64 * (q.head % lqDepth q.ctl)
    let s1 := { s with host := { s.host with scq := { q with head := q.head + 1 }, cmd := some (c, a) } }
    match Decode.command c with
    | .ok _ => .next (if Decode.commandOk c then s1 else s1.finishCmd c a 1 0)
    | .error _ => .next (s1.finishCmd c a 1 0)

/-- The command at hand, where it is of a KIND; with a reserved bit set it ends with code 1. -/
def cmdStep (kind : Nat) (s : State) (g : State → SysCmd → Nat → State) : Host.Outcome State Fault Refusal :=
  match s.host.cmd with
  | none => .next s
  | some (c, a) =>
    if field c.w0 7 0 ≠ kind then .next s
    else if !Decode.commandOk c then .next (s.finishCmd c a 1 0)
    else .next (g s c a)

/-- CTX of a command. -/
def cmdCtx (c : SysCmd) : Nat := field c.w0 27 16

/-- A command on a context that must exist (code 2). -/
def ctxStep (kind : Nat) (s : State) (g : State → SysCmd → Nat → State) : Host.Outcome State Fault Refusal :=
  cmdStep kind s fun s c a => if (tget s.host.ctxs (cmdCtx c)).isNone then s.finishCmd c a 2 0 else g s c a

/-! ### Contexts (R76, R179) -/

/-- A new context. -/
def newCtx (c : SysCmd) : Ctx where
  job := field c.w0 47 32
  root := field c.w2 39 13 * 8192
  feats := field c.w3 18 0
  imageFeats := 0
  fwb := if field c.w4 15 0 = 0 then 50 else field c.w4 15 0
  saveBase := field c.w5 39 16 * 65536
  saveUnits := field c.w4 47 16
  l2Private := bitAt c.w0 48
  excluded := []
  redirect := []
  arms := []
  counts := []
  snaps := []
  images := []

/-- A further context of a job starts with the phases of the job that have completed (R82). -/
def Ctx.inherit (x : Ctx) (others : List Ctx) : Ctx := x.setCount 3 0 ((others.map fun c => c.countOf 3 0).foldl max 0)

/-- Whether a save area keeps R179. -/
def saveOk (x : Ctx) : Bool := decide (16 ≤ x.saveUnits) && decide (x.saveBase + x.saveUnits * 65536 ≤ Config.memBytes)

/-- CTXNEW: the log control of its save area is zero (Table 7.11); the first context of a job starts the job's phases (R81). -/
def execCtxnew (s : State) : Host.Outcome State Fault Refusal :=
  cmdStep 0x10 s fun s c a =>
    let x := newCtx c
    if cmdCtx c = 0 then s.finishCmd c a 1 0
    else if (tget s.host.ctxs (cmdCtx c)).isSome then s.finishCmd c a 2 0
    else if !featsIn x.feats s.featenN then s.finishCmd c a 4 0
    else if !saveOk x then s.finishCmd c a 6 0
    else
      let b := x.saveBase + 0x10000
      let others := s.jobCtxs x.job
      let m := (List.range 8).foldl (fun m i => m.putWord (b + 8 * i) 0) s.mem
      let phases := if others.isEmpty then tdel s.host.phases x.job else s.host.phases
      ({ s with mem := m, host := { s.host with phases := phases } }.putCtx (cmdCtx c) (x.inherit (others.filterMap fun k => tget s.host.ctxs k))).finishCmd c a 0 0

/-- Whether a context has a launch placed, held or queued. -/
def State.ctxBusy (s : State) (ctx : Nat) : Bool :=
  (s.host.launches.any fun e => decide (e.2.ctx = ctx ∧ e.2.st ≠ .ended)) ||
  s.host.lq.any fun e => decide (field e.2.ctl 31 20 = ctx) && decide (s.postedTo e.2 ≠ 0)

/-- CTXFREE. -/
def execCtxfree (s : State) : Host.Outcome State Fault Refusal :=
  ctxStep 0x11 s fun s c a =>
    let k := cmdCtx c
    if s.ctxBusy k then s.finishCmd c a 3 0
    else
      let s1 := s.invalidate k
      let cfg := s1.caches.cfg.map fun e => (e.1, e.2.filter fun i => decide (i.ctx ≠ k) || s.imageHeld e.1 i)
      let ports := s1.link.ports.map fun e => (e.1, { e.2 with tokens := e.2.tokens.filter fun t => decide (t.tok.ctx ≠ k) })
      { s1 with
        host := { s1.host with ctxs := tdel s1.host.ctxs k }
        caches := { s1.caches with cfg := cfg }
        link := { s1.link with ports := ports } }.finishCmd c a 0 0

/-! ### CANCEL (R73, R83, R85) -/

/-- The launch taken from a queue's descriptor that has not ended: where the queue was enabled anew since, the oldest of that number (log 87). -/
def State.launchBy (s : State) (n m ctx : Nat) : Option Nat :=
  (s.host.launches.find? fun e => decide (e.2.src = some (n, m) ∧ e.2.ctx = ctx ∧ e.2.st ≠ .ended) && !e.2.cancelled).map fun e => e.1

/-- CANCEL. -/
def execCancelCommand (s : State) : Host.Outcome State Fault Refusal :=
  ctxStep 0x12 s fun s c a =>
    let ctx := cmdCtx c
    let level := field c.w2 1 0
    let num := c.w3.toNat
    if level = 0 then
      let q := s.host.queue num
      let m := c.w4.toNat
      match s.launchBy num m ctx with
      | some l => (s.cancelLaunch l).finishCmd c a 0 0
      | none =>
        if field q.ctl 31 20 = ctx ∧ q.head ≤ m ∧ m < q.head + s.postedTo q ∧ q.marks.contains m = false then (s.cancelPosted num q m).finishCmd c a 0 0
        else s.finishCmd c a 5 0
    else if s.anyMember ctx level (if level = 3 then 0 else num) then (s.cancelLevel ctx level (if level = 3 then 0 else num)).finishCmd c a 0 0
    else s.finishCmd c a 5 0

/-! ### Snapshots (R74, R182) -/

/-- SNAP. -/
def execSnapCommand (s : State) : Host.Outcome State Fault Refusal :=
  ctxStep 0x13 s fun s c a =>
    if c.w2.toNat % 65536 ≠ 0 ∨ c.w3.toNat % 65536 ≠ 0 ∨ 2 ^ 56 < c.w2.toNat + c.w3.toNat then s.finishCmd c a 6 0
    else
      match s.snap (cmdCtx c) c.w2.toNat c.w3.toNat (field c.w4 19 0) with
      | (v, s1) => s1.finishCmd c a 0 v

/-- SNAPDROP. -/
def execSnapdropCommand (s : State) : Host.Outcome State Fault Refusal :=
  ctxStep 0x14 s fun s c a =>
    if s.hasSnap (cmdCtx c) (field c.w4 19 0) c.w2 then (s.snapDrop (cmdCtx c) (field c.w4 19 0) c.w2).finishCmd c a 0 0
    else s.finishCmd c a 6 0

/-! ### REPLACE (R75, R304) -/

/-- Where the mapped blocks of a range lie. -/
def State.rangeBlocks (s : State) (ctx new len : Nat) : List Nat :=
  (List.range (len / 2048)).filterMap fun i =>
    match (walkFull s.mem ctx (new + 2048 * i) 4 1 (s.root ctx) []).1 with
    | .done (.leaf pa _ _ _ _) level _ => some (s.target ctx (pa + (new + 2048 * i) % leafSize level))
    | _ => none

/-- The header of a block: read here, or as its remote home has answered; none where it could not be read. -/
def State.headerAt (s : State) (t : Nat) : Option (List Byte) :=
  if s.isLocal t then some (s.mem.read (localOf t) 12) else (s.host.headers.find? fun h => decide (h.1 = t)).map fun h => h.2

/-- Whether a block at an address needs a feature that FEATEN lacks. -/
def State.blockLacks (s : State) (t : Nat) : Bool :=
  match Decode.header (recAt ((s.headerAt t).getD []) 0) with
  | .ok h => !featsIn h.freq s.featenN
  | .error _ => false

/-- Asks the remote homes of blocks for their headers, once each. -/
def State.askHeaders (s : State) (ctx : Nat) (ts : List Nat) : State :=
  ts.foldl (fun s' t =>
    if s'.link.reqs.any fun q => decide (q.who = .scc ∧ q.typ = 1 ∧ q.operand.toNat = t) then s'
    else match s'.request 1 (devOf t) t ctx (2 ^ 64 - 1) (BitVec.ofNat 64 t) (memBody (List.replicate 64 0) (2 ^ 64 - 1) s'.mem.pts t false) .scc with
      | .ok s2 => s2
      | .wait => s'
      | .noRoute => { s' with host := { s'.host with headers := s'.host.headers ++ [(t, [])] } }) s

/-- A REPLACE command ends once every live region of its context has switched. -/
def State.replaceEnd (s : State) : State :=
  match s.host.replacing, s.host.cmd with
  | some (ctx, _), some (c, a) =>
    if s.regions.any fun e => decide (e.2.ctx = ctx) && e.2.replaceMark then s
    else { s with host := { s.host with replacing := none } }.finishCmd c a 0 0
  | _, _ => s

/-- REPLACE: once the headers of the new range are read, installed, and every region marked; it ends with REGION_REPLACE_SWITCH. -/
def execReplaceCommand (s : State) : Host.Outcome State Fault Refusal :=
  ctxStep 0x15 s fun s c a =>
    let ctx := cmdCtx c
    if s.host.replacing.isSome then s.replaceEnd
    else if c.w2.toNat % 2048 ≠ 0 ∨ c.w3.toNat % 2048 ≠ 0 ∨ c.w4.toNat % 2048 ≠ 0 then s.finishCmd c a 6 0
    else
      let ts := s.rangeBlocks ctx c.w3.toNat c.w4.toNat
      let left := ts.filter fun t => (s.headerAt t).isNone
      if !left.isEmpty then s.askHeaders ctx left
      else if ts.any s.blockLacks then s.finishCmd c a 4 0
      else match redirectAfter (s.redirectOf ctx) c.w2.toNat c.w3.toNat c.w4.toNat with
        | none => s.finishCmd c a 7 0
        | some t =>
          let s1 := s.replaceCode ctx t
          { s1 with host := { s1.host with replacing := some (ctx, a) } }.replaceEnd

/-- REGION_REPLACE_SWITCH: at a boundary between control blocks a marked region fetches by the new table. -/
def execRegionReplaceSwitch (key : Nat) (s : State) : Host.Outcome State Fault Refusal :=
  match tget s.regions key with
  | none => .next s
  | some r =>
    if !r.replaceMark || r.work.isSome then .next s
    else .next (s.putRegion key { r with replaceMark := false, redirect := s.redirectOf r.ctx }).replaceEnd

/-! ### CFGINV, TOPO, CINIT (R61, R65, R77) -/

/-- CFGINV: the context's images that are not mapped go from every configuration cache (R93), and those being fetched are fetched again. -/
def execCfginv (s : State) : Host.Outcome State Fault Refusal :=
  ctxStep 0x16 s fun s c a =>
    let k := cmdCtx c
    let cfg := s.caches.cfg.map fun e => (e.1, e.2.filter fun i => decide (i.ctx ≠ k) || s.imageHeld e.1 i)
    let fetches := s.caches.fetches.map fun f => if f.ctx = k then { f with got := [] } else f
    let stale := fun (q : Req) => decide (q.ctx = k) && match q.who with
      | .fetch _ => true
      | _ => false
    { s with
      caches := { s.caches with cfg := cfg, fetches := fetches }
      link := { s.link with reqs := s.link.reqs.filter fun q => !stale q } }.finishCmd c a 0 0

/-- Whether a topology record keeps Table 3.2. -/
def topoOk (w : Word) : Bool :=
  decide (field w 63 35 = 0) && decide (field w 15 14 = 0) && decide (field w 18 16 ≤ 4) &&
  (List.range (field w 18 16)).all fun i => decide (field w (22 + 4 * i) (19 + 4 * i) ≤ 8)

/-- A topology record applied: the entry's ports lead again. -/
def Link.topo (l : Link) (w : Word) : Link :=
  let m := field w 13 12
  let ps := (List.range (field w 18 16)).map fun i => field w (22 + 4 * i) (19 + 4 * i)
  { l with
    routes := tput l.routes (m * 4096 + field w 11 0) ps
    avoid := l.avoid.filter fun p => !(ps.map fun x => m * 9 + x).contains p }

/-- TOPO: every record is checked before any is applied. -/
def execTopo (s : State) : Host.Outcome State Fault Refusal :=
  cmdStep 0x17 s fun s c a =>
    let b := c.w2.toNat
    let n := field c.w3 11 0
    if n = 0 then { s with link := { s.link with topoDone := true } }.finishCmd c a 0 0
    else if b % 8 ≠ 0 ∨ Config.memBytes < b + 8 * n then s.finishCmd c a 6 0
    else
      let ws := (List.range n).map fun i => s.mem.word (b + 8 * i)
      if ws.all topoOk then { s with link := { ws.foldl Link.topo s.link with topoDone := true } }.finishCmd c a 0 0
      else s.finishCmd c a 1 0

/-- CINIT: host cairns at 0 with the flag clear; waits stay pending. -/
def execCinit (s : State) : Host.Outcome State Fault Refusal :=
  cmdStep 0x18 s fun s c a =>
    let k := field c.w2 19 0
    let n := field c.w3 19 0
    if n = 0 ∨ 0x80000 < k + n then s.finishCmd c a 6 0
    else
      let out := fun (x : Nat) => decide (x < k ∨ k + n ≤ x)
      { s with cairn := { s.cairn with
        vals := s.cairn.vals.filter fun e => out e.1
        flags := s.cairn.flags.filter out } }.finishCmd c a 0 0

end Sys2Proof.Machine
end

