-- ==== Sys2Proof/Machine/EvDispatch.lean ====
section
/-! DEFINITION. The dispatch units: choice, placement, pre-emption, exchange, resume, arbiter windows (R78, R86 to R98, R102 to R109, R161, R162). -/

namespace Sys2Proof.Machine

/-! ### Placing (R68, R91) -/

/-- A region as it starts (R68). -/
def newRegion (s : State) (lid : Nat) (l : Launch) (p : Spot) : Region where
  ctx := l.ctx
  part := p.part
  core := p.core
  x0 := p.x
  y0 := p.y
  w := l.w
  hgt := l.hgt
  launch := lid
  s := [0, l.arg0, l.arg1] ++ List.replicate 29 0
  h := List.replicate 16 0
  exsum := 0
  cycle := 0
  fwb := BitVec.ofNat 64 (((tget s.host.ctxs l.ctx).map fun c => c.fwb).getD 50)
  fqlost := 0
  trapbase := 0
  trapblk := 0
  trapcause := 0
  blocks := []
  fetched := []
  nextFetch := some l.entry
  nextOrder := 0
  work := none
  queue := []
  seq := 0
  trapRec := none
  faultTokens := []
  run := .running
  haltAfter := false
  haltDue := false
  idle := none
  trapped := false
  pend := []
  engines := []
  issued := 0
  errs := []
  txn := none
  tlb := []
  barrier := []
  bufs := []
  minor := false
  waiting := false
  cancelling := false
  ccErr := none
  replaceMark := false
  redirect := s.redirectOf l.ctx
  placedAt := s.now
  replicas := []

/-- A tile emptied: what belongs to the tile itself stays. -/
def Tile.emptied (t : Tile) : Tile := { Tile.blank with spareUsed := t.spareUsed, fenced := t.fenced, nextId := t.nextId }

/-- Empties tiles. -/
def State.emptyTiles (s : State) (ks : List Nat) : State :=
  { s with tiles := s.tiles.map fun e => if ks.contains e.1 then (e.1, e.2.emptied) else e }

/-- A launch placed. -/
def State.place (s : State) (lid : Nat) (l : Launch) (p : Spot) : State :=
  let key := coreKey p.part p.core
  let r := newRegion s lid l p
  ((s.emptyTiles r.tiles).putRegion key r).putLaunch lid { l with st := .placed key, die := dieOf p.part }

/-- A region is no more: its tiles, control core, splitters and mergers are free. -/
def State.freeRegion (s : State) (key : Nat) : State :=
  match tget s.regions key with
  | none => s
  | some r =>
    let s1 := s.emptyTiles r.tiles
    { s1 with
      regions := tdel s1.regions key
      host := { s1.host with
        splits := s1.host.splits.filter fun x => decide (x.key ≠ key)
        stages := s1.host.stages.filter fun x => decide (x.1 / 8 ≠ key) } }.replaceEnd

/-! ### The choice (R88, R89) -/

def State.putRounds (s : State) (die p : Nat) (rs : List Round) : State :=
  let d := tgetD s.host.dies die Die.blank
  { s with host := { s.host with dies := tput s.host.dies die { d with rounds := tput d.rounds p rs } } }

/-- One turn of the round list of a priority that has a launch it can place (R88); a job with none that is runnable leaves the list, and its credit
with it. -/
def State.serveRound (s : State) (die p : Nat) : State :=
  match s.roundList die p with
  | [] => s
  | j0 :: rest =>
    let j := if j0.started then j0 else { j0 with deficit := j0.deficit + quantum, started := true }
    let mine := (s.runnable die p).filter fun e => decide (s.jobOf e.2.ctx = j.job)
    let pick := mine.findSome? fun e => (s.placeable [] e.2 die).map fun q => (e, q)
    match if 0 < j.deficit then pick else none with
    | some ((lid, l), q) => (s.putRounds die p (j :: rest)).place lid l q
    | none => s.putRounds die p (if mine.isEmpty then rest else rest ++ [{ j with started := false }])

/-- DISPATCH_CHOICE: the highest priority that can place a launch now takes a turn of its round list; one that can by pre-emption alone
asks for it, or waits for the regions on their way out (R88, R89). -/
def execDispatchChoice (die : Nat) (s : State) : Host.Outcome State Fault Refusal :=
  if 4 ≤ die then .next s
  else
    match s.dieChoice die with
    | some (p, none) => .next (s.serveRound die p)
    | some (_, some ks) => .next (ks.foldl (fun s' k => s'.post (.event (.preempt k))) s)
    | none => .next s

/-! ### The L2 mode (R161, R162) -/

/-- L2_MODE_SWITCH: the die's L2 is written back and invalidated, and the partition's mode is that of its regions. -/
def execL2ModeSwitch (part : Nat) (s : State) : Host.Outcome State Fault Refusal :=
  match s.regions.find? fun e => decide (e.2.part = part) with
  | none => .next s
  | some (_, r) =>
    let want := ((tget s.host.ctxs r.ctx).map fun c => c.l2Private).getD false
    let old := s.caches.l2Private
    if want = old.contains part then .next s
    else .next { s with caches := { s.caches with
      l2Private := if want then ninsert old part else old.filter fun p => decide (p ≠ part)
      l2 := s.caches.l2.filter fun e => decide (dieOf e.1 ≠ dieOf part) } }

/-- Whether a region's partition still has to switch its mode before the region starts. -/
def State.modeDue (s : State) (r : Region) : Bool :=
  ((tget s.host.ctxs r.ctx).map fun c => c.l2Private).getD false != s.caches.l2Private.contains r.part

/-! ### Halting (R102, R103, R105, R219) -/

/-- Whether a block's record at hand is an FRESIZE, or an FDECL that resizes, and the stage of its sequence. -/
def Region.resizeStage (r : Region) (w : Work) : Option Nat :=
  match (tget r.blocks w.slot).bind fun b => b.image.recs[w.pc]? with
  | none => none
  | some x => match Decode.record x with
    | .ok (.fresize _) | .ok (.fdecl _) => w.aux.head?
    | _ => none

/-- A control block at work as a halt keeps it: not one that has begun no effect. A resize that has not moved its panels is abandoned, and its block with
it where no effect has been performed (R102, R157, R292, R451). -/
def Region.haltWork (r : Region) : Option Work :=
  r.work.bind fun w =>
    if !w.checked then none
    else match r.resizeStage w with
      | some n => if 2 ≤ n then some w else if w.efx = 0 then none else some { w with aux := [], begun := false }
      | none => some w

/-- Uncommitted control blocks abandoned but one whose effects have begun; fetch goes on at the oldest of them. -/
def Region.haltCore (r : Region) : Region :=
  let keep := r.haltWork
  let kept := fun (n : Nat) => match keep with
    | some w => decide (w.slot = n)
    | none => false
  let gone := r.fetched.filter fun n => !kept n
  { r with
    blocks := r.blocks.filter fun e => !gone.contains e.1
    fetched := r.fetched.filter kept
    work := keep
    nextFetch := match gone.head? with
      | some n => ((tget r.blocks n).map fun b => b.addr).or r.nextFetch
      | none => r.nextFetch
    waiting := false
    minor := false }

/-- A firing as a halt leaves it: waits withdrawn, minor faults to be retried (R103, R105). -/
def Firing.halted (f : Firing) : Firing :=
  match f.st with
  | .cairn | .minor => { f with st := .ready }
  | _ => f

/-- Records of served or withdrawn minor faults leave the queue (R175). -/
def Region.dropMinor (r : Region) : Region :=
  { r with queue := r.queue.filter fun f => decide (f.cls ≠ 1), faultTokens := r.faultTokens.filter fun f => decide (f.cls ≠ 1) }

/-- PUTs that a resize froze are released, with its freeze (R157). -/
def Tile.thaw (t : Tile) : Tile := t.stmts.foldl (fun t' d => if d.2.resizing then (t'.setResizing d.1 false).releasePuts d.1 else t') t

/-- Cairn waits, minor faults and image fetches of a halted region are withdrawn, to be made again at its resume (R103, R105). -/
def State.withdraw (s : State) (key : Nat) : State :=
  match tget s.regions key with
  | none => s
  | some r =>
    let ks := r.tiles
    let tile := fun (t : Tile) => { t with ready := t.ready.map Firing.halted, streams := t.streams.map fun p => (p.1, { p.2 with minor := false }) }
    let s1 := s.putRegion key { r.dropMinor with engines := r.engines.map fun e => { e with minor := false }, minor := false, waiting := false }
    { s1 with
      cairn := { s1.cairn with waits := s1.cairn.waits.filter fun w => !w.who.ofRegion key ks }
      host := { s1.host with minors := s1.host.minors.filter fun m => !m.who.ofRegion key ks }
      caches := { s1.caches with fetches := s1.caches.fetches.filter fun f => decide (f.key ≠ key) }
      tiles := s1.tiles.map fun e => if ks.contains e.1 then (e.1, tile e.2) else e }

/-- A region halts at one cycle: what it has in flight stays, and what it has begun is finished (R102). -/
def State.haltRegion (s : State) (key : Nat) (why : RunState) : State :=
  match tget s.regions key with
  | none => s
  | some r =>
    let ks := r.tiles
    let thawed := match r.work.bind r.resizeStage with
      | some n => if n < 2 then s.mapTiles ks Tile.thaw else s
      | none => s
    let s1 := (thawed.putRegion key { r.haltCore with run := why, haltDue := false }).withdraw key
    let s2 := (List.range 16).foldl (fun s' h => s'.closeBuf (.core key) h) s1
    ks.foldl (fun s' k => (List.range 16).foldl (fun s'' h => s''.closeBuf (.tile k) h) s') s2

/-- PREEMPT: a running region halts; one halted for a major fault counts as pre-empted, one that is being cancelled goes on (R102, R105); a resize
that has moved its panels lets its block commit first (R157). -/
def execPreempt (key : Nat) (s : State) : Host.Outcome State Fault Refusal :=
  match tget s.regions key with
  | none => .next s
  | some r =>
    if r.cancelling then .next s
    else
      match r.run with
      | .running | .brk =>
        match r.work.bind r.resizeStage with
        | some 2 => .next (s.putRegion key { r with haltDue := true })
        | _ => .next (s.haltRegion key .preempted)
      | _ => .next s

/-! ### What a halted region still does (R102, R103) -/

/-- Whether accesses laid out have a piece that can be performed at a home here, or are all performed. -/
def State.underWay (s : State) (ctx : Nat) (accs : List Acc) : Bool :=
  (accs.all fun a => a.done) || (pendingAccs accs).any fun i => (accs[i]?).any fun a => s.isLocal (s.target ctx a.addr)

/-- Whether a firing that has begun goes on though its region has halted: it waits for nothing but its own turns. -/
def State.firingBusy (s : State) (ctx tile : Nat) (f : Firing) : Bool :=
  f.begun && decide (f.st = .ready) && s.underWay ctx f.accs &&
  !((f.accs.all fun a => a.done) && s.link.reqs.any fun q => decide (q.who = .fire tile f.id))

/-- Whether a stream port has a token in flight that goes on. -/
def State.portBusy (s : State) (ctx : Nat) (p : Stream) : Bool :=
  !p.minor && !p.faulted && !p.flight.isEmpty &&
  ((if (patternOf p.desc).store then p.flight.any fun f => p.tokDone f.1 else p.flight.head?.any fun f => p.tokDone f.1) ||
    (p.accs.any fun a => !a.done) && s.underWay ctx p.accs)

/-- Whether an engine has a piece under way that goes on. -/
def State.engineBusy (s : State) (ctx : Nat) (e : Engine) : Bool :=
  !e.minor && !e.faulted && !e.stopped && e.work.any fun p => !p.accs.isEmpty && s.underWay ctx p.accs

/-- Whether the record at hand is a heap access at a home here: one that waits on MOVING is performed before its region is parked (R222). -/
def Region.heapWait (r : Region) (w : Work) : Bool :=
  w.begun && w.accs.isEmpty && ((HeapJob.ofNums (w.aux.drop (w.aux.length - 5))).stage == 0) &&
  match ((tget r.blocks w.slot).bind fun b => b.image.recs[w.pc]?).map Decode.record with
  | some (.ok (.hst _)) | some (.ok (.hpin _)) | some (.ok (.hunpin _)) => true
  | _ => false

/-- Whether the record at hand has accesses under way. -/
def State.recordBusy (s : State) (r : Region) : Bool :=
  !r.minor && r.work.any fun w => (w.begun && !w.accs.isEmpty && s.underWay r.ctx w.accs) || r.heapWait w

/-- The turns of a halted region: what it had begun is finished, and its heap accesses that wait on MOVING are performed (R222). -/
def State.haltTurns (s : State) (key : Nat) (r : Region) : List Turn :=
  (if s.recordBusy r then [.record key] else []) ++
  (r.tiles.flatMap fun k =>
    ((s.tile k).ready.zipIdx.filter fun f => s.firingBusy r.ctx k f.1).map fun f => .fire k f.2) ++
  (r.tiles.flatMap fun k =>
    ((s.tile k).ready.zipIdx.filter fun f => decide (f.1.st = .moving)).map fun f => .event (.barrierRetry k f.2)) ++
  (r.tiles.flatMap fun k => ((s.tile k).streams.filter fun p => s.portBusy r.ctx p.2).flatMap fun p =>
    [.event (.loadStreamToken k p.1), .event (.storeStreamToken k p.1)]) ++
  (r.engines.zipIdx.filter fun e => s.engineBusy r.ctx e.1).map fun e => .event (.engineDrain key e.2)

/-! ### The bivouac and the save area (R106 to R108, R179) -/

/-- Frees an image. -/
def State.freeImage (s : State) (ctx : Nat) (a : Option Nat) : State :=
  match a, tget s.host.ctxs ctx with
  | some n, some c => s.putCtx ctx { c with images := c.images.filter fun e => decide (e.1 ≠ n) }
  | _, _ => s

/-- The source of an arc with the tile in its number changed. -/
def mapSrc (f : Nat → Nat) (src : Nat) : Nat :=
  if src < 2 ^ 40 then f (src / 8192) * 8192 + src % 8192
  else if src < 2 ^ 41 then 2 ^ 40 + f ((src - 2 ^ 40) / 8) * 8 + src % 8
  else src

/-- A tile's share of a region's state with the tiles of its arcs renumbered. -/
def Tile.mapSrcs (f : Nat → Nat) (t : Tile) : Tile :=
  let g := fun (c : ChanTok) => { c with src := mapSrc f c.src }
  { t with chans := t.chans.map g, miss := t.miss.map g }

/-- A waiter of a region by its own tile numbers. -/
def Who.mapTile (f : Nat → Nat) (key : Nat) : Who → Who
  | .core _ => .core key
  | .fire t n => .fire (f t) n
  | .stream t p => .stream (f t) p
  | .engine _ n => .engine key n
  | .arc src => .arc (mapSrc f src)
  | w => w

/-- A splitter with its mergers, the tiles of their tokens renumbered, under a region's key (R101). -/
def Split.mapTiles (f : Nat → Nat) (key : Nat) (x : Split) : Split :=
  { x with key := key, held := x.held.map fun h => { h with tile := f h.tile, chan := { h.chan with src := mapSrc f h.chan.src } } }

/-- A PE as a parked region keeps it: shares and input latches start afresh (R136). -/
def Pe.parked (p : Pe) : Pe := { p with history := [], shares := [], occupancy := [], window := 0, dealt := [] }

/-- A region taken off its tiles into a parked one, by region tile numbers; its requests wait for it under its number (R103). -/
def State.parkAs (s : State) (key pid : Nat) (r : Region) (part : Option Nat) (image : Option Nat) (resident : Bool) (notCore : Option Nat) : State :=
  let num := r.numOf
  let ks := r.tiles
  let mine := s.link.reqs.filter fun q => q.who.ofRegion key ks
  let saved := fun (t : Tile) => { t with tlb := [], barrier := [], spareUsed := none, fenced := [], pes := t.pes.map fun p => (p.1, p.2.parked) }
  let tiles := (List.range r.total).map fun t => (t, saved ((s.tile (r.tileKey t)).mapSrcs num))
  let reqs := s.link.reqs.map fun q => if q.who.ofRegion key ks then { q with who := .parked pid } else q
  let p : Parked :=
    { region := { r with tlb := [], barrier := [] }
      tiles := tiles
      part := part
      image := image
      since := s.now
      resident := resident
      notCore := notCore
      asked := mine.map fun q => (q.tag, q.who.mapTile num 0)
      splits := (s.host.splits.filter fun x => decide (x.key = key)).map (Split.mapTiles num 0) }
  let s1 := { s with link := { s.link with reqs := reqs }, parked := tput s.parked pid p }
  let s2 := match tget s1.host.launches pid with
    | some l => s1.putLaunch pid { l with st := .parked pid }
    | none => s1
  s2.freeRegion key

/-- A halted region that has finished what it had begun is parked: what it still waits for is withdrawn first. -/
def State.park (s : State) (key pid : Nat) (part : Option Nat) (image : Option Nat) (resident : Bool) (notCore : Option Nat) : State :=
  match tget (s.withdraw key).regions key with
  | none => s
  | some r => (s.withdraw key).parkAs key pid r part image resident notCore

/-! ### Resume (R92, R103, R109) -/

/-- Partitions in which a parked region can be put. -/
def State.resumeSpots (s : State) (p : Parked) : List Spot :=
  (s.placementDies p.region.ctx).flatMap fun d => (List.range 4).filterMap fun i =>
    s.spotFor [] p.notCore p.region.ctx p.region.w p.region.hgt p.region.extras (d * 4 + i)

/-- Whether a die could place a runnable launch that goes before a parked one: of a higher priority, or of its own where the parked
region's job has no deficit left. -/
def State.outranked (s : State) (l : Launch) (die : Nat) : Bool :=
  (List.range 8).any fun p =>
    (decide (l.prio < p) || (decide (p = l.prio) && decide (s.deficit die p (s.jobOf l.ctx) ≤ 0))) &&
    (s.runnable die p).any fun e => (s.placeable [] e.2 die).isSome

/-- A response kept while a region was parked is delivered (R103). -/
def State.redeliver (s : State) (asked : List (Nat × Who)) (x : PendResp) : State :=
  match asked.find? fun a => decide (a.1 = x.req.tag) with
  | none => s
  | some (_, w) =>
    let q := { x.req with who := w }
    match x.fault with
    | some c => s.faultWho q c
    | none => if q.typ = 1 ∨ q.typ = 2 then s.deliverMem q x.body else s.deliverReply q x.body

/-- A parked region put in a place. -/
def State.unpark (s : State) (pid : Nat) (p : Parked) (q : Spot) : State :=
  let key := coreKey q.part q.core
  let kept := fun (f : FaultRec) => decide (f.cls ≠ 2)
  let r := { p.region with
    queue := p.region.queue.filter kept
    faultTokens := p.region.faultTokens.filter kept
    part := q.part
    core := q.core
    x0 := q.x
    y0 := q.y
    run := .running
    pend := []
    replaceMark := false
    redirect := if p.region.replaceMark then s.redirectOf p.region.ctx else p.region.redirect
    placedAt := s.now }
  let asked := p.asked.map fun a => (a.1, a.2.mapTile r.tileKey key)
  let whoOf := fun (x : Req) => ((asked.find? fun a => decide (a.1 = x.tag)).map fun a => a.2).getD x.who
  let reqs : List Req := s.link.reqs.map fun x => if x.who = .parked pid then { x with who := whoOf x } else x
  let s1 : State := { s with parked := tdel s.parked pid, link := { s.link with reqs := reqs } }
  let s2 := p.tiles.foldl (fun s' e =>
    let k := r.tileKey e.1
    let old := s'.tile k
    let ready := e.2.ready.map fun f => if f.st = .major then { f with st := .ready } else f
    s'.putTile k { (e.2.mapSrcs r.tileKey) with ready := ready, spareUsed := old.spareUsed, fenced := old.fenced, nextId := max old.nextId e.2.nextId }) s1
  let back := { s2 with host := { s2.host with splits := s2.host.splits ++ p.splits.map (Split.mapTiles r.tileKey key) } }
  let s3 := (back.putRegion key r).freeImage r.ctx p.image
  let s4 := match tget s3.host.launches pid with
    | some l => s3.putLaunch pid { l with st := .placed key, die := dieOf q.part }
    | none => s3
  (p.region.pend.foldl (fun s' x => s'.redeliver asked x) s4).landHeld

/-- Whether a parked region is to stay parked: a page is missing, its launch is cancelled, its phase has not come (R109). -/
def State.staysParked (s : State) (p : Parked) (l : Launch) : Bool :=
  !p.resident || l.cancelled || decide (tgetD s.host.phases (s.jobOf l.ctx) 0 < l.phase)

/-- A region of a bivouac spilled to its context's save area; none where that has no room (R108). -/
def State.spill (s : State) (pid : Nat) (p : Parked) : Option State :=
  (s.takeImage p.region).map fun a => { a.2 with parked := tput a.2.parked pid { p with part := none, image := some a.1 } }

/-- REGION_RESUME: a parked region goes where its context's placement set has a rectangle of its shape; from a bivouac to another partition by way of
the save area (R108); an empty set is reported. -/
def execRegionResume (pid : Nat) (s : State) : Host.Outcome State Fault Refusal :=
  match tget s.parked pid, tget s.host.launches pid with
  | some p, some l =>
    if s.staysParked p l then .next s
    else if (s.placementDies l.ctx).isEmpty then
      .next (if s.dev.reports.contains (.noPlacement pid) then s else s.report (.noPlacement pid))
    else
      match (s.resumeSpots p).filter fun q => !s.outranked l (dieOf q.part) with
      | [] => .next s
      | q :: qs =>
        let dest := (q :: qs).getD (s.choice (qs.length + 1)) q
        if p.part.isNone ∨ p.part = some dest.part then .next (s.drawn.unpark pid p dest) else .next ((s.drawn.spill pid p).getD s)
  | _, _ => .next s

/-! ### The exchange (R107, R108) -/

/-- The place of a parked region's own rectangle in its partition, where it may resume there now. -/
def State.backSpot (s : State) (pid : Nat) (p : Parked) : Option Spot :=
  match p.part, tget s.host.launches pid with
  | some part, some l =>
    let r := p.region
    let free := fun c => (tget s.regions (coreKey part c)).isNone && decide (p.notCore ≠ some (coreKey part c))
    if s.staysParked p l || s.outranked l (dieOf part) || !(s.placementDies l.ctx).contains (dieOf part) || !s.modeFits [] part r.ctx ||
        !s.rectFree [] part r.x0 r.y0 r.w r.hgt || !s.extrasFree [] part r.x0 r.y0 r.extras then none
    else ((List.range 8).find? free).map fun c => ⟨part, c, r.x0, r.y0⟩
  | _, _ => none

/-- A halted region parked in its partition's bivouac, or spilled where no slot can be had. -/
def State.exchangeOut (s : State) (part key : Nat) (r : Region) : Option State :=
  match State.makeRoom part r [] 9 s with
  | some s1 => some (s1.park key r.launch (some part) none true none)
  | none => (s.takeImage r).map fun a => a.2.park key r.launch none (some a.1) true none

/-- A halted region swapped with one parked in its slots that may resume. -/
def State.exchangeSwap (s : State) (part key : Nat) (r : Region) : Option State :=
  (s.inSlots part r).findSome? fun e =>
    (State.makeRoom part r [e.1] 9 s).bind fun s1 =>
      let s2 := s1.park key r.launch (some part) none true none
      (s2.backSpot e.1 e.2).map fun q => s2.unpark e.1 e.2 q

/-- A halted region leaves its tiles: by a swap, or by itself, as the dispatch unit chooses where it can do both; one that fits nowhere stays halted
in place. -/
def State.exchange (s : State) (part : Nat) (e : Nat × Region) : State :=
  match s.exchangeOut part e.1 e.2, s.exchangeSwap part e.1 e.2 with
  | some a, some b => if s.choice 2 = 0 then a.drawn else b.drawn
  | some a, none => a
  | none, some b => b
  | none, none => s

/-- BIVOUAC_EXCHANGE: the pre-empted regions of a partition that have finished what they had begun leave their tiles. -/
def execBivouacExchange (part : Nat) (s : State) : Host.Outcome State Fault Refusal :=
  .next ((s.regions.filter fun e => decide (e.2.part = part ∧ e.2.run = .preempted) && !e.2.cancelling).foldl (fun s' e =>
    if (s'.haltTurns e.1 e.2).isEmpty then s'.exchange part e else s') s)

/-! ### Sharing a PE (R98) -/

/-- ARBITER_WINDOW: shares of the next window in 1/4096, in proportion to the occupancies measured; equal where nothing was measured. -/
def execArbiterWindow (tile pe : Nat) (s : State) : Host.Outcome State Fault Refusal :=
  let t := s.tile tile
  let p := t.pe pe
  let total := (p.occupancy.map fun e => e.2).sum
  let shares := if total = 0 then [] else p.occupancy.map fun e => (e.1, e.2 * 4096 / total)
  .next (s.putTile tile (t.putPe pe { p with shares := shares, occupancy := [], window := 0, dealt := [] }))

end Sys2Proof.Machine
end

