-- ==== Sys2Proof/Machine/EvFetch.lean ====
section
/-! DEFINITION. Fetching: images for the configuration cache, and blocks along the successors that fetched blocks name (R93, R122, R274, R301, R444,
R451, R456). -/

namespace Sys2Proof.Machine

/-! ### CONFIG_FETCH_DONE (R93) -/

/-- The bytes of the first `n` sectors of a fetch, where they have all come. -/
def Fetch.bytes (f : Fetch) : Nat → Option (List Byte)
  | 0 => some []
  | n + 1 =>
    match f.bytes n, f.got.find? fun g => decide (g.1 = f.pa + 64 * n) with
    | some bs, some g => some (bs ++ g.2)
    | _, _ => none

/-- Whether a sector of a fetch has been asked for. -/
def State.askedFor (s : State) (f : Fetch) (k : Nat) : Bool :=
  s.link.reqs.any fun q => decide (q.who = .fetch f.key ∧ q.typ = 1 ∧ q.ctx = f.ctx ∧ q.operand.toNat = f.pa + 64 * k)

/-- A fetch ends in a fault (Table 2.3). -/
def State.failFetch (s : State) (f : Fetch) (code : Nat) : State :=
  { s with caches := { s.caches with fetches := s.caches.fetches.map fun g => if g = f then { f with failed := some code } else g } }

/-- Asks the remote home of an image for its sectors below `n` that have not come. -/
def State.askSectors (t : Nat) (f : Fetch) : Nat → State → State
  | 0, s => s
  | n + 1, s =>
    let s1 := State.askSectors t f n s
    if (f.got.any fun g => decide (g.1 = f.pa + 64 * n)) || s1.askedFor f n then s1
    else
      let a := t + 64 * n
      match s1.request 1 (devOf t) a f.ctx (2 ^ 64 - 1) (BitVec.ofNat 64 (f.pa + 64 * n)) (memBody (List.replicate 64 0) (2 ^ 64 - 1) s1.mem.pts a false) (.fetch f.key) with
      | .ok s2 => s2
      | .wait => s1
      | .noRoute => s1.failFetch f cNoRoute

/-- Bytes of an image from its header record: only the records it counts are fetched. -/
def imageLen (h : Rec96) : Nat :=
  match Decode.header h with
  | .ok x => 12 * (x.ncnt + 2 + x.ndecl)
  | .error _ => 12

/-- Images of a partition with room for one more: the least recently mapped of those that no live region holds goes; none where all are held. -/
def State.imageRoom (s : State) (part : Nat) : Option (List CfgImage) :=
  let l := tgetD s.caches.cfg part []
  if l.length < 32 then some l
  else
    match l.reverse.find? fun i => !s.imageHeld part i with
    | some i => some (l.filter fun j => decide (j ≠ i))
    | none => none

/-- An image has come: it enters the partition's cache, and its features are those of its context (R95). -/
def State.imageCame (s : State) (f : Fetch) (bs : List Byte) : State :=
  match s.imageRoom f.part with
  | none => s
  | some l =>
    let m := imageOf bs
    let s1 := { s with caches := { s.caches with
      fetches := s.caches.fetches.filter fun g => decide (g ≠ f)
      cfg := tput s.caches.cfg f.part (⟨f.ctx, f.addr, m⟩ :: l) } }
    match m, tget s1.host.ctxs f.ctx with
    | some i, some c => s1.putCtx f.ctx { c with imageFeats := c.imageFeats ||| i.hdr.freq }
    | _, _ => s1

/-- CONFIG_FETCH_DONE: an image that misses is read here in one step, or sector by sector from its remote home, the first sector first. -/
def execConfigFetchDone (idx : Nat) (s : State) : Host.Outcome State Fault Refusal :=
  match s.caches.fetches[idx]? with
  | none => .next s
  | some f =>
    if f.failed.isSome then .next s
    else
      let t := s.target f.ctx f.pa
      if s.isLocal t then
        match s.loadNow t 12 with
        | (h, _, s1) =>
          match s1.loadNow t (imageLen (recAt h 0)) with
          | (bs, _, s2) => .next (s2.imageCame f bs)
      else
        match f.bytes 1 with
        | none => .next (State.askSectors t f 1 s)
        | some h =>
          let n := (imageLen (recAt h 0) + 63) / 64
          match f.bytes n with
          | some bs => .next (s.imageCame f bs)
          | none => .next (State.askSectors t f n s)

/-! ### BLOCK_FETCH (R122, R301, R444, R456) -/

/-- Whether fetch stays at a control block until it has committed, by its records. -/
def stopsFetch (i : Instr) : Bool :=
  match i with
  | .run _ | .runw _ | .replaceB _ | .idle _ | .trap _ | .exitc _ | .retb _ | .rett _ | .halt _ => true
  | .exitB r => r.m.getLsbD 0
  | _ => false

/-- The successor of a control block that is fixed without evaluation; none where fetch waits for the block's commit. -/
def Image.fixedNext (m : Image) : Option Nat :=
  let is := m.recs.filterMap fun x => match Decode.record x with
    | .ok i => some i
    | .error _ => none
  if is.any stopsFetch then none
  else match is.getLast? with
    | some (.exitB r) => some r.imm.toNat
    | some (.callb r) => some r.imm.toNat
    | _ => some m.hdr.next

/-- A fetched control block takes the lowest-numbered free entry. -/
def Region.takeControl (r : Region) (slot addr : Nat) (m : Image) (next : Option Nat) : Region :=
  { r with
    blocks := tput r.blocks slot ⟨addr, m, .fetched, 0, none, false, r.nextOrder, r.nextOrder⟩
    fetched := r.fetched ++ [slot]
    nextFetch := next
    nextOrder := r.nextOrder + 1 }

/-- A mask of every tile of a region. -/
def Region.allTiles (r : Region) : BitVec 128 := BitVec.ofNat 128 (2 ^ r.size - 1)

/-- A fabric block that control flow has reached is issued over every tile, and fetch goes on at its NEXT (R122). -/
def Region.issueReached (r : Region) (slot addr : Nat) (m : Image) : Region :=
  { (r.issueUnit slot addr m r.allTiles none false r.nextOrder) with nextFetch := some m.hdr.next }

/-- A fault of the fetch itself, taken before the block begins: a class-00 one traps, others wait for the SCC (R122, R174, R176). -/
def State.fetchFault (s : State) (key a code va : Nat) : State :=
  match tget s.regions key with
  | none => s
  | some r =>
    let s1 := s.minorAt code (.core key) r.ctx va 0 0 key
    match codeClass code with
    | 1 => s1.putRegion key { r with minor := true }
    | 2 => s1.putRegion key { r with run := .major code }
    | _ => s1.takeTrap key (r.faultRec 31 code 0 0 0 0 (BitVec.ofNat 64 va) s.mem.pts) a 0 0 false

/-- Whether a control core may fetch now. -/
def State.canFetch (s : State) (r : Region) : Bool :=
  decide (r.run = .running) && !r.cancelling && !r.minor && r.idle.isNone && !r.haltAfter && !r.replaceMark && !s.modeDue r

/-- BLOCK_FETCH: the next block along the chain. A fault, or a block that fetch does not go beyond, waits until no block before it is in flight. -/
def execBlockFetch (key : Nat) (s : State) : Host.Outcome State Fault Refusal :=
  match tget s.regions key with
  | none => .next s
  | some r =>
    match r.nextFetch, r.freeSlot with
    | some a, some slot =>
      if !s.canFetch r then .next s
      else
        let first := r.fetched.isEmpty && r.work.isNone
        match s.wantImage key r a with
        | .wait s1 => .next s1
        | .fault s1 code va => .next (if first then s1.fetchFault key a code va else s)
        | .ok s1 none => .next (if first then s1.fetchFault key a cIllegalInstr 0 else s)
        | .ok s1 (some m) =>
          match tget s1.regions key with
          | none => .next s1
          | some r1 =>
            if m.hdr.control then .next ((s1.touchImage r.part r.ctx (r.redirected a)).putRegion key (r1.takeControl slot a m m.fixedNext))
            else if first then .next (s1.putRegion key (r1.issueReached slot a m))
            else .next s1
    | _, _ => .next s

end Sys2Proof.Machine
end

