-- ==== Sys2Proof/Machine/EvCommit.lean ====
section
/-! DEFINITION. Committing control blocks: decode, the start of evaluation, the commit; traps at a boundary (R96, R122 to R124, R225, R281, R292, R298,
R301, R316, R325 to R331, R341, R444). -/

namespace Sys2Proof.Machine

/-! ### Decode (Table 13.12) -/

/-- A control record with its rule. -/
def ctlInstr (x : Rec96) : Option (Instr × Rules.CtlRule) :=
  match Decode.record x with
  | .ok i => (Rules.ctlRule i).map fun p => (i, p.1)
  | .error _ => none

/-- Waits before effects (R292), SBAR the first effect (R341); `seen` whether an effect has come. -/
def orderOk : List (Instr × Rules.CtlRule) → Bool → Bool
  | [], _ => true
  | (i, c) :: t, seen =>
    match c.kind with
    | .wait => !seen && orderOk t seen
    | .effect => (match i with
      | .sbar _ => !seen
      | _ => true) && orderOk t true
    | _ => orderOk t seen

/-- Whether a declaration record may stand in a control block (R280). -/
def ctlDecl (x : Rec96) : Bool :=
  match Decode.decl x with
  | .ok (.stmt1 ..) | .ok (.stmt2 ..) => true
  | _ => false

/-- Whether a control block passes decode. -/
def Image.decodes (m : Image) : Bool :=
  let is := m.recs.filterMap ctlInstr
  decide (is.length = m.recs.length) && (is.dropLast.all fun p => !endsBlock p.1) && (is.all fun p => needsOk p.1 m.hdr.freq) &&
    orderOk is false && m.decls.all ctlDecl

/-! ### The boundary (R225, R299) -/

/-- Whether a unit that a RUNW issued has not completed. -/
def Region.heldByRunw (r : Region) : Bool := r.blocks.any fun e => !e.2.image.hdr.control && e.2.holdCommits

/-- Whether a control core may go on with commits. -/
def Region.live (r : Region) : Bool := decide (r.run = .running) && !r.minor && !r.waiting && !r.cancelling

/-- TRAP_ENTRY: a block that has not begun its effects is abandoned, with every block fetched after it (Table 14.9). -/
def execTrapEntry (key : Nat) (s : State) : Host.Outcome State Fault Refusal :=
  match tget s.regions key with
  | none => .next s
  | some r =>
    let begun := match r.work with
      | some w => w.checked
      | none => false
    match oldest r.queue 0, r.resumeAt with
    | some f, some a =>
      if decide (r.run ≠ RunState.running) || r.cancelling || r.trapped || begun then .next s
      else .next (s.takeTrap key f a 0 0 true)
    | _, _ => .next s

/-! ### The start of a block's evaluation -/

/-- The context loses a die that lacks a feature of one of its blocks (R96). -/
def State.excludeDie (s : State) (ctx die : Nat) : State :=
  match tget s.host.ctxs ctx with
  | some c => s.putCtx ctx { c with excluded := ninsert c.excluded die }
  | none => s

/-- The oldest fetched block begins; one that a check of its header or records refuses faults. -/
def State.beginBlock (s : State) (key : Nat) (r : Region) (slot : Nat) (b : Bif) : State :=
  let w := Work.start r slot
  let c : CSite := ⟨key, r, w, b⟩
  if !featsIn b.image.hdr.freq (s.diefeat (dieOf r.part)) then (s.excludeDie r.ctx (dieOf r.part)).coreFault c w cAbsentFeature 0 0
  else if !b.image.decodes then s.coreFault c w cIllegalInstr 0 0
  else s.putWork key w

/-! ### The commit -/

/-- What follows a block: the address fetched next. -/
def Work.successor (w : Work) (h : BlockHdr) : Nat :=
  match w.ending with
  | .goto a => a
  | _ => h.next

/-- A region as a block's commit leaves it: registers, status writes in order, retired records, the block's own entry free. -/
def Region.committed (r : Region) (w : Work) : Region :=
  let r1 := { r with
    s := w.s
    h := w.h
    queue := r.queue.filter fun f => !w.pops.contains f.seq
    blocks := tdel r.blocks w.slot
    fetched := r.fetched.filter fun n => decide (n ≠ w.slot)
    work := none
    trapped := false }
  w.csrw.foldl (fun r' x => r'.setCsr x.1 x.2) r1

/-- Where fetch goes on after a commit: nowhere after HALT, at TRAPBLK after RETT, behind the blocks already fetched, or at the successor. -/
def Region.follow (r : Region) (w : Work) (next : Nat) : Region :=
  match w.ending with
  | .halt => { r with haltAfter := true, nextFetch := none }
  | .rett => r.returnTrap
  | _ =>
    let r1 := if r.fetched.isEmpty && r.nextFetch.isNone then { r with nextFetch := some next } else r
    match w.idle with
    | some n => { r1 with idle := some (n, r.cycle.toNat, false) }
    | none => r1

/-- The end of a commit: the cairns of its units of no instance advance, the trap is taken that `trap #code` asks for, unless the block halts, the
cancellations it started begin, and a pre-emption that waited for it goes on (R157, R299, R316). -/
def State.endCommit (s : State) (c : CSite) (next : Nat) : State :=
  let s0 := s.advanceAll c.w.empties
  let s1 := match c.w.trapCode with
    | some n => if c.w.ending = BlockEnd.halt then s0 else s0.takeTrap c.key (c.faultRec s0 cTrap 0 0) next 0 n false
    | none => s0
  let s2 := s1.startCancels c.rg.ctx c.rg.launch c.w.cancels
  if c.rg.haltDue then s2.post (.event (.preempt c.key)) else s2

/-- What control flow reaches by a commit. -/
inductive Reached where
  | wait (s : State)
  | issue (s : State) (slot : Nat) (m : Image)
  | plain (s : State)
  deriving DecidableEq, Repr

/-- A successor that is a fabric block is issued at the commit that reaches it (R122, R444), fetched by the table the region has switched to. -/
def State.reached (s : State) (c : CSite) (next : Nat) : Reached :=
  if c.w.trapCode.isSome || c.w.idle.isSome || decide (c.w.ending = BlockEnd.halt ∨ c.w.ending = BlockEnd.rett) || decide (c.rg.fetched ≠ [c.w.slot]) then .plain s
  else
    let rg := if c.rg.replaceMark then { c.rg with redirect := s.redirectOf c.rg.ctx } else c.rg
    match s.wantImage c.key rg next with
    | .wait s1 => .wait s1
    | .ok s1 (some m) =>
      if m.hdr.control then .plain s1
      else
        match (tget s1.regions c.key).bind fun r => r.freeSlot with
        | some n => .issue s1 n m
        | none => .wait s1
    | .ok s1 none => .plain s1
    | .fault .. => .plain s

/-- A block whose records have all been evaluated commits. -/
def State.commitBlock (s : State) (c : CSite) : State :=
  let next := c.w.successor c.blk.image.hdr
  match s.reached c next with
  | .wait s1 => s1
  | .plain s1 =>
    match tget s1.regions c.key with
    | some r => (s1.putRegion c.key ((r.committed c.w).follow c.w next)).endCommit c next
    | none => s1
  | .issue s1 n m =>
    match tget s1.regions c.key with
    | some r =>
      let r1 := (r.issueUnit n next m r.allTiles none false r.nextOrder).committed c.w
      (s1.putRegion c.key { r1 with nextFetch := some m.hdr.next }).endCommit c next
    | none => s1

/-- BLOCK_COMMIT: the oldest fetched block begins its evaluation when its turn has come, and commits when its last record has been evaluated. -/
def execBlockCommit (key : Nat) (s : State) : Host.Outcome State Fault Refusal :=
  match tget s.regions key with
  | none => .next s
  | some r =>
    if !r.live then .next s
    else
      match r.work, r.fetched.head? with
      | none, some slot =>
        match tget r.blocks slot with
        | none => .next s
        | some b => .next (if r.replaceMark || s.modeDue r || r.heldByRunw || r.trapDue then s else s.beginBlock key r slot b)
      | some w, _ =>
        match tget r.blocks w.slot with
        | none => .next s
        | some b => .next (if w.pc < b.image.recs.length ∨ (w.checked = false ∧ r.trapDue = true) then s else s.commitBlock ⟨key, r, w, b⟩)
      | none, none => .next s

end Sys2Proof.Machine
end

