-- ==== Sys2Proof/Machine/NodeHeap.lean ====
section
/-! DEFINITION. Node records of group 10: heap accesses, allocation, pins, object identity (R210, R215 to R219, R426 to R429). -/

namespace Sys2Proof.Machine

/-! ### A heap firing -/

/-- How far a heap firing has come: pairs done (a mask), the pair at hand (8 for none), whether HCMP resolves its right operand, the resolved
left one with the DONE entries followed, the access at hand. -/
structure HeapFire where
  done : Nat
  cur : Nat
  right : Bool
  left : Word
  lhops : Nat
  job : HeapJob
  deriving DecidableEq, Repr

def HeapFire.start : HeapFire := ⟨0, 8, false, 0, 0, HeapJob.start 0⟩

def HeapFire.nums (h : HeapFire) : List Nat := [h.done, h.cur, if h.right then 1 else 0, h.left.toNat, h.lhops] ++ h.job.nums
def HeapFire.ofNums (l : List Nat) : HeapFire :=
  ⟨l.getD 0 0, l.getD 1 0, decide (l.getD 2 0 = 1), BitVec.ofNat 64 (l.getD 3 0), l.getD 4 0, HeapJob.ofNums (l.drop 5)⟩

/-- The two lanes of pair `i` replaced. -/
def putPair (ls : List Lane) (i : Nat) (v : Nat) (valid psn : Bool) : List Lane :=
  (List.range 16).map fun e => if e / 2 = i then (mkPair v valid psn).getD (e % 2) Lane.off else laneAt ls e

/-- The elements of a pair, for a fault. -/
def pairEls (i : Nat) : List Nat := [2 * i, 2 * i + 1]

/-- What a heap node does: operation, field offset, width, its reference pairs that make an access, and the data of a pair. -/
structure HeapSpec where
  op : HeapOp
  f : Nat
  n : Nat
  pairs : List Nat
  a : List Lane
  b : List Lane
  deriving DecidableEq, Repr

/-- Pairs of the left token that are valid, selected and unpoisoned. -/
def Site.refPairs (x : Site) (n : NodeRec) (a : List Lane) : List Nat :=
  (List.range 8).filter fun i => pairValid a i && !pairPsn a i && x.sel n (2 * i)

/-- Whether a valid selected reference is poisoned (R227). -/
def Site.refPsn (x : Site) (n : NodeRec) (a : List Lane) : Bool :=
  (List.range 8).any fun i => pairValid a i && pairPsn a i && x.sel n (2 * i)

/-- The references an access of pair `i` passes the barrier with: HCMP's two, none where one is null (R216). -/
def HeapSpec.refs (h : HeapSpec) (i : Nat) : List Word :=
  let r := BitVec.ofNat 64 (pairVal h.a i)
  match h.op with
  | .cmp => let q := BitVec.ofNat 64 (pairVal h.b i); if r = 0 ∨ q = 0 then [] else [r, q]
  | _ => [r]

/-- The fault of a reference found before any access: form, header write, released page (R204, R206, R220). -/
def State.refCheck (s : State) (ctx : Nat) (h : HeapSpec) (r : Word) : Option Nat :=
  match refFault r with
  | some c => some c
  | none =>
    if decide (h.op = .store) && decide (h.f < 16) then some cHeaderWrite
    else if s.pageReleased ctx (refVa r / 65536 * 65536) then some cStaleRef else none

/-- The checks that come before any access (R418): pair, code, address of each fault. -/
def State.heapCheck (s : State) (x : Site) (h : HeapSpec) : List (Nat × Word) → List (Nat × Nat × Nat) → List (Nat × Nat × Nat) × State
  | [], acc => (acc, s)
  | (i, r) :: t, acc =>
    match s.refCheck x.rg.ctx h r with
    | some c => s.heapCheck x h t (acc ++ [(i, c, r.toNat)])
    | none =>
      match s.barrierLookup (.tile x.tile) x.rg.ctx (refVa r / 65536 * 65536) h.op.asStore with
      | (.fault c, _, s') => s'.heapCheck x h t (acc ++ [(i, c, refVa r)])
      | (.ok .., _, s') => s'.heapCheck x h t acc

/-- A firing put back with its progress. -/
def State.keepHeap (s : State) (x : Site) (h : HeapFire) (accs : List Acc) (lanes healed : List Lane) (st : FireSt) : State :=
  s.putFiring x { x.f with st := st, begun := true, accs := accs, lanes := lanes, healed := healed, aux := h.nums }

/-- An access that has ended with an error, as the firing keeps it. -/
def doneErr (a : Nat) : Acc := ⟨a, 0, 0, true, [], false, false, a, 0, true, true, true, 0, 0⟩

/-- The reference HCMP, or an access, starts pair `i` with; none where no barrier is passed. -/
def HeapFire.open (g : HeapFire) (h : HeapSpec) (i : Nat) : HeapFire :=
  { g with cur := i, right := false, job := HeapJob.start ((h.refs i).headD 0) }

/-- Pair `i` ended. -/
def HeapFire.close (g : HeapFire) (i : Nat) : HeapFire := { HeapFire.start with done := g.done ||| 2 ^ i }

/-- The end of pair `i` of a firing: result and healed lanes. -/
structure PairEnd where
  lanes : List Lane
  healed : List Lane
  deriving DecidableEq, Repr

/-- The turn of a begun heap firing on its pair at hand. `put` writes pair `i`'s result into the lanes. -/
def State.heapPair (s : State) (x : Site) (h : HeapSpec) (g : HeapFire) (errs : List Acc)
    (put : List Lane → Nat → List Byte → Bool → Nat → List Lane) : FireRes :=
  let i := g.cur
  let bs := (leBytes 8 (pairVal h.b i)).take h.n
  let psn := pairPsn h.b i
  let accs := x.f.accs.filter fun a => !(a.done && a.err && decide (a.len = 0))
  match s.heapTurn (.tile x.tile) x.rg.ctx x.who h.op h.f h.n bs psn g.job accs with
  | .stand s1 j as moving => .stay (s1.keepHeap x { g with job := j } (errs ++ as) x.f.lanes x.f.healed (if moving then .moving else .ready))
  | .fault s1 j c addr phys =>
    .fault ((s1.minorAt c x.who x.rg.ctx (if phys then 0 else addr) (if phys then addr else 0) 0 x.key).keepHeap x { g with job := j } errs x.f.lanes x.f.healed .ready)
      (x.elemFault s1 c 0 (pairEls i) addr)
  | .done s1 ref hops pa data p es =>
    let healed := if 0 < hops && !g.right then putPair x.f.healed i ref.toNat true false else x.f.healed
    let errs' := errs ++ es.map doneErr
    let s2 := s1.heapErrs x.key es
    if decide (h.op = .cmp) && !g.right then
      .stay (s2.keepHeap x { g with right := true, left := ref, lhops := hops, job := HeapJob.start ((h.refs i).getD 1 0) } errs' x.f.lanes healed .ready)
    else
      let data' := if h.op = .cmp then leBytes 8 (if sameObject g.left ref then 2 ^ 64 - 1 else 0) else data
      .stay (s2.keepHeap x (g.close i) errs' (put x.f.lanes i data' p pa) healed .ready)

/-- The tokens of a heap node (R426): its own output, on target 0 alone where target 1 is wired, and the healed token on target 1. -/
def Site.heapSends (x : Site) (n : NodeRec) (o : Out) (healed : List Lane) : List (Nat × Token) :=
  if n.t1 = .unwired then x.sends n o
  else
    (x.sends n o).filter (fun p => decide (p.1 = 0)) ++
      (if anyValid healed then [(1, { x.memOut n healed with lanes := healed }.tok)] else [])

/-- A heap node's turn: the checks before any access; then its pairs, one at a time in any order; then its tokens. -/
def heapFire (n : NodeRec) (s : State) (x : Site) (h : HeapSpec) (init : List Lane)
    (put : List Lane → Nat → List Byte → Bool → Nat → List Lane) (fin : List Lane → List Nat → Out) : FireRes :=
  let fl : BitVec 10 := if x.refPsn n h.a then fPSN else 0
  if x.f.begun then
    let g := HeapFire.ofNums x.f.aux
    let errs := x.f.accs.filter fun a => a.done && a.err && decide (a.len = 0)
    if g.cur < 8 then s.heapPair x h g errs put
    else
      match h.pairs.filter fun i => !g.done.testBit i with
      | [] => .fired s (x.heapSends n (fin x.f.lanes (accErrs x.f.accs)) x.f.healed) fl
      | ps =>
        let i := ps.getD (s.choice ps.length) 0
        let s1 := s.drawn
        if (h.refs i).isEmpty then
          let eq := decide (pairVal h.a i = pairVal h.b i)
          .stay (s1.keepHeap x (g.close i) errs (put x.f.lanes i (leBytes 8 (if eq then 2 ^ 64 - 1 else 0)) false 0) x.f.healed .ready)
        else s1.heapPair x h (g.open h i) errs put
  else if !s.roomOut x then .stay s
  else
    match s.heapCheck x h (h.pairs.flatMap fun i => (h.refs i).map fun r => (i, r)) [] with
    | ([], s1) => .stay (s1.keepHeap x HeapFire.start [] init noLanes .ready)
    | ((i, c, addr) :: t, s1) =>
      .fault (s1.minorAt c x.who x.rg.ctx addr 0 0 x.key) (x.elemFault s1 c 0 (((i, c, addr) :: t).flatMap fun b => pairEls b.1) addr)

/-! ### Meanings -/

/-- Lanes of poisoned references in a result: valid and poisoned where `unit` is the result's form (R227). -/
def poisonedResult (x : Site) (n : NodeRec) (a : List Lane) (pair : Bool) : List Lane :=
  (List.range 16).map fun e =>
    let i := e / 2
    if pairValid a i && pairPsn a i && x.sel n (2 * i) && (pair || decide (e % 2 = 0)) then ⟨0, true, true⟩ else Lane.off

/-- A field read into pair `i`, or into element 2i. -/
def putField (pair : Bool) (ls : List Lane) (i : Nat) (data : List Byte) (psn : Bool) : List Lane :=
  let v := leNat data
  if pair then putPair ls i v true psn
  else (List.range 16).map fun e => if e = 2 * i then mkLane v true psn else laneAt ls e

/-- HLD. -/
def execHldNode (n : NodeRec) (s : State) : Host.Outcome State Fault Refusal :=
  fireNode s n (latency 0x280 n) 0 fun s x =>
    let a := x.opA n .ref
    heapFire n s x ⟨.load, field n.lit 15 0, elemSize n.fmt, x.refPairs n a, a, noLanes⟩ (poisonedResult x n a (isPair n.fmt))
      (fun ls i data psn _ => putField (isPair n.fmt) ls i data psn) fun ls _ => x.memOut n ls

/-- HST. -/
def execHstNode (n : NodeRec) (s : State) : Host.Outcome State Fault Refusal :=
  fireNode s n (latency 0x281 n) 0 fun s x =>
    let a := x.opA n .ref
    let d := x.opB n n.fmt
    let data := if isPair n.fmt then d else (List.range 16).map fun e => if e % 2 = 0 then laneAt d e else { laneAt d (e - 1) with val := 0 }
    heapFire n s x ⟨.store, field n.lit 15 0, elemSize n.fmt, (x.refPairs n a).filter fun i => pairValid data i, a, data⟩ noLanes
      (fun ls _ _ _ _ => ls) fun _ errs => x.complOut n errs

/-- HPIN. -/
def execHpinNode (n : NodeRec) (s : State) : Host.Outcome State Fault Refusal :=
  fireNode s n (latency 0x283 n) 0 fun s x =>
    let a := x.opA n .ref
    heapFire n s x ⟨.pin, 0, 0, x.refPairs n a, a, noLanes⟩ (poisonedResult x n a true)
      (fun ls i _ _ pa => putPair ls i (mkTae pa 65536 true true).toNat true false) fun ls _ => x.memOut n ls

/-- HUNPIN. -/
def execHunpinNode (n : NodeRec) (s : State) : Host.Outcome State Fault Refusal :=
  fireNode s n (latency 0x284 n) 0 fun s x =>
    let a := x.opA n .ref
    heapFire n s x ⟨.unpin, 0, 0, x.refPairs n a, a, noLanes⟩ noLanes (fun ls _ _ _ _ => ls) fun _ errs => x.complOut n errs

/-- HCMP: a pair is valid when both operands' pairs are, and poisoned when either is. -/
def execHcmpNode (n : NodeRec) (s : State) : Host.Outcome State Fault Refusal :=
  fireNode s n (latency 0x285 n) 0 fun s x =>
    let a := x.opA n .ref
    let b := x.opB n .ref
    let both := (List.range 8).filter fun i => pairValid a i && pairValid b i && x.sel n (2 * i)
    let init := (List.range 16).map fun e =>
      if both.contains (e / 2) && (pairPsn a (e / 2) || pairPsn b (e / 2)) then (⟨0, true, true⟩ : Lane) else Lane.off
    heapFire n s x ⟨.cmp, 0, 0, both.filter fun i => !pairPsn a i && !pairPsn b i, a, b⟩ init
      (fun ls i data _ _ => putPair ls i (leNat data) true false) fun ls _ => x.memOut n ls

/-- HNEW: one object for each valid pair, ascending; the pairs done stand in `row` (R428). -/
def execHnewNode (n : NodeRec) (s : State) : Host.Outcome State Fault Refusal :=
  fireNode s n (latency 0x282 n) 0 fun s x =>
    let a := x.opA n .ref
    let heap := field n.lit 19 16
    let pairs := (x.refPairs n a).filter fun i => decide (x.f.row ≤ i)
    let lanes := if x.f.begun then x.f.lanes else poisonedResult x n a true
    match pairs with
    | [] => .fired s (x.sends n (x.memOut n lanes)) (if x.refPsn n a then fPSN else 0)
    | i :: _ =>
      match s.alloc (.tile x.tile) x.rg.ctx (laneAt a (2 * i)).val.toNat (field n.lit 15 0) heap with
      | .ok s1 ref =>
        .stay (s1.putFiring x { x.f with st := .ready, begun := true, row := i + 1, lanes := putPair lanes i ref.toNat true false })
      | .fault s1 c va =>
        .fault ((s1.minorAt c x.who x.rg.ctx va 0 heap x.key).putFiring x { x.f with begun := true, row := i, lanes := lanes })
          (x.elemFault s1 c 0 (pairEls i) va)

end Sys2Proof.Machine
end

