-- ==== Sys2Proof/Machine/NodeSync.lean ====
section
/-! DEFINITION. Node records of groups 11 and 12: cairns, belays, taps, votes, traps, breaks, traces, error fences (R195 to R198, R235 to R239,
R430 to R436, R445, R446, R454). -/

namespace Sys2Proof.Machine

/-! ### Forwarding -/

/-- The left token as it came, or the operand in its place. -/
def Site.fwd (x : Site) (n : NodeRec) : Token :=
  match x.left n with
  | some t => { t with itag := x.f.itag }
  | none => (x.out n false (x.opA n n.fmt)).tok

/-- A token as an output, for predication (R129). -/
def Out.ofTok (t : Token) : Out := ⟨t.itag, t.flags.last, t.flags.compl, t.flags.scaled, t.flags.permit, t.flags.mixed, t.loff, t.lanes⟩

/-! ### Cairns (R430) -/

/-- The operands of a cairn node: cairn and amount or threshold; a fault with the elements at fault; or nothing to apply. -/
inductive CairnOps where
  | ok (cairn : Nat) (v : Word)
  | fault (code : Nat) (es : List Nat)
  | skip
  deriving DecidableEq, Repr

/-- The operands of a firing of CADD or CWAIT. -/
def Site.cairnOps (x : Site) (n : NodeRec) : CairnOps :=
  let a := x.opA n .n64
  let b := x.opB n .n64
  let kl := n.mod.getLsbD 0
  let dyn := n.mod.getLsbD 1
  if (kl && !pairValid a 0) || (dyn && !pairValid b 0) then .skip
  else if (kl && pairPsn a 0) || (dyn && pairPsn b 0) then
    .fault cPoisonedOperand ((pairEls 0).filter fun i => (kl && (laneAt a i).poison) || (dyn && (laneAt b i).poison))
  else if dyn && decide (2 ^ 20 ≤ pairVal b 0) then .fault cNoCairn (pairEls 0)
  else .ok (if dyn then pairVal b 0 else field n.lit 19 0) (BitVec.ofNat 64 (if kl then pairVal a 0 else field n.lit 31 20))

/-- CADD. -/
def execCaddNode (n : NodeRec) (s : State) : Host.Outcome State Fault Refusal :=
  fireNode s n (latency 0x2C0 n) 0 fun s x =>
    let t := x.fwd n
    let t' := { t with flags := { t.flags with compl := true } }
    match x.cairnOps n with
    | .fault c es => .fault s (x.elemFault s c 0 es 0)
    | .skip => .fired s (toBoth t') 0
    | .ok c k => .fired (s.cairnAddBy x.key c k (x.tapRec s)) (toBoth t') 0

/-- CWAIT: it ends at a point at which the cairn has reached its threshold; until then the wait is pending (R196). -/
def execCwaitNode (n : NodeRec) (s : State) : Host.Outcome State Fault Refusal :=
  fireNode s n (latency 0x2C1 n) 0 fun s x =>
    if x.f.begun then .fired s (toBoth (x.fwd n)) 0
    else
      match x.cairnOps n with
      | .fault c es => .fault s (x.elemFault s c 0 es 0)
      | .skip => .fired s (toBoth (x.fwd n)) 0
      | .ok c w =>
        if w.toNat ≤ (s.cairn.val c).toNat then .fired s (toBoth (x.fwd n)) 0
        else .stay ({ s with cairn := { s.cairn with waits := s.cairn.waits ++ [(⟨c, w, x.who⟩ : CWait)] } }.putFiring x { x.f with st := .cairn })

/-! ### Belays (R431, R198, R454) -/

/-- The belay BIN sends with a contender. -/
def belayTok (itag : BitVec 32) : Token := ⟨0, 0, 0, .left, itag, noLoff, { Flags.none with permit := true }, noLanes, 0⟩

/-- BIN: the queue of contenders in `buf`, of belays in `buf2`; their heads pair. A contender operand that is no token is always there. -/
def execBin (n : NodeRec) (s : State) : Host.Outcome State Fault Refusal :=
  fireNode s n (latency 0x2C2 n) 0 fun s x =>
    let unm : BitVec 10 := if x.f.r.any fun t => !t.flags.permit then fUNM else 0
    let belays := x.inst.buf2 ++ x.f.r.toList.filter fun t => t.flags.permit
    if n.lsrc = .token then
      match x.inst.buf ++ x.f.l.toList, belays with
      | c :: cs, _ :: bs => .fired (s.putInst x { x.inst with buf := cs, buf2 := bs }) [(0, c), (1, belayTok c.itag)] unm
      | cs, bs => .fired (s.putInst x { x.inst with buf := cs, buf2 := bs }) [] unm
    else
      .fired (s.putInst x { x.inst with buf2 := [] }) (belays.flatMap fun b => [(0, { x.fwd n with itag := b.itag }), (1, belayTok b.itag)]) unm

/-- BOUT. -/
def execBout (n : NodeRec) (s : State) : Host.Outcome State Fault Refusal :=
  fireNode s n (latency 0x2C3 n) 0 fun s x =>
    .fired s ((x.f.l.toList.map fun t => (0, t)) ++ x.f.r.toList.map fun t => (1, { t with flags := { t.flags with permit := false } })) 0

/-! ### Taps and votes (R432, R433, R235) -/

/-- TAP. -/
def execTap (n : NodeRec) (s : State) : Host.Outcome State Fault Refusal :=
  fireNode s n (latency 0x2C4 n) 0 fun s x =>
    let t := x.fwd n
    .fired (if n.mod.getLsbD 0 || t.flags.last then s.cairnAddBy x.key (field n.lit 19 0) 1 (x.tapRec s) else s) (toBoth t) 0

/-- Whether two tokens agree: ITAG, VALID, POISON, payload of valid elements, FLAGS (R235). -/
def agree (a b : Token) : Bool :=
  decide (a.itag = b.itag) && decide (a.flags = b.flags) && decide (a.lanes.length = b.lanes.length) &&
  (a.lanes.zip b.lanes).all fun p => decide (p.1.valid = p.2.valid) && decide (p.1.poison = p.2.poison) && (!p.1.valid || decide (p.1.val = p.2.val))

/-- What VOTE does with the token of a copy, given those of the same ITAG before it: the token forwarded, the copy that disagrees, or no majority. -/
inductive VoteRes where
  | hold
  | pass (t : Token) (odd : Option Nat)
  | none
  deriving DecidableEq, Repr

def voteOn (before : List Token) (t : Token) : VoteRes :=
  match before with
  | [] => .hold
  | [a] => if agree a t then .pass t none else .hold
  | a :: b :: _ =>
    if agree a b then (if agree a t then .hold else .pass t (some t.copy))
    else if agree a t then .pass t (some b.copy)
    else if agree b t then .pass t (some a.copy)
    else .none

/-- VOTE: tokens of the three copies by ITAG in `buf`. -/
def execVote (n : NodeRec) (s : State) : Host.Outcome State Fault Refusal :=
  fireNode s n (latency 0x2C5 n) 0 fun s x =>
    match x.f.l with
    | none => .fired s (toBoth (x.fwd n)) 0
    | some t =>
      let mine := fun (u : Token) => decide (u.itag = t.itag)
      let before := x.inst.buf.filter mine
      let third := decide (2 ≤ before.length)
      let s1 := s.putInst x { x.inst with
        buf := if third then x.inst.buf.filter fun u => !mine u else x.inst.buf ++ [t]
        buf2 := if third then x.inst.buf2.filter fun u => !mine u else x.inst.buf2 }
      let odd := fun c => s1.faultToken x.key (x.faultRec s cVoteDisagree 0 0 0 0 (BitVec.ofNat 64 c) 0)
      match voteOn before t with
      | .hold => .fired s1 [] 0
      | .pass _ (some c) => if (match before with
          | a :: b :: _ => agree a b
          | _ => false) then .fired (odd c) [] 0 else .fired (odd c) (toBoth t) 0
      | .pass _ none => .fired s1 (toBoth t) 0
      | .none => .fault s1 (x.rec0 s cNoMajority 0)

/-! ### Traps and breaks (R434, R445, R446, R239) -/

/-- Elements of the left token that are valid and selected (R446). -/
def Site.trapEls (x : Site) (n : NodeRec) : List Nat :=
  let a := x.opA n n.fmt
  (List.range 16).filter fun i => (laneAt a i).valid && x.sel n i

/-- TRAP. -/
def execTrapNode (n : NodeRec) (s : State) : Host.Outcome State Fault Refusal :=
  fireNode s n (latency 0x300 n) 0 fun s x =>
    if x.selected n then .fault s (x.elemFault s cTrap (field n.lit 3 0) (x.trapEls n) 0) else .fired s [] 0

/-- BRK: forwards, then its region halts in place. -/
def execBrk (n : NodeRec) (s : State) : Host.Outcome State Fault Refusal :=
  fireNode s n (latency 0x301 n) 0 fun s x =>
    let s1 := if x.selected n && decide (x.rg.run = .running) then s.putRegion x.key { x.rg with run := .brk } else s
    .fired s1 (x.sends n (Out.ofTok (x.fwd n))) 0

/-- NOP. -/
def execNop (n : NodeRec) (s : State) : Host.Outcome State Fault Refusal :=
  fireNode s n (latency 0x304 n) 0 fun s x => .fired s (x.sends n (Out.ofTok (x.fwd n))) 0

/-! ### Traces (R238, R435) -/

/-- A trace record: token header, place, CYCLE. -/
def Site.traceRec (x : Site) (t : Token) : List Byte :=
  let t' := { t with ctx := x.rg.ctx, bslot := x.f.bslot, node := x.f.node, port := .left }
  leBytes 20 t'.header ++ leBytes 4 (x.rg.part + x.tile % 16 * 16 + x.tile / 16 % 8 * 256 + x.f.pe * 2048 + x.f.node * 65536) ++ leBytes 8 x.rg.cycle.toNat

/-- The base of a TRACE node's ring; none where it breaks a rule or is not yet held. -/
def Site.ring (x : Site) (n : NodeRec) : Option Nat :=
  match x.heldR with
  | none => none
  | some t =>
    match baseCheck t.lanes true with
    | .at pa =>
      let page := basePage t.lanes
      if pa % 64 = 0 ∧ (pa + 64 + 32 * 2 ^ field n.lit 3 0 - 1) / page = pa / page then some pa else none
    | _ => none

/-- A store of a TRACE node, at its home here or sent to a remote one; none where it cannot be made. -/
def State.traceStore (s : State) (ctx pa : Nat) (bs : List Byte) : Option State :=
  let t := s.target ctx pa
  if s.storeCow ctx pa then none
  else if s.isLocal t then some (s.storeNow t bs false).1
  else match s.request 2 (devOf t) (t / 64 * 64) ctx (sectorMask t bs.length) 0
      (memBody (sectorBytes (List.replicate 64 0) (t % 64) bs) (sectorMask t bs.length) s.mem.pts t false) .scc with
    | .ok s' => some s'
    | _ => none

/-- RCNT read again; what a remote ring's software has stored there is a free value. -/
def State.traceRcnt (s : State) (ctx pa : Nat) : Nat × State :=
  let t := s.target ctx (pa + 8)
  if s.isLocal t then (match s.loadNow t 8 with
    | (bs, _, s1) => (leNat bs, s1))
  else (Config.freeWord s.draws, s.drawn)

/-- Counters a TRACE node keeps: WCNT, RCNT as last read, DROPS. -/
def State.traceOne (s : State) (x : Site) (n : NodeRec) (t : Token) : State × NodeInst :=
  let w := x.inst.loffs.getD 0 0
  let r := x.inst.loffs.getD 1 0
  let d := x.inst.loffs.getD 2 0
  let cap := 2 ^ field n.lit 3 0
  match x.ring n with
  | none => (s, { x.inst with loffs := [w, r, d + 1] })
  | some pa =>
    let (r', s1) := if w - r < cap then (r, s) else s.traceRcnt x.rg.ctx pa
    let drop := fun (s' : State) => ((s'.traceStore x.rg.ctx (pa + 16) (leBytes 8 (d + 1))).getD s', { x.inst with loffs := [w, r', d + 1] })
    if w - r' < cap then
      match s1.traceStore x.rg.ctx (pa + 64 + 32 * (w % cap)) (x.traceRec t) with
      | none => drop s1
      | some s2 => ((s2.traceStore x.rg.ctx pa (leBytes 8 (w + 1))).getD s2, { x.inst with loffs := [w + 1, r', d] })
    else drop s1

/-- TRACE. -/
def execTrace (n : NodeRec) (s : State) : Host.Outcome State Fault Refusal :=
  fireNode s n (latency 0x302 n) 0 fun s x =>
    let t := x.fwd n
    match s.traceOne x n t with
    | (s1, i) => .fired (s1.putInst x i) (toBoth t) 0

/-! ### Error fences (R436, R418) -/

/-- Whether a token is a completion token with ERR 1, and the address it reports. -/
def complErr (t : Token) : Option Nat :=
  if t.flags.compl && (laneAt t.lanes 0).valid && (laneAt t.lanes 0).val.getLsbD 0 then some (pairVal t.lanes 1) else none

/-- EFENCE. -/
def execEfenceNode (n : NodeRec) (s : State) : Host.Outcome State Fault Refusal :=
  fireNode s n (latency 0x303 n) 0 fun s x =>
    let toks := x.dataToks n true
    match toks.filterMap complErr with
    | [] => .fired s (x.sends n (x.complOut n [])) 0
    | e :: es => .fault s (x.faultRec s cPendingError 0 0 0 (BitVec.ofNat 64 (es.foldl min e)) 0 0)

end Sys2Proof.Machine
end

