-- ==== Sys2Proof/Machine/EvMap.lean ====
section
/-! DEFINITION. Mapping a fabric block: the mapper's checks, placement, refusal (R94, R96, R97, R125, R132, R134, R193, R235, R262, R275 to R277, R282, R283,
R286, R287, R300, R351, R374, R378, R393, R398, R405, R408, R417, R433). -/

namespace Sys2Proof.Machine

/-! ### Fields of records as they stand -/

/-- A target field of a record. -/
def rawTarget (x : Rec96) (k : Nat) : Target := (Decode.targetOf (x.extractLsb' (if k = 0 then 48 else 32) 16)).getD .unwired

/-- Whether a record has a port that a target may name (R277). -/
def rawHas (x : Rec96) (p : Port) : Bool :=
  match p with
  | .left => decide (x.extractLsb' 70 2 = 0#2)
  | .right => decide (x.extractLsb' 68 2 = 0#2)
  | .pred => decide (x.extractLsb' 66 2 ≠ 0#2)
  | .ctl => true

def Image.hasPort (m : Image) (n : Nat) (p : Port) : Bool :=
  match m.recs[n]? with
  | some x => rawHas x p
  | none => false

/-- Nodes with a target on a port of a node, once for each target field. -/
def Image.feeders (m : Image) (n : Nat) (p : Port) : List Nat :=
  m.recs.zipIdx.flatMap fun x => ([0, 1].filter fun k => decide (rawTarget x.1 k = .node p (BitVec.ofNat 7 n))).map fun _ => x.2

/-- Load stream bindings of a node's port. -/
def Image.loadsInto (m : Image) (n : Nat) (p : Port) : Bool :=
  m.declList.any fun d => match d with
    | .port _ into _ _ node q _ _ => into && decide (node = n ∧ q = p)
    | _ => false

def Image.ctlWired (m : Image) (n : Nat) : Bool := !(m.feeders n .ctl).isEmpty

/-- Region ports that the block binds, once for each record. -/
def Image.outPorts (m : Image) : List Nat :=
  m.declList.filterMap fun d => match d with
    | .port q into _ _ _ _ _ _ => if into then none else some q
    | .timed q _ _ _ _ => some q
    | _ => none

/-- Region ports that start timed paths. -/
def Image.timedPorts (m : Image) : List Nat :=
  m.declList.filterMap fun d => match d with
    | .timed q _ _ _ _ => some q
    | _ => none

/-- A target against R277. -/
def Image.targetOk (m : Image) : Target → Bool
  | .unwired => true
  | .node p n => m.hasPort n.toNat p
  | .region q => m.outPorts.contains q.toNat

/-! ### Checks of nodes -/

/-- The instruction of node `n` with its operation and fields, where the record is one. -/
def Image.node (m : Image) (n : Nat) : Option (Instr × Nat × NodeRec) :=
  (m.recs[n]?.bind nodeRecOf).map fun p => (p.1, p.2.1.op, p.2.2)

/-- R393 of a QCVT. -/
def Image.qcvtOk (m : Image) (i : Nat) (n : NodeRec) : Bool :=
  let blk := field n.lit 8 0
  let vs := 32 / Rules.fmtWidth (Rules.srcFmt n)
  let vt := 32 / Rules.fmtWidth n.fmt
  !m.loadsInto i .left && !m.loadsInto i .right &&
  match m.feeders i .left, m.feeders i .right with
  | [d], [q] =>
    (match m.node d with
      | some (.delay f, _, _) => f.mod.getLsbD 0 && decide (field f.lit 8 0 = blk)
      | _ => false) &&
    (match m.node q with
      | some (.qmax f, _, _) => decide (field f.lit 8 0 = blk ∧ f.fmt = n.fmt ∧ field f.mod 3 0 = field n.mod 3 0)
      | _ => false) &&
    !m.loadsInto d .left && !m.loadsInto q .left &&
    (match m.feeders d .left, m.feeders q .left with
      | [a], [b] => decide (a = b) && match m.node a with
        | some (.fan f, _, _) => !f.mod.getLsbD 0
        | _ => false
      | _, _ => false) &&
    decide (blk % (vt / vs) = 0) &&
    (decide (n.fmt ≠ .a8 ∧ n.fmt ≠ .a4) || decide (16 * vs * blk = 32 ∨ 16 * vs * blk = 64 ∨ 16 * vs * blk = 128))
  | _, _ => false

/-- R405 of an MREC. -/
def Image.mrecOk (m : Image) (i : Nat) (n : NodeRec) : Bool :=
  match n.t0 with
  | .node .left d => match m.node d.toNat with
    | some (.delay f, _, _) => !f.mod.getLsbD 0 && decide (f.t0 = .node .left (BitVec.ofNat 7 i)) && decide (f.t1 = .unwired)
    | _ => false
  | _ => false

/-- The rules of single nodes that look at the block: control ports, `.iter` rank, feeds (R351, R357, R375, R381, R393, R398, R405, R417, R433). -/
def Image.nodeFits (m : Image) (i : Nat) (ins : Instr) : Bool :=
  let rank := m.widths.length
  match ins with
  | .stx _ => m.ctlWired i
  | .ffma n => !n.mod.getLsbD 0 || m.ctlWired i
  | .mrow n => !n.mod.getLsbD 0 || m.ctlWired i
  | .scacc n => !n.mod.getLsbD 4 || m.ctlWired i
  | .idx n => decide (field n.mod 1 0 < rank)
  | .tag n => decide (field n.mod 1 0 ≠ 1) || decide (field n.mod 3 2 < rank)
  | .qcvt n => m.qcvtOk i n
  | .mrec n => m.mrecOk i n
  | .vote _ => (m.feeders i .left).any fun k => (m.tmrOf k).isSome
  | _ => true

/-- Whether node `i` passes the mapper's checks of its record. -/
def Image.nodeOk (m : Image) (i : Nat) : Bool :=
  match m.node i with
  | none => false
  | some (ins, _, n) => m.targetOk n.t0 && m.targetOk n.t1 && needsOk ins m.hdr.freq && m.nodeFits i ins

/-! ### Checks of declarations (R282) -/

/-- Whether no two ranges overlap. -/
def rangesApart : List (Nat × Nat) → Bool
  | [] => true
  | a :: t => (t.all fun b => decide (a.2 < b.1 ∨ b.2 < a.1)) && rangesApart t

/-- A declaration against the rules that concern it alone. -/
def Image.declOk (m : Image) (d : Decode.Decl) : Bool :=
  match d with
  | .stmt1 .. | .stmt2 .. => false
  | .port q into kind _ node p _ _ => !into || (decide (q = 0 ∧ kind = 0) && m.hasPort node p)
  | .policy b lo hi => decide (lo ≤ hi ∧ hi ≤ m.hdr.ncnt) && decide (field b 3 2 ≠ 3)
  | .tmr lo hi => decide (lo ≤ hi ∧ hi ≤ m.hdr.ncnt) && m.hdr.freq.testBit 10
  | .iter ws clean => clean && decide (ws.sum ≤ 32)
  | .tap n t _ => match m.recs[n]? with
    | some x => decide (rawTarget x (if t then 1 else 0) ≠ .unwired)
    | none => false
  | .timed _ _ n node p => decide (1 ≤ n) && m.hasPort node p

/-- The tile of a region that lies some hops from another. -/
def Region.hopTile (r : Region) (t dirn n : Nat) : Option Nat :=
  match dirn with
  | 0 => if t % r.w + n < r.w then some (t + n) else none
  | 1 => if n ≤ t % r.w then some (t - n) else none
  | 2 => if t / r.w + n < r.hgt then some (t + n * r.w) else none
  | _ => if n ≤ t / r.w then some (t - n * r.w) else none

/-- Whether every instance of a unit has the receiving tile of each timed path in its mask. -/
def timedReach (r : Region) (b : Bif) : Bool :=
  b.image.declList.all fun d => match d with
    | .timed _ dirn n _ _ => ((List.range r.size).filter fun t => b.mask.getLsbD t).all fun t => match r.hopTile t dirn n with
      | some u => b.mask.getLsbD u
      | none => false
    | _ => true

/-- Whether a unit's declarations pass. -/
def declsOk (r : Region) (b : Bif) : Bool :=
  let m := b.image
  let pol := m.declList.filterMap fun d => match d with
    | .policy _ lo hi => some (lo, hi)
    | _ => none
  let tmr := m.declList.filterMap fun d => match d with
    | .tmr lo hi => some (lo, hi)
    | _ => none
  let iters := m.declList.filter fun d => match d with
    | .iter .. => true
    | _ => false
  decide (m.declList.length = m.decls.length) && m.declList.all m.declOk && rangesApart pol && rangesApart tmr &&
    decide (iters.length ≤ 1) && decide m.outPorts.Nodup && timedReach r b

/-! ### What cannot be placed (R125, R132, R374) -/

/-- Whether a node leaves a fixed number of cycles after it fires (Table 5.7). -/
def fixedLatency (op : Nat) (n : NodeRec) : Bool :=
  !(decide (op = 0x85 ∨ op = 0x86 ∨ op = 0x8B ∨ op = 0x180 ∨ op = 0x184 ∨ 7 ≤ op / 64) || (decide (op = 0x8C) && n.mod.getLsbD 0))

/-- Nodes at the ends of declared timed paths. -/
def Image.onTimed (m : Image) (i : Nat) : Bool :=
  (match m.recs[i]? with
    | some x => [0, 1].any fun k => match rawTarget x k with
      | .region q => m.timedPorts.contains q.toNat
      | _ => false
    | none => false) ||
  m.declList.any fun d => match d with
    | .timed _ _ _ node _ => decide (node = i)
    | _ => false

/-- Whether a target of a node lies on a timed arc: in the tile, or a timed path; not between copies on distinct tiles. -/
def timedTarget (m : Image) (tiles i : Nat) : Target → Bool
  | .unwired => true
  | .region q => m.timedPorts.contains q.toNat
  | .node _ n => decide (tiles < 3) || decide (m.tmrOf i = m.tmrOf n.toNat)

/-- Whether an elastic arc feeds a port of a node: a load stream, or a node whose copies stand on other tiles (R131, R235). -/
def elasticInto (m : Image) (tiles i : Nat) (p : Port) : Bool :=
  m.loadsInto i p || (decide (3 ≤ tiles) && (m.feeders i p).any fun k => decide (m.tmrOf k ≠ m.tmrOf i))

/-- Whether a node stands where R132 or R374 refuses it. -/
def misplaced (m : Image) (tiles i op : Nat) (n : NodeRec) : Bool :=
  (m.onTimed i && (!fixedLatency op n || [Port.left, .right, .pred, .ctl].any (elasticInto m tiles i))) ||
  (decide (op = 0x8C) && !n.mod.getLsbD 0 && !(timedTarget m tiles i n.t0 && timedTarget m tiles i n.t1))

/-- A PE as the mapper counts it: slots taken, policy, and exclusion: 0 shared, 1 a node alone, above the accumulator it serves. -/
structure PeUse where
  used : Nat
  policy : BitVec 8
  excl : Nat
  deriving DecidableEq, Repr

/-- Exclusion of a node (R97, R408). -/
def exclOf (m : Image) (bslot i copy : Nat) (op : Nat) (n : NodeRec) : Nat :=
  if op / 64 = 7 then 2 + (bslot * 4 + copy) * 8 + field n.mod 7 5
  else if op = 0x8C || m.onTimed i then 1 else 0

/-- A PE of a tile with what is mapped on it. -/
def peUse (rg : Region) (p : Pe) : PeUse :=
  ⟨p.slots.length, p.policy, (p.slots.map fun e => match tget rg.blocks e.2.bslot with
    | some b => match b.image.node e.2.node with
      | some (_, op, n) => exclOf b.image e.2.bslot e.2.node e.2.copy op n
      | none => 0
    | none => 0).foldl max 0⟩

/-- Whether a node can go to a PE. -/
def PeUse.takes (u : PeUse) (pol : BitVec 8) (excl : Nat) : Bool :=
  decide (u.used < 64) && (decide (u.used = 0) || (decide (u.policy = pol) && decide (u.excl = excl ∧ excl ≠ 1)))

/-- Where a copy of a node stands. -/
structure Placed where
  tile : Nat
  node : Nat
  copy : Nat
  pe : Nat
  deriving DecidableEq, Repr

/-- What is placed: the copies of node `i` of every instance of a unit. -/
def nodeCopies (m : Image) (ts : List Nat) (i : Nat) : List (Nat × Nat) :=
  if (m.tmrOf i).isSome then ts.flatMap fun h => [0, 1, 2].map fun c => (copyTile ts h c, c) else ts.map fun h => (h, 0)

/-- Use of a PE, by its key. -/
def useOf (base : Nat → Nat → PeUse) (t : Tab PeUse) (tile pe : Nat) : PeUse := tgetD t (tile * 32 + pe) (base tile pe)

/-- The PE for one copy of a node: the lowest-numbered one that takes it; the one that serves its accumulator, where one does; for copies on one
tile distinct ones; the MPE for group 6. -/
def pePick (base : Nat → Nat → PeUse) (fenced : Nat → Nat → Bool) (m : Image) (bslot i : Nat) (op : Nat) (n : NodeRec) (done : List Placed) (t : Tab PeUse)
    (tile copy : Nat) : Option Nat :=
  if op / 64 = 6 then (if (useOf base t tile 17).used < 64 then some 17 else none)
  else
    let e := exclOf m bslot i copy op n
    let pes := (List.range 17).filter fun p => decide (p < 16) && !fenced tile p && !done.any fun q => decide (q.tile = tile ∧ q.node = i ∧ q.pe = p)
    match if 2 ≤ e then pes.find? fun p => decide ((useOf base t tile p).excl = e ∧ 0 < (useOf base t tile p).used) else none with
    | some p => if (useOf base t tile p).takes (m.policyOf i) e then some p else none
    | none => pes.find? fun p => (useOf base t tile p).takes (m.policyOf i) e

/-- Places the copies of one node. -/
def placeCopies (base : Nat → Nat → PeUse) (fenced : Nat → Nat → Bool) (m : Image) (bslot i : Nat) (op : Nat) (n : NodeRec) :
    List (Nat × Nat) → List Placed → Tab PeUse → Option (List Placed × Tab PeUse)
  | [], done, t => some (done, t)
  | (tile, copy) :: cs, done, t =>
    match pePick base fenced m bslot i op n done t tile copy with
    | none => none
    | some p =>
      let u := useOf base t tile p
      placeCopies base fenced m bslot i op n cs (done ++ [⟨tile, i, copy, p⟩])
        (tput t (tile * 32 + p) ⟨u.used + 1, if u.used = 0 then m.policyOf i else u.policy, exclOf m bslot i copy op n⟩)

/-- Places nodes in ascending order; the first that has no place. -/
def placeNodes (base : Nat → Nat → PeUse) (fenced : Nat → Nat → Bool) (m : Image) (bslot : Nat) (ts : List Nat) :
    List Nat → List Placed → Tab PeUse → Except Nat (List Placed)
  | [], done, _ => .ok done
  | i :: is, done, t =>
    match m.node i with
    | none => .error i
    | some (_, op, n) =>
      match placeCopies base fenced m bslot i op n (nodeCopies m ts i) done t with
      | some (done', t') => placeNodes base fenced m bslot ts is done' t'
      | none => .error i

/-- Delay store entries a unit needs on a tile. -/
def delayNeed (m : Image) (ts : List Nat) (tile : Nat) : Nat :=
  ((List.range (m.hdr.ncnt + 1)).map fun i => match m.node i with
    | some (.delay n, _, _) => ((nodeCopies m ts i).filter fun c => decide (c.1 = tile)).length * field n.lit 8 0
    | _ => 0).sum

/-! ### The mapper's verdict -/

/-- What the mapper answers: a refusal with code and node, a wait, or the places. -/
inductive MapRes where
  | refuse (code node : Nat)
  | wait
  | ok (ps : List Placed)
  deriving DecidableEq, Repr

/-- Whether an engine bound to an earlier unit of a tile has not drained (R193). -/
def Region.tileDraining (r : Region) (b : Bif) : Bool :=
  r.engines.any fun e => match e.unit with
    | none => false
    | some u => match tget r.blocks u with
      | some c => decide (c.order < b.order) && decide (c.mask &&& b.mask ≠ 0)
      | none => false

def State.mapUnit (s : State) (rg : Region) (bslot : Nat) (b : Bif) : MapRes :=
  let m := b.image
  let ts := maskTiles rg b
  let all := List.range (m.hdr.ncnt + 1)
  let timed := !m.timedPorts.isEmpty
  let fenced := fun tile p => (s.tile tile).fenced.contains p
  if !featsIn m.hdr.freq (s.diefeat (dieOf rg.part)) then .refuse cAbsentFeature 0
  else if timed && decide (m.hdr.timing ≠ 1) then .refuse cIllegalNode 0
  else
    match all.find? fun i => !m.nodeOk i with
    | some i => .refuse cIllegalNode i
    | none =>
      if !declsOk rg b then .refuse cIllegalNode 0
      else
        match all.find? fun i => match m.node i with
          | some (_, op, n) => misplaced m ts.length i op n
          | none => false with
        | some i => .refuse cUnplaceable i
        | none =>
          if ts.any fun t => decide (1024 < delayNeed m ts t) then
            .refuse cUnplaceable ((all.find? fun i => match m.node i with
              | some (.delay _, _, _) => true
              | _ => false).getD 0)
          else
            match placeNodes (fun _ _ => ⟨0, 0, 0⟩) fenced m bslot ts all [] [] with
            | .error i => .refuse cUnplaceable i
            | .ok _ =>
              if rg.tileDraining b || (ts.any fun t => decide (1024 < (s.tile t).delayUsed + delayNeed m ts t)) then .wait
              else
                match placeNodes (fun tile p => peUse rg ((s.tile tile).pe p)) fenced m bslot ts all [] [] with
                | .error _ => .wait
                | .ok ps => .ok ps

/-! ### Mapping -/

/-- A node record as it maps: no state but the belay that BIN's INIT gives. -/
def NodeInst.fresh (ctx bslot node copy : Nat) (bits : Rec96) (ctlPort : Bool) : NodeInst where
  ctx := ctx
  bslot := bslot
  node := node
  copy := copy
  bits := bits
  word := 0
  heldL := none
  heldR := none
  ctlPort := ctlPort
  tear := []
  tearing := false
  leaving := none
  stopped := false
  ctlToks := 0
  buf := []
  buf2 := match nodeRecOf bits with
    | some (.bin n, _, _) => if n.mod.getLsbD 0 then [belayTok 0] else []
    | _ => []
  lanes := []
  loffs := []
  hi := 0
  lo := 0
  base := 0
  name := none
  flag := false
  hist := []

/-- One copy of a node mapped; a node with no port to wait for fires its once (R128). -/
def State.mapNode (s : State) (rg : Region) (bslot : Nat) (m : Image) (q : Placed) : State :=
  match m.recs[q.node]?, m.node q.node with
  | some bits, some (i, op, n) =>
    let t := s.tile q.tile
    let p := t.pe q.pe
    let slot := ((List.range 64).find? fun k => (tget p.slots k).isNone).getD 0
    let x := NodeInst.fresh rg.ctx bslot q.node q.copy bits (m.ctlWired q.node)
    let p1 : Pe := { p with
      slots := tput p.slots slot x
      policy := if q.pe = 17 then 0 else if p.slots.isEmpty then m.policyOf q.node else p.policy
      acc := if op / 64 = 7 ∧ p.slots.isEmpty then PolyAcc.blank else p.acc
      shares := []
      dealt := [] }
    let t1 := t.putPe q.pe p1
    let t2 := match i with
      | .delay n => { t1 with delayUsed := t1.delayUsed + field n.lit 8 0 }
      | _ => t1
    s.putTile q.tile (if (tokenPorts i n x.ctlPort).isEmpty && heldReady i n x then t2.addReady fun id => mkFiring x q.pe slot 0 [] s.now id else t2)
  | _, _ => s

/-- A refused block: its entry is freed, the fault enters the queue, its cairn advances with the flag (R286, R300). -/
def State.refuseUnit (s : State) (key : Nat) (rg : Region) (bslot : Nat) (b : Bif) (code node : Nat) : State :=
  let f := rg.faultRec 31 code 0 bslot node b.image.hdr.blkid 0 s.mem.pts
  let free := fun (e : Engine) => if e.unit = some bslot then { e with unit := none } else e
  let s1 := (s.putRegion key { rg with blocks := tdel rg.blocks bslot, engines := rg.engines.map free }).faultToken key f
  let s2 := match b.cairn with
    | some k => s1.advance k true
    | none => s1
  if code = cAbsentFeature then s2.excludeDie rg.ctx (dieOf rg.part) else s2

/-- Whether the control block that issued a unit has not committed yet: the unit is issued by the commit (R299, R187). -/
def Region.uncommitted (r : Region) (b : Bif) : Bool :=
  r.work.any fun w => (tget r.blocks w.slot).any fun c => decide (c.order = b.blockOrder)

/-- FABRIC_BLOCK_MAP: every instance of an issued unit maps, or the block is refused whole. -/
def execFabricBlockMap (key bslot : Nat) (s : State) : Host.Outcome State Fault Refusal :=
  match tget s.regions key with
  | none => .next s
  | some rg =>
    match tget rg.blocks bslot with
    | none => .next s
    | some b =>
      if b.phase ≠ .issued ∨ rg.run ≠ RunState.running ∨ rg.cancelling = true ∨ rg.uncommitted b = true then .next s
      else
        match s.mapUnit rg bslot b with
        | .wait => .next s
        | .refuse code node => .next (s.refuseUnit key rg bslot b code node)
        | .ok ps =>
          let s1 := ps.foldl (fun s' q => s'.mapNode rg bslot b.image q) s
          let s2 := s1.putRegion key { rg with blocks := tput rg.blocks bslot { b with phase := .mapped } }
          .next ((s2.touchImage rg.part rg.ctx (rg.redirected b.addr)).landHeld)

end Sys2Proof.Machine
end

