-- ==== Sys2Proof/Machine/EvLevels.lean ====
section
/-! DEFINITION. Units and launches that complete, and the cairns of what a CANCEL reached (R50, R78, R82 to R85, R106, R177, R194, R219, R236, R331). -/

namespace Sys2Proof.Machine

/-! ### UNIT_COMPLETE (R78, R194, R236) -/

/-- Slots that nodes of a unit hold on some tiles: tile, PE, slot, node. -/
def State.unitNodes (s : State) (ctx bslot : Nat) (ts : List Nat) : List (Nat × Nat × Nat × NodeInst) :=
  ts.flatMap fun t => (s.tile t).pes.flatMap fun p => p.2.slots.filterMap fun e =>
    if e.2.ctx = ctx ∧ e.2.bslot = bslot then some (t, p.1, e.1, e.2) else none

/-- Whether the VOTEs that a TMR group of an instance feeds are gone: every one has forwarded its LAST. -/
def State.votesDone (s : State) (rg : Region) (b : Bif) (bslot home : Nat) (g : Nat × Nat) : Bool :=
  (List.range b.image.recs.length).all fun v => decide (b.image.voteGroup v ≠ some g) || ((s.tile home).findNode rg.ctx bslot v 0).isNone

/-- Whether a node that still stands belongs to a copy that has met a fault, and its group has forwarded its LAST (R236). -/
def State.deadCopy (s : State) (rg : Region) (b : Bif) (bslot tile : Nat) (x : NodeInst) : Bool :=
  match b.image.tmrOf x.node with
  | some g =>
    let home := homeTile (instTiles rg b tile) tile x.copy
    s.copyFaulted rg b bslot home g x.copy && s.votesDone rg b bslot home g
  | none => false

/-- A tile without the nodes, entries, firings and tokens of a unit. -/
def Tile.clearUnit (t : Tile) (ctx bslot : Nat) : Tile :=
  let mine := fun (c b : Nat) => decide (c = ctx ∧ b = bslot)
  let pes := t.pes.map fun p =>
    let slots := p.2.slots.filter fun e => !mine e.2.ctx e.2.bslot
    (p.1, { p.2 with slots := slots, entries := p.2.entries.filter (fun e => !mine e.ctx e.bslot), policy := if slots.isEmpty then 0 else p.2.policy })
  { t with
    pes := pes
    ready := t.ready.filter fun f => !mine f.ctx f.bslot
    chans := t.chans.filter fun c => !(decide (c.dest = .node) && mine c.tok.ctx c.tok.bslot) }

/-- Store stream ports that a block binds. -/
def Image.storePorts (m : Image) : List Nat :=
  m.declList.filterMap fun d => match d with
    | .port _ false 0 sport _ _ _ _ => some sport
    | _ => none

/-- Whether the stores of a unit on a tile are all performed: no token of it is on its way to a store port, and the ports it binds hold none. -/
def State.storesDone (s : State) (b : Bif) (bslot tile : Nat) : Bool :=
  let t := s.tile tile
  !(t.chans.any fun c => (match c.dest with
    | .store _ => true
    | _ => false) && decide (c.src / 1024 % 8 = bslot)) &&
  b.image.storePorts.all fun p => (dataToks (t.stream p).buf).isEmpty && (t.stream p).flight.isEmpty

/-- Whether a unit is complete: every instance, and every replica of it, has torn down, but for copies that a fault stopped; its tokens, stores and
engines are done, and its mergers hold nothing (R100). -/
def State.unitDone (s : State) (rg : Region) (bslot : Nat) (b : Bif) : Bool :=
  let ts := unitTiles rg b bslot
  (((s.splitOf (coreKey rg.part rg.core) bslot).map fun x => x.held.isEmpty).getD true) && ((s.unitNodes rg.ctx bslot ts).all fun e => s.deadCopy rg b bslot e.1 e.2.2.2) &&
  (ts.all fun t => s.storesDone b bslot t &&
    !(s.tile t).chans.any fun c => decide (c.dest = .node ∧ c.tok.ctx = rg.ctx ∧ c.tok.bslot = bslot) &&
      match b.image.tmrOf c.tok.node with
      | some _ => false
      | none => true) &&
  rg.engines.all fun e => decide (e.unit ≠ some bslot)

/-- UNIT_COMPLETE: the entry is free, the completion cairn advances, an idle control core is woken. -/
def execUnitComplete (key bslot : Nat) (s : State) : Host.Outcome State Fault Refusal :=
  match tget s.regions key with
  | none => .next s
  | some rg =>
    match tget rg.blocks bslot with
    | none => .next s
    | some b =>
      if b.phase ≠ .mapped ∨ rg.run ≠ RunState.running ∨ rg.cancelling = true ∨ s.unitDone rg bslot b = false then .next s
      else
        let ts := unitTiles rg b bslot
        let s1 := s.putRegion key { rg with replicas := rg.replicas.filter (fun x => decide (x.bslot ≠ bslot)), blocks := tdel rg.blocks bslot, idle := rg.idle.map fun i => (i.1, i.2.1, true) }
        let s2 : State := { s1 with
          tiles := s1.tiles.map fun e => if ts.contains e.1 then (e.1, e.2.clearUnit rg.ctx bslot) else e
          host := { s1.host with
            splits := s1.host.splits.filter fun x => decide (x.key ≠ key ∨ x.bslot ≠ bslot)
            stages := tdel s1.host.stages (key * 8 + bslot) } }
        .next (match b.cairn with
          | some k => s2.advance k false
          | none => s2)

/-! ### The end of a launch -/

/-- The dirty ranges of stream ports go to the log (R177). -/
def State.depositAll (s : State) (ctx : Nat) (ps : List Stream) : State :=
  ps.foldl (fun s' p => match p.dirty with
    | some (lo, hi) => s'.deposit ctx lo hi false
    | none => s') s

/-- Stream ports of some tiles. -/
def State.streamsOf (s : State) (ts : List Nat) : List Stream := ts.flatMap fun t => (s.tile t).streams.map fun e => e.2

/-- Closes every open allocation buffer of a region. -/
def State.closeBufs (s : State) (key : Nat) (ts : List Nat) : State :=
  let hs := List.range 16
  ts.foldl (fun s' t => hs.foldl (fun s2 h => s2.closeBuf (.tile t) h) s') (hs.foldl (fun s' h => s'.closeBuf (.core key) h) s)

/-- A placed launch is over: its region is free, and it counts. -/
def State.leave (s : State) (lid key : Nat) (rg : Region) (flagged : Bool) : State :=
  let ts := rg.tiles
  (((((s.depositAll rg.ctx (s.streamsOf ts)).closeBufs key ts).releaseWaits key ts)).freeRegion key).endLaunch lid flagged

/-- LAUNCH_COMPLETE: HALT has committed and every unit it issued has completed. -/
def execLaunchComplete (lid : Nat) (s : State) : Host.Outcome State Fault Refusal :=
  match tget s.host.launches lid with
  | none => .next s
  | some l =>
    match l.st with
    | .placed key =>
      match tget s.regions key with
      | none => .next s
      | some rg =>
        if rg.launch ≠ lid ∨ !rg.haltAfter ∨ rg.cancelling ∨ rg.run ≠ RunState.running ∨ rg.work.isSome ∨ !rg.blocks.isEmpty ∨ !rg.engines.isEmpty then .next s
        else .next (s.leave lid key rg false)
    | _ => .next s

/-! ### CANCEL_ADVANCE (R83, R84) -/

/-- The cairns of units that a CANCEL ended advance with the cancelled flag. -/
def State.flagUnits (s : State) (bs : Tab Bif) : State :=
  bs.foldl (fun s' e => match e.2.cairn with
    | some k => s'.advance k true
    | none => s') s

/-- The cairns of engines that a CANCEL ended. -/
def State.flagEngines (s : State) (es : List Engine) : State :=
  es.foldl (fun s' e => match e.cairn with
    | some k => s'.advance k true
    | none => s') s

/-- A parked launch that was cancelled: what it waited for is dropped, its transaction aborted, its cairns advance, its image is free. -/
def State.leaveParked (s : State) (lid pid : Nat) (p : Parked) : State :=
  let r := p.region
  let s1 : State := { s with
    link := { s.link with reqs := s.link.reqs.filter fun q => decide (q.who ≠ .parked pid) }
    host := { s.host with minors := s.host.minors.filter fun m => decide (m.who ≠ .parked pid) }
    parked := tdel s.parked pid }
  let s2 := match some r.launch with
    | some x => s1.txnCancel x
    | none => s1
  let s3 := ((s2.depositAll r.ctx (p.tiles.flatMap fun t => t.2.streams.map fun e => e.2.cancelled)).flagUnits r.blocks).flagEngines r.engines
  (s3.freeImage r.ctx p.image).endLaunch lid true

/-- CANCEL_ADVANCE: once every write of a cancelled launch has reached its home, its units' cairns and then its own advance, flagged. -/
def execCancelAdvance (lid : Nat) (s : State) : Host.Outcome State Fault Refusal :=
  match tget s.host.launches lid with
  | none => .next s
  | some l =>
    if !l.cancelled then .next s
    else
      match l.st with
      | .held | .runnable => .next (s.endLaunch lid true)
      | .placed key =>
        match tget s.regions key with
        | none => .next s
        | some rg =>
          if rg.launch ≠ lid ∨ !rg.cancelling ∨ !rg.engines.isEmpty ∨ (s.link.reqs.any fun q => decide (q.who = .gone key)) = true then .next s
          else .next ((s.flagUnits rg.blocks).leave lid key rg true)
      | .parked pid =>
        match tget s.parked pid with
        | none => .next s
        | some p =>
          if (s.link.reqs.any fun q => decide (q.who = .parked pid ∧ q.typ = 2)) = true then .next s
          else .next (s.leaveParked lid pid p)
      | .ended => .next s

end Sys2Proof.Machine
end

