-- ==== Sys2Proof/Machine/EvFault.lean ====
section
/-! DEFINITION. Fault records that enter the queue, faults that the SCC serves, saves, and errors that checks and ECC find (R87, R91, R95, R168, R174 to
R176, R184, R191, R219, R224, R225, R228 to R233, R453). -/

namespace Sys2Proof.Machine

/-! ### FAULT_TOKEN_ENTRY (R225) -/

/-- What the queue does with one FAULT token: it enters, in the place of the oldest class-11 record where the queue is full; a class-11 one is
then discarded; any other waits (none). The flag says whether a record entered. -/
def Region.offer (r : Region) (f : FaultRec) : Option (Region × Bool) :=
  let lost := min 65535 (r.fqlost + 1)
  if r.queue.length < 16 then some (r.enqueue f, true)
  else if f.cls = 3 then some ({ r with fqlost := lost }, false)
  else if (oldest r.queue 3).isSome then some ({ r with queue := dropClass 3 r.queue, fqlost := lost }.enqueue f, true)
  else none

/-- The first token of a list that need not wait is offered. -/
def Region.offerFirst (r : Region) : List FaultRec → List FaultRec → Region
  | [], _ => r
  | f :: fs, before =>
    match r.offer f with
    | some (r1, entered) => { r1 with faultTokens := before ++ fs, idle := if entered then r1.idle.map fun i => (i.1, i.2.1, true) else r1.idle }
    | none => r.offerFirst fs (before ++ [f])

/-- FAULT_TOKEN_ENTRY. -/
def execFaultTokenEntry (key : Nat) (s : State) : Host.Outcome State Fault Refusal :=
  match tget s.regions key with
  | none => .next s
  | some r => .next (if r.run = .running then s.putRegion key (r.offerFirst r.faultTokens []) else s)

/-! ### Serving a minor fault (R168, R175, R181, R219, R453) -/

/-- The die whose walker and the owner whose buffer an agent uses. -/
def Who.owner : Who → TlbOf
  | .fire t _ | .stream t _ => .tile t
  | .core k | .engine k _ => .core k
  | _ => .core 0

/-- The SCC completes a walk and fills the walker's cache of 1,024 table pointers. -/
def State.fillWalker (s : State) (die ctx va : Nat) : State :=
  let found := (walkFull s.mem ctx va 4 1 (s.root ctx) []).2
  let old := (tgetD s.caches.walkers die []).filter fun e => !found.contains e
  { s with caches := { s.caches with walkers := tput s.caches.walkers die ((found ++ old).take 1024) } }

/-- First touch: a zeroed frame is mapped; in a heap window as one FREE object, its page address used. A page that another fault has had mapped
stays as it is; none where no frame can be had. -/
def State.firstTouch (s : State) (ctx va : Nat) : Option State :=
  let page := va / 65536 * 65536
  if s.pteAt ctx page ≠ .firstTouch then some s
  else
    match s.newFrame with
    | none => none
    | some (f, s1) =>
      if inHeap va then (s1.mapFrame ctx page f true).map fun s2 => (s2.freePage f).usePage ctx page
      else s1.mapFrame ctx page f false

/-- Copy-on-write, met at a virtual address: the page's frame is copied, or, where it has been copied for another fault, its leaf follows the copy;
a page that has moved is copied at its current home, to a frame there that is a free value (R57). A leaf without COW has been served. -/
def State.serveCowVa (s : State) (ctx va : Nat) : Option State :=
  match s.leafAt ctx va with
  | none => some s
  | some (pa, entry) =>
    let t := s.target ctx pa
    if !bitAt (s.mem.word entry) 5 then some s
    else if !s.isLocal t then s.drawn.mapCopy ctx va (devOf t * 2 ^ 40 + Config.frame s.draws % (Config.memBytes / 65536) * 65536)
    else if t / 65536 ≠ pa / 65536 ∧ (s.mem.frame (localOf t)).cow = false then s.mapCopy ctx va (t / 65536 * 65536)
    else s.copyCow ctx (localOf t / 65536 * 65536)

/-- Copy-on-write, met at a virtual address or at a home (R181); one that was served for another fault is served. -/
def State.serveCowAt (s : State) (ctx va pa : Nat) : Option State :=
  if pa = 0 then s.serveCowVa ctx va
  else
    let t := s.target ctx pa
    if s.isLocal t && decide (localOf t < Config.memBytes) && (s.mem.frame (localOf t)).cow then s.copyCow ctx (localOf t / 65536 * 65536) else some s

/-- What the SCC does for a minor fault; none where it cannot serve it. -/
def State.serveMinor (s : State) (m : Minor) : Option State :=
  if m.code = cWalkMiss then some (s.fillWalker m.who.owner.die m.ctx m.va)
  else if m.code = cFirstTouch then s.firstTouch m.ctx m.va
  else if m.code = cCow then s.serveCowAt m.ctx m.va m.pa
  else if m.code = cRefill then s.refill m.who.owner m.ctx m.heap
  else some s

/-- Whether a record of class 01 was made for an agent's fault. -/
def recordOfMinor (s : State) (m : Minor) (f : FaultRec) : Bool :=
  decide (f.cls = 1 ∧ f.code = m.code) &&
  match m.who with
  | .fire tile id => decide (f.x = tile % 16 ∧ f.y = tile / 16 % 8) && (s.tile tile).ready.any fun g =>
      decide (g.id = id ∧ f.agent = g.pe ∧ f.bslot = g.bslot ∧ f.node = g.node ∧ f.itag = g.itag)
  | .stream tile _ => decide (f.agent = 18 ∧ f.x = tile % 16 ∧ f.y = tile / 16 % 8 ∧ f.addr.toNat = m.va)
  | .engine .. => decide (f.agent = 19 ∧ f.addr.toNat = m.va)
  | _ => false

/-- The first record of a list that meets a test changed, or dropped. -/
def changeFirst (p : FaultRec → Bool) (g : FaultRec → Option FaultRec) : List FaultRec → List FaultRec
  | [] => []
  | f :: fs => if p f then (g f).toList ++ fs else f :: changeFirst p g fs

/-- The record of a minor fault changed, or dropped, where it stands: in the queue, or still on its way. -/
def State.changeRecord (s : State) (m : Minor) (g : FaultRec → Option FaultRec) : State :=
  match tget s.regions m.key with
  | none => s
  | some r =>
    let p := recordOfMinor s m
    if r.queue.any p then s.putRegion m.key { r with queue := changeFirst p g r.queue }
    else s.putRegion m.key { r with faultTokens := changeFirst p g r.faultTokens }

/-- The agent that met a minor fault makes its access again. -/
def State.release (s : State) (who : Who) : State :=
  match who with
  | .core key =>
    match tget s.regions key with
    | some r => s.putRegion key { r with minor := false }
    | none => s
  | .fire tile id =>
    let t := s.tile tile
    s.putTile tile { t with ready := t.ready.map fun f => if f.id = id then { f with st := .ready } else f }
  | .stream tile port =>
    let t := s.tile tile
    s.putTile tile (t.putStream port { t.stream port with minor := false })
  | .engine key id =>
    match tget s.regions key with
    | some r => s.putRegion key { r with engines := r.engines.map fun e => if e.id = id then { e with minor := false } else e }
    | none => s
  | _ => s

/-- A minor fault no longer pending. -/
def State.dropMinor (s : State) (idx : Nat) : State := { s with host := { s.host with minors := ldrop s.host.minors idx } }

/-- MINOR_FAULT_SERVED: the fault is served, its record retired, its agent released; one that the SCC cannot serve stays pending (R174). -/
def execMinorFaultServed (idx : Nat) (s : State) : Host.Outcome State Fault Refusal :=
  match s.host.minors[idx]? with
  | none => .next s
  | some m =>
    if codeClass m.code ≠ 1 ∨ (match m.who with
        | .parked _ => true
        | _ => false) = true then .next s
    else
      match (s.dropMinor idx).serveMinor m with
      | some s1 => .next ((s1.changeRecord m fun _ => none).release m.who)
      | none => .next s

/-! ### BUDGET_EXCEEDED (R174) -/

/-- Cycles of a region's budget: FWB in microseconds at 2,400 cycles each. -/
def Region.budget (r : Region) : Nat := r.fwb.toNat * 2400

/-- BUDGET_EXCEEDED: a minor fault unserved within FWB becomes major; a record it made becomes the class-10 one. -/
def execBudgetExceeded (idx : Nat) (s : State) : Host.Outcome State Fault Refusal :=
  match s.host.minors[idx]? with
  | none => .next s
  | some m =>
    match tget s.regions m.key with
    | none => .next s
    | some r =>
      let parked := match m.who with
        | .parked _ => true
        | _ => false
      if codeClass m.code ≠ 1 ∨ parked = true ∨ r.run ≠ RunState.running ∨ r.cancelling = true ∨ s.now < m.since + r.budget then .next s
      else
        let s1 := s.changeRecord m fun f => some { f with cls := 2, code := cBudget }
        .next (match tget s1.regions m.key with
          | some r1 => s1.putRegion m.key { r1 with run := .major cBudget }
          | none => s1)

/-! ### MAJOR_FAULT_SAVE (R176, R179) -/

/-- Whether a pending fault keeps a region from going on until it has been saved: a page not resident, or a minor fault past its budget. -/
def Minor.major (m : Minor) (key : Nat) (r : Region) (now : Nat) : Bool :=
  decide (m.key = key) && (match m.who with
    | .parked _ => false
    | _ => true) &&
  (decide (codeClass m.code = 2) || (decide (r.run = .major cBudget) && decide (m.since + r.budget ≤ now)))

/-- Told to the host once. -/
def State.reportOnce (s : State) (x : Report) : State := if s.dev.reports.contains x then s else s.report x

/-- The control core a region may not resume on: that whose state failed (R232). -/
def Region.badCore (r : Region) (key : Nat) : Option Nat := if r.run = .major cUncorrectable then some key else none

/-- MAJOR_FAULT_SAVE: the region halts, finishes what it had begun, and is saved to its context's save area; where that has no room it stays halted in place. -/
def execMajorFaultSave (key : Nat) (s : State) : Host.Outcome State Fault Refusal :=
  match tget s.regions key with
  | none => .next s
  | some r =>
    let due := match r.run with
      | .major _ => true
      | .running | .brk => s.host.minors.any fun m => m.major key r s.now
      | _ => false
    if !due || r.cancelling then .next s
    else
      let lid := r.launch
      let code := match r.run with
        | .major c => c
        | _ => cNotResident
      let mine := fun (m : Minor) => if m.major key r s.now then { m with who := .parked lid } else m
      let s1 := { s with host := { s.host with minors := s.host.minors.map mine } }.haltRegion key (.major code)
      let waits := s1.host.minors.any fun m => decide (m.who = .parked lid)
      match tget s1.regions key with
      | none => .next s1
      | some r1 =>
        if !(s1.haltTurns key r1).isEmpty then .next s1
        else match s1.takeImage r1 with
        | some (a, s2) => .next (s2.park key lid none (some a) (!waits) (r.badCore key))
        | none => .next (s1.reportOnce (.saveFull lid))

/-! ### MAJOR_FAULT_SERVED (R176) -/

/-- A page made resident: a frame with what the page held, under a leaf of heap class in a heap window; W and X are free choices. One that another
region's fault has made resident stays as it is; none where no frame can be had. -/
def State.makeResident (s : State) (ctx va : Nat) : Option State :=
  let page := va / 65536 * 65536
  let w := s.choice 2
  let x := s.drawn.choice 2
  if s.pteAt ctx page ≠ .notResident then some s
  else
    match s.drawn.drawn.newFrame with
    | none => none
    | some (f, s1) =>
      let s2 := { s1 with mem := fillFree 8192 s1.mem f s1.draws, draws := s1.draws + 8192 }
      if inHeap va then s2.mapFrame ctx page f true
      else (s2.mapLeaf page (BitVec.ofNat 64 (s.dev.devNum * 2 ^ 40 + f + 0x43 + w * 4 + x * 8)) 4 1 (s2.root ctx)).map fun s3 => s3.invalidate ctx

/-- A fault for which a region was saved, served; an allocation buffer is refilled by the resumed region's first HNEW (R219). -/
def State.serveMajor (s : State) (m : Minor) : Option State :=
  if m.code = cNotResident then s.makeResident m.ctx m.va
  else if m.code = cRefill then some s
  else s.serveMinor { m with who := .core m.key }

/-- Faults of a saved region served one after the other; none where one of them cannot be. -/
def State.serveAll : List Minor → State → Option State
  | [], s => some s
  | m :: ms, s => (s.serveMajor m).bind (State.serveAll ms)

/-- MAJOR_FAULT_SERVED: the pages a saved region waits for are made resident, and it may resume; or *page lost* is told. -/
def execMajorFaultServed (pid : Nat) (resident : Bool) (s : State) : Host.Outcome State Fault Refusal :=
  let mine := s.host.minors.filter fun m => decide (m.who = .parked pid)
  match tget s.parked pid with
  | none => .next s
  | some p =>
    let s0 : State := { s with host := { s.host with minors := s.host.minors.filter fun m => decide (m.who ≠ .parked pid) } }
    if p.resident then .next s
    else
      match if resident then State.serveAll mine s0 else none with
      | some s1 => .next { s1 with parked := tput s1.parked pid { p with resident := true } }
      | none => .next (mine.foldl (fun s' m => s'.reportOnce (.pageLost m.ctx m.va)) s)

/-! ### PE_CHECK_FAILURE (R229 to R231) -/

/-- A count in RASEV of a partition (Table 10.4); past its width it holds a free value. -/
def State.rasevUp (s : State) (part lo w : Nat) : State :=
  let r := (tgetD s.dev.rasev part 0).toNat
  let v := r / 2 ^ lo % 2 ^ w
  let n := if v + 1 < 2 ^ w then v + 1 else s.choice (2 ^ w)
  { s with draws := s.draws + 1, dev := { s.dev with rasev := tput s.dev.rasev part (BitVec.ofNat 64 (r - v * 2 ^ lo + n * 2 ^ lo)) } }

/-- Features whose units stand in tiles (Table 3.4): the base set, the matrix arrays, the PEs' own, replication, collectives, FRESIZE, digests. -/
def tileFeats : Nat := 0x2FC7F

/-- Whether no tile of a die can be placed on any more: each has a PE fenced off (R91), and with it its matrix array and other units count as
fenced off (log 76). -/
def State.dieFenced (s : State) (die : Nat) : Bool := (List.range 512).all fun i => !(s.tile (die * 512 + i)).fenced.isEmpty

/-- DIEFEAT loses what no unit of the die has any more (R87), and regions placed there that need it are to be pre-empted (R95). -/
def State.dropFeats (s : State) (die : Nat) : State :=
  if !s.dieFenced die then s
  else
    let d := tgetD s.host.dies die Die.blank
    let s1 := { s with host := { s.host with dies := tput s.host.dies die { d with fencedFeats := d.fencedFeats ||| tileFeats } } }
    s1.regions.foldl (fun s' e =>
      if dieOf e.2.part = die ∧ (s1.placementDies e.2.ctx).contains die = false then s'.post (.event (.preempt e.1)) else s') s1

/-- A PE fenced off: its region halts, and its *PE lost* record, class 10, enters the queue where that has room (R225, R231). -/
def State.fencePe (s : State) (tile pe : Nat) : State :=
  let t := s.tile tile
  let s1 := (s.putTile tile { t with fenced := ninsert t.fenced pe }).rasevUp (tile / 128) 16 8
  let s2 := match s1.regionOf tile with
    | some (key, r) =>
      let f0 := r.faultRec pe cPeLost 0 0 0 0 0 s.mem.pts
      let f := { f0 with
        x := tile % 16
        y := tile / 16 % 8
        rtile := (r.rtile tile).getD 0 }
      if r.cancelling then s1
      else
        match r.offer f with
        | some (r1, _) => s1.putRegion key { r1 with run := .major cPeLost }
        | none => s1.putRegion key { r with faultTokens := r.faultTokens ++ [f], run := .major cPeLost }
    | none => s1
  s2.dropFeats (dieOf (tile / 128))

/-- A failed check of a PE: its last firings are replayed with the same results; a second failure within 2^20 cycles moves the PE to the
spare, or fences it off where the spare is taken. -/
def State.peFails (s : State) (tile pe : Nat) : State :=
  let t := s.tile tile
  if 16 ≤ pe ∨ t.fenced.contains pe = true then s
  else
    let p := t.pe pe
    let again := match p.lastFail with
      | some c => decide (s.now ≤ c + 2 ^ 20)
      | none => false
    if !again then (s.putTile tile (t.putPe pe { p with lastFail := some s.now })).rasevUp (tile / 128) 32 16
    else if t.spareUsed.isNone then
      let t1 := t.putPe pe { p with lastFail := none }
      ((s.putTile tile { t1 with spareUsed := some pe }).rasevUp (tile / 128) 24 8).rasevUp (tile / 128) 32 16
    else s.fencePe tile pe

/-- PE_CHECK_FAILURE. -/
def execPeCheckFailure (tile pe : Nat) (s : State) : Host.Outcome State Fault Refusal := .next (s.peFails tile pe)

/-! ### CC_ECC_ERROR (R232) -/

/-- An error in uncommitted control-core state: blocks from the oldest uncommitted one on are abandoned and fetched again; a second within 2^20
cycles halts the region, to resume on another control core. -/
def State.coreFails (s : State) (key : Nat) : State :=
  match tget s.regions key with
  | none => s
  | some r =>
    if r.run ≠ RunState.running ∨ r.cancelling = true then s
    else
      match r.ccErr with
      | some c =>
        if s.now ≤ c + 2 ^ 20 then s.putRegion key { r with run := .major cUncorrectable, ccErr := none }
        else (((s.dropCore key).putRegion key { r.haltCore with ccErr := some s.now }).rasevUp r.part 0 16)
      | none => (((s.dropCore key).putRegion key { r.haltCore with ccErr := some s.now }).rasevUp r.part 0 16)

/-- CC_ECC_ERROR; in committed state it raises *uncorrectable error*, a control-core fault whose record goes to the trap record (R225), and the
region is halted. -/
def execCcEccError (key : Nat) (committed : Bool) (s : State) : Host.Outcome State Fault Refusal :=
  if !committed then .next (s.coreFails key)
  else
    match tget s.regions key with
    | none => .next s
    | some r =>
      if r.run ≠ RunState.running ∨ r.cancelling = true then .next s
      else
        let s1 := s.takeTrap key (r.faultRec 31 cUncorrectable 0 0 0 0 0 s.mem.pts) ((r.resumeAt).getD 0) 0 0 false
        .next (match tget s1.regions key with
          | some r1 => if r1.cancelling then s1 else s1.putRegion key { r1 with run := .stopped }
          | none => s1)

/-! ### UNCORRECTABLE_ERROR (R228, Table 10.5, R233) -/

/-- Every valid element of some lanes poisoned. -/
def poisonLanes (ls : List Lane) : List Lane := ls.map fun l => if l.valid then { l with poison := true } else l

def Token.poisoned (t : Token) : Token := { t with lanes := poisonLanes t.lanes }

/-- The token of a channel at a place poisoned. -/
def poisonChan (cs : List ChanTok) (idx : Nat) : List ChanTok :=
  match cs[idx]? with
  | some c => lput cs idx { c with tok := c.tok.poisoned }
  | none => cs

/-- The tokens of entry `idx` of a tile's matching stores, counted over its PEs in order. -/
def poisonEntry : Tab Pe → Nat → Tab Pe
  | [], _ => []
  | (k, p) :: t, idx =>
    match p.entries[idx]? with
    | some e => (k, { p with entries := lput p.entries idx { e with ops := e.ops.map Token.poisoned } }) :: t
    | none => (k, p) :: poisonEntry t (idx - p.entries.length)

/-- A sector's address, with this device's number in its upper bits, logged in the orphan-poison ring of its M-die; once 256 entries stand unread the oldest is overwritten and LOST rises. -/
def State.orphan (s : State) (sector : Nat) : State :=
  let m := homeDie (sector * 64)
  let w := tgetD s.dev.oplog m 0
  let next := field w 31 24
  let cnt := field w 7 0
  let over_ := decide (cnt = 255) && (tget s.dev.oprings (m * 256 + next)).isSome
  let lost := if over_ then min 255 (field w 15 8 + 1) else field w 15 8
  let log := BitVec.ofNat 32 ((next + 1) % 256 * 2 ^ 24 + lost * 256 + min 255 (cnt + 1))
  { s with
    mem := { s.mem with poison := ninsert s.mem.poison sector }
    dev := { s.dev with oplog := tput s.dev.oplog m log, oprings := tput s.dev.oprings (m * 256 + next) (s.dev.devNum % 4096 * 2 ^ 34 + sector) } }

/-- A corrected error counted in RASEV.CORR, saturating (Table 10.4). -/
def State.correctedUp (s : State) (part : Nat) : State :=
  let r := (tgetD s.dev.rasev part 0).toNat
  { s with dev := { s.dev with rasev := tput s.dev.rasev part (BitVec.ofNat 64 (r % 2 ^ 48 + min 65535 (r / 2 ^ 48 + 1) * 2 ^ 48)) } }

/-- UNCORRECTABLE_ERROR: contained where it is found. -/
def execUncorrectableError (place : EccPlace) (s : State) : Host.Outcome State Fault Refusal :=
  match place with
  | .sector n => .next (if n * 64 < Config.memBytes then { s with mem := { s.mem with poison := ninsert s.mem.poison n } } else s)
  | .foldRow tile row =>
    let t := s.tile tile
    .next (match tget t.rows row with
      | some r => s.putTile tile { t with rows := tput t.rows row { r with lanes := poisonLanes r.lanes } }
      | none => s)
  | .matching tile idx => .next (s.putTile tile { s.tile tile with pes := poisonEntry (s.tile tile).pes idx })
  | .channel tile idx => .next (s.putTile tile { s.tile tile with chans := poisonChan (s.tile tile).chans idx })
  | .missBuffer tile idx => .next (s.putTile tile { s.tile tile with miss := poisonChan (s.tile tile).miss idx })
  | .elementSlot tile pe => .next (s.peFails tile pe)
  | .accumulator tile pe =>
    let t := s.tile tile
    let p := t.pe pe
    .next (s.putTile tile (t.putPe pe { p with acc := { p.acc with lost := true } }))
  | .coreState key => .next (s.coreFails key)
  | .corrected part => .next (if part < 16 then s.correctedUp part else s)
  | .orphanLine sector => .next (if sector * 64 < Config.memBytes then s.orphan sector else s)

/-! ### TIMESTAMP_REBASE (R191) -/

/-- TIMESTAMP_REBASE: once logical time has reached 2^47, every timestamp is taken back by it, which keeps their order against later ones. -/
def execTimestampRebase (_mdie : Nat) (s : State) : Host.Outcome State Fault Refusal :=
  let b := s.mem.pts
  if b < 2 ^ 47 then .next s
  else .next { s with mem := { s.mem with
    pts := 0
    wts := s.mem.wts.map fun e => (e.1, e.2 - b)
    rts := s.mem.rts.map fun e => (e.1, e.2 - b) } }

end Sys2Proof.Machine
end

