-- ==== Sys2Proof/Machine/EvHeap.lean ====
section
/-! DEFINITION. The relocation engines (R208, R209, R212 to R214, R220, R221, R322, R450, R457). -/

namespace Sys2Proof.Machine

/-! ### Pages -/

def State.putEng (s : State) (m : Nat) (e : RelocEng) : State := { s with heap := { s.heap with engines := tput s.heap.engines m e } }

/-- The local frame of a heap page of a job homed at an M-die; none where the page is not mapped so. -/
def State.heapFrame (s : State) (ctx va m : Nat) : Option Nat :=
  match (walkFull s.mem ctx va 4 1 (s.root ctx) []).1 with
  | .done (.leaf pa _ _ true _) 4 _ =>
    let t := s.target ctx pa
    if s.isLocal t && decide (localOf t < Config.memBytes) && decide (homeDie (localOf t) = m) then some (localOf t) else none
  | _ => none

/-- The local frame at which a page stands now. -/
def State.pageFrame (s : State) (ctx va : Nat) : Option Nat :=
  match s.leafAt ctx va with
  | some (pa, _) => let t := s.target ctx pa
    if s.isLocal t && decide (localOf t < Config.memBytes) then some (localOf t) else none
  | none => none

/-- Source pages of a RELOC at an M-die, ascending, with their frames (Table 9.3, R450). -/
def State.relocSelect (s : State) (q : Reloc) (m : Nat) : List (Nat × Nat) :=
  (List.range q.count).filterMap fun i =>
    let va := q.first + 65536 * i
    if va / 2 ^ 48 ≠ q.first / 2 ^ 48 then none
    else match s.heapFrame q.ctx va m with
      | some f =>
        if (s.mem.frame f).page ≠ .evacuating ∧ s.openBuffer f = false ∧ liveBytes s.mem f ≤ q.threshold then some (va, f) else none
      | none => none

/-- Barrier caches of every context of a job forget what they hold (R209). -/
def State.dropBarriers (s : State) (job : Nat) : State :=
  let keep := fun (b : BarEntry) => decide (s.jobOf b.ctx ≠ job)
  { s with
    regions := s.regions.map fun e => (e.1, { e.2 with barrier := e.2.barrier.filter keep })
    tiles := s.tiles.map fun e => (e.1, { e.2 with barrier := e.2.barrier.filter keep }) }

/-- The page state of every source page, and the barrier caches (passes 2 and 4). -/
def State.markPages (s : State) (q : Reloc) (ps : List (Nat × Nat)) (st : PageState) : State :=
  (ps.foldl (fun s' p => match s'.pageFrame q.ctx p.1 with
    | some f => { s' with mem := s'.mem.putFrame f { s'.mem.frame f with page := st } }
    | none => s') s).dropBarriers (s.jobOf q.ctx)

/-! ### Moving one object (R213) -/

/-- A header word written at its home. -/
def Mem.putHeader (m : Mem) (a : Nat) (v : Word) : Mem := (m.putWord a v).stampStore a

/-- The bytes of an object copied, with the poison of its sectors and the time of each written sector. -/
def Mem.copyObject (m : Mem) (a b n : Nat) : Mem :=
  let m1 := m.write b (m.read a n)
  let m2 := (List.range (n / 16)).foldl (fun m' i => if m.poisoned (a + 16 * i) then m'.setPoison (b + 16 * i) true else m') m1
  (List.range ((b % 64 + n + 63) / 64)).foldl (fun m' i => m'.stampStore (b + 64 * i)) m2

/-- The copy of an object: LIVE, PIN 0, the rest of its header unchanged. -/
def Mem.moveObject (m : Mem) (a b n : Nat) : Mem :=
  let w := m.word a
  (m.copyObject a b n).putHeader b (setHdrPin (setHdrState w 1) 0)

/-- Steps 2 to 4: the object copied, the rest of the destination page one FREE object behind it (R203), its old header DONE with the forwarding
reference; waits on it are answered. -/
def State.finishMove (s : State) (m : Nat) (e : RelocEng) (q : Reloc) (frame off : Nat) (d : HeapBuf) : State :=
  let a := frame + off
  let n := hdrSize (s.mem.word a)
  let m1 := s.mem.moveObject a (s.bufAt q.ctx d + d.fill) n
  let m2 := (m1.putWord (a + 8) (mkRef q.heap (d.va - heapBase q.heap + d.fill))).putHeader a (setHdrState (m1.word a) 3)
  (({ s with mem := m2 }.closeRest (s.bufAt q.ctx d) (d.fill + n)).putEng m { e with
    off := off + n
    moving := none
    dest := some { d with fill := d.fill + n }
    moved := e.moved + 1 }).hopWake

/-- A destination page for objects to come (R212); none where the window has no unused page address, or no frame can be had (R457). -/
def State.destPage (s : State) (q : Reloc) : Option (HeapBuf × State) :=
  match s.nextPage q.ctx q.heap, s.newFrame with
  | some va, some (f, s1) => (s1.mapFrame q.ctx va f true).map fun s2 => (⟨va, s1.dev.devNum * 2 ^ 40 + f, 0⟩, (s2.freePage f).usePage q.ctx va)
  | _, _ => none

/-- The end of pass 3: what remains of the last destination page is closed (R450). -/
def State.endEvacuate (s : State) (m : Nat) (e : RelocEng) (q : Reloc) (full : Bool) : State :=
  let s1 := match e.dest with
    | some d => s.closePage q.ctx d
    | none => s
  s1.putEng m { e with pass := 4, moving := none, dest := none, full := full }

/-- An object LIVE and not pinned at `off` of a page: a destination is had, then it is marked MOVING. Its frame's copy-on-write fault is served
first (R221). -/
def State.startMove (s : State) (m : Nat) (e : RelocEng) (q : Reloc) (frame off n : Nat) (w : Word) : State :=
  if (s.mem.frame frame).cow then s.serveCow q.ctx frame
  else
    let fits := match e.dest with
      | some d => decide (d.fill + n ≤ 65536)
      | none => false
    if fits then { s with mem := s.mem.putHeader (frame + off) (setHdrState w 2) }.putEng m { e with moving := some (frame, off) }
    else
      let s1 := match e.dest with
        | some d => s.closePage q.ctx d
        | none => s
      match s1.destPage q with
      | some (d, s2) => s2.putEng m { e with dest := some d }
      | none => s1.endEvacuate m { e with dest := none } q true

/-- The end of a move: copy-on-write of either page is served first (R221). -/
def State.endMove (s : State) (m : Nat) (e : RelocEng) (q : Reloc) (frame0 off : Nat) (d : HeapBuf) : State :=
  let frame := ((e.pages[e.cur]?).bind fun p => s.pageFrame q.ctx p.1).getD frame0
  if (s.mem.frame frame).cow then s.serveCow q.ctx frame
  else if (s.mem.frame (s.bufAt q.ctx d)).cow then s.serveCow q.ctx (s.bufAt q.ctx d)
  else s.finishMove m e q frame off d

/-- One step of pass 3. -/
def State.evacuate (s : State) (m : Nat) (e : RelocEng) (q : Reloc) : State :=
  match e.moving, e.dest with
  | some (frame, off), some d => s.endMove m e q frame off d
  | _, _ =>
    if q.cancelled then s.endEvacuate m e q e.full
    else
      match e.pages[e.cur]? with
      | none => s.endEvacuate m e q e.full
      | some (va, _) =>
        match s.pageFrame q.ctx va with
        | none => s.putEng m { e with cur := e.cur + 1, off := 0 }
        | some frame =>
          let w := s.mem.word (frame + e.off)
          let n := hdrSize w
          if 65536 ≤ e.off ∨ n = 0 then s.putEng m { e with cur := e.cur + 1, off := 0 }
          else if hdrState w ≠ 1 ∨ hdrPin w ≠ 0 then s.putEng m { e with off := e.off + n }
          else s.startMove m e q frame e.off n w

/-! ### The end (R212, R322, R457) -/

/-- Pass 5: the last engine of a RELOC to report adds 1 to its cairn, flagged where one of them was cancelled or stopped for want of a page. -/
def State.relocReport (s : State) (m : Nat) (e : RelocEng) (q : Reloc) : State :=
  let flag := q.cancelled || e.full
  let s1 := if e.full then s.report (.heapFull q.heap) else s
  let s2 := s1.putEng m { RelocEng.blank with queue := e.queue.tail }
  match tget s2.heap.reports q.id with
  | some (left, cairn, was) =>
    if left ≤ 1 then ({ s2 with heap := { s2.heap with reports := tdel s2.heap.reports q.id } }).advance cairn (was || flag)
    else { s2 with heap := { s2.heap with reports := tput s2.heap.reports q.id (left - 1, cairn, was || flag) } }
  | none => s2

/-- RELOC_RUN: one step of the relocation engine of an M-die. -/
def execRelocRun (mdie : Nat) (s : State) : Host.Outcome State Fault Refusal :=
  let e := tgetD s.heap.engines mdie RelocEng.blank
  match e.queue with
  | [] => .next s
  | q :: _ =>
    match e.pass with
    | 0 => .next (s.putEng mdie { RelocEng.blank with queue := e.queue, pass := 1 })
    | 1 => .next (s.putEng mdie { e with pass := 2, pages := if q.cancelled then [] else s.relocSelect q mdie })
    | 2 => .next ((s.markPages q e.pages .evacuating).putEng mdie { e with pass := 3, cur := 0, off := 0 })
    | 3 => .next (s.evacuate mdie e q)
    | 4 => .next ((s.markPages q e.pages .forwarded).putEng mdie { e with pass := 5 })
    | _ => .next (s.relocReport mdie e q)

end Sys2Proof.Machine
end

