-- ==== Sys2Proof/Machine/Dump.lean ====
section
/-! DEFINITION. The state-dump space (R20, R21, R25, Tables 1.8 and 1.9). -/

namespace Sys2Proof.Machine

/-- Word `i` of a byte list, least significant byte first; bytes it lacks are zero. -/
def wordAt (bs : List Byte) (i : Nat) : Word := BitVec.ofNat 64 (leNat ((bs.drop (8 * i)).take 8))

/-- A token's words; `word11` for a channel or link entry. -/
def Token.dump (t : Token) (word11 : Nat) (w : Nat) : Word := if w < 11 then wordAt t.bytes w else if w = 11 then BitVec.ofNat 64 word11 else 0

/-- A token list as a unit of entries of 16 words. -/
def dumpToks (ts : List (Token × Nat)) (w : Nat) : Word :=
  match ts[w / 16]? with
  | some (t, x) => t.dump x (w % 16)
  | none => 0

/-- A matching-store entry: its node's names and its operand tokens. -/
structure DumpEntry where
  ctx : Nat
  bslot : Nat
  node : Nat
  itag : BitVec 32
  ops : List Token
  deriving DecidableEq, Repr

/-- Entries of the matching store of a PE: those that wait for operands, then complete sets that have not fired. -/
def Tile.dumpEntries (t : Tile) (pe : Nat) : List DumpEntry :=
  ((t.pe pe).entries.map fun e => ⟨e.ctx, e.bslot, e.node, e.itag, e.ops⟩) ++
  (t.ready.filter fun f => decide (f.pe = pe) && !f.begun).map fun f => ⟨f.ctx, f.bslot, f.node, f.itag, [f.l, f.r, f.p, f.c].filterMap fun o => o⟩

def DumpEntry.word (e : DumpEntry) (w : Nat) : Word :=
  let has := fun (p : Port) => (opAt e.ops p).isSome
  let tok := fun (p : Port) (k : Nat) => match opAt e.ops p with
    | some t => t.dump 0 k
    | none => 0
  if w = 0 then BitVec.ofNat 64 (2 ^ 63 + e.ctx % 4096 * 2 ^ 51 + e.bslot % 8 * 2 ^ 48 + e.node % 128 * 2 ^ 41 +
    ((if has .left then 1 else 0) + (if has .right then 2 else 0) + (if has .pred then 4 else 0) + if has .ctl then 8 else 0) * 2 ^ 37 + e.itag.toNat)
  else if 16 ≤ w ∧ w < 32 then tok .left (w - 16)
  else if 32 ≤ w ∧ w < 48 then tok .right (w - 32)
  else if 48 ≤ w ∧ w < 64 then tok .pred (w - 48)
  else if 64 ≤ w ∧ w < 80 then tok .ctl (w - 64)
  else 0

/-- The matching store of a PE, or of the MPE, in 64 × 128 words. -/
def Tile.dumpMatch (t : Tile) (pe w : Nat) : Word :=
  if 8192 ≤ w then 0
  else match (t.dumpEntries pe)[w / 128]? with
    | some e => e.word (w % 128)
    | none => 0

/-- Two elements in one word, the lower one first. -/
def twoElems (a b : Elem) : Word := BitVec.ofNat 64 (a.toNat + 2 ^ 32 * b.toNat)

/-- PE registers and accumulator (unit 35). -/
def Pe.dump (p : Pe) (w : Nat) : Word :=
  if w = 0 then BitVec.ofNat 64 (p.policy.toNat + p.sticky.toNat * 256)
  else if w ≤ 32 then twoElems (p.acc.c.getD (2 * (w - 1)) 0) (p.acc.c.getD (2 * (w - 1) + 1) 0)
  else if w = 33 then BitVec.ofNat 64 ((BitVec.ofInt 32 p.acc.e).toNat + p.acc.d % 64 * 2 ^ 32 + if p.acc.trunc then 2 ^ 38 else 0)
  else if w = 34 then BitVec.ofNat 64 p.acc.count
  else 0

/-- A row of lanes in 8 words. -/
def lanesWord (ls : List Lane) (w : Nat) : Word := twoElems ((ls.getD (2 * w) Lane.off).val) ((ls.getD (2 * w + 1) Lane.off).val)

/-- A queued stream command in 8 words; of one without descriptor the layout is not given, and `free` stands for its words. -/
def SCmd.dump (c : SCmd) (free : Word) (w : Nat) : Word :=
  match c with
  | .bind d => dw d w
  | _ => free

/-- A stream port in 64 words; the layout of word 8 is not given. -/
def Stream.dump (p : Stream) (free : Word) (w : Nat) : Word :=
  if w < 8 then dw p.desc w
  else if w = 8 then free
  else if w = 9 then
    let q := patternOf p.desc
    let run := p.pos / q.runToks
    let c1 := q.counts.getD 1 1
    let c2 := q.counts.getD 2 1
    BitVec.ofNat 64 (p.pos % q.runToks * q.per % 65536 + run % c1 % 65536 * 2 ^ 16 + run / c1 % c2 % 65536 * 2 ^ 32 + run / c1 / c2 % 65536 * 2 ^ 48)
  else if 16 ≤ w ∧ w < 48 then
    match p.queue[(w - 16) / 8]? with
    | some (c, _) => c.dump free ((w - 16) % 8)
    | none => 0
  else if w = 48 then p.digest
  else 0

/-- Nodes of a tile in PE and slot order. -/
def Tile.nodes (t : Tile) : List NodeInst := t.pes.flatMap fun p => p.2.slots.map fun e => e.2

/-- Whether an arc's source is a DELAY node of the tile that a number names. -/
def fromDelay (tiles : Tab Tile) (src : Nat) : Bool :=
  decide (src < 2 ^ 40) && (tgetD tiles (src / 8192) Tile.blank).nodes.any fun n =>
    decide (n.bslot = src / 1024 % 8 ∧ n.node = src / 8 % 128) && match Decode.record n.bits with
      | .ok (.delay _) => true
      | _ => false

/-- Whether a token on its way stands in a delay store still: its remaining cycles exceed the travel of its arc (R374). -/
def ChanTok.delayed (tiles : Tab Tile) (c : ChanTok) : Bool := decide (c.path < c.left) && fromDelay tiles c.src

/-- Tokens that the delay store of a tile holds for its DELAY nodes, each once whatever targets it is for. -/
def delayedAt (tiles : Tab Tile) (k : Nat) : List Token :=
  let here := tiles.flatMap fun e => e.2.chans.filter fun c => decide (c.src / 8192 = k) && c.delayed tiles
  ((here.map fun c => (c.src / 8, c.left - c.path, c.tok)).foldl (fun m c =>
    if m.any fun d => decide (d.1 = c.1 ∧ d.2.1 = c.2.1 ∧ d.2.2.itag = c.2.2.itag) then m else m ++ [c]) []).map fun c => c.2.2

/-- Channel and link buffers with held operands (unit 40). -/
def Tile.dumpChans (tiles : Tab Tile) (t : Tile) : List (Token × Nat) :=
  ((t.chans.filter fun c => !c.delayed tiles).map fun c => (c.tok, c.tok.node % 128 + portNum c.tok.port * 256 + c.left % 65536 * 65536)) ++
  t.nodes.flatMap fun n => [n.heldL, n.heldR].filterMap fun o => o.map fun k => (k, 0)

/-- Tokens in the delay store (unit 42). -/
def Tile.dumpDelay (tiles : Tab Tile) (k : Nat) (t : Tile) : List (Token × Nat) :=
  ((delayedAt tiles k).map fun x => (x, 0)) ++ t.nodes.flatMap fun n => match Decode.record n.bits with
    | .ok (.delay _) => n.buf.map fun k => (k, 0)
    | _ => []

/-- The node-state word and record of a slot: 16 bytes. -/
def NodeInst.dump (n : NodeInst) (w : Nat) : Word :=
  if w = 0 then BitVec.ofNat 64 n.bits.toNat else BitVec.ofNat 64 (n.bits.toNat / 2 ^ 64 + 2 ^ 32 * n.word.toNat)

/-- Words of a unit of a tile of Table 1.9 but the bivouac's; `tiles` are the tiles the numbers of its arcs name, `k` its own number. -/
def Tile.dumpUnit (tiles : Tab Tile) (k : Nat) (t : Tile) (u : Nat) (free : Word) (w : Nat) : Word :=
  if u ≤ 16 then
    if 128 ≤ w then 0
    else match tget (t.pe u).slots (w / 2) with
      | some n => n.dump (w % 2)
      | none => 0
  else if u ≤ 34 then t.dumpMatch (u - 17) w
  else if u = 35 then (if w < 680 then (t.pe (w / 40)).dump (w % 40) else 0)
  else if u = 36 then
    match t.mpeB with
    | some b => if w < 320 then lanesWord (b.rows.getD (w / 8) []) (w % 8) else if w = 320 then BitVec.ofNat 64 b.fmt else 0
    | none => 0
  else if u = 37 then (if w < 512 then (t.stream (w / 64)).dump free (w % 64) else 0)
  else if u = 38 then
    match tget t.rows (w / 8) with
    | some r => lanesWord r.lanes (w % 8)
    | none => 0
  else if u = 39 then
    match tget t.slots (w / 2) with
    | some e => BitVec.ofNat 64 (if w % 2 = 0 then e.word0 else e.word1)
    | none => 0
  else if u = 40 then (if w < 4096 then dumpToks (t.dumpChans tiles) w else 0)
  else if u = 41 then (if w < 1024 then dumpToks (t.miss.map fun c => (c.tok, 0)) w else 0)
  else if u = 42 then (if w < 16384 then dumpToks (t.dumpDelay tiles k) w else 0)
  else 0

/-- Words of unit 44: the parked banks of units 17 to 34 and 39 to 42, in unit order. -/
def Tile.dumpParked (tiles : Tab Tile) (k : Nat) (t : Tile) (free : Word) (w : Nat) : Word :=
  let unit := fun (u w : Nat) => t.dumpUnit tiles k u free w
  if w < 147456 then unit (17 + w / 8192) (w % 8192)
  else if w < 163840 then unit 39 (w - 147456)
  else if w < 167936 then unit 40 (w - 163840)
  else if w < 168960 then unit 41 (w - 167936)
  else if w < 185344 then unit 42 (w - 168960)
  else 0

/-- A tile of a region parked in the bivouac of its partition: the region's tiles and the tile's number among them. -/
def State.parkedTile (s : State) (k : Nat) : Option (Tab Tile × Nat) :=
  s.parked.findSome? fun p => if p.2.part = some (k / 128) then if p.2.region.tiles.contains k then some (p.2.tiles, p.2.region.numOf k) else none else none

/-- A data word of the L2 of a C-die, or of the LLC of an M-die: where the array holds a line, what that line holds. Which line stands in
which place of the array is a free value, and so are the two tag words of a line, whose layout is not given (log 24). -/
def State.dumpCache (s : State) (space die words : Nat) (free : Word) (w : Nat) : Word :=
  if w < words then
    match Config.cachedLine s.dev.dumpKey space die (w / 8) with
    | some a => if 64 * a < Config.memBytes then s.mem.word (64 * a + 8 * (w % 8)) else free
    | none => free
  else if w < words + words / 4 then free
  else 0

/-- A block-in-flight entry in 8 words; the encodings of its kind, state and progress are not given. -/
def Bif.dump (b : Bif) (free : Word) (w : Nat) : Word :=
  match w with
  | 0 => BitVec.ofNat 64 b.addr
  | 1 => free
  | 2 => BitVec.ofNat 64 b.mask.toNat
  | 3 => BitVec.ofNat 64 (b.mask.toNat / 2 ^ 64)
  | 4 => match b.cairn with
    | some k => BitVec.ofNat 64 k
    | none => 0
  | 5 => free
  | _ => 0

/-- One control core (space 1). -/
def Region.dump (r : Region) (free : Word) (w : Nat) : Word :=
  if w < 32 then r.s.getD w 0
  else if w < 48 then r.h.getD (w - 32) 0
  else if 48 ≤ w ∧ w ≤ 56 then ([0, 1, 2, 3, 4, 5, 0x10, 0x11, 0x12][w - 48]?.bind r.csr).getD 0
  else if 64 ≤ w ∧ w < 128 then
    match tget r.blocks ((w - 64) / 8) with
    | some b => b.dump free (w % 8)
    | none => 0
  else if 128 ≤ w ∧ w < 256 then
    match r.queue[(w - 128) / 8]? with
    | some f => f.word (w % 8)
    | none => 0
  else if 256 ≤ w ∧ w < 264 then
    match r.trapRec with
    | some f => f.word (w - 256)
    | none => 0
  else 0

/-- A management register word: the register at an offset, or two of 32 bits. -/
def State.dumpReg (s : State) (off : Nat) : Word :=
  if regWidth off = 8 then s.regRead off
  else
    let part := fun (o : Nat) => if regWidth o = 4 then (s.regRead o).toNat else 0
    BitVec.ofNat 64 (part off + 2 ^ 32 * part (off + 4))

/-- The word at a state-dump address. Words whose encoding the spec does not give are free values, one for each freeze and address, so that a
second read returns the same (R21, log 24). After a thermal trip the arrays read as they stood before it (log 24). -/
def State.dumpWord (s : State) (a : Word) : Word :=
  let space := field a 63 60
  let part := field a 59 56
  let tile := field a 55 49
  let u := field a 48 43
  let w := field a 42 0
  let free := BitVec.ofNat 64 (Config.dumpFree s.dev.dumpKey a.toNat)
  match space with
  | 0 =>
    let k := part * 128 + tile
    if u = 43 then (if w < 69632 then free else 0)
    else if u = 44 then
      match s.parkedTile k with
      | some (tiles, t) => (tgetD tiles t Tile.blank).dumpParked tiles t free w
      | none => 0
    else (s.tile k).dumpUnit s.tiles k u free w
  | 1 =>
    if tile < 8 ∧ u = 0 then
      match tget s.regions (coreKey part tile) with
      | some r => r.dump free w
      | none => 0
    else 0
  | 2 => if u < 4 then s.dumpCache 2 u (2 ^ 23) free w else 0
  | 3 => if u < 4 then s.dumpCache 3 u (2 ^ 25) free w else 0
  | 4 =>
    if 4 ≤ u then 0
    else if w < 2 ^ 18 then s.cairn.val (4 * w + u)
    else if w < 2 ^ 19 then (if s.cairn.flag (4 * (w - 2 ^ 18) + u) then 1 else 0)
    else 0
  | 5 => if 8 * w < 2 ^ 24 then s.dumpReg (8 * w) else 0
  | 6 => if 8 * w < Config.memBytes then s.mem.word (8 * w) else 0
  | _ => 0

end Sys2Proof.Machine
end

