-- ==== Sys2Proof/Machine/EvMgmt.lean ====
section
/-! DEFINITION. Events of the package: power, temperature, freeze, reset, the test port, the management channel, register writes
(R11 to R25, R58 to R66, R71). -/

namespace Sys2Proof.Machine

/-! ### Power and temperature (R11, R17) -/

/-- Samples a mean of 10 ms takes. -/
def powerWindow : Nat := 10000

/-- The limit in force at a sample: as it stood, or set anew to 1,000 W to 2,200 W since the last one. The spec names no register for it, so
whether it was set and to what is a free choice (log 21). -/
def State.limitNow (s : State) : Nat := if s.choice 2 = 0 then s.dev.powerLimit else 1000 + s.drawn.choice 1201

/-- POWER_SAMPLE: over the limit one more cycle in 16 is withheld, up to 8; at or under it the SCC withholds as many or fewer, a free choice. -/
def execPowerSample (watts : Nat) (s : State) : Host.Outcome State Fault Refusal :=
  let xs := (watts :: s.dev.powerSamples).take powerWindow
  let steps := if s.limitNow * xs.length < xs.sum then min 8 (s.dev.powerSteps + 1) else s.drawn.drawn.choice (s.dev.powerSteps + 1)
  .next { s.drawn.drawn.drawn with dev := { s.dev with powerLimit := s.limitNow, powerSamples := xs, powerSteps := steps } }

/-- Throttle steps of a partition after a sample of its junction: at 100 °C or above one more at each sample, below 95 °C none at once, between
them as many as before. R17 gives the limits of the throttle and not its pace, which is the model's choice (log 22). -/
def thermStep (t old : Nat) : Nat := if 100 ≤ t then min 8 (old + 1) else if t < 95 then 0 else old

/-- Successive samples at 110 °C or more; ten of them, 1 ms, stay reached whatever the next sample says. -/
def hotStep (t old : Nat) : Nat := if 110 ≤ t then old + 1 else if 10 ≤ old then old else 0

/-- Whether a junction has been at 110 °C or more for 1 ms: ten samples of 100 µs. -/
def Dev.hot (d : Dev) : Bool := d.hotTime.any fun e => decide (10 ≤ e.2)

/-- THERMAL_SAMPLE: `temps` in °C, partitions 0 to 15 then M-dies; `inlet` in °C; `flow` in tenths of a litre per minute. -/
def execThermalSample (temps : List Nat) (inlet flow : Nat) (s : State) : Host.Outcome State Fault Refusal :=
  let d := s.dev
  let steps := (temps.take 16).zipIdx.foldl (fun t p => tput t p.2 (thermStep p.1 (tgetD t p.2 0))) d.thermSteps
  let hot := temps.zipIdx.foldl (fun t p => tput t p.2 (hotStep p.1 (tgetD t p.2 0))) d.hotTime
  let s1 := { s with dev := { d with thermSteps := steps, hotTime := hot } }
  .next (if 40 < inlet ∨ flow < 18 then s1.report .coolant else s1)

/-- What a thermal trip adds to a freeze: TRIPPED, THERMTRIP_N, the rails but VAON and VMEM held off (R17). -/
def Dev.tripped (d : Dev) : Dev := { d with frzstat := d.frzstat ||| 0x10000000#32, thermtripN := false, railsOff := true }

/-- THERMAL_TRIP: it starts a freeze; on a frozen device the rails go off at once. -/
def execThermalTrip (s : State) : Host.Outcome State Fault Refusal :=
  if !s.dev.hot then .next s
  else if bitAt s.dev.frzstat 31 then .next { s with dev := s.dev.tripped }
  else .next (s.startFreeze 3)

/-! ### Freeze (R18, R22, R23) -/

/-- FREEZE_TRIGGER: FRZ_N low for `periods` REFCLK periods. -/
def execFreezeTrigger (periods : Nat) (s : State) : Host.Outcome State Fault Refusal := .next (if 2 ≤ periods then s.startFreeze 1 else s)

/-- FRZSTAT of a device frozen by a source after `lag` cycles (Table 1.5). -/
def frzOf (src lag : Nat) : BitVec 32 := BitVec.ofNat 32 (2 ^ 31 + src % 4 * 2 ^ 29 + lag % 65536)

/-- CLOCK_STOP: every clock but the management, test and self-refresh ones stops, `lag` cycles after the trigger: the 1 to 64 that have passed
since it, counted by the main clock; in a reset sequence, whose clock the model does not count, any of them (log 26). -/
def execClockStop (lag : Nat) (s : State) : Host.Outcome State Fault Refusal :=
  match s.dev.freezePending with
  | none => .next s
  | some (src, at_) =>
    if lag < 1 ∨ 64 < lag ∨ (s.dev.resetSeq.isNone ∧ at_ + lag ≠ s.now) then .next s
    else
      let d : Dev := { s.dev with freezePending := none, resetSeq := none, dumpKey := s.draws, frzstat := frzOf src lag ||| (s.dev.frzstat &&& 0x10000000#32) }
      .next { s.drawn with dev := if src = 3 || s.dev.hot then d.tripped else d }

/-! ### Reset (R14 to R16, R22, R53) -/

/-- Commit records of the transactions that have an outcome: they lie in main memory and survive a warm reset (R48, R53). -/
def Link.records (l : Link) : List Txn := (l.txns.filter fun t => decide (t.phase = .committed ∨ t.phase = .aborted)).map fun t => { t with survived := true, resumed := false }

/-- The device with every on-die state cleared (R15): main memory's bytes and poison stand where `keep` says so, and a freeze triggered in the
sequence is still due (R22). -/
def State.cleared (s : State) (keep : Bool) : State :=
  { State.reset with
    now := s.now
    draws := s.draws
    mem := if keep then { Mem.reset with cells := s.mem.cells, poison := s.mem.poison } else Mem.reset
    link := { Link.reset with
      txns := if keep then s.link.records else []
      nextXid := if keep then s.link.nextXid else 0 }
    dev := { Dev.reset with
      freezePending := s.dev.freezePending
      resetSeq := s.dev.resetSeq
      warm := s.dev.warm } }

/-- One step of Table 1.3. -/
def State.resetStep (s : State) (n : Nat) : State :=
  match n with
  | 1 => { s with dev := { s.dev with vaon := true, resetSeq := some 2 } }
  | 2 => { s with dev := { s.dev with signatureOk := true, resetSeq := some 3 } }
  | 3 => { s with dev := { s.dev with railsOff := false, clocksLocked := true, resetSeq := some 4 } }
  | 4 =>
    let s1 := s.cleared s.dev.warm
    { s1 with dev := { s1.dev with resetSeq := some 5 } }
  | 5 => { s with dev := { s.dev with resetSeq := some 6 } }
  | _ => { s with dev := { s.dev with resetSeq := none, warm := false, featen := Config.featav } }

/-- COLD_RESET: RST_N is released after PWROK has risen, and then each step of Table 1.3 in turn. -/
def execColdReset (s : State) : Host.Outcome State Fault Refusal :=
  match s.dev.resetSeq, s.dev.warm with
  | some n, false => .next (s.resetStep n)
  | _, _ =>
    .next { s with dev := { s.dev with
      pwrok := true
      rstn := true
      resetSeq := some 1
      warm := false
      clocksLocked := false
      freezePending := none
      frzstat := s.dev.frzstat &&& 0x10000000#32 } }

/-- WARM_RESET: RST_N is pulsed, and then steps 4 to 6; a tripped device takes only a cold reset. -/
def execWarmReset (s : State) : Host.Outcome State Fault Refusal :=
  match s.dev.resetSeq, s.dev.warm with
  | some n, true => .next (s.resetStep n)
  | some _, false => .next s
  | none, _ => .next s.startWarm

/-- RESET_RESTART: RST_N asserted during a sequence restarts it from its first step. -/
def execResetRestart (s : State) : Host.Outcome State Fault Refusal :=
  match s.dev.resetSeq with
  | none => .next s
  | some _ => .next { s with dev := { s.dev with resetSeq := some (if s.dev.warm then 4 else 1), freezePending := none } }

/-! ### The test port (R20, R21) -/

/-- BYPASS: the one-bit bypass register, loaded with 0; its instruction code, all ones, is IEEE 1149.1's. -/
def execBypass (s : State) : Host.Outcome State Fault Refusal := .next { s with dev := { s.dev with testIr := 0x3F#6, testBypass := false } }

/-- A test instruction whose code the spec does not give: the code is a free value. -/
def State.testIr (s : State) : State := { s with draws := s.draws + 1, dev := { s.dev with testIr := BitVec.ofNat 6 (Config.freeWord s.draws) } }

/-- SAMPLE/PRELOAD: the boundary register takes the pins. -/
def execSamplePreload (pins : Word) (s : State) : Host.Outcome State Fault Refusal :=
  .next { s.testIr with dev := { s.testIr.dev with testPins := pins } }

/-- EXTEST: the pins are driven from the boundary register. -/
def execExtest (pins : Word) (s : State) : Host.Outcome State Fault Refusal :=
  .next { s.testIr with dev := { s.testIr.dev with testPins := pins } }

/-- IDCODE. -/
def execIdcode (s : State) : Host.Outcome State Fault Refusal :=
  .next { s.testIr with dev := { s.testIr.dev with testData := BitVec.ofNat 64 Config.idcode.toNat } }

/-- The word a read of the state-dump space returns: zero while the device runs. -/
def State.dumpRead (s : State) (a : Word) : Word := if bitAt s.dev.frzstat 31 then s.dumpWord a else 0

/-- STATEDUMP: it selects the address and data registers; a write of data is refused (R21). -/
def execStatedump (addr : Word) (write : Bool) (s : State) : Host.Outcome State Fault Refusal :=
  let d := { s.dev with testIr := 0x2C#6, testAddr := addr }
  .next { s with dev := if write then d else { d with testData := s.dumpRead addr } }

/-- DUMPDATA_READ: a write transfer of DUMPDATA's offset and no data, and the read transfer that returns it. -/
def execDumpdataRead (s : State) : Host.Outcome State Fault Refusal :=
  .next { s with dev := { s.dev with mgmtOff := 0x98, dumpdata := s.dumpRead s.dev.dumpaddr } }

/-- What a read transfer on the management channel returns: the register at the offset that the last write transfer carried (R24). -/
def State.channelRead (s : State) : Word := if s.dev.mgmtOff = 0x98 then s.dumpRead s.dev.dumpaddr else s.regRead s.dev.mgmtOff

/-! ### Management commands (R24) -/

/-- The oldest write of MGMTCMD is taken; while BUSY it is discarded. -/
def mgmtStep (s : State) (f : State → Word → State) : Host.Outcome State Fault Refusal :=
  match s.dev.mgmtIn with
  | [] => .next s
  | v :: rest =>
    let s1 := { s with dev := { s.dev with mgmtIn := rest, mgmtOff := 0x80 } }
    .next (if bitAt s.dev.mgmtstat 31 then s1 else f s1 v)

/-- FREEZE. -/
def execFreezeCmd (s : State) : Host.Outcome State Fault Refusal := mgmtStep s fun s _ => (s.startFreeze 2).mgmtDone 0
/-- WARMRESET: a tripped device stays as it is, and the command ends with result 0 (log 25). -/
def execWarmresetCmd (s : State) : Host.Outcome State Fault Refusal := mgmtStep s fun s _ => (s.mgmtDone 0).startWarm
/-- CONT. -/
def execContCmd (s : State) : Host.Outcome State Fault Refusal := mgmtStep s fun s v => s.mgmtCont (field v 55 52) (field v 51 49)
/-- MALFORMED_COMMAND. -/
def execMalformedCommand (s : State) : Host.Outcome State Fault Refusal := mgmtStep s fun s _ => s.mgmtDone 1

/-! ### Register writes (R58 to R62, R66, R71) -/

/-- The oldest register write that can come is taken: applied when aligned and of the register's width, else discarded (R59). In a freeze only
the management channel's come (R24), whose offset is remembered. -/
def regStep (s : State) (f : State → RegAccess → State) : Host.Outcome State Fault Refusal :=
  match s.dev.regIn.findIdx? s.regServed with
  | none => .next s
  | some i =>
    let a := s.dev.regIn.getD i ⟨0, 0, 0, false⟩
    let s1 := { s with dev := { s.dev with regIn := ldrop s.dev.regIn i, mgmtOff := if a.fabric then s.dev.mgmtOff else a.off } }
    .next (if regWidth a.off = a.width ∧ a.width ≠ 0 then f s1 a else s1.herrUp a.fabric)

/-- REGISTER_WRITE. -/
def execRegisterWrite (s : State) : Host.Outcome State Fault Refusal := regStep s fun s a => s.regWrite a.off a.val
/-- DEVNUM_WRITE. -/
def execDevnumWrite (s : State) : Host.Outcome State Fault Refusal := regStep s fun s a => s.writeDevnum a.val.toNat
/-- FEATEN_WRITE. -/
def execFeatenWrite (s : State) : Host.Outcome State Fault Refusal := regStep s fun s a => s.writeFeaten a.val.toNat
/-- LQCTL_WRITE. -/
def execLqctlWrite (s : State) : Host.Outcome State Fault Refusal := regStep s fun s a => s.writeLqctl ((a.off - 0x2000) / 32) a.val
/-- SCQCTL_WRITE. -/
def execScqctlWrite (s : State) : Host.Outcome State Fault Refusal := regStep s fun s a => s.writeScqctl a.val

end Sys2Proof.Machine
end

