-- ==== Sys2Proof/Machine/EvReplica.lean ====
section
/-! DEFINITION. Elastic replication of a pipeline stage: copies, splitters, mergers, withdrawal (R99 to R101). -/

namespace Sys2Proof.Machine

/-! ### Elastic replication (R99 to R101) -/

/-- Whether a node keeps a stage from being replicated (R99, R97, R353, R394). A stage that works on its own tile's panels or MPE is not replicated
either (log 82). -/
def bindsStage (i : Instr) (n : NodeRec) : Bool :=
  decide (n.lsrc = .held) || decide (n.rsrc = .held) || match i with
  | .delay _ | .mrec _ | .ppset _ | .ppmul _ | .ppdiv _ | .ppcmb _ | .ppnrm _ | .ppout _ => true
  | .compact _ | .expand _ | .merge _ | .qmax _ | .qcvt _ => true
  | .tag n => decide (field n.mod 1 0 = 3)
  | .lastNode n => !n.mod.getLsbD 0 && decide (1 < n.lit.toNat)
  | .fan n => n.mod.getLsbD 0
  | .bin _ | .bout _ | .putNode _ | .getNode _ | .getr _ => true
  | .rls _ | .mldb _ | .mrow _ | .mqrow _ | .mout _ => true
  | _ => false

/-- Whether a unit is a stage that can be replicated. -/
def Bif.elastic (b : Bif) : Bool :=
  decide (b.phase = .mapped) && !b.image.hdr.control && decide (b.image.hdr.timing = 0) &&
  (b.image.recs.all fun x => match nodeRecOf x with
    | some (i, _, n) => !bindsStage i n
    | none => true) &&
  !b.image.declList.any fun d => match d with
    | .timed .. => true
    | _ => false

/-- Free tiles of a region's partition that adjoin the region, in row-major order. -/
def State.adjoining (s : State) (r : Region) : List Nat :=
  ((List.range 128).filter fun i =>
    let x := i % 16
    let y := i / 16
    decide (x + 1 ≥ r.x0 ∧ x ≤ r.x0 + r.w ∧ y + 1 ≥ r.y0 ∧ y ≤ r.y0 + r.hgt) && s.rectFree [] r.part x y 1 1).map fun i => r.part * 128 + i

/-- Input arcs of a block: the ports of its nodes that take tokens from no node of it. -/
def Image.inArcs (m : Image) : List (Nat × Port) :=
  let all := List.range (m.hdr.ncnt + 1)
  let fed := fun (i : Nat) (p : Port) => all.any fun j => match m.node j with
    | some (_, _, n) => decide (n.t0 = .node p (BitVec.ofNat 7 i) ∨ n.t1 = .node p (BitVec.ofNat 7 i))
    | none => false
  all.flatMap fun i => match m.node i with
    | some (ins, _, n) => ((tokenPorts ins n (m.ctlWired i)).filter fun p => !fed i p).map fun p => (i, p)
    | none => []

/-- ITAGs of the tokens and firings of a unit on a tile. -/
def Tile.workTags (t : Tile) (ctx bslot : Nat) : List Nat :=
  ((t.chans.filter fun c => decide (c.dest = .node ∧ c.tok.ctx = ctx ∧ c.tok.bslot = bslot) && !c.tok.flags.tear).map fun c => c.tok.itag.toNat) ++
  (t.pes.flatMap fun p => (p.2.entries.filter fun e => decide (e.ctx = ctx ∧ e.bslot = bslot)).map fun e => e.itag.toNat) ++
  (t.ready.filter fun f => decide (f.ctx = ctx ∧ f.bslot = bslot)).map fun f => f.itag.toNat

/-- ITAGs that a copy of a unit has at work, and those of its faults. -/
def State.copyTags (s : State) (r : Region) (b : Bif) (x : Split) (id : Nat) : List Nat :=
  ((copyTiles r b x.bslot id).flatMap fun k => (s.tile k).workTags r.ctx x.bslot) ++ (x.lost.filter fun l => decide (l.1 = id)).map fun l => l.2

/-- Whether every input arc of a unit holds a token that has come and waits. -/
def State.arcsHeld (s : State) (r : Region) (b : Bif) (bslot : Nat) : Bool :=
  !b.image.inArcs.isEmpty && (maskTiles r b).all fun k => b.image.inArcs.all fun a => (s.tile k).chans.any fun c =>
    decide (c.dest = .node ∧ c.left = 0 ∧ c.tok.ctx = r.ctx ∧ c.tok.bslot = bslot ∧ c.tok.node = a.1 ∧ c.tok.port = a.2)

/-- The arbiter window of a unit after one more cycle (R98, R99). -/
def StageUse.after (u : StageUse) (held : Bool) : StageUse :=
  let busy := u.busy + if held then 1 else 0
  if 4096 ≤ u.cycles + 1 then ⟨0, 0, busy⟩ else ⟨u.cycles + 1, busy, u.last⟩

/-- How long the input arcs of the mapped units of running regions have been held, after one more cycle (log 82). -/
def State.measureStages (s : State) (live : List (Nat × Region)) : Tab StageUse :=
  live.foldl (fun t e => (e.2.blocks.filter fun b => decide (b.2.phase = .mapped) && !b.2.image.hdr.control).foldl (fun t' b =>
    tput t' (e.1 * 8 + b.1) ((tgetD t' (e.1 * 8 + b.1) ⟨0, 0, 0⟩).after (s.arcsHeld e.2 b.2 b.1))) t) s.host.stages

/-- Whether teardown or a fault has come to a unit. -/
def State.unitEnding (s : State) (r : Region) (b : Bif) (bslot : Nat) : Bool :=
  (s.unitNodes r.ctx bslot (unitTiles r b bslot)).any (fun e => !e.2.2.2.tear.isEmpty || e.2.2.2.tearing || e.2.2.2.stopped) ||
  (maskTiles r b).any fun k => (s.tile k).chans.any fun c => decide (c.tok.ctx = r.ctx ∧ c.tok.bslot = bslot) && c.tok.flags.tear

/-- The splitter and mergers of a unit from its first copy on: what is at work stays the unit's own. -/
def State.newSplit (s : State) (key bslot : Nat) (r : Region) (b : Bif) : Split :=
  ⟨key, bslot, ((maskTiles r b).flatMap fun k => (s.tile k).workTags r.ctx bslot).foldl (fun t i => tput t i 0) [], 0, [], []⟩

/-- REPLICATE: one more copy of a stage whose input arcs were held for 75 % of the last arbiter window, at most 3 beside it, on free tiles. -/
def execReplicate (key bslot : Nat) (s : State) : Host.Outcome State Fault Refusal :=
  match tget s.regions key with
  | none => .next s
  | some r =>
    match tget r.blocks bslot with
    | none => .next s
    | some b =>
      let own := maskTiles r b
      let free := (s.adjoining r).take own.length
      let mine := r.replicas.filter fun x => decide (x.bslot = bslot)
      let use := tgetD s.host.stages (key * 8 + bslot) ⟨0, 0, 0⟩
      if !s.featenN.testBit 11 || decide (r.run ≠ .running) || r.cancelling || !b.elastic || decide (free.length < own.length) || decide (4 * use.last < 3 * 4096) ||
          decide (3 ≤ mine.length) || (mine.any fun x => x.draining) || s.unitEnding r b bslot then .next s
      else
        match placeNodes (fun _ _ => ⟨0, 0, 0⟩) (fun tile p => (s.tile tile).fenced.contains p) b.image bslot free (List.range (b.image.hdr.ncnt + 1)) [] [] with
        | .error _ => .next s
        | .ok ps =>
          let id := ((List.range 4).find? fun i => !(r.copies bslot).contains i).getD 3
          let places := (own.zip free).map fun p => ((r.ownTile p.1).getD 0, p.2 % 16 + 16 - r.x0, p.2 / 16 % 8 + 16 - r.y0)
          let s1 := if (s.splitOf key bslot).isSome then s
            else { s with host := { s.host with splits := s.host.splits ++ [s.newSplit key bslot r b] } }
          let s2 := (s1.emptyTiles free).putRegion key { r with replicas := r.replicas ++ [⟨bslot, id, places, false, false⟩] }
          .next (ps.foldl (fun s' q => s'.mapNode r bslot b.image q) s2)

/-! ### The mergers (R100) -/

/-- The first token that a merger of an arc holds from a copy. -/
def Split.headOf (x : Split) (arc id : Nat) : Option MergeTok := x.held.find? fun h => decide (h.copy = id ∧ h.chan.src = arc)

/-- A list without its first element that meets a test. -/
def dropFirst {α : Type} (p : α → Bool) : List α → List α
  | [] => []
  | a :: t => if p a then t else a :: dropFirst p t

/-- What a merger emits now, with the mergers after it: TEAR once it has come from every copy; else the token of the lowest ITAG, if no copy can
still send one of a lower ITAG on the arc. -/
def State.mergeArc (s : State) (r : Region) (b : Bif) (x : Split) (arc : Nat) : Option (MergeTok × Split) :=
  let ids := r.copies x.bslot
  let tear := fun (h : MergeTok) => h.chan.tok.flags.tear
  let heads := ids.filterMap (x.headOf arc)
  if ids.all fun id => (x.headOf arc id).any tear then
    heads.head?.map fun h => (h, { x with held := x.held.filter fun g => !(decide (g.chan.src = arc) && tear g) })
  else
    match (heads.filter fun h => !tear h).foldl (fun m h => match m with
      | none => some h
      | some g => if h.chan.tok.itag.toNat < g.chan.tok.itag.toNat then some h else m) none with
    | none => none
    | some h =>
      let i := h.chan.tok.itag.toNat
      let waits := ids.any fun id => match x.headOf arc id with
        | some _ => false
        | none => (s.copyTags r b x id).any fun j => decide (j < i)
      let late := x.lost.any fun l => decide (l.2 < i)
      if waits || late then none else some (h, { x with held := dropFirst (fun g => decide (g.copy = h.copy ∧ g.chan.src = arc)) x.held })

/-- One cycle of the mergers of a running region's units: each arc's emits at most one token. -/
def State.mergeUnit (s : State) (x : Split) : State :=
  match tget s.regions x.key with
  | none => s
  | some r =>
    match tget r.blocks x.bslot with
    | none => s
    | some b =>
      (x.held.foldl (fun l h => ninsert l h.chan.src) []).foldl (fun s' arc =>
        match s'.splitOf x.key x.bslot with
        | none => s'
        | some y => match s'.mergeArc r b y arc with
          | some (h, z) => (s'.putSplit z).toChan h.tile h.chan
          | none => s') s

/-- Whether the mergers of a firing's output arcs have room for what it sends: 64 tokens for each copy (R100). -/
def State.mergeRoom (s : State) (tile : Nat) (f : Firing) : Bool :=
  s.host.splits.isEmpty ||
  match s.regionOf tile with
  | none => true
  | some (key, r) => match s.splitOf key f.bslot with
    | none => true
    | some x => [0, 1].all fun k =>
      decide ((x.held.filter fun h => decide (h.copy = r.copyAt tile ∧ h.chan.src = arcOf (r.ownKey tile) f.bslot f.node f.copy k)).length < 64)

/-! ### Withdrawal (R101) -/

/-- Whether the dispatch unit needs tiles that copies hold: a launch that could be placed, or a parked region that could resume, finds no place. -/
def State.tilesNeeded (s : State) (die : Nat) : Bool :=
  ((List.range 8).any fun p => (s.runnable die p).any fun e => (s.placeable [] e.2 die).isNone) ||
  s.parked.any fun e => (s.placementDies e.2.region.ctx).contains die && (s.resumeSpots e.2).isEmpty

/-- The arc of a TEAR that the dispatch unit sends to a copy. -/
def tearSrc (tile node : Nat) (p : Port) : Nat := 2 ^ 43 + (tile * 128 + node) * 4 + portNum p

/-- TEAR to every input port of a copy. -/
def State.tearCopy (s : State) (r : Region) (b : Bif) (bslot : Nat) (x : Replica) : State :=
  x.places.foldl (fun s' pl => b.image.inArcs.foldl (fun s2 a =>
    let k := r.placeKey pl
    s2.injectAt k k r bslot b a.1 a.2 (tearSrc k a.1 a.2) (Token.tearTok r.ctx bslot a.1 a.2 0)) s') s

/-- A copy whose nodes are gone is removed; with the last one, the splitter and the mergers, whose tokens go on. -/
def State.dropCopy (s : State) (key bslot : Nat) (r : Region) (x : Replica) : State :=
  let r1 := { r with replicas := r.replicas.filter fun y => decide (y ≠ x) }
  let s1 := (s.emptyTiles (x.places.map r.placeKey)).putRegion key r1
  match s1.splitOf key bslot with
  | none => s1
  | some y =>
    let held := y.held.filter fun h => decide (h.copy ≠ x.id)
    if r1.replicas.any fun z => decide (z.bslot = bslot) then
      s1.putSplit { y with held := held, dealt := y.dealt.filter fun d => decide (d.2 ≠ x.id) }
    else
      held.foldl (fun s' h => s'.toChan h.tile h.chan)
        { s1 with host := { s1.host with splits := s1.host.splits.filter fun z => decide (z.key ≠ key ∨ z.bslot ≠ bslot) } }

/-- REPLICA_WITHDRAW: where the dispatch unit needs its tiles, dealing to a copy stops; once it has drained it is sent TEAR; and when it has torn down
it is removed. -/
def execReplicaWithdraw (key bslot : Nat) (s : State) : Host.Outcome State Fault Refusal :=
  match tget s.regions key with
  | none => .next s
  | some r =>
    match tget r.blocks bslot, s.splitOf key bslot, (r.replicas.filter fun x => decide (x.bslot = bslot)).reverse with
    | some b, some y, x :: _ =>
      let set := fun (z : Replica) => { r with replicas := r.replicas.map fun w => if w = x then z else w }
      if r.run ≠ .running then .next s
      else if !x.draining then .next (if s.tilesNeeded (dieOf r.part) then s.putRegion key (set { x with draining := true }) else s)
      else if !x.torn then
        .next (if (s.copyTags r b y x.id).isEmpty then (s.tearCopy r b bslot x).putRegion key (set { x with torn := true }) else s)
      else .next (if (s.unitNodes r.ctx bslot (x.places.map r.placeKey)).isEmpty then s.dropCopy key bslot r x else s)
    | _, _, _ => .next s

end Sys2Proof.Machine
end

