-- ==== Sys2Proof/Machine/NodePanel.lean ====
section
/-! DEFINITION. Node records of group 9: named panels (R139 to R146, R152, R423 to R425), and the panel read that MLDB shares. -/

namespace Sys2Proof.Machine

/-! ### Names and fold faults -/

/-- AUX1 of a fold code: STMT and slot row (Table 10.2). -/
def foldAux1 (idx row : Nat) : Word := BitVec.ofNat 64 (idx % 256 + row % 8192 * 256)

/-- A fold fault that names no slot. -/
def Site.foldRec (x : Site) (s : State) (n : NodeRec) (code reason : Nat) : FaultRec :=
  x.faultRec s code reason 0 0 0 0 (foldAux1 n.mod.toNat 0)

/-- A fold fault against a slot: FCNT rises, the record names statement, slot and vectors (R142, R146). -/
def State.slotFault (s : State) (x : Site) (n : NodeRec) (code reason row want held : Nat) : FireRes :=
  .fault (s.putTile x.tile ((s.tile x.tile).foldFault row))
    (x.faultRec s code reason 0 0 0 (BitVec.ofNat 64 (want % 2 ^ 32 * 2 ^ 32 + held % 2 ^ 32)) (foldAux1 n.mod.toNat row))

/-- The statement and name of a firing, or its fault (R139, R152). -/
inductive PanelName where
  | fault (f : FaultRec)
  | boundary (st : Stmt)
  | name (st : Stmt) (ds : List Nat)
  deriving DecidableEq, Repr

def Site.panelName (x : Site) (s : State) (n : NodeRec) (shape : Stmt → Bool) : PanelName :=
  match tget (s.tile x.tile).stmts n.mod.toNat with
  | none => .fault (x.foldRec s n cUndeclared 0)
  | some st =>
    if !shape st then .fault (x.foldRec s n cPanelShape 4)
    else
      match nameOf st x.widths x.f.itag.toNat n.lit with
      | .mismatch => .fault (x.foldRec s n cNameMismatch 0)
      | .boundary => .boundary st
      | .name ds => .name st ds

/-- Whether a statement has the node's format (R423, R424). -/
def fmtShape (n : NodeRec) (st : Stmt) : Bool := decide (st.fmt = Rules.fmtCode n.fmt)

/-! ### Reads (Table 6.4) -/

/-- How the evaluation of a read ends. -/
inductive ReadOut where
  | fault (r : FireRes)
  | boundary (st : Stmt)
  | waits
  | issued (s : State) (st : Stmt) (row : Nat)
  deriving DecidableEq, Repr

/-- Evaluates a read: at the first applicable row of Table 6.4, a claim is taken where it issues. -/
def State.panelRead (s : State) (x : Site) (n : NodeRec) (shape : Stmt → Bool) : ReadOut :=
  match x.panelName s n shape with
  | .fault f => .fault (.fault s f)
  | .boundary st => .boundary st
  | .name st ds =>
    let t := s.tile x.tile
    let row := st.slotRow ds
    match t.readName st n.mod.toNat x.widths ds with
    | .waits => .waits
    | .issues => .issued (s.putTile x.tile (t.claim row)) st row
    | .expired r => .fault (s.slotFault x n cExpired r row (undims x.widths ds) (if r = 3 then 0 else (t.slot row).vec))

/-- A read counted at a slot that still holds the statement. -/
def State.countRead (s : State) (x : Site) (n : NodeRec) (row : Nat) : State :=
  let t := s.tile x.tile
  let e := t.slot row
  if e.held && decide (e.stmt = n.mod.toNat) then s.putTile x.tile (t.countRead row) else s

/-- A firing that waits on a slot. -/
def State.waitSlot (s : State) (x : Site) : FireRes := .stay (s.putFiring x { x.f with st := .slot })

/-- A firing that has issued, or found a boundary read: it serves `rows` tokens from a slot row; `aux` holds slot row, number of
tokens, and 1 for a boundary read. -/
def State.serve (s : State) (x : Site) (row rows : Nat) (boundary : Bool) : FireRes :=
  .stay (s.putFiring x { x.f with st := .ready, begun := true, row := 0, aux := [row, rows, if boundary then 1 else 0] })

/-- Token `k` of a panel row (R424). -/
def Site.rowOut (x : Site) (k : Nat) (last : Bool) (r : Row) : Out :=
  let w0 := x.widths.getD 0 32
  let i := x.f.itag.toNat
  ⟨BitVec.ofNat 32 (i / 2 ^ w0 * 2 ^ w0 + (i % 2 ^ w0 + k) % 2 ^ w0), last, false, r.scaled, false, r.mixed, r.loff, r.lanes⟩

/-- A row with every element invalid. -/
def Site.noRow (x : Site) (n : NodeRec) : Row := ⟨noLanes, scaledOf (x.dataToks n false), false, noLoff⟩

/-- Sends one token of a firing that goes on. -/
def State.sendSome (s : State) (x : Site) (n : NodeRec) (o : Out) (next : Firing) : FireRes :=
  let out := x.sends n o
  .stay (((s.fireFlags x.key x.tile x.f.pe (psnFlag out)).sendAll x n 1 0 out).putFiring x next)

/-- Serves token `row` of a begun GET or GETR, and on the last one counts the read and ends. -/
def State.serveRow (s : State) (x : Site) (n : NodeRec) (pick : Nat → Row) : FireRes :=
  let k := x.f.row
  let rows := x.f.aux.getD 1 1
  let boundary := decide (x.f.aux.getD 2 0 = 1)
  let o := x.rowOut k (decide (rows ≤ k + 1)) (if boundary then x.noRow n else pick k)
  if rows ≤ k + 1 then
    .fired (if boundary then s else s.countRead x n (x.f.aux.getD 0 0)) (x.sends n o) 0
  else s.sendSome x n o { x.f with row := k + 1 }

/-- A GET's turn (R424). -/
def getTurn (n : NodeRec) (s : State) (x : Site) : FireRes :=
  if x.f.begun then s.serveRow x n fun k => (s.tile x.tile).row (x.f.aux.getD 0 0 + k)
  else if !x.selected n then .fired s (x.sends n (x.memOut n noLanes)) 0
  else
    match s.panelRead x n (fmtShape n) with
    | .fault r => r
    | .boundary st => s.serve x 0 st.rows true
    | .waits => s.waitSlot x
    | .issued s1 st row => s1.serve x row st.rows false

/-- GET. -/
def execGetNode (n : NodeRec) (s : State) : Host.Outcome State Fault Refusal := fireNode s n (latency 0x241 n) 0 (getTurn n)

/-- The row that index element `e` of GETR names (R425). -/
def getrRow (t : Tile) (base rows : Nat) (l : Lane) : Row :=
  if l.val.toNat < rows then
    let r := t.row (base + l.val.toNat)
    if l.poison then { r with lanes := r.lanes.map fun m => { m with poison := m.valid } } else r
  else ⟨noLanes, false, false, noLoff⟩

/-- A GETR's turn (R425). -/
def getrTurn (n : NodeRec) (s : State) (x : Site) : FireRes :=
  let idx := (x.opB n .n32).filter fun l => l.valid
  if x.f.begun then
    s.serveRow x n fun k => match idx[k]? with
      | some l => getrRow (s.tile x.tile) (x.f.aux.getD 0 0) (x.f.aux.getD 3 0) l
      | none => x.noRow n
  else
    match s.panelRead x n (fmtShape n) with
    | .fault r => r
    | .boundary st => s.serve x 0 st.rows true
    | .waits => s.waitSlot x
    | .issued s1 st row =>
      .stay (s1.putFiring x { x.f with st := .ready, begun := true, row := 0, aux := [row, max 1 idx.length, 0, st.rows] })

/-- GETR. -/
def execGetr (n : NodeRec) (s : State) : Host.Outcome State Fault Refusal := fireNode s n (latency 0x242 n) 0 (getrTurn n)

/-- An RLS's turn: it issues and counts in one cycle (R424). -/
def rlsTurn (n : NodeRec) (s : State) (x : Site) : FireRes :=
  let out := x.sends n (x.memOut n noLanes)
  if !x.selected n then .fired s out 0
  else
    match s.panelRead x n (fmtShape n) with
    | .fault r => r
    | .boundary _ => .fired s out 0
    | .waits => s.waitSlot x
    | .issued s1 _ row => .fired (s1.countRead x n row) out 0

/-- RLS. -/
def execRls (n : NodeRec) (s : State) : Host.Outcome State Fault Refusal := fireNode s n (latency 0x243 n) 0 (rlsTurn n)

/-! ### PUT (Table 6.3, R144, R423) -/

/-- The row a PUT stores from its token. -/
def rowOfTok (t : Token) : Row := ⟨t.lanes, t.flags.scaled, t.flags.mixed, t.loff⟩

/-- A row of the panel in progress written at RCNT; LAST closes the panel. -/
def State.putRowAt (s : State) (x : Site) (n : NodeRec) (st : Stmt) (row vec : Nat) (t : Token) : FireRes :=
  let tl := s.tile x.tile
  let e := tl.slot row
  let mine := e.held && decide (e.stmt = n.mod.toNat) && decide (e.vec = vec) && decide (e.st = .filling) && decide (e.wnode = x.f.node)
  if !mine then s.slotFault x n cFoldOrder 0 row vec e.vec
  else if t.flags.last && decide (e.rcnt + 1 ≠ st.rows) then s.slotFault x n cPanelShape 0 row vec e.vec
  else if !t.flags.last && decide (st.rows ≤ e.rcnt) then s.slotFault x n cPanelShape 0 row vec e.vec
  else
    let t1 := tl.putRow row e.rcnt (rowOfTok t)
    if t.flags.last then
      .fired ((s.putTile x.tile (t1.finishFill row)).putInst x { x.inst with name := none }) (x.sends n (x.complOut n [])) 0
    else
      .fired ((s.putTile x.tile (t1.putSlot row { e with rcnt := e.rcnt + 1 })).putInst x { x.inst with name := some (row, vec) }) [] 0

/-- A PUT's turn: the first row of a panel meets Table 6.3, later rows join the panel. -/
def putTurn (n : NodeRec) (s : State) (x : Site) : FireRes :=
  match x.f.l with
  | none => .fired s [] 0
  | some t =>
    match x.inst.name with
    | some (row, vec) =>
      match tget (s.tile x.tile).stmts n.mod.toNat with
      | none => .fault s (x.foldRec s n cUndeclared 0)
      | some st => s.putRowAt x n st row vec t
    | none =>
      match x.panelName s n (fmtShape n) with
      | .fault f => .fault s f
      | .boundary _ => .fault s (x.foldRec s n cNameRange 0)
      | .name st ds =>
        let tl := s.tile x.tile
        let row := st.slotRow ds
        let vec := undims x.widths ds
        match tl.putFirst st n.mod.toNat x.widths ds with
        | .order => s.slotFault x n cFoldOrder 0 row vec (tl.slot row).vec
        | .stalls => s.waitSlot x
        | .begins => (s.putTile x.tile (tl.beginFill st n.mod.toNat x.widths ds x.f.node)).putRowAt x n st row vec t

/-- PUT. -/
def execPutNode (n : NodeRec) (s : State) : Host.Outcome State Fault Refusal := fireNode s n (latency 0x240 n) 0 (putTurn n)

end Sys2Proof.Machine
end

