-- ==== Sys2Proof/Machine/Sfu.lean ====
section
/-! DEFINITION. FSFU (R386): reference values of the functions to within 2^-60, the bounds of Table 17.4 around them, exact cases and the
special operands of Table 17.5. The bits inside a bound are the implementation's: Config.sfu, taken where it meets the bound (log 1). -/

namespace Sys2Proof.Machine

/-! ### Fixed point of 96 fraction bits -/

def fxOne : Int := 2 ^ 96
/-- ln 2 and 2π. -/
def fxLn2 : Int := 54916777467707473351141471128
def fxTwoPi : Int := 497805226624462170461043889244

def fxMul (a b : Int) : Int := a * b / fxOne

/-- A dyadic m × 2^e as fixed point, truncated. -/
def fxOf (m e : Int) : Int := if 0 ≤ e + 96 then m * 2 ^ (e + 96).toNat else m / 2 ^ (-(e + 96)).toNat

/-- Taylor sum of e^t: `n` terms from term `k` on. -/
def fxExpFrom (t : Int) : Nat → Int → Int → Int → Int
  | 0, _, _, acc => acc
  | n + 1, k, term, acc => let u := fxMul term t / k; fxExpFrom t n (k + 1) u (acc + u)

/-- e^t for 0 ≤ t < 1. -/
def fxExp (t : Int) : Int := fxExpFrom t 40 1 fxOne fxOne

/-- e^x as (E, k): E × 2^(k - 96), x clipped to ±300. -/
def fxExpOf (x : Int) : Int × Int :=
  let x := clampI x (-300 * fxOne) (300 * fxOne)
  let k := x / fxLn2
  (fxExp (x - k * fxLn2), k)

/-- 2 atanh z, `n` terms from z^k / k on. -/
def fxAtanhFrom (z2 : Int) : Nat → Int → Int → Int → Int
  | 0, _, _, acc => 2 * acc
  | n + 1, k, pow, acc => fxAtanhFrom z2 n (k + 2) (fxMul pow z2) (acc + pow / k)

/-- log2 of a fixed-point number in [1, 2). -/
def fxLog2 (m : Int) : Int :=
  let z := (m - fxOne) * fxOne / (m + fxOne)
  fxAtanhFrom (fxMul z z) 40 1 z 0 * fxOne / fxLn2

/-- Alternating Taylor sum of sine (from k = 2) or cosine (from k = 1). -/
def fxTrigFrom (r2 : Int) : Nat → Int → Int → Int → Int
  | 0, _, _, acc => acc
  | n + 1, k, term, acc => let u := -(fxMul term r2 / (k * (k + 1))); fxTrigFrom r2 n (k + 2) u (acc + u)

def fxSin (x : Int) : Int := let r := x % fxTwoPi; fxTrigFrom (fxMul r r) 40 2 r r
def fxCos (x : Int) : Int := let r := x % fxTwoPi; fxTrigFrom (fxMul r r) 40 1 fxOne fxOne

/-- A fixed-point number as a result. -/
def fxEy (x : Int) : Ey := .num (decide (x < 0)) x.natAbs 1 (-96)

/-! ### Reference values -/

/-- The exponent and odd mantissa of a non-zero number. -/
def oddPart : Nat → Nat → Int → Nat × Int
  | 0, m, e => (m, e)
  | n + 1, m, e => if m % 2 = 0 then oddPart n (m / 2) (e + 1) else (m, e)

/-- Argument of sine and cosine: x, or above 2^15 x - k·P with P = 0x40C9_0FDB (Table 17.4). -/
def trigArg (neg : Bool) (m : Nat) (e : Int) : Int :=
  let s : Int := if neg then -1 else 1
  if decide (m * 2 ^ (e + 200).toNat ≤ 2 ^ 215) then s * fxOf m e
  else
    let p : Int := 13176795
    let v := fxOf m (e + 21 - 96)
    let k := (2 * v + p) / (2 * p)
    s * fxOf (v - k * p) (-21)

/-- The value of a function at a finite non-zero operand, where it is not a special case: ±(n / d) × 2^e. -/
def sfuRef (fn : Nat) (neg : Bool) (m : Nat) (e : Int) : Ey :=
  let s : Int := if neg then -1 else 1
  match fn with
  | 0 => .num neg 1 m (-e)
  | 1 =>
    let r := if e % 2 = 0 then Nat.sqrt (m * 2 ^ 128) else Nat.sqrt (2 * m * 2 ^ 128)
    .num false (2 ^ 64) r (-(e / 2))
  | 2 =>
    let v := if e % 2 = 0 then m * 2 ^ 128 else 2 * m * 2 ^ 128
    let r := Nat.sqrt v
    if r * r = v then .num false r 1 (e / 2 - 64) else .num false (2 * r + 1) 1 (e / 2 - 65)
  | 3 =>
    let x := clampI (s * fxOf m e) (-400 * fxOne) (400 * fxOne)
    let k := x / fxOne
    .num false (fxExp (fxMul (x - k * fxOne) fxLn2)).natAbs 1 (k - 96)
  | 4 =>
    let b : Int := (Nat.log2 m : Int)
    fxEy ((e + b) * fxOne + fxLog2 (fxOf m (-b)))
  | 5 => fxEy (fxSin (trigArg neg m e))
  | 6 => fxEy (fxCos (trigArg neg m e))
  | 7 =>
    if (Nat.log2 m : Int) + e < -12 then .num neg (m * (3 * 2 ^ (-2 * e).toNat - m * m)) 3 (3 * e)
    else
      let r := fxExpOf (2 * fxOf m e)
      let t := r.1 * 2 ^ r.2.toNat
      .num neg (t - fxOne).natAbs (t + fxOne).natAbs 0
  | _ =>
    let r := fxExpOf (s * fxOf m e)
    if 0 ≤ r.2 then .num false (r.1 * 2 ^ r.2.toNat).natAbs (fxOne + r.1 * 2 ^ r.2.toNat).natAbs 0
    else .num false r.1.natAbs (fxOne * 2 ^ (-r.2).toNat + r.1).natAbs 0

/-! ### Bounds (Table 17.4) -/

/-- Whether |c - r| ≤ b for c = ±m·2^e, r = ±(n/d)·2^k and b = bn·2^be, with 2^-20 of slack. -/
def withinBound (cneg : Bool) (m : Nat) (e : Int) (rneg : Bool) (n d : Nat) (k : Int) (bn : Nat) (be : Int) : Bool :=
  let lo := min e (min k (be - 20))
  let c : Int := (if cneg then -1 else 1) * (shl m (e - lo) * d : Nat)
  let r : Int := (if rneg then -1 else 1) * (shl n (k - lo) : Nat)
  let b : Nat := shl (bn * (2 ^ 20 + 1)) (be - 20 - lo) * d
  decide ((c - r).natAbs ≤ b)

/-- The bound of a function around a reference value: units and exponent. -/
def sfuBound (fn : Nat) (n d : Nat) (k : Int) (nearOne : Bool) : Nat × Int :=
  let ulp := max (floorLog2 n d + k) (-126) - 23
  match fn with
  | 0 => (1, ulp)
  | 4 => if nearOne then (1, -22) else (2, ulp)
  | 5 | 6 => (1, -21)
  | _ => (2, ulp)

/-- Whether an operand of log2 lies in [0.75, 1.5]. -/
def nearOne (m : Nat) (e : Int) : Bool := decide (finCmp false m e false 3 (-2) ≠ -1) && decide (finCmp false m e false 3 (-1) ≠ 1)

/-- The exact cases of Table 17.4 at a finite non-zero operand. -/
def sfuExact (fn : Nat) (neg : Bool) (m : Nat) (e : Int) : Option Ey :=
  let o := oddPart 200 m e
  let pow2 := decide (o.1 = 1)
  match fn with
  | 0 => if pow2 ∧ -127 ≤ o.2 ∧ o.2 ≤ 126 then some (.num neg 1 1 (-o.2)) else none
  | 1 => if pow2 ∧ o.2 % 2 = 0 then some (.num false 1 1 (-(o.2 / 2))) else none
  | 3 =>
    if 0 ≤ o.2 ∧ o.2 < 8 then
      let v : Int := (if neg then -1 else 1) * (o.1 * 2 ^ o.2.toNat : Nat)
      if -126 ≤ v ∧ v ≤ 127 then some (.num false 1 1 v) else none
    else none
  | 4 => if pow2 then some (.num (decide (o.2 < 0)) o.2.natAbs 1 0) else none
  | 7 => if finCmp false m e false 10 0 ≠ -1 then some (.num neg 1 1 0) else none
  | _ => none

/-- The value y of FSFU at a finite non-zero operand, and whether NX is set (R386). -/
def sfuFinite (f : Fmt) (mode fn : Nat) (neg : Bool) (m : Nat) (e : Int) (xbits : Nat) : Ey × Bool :=
  match sfuExact fn neg m e with
  | some y => (y, false)
  | none =>
    match sfuRef fn neg m e with
    | .num rneg n0 d k0 =>
      let n := if n0 = 0 then 1 else n0
      let k := if n0 = 0 then -200 else k0
      if fn = 2 then
        let r := fpRound .f32 mode false n d k
        ((fvOf .f32 r.bits).ey, r.inexact)
      else
        let r := fpRound .f32 0 rneg n d k
        if r.ovf then (.num rneg n d k, true)
        else
          let b := sfuBound fn n d k (nearOne m e)
          match fvOf .f32 (Config.sfu fn xbits (Rules.fmtCode f) % 2 ^ 32) with
          | .fin cneg cm ce =>
            if withinBound cneg cm ce rneg n d k b.1 b.2 then (.num cneg cm 1 ce, true) else ((fvOf .f32 (fpSign .f32 rneg + r.bits)).ey, true)
          | _ => ((fvOf .f32 (fpSign .f32 rneg + r.bits)).ey, true)
    | y => (y, true)

/-- FSFU at any operand: the value y, the flags beside R257's, whether NX is set (Table 17.5). -/
def sfuEy (f : Fmt) (mode fn : Nat) (x : Fv) (xbits : Nat) : Ey × BitVec 10 × Bool :=
  let fin := fun (neg : Bool) (n : Nat) (e : Int) => ((Ey.num neg n 1 e, (0 : BitVec 10), false) : Ey × BitVec 10 × Bool)
  let nan : Ey × BitVec 10 × Bool := (.nan true, 0, false)
  match x with
  | .nan b => (.nan (Fv.isSnan (.nan b)), 0, false)
  | .inf neg =>
    match fn with
    | 0 => fin neg 0 0
    | 1 => if neg then nan else fin false 0 0
    | 2 | 4 => if neg then nan else (.inf false, 0, false)
    | 3 => if neg then fin false 0 0 else (.inf false, 0, false)
    | 5 | 6 => nan
    | 7 => fin neg 1 0
    | _ => if neg then fin false 0 0 else fin false 1 0
  | .fin neg m e =>
    if m = 0 then
      match fn with
      | 0 | 1 => (.inf neg, fDZ, false)
      | 2 | 5 | 7 => fin neg 0 0
      | 3 | 6 => fin false 1 0
      | 4 => (.inf true, fDZ, false)
      | _ => fin false 1 (-1)
    else if neg && (fn = 1 || fn = 2 || fn = 4) then nan
    else
      let r := sfuFinite f mode fn neg m e xbits
      (r.1, 0, r.2)

/-- Whether a result lies below the smallest normal of a format. -/
def tinyEy (f : Fmt) : Ey → Bool
  | .num _ n d e => decide (n = 0) || decide (floorLog2 n d + e < fpEmin f)
  | _ => false

/-- One value of FSFU under a policy. -/
def sfuVal (f : Fmt) (p : BitVec 8) (fn a : Nat) : VRes :=
  let x := polIn p (fvOf f a)
  let xbits := match x with
    | .fin neg m e => fpSign .f32 neg + (if m = 0 then 0 else (fpRound .f32 0 neg m 1 e).bits)
    | _ => 0
  let y := sfuEy f (polRnd p) fn x xbits
  let r := policy f p (polRnd p) [x] y.1
  { r with flags := r.flags ||| y.2.1 ||| (if y.2.2 then fNX else 0) ||| (if y.2.2 && tinyEy f y.1 then fUF else 0) }

end Sys2Proof.Machine
end

