-- ==== Sys2Proof/Machine/NodeFloat.lean ====
section
/-! DEFINITION. Node records of groups 3 and 4: floating point, special functions, conversions (R378 to R390). -/

namespace Sys2Proof.Machine

/-! ### Shells -/

/-- Whether RS finds an operand with a scale still to apply (R266); `c` where the control port is a data operand. -/
def Site.unscaled (x : Site) (n : NodeRec) (c : Bool) : Bool := n.mod.getLsbD 7 && (x.dataToks n c).any fun t => !t.flags.scaled

/-- A firing that raises scale mismatch under RS, and otherwise has one output. -/
def fireScaled (s : State) (n : NodeRec) (op : Nat) (c : Bool) (g : Site → Out × BitVec 10) : Host.Outcome State Fault Refusal :=
  fireNode s n (latency op n) 0 fun s x =>
    if x.unscaled n c then .fault s (x.rec0 s cScale 0)
    else match g x with
      | (o, fl) => .fired s (x.sends n o) fl

/-- A firing on each value of the left operand under the PE's policy. -/
def fireFp1 (s : State) (n : NodeRec) (op : Nat) (g : BitVec 8 → Nat → VRes) : Host.Outcome State Fault Refusal :=
  fireScaled s n op false fun x => match mapLanes n.fmt (x.sel n) [x.opA n n.fmt] fun v => g x.pol (v.getD 0 0) with
    | (ls, fl) => (x.out n false ls, fl)

/-- A firing on each pair of values of both operands under the PE's policy. -/
def fireFp2 (s : State) (n : NodeRec) (op : Nat) (g : BitVec 8 → Nat → Nat → VRes) : Host.Outcome State Fault Refusal :=
  fireScaled s n op false fun x => match mapLanes n.fmt (x.sel n) [x.opA n n.fmt, x.opB n n.fmt] fun v => g x.pol (v.getD 0 0) (v.getD 1 0) with
    | (ls, fl) => (x.out n false ls, fl)

/-! ### Arithmetic (R380 to R385) -/

/-- FADD. -/
def execFadd (n : NodeRec) (s : State) : Host.Outcome State Fault Refusal := fireFp2 s n 0x0C0 (fpAdd n.fmt)

/-- FSUB. -/
def execFsub (n : NodeRec) (s : State) : Host.Outcome State Fault Refusal := fireFp2 s n 0x0C1 (fpSub n.fmt)

/-- FMUL. -/
def execFmul (n : NodeRec) (s : State) : Host.Outcome State Fault Refusal := fireFp2 s n 0x0C2 (fpMul n.fmt)

/-- FFMA: the addend is LIT, or the control token (R381). -/
def execFfma (n : NodeRec) (s : State) : Host.Outcome State Fault Refusal :=
  let c := n.mod.getLsbD 0
  fireScaled s n 0x0C3 c fun x =>
    match mapLanes n.fmt (x.sel n) [x.opA n n.fmt, x.opB n n.fmt, if c then x.opC else litLanes n.fmt n.lit] fun v =>
      fpFma n.fmt x.pol (v.getD 0 0) (v.getD 1 0) (v.getD 2 0) with
    | (ls, fl) => (x.out n c ls, fl)

/-- FMIN. -/
def execFmin (n : NodeRec) (s : State) : Host.Outcome State Fault Refusal := fireFp2 s n 0x0C4 (fpLesser n.fmt)

/-- FMAX. -/
def execFmax (n : NodeRec) (s : State) : Host.Outcome State Fault Refusal := fireFp2 s n 0x0C5 (fpGreater n.fmt)

/-- FCMP. -/
def execFcmp (n : NodeRec) (s : State) : Host.Outcome State Fault Refusal :=
  fireFp2 s n 0x0C6 fun p a b => fpCmp n.fmt p (field n.mod 2 0) a b

/-- The sign FSGN gives (R384). -/
def fsgnBit (mode : Nat) (a b : Bool) : Bool :=
  match mode with
  | 0 => b
  | 1 => !b
  | _ => a != b

/-- FSGN: a bit operation; no policy, no flag. -/
def execFsgn (n : NodeRec) (s : State) : Host.Outcome State Fault Refusal :=
  fireFp2 s n 0x0C7 fun _ a b =>
    let top := Rules.fmtWidth n.fmt - 1
    VRes.plain (a % 2 ^ top + if fsgnBit (field n.mod 1 0) (a.testBit top) (b.testBit top) then 2 ^ top else 0)

/-- FCLASS: before any flush, no flag; PSN poisons on a non-finite value. -/
def execFclass (n : NodeRec) (s : State) : Host.Outcome State Fault Refusal :=
  fireFp1 s n 0x0C8 fun p a => ⟨fpClass n.fmt a, 0, polPsn p && !(fvOf n.fmt a).finite⟩

/-- FSFU. -/
def execFsfu (n : NodeRec) (s : State) : Host.Outcome State Fault Refusal :=
  fireFp1 s n 0x100 fun p a => sfuVal n.fmt p (field n.mod 3 0) a

/-! ### Conversions (R387 to R390) -/

/-- The rounding mode of a conversion: RM under ROV, else RND (R378). -/
def convMode (n : NodeRec) (p : BitVec 8) : Nat := if n.mod.getLsbD 6 then field n.mod 5 4 else polRnd p

/-- Values a token holds in a format. -/
def valCount (f : Fmt) : Nat := if isPair f then 8 else 16 * perElem f

/-- The sources of a conversion's output values, each with the lane it stands in; none where there is none (R387). -/
def convSrcs (src dst : Fmt) (a b : List Lane) (right : Bool) (part : Nat) : List (Option (Nat × Lane)) :=
  let vs := valCount src
  let vt := valCount dst
  let get := fun (ls : List Lane) j => ((allVals src ls).getD j 0, unitLane src ls (elemOf src j))
  (List.range vt).map fun j =>
    if vt ≤ vs then some (get a (j + if vt < vs then part * vt else 0))
    else if j < vs then some (get a j)
    else if right && decide (j < 2 * vs) then some (get b (j - vs))
    else none

/-- Lanes of output values, each with its source's lane: an element is valid when every value of it has a valid source (R387); `keep` as for
`mapLanes`. -/
def convLanes (dst : Fmt) (keep : Nat → Bool) (srcs : List (Option (Nat × Lane))) (g : Nat → VRes) : List Lane × BitVec 10 :=
  let per := if isPair dst then 1 else perElem dst
  let units := (List.range (valCount dst / per)).map fun i =>
    let mine := (srcs.drop (per * i)).take per
    let valid := mine.all fun o => o.elim false fun p => p.2.valid
    let rs := mine.map fun o => o.elim (VRes.plain 0) fun p => g p.1
    let psn := (mine.any fun o => o.elim false fun p => p.2.poison) || rs.any fun r => r.psn
    let fl := if valid && keep (if isPair dst then 2 * i else i) then rs.foldl (fun f r => f ||| r.flags) 0 else 0
    if isPair dst then (mkPair ((rs.map fun r => r.bits).getD 0 0) valid psn, fl)
    else ([mkLane (packVals (Rules.fmtWidth dst) (rs.map fun r => r.bits)) valid psn], fl)
  (units.flatMap fun u => u.1, units.foldl (fun f u => f ||| u.2) 0)

/-- A conversion node: source format in MOD 3:0, a function of each value. -/
def fireConv (s : State) (n : NodeRec) (op : Nat) (g : BitVec 8 → Nat → Nat → VRes) : Host.Outcome State Fault Refusal :=
  fireScaled s n op false fun x =>
    let src := Rules.srcFmt n
    match convLanes n.fmt (x.sel n) (convSrcs src n.fmt (x.opA n src) (x.opB n src) (decide (n.rsrc ≠ .zero)) (field n.lit 1 0)) fun v =>
      g x.pol (convMode n x.pol) v with
    | (ls, fl) =>
      let o := x.out n false ls
      (if valCount src = valCount n.fmt then o else o.plain, fl)

/-- CVT. -/
def execCvt (n : NodeRec) (s : State) : Host.Outcome State Fault Refusal :=
  fireConv s n 0x101 fun p mode v =>
    let x := polIn p (fvOf (Rules.srcFmt n) v)
    policy n.fmt p mode [x] x.ey

/-- FTOI. -/
def execFtoi (n : NodeRec) (s : State) : Host.Outcome State Fault Refusal :=
  fireConv s n 0x102 fun p mode v => toInt n.fmt p mode (polIn p (fvOf (Rules.srcFmt n) v))

/-- ITOF. -/
def execItof (n : NodeRec) (s : State) : Host.Outcome State Fault Refusal :=
  fireConv s n 0x103 fun p mode v =>
    let x := intOf (Rules.srcFmt n) v
    policy n.fmt p mode [] (.num (decide (x < 0)) x.natAbs 1 0)

/-- FRND: an integral value in the same format, the sign kept, infinities unchanged, never NX (R390). -/
def frndVal (f : Fmt) (p : BitVec 8) (mode a : Nat) : VRes :=
  let x := polIn p (fvOf f a)
  match x with
  | .fin neg m e => policy f p mode [x] (.num neg (roundInt mode neg m 1 e).1.natAbs 1 0)
  | _ => policy f (noSat p) mode [x] x.ey

/-- FRND. -/
def execFrnd (n : NodeRec) (s : State) : Host.Outcome State Fault Refusal :=
  fireFp1 s n 0x104 fun p a => frndVal n.fmt p (convMode n p) a

end Sys2Proof.Machine
end

