-- ==== Sys2Proof/Machine/NodeLane.lean ====
section
/-! DEFINITION. Node records of group 2: values between lanes, dense and ragged streams, widths, token control (R365 to R377). -/

namespace Sys2Proof.Machine

/-! ### Between lanes (R365) -/

/-- Number of elements, or pairs, of a token in a format. -/
def unitCount (f : Fmt) : Nat := if isPair f then 8 else 16

/-- Element, or pair, `i` of a token, as its lanes. -/
def unitLanes (f : Fmt) (ls : List Lane) (i : Nat) : List Lane :=
  if isPair f then [laneAt ls (2 * i), laneAt ls (2 * i + 1)] else [laneAt ls i]

/-- The first element of unit `i`. -/
def unitElem (f : Fmt) (i : Nat) : Nat := if isPair f then 2 * i else i

/-- Units with nothing in them. -/
def offUnit (f : Fmt) : List Lane := if isPair f then [Lane.off, Lane.off] else [Lane.off]

/-- A token's lanes from a source for each unit. -/
def gatherUnits (f : Fmt) (a : List Lane) (src : Nat → Option Nat) : List Lane :=
  (List.range (unitCount f)).flatMap fun i => match src i with
    | some j => unitLanes f a j
    | none => offUnit f

/-- PERM. -/
def execPerm (n : NodeRec) (s : State) : Host.Outcome State Fault Refusal :=
  firePure s n 0x080 fun x =>
    let a := pairLanes n.fmt (x.opA n n.fmt)
    let b := pairLanes n.fmt (x.opB n n.fmt)
    let lanes := (List.range (unitCount n.fmt)).flatMap fun i =>
      let k := laneAt b (unitElem n.fmt i)
      if bitAt k.val 31 || !k.valid then offUnit n.fmt
      else (unitLanes n.fmt a (k.val.toNat % unitCount n.fmt)).map fun l => mkLane l.val.toNat l.valid (l.poison || k.poison)
    (x.out n false lanes, 0)

/-- BCAST. -/
def execBcast (n : NodeRec) (s : State) : Host.Outcome State Fault Refusal :=
  firePure s n 0x081 fun x =>
    let a := pairLanes n.fmt (x.opA n n.fmt)
    if n.mod.getLsbD 0 then
      let j := field n.lit 6 0
      let e := unitLane n.fmt a (elemOf n.fmt j)
      let vals := List.replicate (allVals n.fmt a).length ((allVals n.fmt a).getD j 0)
      (x.out n false (lanesOf n.fmt vals (fun _ => e.valid) fun _ => e.poison), 0)
    else (x.out n false (gatherUnits n.fmt a fun _ => some (field n.lit 3 0 % unitCount n.fmt)), 0)

/-- The source unit of SHFL (Table 16.6). -/
def shflSrc (f : Fmt) (mode k i : Nat) : Option Nat :=
  let c := unitCount f
  match mode with
  | 0 => if i < k then none else some (i - k)
  | 1 => if c - 1 < i + k then none else some (i + k)
  | 2 => some ((i + c - k) % c)
  | _ => some (i ^^^ k)

/-- SHFL. -/
def execShfl (n : NodeRec) (s : State) : Host.Outcome State Fault Refusal :=
  firePure s n 0x082 fun x =>
    (x.out n false (gatherUnits n.fmt (pairLanes n.fmt (x.opA n n.fmt)) (shflSrc n.fmt (field n.mod 1 0) (field n.lit 3 0 % unitCount n.fmt))), 0)

/-! ### Reductions (R366, R367) -/

/-- RED. -/
def execRed (n : NodeRec) (s : State) : Host.Outcome State Fault Refusal :=
  firePure s n 0x083 fun x =>
    let a := x.opA n n.fmt
    let parts : List Part := (allVals n.fmt a).zipIdx.map fun p => if (unitLane n.fmt a (elemOf n.fmt p.2)).valid then some (VRes.plain p.1) else none
    let psn := (List.range 16).any fun e => (unitLane n.fmt a e).valid && (unitLane n.fmt a e).poison
    match redTree (redStep n.fmt x.pol (field n.mod 2 0)) 8 parts with
    | some r => (x.out n false (if isPair n.fmt then mkPair r.bits true (psn || r.psn) ++ List.replicate 14 Lane.off
        else mkLane r.bits true (psn || r.psn) :: List.replicate 15 Lane.off), r.flags)
    | none => (x.out n false noLanes, 0)

/-- SCAN. -/
def execScan (n : NodeRec) (s : State) : Host.Outcome State Fault Refusal :=
  firePure s n 0x084 fun x =>
    let a := x.opA n n.fmt
    let b := x.opB n n.fmt
    let op := field n.mod 2 0
    let carry := decide (n.rsrc ≠ .zero) && (unitLane n.fmt b 0).valid
    let s0 := if carry then (allVals n.fmt b).head? else none
    let items := (allVals n.fmt a).zipIdx.map fun p => (p.1, (unitLane n.fmt a (elemOf n.fmt p.2)).valid)
    let rs := scanRun (redStep n.fmt x.pol op) (n.mod.getLsbD 3) (redIdent n.fmt op) items s0
    let psnUpTo := fun i => (carry && (unitLane n.fmt b 0).poison) || ((List.range (i + 1)).any fun e => (unitLane n.fmt a e).valid && (unitLane n.fmt a e).poison) ||
      (rs.zipIdx.any fun p => p.1.psn && decide (elemOf n.fmt p.2 ≤ i))
    (x.out n false (lanesOf n.fmt (rs.map fun r => r.bits) (fun i => (unitLane n.fmt a i).valid) psnUpTo), rs.foldl (fun f r => f ||| r.flags) 0)

/-! ### Dense and ragged streams (R368, R369) -/

/-- What COMPACT holds and has emitted while it takes a token: units with LOFF, base, SCALED so far, tokens out. -/
structure CompactSt where
  units : List (List Lane × Nat)
  base : BitVec 32
  scaled : Bool
  out : List Token
  deriving DecidableEq, Repr

/-- A token of data lanes with a header of its own. -/
def dataTok (itag : BitVec 32) (lanes : List Lane) (loff : List Nat) (fl : Flags) : Token := ⟨0, 0, 0, .left, itag, loff, fl, lanes, 0⟩

/-- Pads lanes to a whole token. -/
def padLanes (ls : List Lane) : List Lane := ls ++ List.replicate (16 - ls.length) Lane.off
def padLoff (ls : List Nat) : List Nat := ls ++ List.replicate (16 - ls.length) 0

/-- COMPACT's flush of what it holds. -/
def CompactSt.flush (c : CompactSt) (last : Bool) : CompactSt :=
  if c.units.isEmpty then c
  else
    let lanes := c.units.flatMap fun u => u.1
    let loff := c.units.flatMap fun u => u.1.map fun _ => u.2
    { units := [], base := c.base, scaled := true, out := c.out ++ [dataTok c.base (padLanes lanes) (padLoff loff) ⟨last, c.scaled, true, false, false, false⟩] }

/-- COMPACT takes one element or pair of a token (R368). -/
def CompactSt.take (c : CompactSt) (f : Fmt) (w0 : Nat) (itag : BitVec 32) (d : Nat) (scaled : Bool) (u : List Lane) : CompactSt :=
  let off := fun (base : BitVec 32) => (d + 2 ^ w0 - base.toNat % 2 ^ w0) % 2 ^ w0
  let c1 := if !c.units.isEmpty && (decide (itag.toNat / 2 ^ w0 ≠ c.base.toNat / 2 ^ w0) || decide (15 < off c.base)) then c.flush false else c
  let base := if c1.units.isEmpty then BitVec.ofNat 32 (itag.toNat / 2 ^ w0 * 2 ^ w0 + d) else c1.base
  let c2 : CompactSt := { units := c1.units ++ [(u, off base)], base := base, scaled := c1.scaled && scaled, out := c1.out }
  if c2.units.length = unitCount f then c2.flush false else c2

/-- COMPACT's state as the node's slot holds it. -/
def NodeInst.compactSt (x : NodeInst) (f : Fmt) : CompactSt :=
  let k := if isPair f then 2 else 1
  { units := (List.range (x.lanes.length / k)).map fun i => ((x.lanes.drop (k * i)).take k, x.loffs.getD (k * i) 0)
    base := x.base
    scaled := if x.lanes.isEmpty then true else x.flag
    out := [] }

/-- The slot of COMPACT after a token. -/
def NodeInst.setCompact (x : NodeInst) (c : CompactSt) : NodeInst :=
  { x with
    lanes := c.units.flatMap fun u => u.1
    loffs := c.units.flatMap fun u => u.1.map fun _ => u.2
    base := c.base
    flag := c.scaled }

/-- COMPACT. -/
def execCompact (n : NodeRec) (s : State) : Host.Outcome State Fault Refusal :=
  fireNode s n (latency 0x085 n) 0 fun s x =>
    let c0 := x.inst.compactSt n.fmt
    let both := fun (ts : List Token) => ts.flatMap fun t => [(0, t), (1, t)]
    match x.f.l with
    | none =>
      let c := c0.flush false
      .fired (s.putInst x (x.inst.setCompact c)) (both c.out) 0
    | some t =>
      let ls := pairLanes n.fmt t.lanes
      let w0 := x.widths.getD 0 32
      let d0 := x.f.itag.toNat % 2 ^ w0
      let take := fun (c : CompactSt) i =>
        let e := unitElem n.fmt i
        if (laneAt ls e).valid then
          c.take n.fmt w0 x.f.itag (if t.flags.mixed then (d0 + t.loff.getD e 0) % 2 ^ w0 else d0) t.flags.scaled (unitLanes n.fmt ls i)
        else c
      let c1 := (List.range (unitCount n.fmt)).foldl take c0
      let c2 :=
        if !t.flags.last then c1
        else if c1.units.isEmpty then { c1 with out := c1.out ++ [dataTok x.f.itag noLanes noLoff ⟨true, t.flags.scaled, false, false, false, false⟩] }
        else c1.flush true
      .fired (s.putInst x (x.inst.setCompact c2)) (both c2.out) 0

/-- The tokens EXPAND makes of a MIXED token, by ascending LOFF (R369). -/
def expandToks (f : Fmt) (w0 : Nat) (t : Token) : List Token :=
  let ls := pairLanes f t.lanes
  let offs := (List.range 16).filter fun o => (List.range (unitCount f)).any fun i =>
    (laneAt ls (unitElem f i)).valid && decide (t.loff.getD (unitElem f i) 0 = o)
  let d0 := t.itag.toNat % 2 ^ w0
  offs.map fun o =>
    let us := (List.range (unitCount f)).filter fun i => (laneAt ls (unitElem f i)).valid && decide (t.loff.getD (unitElem f i) 0 = o)
    dataTok (BitVec.ofNat 32 (t.itag.toNat / 2 ^ w0 * 2 ^ w0 + (d0 + o) % 2 ^ w0)) (padLanes (us.flatMap fun i => unitLanes f ls i)) noLoff
      ⟨t.flags.last && decide (some o = offs.getLast?), t.flags.scaled, false, t.flags.compl, false, false⟩

/-- EXPAND. -/
def execExpand (n : NodeRec) (s : State) : Host.Outcome State Fault Refusal :=
  fireNode s n (latency 0x086 n) 0 fun s x =>
    match x.left n with
    | some t =>
      let ts := if t.flags.mixed then expandToks n.fmt (x.widths.getD 0 32) t else [{ t with lanes := pairLanes n.fmt t.lanes }]
      .fired s (ts.flatMap fun t => [(0, t), (1, t)]) 0
    | none => .fired s (x.sends n (x.out n false (x.opA n n.fmt))) 0

/-! ### Widths (R370) -/

/-- The format of twice the width. -/
def wider : Fmt → Fmt
  | .i8 => .i16 | .i16 => .i32 | .i32 => .i64 | .n8 => .n16 | .n16 => .n32 | .n32 => .n64 | f => f

/-- PACK. -/
def execPack (n : NodeRec) (s : State) : Host.Outcome State Fault Refusal :=
  firePure s n 0x087 fun x =>
    let src := wider n.fmt
    let a := x.opA n src
    let b := x.opB n src
    let half := (allVals src a).length
    let rs := (allVals src a ++ allVals src b).map fun v => intRes n.fmt (n.mod.getLsbD 0) (intOf src v)
    let lane := fun j => if j < half then unitLane src a (elemOf src j) else unitLane src b (elemOf src (j - half))
    let draws := fun i => (List.range (perElem n.fmt)).map fun k => lane (perElem n.fmt * i + k)
    let ok := fun i => (draws i).all fun l => l.valid
    let fl := rs.zipIdx.foldl (fun f p => if ok (elemOf n.fmt p.2) then f ||| p.1.flags else f) 0
    (x.out n false (lanesOf n.fmt (rs.map fun r => r.bits) ok fun i => (draws i).any fun l => l.poison), fl)

/-- UNPACK. -/
def execUnpack (n : NodeRec) (s : State) : Host.Outcome State Fault Refusal :=
  firePure s n 0x088 fun x =>
    let dst := wider n.fmt
    let a := x.opA n n.fmt
    let half := if isPair dst then 8 else 16 * perElem dst
    let off := if n.mod.getLsbD 0 then half else 0
    let vals := ((allVals n.fmt a).drop off).take half
    let src := fun i => laneAt a (elemOf n.fmt (off + (if isPair dst then i / 2 else perElem dst * i)))
    (x.out n false (lanesOf dst (vals.map fun v => wrapN (Rules.fmtWidth dst) (intOf n.fmt v)) (fun i => (src i).valid) fun i => (src i).poison), 0)

/-! ### Masks and token control (R371 to R377) -/

/-- VMASK: VALID bit by bit; then both elements of a pair carry one (R116, log 13). -/
def execVmask (n : NodeRec) (s : State) : Host.Outcome State Fault Refusal :=
  firePure s n 0x089 fun x =>
    let a := laneAt (x.opA n n.fmt)
    let b := laneAt (x.opB n n.fmt)
    let word := fun (g : Lane → Bool) => (((List.range 16).filter fun i => g (a i)).map fun i => 2 ^ i).sum
    let lanes := match field n.mod 1 0 with
      | 0 => (List.range 16).map fun i => if (a i).valid && n.lit.getLsbD i then a i else Lane.off
      | 1 => (List.range 16).map fun i =>
        let m := b i
        if (a i).valid && m.valid && decide (m.val ≠ 0) then { a i with poison := (a i).poison || m.poison } else Lane.off
      | 2 => (List.range 16).map fun i => if n.lit.getLsbD i then (if (a i).valid then a i else Lane.on 0) else Lane.off
      | _ => Lane.on (toElem (word fun l => l.valid)) :: Lane.on (toElem (word fun l => l.poison)) :: List.replicate 14 Lane.off
    (x.out n false (pairLanes n.fmt lanes), 0)

/-- A token with no valid element that carries LAST alone. -/
def lastTok (itag : BitVec 32) (scaled : Bool) : Token := dataTok itag noLanes noLoff ⟨true, scaled, false, false, false, false⟩

/-- The token a node that passes its left operand on starts from. -/
def Site.passTok (x : Site) (n : NodeRec) : Token :=
  match x.left n with
  | some t => { (x.out n false (pairLanes n.fmt t.lanes)).tok with flags := { (x.out n false (pairLanes n.fmt t.lanes)).tok.flags with permit := t.flags.permit } }
  | none => (x.out n false (x.opA n n.fmt)).tok

/-- FAN. -/
def execFan (n : NodeRec) (s : State) : Host.Outcome State Fault Refusal :=
  fireNode s n (latency 0x08A n) 0 fun s x =>
    let t := x.passTok n
    if n.mod.getLsbD 0 then
      let k := x.inst.word.toNat % 2
      let s1 := s.putInst x { x.inst with word := toElem ((k + 1) % 2) }
      .fired s1 ([(k, t)] ++ if t.flags.last then [(1 - k, lastTok t.itag t.flags.scaled)] else []) 0
    else .fired s [(0, t), (1, { t with flags := { t.flags with permit := false } })] 0

/-- MERGE's state bits: LAST delivered by the left port, by the right port, and a LAST already emitted. -/
def mergeLast (w : Elem) (bit : Nat) (last : Bool) : Elem := if last then w ||| toElem bit else w

/-- MERGE emits one token: its LAST stays only where the other port's LAST has gone before (R373). -/
def mergeEmit (w : Elem) (t : Token) : Token × Elem :=
  if t.flags.last then (if bitAt w 2 then (t, w) else ({ t with flags := { t.flags with last := false } }, w ||| 4)) else (t, w)

/-- Ordered MERGE emits while it may: the earlier head, or the left one when equal (R373). -/
def mergeRun (ws : List Nat) : Nat → Elem → List Token → List Token → List Token → Elem × List Token × List Token × List Token
  | 0, w, l, r, out => (w, l, r, out)
  | fuel + 1, w, l, r, out =>
    match l, r with
    | a :: l', b :: r' =>
      let ds := fun (t : Token) => dimsOf ws t.itag.toNat
      if nameLater ws (ws.map fun _ => false) (ds a) (ds b) then
        let e := mergeEmit w b
        mergeRun ws fuel e.2 l r' (out ++ [e.1])
      else
        let e := mergeEmit w a
        mergeRun ws fuel e.2 l' r (out ++ [e.1])
    | a :: l', [] =>
      if bitAt w 1 then
        let e := mergeEmit w a
        mergeRun ws fuel e.2 l' [] (out ++ [e.1])
      else (w, l, r, out)
    | [], b :: r' =>
      if bitAt w 0 then
        let e := mergeEmit w b
        mergeRun ws fuel e.2 [] r' (out ++ [e.1])
      else (w, l, r, out)
    | [], [] => (w, l, r, out)

/-- MERGE. -/
def execMerge (n : NodeRec) (s : State) : Host.Outcome State Fault Refusal :=
  fireNode s n (latency 0x08B n) 0 fun s x =>
    let both := fun (ts : List Token) => ts.flatMap fun t => [(0, t), (1, t)]
    if n.mod.getLsbD 0 then
      let w0 := match x.f.l, x.f.r with
        | some t, _ => mergeLast x.inst.word 1 t.flags.last
        | none, some t => mergeLast x.inst.word 2 t.flags.last
        | none, none => x.inst.word
      match mergeRun x.widths 4 w0 (x.inst.buf ++ x.f.l.toList) (x.inst.buf2 ++ x.f.r.toList) [] with
      | (w, l, r, out) => .fired (s.putInst x { x.inst with word := w, buf := l, buf2 := r }) (both out) 0
    else
      match x.f.l.toList ++ x.f.r.toList with
      | t :: _ =>
        let e := mergeEmit x.inst.word t
        .fired (s.putInst x { x.inst with word := e.2 }) (both [e.1]) 0
      | [] => .fired s [] 0

/-- DELAY: its depth is its latency; a FIFO's token leaves as soon as it may (R374). -/
def execDelay (n : NodeRec) (s : State) : Host.Outcome State Fault Refusal :=
  fireNode s n (latency 0x08C n) 0 fun s x =>
    match x.f.l with
    | some t => .fired s [(0, t), (1, t)] 0
    | none => .fired s (x.sends n (x.out n false (x.opA n n.fmt))) 0

/-- TAG. -/
def execTag (n : NodeRec) (s : State) : Host.Outcome State Fault Refusal :=
  fireNode s n (latency 0x08D n) 0 fun s x =>
    let a := pairLanes n.fmt (x.opA n n.fmt)
    let o := x.out n false a
    match field n.mod 1 0 with
    | 0 => .fired s (x.sends n { o with itag := n.lit }) 0
    | 1 =>
      let d := field n.mod 3 2
      let w := x.widths.getD d 32
      let off := (x.widths.take d).sum
      let t := x.f.itag.toNat
      let old := t / 2 ^ off % 2 ^ w
      .fired s (x.sends n { o with itag := BitVec.ofNat 32 (t - old * 2 ^ off + wrapN w (old + n.lit.toInt) * 2 ^ off) }) 0
    | 2 =>
      let b := laneAt (x.opB n n.fmt) 0
      if b.valid then
        .fired s (x.sends n { o with itag := b.val, lanes := if b.poison then a.map fun l => { l with poison := l.valid } else a }) 0
      else .fired s (x.sends n { o with lanes := noLanes }) 0
    | _ =>
      .fired (s.putInst x { x.inst with word := x.inst.word + 1 }) (x.sends n { o with itag := n.lit + x.inst.word }) 0

/-- LAST. -/
def execLastNode (n : NodeRec) (s : State) : Host.Outcome State Fault Refusal :=
  fireNode s n (latency 0x08E n) 0 fun s x =>
    let o := x.out n false (pairLanes n.fmt (x.opA n n.fmt))
    if n.mod.getLsbD 0 then .fired s (x.sends n { o with last := false }) 0
    else
      let every := if n.lit = 0 then 1 else n.lit.toNat
      let m := x.inst.word.toNat + 1
      .fired (s.putInst x { x.inst with word := toElem (m % every) }) (x.sends n { o with last := decide (m % every = 0) }) 0

/-- SINK. -/
def execSink (n : NodeRec) (s : State) : Host.Outcome State Fault Refusal :=
  fireNode s n (latency 0x08F n) 0 fun s _ => .fired s [] 0

end Sys2Proof.Machine
end

