-- ==== Sys2Proof/Machine/NodeQuant.lean ====
section
/-! DEFINITION. Node records of group 5 but SCACC: quantisation and random numbers (R252, R267, R391 to R397). -/

namespace Sys2Proof.Machine

/-! ### Group words (R252) -/

/-- Largest code of an asymmetric format. -/
def asymMax (f : Fmt) : Nat := if f = .a4 then 15 else 255

def isAsym (f : Fmt) : Bool := decide (f = .a8) || decide (f = .a4)

/-- The zero point and the FP16 scale of a group word. -/
def gwZero (f : Fmt) (w : Elem) : Nat := if f = .a4 then field w 19 16 else field w 23 16
def gwScale (w : Elem) : Fv := fvOf .f16 (field w 15 0)

/-- Whether a group word has a reserved bit set. -/
def gwBad (f : Fmt) (w : Elem) : Bool := decide (field w 31 24 ≠ 0) || (decide (f = .a4) && decide (field w 23 20 ≠ 0))

/-! ### QMAX (R391) -/

/-- FP32 bits of a finite value that FP32 holds. -/
def f32Bits (x : Fv) : Nat :=
  match x with
  | .fin neg m e => fpSign .f32 neg + (if m = 0 then 0 else (fpRound .f32 0 neg m 1 e).bits)
  | .inf neg => fpSign .f32 neg + fpInf .f32
  | .nan b => b

/-- The power of two 2^k in FP32, k clamped to [-126, 127]. -/
def f32Pow2 (k : Int) : Nat := (clampI k (-126) 127 + 127).toNat * 2 ^ 23

/-- The scale of E4M3 and E5M2 from the greater bound A = m × 2^e. -/
def qScaleFloat (f : Fmt) (pow2 : Bool) (m : Nat) (e : Int) : Nat :=
  if m = 0 then 0x3F800000
  else
    let d := if f = .e4m3 then 448 else 57344
    let k := floorLog2 m d + e
    if pow2 then f32Pow2 (if shl m (e - k) = shl d (k - e) then k else k + 1)
    else if k < -126 then f32Pow2 (-126)
    else (fpRound .f32 2 false m d e).bits

/-- The group word of an asymmetric format from the bounds. -/
def qScaleAsym (f : Fmt) (hi lo : Fv) : Nat :=
  let q := asymMax f
  let span := hi.dy.add ⟨-lo.dy.m, lo.dy.e⟩
  if span.m = 0 then
    let z := clampI (roundInt 0 (decide (0 < lo.dy.m)) lo.dy.m.natAbs 1 lo.dy.e).1 0 q
    z.toNat * 65536 + 0x3C00
  else
    let r := fpRound .f16 2 false span.m.natAbs q span.e
    let s := if r.ovf then 0x7BFF else max r.bits 1
    let sm := (fvOf .f16 s).dy
    let z := clampI (roundInt 0 (decide (0 < lo.dy.m)) lo.dy.m.natAbs sm.m.natAbs (lo.dy.e - sm.e)).1 0 q
    z.toNat * 65536 + s

/-- QMAX's bounds after a token: hi and lo in FP32, and NV. -/
def qmaxTake (src : Fmt) (ls : List Lane) (hi lo : Fv) : Fv × Fv × BitVec 10 :=
  (allVals src ls).zipIdx.foldl (fun st p =>
    let l := laneAt ls (elemOf src p.2)
    let v := fvOf src p.1
    if !l.valid then st
    else if !l.poison && v.finite then
      (if st.1.cmp v = -1 then v else st.1, if v.cmp st.2.1 = -1 then v else st.2.1, st.2.2)
    else if v.isSnan then (st.1, st.2.1, st.2.2 ||| fNV) else st) (hi, lo, 0)

/-- QMAX. -/
def execQmax (n : NodeRec) (s : State) : Host.Outcome State Fault Refusal :=
  fireNode s n (latency 0x140 n) 0 fun s x =>
    if x.unscaled n false then .fault s (x.rec0 s cScale 0)
    else
      let src := Rules.srcFmt n
      let i := x.inst
      let first := decide (i.word = 0)
      let b := qmaxTake src (x.opA n src) (fvOf .f32 (if first then 0 else i.hi.toNat)) (fvOf .f32 (if first then 0 else i.lo.toNat))
      let last := x.f.l.elim false fun t => t.flags.last
      let scaled := scaledOf (x.dataToks n false) && (first || i.flag)
      let itag := if first then x.f.itag else i.base
      let cnt := i.word.toNat + 1
      if cnt = field n.lit 8 0 ∨ last then
        let a := if b.1.cmp b.2.1.negate = -1 then b.2.1.negate else b.1
        let w := if isAsym n.fmt then qScaleAsym n.fmt b.1 b.2.1
          else match a with
            | .fin _ m e => qScaleFloat n.fmt (n.mod.getLsbD 4) m e
            | _ => 0x3F800000
        let t := dataTok itag (List.replicate 16 (Lane.on (toElem w))) noLoff ⟨last, scaled, false, false, false, false⟩
        .fired (s.putInst x { i with word := 0, hi := 0, lo := 0, base := 0, flag := false }) [(0, t), (1, t)] b.2.2
      else
        .fired (s.putInst x { i with word := toElem cnt, hi := toElem (f32Bits b.1), lo := toElem (f32Bits b.2.1), base := itag, flag := scaled }) [] b.2.2

/-! ### QCVT (R392) -/

/-- DZ of a quotient: a finite value other than zero by zero (R256). -/
def divDz (x y : Fv) : BitVec 10 := if x.finite && !x.isZero && y.isZero then fDZ else 0

/-- One value of QCVT under a scale element. -/
def qcvtVal (f : Fmt) (p : BitVec 8) (src : Fmt) (scale : Elem) (v : Nat) : VRes :=
  let x := polIn p (fvOf src v)
  if isAsym f then
    let psn0 := (polPsn p && !x.finite) || gwBad f scale
    let q := asymMax f
    let dz := divDz x (gwScale scale)
    match fvDiv x (gwScale scale) with
    | .nan _ => ⟨0, fNV, psn0 || decide (polNanm p = 2)⟩
    | .inf neg => ⟨if neg then 0 else q, fSAT ||| fNX ||| dz, psn0⟩
    | .num neg m d e =>
      let lo := min e 0
      let num : Int := (if neg then -1 else 1) * (shl m (e - lo) : Nat) + (shl (gwZero f scale * d) (-lo) : Nat)
      let r := roundInt (polRnd p) (decide (num < 0)) num.natAbs d lo
      if r.1 < 0 ∨ (q : Int) < r.1 then ⟨(clampI r.1 0 q).toNat, fSAT ||| fNX, psn0⟩
      else ⟨r.1.toNat, if r.2 then fNX else 0, psn0⟩
  else
    let y := polIn p (fvOf .f32 scale.toNat)
    let r := policy f p (polRnd p) [x, y] (fvDiv x y)
    { r with flags := r.flags ||| divDz x y }

/-- QCVT's output from the left tokens gathered and the block's scale. -/
def qcvtLanes (f : Fmt) (p : BitVec 8) (src : Fmt) (toks : List Token) (scale : Lane) : List Lane × BitVec 10 :=
  let srcs : List (Option (Nat × Lane)) := toks.flatMap fun t => (allVals src t.lanes).zipIdx.map fun v => some (v.1, laneAt t.lanes (elemOf src v.2))
  let all := srcs ++ List.replicate (valCount f - srcs.length) none
  match convLanes f (fun _ => true) all (qcvtVal f p src scale.val) with
  | (ls, fl) => (ls.map fun l => if l.valid && scale.valid then { l with poison := l.poison || scale.poison } else Lane.off, fl)

/-- QCVT. The block's scale stands in `buf2`, the left tokens gathered so far in `buf`, their count in the block in the node-state word. -/
def execQcvt (n : NodeRec) (s : State) : Host.Outcome State Fault Refusal :=
  fireNode s n (latency 0x141 n) 0 fun s x =>
    match x.f.l, x.inst.buf2.head? with
    | some t, some sc =>
      if n.mod.getLsbD 7 && (!t.flags.scaled || !sc.flags.scaled) then .fault s (x.rec0 s cScale 0)
      else
        let src := Rules.srcFmt n
        let cnt := x.inst.word.toNat + 1
        let toks := x.inst.buf ++ [t]
        let scale := laneAt sc.lanes 0
        let ends := decide (cnt = field n.lit 8 0) || t.flags.last
        let fl := (qcvtLanes n.fmt x.pol src [t] scale).2
        let s1 := fun (keep : List Token) => s.putInst x { x.inst with
          word := if ends then 0 else toElem cnt, buf := keep, buf2 := if ends then [] else x.inst.buf2 }
        if toks.length = valCount n.fmt / valCount src ∨ ends then
          let out := dataTok ((toks.head?.getD t).itag) (qcvtLanes n.fmt x.pol src toks scale).1 noLoff
            ⟨toks.any fun u => u.flags.last, (toks.all fun u => u.flags.scaled) && sc.flags.scaled, false, false, false, false⟩
          .fired (s1 []) [(0, out), (1, out)] fl
        else .fired (s1 toks) [] fl
    | _, _ => .fired s [] 0

/-! ### DQT and SCALE (R395, R396) -/

/-- One value of DQT under its governing element. -/
def dqtVal (f : Fmt) (p : BitVec 8) (src : Fmt) (g : Elem) (v : Nat) : VRes :=
  if isAsym src then
    let d : Int := (v : Int) - (gwZero src g : Int)
    let q : Fv := .fin (decide (d < 0)) d.natAbs 0
    let sc := gwScale g
    let r := match fvMul sc q with
      | .num neg m _ e =>
        let x := polIn p (.fin neg m e)
        policy f p (polRnd p) [x] x.ey
      | y => policy f p (polRnd p) [sc] y
    { r with psn := r.psn || gwBad src g }
  else
    let x := polIn p (fvOf src v)
    let y := polIn p (fvOf .f32 g.toNat)
    policy f p (polRnd p) [x, y] (fvMul x y)

/-- The element of b that governs value `j`. -/
def dqtGov (n : NodeRec) (src : Fmt) (j : Nat) : Nat :=
  let g := 32 * 2 ^ field n.mod 5 4
  if isAsym src && decide (g < valCount src) then j / g else 0

/-- DQT: 1/m tokens, token k after 2 + k cycles. -/
def execDqt (n : NodeRec) (s : State) : Host.Outcome State Fault Refusal :=
  fireNode s n (latency 0x142 n) 0 fun s x =>
    let src := Rules.srcFmt n
    let a := x.opA n src
    let b := x.opB n src
    let w0 := x.widths.getD 0 32
    let vt := valCount n.fmt
    let o := (x.out n false a).plain
    let count := valCount src / vt
    let toks := (List.range count).map fun k =>
      let items := (List.range vt).map fun q =>
        let j := vt * k + q
        let gov := laneAt b (dqtGov n src j)
        let l := laneAt a (elemOf src j)
        (dqtVal n.fmt x.pol src gov.val ((allVals src a).getD j 0), l.valid && gov.valid, l.poison || gov.poison)
      let per := perElem n.fmt
      let lanes := (List.range 16).map fun i =>
        let mine := (items.drop (per * i)).take per
        mkLane (packVals (Rules.fmtWidth n.fmt) (mine.map fun r => r.1.bits)) (mine.all fun r => r.2.1) (mine.any fun r => r.2.2 || r.1.psn)
      let fl := items.foldl (fun f r => if r.2.1 then f ||| r.1.flags else f) (0 : BitVec 10)
      let d0 := x.f.itag.toNat % 2 ^ w0
      let itag := BitVec.ofNat 32 (x.f.itag.toNat / 2 ^ w0 * 2 ^ w0 + (d0 + k) % 2 ^ w0)
      ({ o with itag := itag, scaled := true, last := o.last && decide (k + 1 = count), lanes := lanes }.tok, fl)
    .firedAt s (toks.zipIdx.flatMap fun t => [(0, t.2, t.1.1), (1, t.2, t.1.1)]) (toks.foldl (fun f t => f ||| t.2) 0)

/-- SCALE: one rounding of the exact product; SCALED set. -/
def execScaleNode (n : NodeRec) (s : State) : Host.Outcome State Fault Refusal :=
  firePure s n 0x143 fun x =>
    let src := Rules.srcFmt n
    let read := fun v => if Rules.isInt src then (let i := intOf src v; Fv.fin (decide (i < 0)) i.natAbs 0) else polIn x.pol (fvOf src v)
    match mapLanes n.fmt (x.sel n) [x.opA n src, x.opB n n.fmt] fun v =>
      let a := read (v.getD 0 0)
      let b := polIn x.pol (fvOf n.fmt (v.getD 1 0))
      policy n.fmt x.pol (polRnd x.pol) [a, b] (fvMul a b) with
    | (ls, fl) => ({ x.out n false ls with scaled := true }, fl)

/-! ### Random numbers (R267, R397) -/

/-- A word rotated left. -/
def rotl (w : Elem) (k : Nat) : Elem := w.rotateLeft k

/-- Rounds of the scree generator: counters, keys. -/
def scree : Nat → Elem × Elem × Elem × Elem → Elem → Elem → Elem × Elem × Elem × Elem
  | 0, x, _, _ => x
  | n + 1, (x0, x1, x2, x3), k0, k1 =>
    let y0 := (x0 * 0x9A3F27C5#32) ^^^ k0
    let y1 := (x1 * 0xE4C15B2D#32) ^^^ k1
    scree n (x2 + rotl y0 13, x3 ^^^ rotl y1 19, y1, y0) (k0 + 0x6B43A9B5#32) (k1 + 0xD1B54A33#32)

/-- Output word `k` of a lane. -/
def screeWord (k0 k1 c0 c1 c2 c3 : Elem) (k : Nat) : Elem :=
  match scree 10 (c0, c1, c2, c3) k0 k1 with
  | (x0, x1, x2, x3) => match k with
    | 0 => x0
    | 1 => x1
    | 2 => x2
    | _ => x3

/-- RNG. -/
def execRng (n : NodeRec) (s : State) : Host.Outcome State Fault Refusal :=
  firePure s n 0x145 fun x =>
    let a := x.opA n n.fmt
    let b := x.opB n n.fmt
    let four := [laneAt a 0, laneAt a 1, laneAt b 0, laneAt b 1]
    let lanes := (List.range 16).map fun i =>
      let w := screeWord (laneAt b 0).val (laneAt b 1).val (laneAt a 0).val (laneAt a 1).val
        (BitVec.ofNat 32 (i + 16 * field n.lit 15 0)) x.f.itag (field n.mod 1 0)
      let v := if n.fmt = .f32 then (let m := w.toNat / 256; if m = 0 then 0 else (fpRound .f32 0 false m 1 (-24)).bits) else w.toNat
      mkLane v (four.all fun l => l.valid) (four.any fun l => l.poison)
    (x.out n false lanes, 0)

end Sys2Proof.Machine
end

