-- ==== Sys2Proof/Machine/NodeMatrix.lean ====
section
/-! DEFINITION. Node records of group 6 on the MPE, and SCACC (R262, R263, R398 to R407). -/

namespace Sys2Proof.Machine

/-! ### The stationary operand (R400) -/

/-- Values of a B row. -/
def bK (f : Fmt) : Nat :=
  match f with
  | .bf16 | .f16 => 32
  | .a4 => 128
  | _ => 64

/-- Whether a statement can load B in a format (R400, R401). -/
def mldbShape (n : NodeRec) (st : Stmt) : Bool :=
  fmtShape n st &&
    (if isAsym n.fmt then decide (st.rows = 34) || decide (st.rows = 36) || (decide (n.fmt = .a4) && decide (st.rows = 40))
     else decide (st.rows = 32))

/-- Groups of each B row of an asymmetric B, read from its number of panel rows. -/
def MpeB.groups (b : MpeB) : Nat := (b.rows.length - 32) / 2

/-- The lane of group word (n, g). -/
def MpeB.groupWord (b : MpeB) (n g : Nat) : Lane :=
  let w := n * b.groups + g
  laneAt (b.rows.getD (32 + w / 16) noLanes) (w % 16)

/-- A panel row as B takes it: an invalid element is zero. -/
def loadRow (r : Row) : List Lane := r.lanes.map fun l => if l.valid then l else Lane.on 0

/-! ### Shells -/

/-- The header of a matrix output (R399). -/
def Site.matOut (x : Site) (n : NodeRec) (c : Bool) (lanes : List Lane) : Out := { (x.out n c lanes).plain with compl := false }

/-- A row firing or MOUT: it waits while B is empty (R402), and faults where B's format is not the node's. -/
def withB (n : NodeRec) (s : State) (x : Site) (g : MpeB → FireRes) : FireRes :=
  match (s.tile x.tile).mpeB with
  | none => .stay s
  | some b => if b.fmt = Rules.fmtCode n.fmt then g b else .fault s (x.rec0 s cScale 3)

/-! ### MLDB (R401) -/

/-- MLDB's turn: it issues the panel read; then, after every MLDB of the tile that started before it, it swaps B and counts the read. -/
def mldbTurn (n : NodeRec) (s : State) (x : Site) : FireRes :=
  let out := x.sends n (x.matOut n false noLanes)
  let t := s.tile x.tile
  if x.f.begun then
    let start := x.f.aux.getD 3 0
    let earlier := t.ready.any fun g => decide (g.pe = 17) && g.begun && decide (g.id ≠ x.f.id) && decide (g.aux.length = 4) && decide (g.aux.getD 3 0 < start)
    if earlier then .stay s
    else
      let rows := (List.range (x.f.aux.getD 1 32)).map fun k =>
        if x.f.aux.getD 2 0 = 1 then List.replicate 16 (Lane.on 0) else loadRow (t.row (x.f.aux.getD 0 0 + k))
      let s1 := s.putTile x.tile { t with mpeB := some ⟨Rules.fmtCode n.fmt, rows⟩ }
      .fired (if x.f.aux.getD 2 0 = 1 then s1 else s1.countRead x n (x.f.aux.getD 0 0)) out 0
  else
    let start := fun (s1 : State) (row rows bnd : Nat) =>
      let t1 := s1.tile x.tile
      FireRes.stay ((s1.putTile x.tile { t1 with nextId := t1.nextId + 1 }).putFiring x
        { x.f with st := .ready, begun := true, aux := [row, rows, bnd, t1.nextId] })
    match s.panelRead x n (mldbShape n) with
    | .fault r => r
    | .boundary st => start s 0 st.rows 1
    | .waits => s.waitSlot x
    | .issued s1 st row => start s1 row st.rows 0

/-- MLDB. -/
def execMldb (n : NodeRec) (s : State) : Host.Outcome State Fault Refusal := fireNode s n (latency 0x180 n) 0 (mldbTurn n)

/-! ### Row firings (R403 to R405) -/

/-- The value of each valid A element with its B value, for one B row. -/
def rowPairs (f : Fmt) (a b : List Lane) : List (Fv × Fv) :=
  ((allVals f a).zip (allVals f b)).zipIdx.filterMap fun p =>
    if (laneAt a (elemOf f p.2)).valid then some (fvOf f p.1.1, fvOf f p.1.2) else none

/-- Whether a lane list has a poisoned valid element. -/
def anyPsn (ls : List Lane) : Bool := ls.any fun l => l.valid && l.poison

/-- Columns of an MROW: value, flags, validity, poison, from an accumulator lane for each. -/
def mrowCols (f : Fmt) (b : MpeB) (a : List Lane) (acc : Nat → Lane) : List (Nat × BitVec 10 × Bool × Bool) :=
  (List.range 32).map fun n =>
    let br := b.rows.getD n noLanes
    let c := acc n
    let r := matrixRowSum (rowPairs f a br) (fvOf .f32 c.val.toNat)
    (r.1, r.2, c.valid, anyPsn a || anyPsn br || c.poison)

/-- Lanes of 16 columns from one of them on. -/
def colLanes (cs : List (Nat × BitVec 10 × Bool × Bool)) (from_ : Nat) : List Lane :=
  ((cs.drop from_).take 16).map fun c => mkLane c.1 c.2.2.1 c.2.2.2

/-- Flags of the valid columns. -/
def colFlags (cs : List (Nat × BitVec 10 × Bool × Bool)) : BitVec 10 := cs.foldl (fun f c => if c.2.2.1 then f ||| c.2.1 else f) 0

/-- MROW: columns 0 to 15 on target 0, columns 16 to 31 on target 1 a cycle later. -/
def execMrow (n : NodeRec) (s : State) : Host.Outcome State Fault Refusal :=
  fireNode s n (latency 0x181 n) 1 fun s x =>
    withB n s x fun b =>
      let c := n.mod.getLsbD 0
      let lo := x.opB n .f32
      let hi := x.opC
      let acc := fun i => if c then (if i < 16 then laneAt lo i else laneAt hi (i - 16)) else Lane.on 0
      let cols := mrowCols n.fmt b (x.opA n n.fmt) acc
      .fired s [(0, (x.matOut n c (colLanes cols 0)).tok), (1, (x.matOut n c (colLanes cols 16)).tok)] (colFlags cols)

/-- Columns of an MQROW for group `g` of size `gs` under the A group word (R404). -/
def mqrowCols (f : Fmt) (b : MpeB) (a : List Lane) (w : Lane) (g gs : Nat) : List (Nat × BitVec 10 × Bool × Bool) :=
  let za : Int := (gwZero f w.val : Nat)
  let ks := (List.range gs).map fun k => g * gs + k
  let av := allVals f a
  let apsn := ks.any fun k => (laneAt a (elemOf f k)).valid && (laneAt a (elemOf f k)).poison
  (List.range 32).map fun n =>
    let br := b.rows.getD n noLanes
    let bv := allVals f br
    let gw := b.groupWord n g
    let zb : Int := (gwZero f gw.val : Nat)
    let sum := ks.foldl (fun (t : Int) k =>
      if (laneAt a (elemOf f k)).valid then t + (((av.getD k 0 : Nat) : Int) - za) * (((bv.getD k 0 : Nat) : Int) - zb) else t) 0
    let psn := apsn || (ks.any fun k => (laneAt br (elemOf f k)).poison) || w.poison || gwBad f w.val || gw.poison || gwBad f gw.val
    (wrapN 32 sum, 0, w.valid, psn)

/-- MQROW. -/
def execMqrow (n : NodeRec) (s : State) : Host.Outcome State Fault Refusal :=
  fireNode s n (latency 0x182 n) 1 fun s x =>
    withB n s x fun b =>
      let g := field n.mod 1 0
      let gs := bK n.fmt / max 1 b.groups
      if bK n.fmt ≤ g * gs then .fault s (x.rec0 s cScale 1)
      else
        let cols := mqrowCols n.fmt b (x.opA n n.fmt) (laneAt (x.opB n n.fmt) 0) g gs
        let o := fun ls => { x.matOut n false ls with scaled := false }
        .fired s [(0, (o (colLanes cols 0)).tok), (1, (o (colLanes cols 16)).tok)] 0

/-- MREC: the first firing of an instance has no fed-back row, and takes A = 0 (R405). -/
def execMrec (n : NodeRec) (s : State) : Host.Outcome State Fault Refusal :=
  fireNode s n (latency 0x183 n) 1 fun s x =>
    withB n s x fun b =>
      let a := (x.f.l.map fun t => t.lanes).getD (List.replicate 16 (Lane.on 0))
      let xr := (x.f.r.map fun t => t.lanes).getD noLanes
      let xv := allVals n.fmt xr
      let cols := (List.range 32).map fun i =>
        let br := b.rows.getD i noLanes
        let e := laneAt xr (elemOf n.fmt i)
        let y := matrixRowSum (rowPairs n.fmt a br) (fvOf n.fmt (xv.getD i 0))
        let h := policy n.fmt 0 0 [] (fvOf .f32 y.1).ey
        (h.bits, (y.2 ||| h.flags, e.valid, anyPsn a || anyPsn br || e.poison))
      let lanes := lanesOf n.fmt (cols.map fun c => c.1) (fun i => (laneAt xr i).valid) fun i =>
        ((cols.drop (2 * i)).take 2).any fun c => c.2.2.2
      let o : Out := match x.f.r with
        | some t => ⟨t.itag, t.flags.last, false, t.flags.scaled, false, false, noLoff, lanes⟩
        | none => ⟨x.f.itag, false, false, false, false, false, noLoff, lanes⟩
      .fired s (toBoth o.tok) (colFlags cols)

/-! ### MOUT (R406) -/

/-- Rows MOUT emits. -/
def moutRows (f : Fmt) (b : MpeB) (trans : Bool) : List (List Lane) :=
  if trans then
    (List.range 32).map fun k => lanesOf f ((List.range 32).map fun i => (allVals f (b.rows.getD i noLanes)).getD k 0) (fun _ => true) fun e =>
      (laneAt (b.rows.getD (2 * e) noLanes) (elemOf f k)).poison || (laneAt (b.rows.getD (2 * e + 1) noLanes) (elemOf f k)).poison
  else b.rows

/-- MOUT: one token each cycle from 2 cycles after its start. -/
def execMout (n : NodeRec) (s : State) : Host.Outcome State Fault Refusal :=
  fireNode s n (latency 0x184 n) 0 fun s x =>
    withB n s x fun b =>
      let rows := moutRows n.fmt b (n.mod.getLsbD 0)
      let toks := rows.zipIdx.map fun r =>
        ((x.rowOut r.2 (decide (r.2 + 1 = rows.length)) ⟨r.1, scaledOf (x.dataToks n false), false, noLoff⟩).tok, r.2)
      .firedAt s (toks.flatMap fun t => [(0, t.2 + 1, t.1), (1, t.2 + 1, t.1)]) 0

/-! ### SCACC (R407) -/

/-- SCACC. -/
def execScacc (n : NodeRec) (s : State) : Host.Outcome State Fault Refusal :=
  fireNode s n (latency 0x144 n) 0 fun s x =>
    if (x.left n).elim false fun t => t.flags.scaled then .fault s (x.rec0 s cScale 2)
    else
      let c := n.mod.getLsbD 4
      match mapLanes .f32 (x.sel n) [x.opA n .i32, x.opB n .f32, if c then x.opC else List.replicate 16 (Lane.on 0)] fun v =>
        let i := intOf .i32 (v.getD 0 0)
        let a : Fv := .fin (decide (i < 0)) i.natAbs 0
        let sc := polIn x.pol (fvOf .f32 (v.getD 1 0))
        let w := polIn x.pol (fvOf .f32 (v.getD 2 0))
        policy .f32 x.pol (polRnd x.pol) [a, sc, w] (fvFma a sc w (polRnd x.pol)) with
      | (ls, fl) => .fired s (x.sends n { x.matOut n c ls with scaled := true }) fl

end Sys2Proof.Machine
end

