-- ==== Sys2Proof/Machine/EvToken.lean ====
section
/-! DEFINITION. Tokens that arrive, and firings, records and cores that a wait lets go on (R43, R94, R121, R126 to R128, R130, R133, R143, R145, R196, R210,
R282, R331, R455). -/

namespace Sys2Proof.Machine

/-! ### TOKEN_ARRIVAL -/

/-- Tokens of a tile that are to arrive: the miss buffer's, which are older, then those of its channels. -/
def Tile.arrivals (t : Tile) : List ChanTok := t.miss ++ t.chans

/-- A tile without one of them. -/
def Tile.dropArrival (t : Tile) (idx : Nat) : Tile :=
  if idx < t.miss.length then { t with miss := ldrop t.miss idx } else { t with chans := ldrop t.chans (idx - t.miss.length) }

/-- Whether no earlier token of its arc, on its way to the same copy, stands before a token (R121). -/
def Tile.headOfArc (t : Tile) (idx : Nat) (c : ChanTok) : Bool :=
  !(t.arrivals.take idx).any fun d => decide (d.src = c.src ∧ d.tok.copy = c.tok.copy)

/-- Whether a store port takes a token now: it is bound, running, or idle with an SBIND queued (R455). -/
def Stream.takes (p : Stream) : Bool :=
  match p.st with
  | .bound | .running => (patternOf p.desc).store
  | .idle => p.queue.any fun c => match c.1 with
    | .bind d => (patternOf d).store
    | _ => false
  | .closed => false

/-- A token at a store port: held, up to 16, then back-pressured; discarded where the port takes none. -/
def State.arriveStore (s : State) (key tile idx port : Nat) (tok : Token) : State :=
  let t := s.tile tile
  let p := t.stream port
  let s1 := s.putTile tile (t.dropArrival idx)
  if tok.flags.tear then s1
  else if p.takes then
    if 16 ≤ (dataToks p.buf).length then s
    else s1.putTile tile ((s1.tile tile).putStream port { p with buf := p.buf ++ [tok] })
  else s1.dropToks key [tok]

/-- A token at a node of its instance: to its matching store; where its node is gone, discarded. -/
def State.arriveNode (s : State) (key tile idx : Nat) (tok : Token) : State :=
  let t := s.tile tile
  let s1 := s.putTile tile (t.dropArrival idx)
  match t.findNode tok.ctx tok.bslot tok.node tok.copy with
  | some (pe, slot) =>
    match t.inst pe slot with
    | some x => (s1.deliver tile pe slot x tok).getD s
    | none => s
  | none => s1.dropToks key [tok]

/-- Whether a token for a node of its instance arrives now: it is due, at the head of its arc, and the node's matching store has room (R127). -/
def State.canArrive (s : State) (tile idx : Nat) (c : ChanTok) : Bool :=
  let t := s.tile tile
  decide (c.left = 0) && t.headOfArc idx c && match t.findNode c.tok.ctx c.tok.bslot c.tok.node c.tok.copy with
  | some (pe, slot) => match t.inst pe slot with
    | some x => (s.deliver tile pe slot x c.tok).isSome
    | none => false
  | none => true

/-- Whether the port of a node that a token is for still stands: its unit is mapped, and TEAR has not come there. -/
def State.receives (s : State) (rg : Region) (bslot : Nat) (b : Bif) (tile : Nat) (tok : Token) : Bool :=
  let x := if (b.image.tmrOf tok.node).isSome then copyTile (maskTiles rg b) tile 0 else tile
  match (s.tile x).findNode rg.ctx bslot tok.node 0 with
  | some (pe, slot) => match (s.tile x).inst pe slot with
    | some n => !n.tear.contains tok.port
    | none => false
  | none => false

/-- The instance of a block that takes a token of a context from region tile `rt`: in the region of the lowest partition and control core
that holds the block, the oldest unit whose port still stands (R282). -/
def State.blockHome (s : State) (ctx rt blkid : Nat) (tok : Token) : Option (Region × Nat × Bif × Nat) :=
  let holds := fun (b : Bif) => decide (b.phase = .mapped) && !b.image.hdr.control && decide (b.image.hdr.blkid = blkid)
  match s.regions.find? fun e => decide (e.2.ctx = ctx) && e.2.blocks.any fun b => holds b.2 with
  | none => none
  | some (_, rg) =>
    let tile := rg.tileKey rt
    let cands := rg.blocks.filter fun b => holds b.2 && decide (rt < rg.size) && decide (rg.run = RunState.running) && (maskTiles rg b.2).contains tile &&
      s.receives rg b.1 b.2 tile tok
    (cands.foldl (fun m c => match m with
      | none => some c
      | some b => if c.2.order < b.2.order then some c else m) none).map fun c => (rg, c.1, c.2, tile)

/-- Whether the miss buffer has a place for a token of a context: 64 in all, the last 8 for contexts that hold none (R94). -/
def Tile.missRoom (t : Tile) (ctx : Nat) : Bool :=
  if t.miss.any fun c => decide (c.tok.ctx = ctx) then decide (t.miss.length < 56) else decide (t.miss.length < 64)

/-- A token for another block's instance here: on to its tile, or parked in the miss buffer. -/
def State.arriveBlock (s : State) (rg : Region) (tile idx blkid : Nat) (c : ChanTok) : State :=
  let t := s.tile tile
  let s1 := s.putTile tile (t.dropArrival idx)
  match s.blockHome rg.ctx ((rg.rtile tile).getD 0) blkid c.tok with
  | some (rg2, bslot, b, tile2) => s1.inject tile tile2 rg2 bslot b c.tok.node c.tok.port c.src c.tok
  | none =>
    if idx < t.miss.length ∨ t.missRoom rg.ctx = false then s
    else s1.putTile tile { s1.tile tile with miss := (s1.tile tile).miss ++ [c] }

/-- A token for a block on another device: a TOKEN flit. Which slot the block holds there is not known here: its BSLOT is a free value. A token has
no address: R37's M-die and port are those of the device's address 0 (log 8). -/
def State.arriveRemote (s : State) (rg : Region) (tile idx dev : Nat) (c : ChanTok) : State :=
  let s1 := (s.putTile tile ((s.tile tile).dropArrival idx)).drawn
  let tok := { c.tok with ctx := rg.ctx, bslot := s.choice 8 }
  match s1.send dev 0 5 rg.ctx tok.bytes with
  | .ok s2 =>
    let port := (s1.routePort dev 0).getD 0
    let seq := ((s2.link.port port).nextSeq + 4095) % 4096
    { s2 with link := { s2.link with reqs := s2.link.reqs ++ [(⟨seq, 5, dev, port, rg.ctx, 0, 0, 0, tok.bytes, .arc c.src, none, false⟩ : Req)] } }
  | .wait => s
  | .noRoute => s1.arcFault c.src cNoRoute c.tok.itag

/-- TOKEN_ARRIVAL: the token `idx` of a tile arrives, in the order of its arc. -/
def execTokenArrival (tile idx : Nat) (s : State) : Host.Outcome State Fault Refusal :=
  let t := s.tile tile
  match t.arrivals[idx]?, s.regionOf tile with
  | some c, some (key, rg) =>
    if c.left ≠ 0 ∨ rg.run ≠ RunState.running ∨ t.headOfArc idx c = false then .next s
    else
      match c.dest with
      | .node => .next (s.arriveNode key tile idx c.tok)
      | .store port => .next (s.arriveStore key tile idx port c.tok)
      | .block dev blkid =>
        if dev = s.dev.devNum then .next (s.arriveBlock rg tile idx blkid c) else .next (s.arriveRemote rg tile idx dev c)
  | _, _ => .next s

/-! ### Firings that stand -/

/-- A standing firing, ready to be tried again, with the instruction of its node. -/
def State.retried (s : State) (tile idx : Nat) (st : FireSt) : Option (Instr × State) :=
  match { s with actor := .fire tile idx }.site with
  | none => none
  | some x =>
    if x.f.st ≠ st ∨ (x.rg.run ≠ RunState.running ∧ st ≠ .moving) then none
    else (nodeRecOf x.inst.bits).map fun p => (p.1, { s with actor := .fire tile idx }.putFiring x { x.f with st := .ready })

/-- STALLED_PUT_PROCEED: a PUT that stalled on a slot meets Table 6.3 again. -/
def execStalledPutProceed (tile idx : Nat) (s : State) : Host.Outcome State Fault Refusal :=
  match s.retried tile idx .slot with
  | some (.putNode n, s1) => fireNode s1 n (latency 0x240 n) 0 (putTurn n)
  | _ => .next s

/-- READ_REEVALUATE: a read that waits on a slot meets Table 6.4 again. -/
def execReadReevaluate (tile idx : Nat) (s : State) : Host.Outcome State Fault Refusal :=
  match s.retried tile idx .slot with
  | some (.getNode n, s1) => fireNode s1 n (latency 0x241 n) 0 (getTurn n)
  | some (.getr n, s1) => fireNode s1 n (latency 0x242 n) 0 (getrTurn n)
  | some (.rls n, s1) => fireNode s1 n (latency 0x243 n) 0 (rlsTurn n)
  | some (.mldb n, s1) => fireNode s1 n (latency 0x180 n) 0 (mldbTurn n)
  | _ => .next s

/-- BARRIER_RETRY: a heap store or pin that waits on MOVING is ready to run the barrier again. -/
def execBarrierRetry (tile idx : Nat) (s : State) : Host.Outcome State Fault Refusal :=
  match s.retried tile idx .moving with
  | some (_, s1) => .next { s1 with actor := s.actor }
  | none => .next s

/-! ### CAIRN_WAIT_COMPLETE (R196) -/

/-- The waiter of a cairn goes on. -/
def State.waitOver (s : State) (w : CWait) : State :=
  match w.who with
  | .core key =>
    match tget s.regions key with
    | some r => s.putRegion key { r with waiting := false, work := r.work.map fun k => { k with begun := true } }
    | none => s
  | .fire tile id =>
    let t := s.tile tile
    s.putTile tile { t with ready := t.ready.map fun f => if f.id = id then { f with st := .ready, begun := true } else f }
  | .remote dev port tag => s.cairnReply port dev (tag / 65536) (tag % 65536) w.cairn 0
  | _ => s

/-- CAIRN_WAIT_COMPLETE: a pending wait whose cairn has reached its threshold completes; an answer waits for its port. -/
def execCairnWaitComplete (idx : Nat) (s : State) : Host.Outcome State Fault Refusal :=
  match s.cairn.waits[idx]? with
  | none => .next s
  | some w =>
    let blocked := match w.who with
      | .remote _ port _ => !(s.link.port port).up
      | _ => false
    if (s.cairn.val w.cairn).toNat < w.thresh.toNat ∨ blocked = true then .next s
    else .next ({ s with cairn := { s.cairn with waits := ldrop s.cairn.waits idx } }.waitOver w)

/-! ### IDLE_WAKE (R331) -/

/-- IDLE_WAKE: a unit has completed, a record has entered the queue, or the limit of cycles has passed. -/
def execIdleWake (key : Nat) (s : State) : Host.Outcome State Fault Refusal :=
  match tget s.regions key with
  | none => .next s
  | some r =>
    match r.idle with
    | some (limit, since, due) =>
      if due || (decide (limit ≠ 0) && decide (since + limit ≤ r.cycle.toNat)) then .next (s.putRegion key { r with idle := none }) else .next s
    | none => .next s

end Sys2Proof.Machine
end

