-- ==== Sys2Proof/Machine/NodeInt.lean ====
section
/-! DEFINITION. Node records of groups 0 and 1: integers, addresses, bits (R351 to R364). -/

namespace Sys2Proof.Machine

/-! ### Integer arithmetic (R354, R355) -/

/-- ADD. -/
def execAddNode (n : NodeRec) (s : State) : Host.Outcome State Fault Refusal :=
  fireMap2 s n 0x000 fun a b => intRes n.fmt (n.mod.getLsbD 0) (intOf n.fmt a + intOf n.fmt b)

/-- SUB. -/
def execSubNode (n : NodeRec) (s : State) : Host.Outcome State Fault Refusal :=
  fireMap2 s n 0x001 fun a b => intRes n.fmt (n.mod.getLsbD 0) (intOf n.fmt a - intOf n.fmt b)

/-- MUL. -/
def execMulNode (n : NodeRec) (s : State) : Host.Outcome State Fault Refusal :=
  fireMap2 s n 0x002 fun a b => intRes n.fmt false (intOf n.fmt a * intOf n.fmt b)

/-- MULH. -/
def execMulhNode (n : NodeRec) (s : State) : Host.Outcome State Fault Refusal :=
  fireMap2 s n 0x003 fun a b => intRes n.fmt false ((intOf n.fmt a * intOf n.fmt b) / (2 ^ Rules.fmtWidth n.fmt : Nat))

/-- MAD: the addend is LIT. -/
def execMad (n : NodeRec) (s : State) : Host.Outcome State Fault Refusal :=
  firePure s n 0x004 fun x =>
    match mapLanes n.fmt (x.sel n) [x.opA n n.fmt, x.opB n n.fmt, litLanes n.fmt n.lit] fun v =>
      intRes n.fmt false (intOf n.fmt (v.getD 0 0) * intOf n.fmt (v.getD 1 0) + intOf n.fmt (v.getD 2 0)) with
    | (ls, fl) => (x.out n false ls, fl)

/-- MIN. -/
def execMinNode (n : NodeRec) (s : State) : Host.Outcome State Fault Refusal :=
  fireMap2 s n 0x005 fun a b => VRes.plain (if intOf n.fmt b < intOf n.fmt a then b else a)

/-- MAX. -/
def execMaxNode (n : NodeRec) (s : State) : Host.Outcome State Fault Refusal :=
  fireMap2 s n 0x006 fun a b => VRes.plain (if intOf n.fmt a < intOf n.fmt b then b else a)

/-- ABS. -/
def execAbs (n : NodeRec) (s : State) : Host.Outcome State Fault Refusal :=
  fireMap1 s n 0x007 fun a => intRes n.fmt (n.mod.getLsbD 0) (intOf n.fmt a).natAbs

/-- NEG. -/
def execNeg (n : NodeRec) (s : State) : Host.Outcome State Fault Refusal :=
  fireMap1 s n 0x008 fun a => intRes n.fmt (n.mod.getLsbD 0) (-(intOf n.fmt a))

/-- The exact sum of absolute differences of an element's values (R355). -/
def sadOf (f : Fmt) (a b : Elem) : Nat :=
  let w := Rules.fmtWidth f
  (List.zipWith (fun x y => (intOf f x - intOf f y).natAbs) (elemVals w a) (elemVals w b)).sum

/-- SAD. -/
def execSad (n : NodeRec) (s : State) : Host.Outcome State Fault Refusal :=
  firePure s n 0x00C fun x =>
    let a := x.opA n n.fmt
    let b := x.opB n n.fmt
    (x.out n false ((List.range 16).map fun i =>
      let p := laneAt a i
      let q := laneAt b i
      mkLane (sadOf n.fmt p.val q.val) (p.valid && q.valid) (p.poison || q.poison)), 0)

/-! ### Addresses and indexes (R356 to R358) -/

/-- ADDA. -/
def execAdda (n : NodeRec) (s : State) : Host.Outcome State Fault Refusal :=
  fireMap2 s n 0x009 fun a b => VRes.plain (taeAdd (BitVec.ofNat 64 a) (BitVec.ofNat 64 b)).toNat

/-- Dimension `d` of the iteration an element belongs to (R118, R119). -/
def Site.elemDim (x : Site) (n : NodeRec) (d elem : Nat) : Nat :=
  let ws := x.widths
  let v := (dimsOf ws x.f.itag.toNat).getD d 0
  match x.left n with
  | some t => if d = 0 ∧ t.flags.mixed then (v + t.loff.getD elem 0) % 2 ^ ws.getD 0 32 else v
  | none => v

/-- IDX. -/
def execIdx (n : NodeRec) (s : State) : Host.Outcome State Fault Refusal :=
  firePure s n 0x00A fun x =>
    let a := x.opA n n.fmt
    let w := Rules.fmtWidth n.fmt
    let d := field n.mod 1 0
    let count := (allVals n.fmt a).length
    let vals := (List.range count).map fun j =>
      let base := n.lit.toInt + (x.elemDim n d (elemOf n.fmt j) : Int) * (if n.mod.getLsbD 2 then (count : Int) else 1)
      wrapN w (if n.mod.getLsbD 2 then base + (j : Int) else base)
    (x.out n false (lanesOf n.fmt vals (fun i => (unitLane n.fmt a i).valid) fun i => (unitLane n.fmt a i).poison), 0)

/-- IOTA. -/
def execIota (n : NodeRec) (s : State) : Host.Outcome State Fault Refusal :=
  firePure s n 0x00B fun x =>
    let count := if isPair n.fmt then 8 else 16 * perElem n.fmt
    let vals := (List.range count).map fun j => wrapN (Rules.fmtWidth n.fmt) (n.lit.toInt + (j : Int) * (2 ^ field n.mod 3 0 : Nat))
    (x.out n false (lanesOf n.fmt vals (fun _ => true) fun _ => false), 0)

/-! ### Bits (R359 to R364) -/

/-- AND. -/
def execAndNode (n : NodeRec) (s : State) : Host.Outcome State Fault Refusal := fireMap2 s n 0x040 fun a b => VRes.plain (a &&& b)

/-- OR. -/
def execOrNode (n : NodeRec) (s : State) : Host.Outcome State Fault Refusal := fireMap2 s n 0x041 fun a b => VRes.plain (a ||| b)

/-- XOR. -/
def execXorNode (n : NodeRec) (s : State) : Host.Outcome State Fault Refusal := fireMap2 s n 0x042 fun a b => VRes.plain (a ^^^ b)

/-- ANDN. -/
def execAndnNode (n : NodeRec) (s : State) : Host.Outcome State Fault Refusal :=
  fireMap2 s n 0x043 fun a b => VRes.plain (a &&& (b ^^^ (2 ^ Rules.fmtWidth n.fmt - 1)))

/-- NOT. -/
def execNotNode (n : NodeRec) (s : State) : Host.Outcome State Fault Refusal :=
  fireMap1 s n 0x044 fun a => VRes.plain (a ^^^ (2 ^ Rules.fmtWidth n.fmt - 1))

/-- SHL. -/
def execShlNode (n : NodeRec) (s : State) : Host.Outcome State Fault Refusal :=
  fireMap2 s n 0x045 fun a b => VRes.plain (a * 2 ^ (b % Rules.fmtWidth n.fmt) % 2 ^ Rules.fmtWidth n.fmt)

/-- SHR. -/
def execShrNode (n : NodeRec) (s : State) : Host.Outcome State Fault Refusal :=
  fireMap2 s n 0x046 fun a b => VRes.plain (a / 2 ^ (b % Rules.fmtWidth n.fmt))

/-- SAR: fills with the top bit of the pattern. -/
def execSarNode (n : NodeRec) (s : State) : Host.Outcome State Fault Refusal :=
  fireMap2 s n 0x047 fun a b =>
    VRes.plain (wrapN (Rules.fmtWidth n.fmt) (signed (Rules.fmtWidth n.fmt) a / (2 ^ (b % Rules.fmtWidth n.fmt) : Nat)))

/-- ROT: rotates left. -/
def execRot (n : NodeRec) (s : State) : Host.Outcome State Fault Refusal :=
  fireMap2 s n 0x048 fun a b =>
    let w := Rules.fmtWidth n.fmt
    let c := b % w
    VRes.plain (a * 2 ^ c % 2 ^ w + a / 2 ^ (w - c))

/-- Leading zero bits of a value of width `w` (R361). -/
def clzOf (w a : Nat) : Nat := if a = 0 then w else w - 1 - Nat.log2 a

/-- Number of one bits among the low `w` (R361). -/
def popOf (w a : Nat) : Nat := ((List.range w).filter fun i => a.testBit i).length

/-- CLZ. -/
def execClzNode (n : NodeRec) (s : State) : Host.Outcome State Fault Refusal :=
  fireMap1 s n 0x049 fun a => VRes.plain (clzOf (Rules.fmtWidth n.fmt) a)

/-- POPC. -/
def execPopcNode (n : NodeRec) (s : State) : Host.Outcome State Fault Refusal :=
  fireMap1 s n 0x04A fun a => VRes.plain (popOf (Rules.fmtWidth n.fmt) a)

/-- POS and LEN of BFX and BFI. -/
def bfPos (n : NodeRec) : Nat := field n.lit 5 0
def bfLen (n : NodeRec) : Nat := field n.lit 13 8 + 1

/-- BFX. -/
def execBfx (n : NodeRec) (s : State) : Host.Outcome State Fault Refusal :=
  fireMap1 s n 0x04B fun a =>
    let v := a / 2 ^ bfPos n % 2 ^ bfLen n
    VRes.plain (if fmtSigned n.fmt then wrapN (Rules.fmtWidth n.fmt) (signed (bfLen n) v) else v)

/-- BFI. -/
def execBfi (n : NodeRec) (s : State) : Host.Outcome State Fault Refusal :=
  fireMap2 s n 0x04C fun a b =>
    VRes.plain (a - a / 2 ^ bfPos n % 2 ^ bfLen n * 2 ^ bfPos n + b % 2 ^ bfLen n * 2 ^ bfPos n)

/-- A CMP condition on values read in a format (R363). -/
def intCond (m : Nat) (a b : Int) : Bool :=
  match m with
  | 0 => decide (a = b)
  | 1 => decide (a ≠ b)
  | 2 => decide (a < b)
  | 3 => decide (b ≤ a)
  | 4 => decide (a ≤ b)
  | _ => decide (b < a)

/-- CMP. -/
def execCmp (n : NodeRec) (s : State) : Host.Outcome State Fault Refusal :=
  fireMap2 s n 0x04D fun a b => VRes.plain (maskRes n.fmt (intCond (field n.mod 2 0) (intOf n.fmt a) (intOf n.fmt b)))

/-- SEL: the predicate chooses the operand of each element or pair, and invalidates none (R364). Both elements of a pair carry one VALID bit
(R116): a pair with one valid element comes out invalid. -/
def execSelNode (n : NodeRec) (s : State) : Host.Outcome State Fault Refusal :=
  fireNode s n (latency 0x04E n) 0 fun s x =>
    let pair := isPair n.fmt
    let a := x.opA n n.fmt
    let b := x.opB n n.fmt
    let lanes := (List.range 16).map fun i =>
      let l := if predAt x.f.p pair i then unitLane n.fmt a i else unitLane n.fmt b i
      mkLane l.val.toNat l.valid (l.poison || predPsn x.f.p pair i)
    let t := (x.out n false lanes).tok
    .fired s [(0, t), (1, t)] 0

end Sys2Proof.Machine
end

