-- ==== Sys2Proof/Machine/NodePoly.lean ====
section
/-! DEFINITION. Node records of group 7: the polynomial accumulator (R268 to R272, R408 to R416). -/

namespace Sys2Proof.Machine

/-! ### The accumulator -/

/-- Coefficient `j` as a dyadic. -/
def PolyAcc.dy (a : PolyAcc) (j : Nat) : Dy := (fvOf .f32 (a.c.getD j 0).toNat).dy

/-- An exponent saturated at the int32 limits, with OF where it would not fit (R269). -/
def satExp (e : Int) : Int × BitVec 10 :=
  let z := clampI e (-(2 ^ 31)) (2 ^ 31 - 1)
  (z, if z = e then 0 else fOF)

/-- A dyadic rounded once to FP32. -/
def Dy.round (x : Dy) : VRes := if x.m = 0 then VRes.plain 0 else roundF32 x.ey

/-- Order of the magnitudes of two dyadics: whether |x| is at most |y|. -/
def Dy.absLe (x y : Dy) : Bool :=
  let lo := min x.e y.e
  decide (shl x.m.natAbs (x.e - lo) ≤ shl y.m.natAbs (y.e - lo))

/-- The greatest magnitude. -/
def maxDy (ns : List Dy) : Dy := ns.foldl (fun m x => if m.absLe x then x else m) ⟨0, 0⟩

/-- The new coefficients N0 to ND rescaled and rounded (R269). -/
def PolyAcc.rescale (a : PolyAcc) (ns : List Dy) (forced : Bool) : PolyAcc × BitVec 10 :=
  let m := maxDy ns
  let out := !(m.absLe ⟨1, 64⟩) || (decide (m.m ≠ 0) && !(Dy.absLe ⟨1, -64⟩ m))
  let s : Int := if out || (forced && decide (m.m ≠ 0)) then -m.log2 else 0
  let e := satExp (a.e - s)
  let cs := ns.map fun x => Dy.round ⟨x.m, x.e + s⟩
  ({ a with c := (cs.map fun r => toElem r.bits) ++ List.replicate (64 - cs.length) 0, e := e.1 }, cs.foldl (fun f r => f ||| r.flags) e.2)

/-- The terms u, v of a factor in its form, with the flags of rounding 1 - p (R270). -/
def factorTerms (form : Nat) (a b : Elem) : Fv × Fv × BitVec 10 :=
  let x := fvOf .f32 a.toNat
  match form with
  | 0 =>
    let r := roundF32 (fvAdd (.fin false 1 0) (if x.isNan then x else x.negate) 0)
    if x.finite then (fvOf .f32 r.bits, x, r.flags) else (x, x, 0)
  | 1 => (.fin false 1 0, x, 0)
  | _ => (x, fvOf .f32 b.toNat, 0)

/-- One factor u + v·x applied (R270). -/
def PolyAcc.mulFactor (a : PolyAcc) (u v : Fv) : PolyAcc × BitVec 10 :=
  if !u.finite || !v.finite then (a, fNV)
  else
    let ns := (List.range (a.d + 1)).map fun j =>
      (u.dy.mul (a.dy j)).add (if j = 0 then ⟨0, 0⟩ else v.dy.mul (a.dy (j - 1)))
    let drop := decide (v.dy.m ≠ 0) && decide ((a.dy a.d).m ≠ 0)
    match a.rescale ns false with
    | (a', fl) => ({ a' with trunc := a'.trunc || drop, count := min (a'.count + 1) (2 ^ 32 - 1) }, fl)

/-- (x - y × z) / w as an exact result. -/
def quotStep (x y z w : Dy) : Ey :=
  let p := y.mul z
  let num := x.add ⟨-p.m, p.e⟩
  .num (decide (num.m < 0) != decide (w.m < 0)) num.m.natAbs w.m.natAbs (num.e - w.e)

/-- Quotient coefficients from the division recurrence: each step's dividend, the previous quotient; none on overflow. -/
def quotRun (y w : Dy) : List Dy → Dy → Option (List Dy × BitVec 10)
  | [], _ => some ([], 0)
  | x :: xs, prev =>
    match quotStep x y prev w with
    | .num neg n d e =>
      if n = 0 then (quotRun y w xs ⟨0, 0⟩).map fun r => (⟨0, 0⟩ :: r.1, r.2)
      else
        let r := fpRound .f32 0 neg n d e
        if r.ovf then none
        else
          let q := (fvOf .f32 (fpSign .f32 neg + r.bits)).dy
          (quotRun y w xs q).map fun t => (q :: t.1, t.2 ||| (if r.inexact then fNX else 0) ||| (if r.inexact && r.tiny then fUF else 0))
    | _ => none

/-- PPDIV of one factor (R272). -/
def PolyAcc.divFactor (a : PolyAcc) (u v : Fv) : PolyAcc × BitVec 10 :=
  if !u.finite || !v.finite || decide (u.dy.m = 0 ∧ v.dy.m = 0) || decide (a.count = 0) then (a, fNV)
  else
    let x := u.dy
    let y := v.dy
    let big := if y.absLe x then x else y
    let diff := Dy.add ⟨x.m.natAbs, x.e⟩ ⟨-(y.m.natAbs : Int), y.e⟩
    let unstable := diff.absLe ⟨big.m, big.e - 20⟩
    let run := if y.absLe x then quotRun y x ((List.range a.d).map a.dy) ⟨0, 0⟩
      else (quotRun x y ((List.range a.d).map fun j => a.dy (a.d - j)) ⟨0, 0⟩).map fun r => (r.1.reverse, r.2)
    match run with
    | none => (a, fOF ||| fRMU)
    | some (qs, fl) =>
      match a.rescale (qs ++ [⟨0, 0⟩]) false with
      | (a', fl2) => ({ a' with count := a'.count - 1 }, fl ||| fl2 ||| if unstable then fRMU else 0)

/-! ### Streams (R410) -/

/-- An element of a stream token; an invalid one reads as 0. -/
def strmElem (t : Token) (i : Nat) : Elem := let l := laneAt t.lanes i; if l.valid then l.val else 0

/-- What five tokens say: coefficients, E, D, TRUNC, count. -/
def strmAcc (ts : List Token) : PolyAcc :=
  let coef := fun j => strmElem (ts.getD (j / 16) (dataTok 0 noLanes noLoff Flags.none)) (j % 16)
  let t4 := ts.getD 4 (dataTok 0 noLanes noLoff Flags.none)
  { c := (List.range 64).map coef, e := (strmElem t4 0).toInt, d := (strmElem t4 1).toNat % 64, trunc := bitAt (strmElem t4 2) 0,
    count := (strmElem t4 3).toNat, lost := false }

/-- The lowest poisoned valid element of a list of tokens, with the mask of its token. -/
def poisonedElem (ts : List Token) : Option (Nat × BitVec 16) :=
  ts.findSome? fun t =>
    let bad := (List.range 16).filter fun i => (laneAt t.lanes i).valid && (laneAt t.lanes i).poison
    bad.head?.map fun i => (i, BitVec.ofNat 16 ((bad.map fun k => 2 ^ k).sum))

/-- Whether a valid coefficient element of a stream is not finite. -/
def strmBad (ts : List Token) : Bool := (ts.take 4).any fun t => t.lanes.any fun l => l.valid && !(fvOf .f32 l.val.toNat).finite

/-- A load of the accumulator from a stream under a degree (R411). -/
def loadAcc (ts : List Token) (d : Nat) : PolyAcc :=
  let b := strmAcc ts
  let above := (b.c.drop (d + 1)).any fun x => decide ((fvOf .f32 x.toNat).dy.m ≠ 0)
  { b with c := (b.c.take (d + 1)) ++ List.replicate (63 - d) 0, d := d, trunc := b.trunc || above }

/-- PPCMB (R271): the exponents add exactly, and only the rescale of R269 saturates the result. -/
def PolyAcc.combine (a b : PolyAcc) : PolyAcc × BitVec 10 :=
  let ns := (List.range (a.d + 1)).map fun j =>
    (List.range (j + 1)).foldl (fun s i => s.add ((a.dy i).mul (b.dy (j - i)))) (⟨0, 0⟩ : Dy)
  let above := (List.range (a.d + 1)).any fun i => decide ((a.dy i).m ≠ 0) &&
    ((List.range 64).any fun k => decide (a.d < i + k) && decide ((b.dy k).m ≠ 0))
  match { a with e := a.e + b.e }.rescale ns false with
  | (a', fl) => ({ a' with trunc := a.trunc || b.trunc || above, count := min (a.count + b.count) (2 ^ 32 - 1) }, fl)

/-! ### Shells -/

def Site.acc (x : Site) (s : State) : PolyAcc := ((s.tile x.tile).pe x.f.pe).acc

def State.putAcc (s : State) (x : Site) (a : PolyAcc) : State :=
  let t := s.tile x.tile
  s.putTile x.tile (t.putPe x.f.pe { t.pe x.f.pe with acc := a })

/-- The status token of a group 7 firing (R409). -/
def statusTok (itag : BitVec 32) (last : Bool) (a : PolyAcc) (fl : BitVec 10) : Token :=
  let bit := fun (f : BitVec 10) (k : Nat) => if fl &&& f ≠ 0 then 2 ^ k else 0
  let w0 := (if a.trunc then 1 else 0) + bit fRMU 1 + bit fNV 2 + bit fOF 3
  dataTok itag (padLanes [Lane.on (toElem w0), Lane.on (toElem a.count), Lane.on (BitVec.ofInt 32 a.e), Lane.on (toElem a.d)]) noLoff
    ⟨last, false, false, false, false, false⟩

/-- TRUNC's flag after a firing (R268). -/
def truncFlag (a : PolyAcc) : BitVec 10 := if a.trunc then fTRUNC else 0

/-- A group 7 firing that leaves the accumulator `a` and a status token. -/
def polyDone (s : State) (x : Site) (itag : BitVec 32) (last : Bool) (a : PolyAcc) (fl : BitVec 10) : FireRes :=
  let t := statusTok itag last a fl
  .fired (s.putAcc x a) [(0, t), (1, t)] (fl ||| truncFlag a)

/-- The shell of a group 7 node: a lost accumulator faults (R408, Table 10.5). -/
def firePoly (s : State) (n : NodeRec) (op : Nat) (g : State → Site → PolyAcc → FireRes) : Host.Outcome State Fault Refusal :=
  fireNode s n (latency op n) 0 fun s x => let a := x.acc s; if a.lost then .fault s (x.rec0 s cAccLost 0) else g s x a

/-- The LAST of a firing's left token. -/
def Site.leftLast (x : Site) (n : NodeRec) : Bool := (x.left n).elim false fun t => t.flags.last

/-- A stream whose D bounds which of its coefficients are valid (R414). -/
def boundStream (ts : List Token) : List Token :=
  let d := (strmAcc ts).d
  ts.zipIdx.map fun p => if p.2 < 4 then
    { p.1 with lanes := p.1.lanes.zipIdx.map fun l => if d < 16 * p.2 + l.2 then { l.1 with valid := false } else l.1 } else p.1

/-- A firing of a node that takes a stream of five left tokens, seen through `view`: it keeps the first four. -/
def polyStream (s : State) (x : Site) (view : List Token → List Token) (g : List Token → FireRes) : FireRes :=
  match x.f.l with
  | none => .fired s [] 0
  | some t =>
    let all := x.inst.buf ++ [t]
    let ts := view all
    if all.length < 5 then .fired (s.putInst x { x.inst with buf := all }) [] 0
    else match poisonedElem ts with
      | some (e, m) => .fault (s.putInst x { x.inst with buf := [] }) (x.faultRec s cPoisonedOperand 0 e m 0 0 0)
      | none => g ts

/-- The ITAG of a stream is that of its first token, its LAST that of its fifth. -/
def strmItag (ts : List Token) : BitVec 32 := (ts.head?.map fun t => t.itag).getD 0
def strmLast (ts : List Token) : Bool := (ts.getLast?.map fun t => t.flags.last).getD false

/-! ### Meanings -/

/-- PPSET. -/
def execPpset (n : NodeRec) (s : State) : Host.Outcome State Fault Refusal :=
  firePoly s n 0x1C0 fun s x a =>
    let d := field n.lit 5 0
    if n.mod.getLsbD 0 then
      polyStream s x id fun ts =>
        let s1 := s.putInst x { x.inst with buf := [] }
        if strmBad ts then polyDone s1 x (strmItag ts) (strmLast ts) a fNV
        else polyDone s1 x (strmItag ts) (strmLast ts) (loadAcc ts d) 0
    else polyDone s x x.f.itag (x.leftLast n) { PolyAcc.blank with d := d } 0

/-- The factors of a token: for each its two elements, whether one is poisoned, and the lowest poisoned element of it, or its first one. -/
def factorsOf (form : Nat) (ls : List Lane) : List (Elem × Elem × Bool × Nat) :=
  if form = 2 then
    ((List.range 8).filter fun i => pairValid ls i).map fun i => ((laneAt ls (2 * i)).val, (laneAt ls (2 * i + 1)).val, pairPsn ls i, if !(laneAt ls (2 * i)).poison && (laneAt ls (2 * i + 1)).poison then 2 * i + 1 else 2 * i)
  else
    ((List.range 16).filter fun i => (laneAt ls i).valid).map fun i => ((laneAt ls i).val, 0, (laneAt ls i).poison, i)

/-- Factors applied in order up to the first poisoned one: accumulator, flags, its element. -/
def mulRun (form : Nat) : List (Elem × Elem × Bool × Nat) → PolyAcc → BitVec 10 → PolyAcc × BitVec 10 × Option Nat
  | [], a, fl => (a, fl, none)
  | (p, q, psn, i) :: t, a, fl =>
    if psn then (a, fl, some i)
    else
      match factorTerms form p q with
      | (u, v, f0) => match a.mulFactor u v with
        | (a', f1) => mulRun form t a' (fl ||| f0 ||| f1)

/-- The mask of the poisoned elements that stand in factors. -/
def factorMask (form : Nat) (ls : List Lane) (first end_ : Nat) : BitVec 16 :=
  BitVec.ofNat 16 (((List.range 16).filter fun e => decide (first ≤ e) && decide (e < end_) &&
    (if form = 2 then pairValid ls (e / 2) else (laneAt ls e).valid) && (laneAt ls e).poison).map fun e => 2 ^ e).sum

/-- PPMUL. -/
def execPpmul (n : NodeRec) (s : State) : Host.Outcome State Fault Refusal :=
  firePoly s n 0x1C1 fun s x a =>
    let form := field n.mod 1 0
    let fs := factorsOf form (x.opA n .f32)
    match mulRun form fs a 0 with
    | (a', fl, none) => polyDone s x x.f.itag (x.leftLast n) a' fl
    | (a', fl, some i) =>
      let s1 := (s.putAcc x a').fireFlags x.key x.tile x.f.pe (fl ||| truncFlag a')
      .fault s1 (x.faultRec s1 cPoisonedOperand 0 i (factorMask form (x.opA n .f32) 0 16) 0 0 0)

/-- PPDIV. -/
def execPpdiv (n : NodeRec) (s : State) : Host.Outcome State Fault Refusal :=
  firePoly s n 0x1C2 fun s x a =>
    let form := field n.mod 1 0
    match factorsOf form (x.opA n .f32) with
    | [] => polyDone s x x.f.itag (x.leftLast n) a 0
    | (p, q, psn, i) :: _ =>
      if psn then .fault s (x.faultRec s cPoisonedOperand 0 i (factorMask form (x.opA n .f32) i (if form = 2 then i / 2 * 2 + 2 else i + 1)) 0 0 0)
      else
        match factorTerms form p q with
        | (u, v, f0) => match a.divFactor u v with
          | (a', f1) => polyDone s x x.f.itag (x.leftLast n) a' (f0 ||| f1)

/-- PPCMB. -/
def execPpcmb (n : NodeRec) (s : State) : Host.Outcome State Fault Refusal :=
  firePoly s n 0x1C3 fun s x a =>
    polyStream s x boundStream fun ts =>
      let s1 := s.putInst x { x.inst with buf := [] }
      if strmBad ts then polyDone s1 x (strmItag ts) (strmLast ts) a fNV
      else match a.combine (strmAcc ts) with
        | (a', fl) => polyDone s1 x (strmItag ts) (strmLast ts) a' fl

/-- PPNRM. -/
def execPpnrm (n : NodeRec) (s : State) : Host.Outcome State Fault Refusal :=
  firePoly s n 0x1C4 fun s x a =>
    match a.rescale ((List.range (a.d + 1)).map a.dy) true with
    | (a', fl) => polyDone s x x.f.itag (x.leftLast n) a' fl

/-- A coefficient times 2^e, rounded to FP32; a zero keeps its sign (R416). -/
def scaleCoef (c : Elem) (e : Int) : VRes :=
  match fvOf .f32 c.toNat with
  | .fin neg m e0 => roundF32 (.num neg m 1 (e0 + e))
  | x => roundF32 x.ey

/-- PPOUT: five tokens, one each cycle from 2 cycles after its start; no state changes (R416). -/
def execPpout (n : NodeRec) (s : State) : Host.Outcome State Fault Refusal :=
  firePoly s n 0x1C5 fun s x a =>
    let apply := n.mod.getLsbD 0
    let w0 := x.widths.getD 0 32
    let rs := (List.range 64).map fun j =>
      if apply && decide (j ≤ a.d) then scaleCoef (a.c.getD j 0) a.e else VRes.plain (a.c.getD j 0).toNat
    let d0 := x.f.itag.toNat % 2 ^ w0
    let itag := fun k => BitVec.ofNat 32 (x.f.itag.toNat / 2 ^ w0 * 2 ^ w0 + (d0 + k) % 2 ^ w0)
    let hdr := fun (last : Bool) => (⟨last, scaledOf (x.dataToks n false), false, false, false, false⟩ : Flags)
    let data := (List.range 4).map fun k => dataTok (itag k)
      ((List.range 16).map fun i => mkLane (rs.getD (16 * k + i) (VRes.plain 0)).bits (decide (16 * k + i ≤ a.d)) false) noLoff (hdr false)
    let t4 := dataTok (itag 4) (padLanes [Lane.on (if apply then 0 else BitVec.ofInt 32 a.e), Lane.on (toElem a.d),
      Lane.on (if a.trunc then 1 else 0), Lane.on (toElem a.count)]) noLoff (hdr true)
    .firedAt s ((data ++ [t4]).zipIdx.flatMap fun t => [(0, t.2 + 1, t.1), (1, t.2 + 1, t.1)]) (rs.foldl (fun f r => f ||| r.flags) 0)

end Sys2Proof.Machine
end

