-- ==== Sys2Proof/Machine/Dispatch.lean ====
section
/-! DEFINITION. The meaning of every instruction: one arm per constructor. -/

namespace Sys2Proof.Machine

/-- What an instruction does. -/
def exec (i : Instr) (s : State) : Host.Outcome State Fault Refusal :=
  match i with
  | .powerSample watts => Sys2Proof.Machine.execPowerSample watts s
  | .thermalSample temps inlet flow => Sys2Proof.Machine.execThermalSample temps inlet flow s
  | .freezeTrigger periods => Sys2Proof.Machine.execFreezeTrigger periods s
  | .clockStop lag => Sys2Proof.Machine.execClockStop lag s
  | .samplePreload pins => Sys2Proof.Machine.execSamplePreload pins s
  | .extest pins => Sys2Proof.Machine.execExtest pins s
  | .statedump addr write => Sys2Proof.Machine.execStatedump addr write s
  | .portTrained port lo hi => Sys2Proof.Machine.execPortTrained port lo hi s
  | .idleNullTimer port => Sys2Proof.Machine.execIdleNullTimer port s
  | .linkFault port cause => Sys2Proof.Machine.execLinkFault port cause s
  | .routeRehash mdie dev port => Sys2Proof.Machine.execRouteRehash mdie dev port s
  | .classReleaseTimer port sdev ctx => Sys2Proof.Machine.execClassReleaseTimer port sdev ctx s
  | .waitRetryTimer tag => Sys2Proof.Machine.execWaitRetryTimer tag s
  | .stagingTimeout cdev xid => Sys2Proof.Machine.execStagingTimeout cdev xid s
  | .queryTimer cdev xid => Sys2Proof.Machine.execQueryTimer cdev xid s
  | .keepAliveTimer xid => Sys2Proof.Machine.execKeepAliveTimer xid s
  | .commitResend xid => Sys2Proof.Machine.execCommitResend xid s
  | .pageMove frame dev => Sys2Proof.Machine.execPageMove frame dev s
  | .launchDescriptorTake q die => Sys2Proof.Machine.execLaunchDescriptorTake q die s
  | .heldLaunchRelease lid => Sys2Proof.Machine.execHeldLaunchRelease lid s
  | .regionReplaceSwitch key => Sys2Proof.Machine.execRegionReplaceSwitch key s
  | .dispatchChoice die => Sys2Proof.Machine.execDispatchChoice die s
  | .l2ModeSwitch part => Sys2Proof.Machine.execL2ModeSwitch part s
  | .preempt key => Sys2Proof.Machine.execPreempt key s
  | .bivouacExchange part => Sys2Proof.Machine.execBivouacExchange part s
  | .regionResume pid => Sys2Proof.Machine.execRegionResume pid s
  | .arbiterWindow tile pe => Sys2Proof.Machine.execArbiterWindow tile pe s
  | .replicate key bslot => Sys2Proof.Machine.execReplicate key bslot s
  | .replicaWithdraw key bslot => Sys2Proof.Machine.execReplicaWithdraw key bslot s
  | .configFetchDone idx => Sys2Proof.Machine.execConfigFetchDone idx s
  | .blockFetch key => Sys2Proof.Machine.execBlockFetch key s
  | .blockCommit key => Sys2Proof.Machine.execBlockCommit key s
  | .fabricBlockMap key bslot => Sys2Proof.Machine.execFabricBlockMap key bslot s
  | .tokenArrival tile idx => Sys2Proof.Machine.execTokenArrival tile idx s
  | .unitComplete key bslot => Sys2Proof.Machine.execUnitComplete key bslot s
  | .launchComplete lid => Sys2Proof.Machine.execLaunchComplete lid s
  | .cancelAdvance lid => Sys2Proof.Machine.execCancelAdvance lid s
  | .faultTokenEntry key => Sys2Proof.Machine.execFaultTokenEntry key s
  | .trapEntry key => Sys2Proof.Machine.execTrapEntry key s
  | .minorFaultServed idx => Sys2Proof.Machine.execMinorFaultServed idx s
  | .budgetExceeded idx => Sys2Proof.Machine.execBudgetExceeded idx s
  | .majorFaultSave key => Sys2Proof.Machine.execMajorFaultSave key s
  | .majorFaultServed pid resident => Sys2Proof.Machine.execMajorFaultServed pid resident s
  | .peCheckFailure tile pe => Sys2Proof.Machine.execPeCheckFailure tile pe s
  | .ccEccError key committed => Sys2Proof.Machine.execCcEccError key committed s
  | .uncorrectableError place => Sys2Proof.Machine.execUncorrectableError place s
  | .timestampRebase mdie => Sys2Proof.Machine.execTimestampRebase mdie s
  | .cairnWaitComplete idx => Sys2Proof.Machine.execCairnWaitComplete idx s
  | .idleWake key => Sys2Proof.Machine.execIdleWake key s
  | .stalledPutProceed tile idx => Sys2Proof.Machine.execStalledPutProceed tile idx s
  | .readReevaluate tile idx => Sys2Proof.Machine.execReadReevaluate tile idx s
  | .barrierRetry tile idx => Sys2Proof.Machine.execBarrierRetry tile idx s
  | .relocRun mdie => Sys2Proof.Machine.execRelocRun mdie s
  | .streamScoreboardStep tile port => Sys2Proof.Machine.execStreamScoreboardStep tile port s
  | .loadStreamToken tile port => Sys2Proof.Machine.execLoadStreamToken tile port s
  | .storeStreamToken tile port => Sys2Proof.Machine.execStoreStreamToken tile port s
  | .streamComplete tile port => Sys2Proof.Machine.execStreamComplete tile port s
  | .engineDrain key idx => Sys2Proof.Machine.execEngineDrain key idx s
  | .addS r => Sys2Proof.Machine.execAddS r s
  | .subS r => Sys2Proof.Machine.execSubS r s
  | .mulS r => Sys2Proof.Machine.execMulS r s
  | .mulhS r => Sys2Proof.Machine.execMulhS r s
  | .divS r => Sys2Proof.Machine.execDivS r s
  | .remS r => Sys2Proof.Machine.execRemS r s
  | .andS r => Sys2Proof.Machine.execAndS r s
  | .orS r => Sys2Proof.Machine.execOrS r s
  | .xorS r => Sys2Proof.Machine.execXorS r s
  | .andnS r => Sys2Proof.Machine.execAndnS r s
  | .shlS r => Sys2Proof.Machine.execShlS r s
  | .shrS r => Sys2Proof.Machine.execShrS r s
  | .sarS r => Sys2Proof.Machine.execSarS r s
  | .minS r => Sys2Proof.Machine.execMinS r s
  | .maxS r => Sys2Proof.Machine.execMaxS r s
  | .movi r => Sys2Proof.Machine.execMovi r s
  | .sel r => Sys2Proof.Machine.execSel r s
  | .setc r => Sys2Proof.Machine.execSetc r s
  | .clz r => Sys2Proof.Machine.execClz r s
  | .popc r => Sys2Proof.Machine.execPopc r s
  | .lds r => Sys2Proof.Machine.execLds r s
  | .sts r => Sys2Proof.Machine.execSts r s
  | .csrr r => Sys2Proof.Machine.execCsrr r s
  | .csrw r => Sys2Proof.Machine.execCsrw r s
  | .run r => Sys2Proof.Machine.execRun r s
  | .runw r => Sys2Proof.Machine.execRunw r s
  | .exitB r => Sys2Proof.Machine.execExitB r s
  | .exitc r => Sys2Proof.Machine.execExitc r s
  | .callb r => Sys2Proof.Machine.execCallb r s
  | .retb r => Sys2Proof.Machine.execRetb r s
  | .replaceB r => Sys2Proof.Machine.execReplaceB r s
  | .bwait r => Sys2Proof.Machine.execBwait r s
  | .feat r => Sys2Proof.Machine.execFeat r s
  | .fdecl r => Sys2Proof.Machine.execFdecl r s
  | .fresize r => Sys2Proof.Machine.execFresize r s
  | .fqry r => Sys2Proof.Machine.execFqry r s
  | .fdrop r => Sys2Proof.Machine.execFdrop r s
  | .fspill r => Sys2Proof.Machine.execFspill r s
  | .ffill r => Sys2Proof.Machine.execFfill r s
  | .cnew r => Sys2Proof.Machine.execCnew r s
  | .cadd r => Sys2Proof.Machine.execCadd r s
  | .cwait r => Sys2Proof.Machine.execCwait r s
  | .crd r => Sys2Proof.Machine.execCrd r s
  | .launch r => Sys2Proof.Machine.execLaunch r s
  | .cancel r => Sys2Proof.Machine.execCancel r s
  | .arm r => Sys2Proof.Machine.execArm r s
  | .sbind r => Sys2Proof.Machine.execSbind r s
  | .sgo r => Sys2Proof.Machine.execSgo r s
  | .sstop r => Sys2Proof.Machine.execSstop r s
  | .sbar r => Sys2Proof.Machine.execSbar r s
  | .copy r => Sys2Proof.Machine.execCopy r s
  | .gather r => Sys2Proof.Machine.execGather r s
  | .scatter r => Sys2Proof.Machine.execScatter r s
  | .cred r => Sys2Proof.Machine.execCred r s
  | .rput r => Sys2Proof.Machine.execRput r s
  | .rget r => Sys2Proof.Machine.execRget r s
  | .xbegin r => Sys2Proof.Machine.execXbegin r s
  | .xput r => Sys2Proof.Machine.execXput r s
  | .xcommit r => Sys2Proof.Machine.execXcommit r s
  | .xabort r => Sys2Proof.Machine.execXabort r s
  | .hld r => Sys2Proof.Machine.execHld r s
  | .hst r => Sys2Proof.Machine.execHst r s
  | .hmov r => Sys2Proof.Machine.execHmov r s
  | .hpin r => Sys2Proof.Machine.execHpin r s
  | .hunpin r => Sys2Proof.Machine.execHunpin r s
  | .hcmp r => Sys2Proof.Machine.execHcmp r s
  | .hnew r => Sys2Proof.Machine.execHnew r s
  | .reloc r => Sys2Proof.Machine.execReloc r s
  | .relq r => Sys2Proof.Machine.execRelq r s
  | .snap r => Sys2Proof.Machine.execSnap r s
  | .snapdrop r => Sys2Proof.Machine.execSnapdrop r s
  | .trap r => Sys2Proof.Machine.execTrap r s
  | .trapRd r => Sys2Proof.Machine.execTrapRd r s
  | .trapPop r => Sys2Proof.Machine.execTrapPop r s
  | .rett r => Sys2Proof.Machine.execRett r s
  | .efence r => Sys2Proof.Machine.execEfence r s
  | .halt r => Sys2Proof.Machine.execHalt r s
  | .idle r => Sys2Proof.Machine.execIdle r s
  | .tlbinv r => Sys2Proof.Machine.execTlbinv r s
  | .addNode n => Sys2Proof.Machine.execAddNode n s
  | .subNode n => Sys2Proof.Machine.execSubNode n s
  | .mulNode n => Sys2Proof.Machine.execMulNode n s
  | .mulhNode n => Sys2Proof.Machine.execMulhNode n s
  | .mad n => Sys2Proof.Machine.execMad n s
  | .minNode n => Sys2Proof.Machine.execMinNode n s
  | .maxNode n => Sys2Proof.Machine.execMaxNode n s
  | .abs n => Sys2Proof.Machine.execAbs n s
  | .neg n => Sys2Proof.Machine.execNeg n s
  | .adda n => Sys2Proof.Machine.execAdda n s
  | .idx n => Sys2Proof.Machine.execIdx n s
  | .iota n => Sys2Proof.Machine.execIota n s
  | .sad n => Sys2Proof.Machine.execSad n s
  | .andNode n => Sys2Proof.Machine.execAndNode n s
  | .orNode n => Sys2Proof.Machine.execOrNode n s
  | .xorNode n => Sys2Proof.Machine.execXorNode n s
  | .andnNode n => Sys2Proof.Machine.execAndnNode n s
  | .notNode n => Sys2Proof.Machine.execNotNode n s
  | .shlNode n => Sys2Proof.Machine.execShlNode n s
  | .shrNode n => Sys2Proof.Machine.execShrNode n s
  | .sarNode n => Sys2Proof.Machine.execSarNode n s
  | .rot n => Sys2Proof.Machine.execRot n s
  | .clzNode n => Sys2Proof.Machine.execClzNode n s
  | .popcNode n => Sys2Proof.Machine.execPopcNode n s
  | .bfx n => Sys2Proof.Machine.execBfx n s
  | .bfi n => Sys2Proof.Machine.execBfi n s
  | .cmp n => Sys2Proof.Machine.execCmp n s
  | .selNode n => Sys2Proof.Machine.execSelNode n s
  | .perm n => Sys2Proof.Machine.execPerm n s
  | .bcast n => Sys2Proof.Machine.execBcast n s
  | .shfl n => Sys2Proof.Machine.execShfl n s
  | .red n => Sys2Proof.Machine.execRed n s
  | .scan n => Sys2Proof.Machine.execScan n s
  | .compact n => Sys2Proof.Machine.execCompact n s
  | .expand n => Sys2Proof.Machine.execExpand n s
  | .pack n => Sys2Proof.Machine.execPack n s
  | .unpack n => Sys2Proof.Machine.execUnpack n s
  | .vmask n => Sys2Proof.Machine.execVmask n s
  | .fan n => Sys2Proof.Machine.execFan n s
  | .merge n => Sys2Proof.Machine.execMerge n s
  | .delay n => Sys2Proof.Machine.execDelay n s
  | .tag n => Sys2Proof.Machine.execTag n s
  | .lastNode n => Sys2Proof.Machine.execLastNode n s
  | .sink n => Sys2Proof.Machine.execSink n s
  | .fadd n => Sys2Proof.Machine.execFadd n s
  | .fsub n => Sys2Proof.Machine.execFsub n s
  | .fmul n => Sys2Proof.Machine.execFmul n s
  | .ffma n => Sys2Proof.Machine.execFfma n s
  | .fmin n => Sys2Proof.Machine.execFmin n s
  | .fmax n => Sys2Proof.Machine.execFmax n s
  | .fcmp n => Sys2Proof.Machine.execFcmp n s
  | .fsgn n => Sys2Proof.Machine.execFsgn n s
  | .fclass n => Sys2Proof.Machine.execFclass n s
  | .fsfu n => Sys2Proof.Machine.execFsfu n s
  | .cvt n => Sys2Proof.Machine.execCvt n s
  | .ftoi n => Sys2Proof.Machine.execFtoi n s
  | .itof n => Sys2Proof.Machine.execItof n s
  | .frnd n => Sys2Proof.Machine.execFrnd n s
  | .qmax n => Sys2Proof.Machine.execQmax n s
  | .qcvt n => Sys2Proof.Machine.execQcvt n s
  | .dqt n => Sys2Proof.Machine.execDqt n s
  | .scaleNode n => Sys2Proof.Machine.execScaleNode n s
  | .scacc n => Sys2Proof.Machine.execScacc n s
  | .rng n => Sys2Proof.Machine.execRng n s
  | .mldb n => Sys2Proof.Machine.execMldb n s
  | .mrow n => Sys2Proof.Machine.execMrow n s
  | .mqrow n => Sys2Proof.Machine.execMqrow n s
  | .mrec n => Sys2Proof.Machine.execMrec n s
  | .mout n => Sys2Proof.Machine.execMout n s
  | .ppset n => Sys2Proof.Machine.execPpset n s
  | .ppmul n => Sys2Proof.Machine.execPpmul n s
  | .ppdiv n => Sys2Proof.Machine.execPpdiv n s
  | .ppcmb n => Sys2Proof.Machine.execPpcmb n s
  | .ppnrm n => Sys2Proof.Machine.execPpnrm n s
  | .ppout n => Sys2Proof.Machine.execPpout n s
  | .xlat n => Sys2Proof.Machine.execXlat n s
  | .ld n => Sys2Proof.Machine.execLd n s
  | .st n => Sys2Proof.Machine.execSt n s
  | .ldg n => Sys2Proof.Machine.execLdg n s
  | .stx n => Sys2Proof.Machine.execStx n s
  | .pref n => Sys2Proof.Machine.execPref n s
  | .putNode n => Sys2Proof.Machine.execPutNode n s
  | .getNode n => Sys2Proof.Machine.execGetNode n s
  | .getr n => Sys2Proof.Machine.execGetr n s
  | .rls n => Sys2Proof.Machine.execRls n s
  | .hldNode n => Sys2Proof.Machine.execHldNode n s
  | .hstNode n => Sys2Proof.Machine.execHstNode n s
  | .hnewNode n => Sys2Proof.Machine.execHnewNode n s
  | .hpinNode n => Sys2Proof.Machine.execHpinNode n s
  | .hunpinNode n => Sys2Proof.Machine.execHunpinNode n s
  | .hcmpNode n => Sys2Proof.Machine.execHcmpNode n s
  | .caddNode n => Sys2Proof.Machine.execCaddNode n s
  | .cwaitNode n => Sys2Proof.Machine.execCwaitNode n s
  | .bin n => Sys2Proof.Machine.execBin n s
  | .bout n => Sys2Proof.Machine.execBout n s
  | .tap n => Sys2Proof.Machine.execTap n s
  | .vote n => Sys2Proof.Machine.execVote n s
  | .trapNode n => Sys2Proof.Machine.execTrapNode n s
  | .brk n => Sys2Proof.Machine.execBrk n s
  | .trace n => Sys2Proof.Machine.execTrace n s
  | .efenceNode n => Sys2Proof.Machine.execEfenceNode n s
  | .nop n => Sys2Proof.Machine.execNop n s
  | .abortedRecordTimeout xid => Sys2Proof.Machine.execAbortedRecordTimeout xid s
  | .coldReset => Sys2Proof.Machine.execColdReset s
  | .warmReset => Sys2Proof.Machine.execWarmReset s
  | .resetRestart => Sys2Proof.Machine.execResetRestart s
  | .thermalTrip => Sys2Proof.Machine.execThermalTrip s
  | .freezeCmd => Sys2Proof.Machine.execFreezeCmd s
  | .warmresetCmd => Sys2Proof.Machine.execWarmresetCmd s
  | .contCmd => Sys2Proof.Machine.execContCmd s
  | .dumpdataRead => Sys2Proof.Machine.execDumpdataRead s
  | .bypass => Sys2Proof.Machine.execBypass s
  | .idcode => Sys2Proof.Machine.execIdcode s
  | .registerWrite => Sys2Proof.Machine.execRegisterWrite s
  | .devnumWrite => Sys2Proof.Machine.execDevnumWrite s
  | .featenWrite => Sys2Proof.Machine.execFeatenWrite s
  | .lqctlWrite => Sys2Proof.Machine.execLqctlWrite s
  | .scqctlWrite => Sys2Proof.Machine.execScqctlWrite s
  | .nullFlit => Sys2Proof.Machine.execNullFlit s
  | .rdreq => Sys2Proof.Machine.execRdreq s
  | .wrreq => Sys2Proof.Machine.execWrreq s
  | .rdrsp => Sys2Proof.Machine.execRdrsp s
  | .wrack => Sys2Proof.Machine.execWrack s
  | .tokenFlit => Sys2Proof.Machine.execTokenFlit s
  | .cairnAdd => Sys2Proof.Machine.execCairnAdd s
  | .cairnWait => Sys2Proof.Machine.execCairnWait s
  | .cairnRead => Sys2Proof.Machine.execCairnRead s
  | .greply => Sys2Proof.Machine.execGreply s
  | .hopReadHeader => Sys2Proof.Machine.execHopReadHeader s
  | .hopPin => Sys2Proof.Machine.execHopPin s
  | .hopUnpin => Sys2Proof.Machine.execHopUnpin s
  | .hopWait => Sys2Proof.Machine.execHopWait s
  | .classBind => Sys2Proof.Machine.execClassBind s
  | .classRelease => Sys2Proof.Machine.execClassRelease s
  | .xstage => Sys2Proof.Machine.execXstage s
  | .prepareTxn => Sys2Proof.Machine.execPrepareTxn s
  | .readyTxn => Sys2Proof.Machine.execReadyTxn s
  | .commitTxn => Sys2Proof.Machine.execCommitTxn s
  | .abortTxn => Sys2Proof.Machine.execAbortTxn s
  | .doneTxn => Sys2Proof.Machine.execDoneTxn s
  | .queryTxn => Sys2Proof.Machine.execQueryTxn s
  | .keepTxn => Sys2Proof.Machine.execKeepTxn s
  | .recordResume => Sys2Proof.Machine.execRecordResume s
  | .systemCommandTake => Sys2Proof.Machine.execSystemCommandTake s
  | .ctxnew => Sys2Proof.Machine.execCtxnew s
  | .ctxfree => Sys2Proof.Machine.execCtxfree s
  | .cancelCommand => Sys2Proof.Machine.execCancelCommand s
  | .snapCommand => Sys2Proof.Machine.execSnapCommand s
  | .snapdropCommand => Sys2Proof.Machine.execSnapdropCommand s
  | .replaceCommand => Sys2Proof.Machine.execReplaceCommand s
  | .cfginv => Sys2Proof.Machine.execCfginv s
  | .topo => Sys2Proof.Machine.execTopo s
  | .cinit => Sys2Proof.Machine.execCinit s
  | .malformedCommand => Sys2Proof.Machine.execMalformedCommand s

end Sys2Proof.Machine
end

