-- ==== Sys2Proof/Machine/Sched.lean ====
section
/-! DEFINITION. Which turn a step takes: the agenda, the turns that stand open, the choice among them; and what a turn runs. -/

namespace Sys2Proof.Machine

/-! ### What a turn runs -/

/-- The record a control core executes next (R124, R292). -/
def State.recordOf (s : State) (key : Nat) : Option Instr :=
  match tget s.regions key with
  | none => none
  | some r =>
    match r.work with
    | none => none
    | some w =>
      match tget r.blocks w.slot with
      | none => none
      | some b =>
        match b.image.recs[w.pc]? with
        | none => none
        | some x =>
          match Decode.record x with
          | .ok i => some i
          | .error _ => none

/-- The node record a firing runs (R115, R126). -/
def State.nodeOf (s : State) (tile idx : Nat) : Option Instr :=
  match (s.tile tile).ready[idx]? with
  | none => none
  | some f =>
    match tget ((s.tile tile).pe f.pe).slots f.slot with
    | none => none
    | some n =>
      match Decode.record n.bits with
      | .ok i => some i
      | .error _ => none

/-- The instruction of a turn and the agent it serves. -/
def State.turnInstr (s : State) (t : Turn) : Option (Instr × Actor) :=
  match t with
  | .event i => some (i, .none)
  | .record k => (s.recordOf k).map fun i => (i, .core k)
  | .fire t n => (s.nodeOf t n).map fun i => (i, .fire t n)
  | .tick => none

/-! ### The clock (R11, R88, R98, R102, R131, R191) -/

/-- Whether this cycle is withheld from a partition (R11): with n steps the first n of every 16, alike in every partition, where the power and
the thermal steps of a partition count as the larger of the two. Which cycles and how the two combine is the model's choice (log 22). -/
def State.withheld (s : State) (part : Nat) : Bool := decide (s.now % 16 < max s.dev.powerSteps (tgetD s.dev.thermSteps part 0))

/-- Whether a region runs in this cycle; one bound to a partition whose L2 mode is still to be switched has not started (R162). -/
def State.runs (s : State) (r : Region) : Bool := decide (r.run = .running) && !s.withheld r.part && !s.modeDue r

/-- Whether the clocks run: the rails are on, no freeze, no reset sequence (R14, R18, R22). -/
def State.clocked (s : State) : Bool := !s.dev.railsOff && !bitAt s.dev.frzstat 31 && s.dev.resetSeq.isNone

/-! ### Sharing a PE (R98)

A round of the arbiter is 16 slots, or k of them where more than 16 nodes have operands waiting (log 81). -/

/-- Nodes of a PE, by slot, for which complete operand sets wait. -/
def Tile.waiting (t : Tile) (pe : Nat) : List Nat :=
  (t.ready.filter fun f => decide (f.pe = pe ∧ (f.st = .ready ∨ f.st = .released)) && !f.begun).foldl (fun l f => ninsert l f.slot) []

/-- Share of a node in 1/4096 of the slots; equal ones while none has been measured. -/
def Pe.share (p : Pe) (slot : Nat) : Nat := if p.shares.isEmpty then 1 else tgetD p.shares slot 0

/-- Slots of a round that are a waiting node's: one where its share is below the floor, else its part of those that the floors leave. -/
def Pe.quota (p : Pe) (ws : List Nat) (slot : Nat) : Nat :=
  let total := (ws.map p.share).sum
  let low := (ws.filter fun n => decide (16 * p.share n < total)).length
  if 16 < ws.length then 1 else max 1 (p.share slot * (16 - low) / max 1 total)

/-- Slots dealt in a PE's round. -/
def Pe.dealtSum (p : Pe) : Nat := (p.dealt.map fun e => e.2).sum

/-- Whether the next slot of a PE may go to a node: it has slots of the round left, or those of the others do not need all that are left. -/
def Tile.dealsTo (t : Tile) (pe slot : Nat) : Bool :=
  let p := t.pe pe
  let ws := t.waiting pe
  let n := max 16 ws.length
  let p1 := if p.dealtSum < n then p else { p with dealt := [] }
  let owed := fun (k : Nat) => p1.quota ws k - tgetD p1.dealt k 0
  decide (0 < owed slot) || decide ((ws.map owed).sum < n - p1.dealtSum)

/-- Cycles of a window of the arbiter (R98). -/
def windowCycles : Nat := 4096

/-- PEs of a tile whose window ends now. -/
def Tile.windowsDue (t : Tile) : List Nat := (t.pes.filter fun p => decide (windowCycles ≤ p.2.window)).map fun p => p.1

/-- Whether a PE can start a firing in this cycle. -/
def Tile.peFree (t : Tile) (now pe : Nat) : Bool := decide ((t.pe pe).lastFire ≠ now + 1)

/-- Operation code of a firing's node. -/
def Tile.opOf (t : Tile) (f : Firing) : Nat :=
  match (t.inst f.pe f.slot).bind fun n => nodeRecOf n.bits with
  | some (_, c, _) => c.op
  | none => 0

/-- Whether a firing is ready to take a turn: it stands on nothing, its PE has not started another in this cycle, and, but for memory and heap nodes,
CADD and CWAIT, it is the oldest of its node. -/
def Tile.fireReady (t : Tile) (now idx : Nat) (f : Firing) : Bool :=
  let free := decide (t.opOf f / 64 = 8 ∨ t.opOf f / 64 = 10 ∨ t.opOf f = 0x2C0 ∨ t.opOf f = 0x2C1)
  decide (f.st = .ready ∨ f.st = .released) && (f.begun || t.peFree now f.pe) &&
  (free || !(t.ready.take idx).any fun g => decide (g.pe = f.pe ∧ g.slot = f.slot)) &&
  match t.inst f.pe f.slot with
  | some n => !n.stopped
  | none => false

/-- Whether a node can start: a row node and MOUT of the MPE wait for the B operand (R402). -/
def Tile.hasB (t : Tile) (op : Nat) : Bool := t.mpeB.isSome || !decide (0x181 ≤ op ∧ op ≤ 0x184)

/-- Whether no other node of the MPE, or of a polynomial accumulator, that is ready too has a lower NODE (R402, R408). -/
def Tile.lowestNode (t : Tile) (now : Nat) (f : Firing) : Bool :=
  !t.ready.zipIdx.any fun x => decide (x.1.pe = f.pe ∧ x.1.node < f.node) && !x.1.begun && t.fireReady now x.2 x.1 && t.hasB (t.opOf x.1)

/-- Whether a firing may take a turn: it is ready, and has begun or its node is next: on the MPE and an accumulator the lowest, on another PE the
one that is dealt the slot. -/
def Tile.canFire (t : Tile) (now idx : Nat) (f : Firing) : Bool :=
  t.fireReady now idx f && (f.begun || if t.opOf f / 64 = 6 ∨ t.opOf f / 64 = 7 then t.lowestNode now f else t.dealsTo f.pe f.slot)

/-- Whether a node fires in the cycle its last operand arrives (R132): one of groups 0 to 5, or a row node of the MPE that has its B operand. -/
def Tile.firesAtOnce (t : Tile) (op : Nat) : Bool := decide (op / 64 < 6) || (decide (op = 0x181 ∨ op = 0x182 ∨ op = 0x183) && t.mpeB.isSome)

/-- Whether a firing waits for its PE in this cycle: it is of a node with a fixed latency and has not begun. -/
def Tile.mustFire (t : Tile) (now idx : Nat) (f : Firing) : Bool := t.fireReady now idx f && t.firesAtOnce (t.opOf f) && !f.begun

/-- Places of a list that pass a test. -/
def placesOf {α : Type} (l : List α) (p : Nat → α → Bool) : List Nat := (l.zipIdx.filter fun x => p x.2 x.1).map fun x => x.2

/-- Whether a cycle cannot end yet: a timed token that can arrive has not, a PE that can fire has not, or a window of an arbiter ends. -/
def State.cycleOpen (s : State) : Bool :=
  s.regions.any fun e => s.runs e.2 && e.2.tiles.any fun k =>
    !(s.tile k).windowsDue.isEmpty || !(placesOf (s.tile k).arrivals fun i c => c.timed && s.canArrive k i c).isEmpty || !(placesOf (s.tile k).ready fun i f => (s.tile k).mustFire s.now i f && s.mergeRoom k f).isEmpty

/-- Complete operand sets that wait for each slot of a PE, added to its occupancy (R98). -/
def Pe.occupied (p : Pe) (ready : List Firing) (n : Nat) : Pe :=
  let mine := ready.filter fun f => decide (f.pe = n) && !f.begun
  { p with occupancy := mine.foldl (fun t f => tput t f.slot (tgetD t f.slot 0 + 1)) p.occupancy, window := p.window + 1 }

/-- A node one cycle nearer to the cycle in which its TEAR leaves. -/
def NodeInst.tick (n : NodeInst) : NodeInst := { n with leaving := n.leaving.map fun k => k - 1 }

/-- A tile of a running region after one cycle. -/
def Tile.tick (t : Tile) : Tile :=
  { t with
    chans := t.chans.map fun c => { c with left := c.left - 1 }
    pes := t.pes.map fun e => (e.1, { (e.2.occupied t.ready e.1) with slots := e.2.slots.map fun n => (n.1, n.2.tick) }) }

/-- Nodes of a tile whose TEAR leaves in this cycle free their slots. -/
def State.freeLeavers (s : State) (k : Nat) : State := (s.tile k).leavers.foldl (fun s' q => s'.freeNode k q.1 q.2) s

/-- Deficits after one cycle: each running region charges its tiles to its job's place on its die, where it has one or now takes one (R88). -/
def State.charge (s : State) (r : Region) : State :=
  let die := dieOf r.part
  let p := s.prioOf r.launch
  let job := s.jobOf r.ctx
  let rs := tgetD (tgetD s.host.dies die Die.blank).rounds p []
  let rs1 := if rs.any fun x => decide (x.job = job) then rs else rs ++ [⟨job, 0, false⟩]
  s.putRounds die p (rs1.map fun x => if x.job = job then { x with deficit := x.deficit - (r.size : Int) } else x)

/-- The cycles of a partition in which regions of `n` tiles ran, after one more; those of more than 1 ms ago go (R91). -/
def chargeAfter (now n : Nat) (cs : List Charge) : List Charge :=
  let kept := cs.filter fun c => decide (now < c.upto + cycles1ms)
  if n = 0 then kept
  else match kept with
    | c :: t => if c.upto = now ∧ c.size = n then { c with upto := now + 1 } :: t else ⟨now, now + 1, n⟩ :: c :: t
    | [] => [⟨now, now + 1, n⟩]

/-- Charged partition-time of each partition after one more cycle. -/
def State.chargeParts (s : State) (rs : List Region) : Tab (List Charge) :=
  ((List.range 16).map fun p => (p, chargeAfter s.now ((rs.filter fun r => decide (r.part = p)).map fun r => r.size).sum (tgetD s.host.charged p []))).filter
    fun e => !e.2.isEmpty

/-- Since when each dispatch unit has had something to do (log 19). -/
def State.noteDue (s : State) : State :=
  let due := fun (s' : State) (d : Nat) =>
    let x := tgetD s.host.dies d Die.blank
    let t := if s.dieActs d then some (x.due.getD s.now) else none
    if t = x.due then s' else { s' with host := { s'.host with dies := tput s'.host.dies d { x with due := t } } }
  (List.range 4).foldl due s

/-- One cycle of the main clock. -/
def State.tick (s : State) : State :=
  let live := s.regions.filter fun e => s.runs e.2
  let ks := live.flatMap fun e => e.2.tiles
  let s1 := ks.foldl State.freeLeavers s
  let s2 := live.foldl (fun s' e => s'.charge e.2) s1
  let s3 : State := { s2 with
    now := s.now + 1
    regions := s2.regions.map fun e => if s.runs e.2 then (e.1, { e.2 with cycle := e.2.cycle + 1 }) else e
    tiles := s2.tiles.map fun e => if ks.contains e.1 then (e.1, e.2.tick) else e
    mem := if s.now % 16 = 15 then { s2.mem with pts := s2.mem.pts + 1 } else s2.mem
    host := { s2.host with charged := s.chargeParts (live.map fun e => e.2), stages := s.measureStages live } }
  ((s3.host.splits.filter fun x => live.any fun e => decide (e.1 = x.key)).foldl State.mergeUnit s3).noteDue

/-- Main-clock cycles of 1 µs and 10 µs at 2.4 GHz (R13). -/
def cycles1us : Nat := 2400
def cycles10us : Nat := 24000

/-- Whether a port owes the link a NULL, or a silent link its fault: then the cycle cannot end without it (R33, R34). -/
def Link.overdue (l : Link) (now : Nat) : Bool :=
  l.ports.any fun p => p.2.up && decide (p.2.lastGood + cycles10us ≤ now ∨ (p.2.lastSent + cycles1us ≤ now ∧ p.2.buffer.length < replayPlaces))

/-! ### Turns that stand open -/

/-- Events of a region's control core, units and engines. -/
def State.coreTurns (s : State) (key : Nat) (r : Region) : List Turn :=
  (if r.work.isSome && r.live then [.record key] else []) ++
  [.event (.blockFetch key), .event (.blockCommit key)] ++
  (if r.trapDue then [.event (.trapEntry key)] else []) ++
  (if r.faultTokens.isEmpty then [] else [.event (.faultTokenEntry key)]) ++
  (if r.idle.isSome then [.event (.idleWake key)] else []) ++
  (if r.replaceMark then [.event (.regionReplaceSwitch key)] else []) ++
  (r.blocks.flatMap fun b => match b.2.phase with
    | .issued => [.event (.fabricBlockMap key b.1)]
    | .mapped => [.event (.unitComplete key b.1), .event (.replicate key b.1), .event (.replicaWithdraw key b.1)]
    | _ => []) ++
  (List.range r.engines.length).map fun i => .event (.engineDrain key i)

/-- Events and firings of a tile of a running region. -/
def State.tileTurns (s : State) (k : Nat) : List Turn :=
  let t := s.tile k
  ((placesOf t.arrivals fun i c => decide (c.left = 0) && t.headOfArc i c).map fun i => .event (.tokenArrival k i)) ++
  ((placesOf t.ready fun i f => t.canFire s.now i f && (f.begun || s.mergeRoom k f)).map fun i => .fire k i) ++
  ((placesOf t.ready fun _ f => decide (f.st = .slot)).flatMap fun i => [.event (.stalledPutProceed k i), .event (.readReevaluate k i)]) ++
  ((placesOf t.ready fun _ f => decide (f.st = .moving)).map fun i => .event (.barrierRetry k i)) ++
  (t.streams.flatMap fun p => [.event (.streamScoreboardStep k p.1), .event (.loadStreamToken k p.1), .event (.storeStreamToken k p.1), .event (.streamComplete k p.1)]) ++
  t.windowsDue.map fun p => .event (.arbiterWindow k p)

/-- Turns of the regions: a halted one is saved, exchanged, or waits. -/
def State.regionTurns (s : State) : List Turn :=
  s.regions.flatMap fun e =>
    (match e.2.run with
      | .running =>
        if s.withheld e.2.part then []
        else if s.modeDue e.2 then [.event (.l2ModeSwitch e.2.part)]
        else s.coreTurns e.1 e.2 ++ e.2.tiles.flatMap s.tileTurns
      | .preempted => .event (.bivouacExchange e.2.part) :: s.haltTurns e.1 e.2
      | .major _ => s.haltTurns e.1 e.2
      | _ => []) ++
    (if e.2.cancelling then (List.range e.2.engines.length).map fun i => .event (.engineDrain e.1 i) else []) ++
    [.event (.majorFaultSave e.1)]

/-- Turns of the queues and dispatch units (R67, R71, R88). -/
def State.hostTurns (s : State) : List Turn :=
  (s.host.lq.flatMap fun e => if bitAt e.2.ctl 63 then (List.range 4).map fun d => .event (.launchDescriptorTake e.1 d) else []) ++
  (match s.host.cmd with
    | none => [.event .systemCommandTake]
    | some (c, _) => match Decode.command c with
      | .ok i => [.event i]
      | .error _ => []) ++
  (s.host.launches.flatMap fun e => match e.2.st with
    | .held => [.event (.heldLaunchRelease e.1)] ++ if e.2.cancelled then [.event (.cancelAdvance e.1)] else []
    | .runnable => [.event (.dispatchChoice e.2.die)] ++ if e.2.cancelled then [.event (.cancelAdvance e.1)] else []
    | .placed _ => [.event (.launchComplete e.1)] ++ if e.2.cancelled then [.event (.cancelAdvance e.1)] else []
    | .parked pid => [.event (.regionResume pid), .event (.majorFaultServed pid true), .event (.majorFaultServed pid false)] ++
        if e.2.cancelled then [.event (.cancelAdvance e.1)] else []
    | .ended => [])

/-- Turns of the SCC, the cairn units and the relocation engines. -/
def State.unitTurns (s : State) : List Turn :=
  ((placesOf s.cairn.waits fun _ w => decide (w.thresh.toNat ≤ (s.cairn.val w.cairn).toNat)).map fun i => .event (.cairnWaitComplete i)) ++
  ((List.range s.host.minors.length).flatMap fun i => [.event (.minorFaultServed i), .event (.budgetExceeded i)]) ++
  ((List.range s.caches.fetches.length).map fun i => .event (.configFetchDone i)) ++
  (s.heap.engines.flatMap fun e => if e.2.queue.isEmpty then [] else [.event (.relocRun e.1)]) ++
  (if 2 ^ 47 ≤ s.mem.pts then [.event (.timestampRebase 0)] else [])

/-- Turns of the fabric: a flit received, and the timers of ports and transactions. -/
def State.linkTurns (s : State) : List Turn :=
  ((s.link.rx.take 1 ++ s.link.held.map fun h => h.flit).map fun f => match Decode.flitStep f with
      | .ok i => .event i
      | .error _ => .event .nullFlit) ++
  (s.link.ports.flatMap fun p => if p.2.up then
      (if p.2.lastSent + cycles1us ≤ s.now then [.event (.idleNullTimer p.1)] else []) ++
      (if p.2.lastGood + cycles10us ≤ s.now then [.event (.linkFault p.1 .silence)] else []) ++
      p.2.classes.map fun c => .event (.classReleaseTimer p.1 c.sdev c.ctx) else []) ++
  (s.link.avoid.flatMap fun p => s.link.routes.filterMap fun e => if e.1 / 4096 = p / 9 then some (.event (.routeRehash (p / 9) (e.1 % 4096) (p % 9))) else none) ++
  ((s.link.reqs.filter fun q => q.retry).map fun q => .event (.waitRetryTimer q.tag)) ++
  (s.link.targets.map fun t => .event (if t.ready then .queryTimer t.cdev t.xid else .stagingTimeout t.cdev t.xid)) ++
  (s.link.txns.map fun t => match t.phase with
    | .opened | .preparing => .event (.keepAliveTimer t.xid)
    | .committed => .event (.commitResend t.xid)
    | .aborted => .event (.abortedRecordTimeout t.xid)) ++
  (if s.link.txns.any fun t => t.survived && !t.resumed then [.event .recordResume] else [])

/-- The event of a register write (R58 to R66). -/
def regEvent (off : Nat) : Instr :=
  if off = 0x0 then .devnumWrite
  else if off = 0xC then .featenWrite
  else if 0x2000 ≤ off ∧ off < 0x2800 ∧ off % 32 = 8 then .lqctlWrite
  else if off = 0x2808 then .scqctlWrite
  else .registerWrite

/-- Cycles from a pending trigger at which the clocks may stop now: at the end of a cycle, 1 to 64 of them after the trigger (R18); at once in a
reset sequence (R22). -/
def State.stopLag (s : State) : Option Nat :=
  match s.dev.freezePending with
  | none => none
  | some (_, at_) =>
    if s.dev.resetSeq.isSome then some (s.choice 64 + 1)
    else if 1 ≤ s.now - at_ ∧ s.now - at_ ≤ 64 ∧ !s.cycleOpen then some (s.now - at_) else none

/-- Whether the main clock may tick: the turns of this cycle are done, no dispatch unit has left its choice standing for a quantum, and a freeze has
not waited its 64 cycles (R18). -/
def State.mayTick (s : State) : Bool :=
  !s.cycleOpen && !s.link.overdue s.now && !((List.range 4).any s.dieLate) && match s.dev.freezePending with
    | some (_, at_) => decide (s.now < at_ + 64)
    | none => true

/-- Turns of the package: they stand open in a freeze and in reset too. -/
def State.packageTurns (s : State) : List Turn :=
  (match s.dev.resetSeq with
    | some _ => if s.dev.freezePending.isSome then [] else [.event (if s.dev.warm then .warmReset else .coldReset)]
    | none => []) ++
  (match s.dev.mgmtIn with
    | v :: _ => [.event (Decode.mgmt v)]
    | [] => []) ++
  (match s.dev.regIn.find? s.regServed with
    | some a => [.event (regEvent a.off)]
    | none => []) ++
  (match s.stopLag with
    | some n => [.event (.clockStop n)]
    | none => []) ++
  if s.dev.hot && s.dev.thermtripN then [.event .thermalTrip] else []

/-- Every turn that stands open. -/
def State.enabled (s : State) : List Turn :=
  s.packageTurns ++
  if s.clocked then s.hostTurns ++ s.unitTurns ++ s.linkTurns ++ s.regionTurns ++ if s.mayTick then [.tick] else []
  else []

/-- The turn a step takes: the next that was posted, or else one of those that stand open, whichever (R133, R188). -/
def State.takeTurn (s : State) : Turn × State :=
  match s.agenda with
  | t :: ts => (t, { s with agenda := ts })
  | [] => (s.enabled.getD (Config.pick s.draws s.enabled.length % s.enabled.length) .tick, s.drawn)

/-- The machine as a turn finds it: the actor is the one the turn serves. -/
def State.serving (s : State) (a : Actor) : State := { s with actor := a }

end Sys2Proof.Machine
end

