-- ==== Sys2Proof/Machine/Place.lean ====
section
/-! DEFINITION. An instruction placed where the next step runs it (log 11): a record in a block or in a tile's slot, a MGMTCMD value, a system
command, a received flit. -/

namespace Sys2Proof.Machine

/-- A launch of one tile on partition 0 that stands for the load of a record. -/
def loadLaunch : Launch where
  ctx := 0
  part := 0
  anyp := false
  w := 1
  hgt := 1
  entry := 0
  done := 0
  graph := 0
  phase := 0
  arg0 := 0
  arg1 := 0
  prio := 0
  wait := none
  src := none
  die := 0
  st := .placed 0
  halted := false
  cancelled := false

/-- The region on partition 0, control core 0: the one that is there, or one of a single tile. -/
def State.region0 (s : State) : Region := (tget s.regions 0).getD (newRegion s 0 loadLaunch ⟨0, 0, 0, 0⟩)

/-- A block of one record. -/
def oneRecord (x : Rec96) (control : Bool) : Image := ⟨⟨0, control, 0, 0, 0, 0, 0x3FFFF⟩, [x], []⟩

/-- Its block-in-flight entry. -/
def oneBlock (x : Rec96) (control : Bool) : Bif := ⟨0, oneRecord x control, if control then .fetched else .mapped, 1, none, false, 0, 0⟩

/-- A token of 16 valid zeros. -/
def zeroTok (p : Port) : Token := ⟨0, 0, 0, p, 0, noLoff, Flags.none, List.replicate 16 (Lane.on 0), 0⟩

/-- A control record as the first of the block at work on control core 0. -/
def State.withControl (s : State) (x : Rec96) : State :=
  let r := s.region0
  { s.putRegion 0 { r with
      blocks := tput r.blocks 0 (oneBlock x true)
      fetched := [0]
      work := some (Work.start r 0)
      run := .running
      waiting := false
      minor := false } with agenda := [.record 0] }

/-- A node record in a slot of the region's first tile, with a complete operand set. -/
def State.withNode (s : State) (x : Rec96) : State :=
  let r := s.region0
  let k := r.tileKey 0
  let pe := match nodeRecOf x with
    | some (_, c, _) => if c.op / 64 = 6 then 17 else 0
    | none => 0
  let t := s.tile k
  let n := NodeInst.fresh r.ctx 0 0 0 x false
  let f : Firing := ⟨r.ctx, 0, 0, 0, pe, 0, 0, some (zeroTok .left), some (zeroTok .right), some (zeroTok .pred), some (zeroTok .ctl), .ready, false, [], [], [],
    0, [], s.now, t.nextId⟩
  let t1 := t.putPe pe { t.pe pe with slots := tput (t.pe pe).slots 0 n }
  { (s.putRegion 0 { r with blocks := tput r.blocks 0 (oneBlock x false), run := .running }).putTile k { t1 with ready := [f], nextId := t.nextId + 1 } with
    agenda := [.fire k 0] }

/-- A record, by its kind. -/
def State.withRecord (s : State) (x : Rec96) : State := if x.extractLsb' 94 2 = 1#2 then s.withControl x else s.withNode x

/-- A write of MGMTCMD. -/
def State.withMgmt (s : State) (bs : List Byte) : State :=
  let v := BitVec.ofNat 64 (leNat bs)
  { s with dev := { s.dev with mgmtIn := [v] }, agenda := [.event (Decode.mgmt v)] }

/-- A system command taken and not yet performed. -/
def State.withCommand (s : State) (bs : List Byte) : State :=
  let c := Decode.words8 bs
  match Decode.command c with
  | .ok i => { s with host := { s.host with cmd := some (c, 0) }, agenda := [.event i] }
  | .error _ => s

/-- A flit received on port 0, the next in its sequence. -/
def State.withFlit (s : State) (bs : List Byte) : State :=
  let f := Decode.parseFlit 0 bs
  match Decode.flitStep f with
  | .ok i =>
    { s with
      link := { s.link.putPort 0 { s.link.port 0 with up := true, expect := f.hdr.seq.toNat } with rx := [f] }
      agenda := [.event i] }
  | .error _ => s

end Sys2Proof.Machine
end

