-- ==== Sys2Proof/Machine/Step.lean ====
section
/-! DEFINITION. One step of the machine: it takes the next turn and runs the instruction of that turn. -/

namespace Sys2Proof.Machine

/-- What a turn does: one cycle of the clock, or the instruction it runs; a turn that has come to nothing changes nothing. -/
def performTurn (t : Turn) (s : State) : Host.Outcome State Fault Refusal :=
  if t = .tick then .next s.tick
  else
    match s.turnInstr t with
    | some (i, a) => exec i (s.serving a)
    | none => .next s

/-- One step. -/
def step (s : State) : Host.Outcome State Fault Refusal := performTurn s.takeTurn.1 s.takeTurn.2

/-- The machine with an instruction placed where the next step runs it. -/
def State.withFetchWord (s : State) (nbits w : Nat) : State :=
  if nbits = 64 then s.withMgmt (leBytes 8 w)
  else if nbits ≤ 96 then s.withRecord (BitVec.ofNat 96 w)
  else if nbits ≤ 512 then s.withCommand (leBytes 64 w)
  else s.withFlit (leBytes 96 w)

end Sys2Proof.Machine
end

