-- ==== Sys2Proof/Safety.lean ====
section
/-! DEFINITION. The terms the claims use: sites of records and firings, what stands after them, what a safe state is. -/

namespace Sys2Proof.Machine

/-! ### Safe states -/

/-- A safe state: memory keeps its canonical form. -/
def State.safe (s : State) : Bool := s.mem.wf

/-! ### Records of a control block (R124, R292) -/

/-- The machine after a local record of the block at work has left the working copy `w`. -/
def State.afterRecord (s : State) (c : CSite) (w : Work) : State := s.putWork c.key w.step

/-- The machine after a wait of the block at work has ended: its later records read the status registers as they stand then. -/
def State.afterWait (s : State) (c : CSite) (w : Work) : State := s.afterRecord c { w with csrs := ((tget s.regions c.key).getD c.rg).csrs }

/-- The machine after an effect of the block at work has been performed. -/
def State.afterEffect (s : State) (c : CSite) (w : Work) : State := s.putWork c.key { w.step with efx := w.efx + 1 }

/-- Where an effect record of `s` is performed: the machine `s1` and the site `c` once the block has passed the checks that precede its first
effect (R451), while no trap is due and no check waits for an answer. -/
def State.EffectSite (s s1 : State) (c : CSite) : Prop :=
  (s.csite = some c ∧ c.w.checked = true ∧ s1 = s) ∨
  ∃ c0 c1, s.csite = some c0 ∧ c0.w.checked = false ∧ c0.rg.trapDue = false ∧ c0.w.asking = none ∧ s.precheck c0 = .ok s1 ∧ s1.csite = some c1 ∧
    c = { c1 with w := { c1.w with checked := true } }

/-- The words `d` of the descriptor at an address, read by the record at hand with its last access, or of another device by the checks before it;
`s2` is the machine that has read it (R334, R451). -/
def CSite.descriptor (c : CSite) (s s2 : State) (va : Nat) (d : List Word) : Prop :=
  (c.w.descAt c.w.pc va = none ∧ c.w.begun = true ∧ ∃ bs, s.turnAccs c.rg.ctx c.who c.w.accs = .all s2 bs ∧ bs.all (fun a => !a.psn) = true ∧
    d = wordsOf (laneBytes bs 0)) ∨
  ∃ bs, c.w.descAt c.w.pc va = some bs ∧ s2 = s ∧ d = wordsOf bs

/-- A register of the working copy, by number. -/
def CSite.reg (c : CSite) (n : BitVec 5) : Word := if n = 0 then 0 else c.w.s.getD n.toNat 0

/-! ### Firings (R126, R129) -/

/-- The machine after a firing that sends `out` and raises flags `fl`. -/
def State.fires (s : State) (x : Site) (n : NodeRec) (lat gap : Nat) (out : List (Nat × Token)) (fl : BitVec 10) : State :=
  (FireRes.fired s out fl).run x n lat gap

/-- The machine after a firing whose tokens leave at stated cycles. -/
def State.firesAt (s : State) (x : Site) (n : NodeRec) (lat : Nat) (out : List (Nat × Nat × Token)) (fl : BitVec 10) : State :=
  (FireRes.firedAt s out fl).run x n lat 0

/-- A firing whose block declares no tap and which is not a heap node's, where the region table holds its region and its slot its own unit's node. -/
def Site.quiet (x : Site) (s : State) : Prop :=
  (x.blk.image.declList.all fun d => match d with
    | .tap .. => false
    | _ => true) = true ∧
  (∀ i c n, nodeRecOf x.inst.bits = some (i, c, n) → c.op / 64 ≠ 10) ∧ x.inst.bslot = x.f.bslot ∧ tget s.regions x.key = some x.rg

/-- A value of a token's lanes by value index, and whether its element, or pair, is valid, and whether it is poisoned (R251). -/
def valAt (f : Fmt) (ls : List Lane) (j : Nat) : Nat := (allVals f ls).getD j 0
def valOk (f : Fmt) (ls : List Lane) (j : Nat) : Bool := if isPair f then pairValid ls j else (laneAt ls (elemOf f j)).valid
def valPsn (f : Fmt) (ls : List Lane) (j : Nat) : Bool := if isPair f then pairPsn ls j else (laneAt ls (elemOf f j)).poison

/-- Values a token holds in a format (R251). -/
def valNum (f : Fmt) : Nat := if isPair f then 8 else 16 * (32 / Rules.fmtWidth f)

/-- Lanes and flags that come of computing `g` on the values of some operands (R120, R241, R251): an element is valid where it is in all of them,
is the invalid element of payload 0 elsewhere,
poisoned where it is in one or where `g` adds poison to a value of it, and the flags are those of the values of valid elements that the
predicate selects (`keep`, R129). -/
def Computes (f : Fmt) (keep : Nat → Bool) (ops : List (List Lane)) (g : List Nat → VRes) (o : List Lane) (fl : BitVec 10) : Prop :=
  let at_ := fun j => g (ops.map fun l => valAt f l j)
  o.length = 16 ∧ (∀ e, e < 16 → (laneAt o e).valid = false → laneAt o e = Lane.off) ∧
  (∀ j, j < valNum f →
    valOk f o j = (ops.all fun l => valOk f l j) ∧
    (valOk f o j = true → valAt f o j = (at_ j).bits % 2 ^ Rules.fmtWidth f) ∧
    (valPsn f o j = true ↔ valOk f o j = true ∧ ((∃ l ∈ ops, valPsn f l j = true) ∨ ∃ k, k < valNum f ∧ elemOf f k = elemOf f j ∧ (at_ k).psn = true))) ∧
  ∀ b, fl.getLsbD b = true ↔ ∃ j, j < valNum f ∧ valOk f o j = true ∧ keep (elemOf f j) = true ∧ (at_ j).flags.getLsbD b = true

/-- The same of a conversion, whose output values have a source each, or none: value, whether it is valid, whether it is poisoned (R387). -/
def ComputesFrom (f : Fmt) (keep : Nat → Bool) (src : Nat → Option (Nat × Bool × Bool)) (g : Nat → VRes) (o : List Lane) (fl : BitVec 10) : Prop :=
  o.length = 16 ∧
  (∀ j, j < valNum f →
    (valOk f o j = true ↔ ∀ k, k < valNum f → elemOf f k = elemOf f j → ∃ v p, src k = some (v, true, p)) ∧
    (∀ v ok p, valOk f o j = true → src j = some (v, ok, p) → valAt f o j = (g v).bits % 2 ^ Rules.fmtWidth f) ∧
    (valPsn f o j = true ↔ valOk f o j = true ∧ ∃ k v ok p, k < valNum f ∧ elemOf f k = elemOf f j ∧ src k = some (v, ok, p) ∧ (p || (g v).psn) = true)) ∧
  ∀ b, fl.getLsbD b = true ↔ ∃ j v ok p, j < valNum f ∧ valOk f o j = true ∧ keep (elemOf f j) = true ∧ src j = some (v, ok, p) ∧ (g v).flags.getLsbD b = true

/-- The least and the largest integer of a format. -/
def intLow (f : Fmt) : Int := if fmtSigned f then -(2 ^ (Rules.fmtWidth f - 1) : Nat) else 0
def intHigh (f : Fmt) : Int := (2 ^ (if fmtSigned f then Rules.fmtWidth f - 1 else Rules.fmtWidth f) : Nat) - 1

/-- Table 16.2: the exact result of each node of the integer family, from the values of its operands and its literal; whether it has the S bit. -/
def arithmeticExact (n : NodeRec) : List (Instr × Bool × (Int → Int → Int → Int)) :=
  [(.addNode n, true, fun x y _ => x + y), (.subNode n, true, fun x y _ => x - y), (.mulNode n, false, fun x y _ => x * y),
    (.mulhNode n, false, fun x y _ => x * y / (2 ^ Rules.fmtWidth n.fmt : Nat)), (.mad n, false, fun x y l => x * y + l),
    (.minNode n, false, fun x y _ => min x y), (.maxNode n, false, fun x y _ => max x y), (.abs n, true, fun x _ _ => x.natAbs),
    (.neg n, true, fun x _ _ => -x)]

/-- What the nodes on bits compute from a value of the left and one of the right operand (R356, R359 to R363). -/
def bitValues (n : NodeRec) : List (Instr × (Nat → Nat → Nat)) :=
  let w := Rules.fmtWidth n.fmt
  let pos := field n.lit 5 0
  let len := field n.lit 13 8 + 1
  let cond : Bool → Nat := fun b => if b then 2 ^ w - 1 else 0
  [(.andNode n, fun a b => a &&& b), (.orNode n, fun a b => a ||| b), (.xorNode n, fun a b => a ^^^ b),
    (.andnNode n, fun a b => a &&& (2 ^ w - 1 - b)), (.notNode n, fun a _ => 2 ^ w - 1 - a),
    (.shlNode n, fun a b => a * 2 ^ (b % w) % 2 ^ w), (.shrNode n, fun a b => a / 2 ^ (b % w)),
    (.sarNode n, fun a b => wrapN w (signed w a / (2 ^ (b % w) : Nat))),
    (.rot n, fun a b => a * 2 ^ (b % w) % 2 ^ w + a / 2 ^ (w - b % w)),
    (.clzNode n, fun a _ => if a = 0 then w else w - 1 - Nat.log2 a),
    (.popcNode n, fun a _ => ((List.range w).filter fun i => a.testBit i).length),
    (.bfx n, fun a _ => if fmtSigned n.fmt then wrapN w (signed len (a / 2 ^ pos % 2 ^ len)) else a / 2 ^ pos % 2 ^ len),
    (.bfi n, fun a b => a - a / 2 ^ pos % 2 ^ len * 2 ^ pos + b % 2 ^ len * 2 ^ pos),
    (.adda n, fun a b =>
      let pa := (a % 2 ^ 52 + b) % 2 ^ 52
      let page : Nat := 2 ^ (16 + 10 * (a / 2 ^ 61 % 4))
      let sum : Int := (a % 2 ^ 52 : Nat) + signed 64 b
      (if 2 ^ 63 ≤ a ∧ a / 2 ^ 61 % 4 < 3 ∧ sum / Int.ofNat page = Int.ofNat (a % 2 ^ 52 / page) then 2 ^ 63 else 0) + a / 2 ^ 52 % 2 ^ 11 * 2 ^ 52 + pa),
    (.cmp n, fun a b => cond (intCond (field n.mod 2 0) (intOf n.fmt a) (intOf n.fmt b)))]

/-- What the floating nodes compute from values of their operands under a policy (R380 to R386, R390). -/
def floatValues (n : NodeRec) (p : BitVec 8) : List (Instr × (Nat → Nat → VRes)) :=
  [(.fadd n, fpAdd n.fmt p), (.fsub n, fpSub n.fmt p), (.fmul n, fpMul n.fmt p), (.fmin n, fpLesser n.fmt p), (.fmax n, fpGreater n.fmt p),
    (.fcmp n, fpCmp n.fmt p (field n.mod 2 0)),
    (.fclass n, fun a _ => ⟨fpClass n.fmt a, 0, polPsn p && !(fvOf n.fmt a).finite⟩),
    (.fsfu n, fun a _ => sfuVal n.fmt p (field n.mod 3 0) a), (.frnd n, fun a _ => frndVal n.fmt p (convMode n p) a)]

/-- What the conversions compute from a value of their source format (R387 to R389). -/
def convValues (n : NodeRec) (p : BitVec 8) : List (Instr × (Nat → VRes)) :=
  let src := Rules.srcFmt n
  let mode := convMode n p
  [(.cvt n, fun v => policy n.fmt p mode [polIn p (fvOf src v)] (polIn p (fvOf src v)).ey),
    (.ftoi n, fun v => toInt n.fmt p mode (polIn p (fvOf src v))),
    (.itof n, fun v => policy n.fmt p mode [] (.num (decide (intOf src v < 0)) (intOf src v).natAbs 1 0))]

/-- The source of output value `j` of a conversion (R387): the left operand's values, or its PART of them, then the right operand's. -/
def convSource (x : Site) (n : NodeRec) (j : Nat) : Option (Nat × Bool × Bool) :=
  let src := Rules.srcFmt n
  let take := fun (ls : List Lane) k => some (valAt src ls k, valOk src ls k, valPsn src ls k)
  let vs := valNum src
  let vt := valNum n.fmt
  if vt < vs then take (x.opA n src) (j + field n.lit 1 0 * vt)
  else if j < vs then take (x.opA n src) j
  else if n.rsrc ≠ .zero ∧ j < 2 * vs then take (x.opB n src) (j - vs)
  else none

/-! ### Writes of management registers (R24, R58) -/

/-- The machine once the value that stands first on the management channel is taken. -/
def State.mgmtTaken (s : State) (rest : List Word) : State := { s with dev := { s.dev with mgmtIn := rest, mgmtOff := 0x80 } }

/-- `a`, at place `i` of the register writes that wait, is the next to be served: in a freeze the first that came by the channel. -/
def State.nextAccess (s : State) (i : Nat) (a : RegAccess) : Prop := s.dev.regIn.findIdx? s.regServed = some i ∧ s.dev.regIn[i]? = some a

/-- The machine once that write is taken. -/
def State.regTaken (s : State) (i : Nat) (a : RegAccess) : State :=
  { s with dev := { s.dev with regIn := ldrop s.dev.regIn i, mgmtOff := if a.fabric then s.dev.mgmtOff else a.off } }

/-! ### Received flits (R31, R33, R60) -/

/-- The next flit from the wires is `f`, good, in order, of a type and OP (0 for any), for this device, and the first to be served of its type and
of its class; `s1` is the machine once it is accepted. -/
def State.delivers (s s1 : State) (f : Flit) (typ op : Nat) : Prop :=
  s.heldFor typ op = [] ∧ (∀ k ∈ s1.link.held, sameClass k.flit f = false) ∧
  (∃ rest, s.link.rx = f :: rest ∧ s1 = ({ s with link := { s.link with rx := rest } } : State).acceptFlit f) ∧
  (s.link.port f.port).up = true ∧ Decode.flitOk f = true ∧ f.hdr.seq.toNat = (s.link.port f.port).expect ∧
  f.hdr.typ.toNat = typ ∧ (op = 0 ∨ Decode.bodyNum f.body 0 0 = op) ∧ s1.forMe f = true

/-- The machine `s1` that has accepted a flit, once the flit is served: its place in the receive buffer is free again (R40). -/
def State.served (s s1 : State) (f : Flit) : State := s.owe f.port f.hdr.vch.toNat (s1.poolPlace f)

/-- The machine with an accepted flit that stands in the receive buffer. -/
def State.keeps (s : State) (f : Flit) : State := { s with link := { s.link with held := s.link.held ++ [HeldFlit.fresh f (s.poolPlace f)] } }

end Sys2Proof.Machine
end

