-- ==== Sys2Proof/Certificates/Slice0/Obligations.lean ====
section
/-! DEFINITION. The statements for the provers. -/

open Sys2Proof Sys2Proof.Machine Host

/-! ### Encodings and steps -/

/-- Decoding the encoding of a well-formed record gives the record back, whatever its operand fields (R273 to R278). -/
def Obligations.DecodeOfEncode : Prop :=
  ∀ (i : Instr) (x : Rec96), Decode.encode i = some x → i.WellFormed → Decode.record x = .ok i

/-- A word that decodes has one meaning: its instruction is well formed and encodes to that word (R273 to R278). -/
def Obligations.EncodeOfDecode : Prop :=
  ∀ (x : Rec96) (i : Instr), Decode.record x = .ok i → Decode.encode i = some x ∧ i.WellFormed

/-- Words of Tables 16.5, 16.11 and of the record layouts decode to their lines. -/
def Obligations.WrittenWordsDecode : Prop :=
  Decode.record 0x000101108003000000010001#96 =
    .ok (.addNode ⟨.i16, 1, .token, .literal, .always, .node .left 3, .unwired, 0x00010001⟩) ∧
  Decode.record 0x00B200F08001000000000000#96 = .ok (.iota ⟨.i32, 0, .zero, .zero, .always, .node .left 1, .unwired, 0⟩) ∧
  Decode.record 0x04D20210C005000000000000#96 = .ok (.cmp ⟨.i32, 2, .token, .literal, .always, .node .pred 5, .unwired, 0⟩) ∧
  Decode.record 0x04E800148004000000000000#96 = .ok (.selNode ⟨.f32, 0, .token, .literal, .ifTrue, .node .left 4, .unwired, 0⟩) ∧
  Decode.record 0x08A801308002800300000000#96 = .ok (.fan ⟨.f32, 1, .token, .zero, .always, .node .left 2, .node .left 3, 0⟩)

/-- A turn of a control core runs the record its block stands at, and a turn of a firing the node record in its slot. -/
def Obligations.StepRunsDecodedRecord : Prop :=
  (∀ (s : State) ts key r w b x i, s.agenda = .record key :: ts → tget s.regions key = some r → r.work = some w → tget r.blocks w.slot = some b →
    b.image.recs[w.pc]? = some x → Decode.record x = .ok i → step s = exec i { s with agenda := ts, actor := .core key }) ∧
  (∀ (s : State) ts tile idx f n i, s.agenda = .fire tile idx :: ts → (s.tile tile).ready[idx]? = some f →
    (s.tile tile).inst f.pe f.slot = some n → (∃ c m, nodeRecOf n.bits = some (i, c, m)) →
    step s = exec i { s with agenda := ts, actor := .fire tile idx })

/-- A turn of an event runs the event; a command, a flit and a management value that stand first are turns that stand open, as the instruction
they decode to. -/
def Obligations.StepRunsDecodedMessage : Prop :=
  (∀ (s : State) ts i, s.agenda = .event i :: ts → step s = exec i { s with agenda := ts, actor := .none }) ∧
  (∀ (s : State) c a i, s.clocked = true → s.host.cmd = some (c, a) → Decode.command c = .ok i → Turn.event i ∈ s.enabled) ∧
  (∀ (s : State) f i, s.clocked = true → (s.link.rx.head? = some f ∨ ∃ h ∈ s.link.held, h.flit = f) → Decode.flitStep f = .ok i → Turn.event i ∈ s.enabled) ∧
  (∀ (s : State) v vs, s.dev.mgmtIn = v :: vs → Turn.event (Decode.mgmt v) ∈ s.enabled)

/-- With nothing posted a step takes one of the turns that stand open, or a cycle of the clock, and the free choice counts on. -/
def Obligations.StepTakesOpenTurn : Prop :=
  ∀ s : State, s.agenda = [] → ∃ t, (t ∈ s.enabled ∨ t = .tick) ∧ step s = performTurn t s.drawn

/-- One cycle of the clock: CYCLE of every region that runs in it counts on by one, and no other register of a region and no cairn changes; where no
TEAR leaves a node's slot in it, memory and the rest of every region stand too (R11, R12). -/
def Obligations.ClockCountsCycles : Prop :=
  ∀ (s : State) ts, s.agenda = .tick :: ts → ∃ t, step s = .next t ∧ t.now = s.now + 1 ∧ t.cairn = s.cairn ∧
    (∀ k r, tget s.regions k = some r → ∃ r', tget t.regions k = some r' ∧ r'.s = r.s ∧ r'.h = r.h ∧
      r'.csrs = ({ r with cycle := if s.runs r then r.cycle + 1 else r.cycle } : Region).csrs) ∧
    ((∀ e ∈ s.regions, s.runs e.2 = true → ∀ k ∈ e.2.tiles, (s.tile k).leavers = []) →
      (∀ k r, tget s.regions k = some r → tget t.regions k = some { r with cycle := if s.runs r then r.cycle + 1 else r.cycle }) ∧
      t.mem.cells = s.mem.cells ∧ t.mem.poison = s.mem.poison ∧ t.dev = s.dev ∧ t.link = s.link ∧ t.heap = s.heap ∧ t.caches = s.caches)

/-- What reset leaves: FRZSTAT, MGMTSTAT, HERR and DEVNUM at their reset values, FEATEN as FEATAV, every cairn 0 with its flag clear, no
context, no launch, no region, no device number. -/
def Obligations.ResetValues : Prop :=
  State.reset.dev.frzstat = 0 ∧ State.reset.dev.mgmtstat = 0 ∧ State.reset.dev.herr = 0 ∧ State.reset.dev.devNum = 0xFFF ∧ State.reset.dev.devSet = false ∧
  State.reset.dev.featen = Config.featav ∧ State.reset.dev.powerLimit = 2200 ∧ State.reset.dev.powerSteps = 0 ∧
  (∀ k, State.reset.cairn.val k = 0 ∧ State.reset.cairn.flag k = false) ∧
  State.reset.host.ctxs = [] ∧ State.reset.host.launches = [] ∧ State.reset.regions = [] ∧ State.reset.link.topoDone = false

/-- The machine is safe at reset. -/
def Obligations.ResetIsSafe : Prop := State.reset.safe = true

/-- Every step keeps memory in its canonical form. -/
def Obligations.StepKeepsSafe : Prop := ∀ s t : State, s.safe = true → step s = .next t → t.safe = true

/-- No step answers a refusal: every operation and every event of the table has its meaning. -/
def Obligations.StepNeverRefuses : Prop := ∀ (s : State) r, step s ≠ .refused r

/-! ### Scalar records (R111 to R113, R294 to R298) -/

/-- R294, R295: the binary scalar records, DIV and REM with their cases. -/
def Obligations.ScalarBinaryResults : Prop :=
  (∀ (s : State) (c : CSite) (r : CtlRec), s.csite = some c →
    let a := c.reg r.a
    let x := if r.m.getLsbD 0 then r.imm else c.reg r.b
    let u := r.m.getLsbD 1
    let n := x.toNat % 64
    let done := fun (v : Word) => (Outcome.next (s.afterRecord c (c.w.setS r.d v)) : Outcome State Fault Refusal)
    exec (.addS r) s = done (BitVec.ofNat 64 (a.toNat + x.toNat)) ∧
    exec (.subS r) s = done (BitVec.ofInt 64 (a.toNat - x.toNat)) ∧
    exec (.mulS r) s = done (BitVec.ofNat 64 (a.toNat * x.toNat)) ∧
    exec (.mulhS r) s = done (if u then BitVec.ofNat 64 (a.toNat * x.toNat / 2 ^ 64) else BitVec.ofInt 64 (a.toInt * x.toInt / 2 ^ 64)) ∧
    exec (.andS r) s = done (a &&& x) ∧ exec (.orS r) s = done (a ||| x) ∧ exec (.xorS r) s = done (a ^^^ x) ∧ exec (.andnS r) s = done (a &&& ~~~x) ∧
    exec (.shlS r) s = done (BitVec.ofNat 64 (a.toNat * 2 ^ n)) ∧
    exec (.shrS r) s = done (BitVec.ofNat 64 (a.toNat / 2 ^ n)) ∧
    exec (.sarS r) s = done (BitVec.ofInt 64 (a.toInt / 2 ^ n)) ∧
    exec (.minS r) s = done (if u then (if a.toNat ≤ x.toNat then a else x) else (if a.toInt ≤ x.toInt then a else x)) ∧
    exec (.maxS r) s = done (if u then (if a.toNat ≤ x.toNat then x else a) else (if a.toInt ≤ x.toInt then x else a))) ∧
  (∀ r : CtlRec, r.m.getLsbD 0 = true → 64 ≤ r.imm.toNat →
    ¬ (Instr.shlS r).WellFormed ∧ ¬ (Instr.shrS r).WellFormed ∧ ¬ (Instr.sarS r).WellFormed) ∧
  (∀ (s : State) (c : CSite) (r : CtlRec), s.csite = some c →
    let a := c.reg r.a
    let x := if r.m.getLsbD 0 then r.imm else c.reg r.b
    ∃ q m wq wm, exec (.divS r) s = .next (s.afterRecord c wq) ∧ exec (.remS r) s = .next (s.afterRecord c wm) ∧
      (x = 0 → q = BitVec.allOnes 64 ∧ m = a ∧ wq = { (c.w.setS r.d q) with csrw := c.w.csrw ++ [(0x1001, 2)] } ∧
        wm = { (c.w.setS r.d m) with csrw := c.w.csrw ++ [(0x1001, 2)] }) ∧
      (x ≠ 0 → wq = c.w.setS r.d q ∧ wm = c.w.setS r.d m ∧ a = q * x + m ∧
        (r.m.getLsbD 1 = true → q.toNat = a.toNat / x.toNat ∧ m.toNat < x.toNat) ∧
        (r.m.getLsbD 1 = false → q = BitVec.ofInt 64 (a.toInt.tdiv x.toInt) ∧ (m ≠ 0 → (m.toInt < 0 ↔ a.toInt < 0))))) ∧
  (∀ r : Region, (r.setCsr 0x1001 2).exsum = r.exsum ||| 2)

/-- R296: MOVI, SEL, SETC, CLZ and POPC; a write to `s0` is discarded. -/
def Obligations.ScalarOtherResults : Prop :=
  ∀ (s : State) (c : CSite) (r : CtlRec), s.csite = some c →
    let a := c.reg r.a
    let x := if r.m.getLsbD 0 then r.imm else c.reg r.b
    let done := fun (v : Word) => (Outcome.next (s.afterRecord c (c.w.setS r.d v)) : Outcome State Fault Refusal)
    exec (.movi r) s = done r.imm ∧
    exec (.sel r) s = done (if a = 0 then r.imm else c.reg r.b) ∧
    (∃ b : Bool, exec (.setc r) s = done (if b then 1 else 0) ∧
      (r.cc = 0 → (b = true ↔ a = x)) ∧ (r.cc = 1 → (b = true ↔ a ≠ x)) ∧ (r.cc = 2 → (b = true ↔ a.toInt < x.toInt)) ∧
      (r.cc = 3 → (b = true ↔ x.toInt ≤ a.toInt)) ∧ (r.cc = 4 → (b = true ↔ a.toNat < x.toNat)) ∧ (r.cc = 5 → (b = true ↔ x.toNat ≤ a.toNat))) ∧
    (∃ k, k ≤ 64 ∧ exec (.clz r) s = done (BitVec.ofNat 64 k) ∧ (∀ i, 64 - k ≤ i → i < 64 → a.getLsbD i = false) ∧ (k < 64 → a.getLsbD (63 - k) = true)) ∧
    exec (.popc r) s = done (BitVec.ofNat 64 ((List.range 64).filter fun i => a.getLsbD i).length) ∧
    (∀ v, c.w.setS 0 v = c.w)

/-- R111: `s0` reads as zero and discards writes, a launch finds ARG0 and ARG1 in `s1` and `s2` and zero elsewhere. -/
def Obligations.ScalarRegisterZero : Prop :=
  (∀ (rs : List Word) (v : Word), readS rs 0 = 0 ∧ writeS rs 0 v = rs) ∧
  (∀ (rs : List Word) (n k : BitVec 5) (v : Word), rs.length = 32 → n ≠ 0 → readS (writeS rs n v) k = if k = n then v else readS rs k) ∧
  (∀ (s : State) lid (l : Launch) (p : Spot) (n : BitVec 5), (newRegion s lid l p).s.length = 32 ∧
    readS (newRegion s lid l p).s n = if n = 1 then l.arg0 else if n = 2 then l.arg1 else 0)

/-- R298, R113: CSRR and CSRW, and what a status write does at commit. CSRR reads what the register held when its block began. -/
def Obligations.StatusRegisterAccess : Prop :=
  (∀ (s : State) (c : CSite) (r : CtlRec) v, s.csite = some c → tget c.w.csrs (field r.imm 11 0) = some v →
    exec (.csrr r) s = .next (s.afterRecord c (c.w.setS r.d v))) ∧
  (∀ (s : State) (c : CSite) (r : CtlRec), s.csite = some c →
    csrwOk (field r.imm 11 0) (c.reg r.a) = true →
    exec (.csrw r) s = .next (s.afterRecord c { c.w with csrw := c.w.csrw ++ [(field r.imm 11 0, c.reg r.a)] })) ∧
  (∀ (s : State) (c : CSite) (r : CtlRec), s.csite = some c → tget c.w.csrs (field r.imm 11 0) = none →
    exec (.csrr r) s = .next (s.coreFault c c.w cIllegalInstr 0 0)) ∧
  (∀ (r : Region) slot n, tget (Work.start r slot).csrs n = r.csr n) ∧
  (∀ (s : State) (c : CSite) (r : CtlRec), s.csite = some c → csrwOk (field r.imm 11 0) (c.reg r.a) = false →
    exec (.csrw r) s = .next (s.coreFault c c.w cIllegalInstr 0 0)) ∧
  (∀ n v, csrwOk n v = true ↔ (n = 1 ∨ (n = 3 ∧ v.toNat < 2 ^ 16) ∨ ((n = 0x10 ∨ n = 0x11) ∧ v.toNat < 2 ^ 56 ∧ v.toNat % 2048 = 0) ∨ n = 0x12)) ∧
  (∀ (r : Region) v, (r.setCsr 1 v).exsum = r.exsum &&& ~~~v ∧ (r.setCsr 3 v).fwb = (if v = 0 then 50 else v) ∧
    (r.setCsr 0x10 v).trapbase = v ∧ (r.setCsr 0x11 v).trapblk = v ∧ bitAt (r.setCsr 0x12 v).trapcause 63 = bitAt v 63)

/-- The local records and what they leave for the commit: EXIT, EXITC, CALLB, RETB, HALT, RETT, TRAP, IDLE, FEAT, HMOV, RELQ (R301, R302, R305, R319,
R323, R327, R328, R330, R331). -/
def Obligations.LocalRecordResults : Prop :=
  ∀ (s : State) (c : CSite) (r : CtlRec), s.csite = some c →
    let a := c.reg r.a
    let done := fun (w : Work) => (Outcome.next (s.afterRecord c w) : Outcome State Fault Refusal)
    let target := fun (v : Word) => v.toNat < 2 ^ 56 ∧ v.toNat % 2048 = 0
    (r.m.getLsbD 0 = false → exec (.exitB r) s = done { c.w with ending := .goto r.imm.toNat }) ∧
    (r.m.getLsbD 0 = true → target a → exec (.exitB r) s = done { c.w with ending := .goto a.toNat }) ∧
    (r.m.getLsbD 0 = true → ¬ target a → exec (.exitB r) s = .next (s.coreFault c c.w cIllegalInstr 0 0)) ∧
    exec (.exitc r) s = done { c.w with ending := .goto (if condHolds r.cc a (c.reg r.b) then r.imm.toNat else c.blk.image.hdr.next) } ∧
    exec (.callb r) s = done { (c.w.setS r.d (BitVec.ofNat 64 c.blk.image.hdr.next)) with ending := .goto r.imm.toNat } ∧
    (target a → exec (.retb r) s = done { c.w with ending := .goto a.toNat }) ∧
    exec (.halt r) s = done { c.w with ending := .halt } ∧
    exec (.rett r) s = done { c.w with ending := .rett } ∧
    exec (.trap r) s = done { c.w with trapCode := some (r.imm.toNat % 65536) } ∧
    exec (.idle r) s = done { c.w with idle := some (r.imm.toNat % 2 ^ 32) } ∧
    exec (.feat r) s = done (c.w.setS r.d (BitVec.ofNat 64 (r.imm.toNat &&& s.diefeat (dieOf c.rg.part)))) ∧
    (r.m = 0 → exec (.hmov r) s = done (c.w.setH r.d a)) ∧
    (r.m = 1 → exec (.hmov r) s = done (c.w.setS r.d (readH c.w.h r.a))) ∧
    (r.m = 2 → exec (.hmov r) s = done (c.w.setH r.d (readH c.w.h r.a))) ∧
    exec (.relq r) s = done (c.w.setS r.d (tgetD s.heap.engines (r.imm.toNat % 4) RelocEng.blank).relq)

/-- R327: TRAP.RD reads a word of the trap record or of the software head, and 0 where there is none; TRAP.POP retires the software head, so that the
block's later records and its commit find the queue without it; the software head is the queue's oldest class-00 record, or where it holds none its
oldest class-11 record. -/
def Obligations.TrapRecordReads : Prop :=
  (∀ (s : State) (c : CSite) (r : CtlRec), s.csite = some c →
    let head := softHead c.queue
    (bitAt r.imm 3 = false → exec (.trapRd r) s = .next (s.afterRecord c (c.w.setS r.d (match c.rg.trapRec with
      | some f => f.word (r.imm.toNat % 8)
      | none => 0)))) ∧
    (bitAt r.imm 3 = true → exec (.trapRd r) s = .next (s.afterRecord c (c.w.setS r.d (match head with
      | some f => f.word (r.imm.toNat % 8)
      | none => 0)))) ∧
    (∀ f, head = some f → exec (.trapPop r) s = .next (s.afterRecord c { c.w with pops := c.w.pops ++ [f.seq] })) ∧
    (head = none → exec (.trapPop r) s = .next (s.afterRecord c c.w)) ∧
    c.queue = (c.rg.queue.filter fun f => !c.w.pops.contains f.seq) ∧ (c.rg.committed c.w).queue = c.queue) ∧
  (∀ (before after : List FaultRec) f, f.cls = 0 → (∀ g ∈ before, g.cls ≠ 0) → softHead (before ++ f :: after) = some f) ∧
  (∀ (before after : List FaultRec) f, f.cls = 3 → (∀ g ∈ before, g.cls ≠ 3) → (∀ g ∈ before ++ f :: after, g.cls ≠ 0) →
    softHead (before ++ f :: after) = some f) ∧
  (∀ q : List FaultRec, (∀ g ∈ q, g.cls ≠ 0 ∧ g.cls ≠ 3) → softHead q = none)

/-- The waits: BWAIT, CWAIT and EFENCE end when what they wait for has come (R303, R313, R329), and then the block's later records read the status
registers as they stand. -/
def Obligations.WaitRecordResults : Prop :=
  (∀ (s : State) (c : CSite) (r : CtlRec), s.csite = some c →
    (c.rg.anyUnit = false → exec (.bwait r) s = .next (s.afterWait c c.w)) ∧
    (c.rg.anyUnit = true → exec (.bwait r) s = .next (s.putWork c.key c.w))) ∧
  (∀ (s : State) (c : CSite) (r : CtlRec), s.csite = some c → c.w.begun = false →
    let k := (c.reg r.a).toNat
    let x := if r.m.getLsbD 0 then r.imm else c.reg r.b
    (2 ^ 20 ≤ k → exec (.cwait r) s = .next (s.coreFault c c.w cNoCairn 0 0)) ∧
    (k < 2 ^ 20 → x.toNat ≤ (s.cairn.val k).toNat → exec (.cwait r) s = .next (s.afterWait c c.w)) ∧
    (k < 2 ^ 20 → (s.cairn.val k).toNat < x.toNat → exec (.cwait r) s = .next ((s.postWait c.key k x).putWork c.key c.w))) ∧
  (∀ (s : State) (c : CSite) (r : CtlRec), s.csite = some c → s.openAccs c.rg = [] → c.rg.errs = [] →
    ∃ w, exec (.efence r) s = .next ((s.putRegion c.key c.rg).afterWait c w) ∧ w.s = c.w.s ∧ w.h = c.w.h)

/-- A local record or a wait changes its own working copy alone: no byte of memory, no cairn, no other region, no register of the region. -/
def Obligations.RecordFrame : Prop :=
  ∀ (s : State) (c : CSite) (w : Work), s.csite = some c →
    let t := s.afterRecord c w
    t.mem = s.mem ∧ t.cairn = s.cairn ∧ t.dev = s.dev ∧ t.link = s.link ∧ t.host = s.host ∧ t.tiles = s.tiles ∧ t.heap = s.heap ∧ t.caches = s.caches ∧
    (∀ k, k ≠ c.key → tget t.regions k = tget s.regions k) ∧
    tget t.regions c.key = some { c.rg with work := some w.step }

/-! ### Effects of control records (R297 to R324, R333 to R350) -/

/-- LDS and STS at their last access turn, whether it is their first turn or a later one: LDS extends the bytes read by its width and leaves no
poison behind, STS has the low bytes of s[B] written (R297, R190, R227). -/
def Obligations.ScalarMemoryRecords : Prop :=
  (∀ (s s1 s3 : State) (c : CSite) (r : CtlRec) as bs, s.EffectSite s1 c →
    ((c.w.begun = true ∧ as = c.w.accs ∧ s1.turnAccs c.rg.ctx c.who as = .all s3 bs) ∨
      (c.w.begun = false ∧ ∃ s2 s4 as0, s1.lay ⟨.core c.key, c.rg.ctx, .read, 0, false, false, false, 0⟩ (c.reg r.a + r.imm).toNat (widthBytes r.m) [] = .ok s2 as0 ∧
        s2.issueAccs c.key as0 = (s4, as) ∧ s4.turnAccs c.rg.ctx c.who as = .all s3 bs)) →
    bs.all (fun a => !a.psn) = true →
    exec (.lds r) s = .next (s3.afterEffect c (c.w.setS r.d (widthVal r.m (leNat (laneBytes bs 0)))))) ∧
  (∀ (s s1 s3 : State) (c : CSite) (r : CtlRec) as bs, s.EffectSite s1 c →
    ((c.w.begun = true ∧ as = c.w.accs ∧ s1.turnAccs c.rg.ctx c.who as = .all s3 bs) ∨
      (c.w.begun = false ∧ ∃ s2 s4 as0, s1.lay ⟨.core c.key, c.rg.ctx, .write, 0, true, false, false, 0⟩ (c.reg r.a + r.imm).toNat (widthBytes r.m)
          (leBytes (widthBytes r.m) (c.reg r.b).toNat) = .ok s2 as0 ∧
        s2.issueAccs c.key as0 = (s4, as) ∧ s4.turnAccs c.rg.ctx c.who as = .all s3 bs)) →
    exec (.sts r) s = .next ((s3.noteErrs c.key bs).afterEffect c c.w))

/-- One access of at most a beat at its home here: a load returns the bytes of memory and changes none of them; a store that meets no
copy-on-write frame writes its bytes at the address and no other byte (R58, R181, R190). -/
def Obligations.AccessTouchesItsBytes : Prop :=
  (∀ (s : State) (ctx : Nat) (who : Who) (a : Acc) (t : Nat), a.sent = false → a.done = false → a.store = false → s.target ctx a.addr = t → s.isLocal t = true → localOf t < Config.memBytes →
    ∃ s1, s.perform ctx who [a] 0 = .ok s1 [{ a with data := s.mem.read (localOf t) a.len, psn := s.mem.poisoned (localOf t), done := true }] ∧
      ∀ k, s1.mem.get k = s.mem.get k) ∧
  (∀ (s : State) (ctx : Nat) (who : Who) (a : Acc) (t : Nat), s.safe = true → a.sent = false → a.done = false → a.store = true → s.target ctx a.addr = t → s.isLocal t = true → localOf t < Config.memBytes →
    (s.mem.frame (localOf t)).cow = false →
    ∃ s1 b, s.perform ctx who [a] 0 = .ok s1 [b] ∧ b.done = true ∧
      (∀ k, localOf t ≤ k → k < localOf t + a.data.length → s1.mem.get k = a.data.getD (k - localOf t) 0) ∧
      (∀ k, (k < localOf t ∨ localOf t + a.data.length ≤ k) → s1.mem.get k = s.mem.get k)) ∧
  (∀ (s : State) (ctx : Nat) (who : Who) (a : Acc) (t : Nat), a.sent = false → a.done = false → a.store = true → s.target ctx a.addr = t → s.isLocal t = true → localOf t < Config.memBytes →
    (s.mem.frame (localOf t)).cow = true → s.perform ctx who [a] 0 = .fault cCow a.va)

/-- R314, R312 and the named form of R311: CRD, CADD and CNEW; a number above 0xF_FFFF has no cairn. -/
def Obligations.CairnRecords : Prop :=
  ∀ (s s1 : State) (c : CSite) (r : CtlRec), s.EffectSite s1 c →
    let k := (c.reg r.a).toNat
    let x := if r.m.getLsbD 0 then r.imm else c.reg r.b
    (k < 2 ^ 20 → r.m.getLsbD 0 = false → exec (.crd r) s = .next (s1.afterEffect c (c.w.setS r.d (s1.cairn.val k)))) ∧
    (k < 2 ^ 20 → r.m.getLsbD 0 = true → exec (.crd r) s = .next (s1.afterEffect c (c.w.setS r.d (if s1.cairn.flag k then 1 else 0)))) ∧
    (k < 2 ^ 20 → (s1.cairn.val k).toNat + x.toNat < 2 ^ 64 → exec (.cadd r) s = .next ((s1.cairnAdd k x).afterEffect c c.w)) ∧
    (k < 2 ^ 20 → 2 ^ 64 ≤ (s1.cairn.val k).toNat + x.toNat →
      exec (.cadd r) s = .next (((s1.cairnAdd k x).faultToken c.key (c.faultRec s1 cCairnOverflow 0 0)).afterEffect c c.w)) ∧
    (2 ^ 20 ≤ k → exec (.crd r) s = .next (s1.coreFault c c.w cNoCairn 0 0) ∧ exec (.cadd r) s = .next (s1.coreFault c c.w cNoCairn 0 0)) ∧
    (r.a ≠ 0 → k < 2 ^ 20 → exec (.cnew r) s = .next ({ s1 with cairn := s1.cairn.create k }.afterEffect c (c.w.setS r.d (c.reg r.a)))) ∧
    (r.a = 0 → ∀ n, s1.freeCairn = some n → ∃ t v, exec (.cnew r) s = .next (State.afterEffect t c (c.w.setS r.d (BitVec.ofNat 64 n))) ∧
      t.cairn.val n = v ∧ v = 0 ∧ t.cairn.flag n = false ∧ 0x80000 ≤ n ∧ n < 0x100000 ∧ ∀ j, j ≠ n → t.cairn.val j = s1.cairn.val j) ∧
    (r.a = 0 → s1.freeCairn = none → exec (.cnew r) s = .next (s1.afterEffect c (c.w.setS r.d (BitVec.allOnes 64))))

/-- An add to a cairn sums or saturates, and touches no other cairn (Table 8.3). -/
def Obligations.CairnAddSaturates : Prop :=
  ∀ (cs : Cairns) (k j : Nat) (n : Word),
    ((cs.add k n).val k).toNat = min ((cs.val k).toNat + n.toNat) (2 ^ 64 - 1) ∧ (j ≠ k → (cs.add k n).val j = cs.val j) ∧ (cs.add k n).flags = cs.flags

/-- LAUNCH, CANCEL and ARM (R315 to R317). -/
def Obligations.LaunchRecords : Prop :=
  (∀ (s s1 s2 : State) (c : CSite) (r : CtlRec) bs, s.EffectSite s1 c → c.w.begun = true → s1.turnAccs c.rg.ctx c.who c.w.accs = .all s2 bs →
    (c.reg r.a).toNat % 64 = 0 → bs.all (fun a => !a.psn) = true →
    let d := sysCmdOf (wordsOf (laneBytes bs 0))
    (launchOk d = false → exec (.launch r) s = .next ((s2.advance (field d.w2 19 0) true).afterEffect c (c.w.setS r.d 1))) ∧
    (launchOk d = true → ∀ die, s2.launchDie (launchOf d c.rg.ctx (field r.imm 2 0) 0 none) (dieOf c.rg.part) = some die →
      exec (.launch r) s = .next (((s2.admitLaunch { launchOf d c.rg.ctx (field r.imm 2 0) 0 none with die := die }).drawn).afterEffect c (c.w.setS r.d 0)))) ∧
  (∀ (s s1 : State) (c : CSite) (r : CtlRec), s.EffectSite s1 c →
    ((field r.imm 1 0 = 0 ∧ c.reg r.a = 0) ∨ s1.anyMember c.rg.ctx (field r.imm 1 0) (c.reg r.a).toNat = true →
      exec (.cancel r) s = .next (s1.afterEffect c { (c.w.setS r.d 0) with cancels := c.w.cancels ++ [(field r.imm 1 0, c.reg r.a)] })) ∧
    (¬ (field r.imm 1 0 = 0 ∧ c.reg r.a = 0) → s1.anyMember c.rg.ctx (field r.imm 1 0) (c.reg r.a).toNat = false →
      exec (.cancel r) s = .next (s1.afterEffect c (c.w.setS r.d 5)))) ∧
  (∀ (s s1 : State) (c : CSite) (r : CtlRec) x, s.EffectSite s1 c → (c.reg r.a).toNat < 2 ^ 20 → tget s1.host.ctxs c.rg.ctx = some x →
    let num := if field r.imm 1 0 = 3 then 0 else (c.reg r.b).toNat
    (x.arms.length < 256 ∧ (∀ a ∈ x.arms, a.level = field r.imm 1 0 → a.num ≠ num) →
      exec (.arm r) s = .next ((s1.arm c.rg.ctx (field r.imm 1 0) num (c.reg r.a).toNat (field r.imm 63 32)).afterEffect c c.w)) ∧
    (256 ≤ x.arms.length → exec (.arm r) s = .next (s1.coreFault c c.w cArmFull 0 0)))

/-- RUN and RUNW issue the unit into the lowest free entry; an empty mask issues none, and its cairn advances when the block ends (R299). REPLACE installs the
redirection, or says why not (R304). -/
def Obligations.UnitRecords : Prop :=
  (∀ (s s1 s2 : State) (c : CSite) (r : CtlRec) (m : Image) (rg : Region) b, s.EffectSite s1 c → (r.d = 0 ∨ (c.reg r.d).toNat < 2 ^ 20) →
    s1.wantImage c.key c.rg r.imm.toNat = .ok s2 (some m) → m.hdr.control = false → c.runMask r ≠ 0 →
    tget s2.regions c.key = some rg → rg.freeSlot = some b →
    let cairn := if r.d = 0 then none else some (c.reg r.d).toNat
    let unit : Bif := ⟨r.imm.toNat, m, .issued, c.runMask r, cairn, false, rg.nextOrder, c.blk.order⟩
    let after := fun (u : Bif) => (s2.putRegion c.key { rg with blocks := tput rg.blocks b u, trapped := false, nextOrder := rg.nextOrder + 1 }).afterEffect c c.w
    exec (.run r) s = .next (after unit) ∧ exec (.runw r) s = .next (after { unit with holdCommits := true })) ∧
  (∀ (s s1 s2 : State) (c : CSite) (r : CtlRec) (m : Image), s.EffectSite s1 c → (r.d = 0 ∨ (c.reg r.d).toNat < 2 ^ 20) →
    s1.wantImage c.key c.rg r.imm.toNat = .ok s2 (some m) → m.hdr.control = false → c.runMask r = 0 →
    let after := s2.afterEffect c { c.w with empties := c.w.empties ++ if r.d = 0 then [] else [(c.reg r.d).toNat] }
    exec (.run r) s = .next after ∧ exec (.runw r) s = .next after) ∧
  (∀ (s : State) (ks : List Nat), (∀ k ∈ ks, k < 2 ^ 20) → ks.Nodup → ∀ k, (s.advanceAll ks).cairn.val k = if k ∈ ks then cairnSum (s.cairn.val k) 1 else s.cairn.val k) ∧
  (∀ (c : CSite) (r : CtlRec) t, t < c.rg.size → c.rg.size ≤ 128 →
    (c.runMask r).getLsbD t = (r.m.getLsbD 0 || (if t < 64 then (c.reg r.a).getLsbD t else (c.reg r.b).getLsbD (t - 64)))) ∧
  (∀ (s s1 : State) (c : CSite) (r : CtlRec), s.EffectSite s1 c →
    let old := (c.reg r.a).toNat
    let new := (c.reg r.b).toNat
    let len := r.imm.toNat
    (old % 2048 ≠ 0 ∨ new % 2048 ≠ 0 ∨ len % 2048 ≠ 0 → exec (.replaceB r) s = .next (s1.afterEffect c (c.w.setS r.d 2))) ∧
    (old % 2048 = 0 → new % 2048 = 0 → len % 2048 = 0 →
      s1.replaceLacks c c.w.pc new len (s1.diefeat (dieOf c.rg.part)) = false →
      (∀ t, redirectAfter (s1.redirectOf c.rg.ctx) old new len = some t →
        exec (.replaceB r) s = .next ((s1.replaceCode c.rg.ctx t).afterEffect c (c.w.setS r.d 0))) ∧
      (redirectAfter (s1.redirectOf c.rg.ctx) old new len = none → exec (.replaceB r) s = .next (s1.afterEffect c (c.w.setS r.d 1)))))

/-- The fold records: FDECL, FRESIZE, FQRY, FDROP, FSPILL and FFILL as they end (R306 to R310). -/
def Obligations.FoldRecords : Prop :=
  (∀ (s s1 : State) (c : CSite) (r : CtlRec) idx d clean, s.EffectSite s1 c → c.blk.image.declAt (field r.imm 3 0) = some (idx, d, clean) →
    (declCheck idx d (s1.stmtsOf c.rg) clean = 0 → tget (s1.stmtsOf c.rg) idx = none →
      exec (.fdecl r) s = .next ((s1.mapTiles c.rg.tiles fun t => t.declare idx d).afterEffect c c.w)) ∧
    (declCheck idx d (s1.stmtsOf c.rg) clean = 0 → ∀ o, tget (s1.stmtsOf c.rg) idx = some o → o.lat = d.lat → c.w.aux = [] →
      exec (.fdecl r) s = .next ((s1.mapTiles c.rg.tiles fun t => t.redeclare idx d).afterEffect c c.w)) ∧
    (declCheck idx d (s1.stmtsOf c.rg) clean ≠ 0 → exec (.fdecl r) s = .next (s1.coreFault c c.w cDeclFault (declCheck idx d (s1.stmtsOf c.rg) clean) 0))) ∧
  (∀ (s s1 : State) (c : CSite) (r : CtlRec), s.EffectSite s1 c →
    let idx := (c.reg r.a).toNat
    (tget (s1.stmtsOf c.rg) idx = none → exec (.fresize r) s = .next (s1.afterEffect c (c.w.setS r.d 4)) ∧
      exec (.fdrop r) s = .next (s1.afterEffect c (c.w.setS r.d 4)) ∧ exec (.fqry r) s = .next (s1.afterEffect c (c.w.setS r.d 1))) ∧
    (∀ d, tget (s1.stmtsOf c.rg) idx = some d →
      (∀ s2 st, s1.resizeTurn c.rg idx (resizeLat r.imm d.rank) (c.w.aux.getD 0 0) = .done s2 st →
        exec (.fresize r) s = .next (s2.afterEffect c (c.w.setS r.d (BitVec.ofNat 64 st)))) ∧
      ((∀ k ∈ c.rg.tiles, (s1.tile k).anySlot d (fun e => decide (e = .draining)) = false) →
        exec (.fdrop r) s = .next ((s1.mapTiles c.rg.tiles fun t => t.drop idx).afterEffect c (c.w.setS r.d 0))) ∧
      ((c.reg r.b).toNat < d.foot → field r.imm 7 1 < c.rg.size →
        let e := (s1.tile (c.rg.tileKey (field r.imm 7 1))).slot (d.base + (c.reg r.b).toNat * d.rows)
        exec (.fqry r) s = .next (s1.afterEffect c (c.w.setS r.d (BitVec.ofNat 64 (if bitAt r.imm 0 then e.word1 else e.word0))))))) ∧
  (∀ (s s1 s2 : State) (c : CSite) (r : CtlRec) idx st tile ws ds bs, s.EffectSite s1 c → s1.spillName c r = .name idx st tile ws ds →
    c.w.begun = true → s1.turnAccs c.rg.ctx c.who c.w.accs = .all s2 bs →
    exec (.fspill r) s = .next (((s2.noteErrs c.key bs).putTile tile (((s2.noteErrs c.key bs).tile tile).endSpill (st.slotRow ds))).afterEffect c (c.w.setS r.d 0)) ∧
    exec (.ffill r) s = .next ((s2.putTile tile (((List.range st.rows).foldl (fun t n => t.putRow (st.slotRow ds) n (filledRow bs n)) (s2.tile tile)).finishFill
      (st.slotRow ds))).afterEffect c (c.w.setS r.d 0)))

/-- Stream and engine records hand their command over, and SBAR ends when nothing of earlier blocks runs (R334, R339, R341, R342). -/
def Obligations.StreamEngineRecords : Prop :=
  (∀ (s s1 : State) (c : CSite) (r : CtlRec), s.EffectSite s1 c → s1.streamRoom (c.streamTiles r) (portsOf r.imm) = true →
    exec (.sgo r) s = .next ((s1.queueStream (c.streamTiles r) (portsOf r.imm) .go c.blk.order).afterEffect c c.w) ∧
    exec (.sstop r) s = .next ((s1.queueStream (c.streamTiles r) (portsOf r.imm) .stop c.blk.order).afterEffect c c.w)) ∧
  (∀ (s s1 s2 : State) (c : CSite) (r : CtlRec) d, s.EffectSite s1 c → (c.reg r.a).toNat % 64 = 0 → c.descriptor s1 s2 (c.reg r.a).toNat d →
    (patternOk d = true → s2.streamRoom (c.streamTiles r) [field r.imm 2 0] = true →
      exec (.sbind r) s = .next ((s2.queueStream (c.streamTiles r) [field r.imm 2 0] (.bind d) c.blk.order).afterEffect c c.w)) ∧
    ((r.d = 0 ∨ (c.reg r.d).toNat < 2 ^ 20) → ∀ rg kind i, tget s2.regions c.key = some rg →
      (kind, i) ∈ ([(0x20, .copy r), (0x21, .gather r), (0x22, .scatter r), (0x24, .rput r), (0x25, .rget r)] : List (Nat × Instr)) →
      s2.engineFits c kind d rg.latestUnit.isSome = true → rg.engines.length < 16 →
      exec i s = .next ((s2.putRegion c.key { rg with nextOrder := rg.nextOrder + 1, engines := rg.engines ++
        [(⟨rg.nextOrder, d, rg.latestUnit, c.blk.order, if r.d = 0 then none else some (c.reg r.d).toNat,
          [⟨0, engTotal d, if engRows d then 0 else 1, 0, []⟩], 0, false, false, false, 0⟩ : Engine)] }).afterEffect c c.w)) ∧
    ((r.d = 0 ∨ (c.reg r.d).toNat < 2 ^ 20) → ∀ rg, tget s2.regions c.key = some rg → s2.engineFits c 0x23 d rg.latestUnit.isSome = true →
      rg.engines.length < 16 →
      let k := tgetD s2.link.credKth (credGroup d) 0
      exec (.cred r) s = .next (({ s2 with link := { s2.link with credKth := tput s2.link.credKth (credGroup d) (k + 1) } }.putRegion c.key
        { rg with nextOrder := rg.nextOrder + 1, engines := rg.engines ++
          [(⟨rg.nextOrder, d, rg.latestUnit, c.blk.order, if r.d = 0 then none else some (c.reg r.d).toNat,
            [⟨0, engTotal d, if engRows d then 0 else 1, 0, []⟩], 0, false, false, false, k⟩ : Engine)] }).afterEffect c c.w))) ∧
  (∀ (s s1 : State) (c : CSite) (r : CtlRec), s.EffectSite s1 c →
    (∀ k ∈ c.rg.tiles, ∀ p ∈ (s1.tile k).streams, p.2.pendingBefore c.blk.order = false) → (∀ e ∈ c.rg.engines, c.blk.order ≤ e.blockOrder) →
    exec (.sbar r) s = .next (s1.afterEffect c c.w))

/-- XBEGIN opens a transaction and gives its base, XPUT answers why not, XCOMMIT and XABORT end it (R348 to R350). -/
def Obligations.TransactionRecords : Prop :=
  ∀ (s s1 : State) (c : CSite) (r : CtlRec), s.EffectSite s1 c →
    let k := (c.reg r.a).toNat
    (k < 2 ^ 20 → c.rg.txn = none → s1.openTxns (k % 4) < 64 → s1.cairn.val k ≠ BitVec.allOnes 64 →
      exec (.xbegin r) s = .next (({ s1 with link := { s1.link with
        txns := s1.link.txns ++ [(⟨s1.link.nextXid, c.rg.launch, k, .opened, [], 0, s1.dev.devNum, false, false, false, false, 0, 0⟩ : Txn)]
        nextXid := (s1.link.nextXid + 1) % 2 ^ 32 } }.setTxn c.key (some s1.link.nextXid)).afterEffect c (c.w.setS r.d (s1.cairn.val k)))) ∧
    (k < 2 ^ 20 → (c.rg.txn.isSome = true ∨ 64 ≤ s1.openTxns (k % 4)) → exec (.xbegin r) s = .next (s1.afterEffect c (c.w.setS r.d (BitVec.allOnes 64)))) ∧
    (c.rg.txn = none → exec (.xput r) s = .next (s1.afterEffect c (c.w.setS r.d 1)) ∧ exec (.xcommit r) s = .next (s1.afterEffect c c.w) ∧
      exec (.xabort r) s = .next (s1.afterEffect c c.w)) ∧
    (∀ xid, c.rg.txn = some xid → exec (.xabort r) s = .next (((s1.txnAbort xid 1).setTxn c.key none).afterEffect c c.w)) ∧
    (∀ xid t, c.rg.txn = some xid → s1.txn? xid = some t → t.phase = .opened → s1.canSend (t.targets.map fun g => g.dev) = some true →
      exec (.xcommit r) s = .next (((s1.prepareTxn xid).setTxn c.key none).afterEffect c c.w)) ∧
    (∀ xid t s2 s3 s4 bs ps, c.rg.txn = some xid → s1.txn? xid = some t → t.phase = .opened → c.w.begun = true →
      s1.turnAccs c.rg.ctx c.who c.w.accs = .all s2 bs →
      s2.lay ⟨.core c.key, c.rg.ctx, .write, 0, true, false, false, 0⟩ (c.reg r.b).toNat r.imm.toNat [] = .ok s3 ps →
      (∀ a ∈ ps, s3.storeCow c.rg.ctx a.addr = false) →
      let gs := sectorsOf c.rg.ctx (s3.target c.rg.ctx) (fillPieces ps (laneBytes bs 0) (bytePsn bs)) []
      t.limit gs = false → State.stageAll xid (gs.drop (c.w.aux.getD 0 0)) (c.w.aux.getD 0 0) s3 = .done s4 →
      exec (.xput r) s = .next (s4.afterEffect c (c.w.setS r.d 0)))

/-- The heap records: what HLD, HST, HPIN, HUNPIN and HCMP do once the barrier has let them pass; HNEW writes its reference; RELOC, SNAP,
SNAPDROP and TLBINV (R318 to R324, R332). -/
def Obligations.HeapRecords : Prop :=
  (∀ (s s1 s2 : State) (c : CSite) (r : CtlRec) n op bs f ref hops pa data errs, s.EffectSite s1 c → f = field r.imm 15 0 →
    s1.heapTurn (.core c.key) c.rg.ctx c.who op f n bs false
      (if c.w.begun then HeapJob.ofNums c.w.aux else HeapJob.start (readH c.w.h r.a)) c.w.accs = .done s2 ref hops pa data false errs →
    let s3 := s2.heapErrs c.key errs
    let w1 := if 0 < hops then c.w.setH r.a ref else c.w
    (op = .load → bs = [] → r.m ≠ 11 → n = widthBytes r.m → exec (.hld r) s = .next (s3.afterEffect c (w1.setS r.d (widthVal r.m (leNat data))))) ∧
    (op = .load → bs = [] → r.m = 11 → n = 8 → exec (.hld r) s = .next (s3.afterEffect c (w1.setH r.d (BitVec.ofNat 64 (leNat data))))) ∧
    (op = .store → 16 ≤ f → n = (if r.m = 11 then 8 else widthBytes r.m) →
      bs = leBytes n (if r.m = 11 then readH c.w.h r.b else c.reg r.b).toNat → exec (.hst r) s = .next (s3.afterEffect c w1)) ∧
    (op = .pin → f = 0 → n = 0 → bs = [] → exec (.hpin r) s = .next (s3.afterEffect c (w1.setS r.d (mkTae pa 65536 true true)))) ∧
    (op = .unpin → f = 0 → n = 0 → bs = [] → exec (.hunpin r) s = .next (s3.afterEffect c w1))) ∧
  (∀ (s s1 : State) (c : CSite) (r : CtlRec), s.EffectSite s1 c → (readH c.w.h r.a = 0 ∨ readH c.w.h r.b = 0) →
    exec (.hcmp r) s = .next (s1.afterEffect c (c.w.setS r.d (if readH c.w.h r.a = readH c.w.h r.b then 1 else 0)))) ∧
  (∀ (s s1 s2 : State) (c : CSite) (r : CtlRec) ref, s.EffectSite s1 c →
    s1.alloc (.core c.key) c.rg.ctx (c.reg r.a).toNat (field r.imm 15 0) (field r.imm 19 16) = .ok s2 ref →
    exec (.hnew r) s = .next (s2.afterEffect c (c.w.setH r.d ref))) ∧
  (∀ (s s1 : State) (c : CSite) (r : CtlRec), s.EffectSite s1 c → inHeap (c.reg r.a).toNat = true →
    s1.relocHomes c.rg.ctx ((c.reg r.a).toNat / 65536 * 65536) (field (c.reg r.b) 31 0) = [] →
    exec (.reloc r) s = .next ((s1.advance (field (c.reg r.b) 51 32) false).afterEffect c (c.w.setS r.d 0))) ∧
  (∀ (s s1 s2 : State) (c : CSite) (r : CtlRec) v, s.EffectSite s1 c →
    s1.snap c.rg.ctx ((c.reg r.a).toNat / 65536 * 65536) ((c.reg r.b).toNat / 65536 * 65536) (field r.imm 19 0) = (v, s2) →
    exec (.snap r) s = .next (s2.afterEffect c (c.w.setS r.d v))) ∧
  (∀ (s s1 : State) (c : CSite) (r : CtlRec), s.EffectSite s1 c →
    exec (.snapdrop r) s = .next ((s1.snapDrop c.rg.ctx (field r.imm 19 0) (c.reg r.a)).afterEffect c c.w) ∧
    exec (.tlbinv r) s = .next ((s1.invalidate c.rg.ctx).afterEffect c c.w))

/-- TLBINV leaves no translation, walker or barrier entry of the context anywhere on the device (R169, R209, R332). -/
def Obligations.InvalidateDropsContext : Prop :=
  ∀ (s : State) (ctx : Nat), let t := s.invalidate ctx
    (∀ k r, tget t.regions k = some r → (∀ e ∈ r.tlb, e.ctx ≠ ctx) ∧ ∀ e ∈ r.barrier, e.ctx ≠ ctx) ∧
    (∀ k, (∀ e ∈ (t.tile k).tlb, e.ctx ≠ ctx) ∧ ∀ e ∈ (t.tile k).barrier, e.ctx ≠ ctx) ∧
    (∀ d, ∀ e ∈ tgetD t.caches.walkers d [], e.ctx ≠ ctx) ∧ t.mem = s.mem ∧ t.cairn = s.cairn

/-! ### Traps (R325 to R328) -/

/-- Taking a trap (R325): with ACTIVE clear and a handler, TRAPBLK and TRAPCAUSE are saved, the record is kept, the fetched blocks are
abandoned and fetch goes on at TRAPBASE; with a trap active or no handler the launch is cancelled. -/
def Obligations.TrapEntrySaves : Prop :=
  ∀ (s : State) key (r : Region) rec_ resume efx swc queue, tget s.regions key = some r →
    (r.active = true ∨ r.trapbase = 0 → s.takeTrap key rec_ resume efx swc queue = s.cancelLaunch r.launch) ∧
    (r.active = false → r.trapbase ≠ 0 → ∃ t, tget (s.takeTrap key rec_ resume efx swc queue).regions key = some t ∧
      t.trapblk = BitVec.ofNat 64 resume ∧ bitAt t.trapcause 63 = true ∧ field t.trapcause 39 32 = efx % 256 ∧ field t.trapcause 31 16 = swc % 65536 ∧
      bitAt t.trapcause 8 = queue ∧ field t.trapcause 7 0 = rec_.code % 256 ∧ (t.trapRec.map fun f => f.code) = some rec_.code ∧
      t.nextFetch = some r.trapbase.toNat ∧ t.fetched = [] ∧ t.work = none ∧ (∀ n ∈ r.fetched, tget t.blocks n = none) ∧
      t.s = r.s ∧ t.h = r.h ∧ t.exsum = r.exsum ∧ t.fwb = r.fwb ∧ t.trapbase = r.trapbase ∧ t.queue = r.queue)

/-- RETT at commit (R328): fetch goes on at TRAPBLK, ACTIVE clears, and no other bit of TRAPCAUSE changes. -/
def Obligations.TrapReturnRestores : Prop :=
  ∀ r : Region, r.returnTrap.nextFetch = some r.trapblk.toNat ∧ r.returnTrap.active = false ∧
    (∀ i, i < 63 → bitAt r.returnTrap.trapcause i = bitAt r.trapcause i) ∧ r.returnTrap.trapblk = r.trapblk ∧ r.returnTrap.trapbase = r.trapbase ∧
    r.returnTrap.s = r.s ∧ r.returnTrap.h = r.h ∧ r.returnTrap.trapRec = r.trapRec

/-- A fault of a control block traps with the block itself as the block to resume, and at a block boundary TRAP_ENTRY takes the oldest class-00
record of the queue, with the next block as the one to resume (R293, R325, Table 14.9). -/
def Obligations.TrapsTaken : Prop :=
  (∀ (s : State) (c : CSite) (w : Work) code reason addr, codeClass code = 0 → w.cancels = [] →
    s.coreFault c w code reason addr = (s.advanceAll w.empties).takeTrap c.key (c.faultRec s code reason addr) c.blk.addr w.efx 0 false) ∧
  (∀ (s : State) key (r : Region) f, tget s.regions key = some r → r.run = .running → r.cancelling = false → r.trapped = false → r.work = none →
    oldest r.queue 0 = some f →
    (∀ a, r.fetched = [] → r.nextFetch = some a → exec (.trapEntry key) s = .next (s.takeTrap key f a 0 0 true)) ∧
    (∀ n ns b, r.fetched = n :: ns → tget r.blocks n = some b → exec (.trapEntry key) s = .next (s.takeTrap key f b.addr 0 0 true)))

/-! ### Node records (R354 to R436, R445, R446) -/

/-- R354: the integer nodes compute Table 16.2's exact result of each value, clamped with SAT under S and wrapped otherwise. -/
def Obligations.NodeArithmetic : Prop :=
  ∀ (s : State) (x : Site) (n : NodeRec) i hasS g, s.site = some x → (i, hasS, g) ∈ arithmeticExact n → i.WellFormed →
    let sat := hasS && n.mod.getLsbD 0
    let exact := fun (vs : List Nat) => g (intOf n.fmt (vs.getD 0 0)) (intOf n.fmt (vs.getD 1 0)) (intOf n.fmt (vs.getD 2 0))
    let z := fun vs => if sat then clampI (exact vs) (intLow n.fmt) (intHigh n.fmt) else exact vs
    ∃ lat o fl, exec i s = .next (s.fires x n lat 0 (x.sends n (x.out n false o)) fl) ∧
      Computes n.fmt (x.sel n) [x.opA n n.fmt, x.opB n n.fmt, litLanes n.fmt n.lit]
        (fun vs => ⟨wrapN (Rules.fmtWidth n.fmt) (z vs), if z vs = exact vs then 0 else if sat then fSAT else 0, false⟩) o fl

/-- The nodes on raw bits, ADDA and CMP compute from each value of both operands what their rules say, and set no flag (R356, R359 to R363). -/
def Obligations.NodeBitValues : Prop :=
  ∀ (s : State) (x : Site) (n : NodeRec) i h, s.site = some x → (i, h) ∈ bitValues n → i.WellFormed →
    ∃ lat o, exec i s = .next (s.fires x n lat 0 (x.sends n (x.out n false o)) 0) ∧
      Computes n.fmt (x.sel n) [x.opA n n.fmt, x.opB n n.fmt] (fun vs => ⟨h (vs.getD 0 0) (vs.getD 1 0), 0, false⟩) o 0

/-- SAD, IDX, IOTA, SEL, PERM, BCAST, SHFL and VMASK, element by element (R355, R357, R358, R364, R365, R371). -/
def Obligations.NodeLanes : Prop :=
  ∀ (s : State) (x : Site) (n : NodeRec), s.site = some x →
    let f := n.fmt
    let a := pairLanes f (x.opA n f)
    let b := pairLanes f (x.opB n f)
    let gives := fun (i : Instr) (o : List Lane) => ∃ lat, exec i s = .next (s.fires x n lat 0 (x.sends n (x.out n false o)) 0)
    (Rules.fmtWidth f < 64 → ∃ o, gives (.sad n) o ∧ ∀ i, i < 16 → laneAt o i = mkLane
      ((List.range (perElem f)).map fun k => (intOf f (valAt f a (i * perElem f + k)) - intOf f (valAt f b (i * perElem f + k))).natAbs).sum
      ((laneAt a i).valid && (laneAt b i).valid) ((laneAt a i).poison || (laneAt b i).poison)) ∧
    (∃ o, gives (.idx n) o ∧ ∀ j, j < valNum f → valOk f o j = valOk f a j ∧ valPsn f o j = (valOk f a j && valPsn f a j) ∧
      (valOk f a j = true → valAt f o j = wrapN (Rules.fmtWidth f) (n.lit.toInt +
        (if n.mod.getLsbD 2 then ((x.elemDim n (field n.mod 1 0) (elemOf f j) * valNum f + j : Nat) : Int) else x.elemDim n (field n.mod 1 0) (elemOf f j))))) ∧
    (∃ o, gives (.iota n) o ∧ ∀ j, j < valNum f → valOk f o j = true ∧ valPsn f o j = false ∧
      valAt f o j = wrapN (Rules.fmtWidth f) (n.lit.toInt + (j * 2 ^ field n.mod 3 0 : Nat))) ∧
    (∃ lat o, exec (.selNode n) s = .next (s.fires x n lat 0 [(0, (x.out n false o).tok), (1, (x.out n false o).tok)] 0) ∧
      ∀ i, i < 16 → laneAt o i = (let l := if predAt x.f.p (isPair f) i then unitLane f a i else unitLane f b i
        mkLane l.val.toNat l.valid (l.poison || predPsn x.f.p (isPair f) i))) ∧
    (∃ o, gives (.perm n) o ∧ ∀ i, i < unitCount f →
      let k := laneAt b (unitElem f i)
      unitLanes f o i = if k.val.getLsbD 31 || !k.valid then offUnit f
        else (unitLanes f a (k.val.toNat % unitCount f)).map fun l => mkLane l.val.toNat l.valid (l.poison || k.poison)) ∧
    (n.mod.getLsbD 0 = false → ∃ o, gives (.bcast n) o ∧ ∀ i, i < unitCount f → unitLanes f o i = unitLanes f a (field n.lit 3 0 % unitCount f)) ∧
    (n.mod.getLsbD 0 = true → ∃ o, gives (.bcast n) o ∧ ∀ j, j < valNum f → valOk f o j = valOk f a (field n.lit 6 0) ∧
      valPsn f o j = (valOk f o j && valPsn f a (field n.lit 6 0)) ∧ (valOk f o j = true → valAt f o j = valAt f a (field n.lit 6 0))) ∧
    (∃ o, gives (.shfl n) o ∧ ∀ i, i < unitCount f →
      let k := field n.lit 3 0 % unitCount f
      unitLanes f o i = match field n.mod 1 0 with
        | 0 => if i < k then offUnit f else unitLanes f a (i - k)
        | 1 => if unitCount f ≤ i + k then offUnit f else unitLanes f a (i + k)
        | 2 => unitLanes f a ((i + unitCount f - k) % unitCount f)
        | _ => unitLanes f a (i ^^^ k)) ∧
    (∃ o, gives (.vmask n) (pairLanes f o) ∧ ∀ i, i < 16 →
      let m := laneAt (x.opB n f) i
      let on := n.lit.getLsbD i
      let l := laneAt (x.opA n f) i
      laneAt o i = match field n.mod 1 0 with
        | 0 => if l.valid && on then l else Lane.off
        | 1 => if l.valid && m.valid && decide (m.val ≠ 0) then { l with poison := l.poison || m.poison } else Lane.off
        | 2 => if on then (if l.valid then l else Lane.on 0) else Lane.off
        | _ => if i = 0 then Lane.on (BitVec.ofNat 32 (((List.range 16).filter fun k => (laneAt (x.opA n f) k).valid).map fun k => 2 ^ k).sum)
          else if i = 1 then Lane.on (BitVec.ofNat 32 (((List.range 16).filter fun k => (laneAt (x.opA n f) k).poison).map fun k => 2 ^ k).sum) else Lane.off)

/-- RED and SCAN on integers, PACK and UNPACK: sums that wrap, least and greatest, bits, prefixes, and values of half and double width (R264,
R366, R367, R370). RED and SCAN on floating values complete too. -/
def Obligations.NodeReductions : Prop :=
  ∀ (s : State) (x : Site) (n : NodeRec), s.site = some x →
    let f := n.fmt
    let a := x.opA n f
    let w := Rules.fmtWidth f
    let op := field n.mod 2 0
    let gives := fun (i : Instr) (o : List Lane) (fl : BitVec 10) => ∃ lat, exec i s = .next (s.fires x n lat 0 (x.sends n (x.out n false o)) fl)
    ((Instr.red n).WellFormed →
      let vals := ((List.range (valNum f)).filter fun j => valOk f a j).map fun j => valAt f a j
      ∃ o fl, gives (.red n) o fl ∧ (vals = [] → o = noLanes ∧ fl = 0) ∧
        (vals ≠ [] → valOk f o 0 = true ∧ (∀ e, (if isPair f then 2 else 1) ≤ e → laneAt o e = Lane.off) ∧
          (Rules.isInt f = true → fl = 0 ∧ (valPsn f o 0 = true ↔ ∃ j, j < valNum f ∧ valOk f a j = true ∧ valPsn f a j = true) ∧
            (isPair f = false → (laneAt o 0).val.toNat = valAt f o 0) ∧
            (op = 0 → valAt f o 0 = wrapN w (vals.map fun v => intOf f v).sum) ∧
            (op = 1 → valAt f o 0 ∈ vals ∧ ∀ v ∈ vals, intOf f (valAt f o 0) ≤ intOf f v) ∧
            (op = 2 → valAt f o 0 ∈ vals ∧ ∀ v ∈ vals, intOf f v ≤ intOf f (valAt f o 0)) ∧
            (op = 3 → ∀ i, i < w → ((valAt f o 0).testBit i = true ↔ ∀ v ∈ vals, v.testBit i = true)) ∧
            (op = 4 → ∀ i, i < w → ((valAt f o 0).testBit i = true ↔ ∃ v ∈ vals, v.testBit i = true)) ∧
            (op = 5 → valAt f o 0 = vals.foldl (fun p v => p ^^^ v) 0)))) ∧
    ((Instr.scan n).WellFormed →
      let b := x.opB n f
      let carry := decide (n.rsrc ≠ .zero) && valOk f b 0
      ∃ o fl, gives (.scan n) o fl ∧ (∀ j, j < valNum f → valOk f o j = valOk f a j) ∧
        (Rules.isInt f = true → fl = 0 ∧ ∀ j, j < valNum f → valOk f a j = true →
          (valPsn f o j = true ↔ (carry = true ∧ valPsn f b 0 = true) ∨ ∃ k, k < valNum f ∧ elemOf f k ≤ elemOf f j ∧ valOk f a k = true ∧ valPsn f a k = true) ∧
          (op = 0 → valAt f o j = wrapN w ((if carry then intOf f (valAt f b 0) else 0) +
            (((List.range (if n.mod.getLsbD 3 then j else j + 1)).filter fun k => valOk f a k).map fun k => intOf f (valAt f a k)).sum)))) ∧
    ((Instr.pack n).WellFormed →
      let src := wider f
      let half := valNum src
      let at_ := fun j => if j < half then (x.opA n src, j) else (x.opB n src, j - half)
      let v := fun j => intOf src (valAt src (at_ j).1 (at_ j).2)
      let z := fun j => if n.mod.getLsbD 0 then clampI (v j) (intLow f) (intHigh f) else v j
      ∃ o fl, gives (.pack n) o fl ∧
        (∀ j, j < valNum f →
          (valOk f o j = true ↔ ∀ k, k < valNum f → elemOf f k = elemOf f j → valOk src (at_ k).1 (at_ k).2 = true) ∧
          (valOk f o j = true → valAt f o j = wrapN w (z j)) ∧
          (valPsn f o j = true ↔ valOk f o j = true ∧ ∃ k, k < valNum f ∧ elemOf f k = elemOf f j ∧ valPsn src (at_ k).1 (at_ k).2 = true)) ∧
        (fl = 0 ∨ fl = fSAT) ∧ (fl = fSAT ↔ n.mod.getLsbD 0 = true ∧ ∃ j, j < valNum f ∧ valOk f o j = true ∧ z j ≠ v j)) ∧
    ((Instr.unpack n).WellFormed →
      let dst := wider f
      let from_ := if n.mod.getLsbD 0 then valNum dst else 0
      ∃ o, gives (.unpack n) o 0 ∧ ∀ j, j < valNum dst → valOk dst o j = valOk f a (from_ + j) ∧
        valPsn dst o j = (valOk f a (from_ + j) && valPsn f a (from_ + j)) ∧
        (valOk dst o j = true → valAt dst o j = wrapN (Rules.fmtWidth dst) (intOf f (valAt f a (from_ + j)))))

/-- The nodes that pass tokens on: FAN, MERGE, COMPACT, DELAY, TAG, LAST, SINK, NOP, BRK, TAP, BOUT, PREF, EXPAND (R368, R369, R372 to R377, R422, R431, R432, R434). -/
def Obligations.TokenControl : Prop :=
  (∀ (s : State) (x : Site) (n : NodeRec), s.site = some x →
    let a := pairLanes n.fmt (x.opA n n.fmt)
    let o := x.out n false a
    let gives := fun (i : Instr) (s1 : State) (out : List (Nat × Token)) => ∃ lat, exec i s = .next (s1.fires x n lat 0 out 0)
    let word := fun (w : Elem) => s.putInst x { x.inst with word := w }
    let both := fun (ts : List Token) => ts.flatMap fun u => [(0, u), (1, u)]
    let w0 := x.widths.getD 0 32
    (∃ t : Token, t.lanes = a ∧ t.itag = x.f.itag ∧ t.flags.tear = false ∧ t.flags.scaled = scaledOf (x.dataToks n false) ∧
      (∀ u, x.left n = some u → t.flags.last = u.flags.last ∧ t.flags.compl = u.flags.compl ∧ t.flags.permit = u.flags.permit ∧
        t.flags.mixed = (u.flags.mixed && anyValid a) ∧ t.loff = if t.flags.mixed then u.loff else noLoff) ∧
      (n.mod.getLsbD 0 = false → gives (.fan n) s [(0, t), (1, { t with flags := { t.flags with permit := false } })]) ∧
      (n.mod.getLsbD 0 = true →
        let k := x.inst.word.toNat % 2
        gives (.fan n) (word (if k = 0 then 1 else 0)) ((k, t) :: if t.flags.last then
          [(1 - k, ⟨0, 0, 0, .left, t.itag, noLoff, ⟨true, t.flags.scaled, false, false, false, false⟩, noLanes, 0⟩)] else []))) ∧
    (n.mod.getLsbD 0 = false →
      (∀ t : Token, (x.f.l = some t ∨ (x.f.l = none ∧ x.f.r = some t)) →
        let u : Token := { t with flags := { t.flags with last := t.flags.last && bitAt x.inst.word 2 } }
        gives (.merge n) (word (if t.flags.last then x.inst.word ||| 4 else x.inst.word)) [(0, u), (1, u)]) ∧
      (x.f.l = none → x.f.r = none → gives (.merge n) s [])) ∧
    (n.mod.getLsbD 0 = true → (x.f.l = none ∨ x.f.r = none) →
      let ls := x.inst.buf ++ x.f.l.toList
      let rs := x.inst.buf2 ++ x.f.r.toList
      let w := x.inst.word ||| (if (x.f.l.any fun t => t.flags.last) = true then 1 else 0) ||| (if (x.f.r.any fun t => t.flags.last) = true then 2 else 0)
      ∃ (w' : Elem) (l r out : List Token), mergeRun x.widths 4 w ls rs [] = (w', l, r, out) ∧
        gives (.merge n) (s.putInst x { x.inst with word := w', buf := l, buf2 := r }) (both out) ∧
        out.length + l.length + r.length = ls.length + rs.length ∧
        (ls.length + rs.length ≤ 4 → (l = [] ∨ r = []) ∧ (l ≠ [] → bitAt w' 1 = false) ∧ (r ≠ [] → bitAt w' 0 = false))) ∧
    (∀ t, x.f.l = some t → ∃ lat, exec (.delay n) s = .next (s.fires x n lat 0 [(0, t), (1, t)] 0) ∧ (n.mod.getLsbD 0 = false → lat = field n.lit 8 0)) ∧
    (x.f.l = none → gives (.delay n) s (x.sends n (x.out n false (x.opA n n.fmt)))) ∧
    (field n.mod 1 0 = 0 → gives (.tag n) s (x.sends n { o with itag := n.lit })) ∧
    (field n.mod 1 0 = 1 →
      let t := x.f.itag.toNat
      let d := field n.mod 3 2
      let w := x.widths.getD d 32
      let off := (x.widths.take d).sum
      ∃ u : BitVec 32, gives (.tag n) s (x.sends n { o with itag := u }) ∧ (d < x.widths.length → x.widths.sum ≤ 32 →
        u.toNat % 2 ^ off = t % 2 ^ off ∧ u.toNat / 2 ^ off % 2 ^ w = wrapN w ((t / 2 ^ off % 2 ^ w : Nat) + n.lit.toInt) ∧
        u.toNat / 2 ^ (off + w) = t / 2 ^ (off + w))) ∧
    (field n.mod 1 0 = 2 →
      let b := laneAt (x.opB n n.fmt) 0
      (b.valid = false → gives (.tag n) s (x.sends n { o with lanes := noLanes })) ∧
      (b.valid = true → gives (.tag n) s (x.sends n { o with itag := b.val, lanes := if b.poison then a.map fun l => { l with poison := l.valid } else a }))) ∧
    (field n.mod 1 0 = 3 → gives (.tag n) (word (x.inst.word + 1)) (x.sends n { o with itag := n.lit + x.inst.word })) ∧
    (n.mod.getLsbD 0 = true → gives (.lastNode n) s (x.sends n { o with last := false })) ∧
    (n.mod.getLsbD 0 = false →
      let every := if n.lit = 0 then 1 else n.lit.toNat
      gives (.lastNode n) (word (BitVec.ofNat 32 ((x.inst.word.toNat + 1) % every))) (x.sends n { o with last := decide ((x.inst.word.toNat + 1) % every = 0) })) ∧
    gives (.sink n) s [] ∧
    (x.left n = none → gives (.expand n) s (x.sends n (x.out n false (x.opA n n.fmt)))) ∧
    (∀ t, x.left n = some t →
      let ls := pairLanes n.fmt t.lanes
      let units := fun k => (List.range (unitCount n.fmt)).filter fun i => (laneAt ls (unitElem n.fmt i)).valid && decide (t.loff.getD (unitElem n.fmt i) 0 = k)
      let offs := (List.range 16).filter fun k => !(units k).isEmpty
      (t.flags.mixed = false → gives (.expand n) s (both [{ t with lanes := ls }])) ∧
      (t.flags.mixed = true → gives (.expand n) s (both (offs.map fun k =>
        (⟨0, 0, 0, .left, BitVec.ofNat 32 (t.itag.toNat / 2 ^ w0 * 2 ^ w0 + (t.itag.toNat + k) % 2 ^ w0), noLoff,
          ⟨t.flags.last && decide (offs.getLast? = some k), t.flags.scaled, false, t.flags.compl, false, false⟩,
          ((units k).flatMap fun i => unitLanes n.fmt ls i) ++ List.replicate (16 - ((units k).flatMap fun i => unitLanes n.fmt ls i).length) Lane.off, 0⟩ : Token))))) ∧
    (let u := x.fwd n;
      (∀ t, x.left n = some t → u = { t with itag := x.f.itag }) ∧ (x.left n = none → u.lanes = x.opA n n.fmt ∧ u.itag = x.f.itag ∧ u.flags.last = false) ∧
      gives (.nop n) s (x.sends n (Out.ofTok u)) ∧
      gives (.brk n) (if x.selected n && decide (x.rg.run = .running) then s.putRegion x.key { x.rg with run := .brk } else s) (x.sends n (Out.ofTok u)) ∧
      (let k := field n.lit 19 0;
        ((n.mod.getLsbD 0 || u.flags.last) = false → gives (.tap n) s [(0, u), (1, u)]) ∧
        ((n.mod.getLsbD 0 || u.flags.last) = true → (s.cairn.val k).toNat + 1 < 2 ^ 64 → gives (.tap n) (s.cairnAdd k 1) [(0, u), (1, u)]) ∧
        ((n.mod.getLsbD 0 || u.flags.last) = true → 2 ^ 64 ≤ (s.cairn.val k).toNat + 1 →
          gives (.tap n) ((s.cairnAdd k 1).faultToken x.key (x.rec0 s cCairnOverflow 0)) [(0, u), (1, u)]))) ∧
    (let c0 := x.inst.compactSt n.fmt;
      let emits := fun (c : CompactSt) => gives (.compact n) (s.putInst x (x.inst.setCompact c)) (both c.out);
      (x.f.l = none → emits (c0.flush false)) ∧
      (∀ t, x.f.l = some t →
        let ls := pairLanes n.fmt t.lanes
        let dim0 := fun e => (x.f.itag.toNat + if t.flags.mixed then t.loff.getD e 0 else 0) % 2 ^ w0
        let c1 := ((List.range (unitCount n.fmt)).filter fun i => (laneAt ls (unitElem n.fmt i)).valid).foldl
          (fun c i => CompactSt.take c n.fmt w0 x.f.itag (dim0 (unitElem n.fmt i)) t.flags.scaled (unitLanes n.fmt ls i)) c0
        emits (if t.flags.last = false then c1
          else if c1.units = [] then
            { c1 with out := c1.out ++ [⟨0, 0, 0, .left, x.f.itag, noLoff, ⟨true, t.flags.scaled, false, false, false, false⟩, noLanes, 0⟩] }
          else c1.flush true))) ∧
    gives (.bout n) s ((x.f.l.toList.map fun t => (0, t)) ++ x.f.r.toList.map fun t => (1, { t with flags := { t.flags with permit := false } })) ∧
    (let sent := x.sends n (x.memOut n noLanes);
      ((∀ pa, baseCheck (x.opA n .i64) false ≠ .at pa) → gives (.pref n) s sent) ∧
      (∀ pa, baseCheck (x.opA n .i64) false = .at pa →
        (s.isLocal pa = false ∨ Config.memBytes ≤ localOf pa → gives (.pref n) s sent) ∧
        (s.isLocal pa = true → localOf pa < Config.memBytes →
          ∃ c : Caches, gives (.pref n) { s with caches := c } sent ∧ (∀ k, k ∈ c.llc ↔ k = localOf pa / 64 ∨ k ∈ s.caches.llc) ∧
            (∀ p k, k ∈ tgetD c.l2 p [] ↔ (n.mod.getLsbD 0 = true ∧ p = x.rg.part ∧ k = localOf pa / 64) ∨ k ∈ tgetD s.caches.l2 p []) ∧
            c.cfg = s.caches.cfg ∧ c.fetches = s.caches.fetches ∧ c.walkers = s.caches.walkers ∧ c.l2Private = s.caches.l2Private)))) ∧
  (∀ (ws : List Nat) (k : Nat) (w : Elem) (out : List Token) (a b : Token) (l r : List Token),
    let pass := fun (t : Token) => if t.flags.last && !bitAt w 2 then ({ t with flags := { t.flags with last := false } }, w ||| 4) else (t, w)
    (mergeRun ws (k + 1) w (a :: l) (b :: r) out =
      if nameLater ws (ws.map fun _ => false) (dimsOf ws a.itag.toNat) (dimsOf ws b.itag.toNat) then mergeRun ws k (pass b).2 (a :: l) r (out ++ [(pass b).1])
      else mergeRun ws k (pass a).2 l (b :: r) (out ++ [(pass a).1])) ∧
    mergeRun ws (k + 1) w (a :: l) [] out = (if bitAt w 1 then mergeRun ws k (pass a).2 l [] (out ++ [(pass a).1]) else (w, a :: l, [], out)) ∧
    mergeRun ws (k + 1) w [] (b :: r) out = (if bitAt w 0 then mergeRun ws k (pass b).2 [] r (out ++ [(pass b).1]) else (w, [], b :: r, out)) ∧
    mergeRun ws (k + 1) w [] [] out = (w, [], [], out)) ∧
  (∀ (c : CompactSt) (f : Fmt) (w0 d : Nat) (itag : BitVec 32) (sc l : Bool) (us : List Lane),
    (c.units = [] → c.flush l = c) ∧
    (c.units ≠ [] → let ls := c.units.flatMap fun u => u.1
      let os := c.units.flatMap fun u => u.1.map fun _ => u.2
      (c.flush l).units = [] ∧ (c.flush l).out = c.out ++ [(⟨0, 0, 0, .left, c.base, os ++ List.replicate (16 - os.length) 0, ⟨l, c.scaled, true, false, false, false⟩,
        ls ++ List.replicate (16 - ls.length) Lane.off, 0⟩ : Token)]) ∧
    (let off := fun (b : BitVec 32) => (d + 2 ^ w0 - b.toNat % 2 ^ w0) % 2 ^ w0
      let c1 := if c.units ≠ [] ∧ (itag.toNat / 2 ^ w0 ≠ c.base.toNat / 2 ^ w0 ∨ 15 < off c.base) then c.flush false else c
      let base := if c1.units = [] then BitVec.ofNat 32 (itag.toNat / 2 ^ w0 * 2 ^ w0 + d) else c1.base
      let c2 : CompactSt := ⟨c1.units ++ [(us, off base)], base, c1.scaled && sc, c1.out⟩
      c.take f w0 itag d sc us = if c2.units.length = unitCount f then c2.flush false else c2) ∧
    (∀ m : NodeInst, (∀ u ∈ c.units, u.1.length = if isPair f then 2 else 1) →
      ((m.setCompact c).compactSt f).units = c.units ∧ ((m.setCompact c).compactSt f).base = c.base ∧ ((m.setCompact c).compactSt f).out = [] ∧
      (c.units ≠ [] → ((m.setCompact c).compactSt f).scaled = c.scaled)))

/-- The floating nodes compute each value under their PE's policy, FFMA with its addend, FSGN on bits alone; under RS an operand with a scale
still to apply faults *scale mismatch* (R380 to R386, R390, R266). -/
def Obligations.NodeFloatValues : Prop :=
  ∀ (s : State) (x : Site) (n : NodeRec), s.site = some x →
    let f := n.fmt
    (∀ i g, (i, g) ∈ floatValues n x.pol → i.WellFormed →
      (x.unscaled n false = false → ∃ lat o fl, exec i s = .next (s.fires x n lat 0 (x.sends n (x.out n false o)) fl) ∧
        Computes f (x.sel n) [x.opA n f, x.opB n f] (fun vs => g (vs.getD 0 0) (vs.getD 1 0)) o fl) ∧
      (x.unscaled n false = true → exec i s = .next ((s.began x n).nodeFault x (x.rec0 s cScale 0)))) ∧
    (x.unscaled n (n.mod.getLsbD 0) = false →
      let c := n.mod.getLsbD 0
      ∃ lat o fl, exec (.ffma n) s = .next (s.fires x n lat 0 (x.sends n (x.out n c o)) fl) ∧
        Computes f (x.sel n) [x.opA n f, x.opB n f, if c then x.opC else litLanes f n.lit] (fun vs => fpFma f x.pol (vs.getD 0 0) (vs.getD 1 0) (vs.getD 2 0)) o fl) ∧
    (x.unscaled n false = false →
      let top := 2 ^ (Rules.fmtWidth f - 1)
      ∃ lat o, exec (.fsgn n) s = .next (s.fires x n lat 0 (x.sends n (x.out n false o)) 0) ∧
        Computes f (x.sel n) [x.opA n f, x.opB n f] (fun vs =>
          let a := vs.getD 0 0
          let b := vs.getD 1 0
          ⟨a % top + match field n.mod 1 0 with
            | 0 => b / top * top
            | 1 => (1 - b / top) * top
            | _ => (a / top + b / top) % 2 * top, 0, false⟩) o 0)

/-- CVT, FTOI and ITOF convert each value from its source, SCALE and SCACC multiply by a scale and set SCALED (R387 to R389, R396, R407). -/
def Obligations.NodeConversions : Prop :=
  ∀ (s : State) (x : Site) (n : NodeRec), s.site = some x →
    (∀ i g, (i, g) ∈ convValues n x.pol → i.WellFormed → x.unscaled n false = false →
      ∃ lat o fl, exec i s = .next (s.fires x n lat 0 (x.sends n (if valNum (Rules.srcFmt n) = valNum n.fmt then x.out n false o else (x.out n false o).plain)) fl) ∧
        ComputesFrom n.fmt (x.sel n) (convSource x n) g o fl) ∧
    ((Instr.scaleNode n).WellFormed → ∃ lat o fl, exec (.scaleNode n) s = .next (s.fires x n lat 0 (x.sends n { x.out n false o with scaled := true }) fl) ∧
      Computes n.fmt (x.sel n) [x.opA n (Rules.srcFmt n), x.opB n n.fmt] (fun vs =>
        let a := vs.getD 0 0
        let left : Fv := if Rules.srcFmt n = .i32 then .fin (decide (intOf .i32 a < 0)) (intOf .i32 a).natAbs 0 else polIn x.pol (fvOf n.fmt a)
        let right := polIn x.pol (fvOf n.fmt (vs.getD 1 0))
        policy n.fmt x.pol (polRnd x.pol) [left, right] (fvMul left right)) o fl) ∧
    ((∀ t, x.left n = some t → t.flags.scaled = false) →
      let c := n.mod.getLsbD 4
      ∃ lat o fl, exec (.scacc n) s = .next (s.fires x n lat 0 (x.sends n { x.matOut n c o with scaled := true }) fl) ∧
        Computes .f32 (x.sel n) [x.opA n .i32, x.opB n .f32, if c then x.opC else List.replicate 16 (Lane.on 0)] (fun vs =>
          let a : Fv := .fin (decide (intOf .i32 (vs.getD 0 0) < 0)) (intOf .i32 (vs.getD 0 0)).natAbs 0
          let sc := polIn x.pol (fvOf .f32 (vs.getD 1 0))
          let w := polIn x.pol (fvOf .f32 (vs.getD 2 0))
          policy .f32 x.pol (polRnd x.pol) [a, sc, w] (fvFma a sc w (polRnd x.pol))) o fl) ∧
    (∀ t, x.left n = some t → t.flags.scaled = true → exec (.scacc n) s = .next ((s.began x n).nodeFault x (x.rec0 s cScale 2)))

/-- QMAX, QCVT, DQT and RNG: what they take and keep, when they emit, the scales, the converted and dequantised values, and the random words (R391,
R392, R395, R267, R397). -/
def Obligations.NodeQuantisation : Prop :=
  (∀ (s : State) (x : Site) (n : NodeRec), s.site = some x →
    let i := x.inst
    let f := n.fmt
    let src := Rules.srcFmt n
    let cnt := i.word.toNat + 1
    let both := fun (u : Token) => [(0, u), (1, u)]
    let fault := fun (op : Instr) => exec op s = .next ((s.began x n).nodeFault x (x.rec0 s cScale 0))
    let gives := fun (op : Instr) (s1 : State) (out : List (Nat × Token)) (fl : BitVec 10) => ∃ lat, exec op s = .next (s1.fires x n lat 0 out fl)
    (x.unscaled n false = true → fault (.qmax n)) ∧
    (x.unscaled n false = false →
      let a := x.opA n src
      let hi0 := fvOf .f32 (if i.word = 0 then 0 else i.hi.toNat)
      let lo0 := fvOf .f32 (if i.word = 0 then 0 else i.lo.toNat)
      let last := x.f.l.any fun t => t.flags.last
      let scaled := scaledOf (x.dataToks n false) && (decide (i.word = 0) || i.flag)
      let itag := if i.word = 0 then x.f.itag else i.base
      let taken := ((List.range (valNum src)).filter fun j => valOk src a j && !valPsn src a j && (fvOf src (valAt src a j)).finite).map fun j => fvOf src (valAt src a j)
      ∃ (hi lo : Fv) (nv : BitVec 10),
        (hi0.finite = true → lo0.finite = true →
          (hi = hi0 ∨ hi ∈ taken) ∧ (∀ v ∈ hi0 :: taken, hi.cmp v ≠ -1) ∧ (lo = lo0 ∨ lo ∈ taken) ∧ (∀ v ∈ lo0 :: taken, v.cmp lo ≠ -1)) ∧
        (nv = 0 ∨ nv = fNV) ∧ (nv = fNV ↔ ∃ j, j < valNum src ∧ valOk src a j = true ∧ (fvOf src (valAt src a j)).isSnan = true) ∧
        (cnt ≠ field n.lit 8 0 → last = false →
          gives (.qmax n) (s.putInst x { i with word := toElem cnt, hi := toElem (f32Bits hi), lo := toElem (f32Bits lo), base := itag, flag := scaled }) [] nv) ∧
        (cnt = field n.lit 8 0 ∨ last = true → ∃ w : Elem,
          gives (.qmax n) (s.putInst x { i with word := 0, hi := 0, lo := 0, base := 0, flag := false })
            (both ⟨0, 0, 0, .left, itag, noLoff, ⟨last, scaled, false, false, false, false⟩, List.replicate 16 (Lane.on w), 0⟩) nv ∧
          (isAsym f = true → w = toElem (qScaleAsym f hi lo)) ∧
          (∀ neg m e, isAsym f = false → (if hi.cmp lo.negate = -1 then lo.negate else hi) = .fin neg m e →
            w = toElem (qScaleFloat f (n.mod.getLsbD 4) m e)))) ∧
    (∀ t sc, x.f.l = some t → i.buf2.head? = some sc → n.mod.getLsbD 7 = true → (t.flags.scaled = false ∨ sc.flags.scaled = false) → fault (.qcvt n)) ∧
    (∀ t sc, x.f.l = some t → i.buf2.head? = some sc → (n.mod.getLsbD 7 = false ∨ (t.flags.scaled = true ∧ sc.flags.scaled = true)) →
      let ends := cnt = field n.lit 8 0 ∨ t.flags.last = true
      let toks := i.buf ++ [t]
      let full := toks.length = valNum f / valNum src
      let scale := laneAt sc.lanes 0
      let fl := (qcvtLanes f x.pol src [t] scale).2
      (¬ ends → ¬ full → gives (.qcvt n) (s.putInst x { i with word := toElem cnt, buf := toks }) [] fl) ∧
      (ends ∨ full → ∃ m : NodeInst, m = { i with buf := [], word := m.word, buf2 := m.buf2 } ∧ (ends → m.word = 0 ∧ m.buf2 = []) ∧
        (¬ ends → m.word = toElem cnt ∧ m.buf2 = i.buf2) ∧
        gives (.qcvt n) (s.putInst x m) (both ⟨0, 0, 0, .left, (toks.headD t).itag, noLoff,
          ⟨toks.any fun v => v.flags.last, (toks.all fun v => v.flags.scaled) && sc.flags.scaled, false, false, false, false⟩,
          (qcvtLanes f x.pol src toks scale).1, 0⟩) fl)) ∧
    (x.f.l = none ∨ i.buf2 = [] → gives (.qcvt n) s [] 0) ∧
    ((Instr.dqt n).WellFormed →
      let a := x.opA n src
      let vt := valNum f
      let count := valNum src / vt
      let w0 := x.widths.getD 0 32
      let gov := fun j => laneAt (x.opB n src) (if isAsym src = true ∧ 32 * 2 ^ field n.mod 5 4 < valNum src then j / (32 * 2 ^ field n.mod 5 4) else 0)
      let res := fun j => dqtVal f x.pol src (gov j).val (valAt src a j)
      ∃ lat fl, ∃ t : Nat → Token, exec (.dqt n) s = .next (s.firesAt x n lat ((List.range count).flatMap fun k => [(0, k, t k), (1, k, t k)]) fl) ∧
        (∀ k, k < count → (t k).flags.scaled = true ∧ (t k).flags.mixed = false ∧ (t k).loff = noLoff ∧ (t k).flags.permit = false ∧
          (t k).flags.last = (x.leftLast n && decide (k + 1 = count)) ∧
          (t k).itag = BitVec.ofNat 32 (x.f.itag.toNat / 2 ^ w0 * 2 ^ w0 + (x.f.itag.toNat % 2 ^ w0 + k) % 2 ^ w0) ∧
          ∀ q, q < vt →
            (valOk f (t k).lanes q = true ↔ ∀ p, p < vt → elemOf f p = elemOf f q → valOk src a (vt * k + p) = true ∧ (gov (vt * k + p)).valid = true) ∧
            (valOk f (t k).lanes q = true → valAt f (t k).lanes q = (res (vt * k + q)).bits % 2 ^ Rules.fmtWidth f) ∧
            (valPsn f (t k).lanes q = true ↔ valOk f (t k).lanes q = true ∧ ∃ p, p < vt ∧ elemOf f p = elemOf f q ∧
              (valPsn src a (vt * k + p) || (gov (vt * k + p)).poison || (res (vt * k + p)).psn) = true)) ∧
        ∀ b, fl.getLsbD b = true ↔ ∃ j, j < vt * count ∧ valOk src a j = true ∧ (gov j).valid = true ∧ (res j).flags.getLsbD b = true) ∧
    (let a := x.opA n f;
      let b := x.opB n f;
      let ok := (laneAt a 0).valid && (laneAt a 1).valid && (laneAt b 0).valid && (laneAt b 1).valid;
      let psn := (laneAt a 0).poison || (laneAt a 1).poison || (laneAt b 0).poison || (laneAt b 1).poison;
      let word := fun (e : Nat) => screeWord (laneAt b 0).val (laneAt b 1).val (laneAt a 0).val (laneAt a 1).val (BitVec.ofNat 32 (e + 16 * field n.lit 15 0)) x.f.itag
        (field n.mod 1 0);
      ∃ o, gives (.rng n) s (x.sends n (x.out n false o)) 0 ∧ ∀ e, e < 16 →
        (laneAt o e).valid = ok ∧ (laneAt o e).poison = (ok && psn) ∧
        (n.fmt = .n32 → ok = true → (laneAt o e).val = word e) ∧
        (n.fmt = .f32 → ok = true → let m := (word e).toNat / 256
          (laneAt o e).val.toNat = if m = 0 then 0 else (Nat.log2 m + 103) * 2 ^ 23 + (m * 2 ^ (23 - Nat.log2 m) - 2 ^ 23)))) ∧
  (∀ (f src : Fmt) (p : BitVec 8) (toks : List Token) (scale : Lane), f ∈ [Fmt.e4m3, .e5m2, .a8, .a4] → src ∈ [Fmt.f32, .f16, .bf16] → scale.valid = true →
    toks.length * valNum src ≤ valNum f →
    ComputesFrom f (fun _ => true) (fun j => (toks[j / valNum src]?).map fun u =>
        (valAt src u.lanes (j % valNum src), valOk src u.lanes (j % valNum src), valPsn src u.lanes (j % valNum src) || scale.poison))
      (qcvtVal f p src scale.val) (qcvtLanes f p src toks scale).1 (qcvtLanes f p src toks scale).2) ∧
  (∀ (f : Fmt) (m : Nat) (e : Int), f = .e4m3 ∨ f = .e5m2 →
    let top : Nat := if f = .e4m3 then 448 else 57344
    (∀ pow2, m = 0 → qScaleFloat f pow2 m e = 0x3F800000) ∧
    (m ≠ 0 → ∃ k : Int, qScaleFloat f true m e = (clampI k (-126) 127 + 127).toNat * 2 ^ 23 ∧ Dy.absLe ⟨m, e⟩ ⟨top, k⟩ = true ∧ Dy.absLe ⟨m, e⟩ ⟨top, k - 1⟩ = false) ∧
    (m ≠ 0 → qScaleFloat f false m e = if Dy.absLe ⟨top, -126⟩ ⟨m, e⟩ = true then (fpRound .f32 2 false m top e).bits else 2 ^ 23)) ∧
  (∀ (f : Fmt) (hi lo : Fv), f = .a8 ∨ f = .a4 → hi.finite = true → lo.finite = true →
    let q : Nat := if f = .a8 then 255 else 15
    let span := hi.dy.add ⟨-lo.dy.m, lo.dy.e⟩
    ∃ (z : Int) (sc : Nat), qScaleAsym f hi lo = z.toNat * 65536 + sc ∧ 0 ≤ z ∧ z ≤ q ∧ 1 ≤ sc ∧ sc ≤ 0x7BFF ∧
      (span.m = 0 → sc = 0x3C00) ∧
      (span.m ≠ 0 → let r := fpRound .f16 2 false span.m.natAbs q span.e
        sc = (if r.ovf then 0x7BFF else max r.bits 1) ∧
        z = clampI (roundInt 0 (decide (0 < lo.dy.m)) lo.dy.m.natAbs (fvOf .f16 sc).dy.m.natAbs (lo.dy.e - (fvOf .f16 sc).dy.e)).1 0 q)) ∧
  (∀ (k : Nat) (x0 x1 x2 x3 k0 k1 : Elem),
    let y0 := (x0 * 0x9A3F27C5#32) ^^^ k0
    let y1 := (x1 * 0xE4C15B2D#32) ^^^ k1
    scree 0 (x0, x1, x2, x3) k0 k1 = (x0, x1, x2, x3) ∧
    scree (k + 1) (x0, x1, x2, x3) k0 k1 = scree k (x2 + y0.rotateLeft 13, x3 ^^^ y1.rotateLeft 19, y1, y0) (k0 + 0x6B43A9B5#32) (k1 + 0xD1B54A33#32) ∧
    (let w := scree 10 (x0, x1, x2, x3) k0 k1;
      (List.range 4).map (screeWord k0 k1 x0 x1 x2 x3) = [w.1, w.2.1, w.2.2.1, w.2.2.2]))

/-- The nodes of the MPE with B loaded in their format: MROW and MQROW by column, MREC's next row, MOUT's rows, and MLDB's swap of B (R401 to R406). -/
def Obligations.NodeMatrix : Prop :=
  ∀ (s : State) (x : Site) (n : NodeRec), s.site = some x →
    let f := n.fmt
    (∀ b, (s.tile x.tile).mpeB = some b → b.fmt = Rules.fmtCode f →
      let row := fun c => b.rows.getD c noLanes
      let pairs := fun (a : List Lane) c => ((List.range (valNum f)).filter fun k => valOk f a k).map fun k => (fvOf f (valAt f a k), fvOf f (valAt f (row c) k))
      let psn := fun (ls : List Lane) => ls.any fun l => l.valid && l.poison
      ((Instr.mrow n).WellFormed →
        let c := n.mod.getLsbD 0
        let a := x.opA n f
        ∃ lat lo hi fl, exec (.mrow n) s = .next (s.fires x n lat 1 [(0, (x.matOut n c lo).tok), (1, (x.matOut n c hi).tok)] fl) ∧ ∀ k, k < 32 →
          let acc := if c then (if k < 16 then laneAt (x.opB n .f32) k else laneAt x.opC (k - 16)) else Lane.on 0
          laneAt (if k < 16 then lo else hi) (k % 16) = mkLane (matrixRowSum (pairs a k) (fvOf .f32 acc.val.toNat)).1 acc.valid (psn a || psn (row k) || acc.poison)) ∧
      ((Instr.mqrow n).WellFormed →
        let gs := bK f / max 1 b.groups
        let g := field n.mod 1 0
        let a := x.opA n f
        let wa := laneAt (x.opB n f) 0
        (bK f ≤ g * gs → exec (.mqrow n) s = .next ((s.began x n).nodeFault x (x.rec0 s cScale 1))) ∧
        (g * gs < bK f → ∃ lat lo hi, exec (.mqrow n) s = .next (s.fires x n lat 1
            [(0, ({ x.matOut n false lo with scaled := false } : Out).tok), (1, ({ x.matOut n false hi with scaled := false } : Out).tok)] 0) ∧ ∀ k, k < 32 →
          (laneAt (if k < 16 then lo else hi) (k % 16)).valid = wa.valid ∧
          (wa.valid = true → (laneAt (if k < 16 then lo else hi) (k % 16)).val = BitVec.ofInt 32
            (((List.range gs).filter fun j => valOk f a (g * gs + j)).map fun j =>
              ((valAt f a (g * gs + j) : Int) - gwZero f wa.val) * ((valAt f (row k) (g * gs + j) : Int) - gwZero f (b.groupWord k g).val)).sum))) ∧
      ((Instr.mrec n).WellFormed → ∀ t, x.f.r = some t →
        let a := (x.f.l.map fun u => u.lanes).getD (List.replicate 16 (Lane.on 0))
        ∃ lat fl u, exec (.mrec n) s = .next (s.fires x n lat 1 [(0, u), (1, u)] fl) ∧ u.itag = t.itag ∧ u.flags.last = t.flags.last ∧ ∀ k, k < 32 →
          valOk f u.lanes k = valOk f t.lanes k ∧
          (valOk f t.lanes k = true → valAt f u.lanes k =
            (policy f 0 0 [] (fvOf .f32 (matrixRowSum (pairs a k) (fvOf f (valAt f t.lanes k))).1).ey).bits % 2 ^ Rules.fmtWidth f)) ∧
      ((Instr.mout n).WellFormed → ∃ lat, ∃ t : Nat → Token, exec (.mout n) s = .next (s.firesAt x n lat
          ((List.range (if n.mod.getLsbD 0 then 32 else b.rows.length)).flatMap fun k => [(0, k + 1, t k), (1, k + 1, t k)]) 0) ∧
        (n.mod.getLsbD 0 = false → ∀ k, k < b.rows.length → (t k).lanes = row k ∧ (t k).flags.last = decide (k + 1 = b.rows.length)) ∧
        (n.mod.getLsbD 0 = true → ∀ k j, k < 32 → j < 32 → valAt f (t k).lanes j = valAt f (row j) k ∧ (t k).flags.last = decide (k = 31)))) ∧
    (∀ o, o ∈ ([.mrow n, .mqrow n, .mrec n, .mout n] : List Instr) → ∀ b, (s.tile x.tile).mpeB = some b → b.fmt ≠ Rules.fmtCode f →
      exec o s = .next ((s.began x n).nodeFault x (x.rec0 s cScale 3))) ∧
    (∀ first rows start, x.f.begun = true → x.f.aux = [first, rows, 0, start] →
      (∀ g ∈ (s.tile x.tile).ready, g.pe = 17 → g.begun = true → g.aux.length = 4 → g.id = x.f.id ∨ start ≤ g.aux.getD 3 0) →
      let t := s.tile x.tile
      let b : MpeB := ⟨Rules.fmtCode f, (List.range rows).map fun k => (t.row (first + k)).lanes.map fun l => if l.valid then l else Lane.on 0⟩
      ∃ lat, exec (.mldb n) s = .next (((s.putTile x.tile { t with mpeB := some b }).countRead x n first).fires x n lat 0 (x.sends n (x.matOut n false noLanes)) 0))

/-- The polynomial nodes on an accumulator that is not lost: what each leaves in it, and the tokens of PPOUT (R408 to R416). -/
def Obligations.NodePolynomial : Prop :=
  ∀ (s : State) (x : Site) (n : NodeRec), s.site = some x →
    let a := x.acc s
    let leaves := fun (i : Instr) (s1 : State) (b : PolyAcc) => ∃ lat fl t, exec i s = .next ((s1.putAcc x b).fires x n lat 0 [(0, t), (1, t)] fl) ∧
      laneAt t.lanes 1 = Lane.on (BitVec.ofNat 32 b.count) ∧ laneAt t.lanes 2 = Lane.on (BitVec.ofInt 32 b.e) ∧ laneAt t.lanes 3 = Lane.on (BitVec.ofNat 32 b.d) ∧
      ((laneAt t.lanes 0).val.getLsbD 0 = b.trunc)
    let clear := s.putInst x { x.inst with buf := [] }
    (a.lost = true → ∀ i ∈ ([.ppset n, .ppmul n, .ppdiv n, .ppcmb n, .ppnrm n, .ppout n] : List Instr), exec i s = .next ((s.began x n).nodeFault x (x.rec0 s cAccLost 0))) ∧
    (a.lost = false →
      (n.mod.getLsbD 0 = false → leaves (.ppset n) s ⟨0x3F800000 :: List.replicate 63 0, 0, field n.lit 5 0, false, 0, false⟩) ∧
      ((∀ p ∈ factorsOf (field n.mod 1 0) (x.opA n .f32), p.2.2.1 = false) →
        leaves (.ppmul n) s ((factorsOf (field n.mod 1 0) (x.opA n .f32)).foldl (fun c p =>
          (c.mulFactor (factorTerms (field n.mod 1 0) p.1 p.2.1).1 (factorTerms (field n.mod 1 0) p.1 p.2.1).2.1).1) a)) ∧
      (factorsOf (field n.mod 1 0) (x.opA n .f32) = [] → leaves (.ppdiv n) s a) ∧
      (∀ p q e ps, factorsOf (field n.mod 1 0) (x.opA n .f32) = (p, q, false, e) :: ps →
        leaves (.ppdiv n) s (a.divFactor (factorTerms (field n.mod 1 0) p q).1 (factorTerms (field n.mod 1 0) p q).2.1).1) ∧
      leaves (.ppnrm n) s (a.rescale ((List.range (a.d + 1)).map a.dy) true).1 ∧
      (∀ t, x.f.l = some t →
        let ts := x.inst.buf ++ [t]
        (x.inst.buf.length < 4 → ∀ i, (i = .ppcmb n ∨ (i = .ppset n ∧ n.mod.getLsbD 0 = true)) →
          ∃ lat, exec i s = .next ((s.putInst x { x.inst with buf := ts }).fires x n lat 0 [] 0)) ∧
        let bs := boundStream ts
        (4 ≤ x.inst.buf.length →
          (∀ e m, poisonedElem bs = some (e, m) → ∃ r : FaultRec, r.code = cPoisonedOperand ∧ exec (.ppcmb n) s = .next ((clear.began x n).nodeFault x r)) ∧
          (poisonedElem bs = none → leaves (.ppcmb n) clear (if strmBad bs = true then a else (a.combine (strmAcc bs)).1)) ∧
          (n.mod.getLsbD 0 = true → poisonedElem ts = none → leaves (.ppset n) clear (if strmBad ts = true then a else loadAcc ts (field n.lit 5 0)))) ∧
        (∀ i k, k < 16 → (bs[i]?).map (fun u => laneAt u.lanes k) = (ts[i]?).map fun u =>
          if i < 4 ∧ (strmAcc ts).d < 16 * i + k then { laneAt u.lanes k with valid := false } else laneAt u.lanes k)) ∧
      (∃ lat fl, ∃ t : Nat → Token, exec (.ppout n) s = .next (s.firesAt x n lat ((List.range 5).flatMap fun k => [(0, k + 1, t k), (1, k + 1, t k)]) fl) ∧
        (n.mod.getLsbD 0 = false → fl = 0 ∧ ∀ j, j < 64 → laneAt (t (j / 16)).lanes (j % 16) = if j ≤ a.d then Lane.on (a.c.getD j 0) else Lane.off) ∧
        (∀ k, k < 5 → (t k).flags.last = decide (k = 4)) ∧ laneAt (t 4).lanes 1 = Lane.on (BitVec.ofNat 32 a.d) ∧
        laneAt (t 4).lanes 3 = Lane.on (BitVec.ofNat 32 a.count)))

/-- The memory nodes: the accesses LD, ST, LDG and STX lay out, their tokens once all have been performed, and XLAT's translated elements (R171, R419
to R421). -/
def Obligations.NodeMemory : Prop :=
  ∀ (s : State) (x : Site) (n : NodeRec), s.site = some x →
    let f := n.fmt
    let a := x.opA n .i64
    let b := x.opB n f
    let done := fun (i : Instr) (s1 : State) (o : Out) => ∃ lat fl, exec i s = .next (s1.fires x n lat 0 (x.sends n o) fl)
    let sized := fun (g : Nat) (e : Nat) (pa : Nat) (store : Bool) (bs : List Byte) (psn full : Bool) => layPhys e pa (elemSize f) store bs psn full g
    (∀ s1 as, x.f.begun = true → s.turnAccs x.rg.ctx x.who x.f.accs = .all s1 as →
      (∃ o, done (.ld n) (s1.noteErrs x.key as) (x.memOut n o) ∧ ∀ e ∈ rowUnits f, (laneAt o e).valid = (n.lit.getLsbD e && x.sel n e) ∧
        ((laneAt o e).valid = true → (laneAt o e).val = BitVec.ofNat 32 (leNat (laneBytes as e)) ∧ (laneAt o e).poison = lanePsn as e)) ∧
      (∃ o, done (.ldg n) (s1.noteErrs x.key as) (x.memOut n o) ∧ ∀ e ∈ rowUnits f, (laneAt o e).valid = ((laneAt b e).valid && x.sel n e) ∧
        ((laneAt o e).valid = true → (laneAt o e).val = BitVec.ofNat 32 (leNat (laneBytes as e)) ∧ (laneAt o e).poison = (lanePsn as e || (laneAt b e).poison))) ∧
      (∃ o : Out, done (.st n) (s1.noteErrs x.key as) o ∧ o.compl = true ∧ (laneAt o.lanes 0 = if (as.any fun p => p.err) then Lane.on 1 else Lane.on 0)) ∧
      (∃ o : Out, done (.stx n) (s1.noteErrs x.key as) o ∧ o.compl = true ∧ (laneAt o.lanes 0 = if (as.any fun p => p.err) then Lane.on 1 else Lane.on 0))) ∧
    (∀ pa, x.f.begun = false → s.roomOut x = true →
      (rowAddr f a false = .at pa →
        exec (.ld n) s = .next ((s.beginAccs x (((rowUnits f).filter fun e => n.lit.getLsbD e && x.sel n e).flatMap fun e => sized 1 e (pa + 4 * e) false [] false false) []).began x n)) ∧
      (rowAddr f a true = .at pa →
        let us := (rowUnits f).filter fun e => n.lit.getLsbD e && unitValid f b e && x.sel n e
        let full := decide (pa % 64 = 0 ∧ us = rowUnits f)
        us ≠ [] → exec (.st n) s = .next ((s.beginAccs x (us.flatMap fun e =>
          sized 1 e (pa + 4 * e) true (unitBytes f b e) (if full then us.any (unitPsn f b) else unitPsn f b e) full) []).began x n)) ∧
      (baseCheck a false = .at pa →
        let es := (rowUnits f).filter fun e => (laneAt b e).valid && x.sel n e && !(laneAt b e).poison
        es ≠ [] → idxFaults f (basePage a) pa b es = none →
        exec (.ldg n) s = .next ((s.beginAccs x (es.flatMap fun e => sized 0 e (idxAddr f pa b e).toNat false [] false false) []).began x n)) ∧
      (baseCheck a true = .at pa →
        let es := (rowUnits f).filter fun e => (laneAt b e).valid && !(laneAt b e).poison && x.sel n e
        let d := x.opC
        let ws := es.filter fun e => unitValid f d e && !es.any fun k => decide (e < k) && unitValid f d k && decide (idxAddr f pa b k = idxAddr f pa b e)
        ws ≠ [] → idxFaults f (basePage a) pa b es = none →
        exec (.stx n) s = .next ((s.beginAccs x (ws.flatMap fun e => sized 0 e (idxAddr f pa b e).toNat true (unitBytes f d e) (unitPsn f d e) false) []).began x n))) ∧
    (∀ rs s1, (Rules.fmtWidth f = 64) →
      s.xlatPairs (.tile x.tile) x.rg.ctx (if n.mod.getLsbD 0 then .write else .read)
        (((List.range 8).filter fun i => pairValid (x.opA n f) i && !pairPsn (x.opA n f) i && x.sel n (2 * i)).map fun i => (i, pairVal (x.opA n f) i)) [] = (rs, s1) →
      (∀ r ∈ rs, ∃ pa e, r.2 = .ok pa e) →
      ∃ o, done (.xlat n) s1 (x.memOut n o) ∧ ∀ i, i < 8 → pairValid o i = pairValid (x.opA n f) i ∧ (pairValid o i = true → pairPsn o i = pairPsn (x.opA n f) i) ∧
        ∀ pa e, (i, XRes.ok pa e) ∈ rs → pairVal o i = (mkTae pa e.size (e.w && !e.cow) false).toNat)

/-- The panel nodes: GET, GETR and RLS serve a panel and count the read, PUT stores a row and ends a panel (R142, R143, R423 to R425). -/
def Obligations.NodePanels : Prop :=
  ∀ (s : State) (x : Site) (n : NodeRec), s.site = some x →
    let done := fun (i : Instr) (s1 : State) (out : List (Nat × Token)) => ∃ lat, exec i s = .next (s1.fires x n lat 0 out 0)
    let t := s.tile x.tile
    (∀ first rows, x.f.begun = true → x.f.aux.take 3 = [first, rows, 0] → rows = x.f.row + 1 →
      (∃ o : Out, done (.getNode n) (s.countRead x n first) (x.sends n o) ∧ o.lanes = (t.row (first + x.f.row)).lanes ∧ o.last = true) ∧
      (∃ o : Out, done (.getr n) (s.countRead x n first) (x.sends n o) ∧ o.last = true ∧
        ∀ l, ((x.opB n .n32).filter fun m => m.valid)[x.f.row]? = some l → l.poison = false →
          o.lanes = if l.val.toNat < x.f.aux.getD 3 0 then (t.row (first + l.val.toNat)).lanes else noLanes)) ∧
    (x.f.begun = false → x.selected n = false → done (.getNode n) s (x.sends n (x.memOut n noLanes))) ∧
    (x.selected n = false → done (.rls n) s (x.sends n (x.memOut n noLanes))) ∧
    (∀ s1 st row, s.panelRead x n (fmtShape n) = .issued s1 st row →
      (x.selected n = true → done (.rls n) (s1.countRead x n row) (x.sends n (x.memOut n noLanes))) ∧
      (x.f.begun = false → x.selected n = true → exec (.getNode n) s = .next ((s1.putFiring x { x.f with st := .ready, begun := true, row := 0, aux := [row, st.rows, 0] }).began x n)) ∧
      (x.f.begun = false → ∀ aux, aux = [row, max 1 ((x.opB n .n32).filter fun l => l.valid).length, 0, st.rows] →
        exec (.getr n) s = .next ((s1.putFiring x { x.f with st := .ready, begun := true, row := 0, aux := aux }).began x n))) ∧
    (∀ tok row vec st, x.f.l = some tok → x.inst.name = some (row, vec) → tget t.stmts n.mod.toNat = some st →
      let e := t.slot row
      (e.held = true ∧ e.stmt = n.mod.toNat ∧ e.vec = vec ∧ e.st = .filling ∧ e.wnode = x.f.node) →
      let t1 := t.putRow row e.rcnt ⟨tok.lanes, tok.flags.scaled, tok.flags.mixed, tok.loff⟩
      (tok.flags.last = false → e.rcnt < st.rows →
        done (.putNode n) ((s.putTile x.tile (t1.putSlot row { e with rcnt := e.rcnt + 1 })).putInst x { x.inst with name := some (row, vec) }) []) ∧
      (tok.flags.last = true → e.rcnt + 1 = st.rows →
        done (.putNode n) ((s.putTile x.tile (t1.finishFill row)).putInst x { x.inst with name := none }) (x.sends n (x.complOut n []))) ∧
      ((if tok.flags.last then e.rcnt + 1 ≠ st.rows else st.rows ≤ e.rcnt) →
        ∃ r : FaultRec, exec (.putNode n) s = .next (((s.putTile x.tile (t.foldFault row)).began x n).nodeFault x r) ∧ r.code = cPanelShape ∧ r.reason = 0)) ∧
    (tget t.stmts n.mod.toNat = none → x.inst.name = none → ∀ tok, x.f.l = some tok →
      exec (.putNode n) s = .next ((s.began x n).nodeFault x (x.foldRec s n cUndeclared 0))) ∧
    (tget t.stmts n.mod.toNat = none → x.f.begun = false → x.selected n = true →
      exec (.getNode n) s = .next ((s.began x n).nodeFault x (x.foldRec s n cUndeclared 0)) ∧ exec (.getr n) s = .next ((s.began x n).nodeFault x (x.foldRec s n cUndeclared 0)) ∧
      exec (.rls n) s = .next ((s.began x n).nodeFault x (x.foldRec s n cUndeclared 0)))

/-- The heap nodes: a pair that the barrier has passed has its effect, and a firing whose pairs are all done sends its tokens; HNEW writes a
reference for each pair (R426 to R429). -/
def Obligations.NodeHeapAccesses : Prop :=
  ∀ (s : State) (x : Site) (n : NodeRec), s.site = some x →
    let a := x.opA n .ref
    let g := HeapFire.ofNums x.f.aux
    let done := fun (i : Instr) => ∃ lat fl, ∃ o : Out, exec i s = .next (s.fires x n lat 0 (x.heapSends n o x.f.healed) fl)
    let rest := fun (ps : List Nat) => ps.filter fun i => !g.done.testBit i
    (x.f.begun = true → 8 ≤ g.cur →
      (rest (x.refPairs n a) = [] → done (.hldNode n) ∧ done (.hpinNode n) ∧ done (.hunpinNode n)) ∧
      (rest ((x.refPairs n a).filter fun i => pairValid (if isPair n.fmt then x.opB n n.fmt else
          (List.range 16).map fun e => if e % 2 = 0 then laneAt (x.opB n n.fmt) e else { laneAt (x.opB n n.fmt) (e - 1) with val := 0 }) i) = [] → done (.hstNode n)) ∧
      (rest (((List.range 8).filter fun i => pairValid a i && pairValid (x.opB n .ref) i && x.sel n (2 * i)).filter fun i =>
          !pairPsn a i && !pairPsn (x.opB n .ref) i) = [] → done (.hcmpNode n))) ∧
    (∀ s1 ref hops pa data p es, x.f.begun = true → g.cur < 8 → g.right = false →
      s.heapTurn (.tile x.tile) x.rg.ctx x.who .load (field n.lit 15 0) (elemSize n.fmt) (List.take (elemSize n.fmt) (leBytes 8 0)) false g.job
        (x.f.accs.filter fun c => !(c.done && c.err && decide (c.len = 0))) = .done s1 ref hops pa data p es →
      ∃ e h, exec (.hldNode n) s = .next ((s1.heapErrs x.key es).keepHeap x (g.close g.cur) e (putField (isPair n.fmt) x.f.lanes g.cur data p) h .ready)) ∧
    ((x.refPairs n a).filter (fun i => decide (x.f.row ≤ i)) = [] → ∃ lat fl o, exec (.hnewNode n) s = .next (s.fires x n lat 0 (x.sends n (x.memOut n o)) fl)) ∧
    (∀ i is s1 ref, (x.refPairs n a).filter (fun i => decide (x.f.row ≤ i)) = i :: is →
      s.alloc (.tile x.tile) x.rg.ctx (laneAt a (2 * i)).val.toNat (field n.lit 15 0) (field n.lit 19 16) = .ok s1 ref →
      ∃ ls, exec (.hnewNode n) s = .next ((s1.putFiring x { x.f with st := .ready, begun := true, row := i + 1, lanes := ls }).began x n) ∧ pairVal ls i = ref.toNat)

/-- Cairns, belays, votes, traps, traces and error fences at a node (R195, R196, R198, R224, R235, R430 to R436, R446). -/
def Obligations.NodeSync : Prop :=
  (∀ (s : State) (x : Site) (n : NodeRec), s.site = some x →
    let gives := fun (i : Instr) (s1 : State) (out : List (Nat × Token)) (fl : BitVec 10) => ∃ lat, exec i s = .next (s1.fires x n lat 0 out fl)
    let faults := fun (i : Instr) (s1 : State) (r : FaultRec) => exec i s = .next ((s1.began x n).nodeFault x r)
    let t := x.fwd n
    let u := { t with flags := { t.flags with compl := true } }
    let both := fun (v : Token) => [(0, v), (1, v)]
    let a := x.opA n .n64
    let b := x.opB n .n64
    let usesA := n.mod.getLsbD 0
    let usesB := n.mod.getLsbD 1
    let k := if usesB then pairVal b 0 else field n.lit 19 0
    let v : Word := BitVec.ofNat 64 (if usesA then pairVal a 0 else field n.lit 31 20)
    let here := (usesA = true → pairValid a 0 = true) ∧ (usesB = true → pairValid b 0 = true)
    let psn := fun e => usesA && (laneAt a e).poison || usesB && (laneAt b e).poison
    (¬ here → gives (.caddNode n) s (both u) 0 ∧ gives (.cwaitNode n) s (both t) 0) ∧
    (here → (psn 0 || psn 1) = true → ∃ r : FaultRec, r.code = cPoisonedOperand ∧ r.elem = (if psn 0 then 0 else 1) ∧
      (∀ e, e < 16 → r.emask.getLsbD e = (decide (e < 2) && psn e)) ∧ faults (.caddNode n) s r ∧ (x.f.begun = false → faults (.cwaitNode n) s r)) ∧
    (here → (psn 0 || psn 1) = false →
      (2 ^ 20 ≤ k → ∃ r : FaultRec, r.code = cNoCairn ∧ r.elem = 0 ∧ r.emask = 3 ∧ faults (.caddNode n) s r ∧ (x.f.begun = false → faults (.cwaitNode n) s r)) ∧
      (k < 2 ^ 20 →
        gives (.caddNode n) (if (s.cairn.val k).toNat + v.toNat < 2 ^ 64 then s.cairnAdd k v else (s.cairnAdd k v).faultToken x.key (x.rec0 s cCairnOverflow 0)) (both u) 0 ∧
        (v.toNat ≤ (s.cairn.val k).toNat → gives (.cwaitNode n) s (both t) 0) ∧
        (x.f.begun = false → (s.cairn.val k).toNat < v.toNat → exec (.cwaitNode n) s =
          .next ((State.putFiring { s with cairn := { s.cairn with waits := s.cairn.waits ++ [(⟨k, v, x.who⟩ : CWait)] } } x { x.f with st := .cairn }).began x n)))) ∧
    (x.f.begun = true → gives (.cwaitNode n) s (both t) 0) ∧
    (let unm : BitVec 10 := if x.f.r.any fun w => !w.flags.permit then fUNM else 0;
      let belays := x.inst.buf2 ++ x.f.r.toList.filter fun w => w.flags.permit;
      let belay := fun (itag : BitVec 32) => (⟨0, 0, 0, .left, itag, noLoff, ⟨false, false, false, false, false, true⟩, noLanes, 0⟩ : Token);
      let queues := fun (cs bs : List Token) => s.putInst x { x.inst with buf := cs, buf2 := bs };
      let cs := x.inst.buf ++ x.f.l.toList;
      (n.lsrc = .token → (cs = [] ∨ belays = []) → gives (.bin n) (queues cs belays) [] unm) ∧
      (n.lsrc = .token → ∀ c cs' p bs', cs = c :: cs' → belays = p :: bs' → gives (.bin n) (queues cs' bs') [(0, c), (1, belay c.itag)] unm) ∧
      (n.lsrc ≠ .token → gives (.bin n) (s.putInst x { x.inst with buf2 := [] }) (belays.flatMap fun p => [(0, { t with itag := p.itag }), (1, belay p.itag)]) unm)) ∧
    (x.f.l = none → gives (.vote n) s (both t) 0) ∧
    (∀ w, x.f.l = some w →
      let before := x.inst.buf.filter fun y => decide (y.itag = w.itag)
      let held := s.putInst x { x.inst with buf := x.inst.buf ++ [w] }
      let gone := s.putInst x { x.inst with buf := x.inst.buf.filter (fun y => !decide (y.itag = w.itag)), buf2 := x.inst.buf2.filter fun y => !decide (y.itag = w.itag) }
      let odd := fun (c : Nat) => gone.faultToken x.key (x.faultRec s cVoteDisagree 0 0 0 0 (BitVec.ofNat 64 c) 0)
      (before = [] → gives (.vote n) held [] 0) ∧
      (∀ y, before = [y] → gives (.vote n) held (if agree y w then both w else []) 0) ∧
      (∀ y z zs, before = y :: z :: zs →
        (agree y z = true → agree y w = true → gives (.vote n) gone [] 0) ∧
        (agree y z = true → agree y w = false → gives (.vote n) (odd w.copy) [] 0) ∧
        (agree y z = false → agree y w = true → gives (.vote n) (odd z.copy) (both w) 0) ∧
        (agree y z = false → agree y w = false → agree z w = true → gives (.vote n) (odd y.copy) (both w) 0) ∧
        (agree y z = false → agree y w = false → agree z w = false → faults (.vote n) gone (x.rec0 s cNoMajority 0)))) ∧
    (x.selected n = false → gives (.trapNode n) s [] 0) ∧
    (x.selected n = true → ∃ r : FaultRec, r.code = cTrap ∧ r.reason = field n.lit 3 0 ∧ r.addr = 0 ∧ r.aux0 = 0 ∧ r.aux1 = 0 ∧
      (∀ e, e < 16 → r.emask.getLsbD e = ((laneAt (x.opA n n.fmt) e).valid && x.sel n e)) ∧
      (∀ e, e < 16 → r.emask.getLsbD e = true → r.elem ≤ e ∧ r.emask.getLsbD r.elem = true) ∧ faults (.trapNode n) s r) ∧
    ((x.dataToks n true).filterMap complErr = [] → gives (.efenceNode n) s (x.sends n (x.complOut n [])) 0) ∧
    (∀ e es, (x.dataToks n true).filterMap complErr = e :: es → ∃ r : FaultRec, r.code = cPendingError ∧ r.addr = BitVec.ofNat 64 (es.foldl min e) ∧
      faults (.efenceNode n) s r) ∧
    (∀ s1 m, s.traceOne x n t = (s1, m) → gives (.trace n) (s1.putInst x m) (both t) 0) ∧
    (∀ w r d, x.inst.loffs = [w, r, d] →
      let cap := 2 ^ field n.lit 3 0
      (x.ring n = none → s.traceOne x n t = (s, { x.inst with loffs := [w, r, d + 1] })) ∧
      (∀ pa r' s1, x.ring n = some pa → (if w - r < cap then (r, s) else s.traceRcnt x.rg.ctx pa) = (r', s1) →
        (∀ s2 s3, w - r' < cap → s1.traceStore x.rg.ctx (pa + 64 + 32 * (w % cap)) (x.traceRec t) = some s2 →
          s2.traceStore x.rg.ctx pa (leBytes 8 (w + 1)) = some s3 → s.traceOne x n t = (s3, { x.inst with loffs := [w + 1, r', d] })) ∧
        (∀ s2, (w - r' < cap → s1.traceStore x.rg.ctx (pa + 64 + 32 * (w % cap)) (x.traceRec t) = none) →
          s1.traceStore x.rg.ctx (pa + 16) (leBytes 8 (d + 1)) = some s2 → s.traceOne x n t = (s2, { x.inst with loffs := [w, r', d + 1] }))))) ∧
  (∀ (s : State) k v, (s.cairnAdd k v).cairn.val k = if (s.cairn.val k).toNat + v.toNat < 2 ^ 64 then s.cairn.val k + v else BitVec.allOnes 64) ∧
  (∀ a b : Token, agree a b = true ↔ a.itag = b.itag ∧ a.flags = b.flags ∧ a.lanes.length = b.lanes.length ∧ ∀ i, i < a.lanes.length →
    (laneAt a.lanes i).valid = (laneAt b.lanes i).valid ∧ (laneAt a.lanes i).poison = (laneAt b.lanes i).poison ∧
    ((laneAt a.lanes i).valid = true → (laneAt a.lanes i).val = (laneAt b.lanes i).val)) ∧
  (∀ t : Token, complErr t = if t.flags.compl = true ∧ (laneAt t.lanes 0).valid = true ∧ (laneAt t.lanes 0).val.getLsbD 0 = true then some (pairVal t.lanes 1) else none)

/-- The frame of a firing: its tokens and its end leave memory, cairns, the device's registers, links, queues, heaps, caches, parked regions and the
other regions as they are, and of a unit not replicated the mergers; so do the nodes that compute (R126, R130). -/
def Obligations.FiringFrame : Prop :=
  (∀ (s : State) (x : Site) (n : NodeRec) lat gap out fl, s.site = some x → x.quiet s →
    let t := s.fires x n lat gap out fl
    t.mem = s.mem ∧ t.cairn = s.cairn ∧ t.dev = s.dev ∧ t.link = s.link ∧ t.heap = s.heap ∧ t.caches = s.caches ∧ t.parked = s.parked ∧
    { t.host with splits := s.host.splits } = s.host ∧ (s.splitOf x.key x.f.bslot = none → t.host = s.host) ∧
    (∀ k, k ≠ x.key → tget t.regions k = tget s.regions k)) ∧
  (∀ (s : State) (x : Site) (n : NodeRec) i sb g h t, s.site = some x → x.quiet s → ((i, sb, g) ∈ arithmeticExact n ∨ (i, h) ∈ bitValues n) → exec i s = .next t →
    t.mem = s.mem ∧ t.cairn = s.cairn ∧ t.dev = s.dev ∧ t.link = s.link ∧ t.heap = s.heap ∧
    { t.host with splits := s.host.splits } = s.host ∧ (s.splitOf x.key x.f.bslot = none → t.host = s.host) ∧
    (∀ k, k ≠ x.key → tget t.regions k = tget s.regions k))

/-- A token sent to a node of the same instance, where neither end is in a TMR group, travels in a channel of the receiving tile, with the
latency and the distance of its way (R131, Table 5.7). -/
def Obligations.TokenTravels : Prop :=
  ∀ (s : State) (q : Src1) (n : NodeRec) (k : Nat) (p : Port) (m : BitVec 7) (tok : Token) (r : FaultRec),
    (if k = 0 then n.t0 else n.t1) = .node p m → tok.flags.last = false → q.blk.image.tmrOf q.node = none → q.blk.image.tmrOf m.toNat = none → q.copy = 0 →
    homeTile (instTiles q.rg q.blk q.tile) q.tile 0 = q.tile →
    ∀ pe slot, (s.tile q.tile).findNode q.rg.ctx q.bslot m.toNat 0 = some (pe, slot) →
    let t := s.emit q n k tok r
    (t.tile q.tile).chans = (s.tile q.tile).chans ++
      [(⟨{ tok with ctx := q.rg.ctx, bslot := q.bslot, node := m.toNat, port := p, copy := 0 }, arcOf q.tile q.bslot q.node 0 k,
        q.lat + (if q.pe = pe then 1 else 2), if q.pe = pe then 1 else 2, true, .node⟩ : ChanTok)] ∧
    (∀ j, j ≠ q.tile → t.tile j = s.tile j) ∧ t.mem = s.mem ∧ t.regions = s.regions ∧ t.cairn = s.cairn ∧ t.link = s.link

/-- A class-00 fault stops its node: a FAULT token leaves, the firing ends without a token, and no memory changes; another class keeps the firing
(R224, R226, R175). -/
def Obligations.NodeFaultStops : Prop :=
  ∀ (s : State) (x : Site) (f : FaultRec) (r : Region), tget s.regions x.key = some r → (x.blk.image.tmrOf x.f.node) = none →
    let t := s.nodeFault x f
    (∃ r', tget t.regions x.key = some r' ∧ r'.faultTokens = r.faultTokens ++ [f]) ∧ t.mem = s.mem ∧ t.cairn = s.cairn ∧
    (codeClass f.code = 0 →
      (∀ g ∈ (t.tile x.tile).ready, g.id ≠ x.f.id) ∧ (t.tile x.tile).chans = (s.tile x.tile).chans ∧
      ∀ m, (s.tile x.tile).inst x.f.pe x.f.slot = some m → (t.tile x.tile).inst x.f.pe x.f.slot = some { m with stopped := true }) ∧
    (codeClass f.code = 1 → ∀ g ∈ (t.tile x.tile).ready, g.id = x.f.id → g.st = .minor)

/-! ### Events of the package (R11 to R25, R58 to R71) -/

/-- Power, temperature, freeze, reset, the test port and the state dump, each as it has its effect (R11, R14 to R25). -/
def Obligations.PackageEvents : Prop :=
  ∀ s : State,
    (∀ watts, let xs := (watts :: s.dev.powerSamples).take powerWindow
      ∃ t, exec (.powerSample watts) s = .next t ∧ t.dev.powerSamples = xs ∧
        (t.dev.powerLimit = s.dev.powerLimit ∨ (1000 ≤ t.dev.powerLimit ∧ t.dev.powerLimit ≤ 2200)) ∧
        if t.dev.powerLimit * xs.length < xs.sum then t.dev.powerSteps = min 8 (s.dev.powerSteps + 1) else t.dev.powerSteps ≤ s.dev.powerSteps) ∧
    (∀ temps inlet flow, ∃ t, exec (.thermalSample temps inlet flow) s = .next t ∧
      (∀ p, p < 16 → p < temps.length → let old := tgetD s.dev.thermSteps p 0
        tgetD t.dev.thermSteps p 0 = if 100 ≤ temps.getD p 0 then min 8 (old + 1) else if temps.getD p 0 < 95 then 0 else old) ∧
      (∀ p, p < temps.length → let old := tgetD s.dev.hotTime p 0
        tgetD t.dev.hotTime p 0 = if 110 ≤ temps.getD p 0 then old + 1 else if 10 ≤ old then old else 0) ∧
      (40 < inlet ∨ flow < 18 → .coolant ∈ t.dev.reports)) ∧
    (s.dev.hot = true → bitAt s.dev.frzstat 31 = true → ∃ t, exec .thermalTrip s = .next t ∧ bitAt t.dev.frzstat 28 = true ∧ t.dev.thermtripN = false ∧ t.dev.railsOff = true) ∧
    (bitAt s.dev.frzstat 31 = false → s.dev.freezePending = none → s.dev.resetSeq = none →
      (s.dev.hot = true → ∃ t, exec .thermalTrip s = .next t ∧ t.dev.freezePending = some (3, s.now)) ∧
      (∀ periods, 2 ≤ periods → ∃ t, exec (.freezeTrigger periods) s = .next t ∧ t.dev.freezePending = some (1, s.now))) ∧
    (∀ src c lag, s.dev.freezePending = some (src, c) → 1 ≤ lag → lag ≤ 64 → (s.dev.resetSeq = none → c + lag = s.now) → ∃ t, exec (.clockStop lag) s = .next t ∧
      bitAt t.dev.frzstat 31 = true ∧ field t.dev.frzstat 30 29 = src % 4 ∧ field t.dev.frzstat 15 0 = lag ∧
      (src = 3 ∨ s.dev.hot = true → t.dev.railsOff = true ∧ bitAt t.dev.frzstat 28 = true) ∧
      t.mem = s.mem ∧ t.regions = s.regions ∧ t.tiles = s.tiles ∧ t.cairn = s.cairn) ∧
    (∀ src c lag, s.dev.freezePending = some (src, c) → s.dev.resetSeq = none → c + lag ≠ s.now → exec (.clockStop lag) s = .next s) ∧
    (s.dev.resetSeq = none → (∃ t, exec .coldReset s = .next t ∧ t.dev.resetSeq = some 1 ∧ t.dev.warm = false ∧ t.dev.pwrok = true) ∧
      (s.dev.railsOff = false → ∃ t, exec .warmReset s = .next t ∧ t.dev.resetSeq = some 4 ∧ t.dev.warm = true ∧ t.dev.frzstat = 0 ∧ t.mem = s.mem) ∧
      (s.dev.railsOff = true → exec .warmReset s = .next s)) ∧
    (∀ i, (i, s.dev.warm) ∈ [(Instr.coldReset, false), (Instr.warmReset, true)] →
      (∀ n, n ∈ [1, 2, 3, 5] → s.dev.resetSeq = some n → ∃ t, exec i s = .next t ∧ t.dev.resetSeq = some (n + 1) ∧ t.mem = s.mem ∧ t.link = s.link) ∧
      (s.dev.resetSeq = some 4 → ∃ t, exec i s = .next t ∧ t.dev.resetSeq = some 5 ∧ t.regions = [] ∧ t.tiles = [] ∧ t.host = State.reset.host ∧
        t.cairn = State.reset.cairn ∧ t.caches = State.reset.caches ∧ t.mem.cells = (if s.dev.warm then s.mem.cells else []) ∧
        t.mem.poison = (if s.dev.warm then s.mem.poison else []) ∧ t.dev.devSet = false ∧ t.dev.powerLimit = 2200 ∧ t.dev.freezePending = s.dev.freezePending ∧ ∀ x ∈ t.link.txns, s.dev.warm = true ∧ x.survived = true) ∧
      (s.dev.resetSeq = some 6 → ∃ t, exec i s = .next t ∧ t.dev.resetSeq = none ∧ t.dev.featen = Config.featav)) ∧
    (∀ n, s.dev.resetSeq = some n → ∃ t, exec .resetRestart s = .next t ∧ t.dev.resetSeq = some (if s.dev.warm then 4 else 1)) ∧
    (∃ t, exec .bypass s = .next t ∧ t.dev.testIr = 0x3F#6 ∧ t.dev.testBypass = false) ∧
    (∀ pins, ∃ t, exec (.samplePreload pins) s = .next t ∧ t.dev.testPins = pins ∧ t.mem = s.mem) ∧
    (∀ pins, ∃ t, exec (.extest pins) s = .next t ∧ t.dev.testPins = pins ∧ t.mem = s.mem) ∧
    (∃ t, exec .idcode s = .next t ∧ t.dev.testData = BitVec.ofNat 64 Config.idcode.toNat) ∧
    (∀ a, ∃ t, exec (.statedump a true) s = .next t ∧ t.dev.testIr = 0x2C#6 ∧ t.dev.testAddr = a ∧ t.dev.testData = s.dev.testData ∧ t.mem = s.mem) ∧
    (∀ a, ∃ t u, exec (.statedump a false) s = .next t ∧ exec .dumpdataRead s = .next u ∧ t.dev.testAddr = a ∧
      t.dev.testData = (if bitAt s.dev.frzstat 31 then s.dumpWord a else 0) ∧
      u.dev.dumpdata = (if bitAt s.dev.frzstat 31 then s.dumpWord s.dev.dumpaddr else 0) ∧ t.mem = s.mem ∧ u.mem = s.mem)

/-- Management commands and register writes: one that is taken has its effect, a command met while BUSY and a write of another width are
discarded (R24, R58 to R62, R66, R71). -/
def Obligations.ManagementEvents : Prop :=
  (∀ (s s1 : State) v vs, s.dev.mgmtIn = v :: vs → s1 = s.mgmtTaken vs →
    (bitAt s.dev.mgmtstat 31 = true → ∀ i ∈ [Instr.freezeCmd, .warmresetCmd, .contCmd, .malformedCommand], exec i s = .next s1) ∧
    (bitAt s.dev.mgmtstat 31 = false →
      (bitAt s.dev.frzstat 31 = false → s.dev.freezePending = none → s.dev.resetSeq = none →
        ∃ t, exec .freezeCmd s = .next t ∧ t.dev.freezePending = some (2, s.now) ∧ t.dev.mgmtstat = 0) ∧
      (s.dev.railsOff = false → (s.dev.resetSeq = none ∨ s.dev.warm = true) → ∃ t, exec .warmresetCmd s = .next t ∧ t.dev.resetSeq = some 4 ∧ t.dev.warm = true ∧ t.dev.mgmtstat = 0) ∧
      (∀ n, s.dev.resetSeq = some n → s.dev.warm = false → ∃ t, exec .warmresetCmd s = .next t ∧ t.dev.resetSeq = some n ∧ t.dev.warm = false) ∧
      (∀ r, bitAt s.dev.frzstat 31 = false → tget s.regions (coreKey (field v 55 52) (field v 51 49)) = some r →
        (r.run = .brk → ∃ t, exec .contCmd s = .next t ∧ t.dev.mgmtstat = 0 ∧ tget t.regions (coreKey (field v 55 52) (field v 51 49)) = some { r with run := .running }) ∧
        (r.run ≠ .brk → ∃ t, exec .contCmd s = .next t ∧ t.dev.mgmtstat = 2 ∧ t.regions = s.regions)) ∧
      (bitAt s.dev.frzstat 31 = true → ∃ t, exec .contCmd s = .next t ∧ t.dev.mgmtstat = 3 ∧ t.regions = s.regions) ∧
      ∃ t, exec .malformedCommand s = .next t ∧ t.dev.mgmtstat = 1 ∧ t.regions = s.regions)) ∧
  (∀ (s s1 : State) i a, s.nextAccess i a → s1 = s.regTaken i a →
    (¬ (regWidth a.off = a.width ∧ a.width ≠ 0) → ∀ k ∈ [Instr.registerWrite, .devnumWrite, .featenWrite, .lqctlWrite, .scqctlWrite],
      exec k s = .next { s1 with dev := { s1.dev with herr := if a.fabric then min (s.dev.herr + 1) 4095 else s.dev.herr } }) ∧
    (regWidth a.off = a.width → a.width ≠ 0 →
      exec .registerWrite s = .next (s1.regWrite a.off a.val) ∧
      (a.off ∉ [0x0, 0xC, 0x80, 0x2808] → ¬ (0x2000 ≤ a.off ∧ a.off < 0x2800 ∧ a.off % 32 = 8) → s1.regWrite a.off a.val = s1.writePlain a.off a.val) ∧
      (∃ t, exec .devnumWrite s = .next t ∧ t.dev.devSet = true ∧ t.dev.devNum = if s.dev.devSet then s.dev.devNum else a.val.toNat % 4096) ∧
      (∃ t, exec .featenWrite s = .next t ∧ t.dev.featen = if s.host.ctxs.isEmpty then BitVec.ofNat 32 a.val.toNat &&& Config.featav else s.dev.featen) ∧
      (let q := (a.off - 0x2000) / 32
        ∃ t, exec .lqctlWrite s = .next t ∧ t.host.queue q = (s.host.queue q).writeCtl a.val lqMask s.cairn ∧ ∀ k, k ≠ q → t.host.queue k = s.host.queue k) ∧
      ∃ t, exec .scqctlWrite s = .next t ∧ t.host.scq = s.host.scq.writeCtl a.val scqMask s.cairn ∧ t.host.lq = s.host.lq)) ∧
  (∀ (q : LQueue) v mask c, (mask = lqMask ∨ mask = scqMask) → bitAt q.ctl 63 = false →
    let n := q.writeCtl v mask c
    n.base = q.base ∧ (bitAt n.ctl 63 = true ↔ bitAt v 63 = true ∧ field v 53 50 ≤ 10) ∧
    (bitAt n.ctl 63 = true → n.head = 0 ∧ n.origin = some (c.val (field v 19 0)).toNat ∧ n.marks = [] ∧ field n.ctl 19 0 = field v 19 0)) ∧
  (∀ (s : State) v, (s.writePlain 0x90 v).dev.dumpaddr = v ∧ (s.writePlain 0x3800 v).dev.hsel = BitVec.ofNat 32 (v.toNat / 2 ^ 10 * 2 ^ 10) ∧
    (s.writePlain 0x3900 v).dev.dsel = BitVec.ofNat 32 (v.toNat / 2 ^ 18 * 2 ^ 18) ∧ s.writePlain 0x8 v = s ∧ s.writePlain 0x40 v = s ∧ s.writePlain 0x88 v = s ∧
    (∀ p, p < 36 → ((s.writePlain (0x1000 + 16 * p) v).link.port p).lfault = ((s.link.port p).lfault && !bitAt v 29)) ∧
    (∀ q, q < 64 → ((s.writePlain (0x2000 + 32 * q) v).host.queue q).base =
      if bitAt (s.host.queue q).ctl 63 then (s.host.queue q).base else (v &&& 0xFFFFFFFFC0#64).toNat))

/-! ### Links (R28 to R46, R50 to R61, R195, R223) -/

/-- Ports that train, fault and fall idle, routes, classes and retries (R28, R33 to R35, R39, R40, R46, R55 to R57). -/
def Obligations.LinkEvents : Prop :=
  ∀ s : State,
    (∀ port lo hi, port < 36 → ∃ t, exec (.portTrained port lo hi) s = .next t ∧ (t.link.port port).up = (lo || hi) ∧ (t.link.port port).degr = (lo != hi) ∧
      ∀ p, p ≠ port → t.link.port p = s.link.port p) ∧
    (∀ port cause, port < 36 → exec (.linkFault port cause) s = .next (s.linkFault port)) ∧
    (∀ port, s.link.reqs = [] → s.link.txns = [] → (∀ e ∈ s.regions, e.2.engines = []) →
      let t := s.linkFault port
      (t.link.port port).up = false ∧ (t.link.port port).lfault = true ∧ (t.link.port port).buffer = [] ∧ (t.link.port port).tokens = [] ∧
      (∀ f ∈ t.link.rx, f.port ≠ port) ∧ (∀ h ∈ t.link.held, h.flit.port ≠ port) ∧ Report.linkFault port ∈ t.dev.reports ∧ port ∈ t.link.avoid ∧ ∀ p, p ≠ port → t.link.port p = s.link.port p) ∧
    (∀ q : Req, q.typ = 1 → q.caught = if q.lost.isSome then 3 else 1) ∧
    (∀ q : Req, (q.typ = 2 ∨ q.typ = 6) → q.caught = 2) ∧
    (∀ mdie dev port, let p := mdie * 9 + port
      s.link.avoid.contains p = true → (s.link.reqs.any (s.holdsPort mdie dev port)) = false →
      ∃ t, exec (.routeRehash mdie dev port) s = .next t ∧ port ∉ tgetD t.link.routes (mdie * 4096 + dev) [] ∧
        (∀ k, k ≠ mdie * 4096 + dev → tgetD t.link.routes k [] = tgetD s.link.routes k []) ∧ ∀ k ∈ t.link.avoid, k ∈ s.link.avoid) ∧
    (∀ mdie dev port q, q ∈ s.link.reqs → q.typ ≠ 15 → (q.port = mdie * 9 + port ∨ q.lost = some (mdie * 9 + port)) → exec (.routeRehash mdie dev port) s = .next s) ∧
    (∀ port, (s.link.port port).up = true → exec (.idleNullTimer port) s = .next (s.sendNull port)) ∧
    (∀ port sdev ctx, ((s.link.port port).classes.any fun c => decide (c.sdev = sdev ∧ c.ctx = ctx ∧ c.last + 153600 ≤ s.now)) = true → s.classBusy port sdev ctx = false →
      ∃ t, exec (.classReleaseTimer port sdev ctx) s = .next t ∧ (t.link.port port).classes = (s.link.port port).classes.filter fun c => decide (c.sdev ≠ sdev ∨ c.ctx ≠ ctx)) ∧
    (∀ tag q s1, (s.link.reqs.find? fun q => decide (q.tag = tag ∧ q.typ ≠ 5 ∧ q.typ ≠ 15) && q.retry) = some q → s.send q.dev q.addr q.typ q.ctx q.body = .ok s1 →
      ∃ t, exec (.waitRetryTimer tag) s = .next t ∧ t.link.tx = s1.link.tx ∧ ∃ p, t.link.reqs = s1.link.reqs.map fun r => if r = q then { r with retry := false, port := p } else r) ∧
    (∀ frame dev, let a := frame * 65536
      let f := s.mem.frame a
      a < Config.memBytes → s.dev.devSet = true → dev ≠ s.dev.devNum → dev < 0xFFF → f.fwd = none → s.frameStaged a = false → s.openBuffer a = false → f.frozen = false →
      (f.moves < 3 → ∃ g, g / 2 ^ 40 = dev ∧ g % 65536 = 0 ∧
        let s1 := { s with draws := s.draws + 1, mem := s.mem.putFrame a { f with fwd := some g, moves := f.moves + 1 } }
        (∀ s2, s.host.ctxs.foldl (fun (o : Option State) e => o.bind fun s' => s'.remap e.1 (s.dev.devNum * 2 ^ 40 + a) g) (some s1) = some s2 →
          exec (.pageMove frame dev) s = .next (s2.pgmigUp (homeDie a) true)) ∧
        (s.host.ctxs.foldl (fun (o : Option State) e => o.bind fun s' => s'.remap e.1 (s.dev.devNum * 2 ^ 40 + a) g) (some s1) = none → exec (.pageMove frame dev) s = .next s)) ∧
      (3 ≤ f.moves → ∃ t, exec (.pageMove frame dev) s = .next t ∧ (t.mem.frame a).frozen = true ∧ (t.mem.frame a).fwd = none ∧ t.mem.cells = s.mem.cells)) ∧
    (∀ m move, m < 4 → let r := tgetD s.dev.pgmig m 0
      let r' := tgetD (s.pgmigUp m move).dev.pgmig m 0
      field r' 31 16 = (if move then min 65535 (field r 31 16 + 1) else field r 31 16) ∧ field r' 15 0 = if move then field r 15 0 else min 65535 (field r 15 0 + 1))

/-- Received flits: one that the link refuses, one for another device, and what each type does with one for this device (R31 to R33, R45, R46, R60,
R195, R223). -/
def Obligations.FlitEvents : Prop :=
  (∀ (s : State) i typ op f rest, (i, typ, op) ∈ ([(.nullFlit, 0, 0), (.rdreq, 1, 0), (.wrreq, 2, 0), (.rdrsp, 3, 0), (.wrack, 4, 0), (.tokenFlit, 5, 0),
      (.cairnAdd, 6, 1), (.cairnWait, 6, 2), (.cairnRead, 6, 3), (.xstage, 7, 0), (.prepareTxn, 8, 1), (.readyTxn, 8, 2), (.commitTxn, 8, 3), (.abortTxn, 8, 4),
      (.doneTxn, 8, 5), (.queryTxn, 8, 6), (.keepTxn, 8, 7), (.classBind, 9, 1), (.classRelease, 9, 2), (.greply, 10, 0), (.hopReadHeader, 11, 1),
      (.hopPin, 11, 2), (.hopUnpin, 11, 3), (.hopWait, 11, 4)] : List (Instr × Nat × Nat)) → s.link.rx = f :: rest →
    s.heldFor typ op = [] → let s0 : State := { s with link := { s.link with rx := rest } }
    ((s.link.port f.port).up = false → exec i s = .next s0) ∧
    ((s.link.port f.port).up = true → (Decode.flitOk f = false ∨ f.hdr.seq.toNat ≠ (s.link.port f.port).expect) → exec i s = .next (s0.askReplay f.port)) ∧
    ((s.link.port f.port).up = true → Decode.flitOk f = true → f.hdr.seq.toNat = (s.link.port f.port).expect → f.hdr.typ.toNat = typ →
      (op = 0 ∨ Decode.bodyNum f.body 0 0 = op) → (s0.acceptFlit f).forMe f = false → exec i s = .next ((s0.acceptFlit f).served (s0.acceptFlit f) f))) ∧
  (∀ (s s1 : State) f, s.delivers s1 f 0 0 → (s1.link.port f.port).buffer = [] → exec .nullFlit s = .next (s1.served s1 f)) ∧
  (∀ (s : State) mask, let m := s.partNow true mask 0
    (m = mask ∨ m = mask % 2 ^ 32 ∨ m = mask / 2 ^ 32 * 2 ^ 32) ∧ (mask % 2 ^ 32 = 0 ∨ mask / 2 ^ 32 = 0 → m = mask)) ∧
  (∀ (s s1 : State) f, s.delivers s1 f 1 0 →
    let ctx := f.hdr.ctx.toNat
    let t := s1.homeOf ctx (flitAddr f)
    let mask := Decode.bodyNum f.body 64 71
    let s2 := s1.seeTime (Decode.bodyNum f.body 72 77)
    let m := s2.partNow true mask 0
    s2.ours t = true → localOf t < Config.memBytes →
      let s3 : State := { s2.drawn with mem := s2.mem.stampLoad (localOf t) }
      (m = mask → exec .rdreq s = .next ((s3.putFlit f.port 3 f.hdr.sdev.toNat ctx
        (memBody (maskBytes mask (s2.mem.read (localOf t) 64)) mask s3.mem.pts (flitAddr f) (s2.mem.poisoned (localOf t)))).served s1 f)) ∧
      (m ≠ mask → exec .rdreq s = .next { s3 with link := { s3.link with held := s3.link.held ++
        [⟨f, s1.poolPlace f, m, maskBytes m (s2.mem.read (localOf t) 64), s2.mem.poisoned (localOf t)⟩] } })) ∧
  (∀ (s s1 : State) f, s.delivers s1 f 2 0 →
    let ctx := f.hdr.ctx.toNat
    let t := s1.homeOf ctx (flitAddr f)
    let mask := Decode.bodyNum f.body 64 71
    let psn := (Decode.bodyNum f.body 78 83).testBit 47
    let s2 := s1.seeTime (Decode.bodyNum f.body 72 77)
    let m := s2.partNow true mask 0
    s2.ours t = true → localOf t < Config.memBytes → (s2.mem.frame (localOf t)).cow = false →
      let s3 := s2.drawn.writeSector (localOf t) m 0 mask (f.body.take 64) psn true
      s3.mem = ((s2.mem.storeMasked (localOf t) (f.body.take 64) (BitVec.ofNat 64 m) ⟨psn, true, true, decide (mask = 2 ^ 64 - 1), decide (m = mask)⟩).1).stampStore (localOf t) ∧
      (m = mask → exec .wrreq s = .next ((s3.putFlit f.port 4 f.hdr.sdev.toNat ctx (memBody (List.replicate 64 0) mask s3.mem.pts (flitAddr f) false)).served s1 f)) ∧
      (m ≠ mask → exec .wrreq s = .next { s3 with link := { s3.link with held := s3.link.held ++ [⟨f, s1.poolPlace f, m, List.replicate 64 0, false⟩] } })) ∧
  (∀ (s s1 : State) f typ i, (typ, i) ∈ [(1, Instr.rdrsp), (2, Instr.wrack)] → s.delivers s1 f (typ + 2) 0 →
    (∀ q, s1.reqFor typ f.hdr.sdev.toNat f.hdr.ctx.toNat (flitAddr f) = some q → exec i s = .next ((s1.deliverMem q f.body).served s1 f)) ∧
    (s1.reqFor typ f.hdr.sdev.toNat f.hdr.ctx.toNat (flitAddr f) = none → exec i s = .next (s1.served s1 f))) ∧
  (∀ (s s1 : State) f, s.delivers s1 f 5 0 →
    let t := Token.ofBytes f.body
    let p := s1.link.port f.port
    (∀ s2, (∀ u ∈ p.tokens, remoteSrc u.tok ≠ remoteSrc t) → s1.landToken t = some s2 → exec .tokenFlit s = .next (s2.served s1 f)) ∧
    ((∃ u ∈ p.tokens, remoteSrc u.tok = remoteSrc t) ∨ s1.landToken t = none →
      exec .tokenFlit s = .next { s1 with link := s1.link.putPort f.port { p with tokens := p.tokens ++ [⟨f.hdr.sdev.toNat, s1.poolPlace f, t⟩] } })) ∧
  (∀ (s s1 : State) f op i, (op, i) ∈ [(1, Instr.cairnAdd), (2, .cairnWait), (3, .cairnRead)] → s.delivers s1 f 6 op →
    let k := flitCairn f
    let v := s1.cairn.val k
    let x := flitOperand f
    let reply := fun (s2 : State) status => (s2.putFlit f.port 10 f.hdr.sdev.toNat f.hdr.ctx.toNat
      (greplyBody 1 status (flitTag f) (s2.cairn.flag k) (s2.cairn.val k) 0 0 s2.mem.pts)).served s1 f
    let s2 := s1.seeTime (flitTs f)
    (op = 1 → v.toNat + x.toNat < 2 ^ 64 → ∃ s3 : State, exec i s = .next (reply s3 0) ∧ s3.cairn.val k = v + x) ∧
    (op = 1 → 2 ^ 64 ≤ v.toNat + x.toNat → ∃ s3 : State, exec i s = .next (reply s3 3) ∧ s3.cairn.val k = BitVec.allOnes 64 ∧ Report.cairnOverflow k ∈ s3.dev.reports) ∧
    (op = 2 → x.toNat ≤ v.toNat → exec i s = .next (reply s2 0)) ∧
    (op = 2 → v.toNat < x.toNat → 4096 ≤ s1.remoteWaits (k % 4) → exec i s = .next (reply s2 1)) ∧
    (op = 2 → v.toNat < x.toNat → s1.remoteWaits (k % 4) < 4096 → ∃ t w, exec i s = .next t ∧ t.cairn.waits = s1.cairn.waits ++ [w] ∧ w.cairn = k ∧ w.thresh = x) ∧
    (op = 3 → exec i s = .next (reply s2 0))) ∧
  (∀ (s s1 : State) f, s.delivers s1 f 10 0 →
    let q := s1.link.reqs.find? fun q => decide (q.typ = (if Decode.bodyNum f.body 0 0 = 1 then 6 else 11) ∧ q.dev = f.hdr.sdev.toNat ∧ q.tag = flitTag f)
    (q = none → exec .greply s = .next (s1.served s1 f)) ∧
    (∀ r, q = some r → Decode.bodyNum f.body 1 1 ≠ 1 → exec .greply s = .next ((s1.deliverReply r f.body).served s1 f)) ∧
    (∀ r, q = some r → Decode.bodyNum f.body 1 1 = 1 → exec .greply s = .next (State.served { s1 with link := { s1.link with
      reqs := s1.link.reqs.map fun u => if u = r then { u with retry := true } else u } } s1 f))) ∧
  (∀ (s s1 : State) f op i, (op, i) ∈ [(1, Instr.hopReadHeader), (2, .hopPin), (3, .hopUnpin), (4, .hopWait)] → s.delivers s1 f 11 op →
    let ctx := f.hdr.ctx.toNat
    let t := s1.target ctx (Decode.bodyNum f.body 8 13 * 16)
    let a := localOf t
    let s2 := s1.seeTime (flitTs f)
    s2.isLocal t = true →
    (Config.memBytes ≤ a → exec i s = .next ((s2.putFlit f.port 10 f.hdr.sdev.toNat ctx (greplyBody 2 6 (flitTag f) false 0 0 0 s2.mem.pts)).served s1 f)) ∧
    (a < Config.memBytes →
      (op = 1 ∨ (op = 4 ∧ hdrState (s1.mem.word a) ≠ 2) →
        exec i s = .next ((State.heapReply { s2 with mem := s2.mem.stampLoad a } f.port f.hdr.sdev.toNat ctx (flitTag f) 0 a).served s1 f)) ∧
      (op = 4 → hdrState (s1.mem.word a) = 2 → ∃ u q, exec i s = .next u ∧ u.link.reqs = s1.link.reqs ++ [q] ∧ q.typ = 15 ∧ q.addr = a ∧ q.tag = flitTag f) ∧
      (op = 2 ∨ op = 3 → match s2.pinFor ctx a (decide (op = 2)) with
        | .done u st b => exec i s = .next ((State.heapReply u f.port f.hdr.sdev.toNat ctx (flitTag f) st b).served s1 f)
        | .stand => ∃ u q, exec i s = .next u ∧ u.link.reqs = s1.link.reqs ++ [q] ∧ q.typ = 15 ∧ q.addr = a ∧ q.tag = flitTag f
        | .keep => exec i s = .next (s1.keeps f)))) ∧
  (∀ (s s1 : State) f, s.delivers s1 f 9 1 →
    let p := s1.link.port f.port
    let sdev := f.hdr.sdev.toNat
    let ctx := Decode.bodyNum f.body 2 3
    let others := p.classes.filter fun c => decide (c.sdev ≠ sdev ∨ c.ctx ≠ ctx)
    ∃ t, exec .classBind s = .next t ∧
      if 256 ≤ (others.filter fun c => decide (c.sdev ≠ s1.ownNum)).length then (t.link.port f.port).norsv = min 255 (p.norsv + 1) ∧ (t.link.port f.port).classes = p.classes
      else (t.link.port f.port).classes = others ++ [⟨sdev, ctx, Decode.bodyNum f.body 4 4, s1.now⟩]) ∧
  (∀ (s s1 : State) f, s.delivers s1 f 9 2 → ∃ t, exec .classRelease s = .next t ∧
    (t.link.port f.port).classes = (s1.link.port f.port).classes.filter fun c => decide (c.sdev ≠ f.hdr.sdev.toNat ∨ c.ctx ≠ Decode.bodyNum f.body 2 3))

/-! ### Transactions, the host, dispatch (R47 to R54, R60 to R109, R161, R304, R348 to R350) -/

/-- Transaction flits and timers at a target and at the coordinator (R47 to R54, R350). -/
def Obligations.TransactionEvents : Prop :=
  (∀ (s s1 : State) f, s.delivers s1 f 7 0 →
    let g : Staged := ⟨f.hdr.ctx.toNat, localOf (flitAddr f), f.body.take 64, BitVec.ofNat 64 (Decode.bodyNum f.body 64 71), (Decode.bodyNum f.body 78 83).testBit 47⟩
    (∀ s2, s1.stage (stageCdev f) (stageXid f) g = some s2 → exec .xstage s = .next ((s2.readyCheck f (stageCdev f) (stageXid f)).served s1 f)) ∧
    (s1.stage (stageCdev f) (stageXid f) g = none →
      exec .xstage s = .next (((s1.dropStaging (stageCdev f) (stageXid f)).answerXctl f 4 3 (stageCdev f) (stageXid f)).served s1 f))) ∧
  (∀ (s s1 : State) f, s.delivers s1 f 8 1 → ∀ t, s1.staging (xctlCdev f) (xctlXid f) = some t →
    ∃ u : State, exec .prepareTxn s = .next ((u.readyCheck f (xctlCdev f) (xctlXid f)).served s1 f) ∧
      u.staging (xctlCdev f) (xctlXid f) = some { t with need := some (xctlCount f), seen := s1.now }) ∧
  (∀ (s : State) f cdev xid t, s.staging cdev xid = some t → t.ready = false →
    (t.need = some t.sectors.length → ∃ u : State, s.readyCheck f cdev xid = u.answerXctl f 2 0 cdev xid ∧ u.staging cdev xid = some { t with ready := true }) ∧
    (t.need ≠ some t.sectors.length → s.readyCheck f cdev xid = s)) ∧
  (∀ (s s1 : State) f, s.delivers s1 f 8 2 → exec .readyTxn s = .next (((s1.mapTxn (xctlXid f) fun t =>
    t.mapTarget f.hdr.sdev.toNat fun g => { g with ready := true }).commitPoint (xctlXid f)).served s1 f)) ∧
  (∀ (s s1 : State) f, s.delivers s1 f 8 3 → let s2 := s1.applyTxn (xctlCdev f) (xctlXid f)
    (s2.staging (xctlCdev f) (xctlXid f) = none ∧ s2.applying (xctlCdev f) (xctlXid f) = false → exec .commitTxn s = .next ((s2.answerXctl f 5 0 (xctlCdev f) (xctlXid f)).served s1 f)) ∧
    (s2.staging (xctlCdev f) (xctlXid f) ≠ none ∨ s2.applying (xctlCdev f) (xctlXid f) = true → exec .commitTxn s = .next (s2.served s1 f))) ∧
  (∀ (s : State) cdev xid t, s.staging cdev xid = some t → (∀ g ∈ t.sectors, s.isLocal (s.stagedTo g) = true) → (s.applyTxn cdev xid).staging cdev xid = none) ∧
  (∀ (s s1 : State) f, s.delivers s1 f 8 4 →
    (xctlCdev f = s1.dev.devNum → exec .abortTxn s = .next ((s1.txnAbort (xctlXid f) (Decode.bodyNum f.body 1 1)).served s1 f)) ∧
    (xctlCdev f ≠ s1.dev.devNum → ∃ u : State, exec .abortTxn s = .next ((u.answerXctl f 5 0 (xctlCdev f) (xctlXid f)).served s1 f) ∧ u.mem = s1.mem ∧
      u.staging (xctlCdev f) (xctlXid f) = none)) ∧
  (∀ (s s1 : State) f, s.delivers s1 f 8 5 → exec .doneTxn s = .next ((((s1.mapTxn (xctlXid f) fun t =>
    t.mapTarget f.hdr.sdev.toNat fun g => { g with done := true }).txnFinish (xctlXid f)).abortFinish (xctlXid f)).served s1 f)) ∧
  (∀ (s s1 : State) f, s.delivers s1 f 8 6 → ∀ t, s1.txn? (xctlXid f) = some t →
    (t.survived = true → t.resumed = false → exec .queryTxn s = .next (s1.served s1 f)) ∧
    ((t.survived = false ∨ t.resumed = true) →
      (t.phase = .committed → exec .queryTxn s = .next ((s1.answerXctl f 3 0 (xctlCdev f) (xctlXid f)).served s1 f)) ∧
      (t.phase = .aborted → exec .queryTxn s = .next ((s1.answerXctl f 4 t.reason (xctlCdev f) (xctlXid f)).served s1 f)) ∧
      (t.phase = .opened ∨ t.phase = .preparing → exec .queryTxn s = .next (((s1.txnAbort (xctlXid f) 4).answerXctl f 4 4 (xctlCdev f) (xctlXid f)).served s1 f)))) ∧
  (∀ (s s1 : State) f, s.delivers s1 f 8 6 → s1.txn? (xctlXid f) = none →
    ∃ reason, 1 ≤ reason ∧ reason ≤ 6 ∧ exec .queryTxn s = .next ((s1.drawn.answerXctl f 4 reason (xctlCdev f) (xctlXid f)).served s1 f)) ∧
  (∀ (s s1 : State) f, s.delivers s1 f 8 7 → ∀ t, s1.staging (xctlCdev f) (xctlXid f) = some t →
    ∃ u : State, exec .keepTxn s = .next u ∧ u.staging (xctlCdev f) (xctlXid f) = some { t with seen := s1.now } ∧ u.mem = s1.mem) ∧
  (∀ (s : State) cdev xid t, s.staging cdev xid = some t → cdev ≠ s.dev.devNum →
    (t.ready = false → t.seen + cycles100us ≤ s.now → ∃ u : State, exec (.stagingTimeout cdev xid) s = .next (u.sendAny cdev 8 0 (xctlBody 4 6 cdev xid 0)) ∧
      u.staging cdev xid = none ∧ u.mem = s.mem) ∧
    (t.ready = true → exec (.queryTimer cdev xid) s = .next (s.sendAny cdev 8 0 (xctlBody 6 0 cdev xid 0)))) ∧
  (∀ (s : State) xid t, s.txn? xid = some t →
    (t.phase = .opened ∨ t.phase = .preparing → exec (.keepAliveTimer xid) s =
      .next ((t.targets.filter fun g => decide (g.dev ≠ s.dev.devNum)).foldl (fun (s' : State) g => s'.sendXctl g.dev 7 0 xid 0) s)) ∧
    (t.phase = .committed → (t.survived = false ∨ t.resumed = true) → ∃ b : Bool, exec (.commitResend xid) s =
      .next (if b then ((s.sendCommits xid).txnFinish xid).pending xid else (s.sendCommits xid).txnFinish xid))) ∧
  (∀ (s : State) t, s.dev.devSet = true → s.link.topoDone = true → s.link.txns = [t] → t.survived = true → t.resumed = false →
    (t.num ≠ s.dev.devNum → ∃ u, exec .recordResume s = .next u ∧ u.link.txns = [{ t with unresolved := true }] ∧ Report.txnPending t.xid ∈ u.dev.reports) ∧
    (t.num = s.dev.devNum → t.phase = .committed → ∃ s1 : State, exec .recordResume s = .next ((s1.sendCommits t.xid).txnFinish t.xid) ∧
      s1.link.txns = [{ t with resumed := true, unresolved := false, since := s.now }])) ∧
  (∀ (s : State) xid, ∃ u, exec (.abortedRecordTimeout xid) s = .next u ∧ u.mem = s.mem ∧ ∀ t, t ∈ u.link.txns ↔
    t ∈ s.link.txns ∧ ¬ (t.xid = xid ∧ t.survived = true ∧ t.resumed = true ∧ t.phase = .aborted ∧ t.since + cycles100us ≤ s.now))

/-- The launch queues and the system command queue: taking, ending, and each command's codes and effect (R60 to R77, R81, R83, R86, R304). -/
def Obligations.HostEvents : Prop :=
  (∀ (s : State) n die, let q := s.host.queue n
    let d := s.descriptor q q.head
    let ctx := field q.ctl 31 20
    let l := launchOf d ctx (field q.ctl 56 54) die (some (n, q.head))
    let taken := { q with head := q.head + 1 }
    n < 64 → bitAt q.ctl 63 = true →
    (s.overrun q = true → exec (.launchDescriptorTake n die) s = .next (s.putQueue n q.stop)) ∧
    (s.overrun q = false → q.next < s.bell q → q.marks.contains q.head = true → exec (.launchDescriptorTake n die) s = .next (s.putQueue n taken)) ∧
    (s.overrun q = false → q.next < s.bell q → q.marks.contains q.head = false →
      (launchOk d = false ∨ tget s.host.ctxs ctx = none → exec (.launchDescriptorTake n die) s = .next ((s.putQueue n taken.bad).advance (field d.w2 19 0) true)) ∧
      (launchOk d = true → tget s.host.ctxs ctx ≠ none → l.phase < tgetD s.host.phases (s.jobOf ctx) 0 →
        exec (.launchDescriptorTake n die) s = .next ((s.putQueue n taken.bad).admitLaunch l)) ∧
      (launchOk d = true → tget s.host.ctxs ctx ≠ none → tgetD s.host.phases (s.jobOf ctx) 0 ≤ l.phase →
        (s.launchDie l die = none → exec (.launchDescriptorTake n die) s = .next s) ∧
        ∀ k, s.launchDie l die = some k → exec (.launchDescriptorTake n die) s = .next (((s.putQueue n taken).admitLaunch { l with die := k }).drawn)))) ∧
  (∀ (s : State) lid l, tget s.host.launches lid = some l → l.st = .held → l.cancelled = false →
    (tgetD s.host.phases (s.jobOf l.ctx) 0 ≤ l.phase → s.mustHold l = false → exec (.heldLaunchRelease lid) s = .next (s.putLaunch lid { l with st := .runnable })) ∧
    (l.phase < tgetD s.host.phases (s.jobOf l.ctx) 0 → exec (.heldLaunchRelease lid) s = .next ((s.badSrc l).endLaunch lid true))) ∧
  (∀ (s : State), let q := s.host.scq
    let c := s.descriptor q q.head
    s.host.cmd = none → bitAt q.ctl 63 = true → s.overrun q = false → q.next < s.bell q →
    ∃ t : State, t.host.cmd = some (c, q.base + 64 * (q.head % lqDepth q.ctl)) ∧ t.host.scq.head = q.head + 1 ∧
      ((∃ i, Decode.command c = .ok i) ∧ Decode.commandOk c = true → exec .systemCommandTake s = .next t) ∧
      (¬ ((∃ i, Decode.command c = .ok i) ∧ Decode.commandOk c = true) →
        exec .systemCommandTake s = .next (t.finishCmd c (q.base + 64 * (q.head % lqDepth q.ctl)) 1 0))) ∧
  (∀ (s : State) (c : SysCmd) a code (v : Word), s.safe = true → a + 64 ≤ Config.memBytes → let t := s.finishCmd c a code v
    t.host.cmd = none ∧ t.mem.word (a + 48) = v ∧ t.mem.word (a + 56) = BitVec.ofNat 64 code ∧
    t.cairn.val (field c.w1 19 0) = cairnSum (s.cairn.val (field c.w1 19 0)) 1) ∧
  (∀ (s : State) c a, s.host.cmd = some (c, a) → Decode.commandOk c = true →
    let k := cmdCtx c
    let ends := fun i (s1 : State) code v => exec i s = .next (s1.finishCmd c a code v)
    (∀ n i, (n, i) ∈ [(0x11, Instr.ctxfree), (0x12, .cancelCommand), (0x13, .snapCommand), (0x14, .snapdropCommand), (0x15, .replaceCommand), (0x16, .cfginv)] →
      field c.w0 7 0 = n → tget s.host.ctxs k = none → ends i s 2 0) ∧
    (field c.w0 7 0 = 0x10 →
      (k = 0 → ends .ctxnew s 1 0) ∧ (k ≠ 0 → tget s.host.ctxs k ≠ none → ends .ctxnew s 2 0) ∧
      (k ≠ 0 → tget s.host.ctxs k = none → let x := newCtx c
        let others := s.jobCtxs x.job
        (featsIn x.feats s.featenN = false → ends .ctxnew s 4 0) ∧
        (featsIn x.feats s.featenN = true → saveOk x = false → ends .ctxnew s 6 0) ∧
        (featsIn x.feats s.featenN = true → saveOk x = true → ∃ s1 : State, ends .ctxnew s1 0 0 ∧
          tget s1.host.ctxs k = some (x.inherit (others.filterMap fun j => tget s.host.ctxs j)) ∧
          (others = [] → tget s1.host.ctxs k = some x ∧ tgetD s1.host.phases x.job 0 = 0) ∧
          (s.safe = true → ∀ i, i < 8 → s1.mem.word (x.saveBase + 0x10000 + 8 * i) = 0)))) ∧
    (∀ x, tget s.host.ctxs k = some x →
      (field c.w0 7 0 = 0x11 → (s.ctxBusy k = true → ends .ctxfree s 3 0) ∧
        (s.ctxBusy k = false → ∃ s1 : State, ends .ctxfree s1 0 0 ∧ tget s1.host.ctxs k = none ∧ s1.mem = s.mem)) ∧
      (field c.w0 7 0 = 0x12 → field c.w2 1 0 ≠ 0 → let n := if field c.w2 1 0 = 3 then 0 else c.w3.toNat
        (s.anyMember k (field c.w2 1 0) n = true → ends .cancelCommand (s.cancelLevel k (field c.w2 1 0) n) 0 0) ∧
        (s.anyMember k (field c.w2 1 0) n = false → ends .cancelCommand s 5 0)) ∧
      (field c.w0 7 0 = 0x12 → field c.w2 1 0 = 0 → let n := c.w3.toNat
        let q := s.host.queue n
        let m := c.w4.toNat
        (∀ l, s.launchBy n m k = some l → ends .cancelCommand (s.cancelLaunch l) 0 0) ∧
        (s.launchBy n m k = none →
          (field q.ctl 31 20 = k ∧ q.head ≤ m ∧ m < q.head + s.postedTo q ∧ m ∉ q.marks →
            ends .cancelCommand (s.cancelPosted n q m) 0 0 ∧ m ∈ ((s.cancelPosted n q m).host.queue n).marks) ∧
          (¬ (field q.ctl 31 20 = k ∧ q.head ≤ m ∧ m < q.head + s.postedTo q ∧ m ∉ q.marks) → ends .cancelCommand s 5 0))) ∧
      (field c.w0 7 0 = 0x13 → c.w2.toNat % 65536 = 0 → c.w3.toNat % 65536 = 0 → c.w2.toNat + c.w3.toNat ≤ 2 ^ 56 →
        ∀ v s1, s.snap k c.w2.toNat c.w3.toNat (field c.w4 19 0) = (v, s1) → ends .snapCommand s1 0 v) ∧
      (field c.w0 7 0 = 0x14 → (s.hasSnap k (field c.w4 19 0) c.w2 = true → ends .snapdropCommand (s.snapDrop k (field c.w4 19 0) c.w2) 0 0) ∧
        (s.hasSnap k (field c.w4 19 0) c.w2 = false → ends .snapdropCommand s 6 0)) ∧
      (field c.w0 7 0 = 0x15 → (s.host.replacing ≠ none → exec .replaceCommand s = .next s.replaceEnd) ∧
        (s.host.replacing = none → c.w2.toNat % 2048 ≠ 0 ∨ c.w3.toNat % 2048 ≠ 0 ∨ c.w4.toNat % 2048 ≠ 0 → ends .replaceCommand s 6 0) ∧
        (s.host.replacing = none → c.w2.toNat % 2048 = 0 → c.w3.toNat % 2048 = 0 → c.w4.toNat % 2048 = 0 →
          let ts := s.rangeBlocks k c.w3.toNat c.w4.toNat
          let left := ts.filter fun t => (s.headerAt t).isNone
          (left ≠ [] → exec .replaceCommand s = .next (s.askHeaders k left)) ∧
          (left = [] → (∃ t ∈ ts, s.blockLacks t = true) → ends .replaceCommand s 4 0) ∧
          (left = [] → (∀ t ∈ ts, s.blockLacks t = false) →
            (redirectAfter (s.redirectOf k) c.w2.toNat c.w3.toNat c.w4.toNat = none → ends .replaceCommand s 7 0) ∧
            (∀ t, redirectAfter (s.redirectOf k) c.w2.toNat c.w3.toNat c.w4.toNat = some t → ∃ s1 : State, s1.host.replacing = some (k, a) ∧
              s1.regions = (s.replaceCode k t).regions ∧ exec .replaceCommand s = .next s1.replaceEnd)))) ∧
      (field c.w0 7 0 = 0x16 → ∃ s1 : State, ends .cfginv s1 0 0 ∧ s1.mem = s.mem ∧ s1.regions = s.regions ∧
        ∀ p i, i ∈ tgetD s1.caches.cfg p [] ↔ i ∈ tgetD s.caches.cfg p [] ∧ (i.ctx ≠ k ∨ s.imageHeld p i = true))) ∧
    (field c.w0 7 0 = 0x17 → let ws := (List.range (field c.w3 11 0)).map fun i => s.mem.word (c.w2.toNat + 8 * i)
      (field c.w3 11 0 = 0 → ∃ s1 : State, ends .topo s1 0 0 ∧ s1.link = { s.link with topoDone := true }) ∧
      (field c.w3 11 0 ≠ 0 → c.w2.toNat % 8 ≠ 0 ∨ Config.memBytes < c.w2.toNat + 8 * field c.w3 11 0 → ends .topo s 6 0) ∧
      (c.w2.toNat % 8 = 0 → c.w2.toNat + 8 * field c.w3 11 0 ≤ Config.memBytes →
        (ws.all topoOk = true → ∃ s1 : State, ends .topo s1 0 0 ∧ s1.link.topoDone = true ∧ ∀ w, ws = [w] →
          tget s1.link.routes (field w 13 12 * 4096 + field w 11 0) = some ((List.range (field w 18 16)).map fun i => field w (22 + 4 * i) (19 + 4 * i))) ∧
        (ws.all topoOk = false → ends .topo s 1 0))) ∧
    (field c.w0 7 0 = 0x18 → let b := field c.w2 19 0
      let n := field c.w3 19 0
      (n = 0 ∨ 0x80000 < b + n → ends .cinit s 6 0) ∧
      (n ≠ 0 → b + n ≤ 0x80000 → ∃ s1 : State, ends .cinit s1 0 0 ∧ s1.cairn.waits = s.cairn.waits ∧
        ∀ j, if b ≤ j ∧ j < b + n then s1.cairn.val j = 0 ∧ s1.cairn.flag j = false else s1.cairn.val j = s.cairn.val j ∧ s1.cairn.flag j = s.cairn.flag j))) ∧
  (∀ (s : State) key r, tget s.regions key = some r → r.replaceMark = true → r.work = none →
    exec (.regionReplaceSwitch key) s = .next (s.putRegion key { r with replaceMark := false, redirect := s.redirectOf r.ctx }).replaceEnd)

/-- Dispatch: choosing, placing, halting, parking, resuming, sharing a PE, replication, image fetches (R78, R86 to R109, R161). -/
def Obligations.DispatchEvents : Prop :=
  (∀ (s : State) die, die < 4 →
    let can := fun p => (s.runnable die p).any fun e => (s.placeable [] e.2 die).isSome
    let idle := fun q => can q = false ∧ ∀ e ∈ s.runnable die q, s.preemption e.2 die = none
    (∀ p, p < 8 → (∀ q, p < q → q < 8 → idle q) →
      (can p = true → exec (.dispatchChoice die) s = .next (s.serveRound die p)) ∧
      (∀ ks, can p = false → ((s.runnable die p).findSome? fun e => s.preemption e.2 die) = some ks →
        exec (.dispatchChoice die) s = .next { s with agenda := s.agenda ++ ks.map fun k => .event (.preempt k) })) ∧
    ((∀ q, q < 8 → idle q) → exec (.dispatchChoice die) s = .next s)) ∧
  (∀ (s : State) die p lid l q, s.runnable die p = [(lid, l)] → tgetD (tgetD s.host.dies die Die.blank).rounds p [] = [] → s.placeable [] l die = some q →
    ∃ s1 : State, s.serveRound die p = s1.place lid l q ∧ s1.regions = s.regions ∧ s1.tiles = s.tiles) ∧
  (∀ (s : State) lid l (q : Spot), let t := s.place lid l q
    tget t.regions (coreKey q.part q.core) = some (newRegion s lid l q) ∧ tget t.host.launches lid = some { l with st := .placed (coreKey q.part q.core), die := dieOf q.part } ∧
    (∀ k, k ≠ coreKey q.part q.core → tget t.regions k = tget s.regions k) ∧ t.mem = s.mem) ∧
  (∀ (s : State) part e, (s.regions.find? fun e => decide (e.2.part = part)) = some e →
    let want := ((tget s.host.ctxs e.2.ctx).map fun c => c.l2Private).getD false
    ∃ t, exec (.l2ModeSwitch part) s = .next t ∧ t.caches.l2Private.contains part = want ∧ t.mem = s.mem ∧ t.regions = s.regions ∧
      (want ≠ s.caches.l2Private.contains part → ∀ x ∈ t.caches.l2, dieOf x.1 ≠ dieOf part)) ∧
  (∀ (s : State) key r, tget s.regions key = some r → r.cancelling = false → (r.run = .running ∨ r.run = .brk) →
    (r.work.bind r.resizeStage ≠ some 2 → exec (.preempt key) s = .next (s.haltRegion key .preempted)) ∧
    (r.work.bind r.resizeStage = some 2 → exec (.preempt key) s = .next (s.putRegion key { r with haltDue := true }))) ∧
  (∀ (s : State) key r why, tget s.regions key = some r → ∃ t, tget (s.haltRegion key why).regions key = some t ∧ t.run = why ∧
    t.s = r.s ∧ t.h = r.h ∧ t.cycle = r.cycle ∧ t.engines.length = r.engines.length ∧ (∀ w, r.work = some w → w.checked = true → r.resizeStage w = none → t.work = some w) ∧
    (∀ w, r.work = some w → w.checked = false → t.work = none)) ∧
  (∀ (s : State) part e, (s.regions.filter fun e => decide (e.2.part = part ∧ e.2.run = .preempted) && !e.2.cancelling) = [e] →
    (s.haltTurns e.1 e.2 ≠ [] → exec (.bivouacExchange part) s = .next s) ∧
    (s.haltTurns e.1 e.2 = [] → exec (.bivouacExchange part) s = .next (s.exchange part e))) ∧
  (∀ (s : State) part (e : Nat × Region), s.exchangeSwap part e.1 e.2 = none →
    (∀ s1, State.makeRoom part e.2 [] 9 s = some s1 → s.exchange part e = s1.park e.1 e.2.launch (some part) none true none) ∧
    (State.makeRoom part e.2 [] 9 s = none →
      (∀ a s1, s.takeImage e.2 = some (a, s1) → s.exchange part e = s1.park e.1 e.2.launch none (some a) true none) ∧
      (s.takeImage e.2 = none → s.exchange part e = s))) ∧
  (∀ (s s1 : State) part (e : Nat × Region), s.exchangeSwap part e.1 e.2 = some s1 → s.exchangeOut part e.1 e.2 = none → s.exchange part e = s1) ∧
  (∀ (s : State) key pid r part img res nc, tget s.regions key = some r → ∃ p, tget (s.park key pid part img res nc).parked pid = some p ∧ p.part = part ∧ p.image = img ∧
    p.resident = res ∧ p.region.s = r.s ∧ p.region.h = r.h ∧ p.region.blocks = r.blocks ∧ (p.region.queue = r.queue.filter fun f => decide (f.cls ≠ 1)) ∧
    p.region.replicas = r.replicas ∧ p.tiles.length = r.total ∧ p.splits.length = (s.host.splits.filter fun x => decide (x.key = key)).length) ∧
  (∀ (s : State) pid p l, tget s.parked pid = some p → tget s.host.launches pid = some l → p.resident = true → l.cancelled = false →
    l.phase ≤ tgetD s.host.phases (s.jobOf l.ctx) 0 →
    let spots := (s.resumeSpots p).filter fun q => !s.outranked l (dieOf q.part)
    ((s.placementDies l.ctx).isEmpty = false → spots ≠ [] → ∃ q ∈ spots,
      (p.part = none ∨ p.part = some q.part → exec (.regionResume pid) s = .next (s.drawn.unpark pid p q)) ∧
      (p.part ≠ none → p.part ≠ some q.part → exec (.regionResume pid) s = .next ((s.drawn.spill pid p).getD s))) ∧
    ((s.placementDies l.ctx).isEmpty = true → ∃ t, exec (.regionResume pid) s = .next t ∧ Report.noPlacement pid ∈ t.dev.reports ∧ t.parked = s.parked)) ∧
  (∀ (s : State) tile pe, ∃ t, exec (.arbiterWindow tile pe) s = .next t ∧ ((t.tile tile).pe pe).occupancy = [] ∧ ((t.tile tile).pe pe).window = 0 ∧
    (∀ e ∈ ((t.tile tile).pe pe).shares, e.2 ≤ 4096) ∧ ((t.tile tile).pe pe).slots = ((s.tile tile).pe pe).slots ∧ (∀ k, k ≠ tile → t.tile k = s.tile k)) ∧
  (∀ (s : State) key bslot r b, tget s.regions key = some r → tget r.blocks bslot = some b →
    let own := maskTiles r b
    let free := (s.adjoining r).take own.length
    let mine := r.replicas.filter fun x => decide (x.bslot = bslot)
    let use := tgetD s.host.stages (key * 8 + bslot) ⟨0, 0, 0⟩
    (s.featenN.testBit 11 = false ∨ b.elastic = false ∨ free.length < own.length ∨ 4 * use.last < 3 * 4096 ∨ 3 ≤ mine.length → exec (.replicate key bslot) s = .next s) ∧
    (s.featenN.testBit 11 = true → r.run = .running → r.cancelling = false → b.elastic = true → free.length = own.length → 3 * 4096 ≤ 4 * use.last → mine.length < 3 →
      (∀ x ∈ mine, x.draining = false) → s.unitEnding r b bslot = false → ∀ ps,
      placeNodes (fun _ _ => ⟨0, 0, 0⟩) (fun tile p => (s.tile tile).fenced.contains p) b.image bslot free (List.range (b.image.hdr.ncnt + 1)) [] [] = .ok ps →
      ∃ t id places, exec (.replicate key bslot) s = .next t ∧ id < 4 ∧ id ∉ r.copies bslot ∧ places.length = own.length ∧
        tget t.regions key = some { r with replicas := r.replicas ++ [⟨bslot, id, places, false, false⟩] } ∧ t.mem = s.mem ∧
        t.host.splits = s.host.splits ++ (if (s.splitOf key bslot).isSome then [] else [s.newSplit key bslot r b]))) ∧
  (∀ (s : State) key bslot r b y x xs, tget s.regions key = some r → tget r.blocks bslot = some b → s.splitOf key bslot = some y → r.run = .running →
    (r.replicas.filter fun x => decide (x.bslot = bslot)).reverse = x :: xs →
    let set := fun (z : Replica) => { r with replicas := r.replicas.map fun w => if w = x then z else w }
    (x.draining = false → exec (.replicaWithdraw key bslot) s = .next (if s.tilesNeeded (dieOf r.part) then s.putRegion key (set { x with draining := true }) else s)) ∧
    (x.draining = true → x.torn = false → exec (.replicaWithdraw key bslot) s =
      .next (if s.copyTags r b y x.id = [] then (s.tearCopy r b bslot x).putRegion key (set { x with torn := true }) else s)) ∧
    (x.draining = true → x.torn = true → exec (.replicaWithdraw key bslot) s =
      .next (if s.unitNodes r.ctx bslot (x.places.map r.placeKey) = [] then s.dropCopy key bslot r x else s))) ∧
  (∀ (s : State) r b x arc, (∀ id ∈ r.copies x.bslot, ∃ h, x.headOf arc id = some h ∧ h.chan.tok.flags.tear = true) → r.copies x.bslot ≠ [] →
    ∃ h z, s.mergeArc r b x arc = some (h, z) ∧ h.chan.tok.flags.tear = true ∧ ∀ g ∈ z.held, ¬ (g.chan.src = arc ∧ g.chan.tok.flags.tear = true)) ∧
  (∀ (s : State) r b x arc h z, s.mergeArc r b x arc = some (h, z) → h.chan.tok.flags.tear = false → h ∈ x.held ∧ h.chan.src = arc ∧
    ∀ id ∈ r.copies x.bslot, (∀ g, x.headOf arc id = some g → g.chan.tok.flags.tear = false → h.chan.tok.itag.toNat ≤ g.chan.tok.itag.toNat) ∧
      (x.headOf arc id = none → ∀ j ∈ s.copyTags r b x id, h.chan.tok.itag.toNat ≤ j)) ∧
  (∀ (s : State) idx f, s.caches.fetches[idx]? = some f → f.failed = none →
    (s.isLocal (s.target f.ctx f.pa) = true → ∃ (s2 : State) (bs : List Byte), exec (.configFetchDone idx) s = .next (s2.imageCame f bs) ∧ s2.regions = s.regions ∧ s2.caches.cfg = s.caches.cfg) ∧
    (s.isLocal (s.target f.ctx f.pa) = false → ∀ h bs, f.bytes 1 = some h → f.bytes ((imageLen (recAt h 0) + 63) / 64) = some bs →
      exec (.configFetchDone idx) s = .next (s.imageCame f bs))) ∧
  (∀ (s : State) (f : Fetch) bs l, s.imageRoom f.part = some l → tgetD (s.imageCame f bs).caches.cfg f.part [] = ⟨f.ctx, f.addr, imageOf bs⟩ :: l ∧
    f ∉ (s.imageCame f bs).caches.fetches)

/-! ### Blocks, tokens, faults, streams, relocation (R87 to R96, R121 to R133, R174 to R184, R191 to R233, R331 to R347, R444 to R457) -/

/-- Blocks and units from fetch to completion, tokens that arrive, waits that end, launches that end (R82 to R85, R121 to R130, R145, R194, R196, R225, R300,
R301, R331, R444). -/
def Obligations.BlockEvents : Prop :=
  (∀ (s s1 : State) key r a slot m r1, tget s.regions key = some r → r.nextFetch = some a → r.freeSlot = some slot → s.canFetch r = true →
    s.wantImage key r a = .ok s1 (some m) → tget s1.regions key = some r1 →
    (m.hdr.control = true → exec (.blockFetch key) s = .next ((s1.touchImage r.part r.ctx (r.redirected a)).putRegion key (r1.takeControl slot a m m.fixedNext))) ∧
    (m.hdr.control = false → r.fetched = [] → r.work = none → exec (.blockFetch key) s = .next (s1.putRegion key (r1.issueReached slot a m)))) ∧
  (∀ (r : Region) slot a m nxt, let t := r.takeControl slot a m nxt
    t.nextFetch = nxt ∧ t.fetched = r.fetched ++ [slot] ∧ t.s = r.s ∧ t.h = r.h ∧
      (∃ b, tget t.blocks slot = some b ∧ b.addr = a ∧ b.image = m ∧ b.phase = .fetched) ∧ ∀ k, k ≠ slot → tget t.blocks k = tget r.blocks k) ∧
  (∀ (s : State) key r slot b, tget s.regions key = some r → r.live = true → r.work = none → r.fetched.head? = some slot → tget r.blocks slot = some b →
    r.replaceMark = false → s.modeDue r = false → r.heldByRunw = false → r.trapDue = false → b.image.decodes = true →
    featsIn b.image.hdr.freq (s.diefeat (dieOf r.part)) = true → exec (.blockCommit key) s = .next (s.putWork key (Work.start r slot))) ∧
  (∀ (s : State) key r w b, tget s.regions key = some r → r.live = true → r.work = some w → tget r.blocks w.slot = some b → b.image.recs.length ≤ w.pc →
    (w.checked = true ∨ r.trapDue = false) → w.cancels = [] → w.ending = .halt → r.haltDue = false →
    exec (.blockCommit key) s = .next ((s.putRegion key { (r.committed w) with haltAfter := true, nextFetch := none }).advanceAll w.empties)) ∧
  (∀ (r : Region) (w : Work), w.csrw = [] → let t := r.committed w
    t.s = w.s ∧ t.h = w.h ∧ t.work = none ∧ tget t.blocks w.slot = none ∧ t.exsum = r.exsum ∧ t.trapcause = r.trapcause ∧
      (∀ f ∈ t.queue, f ∈ r.queue ∧ f.seq ∉ w.pops) ∧ ∀ k, k ≠ w.slot → tget t.blocks k = tget r.blocks k) ∧
  (∀ (s : State) key bslot rg b, tget s.regions key = some rg → tget rg.blocks bslot = some b → b.phase = .issued → rg.run = .running → rg.cancelling = false →
    (rg.uncommitted b = true → exec (.fabricBlockMap key bslot) s = .next s) ∧ (rg.uncommitted b = false →
    (s.mapUnit rg bslot b = .wait → exec (.fabricBlockMap key bslot) s = .next s) ∧
    (∀ ps, s.mapUnit rg bslot b = .ok ps → ∃ s1 : State, exec (.fabricBlockMap key bslot) s = .next ((s1.touchImage rg.part rg.ctx (rg.redirected b.addr)).landHeld) ∧
      tget s1.regions key = some { rg with blocks := tput rg.blocks bslot { b with phase := .mapped } } ∧ s1.mem = s.mem ∧ s1.cairn = s.cairn) ∧
    (∀ code node, s.mapUnit rg bslot b = .refuse code node → exec (.fabricBlockMap key bslot) s = .next (s.refuseUnit key rg bslot b code node)))) ∧
  (∀ (s : State) key rg bslot b code node, let t := s.refuseUnit key rg bslot b code node
    ∃ r f, tget t.regions key = some r ∧ tget r.blocks bslot = none ∧ r.faultTokens = rg.faultTokens ++ [f] ∧ f.code = code ∧ f.node = node ∧ f.bslot = bslot ∧
      t.tiles = s.tiles ∧ t.mem = s.mem ∧ ∀ k, b.cairn = some k → k < 2 ^ 20 → t.cairn.flag k = true ∧ t.cairn.val k = cairnSum (s.cairn.val k) 1) ∧
  (∀ (s : State) tile idx c key rg, (s.tile tile).arrivals[idx]? = some c → s.regionOf tile = some (key, rg) → c.left = 0 → rg.run = .running →
    (s.tile tile).headOfArc idx c = true →
    (c.dest = .node → exec (.tokenArrival tile idx) s = .next (s.arriveNode key tile idx c.tok)) ∧
    (∀ p, c.dest = .store p → exec (.tokenArrival tile idx) s = .next (s.arriveStore key tile idx p c.tok)) ∧
    (∀ b, c.dest = .block s.dev.devNum b → exec (.tokenArrival tile idx) s = .next (s.arriveBlock rg tile idx b c)) ∧
    (∀ d b, c.dest = .block d b → d ≠ s.dev.devNum → exec (.tokenArrival tile idx) s = .next (s.arriveRemote rg tile idx d c))) ∧
  (∀ (s : State) key tile idx port tok, tok.flags.tear = false → ((s.tile tile).stream port).takes = true → (dataToks ((s.tile tile).stream port).buf).length < 16 →
    (((s.arriveStore key tile idx port tok).tile tile).stream port).buf = ((s.tile tile).stream port).buf ++ [tok]) ∧
  (∀ (s : State) tile idx n s1,
    (s.retried tile idx .slot = some (.putNode n, s1) → exec (.stalledPutProceed tile idx) s = exec (.putNode n) s1) ∧
    (s.retried tile idx .slot = some (.getNode n, s1) → exec (.readReevaluate tile idx) s = exec (.getNode n) s1) ∧
    (s.retried tile idx .slot = some (.getr n, s1) → exec (.readReevaluate tile idx) s = exec (.getr n) s1) ∧
    (s.retried tile idx .slot = some (.rls n, s1) → exec (.readReevaluate tile idx) s = exec (.rls n) s1) ∧
    (s.retried tile idx .slot = some (.mldb n, s1) → exec (.readReevaluate tile idx) s = exec (.mldb n) s1)) ∧
  (∀ (s s1 : State) tile idx n (x : Site), s1.site = some x → x.tile = tile →
    (∀ tok row vec st, s.retried tile idx .slot = some (.putNode n, s1) → x.f.l = some tok → x.inst.name = some (row, vec) →
      tget (s1.tile tile).stmts n.mod.toNat = some st → tok.flags.last = false →
      let e := (s1.tile tile).slot row
      e.held = true → e.stmt = n.mod.toNat → e.vec = vec → e.st = .filling → e.wnode = x.f.node → e.rcnt < st.rows →
      ∃ lat, exec (.stalledPutProceed tile idx) s = .next (((s1.putTile tile (((s1.tile tile).putRow row e.rcnt
        ⟨tok.lanes, tok.flags.scaled, tok.flags.mixed, tok.loff⟩).putSlot row { e with rcnt := e.rcnt + 1 })).putInst x { x.inst with name := some (row, vec) }).fires x n lat 0 [] 0)) ∧
    (∀ s2 st row, s.retried tile idx .slot = some (.rls n, s1) → x.selected n = true → s1.panelRead x n (fmtShape n) = .issued s2 st row →
      ∃ lat, exec (.readReevaluate tile idx) s = .next ((s2.countRead x n row).fires x n lat 0 (x.sends n (x.memOut n noLanes)) 0))) ∧
  (∀ (s s1 : State) tile idx i, s.retried tile idx .moving = some (i, s1) → exec (.barrierRetry tile idx) s = .next { s1 with actor := s.actor }) ∧
  (∀ (s : State) idx w, s.cairn.waits[idx]? = some w → w.thresh.toNat ≤ (s.cairn.val w.cairn).toNat →
    (∀ key r, w.who = .core key → tget s.regions key = some r → ∃ t, exec (.cairnWaitComplete idx) s = .next t ∧ t.cairn.waits = ldrop s.cairn.waits idx ∧
      tget t.regions key = some { r with waiting := false, work := r.work.map fun k => { k with begun := true } }) ∧
    (∀ tile id, w.who = .fire tile id → ∃ t, exec (.cairnWaitComplete idx) s = .next t ∧ t.cairn.waits = ldrop s.cairn.waits idx ∧
      (t.tile tile).ready = (s.tile tile).ready.map fun f => if f.id = id then { f with st := .ready, begun := true } else f) ∧
    (∀ dev port tag, w.who = .remote dev port tag → (s.link.port port).up = true → ∃ t, exec (.cairnWaitComplete idx) s =
      .next (State.cairnReply t port dev (tag / 65536) (tag % 65536) w.cairn 0) ∧ t.cairn.waits = ldrop s.cairn.waits idx)) ∧
  (∀ (s : State) key r limit since due, tget s.regions key = some r → r.idle = some (limit, since, due) →
    (due = true ∨ (limit ≠ 0 ∧ since + limit ≤ r.cycle.toNat) → exec (.idleWake key) s = .next (s.putRegion key { r with idle := none })) ∧
    (due = false → (limit = 0 ∨ r.cycle.toNat < since + limit) → exec (.idleWake key) s = .next s)) ∧
  (∀ (s : State) key bslot rg b, tget s.regions key = some rg → tget rg.blocks bslot = some b → b.phase = .mapped → rg.run = .running → rg.cancelling = false →
    s.unitDone rg bslot b = true → ∃ t r, exec (.unitComplete key bslot) s = .next t ∧ tget t.regions key = some r ∧ tget r.blocks bslot = none ∧ t.mem = s.mem ∧
      (∀ k, b.cairn = some k → k < 2 ^ 20 → t.cairn.val k = cairnSum (s.cairn.val k) 1 ∧ t.cairn.flag k = s.cairn.flag k) ∧ (b.cairn = none → t.cairn = s.cairn)) ∧
  (∀ (s : State) lid l key rg, tget s.host.launches lid = some l → l.st = .placed key → tget s.regions key = some rg → rg.launch = lid → rg.haltAfter = true →
    rg.cancelling = false → rg.run = .running → rg.work = none → rg.blocks = [] → rg.engines = [] → exec (.launchComplete lid) s = .next (s.leave lid key rg false)) ∧
  (∀ (s : State) lid l, tget s.host.launches lid = some l → l.cancelled = true →
    (l.st = .held ∨ l.st = .runnable → exec (.cancelAdvance lid) s = .next (s.endLaunch lid true)) ∧
    (∀ key rg, l.st = .placed key → tget s.regions key = some rg → rg.launch = lid → rg.cancelling = true → rg.engines = [] →
      (s.link.reqs.any fun q => decide (q.who = .gone key)) = false → exec (.cancelAdvance lid) s = .next ((s.flagUnits rg.blocks).leave lid key rg true)) ∧
    (∀ pid p, l.st = .parked pid → tget s.parked pid = some p → (s.link.reqs.any fun q => decide (q.who = .parked pid ∧ q.typ = 2)) = false →
      exec (.cancelAdvance lid) s = .next (s.leaveParked lid pid p))) ∧
  (∀ (s : State) lid l flagged, tget s.host.launches lid = some l → l.st ≠ .ended → ∃ m, tget (s.endLaunch lid flagged).host.launches lid = some m ∧ m.st = .ended)

/-- Faults that reach the queue or the SCC, and errors of checks and of ECC (R174 to R176, R191, R225, R228 to R233). -/
def Obligations.FaultEvents : Prop :=
  (∀ (s : State) key r f fs, tget s.regions key = some r → r.run = .running → r.faultTokens = f :: fs →
    let lost := min 65535 (r.fqlost + 1)
    ∃ t, (exec (.faultTokenEntry key) s = .next t ∧ t.mem = s.mem) ∧
      (r.queue.length < 16 → ∃ r', tget t.regions key = some r' ∧ r'.faultTokens = fs ∧ r'.queue = (r.enqueue f).queue ∧ r'.fqlost = r.fqlost) ∧
      (16 ≤ r.queue.length → f.cls = 3 → tget t.regions key = some { r with fqlost := lost, faultTokens := fs }) ∧
      (16 ≤ r.queue.length → f.cls ≠ 3 → (oldest r.queue 3).isSome = true → ∃ r', tget t.regions key = some r' ∧ r'.faultTokens = fs ∧ r'.fqlost = lost ∧
        r'.queue.length = r.queue.length)) ∧
  (∀ (r : Region) f, ∃ g, (r.enqueue f).queue = r.queue ++ [g] ∧ g.code = f.code ∧ g.cls = f.cls ∧ g.addr = f.addr) ∧
  (∀ (s : State) idx m, s.host.minors[idx]? = some m → codeClass m.code = 1 → (∀ pid, m.who ≠ .parked pid) →
    (∀ s1, (s.dropMinor idx).serveMinor m = some s1 → exec (.minorFaultServed idx) s = .next ((s1.changeRecord m fun _ => none).release m.who)) ∧
    ((s.dropMinor idx).serveMinor m = none → exec (.minorFaultServed idx) s = .next s)) ∧
  (∀ (s : State) idx m r, s.host.minors[idx]? = some m → tget s.regions m.key = some r → codeClass m.code = 1 → (∀ pid, m.who ≠ .parked pid) → r.run = .running →
    r.cancelling = false →
    (m.since + r.fwb.toNat * 2400 ≤ s.now → ∃ t r', exec (.budgetExceeded idx) s = .next t ∧ tget t.regions m.key = some r' ∧ r'.run = .major cBudget ∧
      r'.queue.length = r.queue.length ∧ t.mem = s.mem) ∧
    (s.now < m.since + r.fwb.toNat * 2400 → exec (.budgetExceeded idx) s = .next s)) ∧
  (∀ (s : State) key r c, tget s.regions key = some r → r.run = .major c → r.cancelling = false → ∃ (s1 : State) (r1 : Region),
    (s1.haltTurns key r1 ≠ [] → exec (.majorFaultSave key) s = .next s1) ∧
    (s1.haltTurns key r1 = [] → (∀ a s2, s1.takeImage r1 = some (a, s2) →
        ∃ ready, exec (.majorFaultSave key) s = .next (s2.park key r.launch none (some a) ready (r.badCore key))) ∧
      (s1.takeImage r1 = none → exec (.majorFaultSave key) s = .next (s1.reportOnce (.saveFull r.launch)))) ∧
    tget s1.regions key = some r1 ∧ r1.run = .major c ∧ r1.s = r.s ∧ r1.h = r.h) ∧
  (∀ (s : State) pid p, tget s.parked pid = some p → p.resident = false → (∀ m ∈ s.host.minors, m.who ≠ .parked pid) →
    (∃ t, exec (.majorFaultServed pid true) s = .next t ∧ tget t.parked pid = some { p with resident := true } ∧ t.mem = s.mem) ∧
    exec (.majorFaultServed pid false) s = .next s) ∧
  (∀ (s : State) pid p m, tget s.parked pid = some p → p.resident = false → (s.host.minors.filter fun m => decide (m.who = .parked pid)) = [m] →
    let s0 : State := { s with host := { s.host with minors := s.host.minors.filter fun m => decide (m.who ≠ .parked pid) } }
    (∀ s1, s0.serveMajor m = some s1 → exec (.majorFaultServed pid true) s = .next { s1 with parked := tput s1.parked pid { p with resident := true } }) ∧
    ∀ b, (b = false ∨ s0.serveMajor m = none) → ∃ t, exec (.majorFaultServed pid b) s = .next t ∧ Report.pageLost m.ctx m.va ∈ t.dev.reports ∧ t.parked = s.parked) ∧
  (∀ (s : State) tile pe, pe < 16 → (s.tile tile).fenced.contains pe = false →
    let p := (s.tile tile).pe pe
    let again := p.lastFail.any fun c => decide (s.now ≤ c + 2 ^ 20)
    (again = false → ∃ t, exec (.peCheckFailure tile pe) s = .next t ∧ ((t.tile tile).pe pe) = { p with lastFail := some s.now } ∧ t.regions = s.regions) ∧
    (again = true → (s.tile tile).spareUsed = none → ∃ t, exec (.peCheckFailure tile pe) s = .next t ∧ (t.tile tile).spareUsed = some pe ∧ t.regions = s.regions) ∧
    (again = true → (s.tile tile).spareUsed.isSome = true → ∃ t, exec (.peCheckFailure tile pe) s = .next t ∧ pe ∈ (t.tile tile).fenced ∧
      ∀ key r, s.regionOf tile = some (key, r) → r.cancelling = false → ∃ r', tget t.regions key = some r' ∧ r'.run = .major cPeLost ∧
        (r.queue.length < 16 → ∃ f, r'.queue = r.queue ++ [f] ∧ f.code = cPeLost ∧ f.agent = pe ∧ f.x = tile % 16 ∧ f.y = tile / 16 % 8))) ∧
  (∀ (s : State) key r, tget s.regions key = some r → r.run = .running → r.cancelling = false →
    (r.active = false → r.trapbase ≠ 0 → ∃ t r' f, exec (.ccEccError key true) s = .next t ∧ tget t.regions key = some r' ∧ r'.run = .stopped ∧
      r'.trapRec = some f ∧ f.code = cUncorrectable ∧ field r'.trapcause 7 0 = cUncorrectable) ∧
    ((r.active = true ∨ r.trapbase = 0) → ∃ t, exec (.ccEccError key true) s = .next t ∧
      ∀ r', tget t.regions key = some r' → r'.cancelling = true ∨ r'.run = .stopped) ∧
    (∀ c, r.ccErr = some c → s.now ≤ c + 2 ^ 20 → ∃ t r', exec (.ccEccError key false) s = .next t ∧ tget t.regions key = some r' ∧ r'.run = .major cUncorrectable ∧
      r'.s = r.s ∧ r'.h = r.h) ∧
    ((∀ c, r.ccErr = some c → c + 2 ^ 20 < s.now) → ∃ t r', exec (.ccEccError key false) s = .next t ∧ tget t.regions key = some r' ∧ r'.run = .running ∧
      r'.ccErr = some s.now ∧ r'.s = r.s ∧ r'.h = r.h ∧ r'.exsum = r.exsum)) ∧
  (∀ (s : State), (∀ n, n * 64 < Config.memBytes → ∃ t, exec (.uncorrectableError (.sector n)) s = .next t ∧ n ∈ t.mem.poison ∧ t.mem.cells = s.mem.cells) ∧
    (∀ n, n * 64 < Config.memBytes → ∃ t, exec (.uncorrectableError (.orphanLine n)) s = .next t ∧ n ∈ t.mem.poison ∧ t.mem.cells = s.mem.cells ∧
      let m := homeDie (n * 64)
      let old := tgetD s.dev.oplog m 0
      tget t.dev.oprings (m * 256 + field old 31 24) = some (s.dev.devNum % 4096 * 2 ^ 34 + n) ∧ field (tgetD t.dev.oplog m 0) 31 24 = (field old 31 24 + 1) % 256 ∧
      field (tgetD t.dev.oplog m 0) 7 0 = min 255 (field old 7 0 + 1)) ∧
    (∀ tile row r, tget (s.tile tile).rows row = some r → ∃ t, exec (.uncorrectableError (.foldRow tile row)) s = .next t ∧
      tget (t.tile tile).rows row = some { r with lanes := poisonLanes r.lanes }) ∧
    (∀ tile idx c, (s.tile tile).chans[idx]? = some c → ∃ t, exec (.uncorrectableError (.channel tile idx)) s = .next t ∧
      (t.tile tile).chans[idx]? = some { c with tok := c.tok.poisoned }) ∧
    (∀ tile idx, ∃ t, exec (.uncorrectableError (.matching tile idx)) s = .next t ∧ (t.tile tile).pes = poisonEntry (s.tile tile).pes idx) ∧
    (∀ tile idx c, (s.tile tile).miss[idx]? = some c → ∃ t, exec (.uncorrectableError (.missBuffer tile idx)) s = .next t ∧
      (t.tile tile).miss[idx]? = some { c with tok := c.tok.poisoned }) ∧
    (∀ tile pe, ∃ t, exec (.uncorrectableError (.accumulator tile pe)) s = .next t ∧ ((t.tile tile).pe pe).acc = { ((s.tile tile).pe pe).acc with lost := true }) ∧
    (∀ tile pe, exec (.uncorrectableError (.elementSlot tile pe)) s = exec (.peCheckFailure tile pe) s) ∧
    (∀ key, exec (.uncorrectableError (.coreState key)) s = exec (.ccEccError key false) s) ∧
    (∀ part, part < 16 → ∃ t, exec (.uncorrectableError (.corrected part)) s = .next t ∧
      let old := tgetD s.dev.rasev part 0
      let new := tgetD t.dev.rasev part 0
      field new 63 48 = min 65535 (field old 63 48 + 1) ∧ field new 47 0 = field old 47 0 ∧ ∀ p, p ≠ part → tget t.dev.rasev p = tget s.dev.rasev p)) ∧
  (∀ (s : State) m, 2 ^ 47 ≤ s.mem.pts → ∃ t, exec (.timestampRebase m) s = .next t ∧ t.mem.pts = 0 ∧ t.mem.cells = s.mem.cells ∧
    (∀ n, tget t.mem.wts n = (tget s.mem.wts n).map fun v => v - s.mem.pts) ∧ ∀ n, tget t.mem.rts n = (tget s.mem.rts n).map fun v => v - s.mem.pts)

/-- Stream ports, engines and relocation engines, one turn each (R208 to R214, R220, R336 to R347, R443, R455). Which token or piece goes on where
several can is a free choice (log 71). -/
def Obligations.StreamAndRelocEvents : Prop :=
  (∀ (s : State) tile port (x : SSite), s.ssite tile port = some x →
    let q := patternOf x.p.desc
    (∀ c n rest p ts, x.p.queue = (c, n) :: rest → x.p.command c n = some (p, ts) →
      exec (.streamScoreboardStep tile port) s = .next ((s.putPort x { p with queue := rest }).dropToks x.key ts)) ∧
    ((x.p.st = .running ∨ x.p.st = .closed) → q.store = false → x.p.faulted = false → x.p.minor = false →
      (∀ t rest c, x.rg.run = .running → x.p.buf = t :: rest → x.feeds = some c → exec (.loadStreamToken tile port) s = .next (s.feed x c t rest)) ∧
      ((x.p.buf = [] ∨ x.feeds = none ∨ x.rg.run ≠ .running) →
        (∀ k t rest, x.p.flight = (k, t) :: rest → x.p.tokDone k = true → exec (.loadStreamToken tile port) s = .next (s.putPort x (x.p.readTok k t.flags.last))) ∧
        (∀ k t rest s1 as, x.p.flight = (k, t) :: rest → x.p.tokDone k = false → s.begins x x.mayRead = false →
          (s.drawn.turnAccs x.rg.ctx x.who x.p.accs = .all s1 as ∨ s.drawn.turnAccs x.rg.ctx x.who x.p.accs = .more s1 as) →
          exec (.loadStreamToken tile port) s = .next (s1.putPort x { x.p with accs := as })) ∧
        (∀ u s1 s2 as bs, ((x.p.flight = [] ∧ x.mayRead = true ∧ u = s) ∨ ∃ k t rest, x.p.flight = (k, t) :: rest ∧ x.p.tokDone k = false ∧
            s.begins x x.mayRead = true ∧ u = s.drawn) →
          u.layElems ⟨.tile tile, x.rg.ctx, .read, 0, false, false, false, x.p.pos + 1⟩ q.esize (q.addrs ((x.rg.rtile tile).getD 0) x.p.pos) 0 [] = .ok s1 as →
          s1.issueAccs x.key as = (s2, bs) →
          exec (.loadStreamToken tile port) s = .next (s2.putPort x { x.p with
            accs := x.p.accs ++ bs
            flight := x.p.flight ++ [(x.p.pos, loadTok q x.p.pos 0 [] false)]
            pos := x.p.pos + 1 })))) ∧
    ((x.p.st = .running ∨ x.p.st = .closed) → q.store = true → x.p.faulted = false → x.p.minor = false →
      (∀ f, (x.p.flight.find? fun f => x.p.tokDone f.1) = some f → exec (.storeStreamToken tile port) s = .next (s.wroteTok x f.1)) ∧
      ((x.p.flight.find? fun f => x.p.tokDone f.1) = none →
        (∀ t rest s1 s2 as bs, x.p.buf = t :: rest → t.flags.tear = false → s.begins x x.mayTake = true →
          let es := storeElems q ((x.rg.rtile tile).getD 0) x.p.pos t
          s.drawn.layStore (.tile tile) x.rg.ctx q t x.p.pos (fullStore q es t) es [] = .ok s1 as → s1.issueAccs x.key as = (s2, bs) →
          let p := { (x.p.digestTok t) with
            pos := x.p.pos + 1
            accs := x.p.accs ++ bs
            flight := x.p.flight ++ [(x.p.pos, t)]
            buf := rest }
          let last := t.flags.last || decide (q.total ≤ x.p.pos + 1)
          (last = false → exec (.storeStreamToken tile port) s = .next (s2.putPort x p)) ∧
          (last = true → exec (.storeStreamToken tile port) s = .next ((s2.putPort x { p with st := .closed, buf := [] }).dropToks x.key rest))) ∧
        (∀ u s1 as, ((x.p.buf = [] ∧ u = s) ∨ ∃ t rest, x.p.buf = t :: rest ∧ t.flags.tear = false ∧ s.begins x x.mayTake = false ∧ u = s.drawn) →
          (u.turnAccs x.rg.ctx x.who x.p.accs = .all s1 as ∨ u.turnAccs x.rg.ctx x.who x.p.accs = .more s1 as) →
          exec (.storeStreamToken tile port) s = .next (s1.putPort x { x.p with accs := as })))) ∧
    (x.p.st = .closed → x.p.flight = [] → x.p.buf = [] → ∃ t, exec (.streamComplete tile port) s = .next t ∧ ((t.tile tile).stream port).st = .idle ∧
      ((t.tile tile).stream port).desc = [] ∧ ((t.tile tile).stream port).dirty = none ∧ ((t.tile tile).stream port).digest = x.p.digest ∧ t.regions = s.regions) ∧
    (∀ k, let p := ((s.wroteTok x k).tile x.tile).stream x.port
      p.flight = x.p.flight.filter (fun f => decide (f.1 ≠ k)) ∧ p.accs = x.p.accs.filter (fun a => decide (a.group ≠ k + 1)) ∧
        p.dirty = dirtyWith x.p.dirty (x.p.accsOf k) ∧ p.buf = x.p.buf ∧ p.pos = x.p.pos ∧ (s.wroteTok x k).mem = s.mem)) ∧
  (∀ (p : Stream) order d, (p.st = .idle ∨ p.st = .bound) → ∃ p', p.command (.bind d) order = some (p', []) ∧ p'.st = .bound ∧ p'.desc = d ∧ p'.pos = 0 ∧ p'.digest = BitVec.allOnes 64) ∧
  (∀ (p : Stream) order, p.st = .bound → (∃ p', p.command .go order = some (p', []) ∧ p'.st = .running) ∧ ∃ p', p.command .stop order = some (p', p.buf) ∧ p'.st = .idle ∧ p'.buf = []) ∧
  (∀ (p : Stream) order, p.st = .running →
    ((patternOf p.desc).store = true → p.command .stop order = some ({ p with st := .closed, buf := [] }, p.buf)) ∧
    ((patternOf p.desc).store = false → p.ending = false →
      (∀ fs k t, p.flight = fs ++ [(k, t)] →
        p.command .stop order = some ({ p with ending := true, flight := fs ++ [(k, { t with flags := { t.flags with last := true } })] }, [])) ∧
      (p.flight = [] → p.room = true → ∃ p', ∃ tok u : Token, p.command .stop order = some (p', []) ∧ p'.st = .closed ∧ p'.buf = p.buf ++ [tok, u] ∧
        tok.flags.last = true ∧ tok.lanes = List.replicate 16 Lane.off ∧ u.flags.tear = true))) ∧
  (∀ (p : Stream) k last, let q := patternOf p.desc
    let t := p.readTok k last
    t.pos = p.pos ∧ t.flight = p.flight.filter (fun f => decide (f.1 ≠ k)) ∧ t.accs = p.accs.filter (fun a => decide (a.group ≠ k + 1)) ∧
      ∃ (tok : Token) (rest : List Token), t.buf = p.buf ++ tok :: rest ∧ tok.itag = BitVec.ofNat 32 (q.itag0 + k) ∧
      (tok.flags.last = true ↔ last = true ∨ q.total ≤ k + 1) ∧ (tok.flags.last = true → t.st = .closed ∧ ∃ u : Token, rest = [u] ∧ u.flags.tear = true) ∧
      (tok.flags.last = false → t.st = p.st ∧ rest = [])) ∧
  (∀ (s : State) key idx x, s.esite key idx = some x → x.e.stopped = false → x.e.faulted = false → x.e.minor = false →
    (engKind x.e.words ≠ 0x23 → x.e.work ≠ [] → exec (.engineDrain key idx) s = .next (s.workTurn x (copyKind x.e.words))) ∧
    (engKind x.e.words ≠ 0x23 → x.e.work = [] → exec (.engineDrain key idx) s = .next (s.finishEngine x)) ∧
    (engKind x.e.words = 0x23 → credMember x.e.words (credRank x.e.words) = s.dev.devNum →
      (∀ r ∈ credOthers x.e.words, ∃ c, s.credIn x.e r = some c ∧ credAgrees x.e.words c = true) →
      (x.e.work ≠ [] → exec (.engineDrain key idx) s = .next (s.workTurn x (s.credKind x.e))) ∧
      (x.e.work = [] → ∃ s1 : State, exec (.engineDrain key idx) s = .next (s1.drain x) ∧ s1.mem = s.mem ∧ s1.cairn = s.cairn ∧ s1.regions = s.regions ∧
        ∀ c, c ∈ s1.link.creds ↔ c ∈ s.link.creds ∧ ¬ (c.group = credGroup x.e.words ∧ c.kth = x.e.joined)))) ∧
  (∀ (s : State) (x : ESite), let w := x.e.words
    let signals := (engKind w = 0x24 ∨ engKind w = 0x25) ∧ bitAt (dw w 4) 32 = true
    (¬ signals → s.finishEngine x = s.drain x) ∧
    (signals → field (dw w 4) 31 20 = s.dev.devNum → s.finishEngine x = (s.cairnAddScc (field (dw w 4) 19 0) 1).drain x) ∧
    (signals → field (dw w 4) 31 20 ≠ s.dev.devNum → (x.e.signal = 1 → s.finishEngine x = s) ∧ (x.e.signal = 2 → s.finishEngine x = s.drain x) ∧
      (x.e.signal = 0 → ∀ s1, s.request 6 (field (dw w 4) 31 20) 0 x.rg.ctx 0 1 (cairnBody 1 s.freshTag (field (dw w 4) 19 0) 1 s.mem.pts) x.who = .ok s1 →
        s.finishEngine x = s1.putEngine x.key { x.e with signal := 1 }))) ∧
  (∀ (s : State) (x : ESite) g i p, let ps := x.e.ready (decide (x.rg.run = .running))
    ps ≠ [] → i = ps.getD (s.choice ps.length) 0 → x.e.work[i]? = some p →
    (p.accs = [] → s.workTurn x g = s.drawn.beginPiece x g i p) ∧
    (p.accs ≠ [] → ∀ s1 as, s.drawn.turnAccs x.rg.ctx x.who p.accs = .all s1 as →
      (p.stage = 0 → lanePsn as 1 = false → s.workTurn x g = s1.putEngine x.key (x.e.swap i [{ p with stage := 1, idx := idxVal x.e.words (laneBytes as 1), accs := [] }])) ∧
      (p.stage = 1 → let o := g.out p as
        ∀ s2 bs s3 cs, (s1.setFlags x.key o.flags).layEngine x .write 0 (g.cut p).dst p.n o.bytes o.psn (decide ((g.cut p).dst % 64 = 0 ∧ p.n = 64)) = .ok s2 bs →
          s2.issueAccs x.key bs = (s3, cs) → s.workTurn x g = s3.putEngine x.key (x.e.swap i [{ p with stage := 2, accs := cs }])) ∧
      (2 ≤ p.stage → s.workTurn x g = (s1.noteErrs x.key as).putEngine x.key (x.e.swap i [])))) ∧
  (∀ (w : List Word) (p : EngPiece), let c := (copyKind w).cut p
    c.dst % 64 + c.n ≤ 64 ∧ (engKind w ≠ 0x21 → engKind w ≠ 0x22 → c.src = ((field (dw w 1) 55 0 + p.off : Nat) : Int) ∧ c.dst = ((field (dw w 2) 55 0 + p.off : Nat) : Int))) ∧
  (∀ (s : State) (x : ESite) r, tget s.regions x.key = some r → ∃ r', tget (s.drain x).regions x.key = some r' ∧ (∀ e ∈ r'.engines, e.id ≠ x.e.id) ∧
    (s.drain x).mem = s.mem ∧ ∀ k, x.e.cairn = some k → (s.drain x).cairn.val k = cairnSum (s.cairn.val k) 1) ∧
  (∀ (s : State) m e q rest, tget s.heap.engines m = some e → e.queue = q :: rest →
    (e.pass = 0 → exec (.relocRun m) s = .next (s.putEng m { RelocEng.blank with queue := e.queue, pass := 1 })) ∧
    (e.pass = 1 → q.cancelled = false → exec (.relocRun m) s = .next (s.putEng m { e with pass := 2, pages := s.relocSelect q m })) ∧
    (e.pass = 2 → exec (.relocRun m) s = .next ((s.markPages q e.pages .evacuating).putEng m { e with pass := 3, cur := 0, off := 0 })) ∧
    (e.pass = 3 → exec (.relocRun m) s = .next (s.evacuate m e q)) ∧
    (e.pass = 4 → exec (.relocRun m) s = .next ((s.markPages q e.pages .forwarded).putEng m { e with pass := 5 })) ∧
    (5 ≤ e.pass → exec (.relocRun m) s = .next (s.relocReport m e q))) ∧
  (∀ (s : State) m e q off d w n, e.pages[e.cur]? = some w → e.moving = none → q.cancelled = false → ∀ frame, s.pageFrame q.ctx w.1 = some frame →
    off = e.off → n = hdrSize (s.mem.word (frame + off)) → off < 65536 → n ≠ 0 →
    ((hdrState (s.mem.word (frame + off)) ≠ 1 ∨ hdrPin (s.mem.word (frame + off)) ≠ 0) → s.evacuate m e q = s.putEng m { e with off := off + n }) ∧
    (hdrState (s.mem.word (frame + off)) = 1 → hdrPin (s.mem.word (frame + off)) = 0 → (s.mem.frame frame).cow = false → e.dest = some d → d.fill + n ≤ 65536 →
      s.evacuate m e q = State.putEng { s with mem := s.mem.putHeader (frame + off) (setHdrState (s.mem.word (frame + off)) 2) } m { e with moving := some (frame, off) })) ∧
  (∀ (s : State) m e q, q.cancelled = false → e.full = false → (∀ left cairn was, tget s.heap.reports q.id = some (left, cairn, was) → left ≤ 1 → cairn < 2 ^ 20 →
    ∃ t, s.relocReport m e q = t ∧ t.cairn.val cairn = cairnSum (s.cairn.val cairn) 1 ∧ t.cairn.flag cairn = (was || s.cairn.flag cairn) ∧
      tgetD t.heap.engines m RelocEng.blank = { RelocEng.blank with queue := e.queue.tail }))
end

