-- ==== Sys2Proof/Laws/State.lean ====
section
/-! SUPPORT. One lemma for each field of each update of the state, of a tile, of the links and of memory, and the laws of tables. -/

namespace Sys2Proof.Machine

/-! ### Tables -/

theorem tget_cons {α : Type} (k n : Nat) (v : α) (t : Tab α) : tget ((k, v) :: t) n = if k = n then some v else tget t n := by
  rfl

@[simp] theorem tget_tput_self {α : Type} (t : Tab α) (n : Nat) (v : α) : tget (tput t n v) n = some v := by
  induction t with
  | nil => simp [tput, tget]
  | cons e t ih => obtain ⟨k, w⟩ := e; simp only [tput]; split <;> (try split) <;> simp_all [tget]

@[simp] theorem tget_tput_ne {α : Type} (t : Tab α) (n m : Nat) (v : α) (h : m ≠ n) : tget (tput t n v) m = tget t m := by
  induction t with
  | nil => simp [tput, tget, Ne.symm h]
  | cons e t ih =>
    obtain ⟨k, w⟩ := e
    simp only [tput]
    split
    · simp [tget, Ne.symm h]
    · split
      · simp_all [tget, Ne.symm h]
      · simp [tget, ih]

theorem tget_tput {α : Type} (t : Tab α) (n m : Nat) (v : α) : tget (tput t n v) m = if m = n then some v else tget t m := by
  split
  · subst_vars; simp
  · simp_all

theorem tgetD_tput {α : Type} (t : Tab α) (n m : Nat) (v d : α) : tgetD (tput t n v) m d = if m = n then v else tgetD t m d := by
  simp only [tgetD, tget_tput]; split <;> simp

theorem tget_filter {α : Type} (p : Nat → Bool) (t : Tab α) (n : Nat) : tget (t.filter fun e => p e.1) n = if p n then tget t n else none := by
  induction t with
  | nil => simp [tget]
  | cons e t ih =>
    obtain ⟨k, w⟩ := e
    by_cases hk : p k <;> by_cases hn : k = n <;> simp_all [tget]

@[simp] theorem tget_tdel_self {α : Type} (t : Tab α) (n : Nat) : tget (tdel t n) n = none := by
  simpa [tdel] using tget_filter (fun k => decide (k ≠ n)) t n

@[simp] theorem tget_tdel_ne {α : Type} (t : Tab α) (n m : Nat) (h : m ≠ n) : tget (tdel t n) m = tget t m := by
  simpa [tdel, h] using tget_filter (fun k => decide (k ≠ n)) t m

theorem tget_map {α β : Type} (f : Nat → α → β) (t : Tab α) (n : Nat) : tget (t.map fun e => (e.1, f e.1 e.2)) n = (tget t n).map (f n) := by
  induction t with
  | nil => simp [tget]
  | cons e t ih => obtain ⟨k, w⟩ := e; by_cases h : k = n <;> simp_all [tget]

/-! ### Lists -/

@[simp] theorem length_lput {α : Type} (l : List α) (n : Nat) (v : α) : (lput l n v).length = l.length := by
  induction l generalizing n with
  | nil => cases n <;> simp [lput]
  | cons a l ih => cases n <;> simp [lput, ih]

theorem getElem?_lput {α : Type} (l : List α) (n k : Nat) (v : α) : (lput l n v)[k]? = if k = n then (l[k]?).map (fun _ => v) else l[k]? := by
  induction l generalizing n k with
  | nil => cases n <;> simp [lput]
  | cons a l ih => cases n <;> cases k <;> simp [lput, ih]

theorem mem_ninsert (l : List Nat) (n k : Nat) : k ∈ ninsert l n ↔ k = n ∨ k ∈ l := by
  induction l with
  | nil => simp [ninsert]
  | cons a l ih => simp only [ninsert]; split <;> (try split) <;> (simp_all; try tauto)

/-! ### The state -/

@[simp] theorem State.putRegion_now (s : State) (k : Nat) (r : Region) : (s.putRegion k r).now = s.now := rfl
@[simp] theorem State.putRegion_draws (s : State) (k : Nat) (r : Region) : (s.putRegion k r).draws = s.draws := rfl
@[simp] theorem State.putRegion_agenda (s : State) (k : Nat) (r : Region) : (s.putRegion k r).agenda = s.agenda := rfl
@[simp] theorem State.putRegion_actor (s : State) (k : Nat) (r : Region) : (s.putRegion k r).actor = s.actor := rfl
@[simp] theorem State.putRegion_dev (s : State) (k : Nat) (r : Region) : (s.putRegion k r).dev = s.dev := rfl
@[simp] theorem State.putRegion_link (s : State) (k : Nat) (r : Region) : (s.putRegion k r).link = s.link := rfl
@[simp] theorem State.putRegion_mem (s : State) (k : Nat) (r : Region) : (s.putRegion k r).mem = s.mem := rfl
@[simp] theorem State.putRegion_cairn (s : State) (k : Nat) (r : Region) : (s.putRegion k r).cairn = s.cairn := rfl
@[simp] theorem State.putRegion_host (s : State) (k : Nat) (r : Region) : (s.putRegion k r).host = s.host := rfl
@[simp] theorem State.putRegion_regions (s : State) (k : Nat) (r : Region) : (s.putRegion k r).regions = tput s.regions k r := rfl
@[simp] theorem State.putRegion_parked (s : State) (k : Nat) (r : Region) : (s.putRegion k r).parked = s.parked := rfl
@[simp] theorem State.putRegion_tiles (s : State) (k : Nat) (r : Region) : (s.putRegion k r).tiles = s.tiles := rfl
@[simp] theorem State.putRegion_heap (s : State) (k : Nat) (r : Region) : (s.putRegion k r).heap = s.heap := rfl
@[simp] theorem State.putRegion_caches (s : State) (k : Nat) (r : Region) : (s.putRegion k r).caches = s.caches := rfl

@[simp] theorem State.putTile_now (s : State) (k : Nat) (t : Tile) : (s.putTile k t).now = s.now := rfl
@[simp] theorem State.putTile_draws (s : State) (k : Nat) (t : Tile) : (s.putTile k t).draws = s.draws := rfl
@[simp] theorem State.putTile_agenda (s : State) (k : Nat) (t : Tile) : (s.putTile k t).agenda = s.agenda := rfl
@[simp] theorem State.putTile_actor (s : State) (k : Nat) (t : Tile) : (s.putTile k t).actor = s.actor := rfl
@[simp] theorem State.putTile_dev (s : State) (k : Nat) (t : Tile) : (s.putTile k t).dev = s.dev := rfl
@[simp] theorem State.putTile_link (s : State) (k : Nat) (t : Tile) : (s.putTile k t).link = s.link := rfl
@[simp] theorem State.putTile_mem (s : State) (k : Nat) (t : Tile) : (s.putTile k t).mem = s.mem := rfl
@[simp] theorem State.putTile_cairn (s : State) (k : Nat) (t : Tile) : (s.putTile k t).cairn = s.cairn := rfl
@[simp] theorem State.putTile_host (s : State) (k : Nat) (t : Tile) : (s.putTile k t).host = s.host := rfl
@[simp] theorem State.putTile_regions (s : State) (k : Nat) (t : Tile) : (s.putTile k t).regions = s.regions := rfl
@[simp] theorem State.putTile_parked (s : State) (k : Nat) (t : Tile) : (s.putTile k t).parked = s.parked := rfl
@[simp] theorem State.putTile_tiles (s : State) (k : Nat) (t : Tile) : (s.putTile k t).tiles = tput s.tiles k t := rfl
@[simp] theorem State.putTile_heap (s : State) (k : Nat) (t : Tile) : (s.putTile k t).heap = s.heap := rfl
@[simp] theorem State.putTile_caches (s : State) (k : Nat) (t : Tile) : (s.putTile k t).caches = s.caches := rfl

@[simp] theorem State.post_now (s : State) (t : Turn) : (s.post t).now = s.now := rfl
@[simp] theorem State.post_draws (s : State) (t : Turn) : (s.post t).draws = s.draws := rfl
@[simp] theorem State.post_agenda (s : State) (t : Turn) : (s.post t).agenda = s.agenda ++ [t] := rfl
@[simp] theorem State.post_actor (s : State) (t : Turn) : (s.post t).actor = s.actor := rfl
@[simp] theorem State.post_dev (s : State) (t : Turn) : (s.post t).dev = s.dev := rfl
@[simp] theorem State.post_link (s : State) (t : Turn) : (s.post t).link = s.link := rfl
@[simp] theorem State.post_mem (s : State) (t : Turn) : (s.post t).mem = s.mem := rfl
@[simp] theorem State.post_cairn (s : State) (t : Turn) : (s.post t).cairn = s.cairn := rfl
@[simp] theorem State.post_host (s : State) (t : Turn) : (s.post t).host = s.host := rfl
@[simp] theorem State.post_regions (s : State) (t : Turn) : (s.post t).regions = s.regions := rfl
@[simp] theorem State.post_parked (s : State) (t : Turn) : (s.post t).parked = s.parked := rfl
@[simp] theorem State.post_tiles (s : State) (t : Turn) : (s.post t).tiles = s.tiles := rfl
@[simp] theorem State.post_heap (s : State) (t : Turn) : (s.post t).heap = s.heap := rfl
@[simp] theorem State.post_caches (s : State) (t : Turn) : (s.post t).caches = s.caches := rfl

@[simp] theorem State.report_now (s : State) (r : Report) : (s.report r).now = s.now := rfl
@[simp] theorem State.report_draws (s : State) (r : Report) : (s.report r).draws = s.draws := rfl
@[simp] theorem State.report_agenda (s : State) (r : Report) : (s.report r).agenda = s.agenda := rfl
@[simp] theorem State.report_actor (s : State) (r : Report) : (s.report r).actor = s.actor := rfl
@[simp] theorem State.report_dev (s : State) (r : Report) : (s.report r).dev = { s.dev with reports := s.dev.reports ++ [r] } := rfl
@[simp] theorem State.report_link (s : State) (r : Report) : (s.report r).link = s.link := rfl
@[simp] theorem State.report_mem (s : State) (r : Report) : (s.report r).mem = s.mem := rfl
@[simp] theorem State.report_cairn (s : State) (r : Report) : (s.report r).cairn = s.cairn := rfl
@[simp] theorem State.report_host (s : State) (r : Report) : (s.report r).host = s.host := rfl
@[simp] theorem State.report_regions (s : State) (r : Report) : (s.report r).regions = s.regions := rfl
@[simp] theorem State.report_parked (s : State) (r : Report) : (s.report r).parked = s.parked := rfl
@[simp] theorem State.report_tiles (s : State) (r : Report) : (s.report r).tiles = s.tiles := rfl
@[simp] theorem State.report_heap (s : State) (r : Report) : (s.report r).heap = s.heap := rfl
@[simp] theorem State.report_caches (s : State) (r : Report) : (s.report r).caches = s.caches := rfl

@[simp] theorem State.putCtx_now (s : State) (c : Nat) (x : Ctx) : (s.putCtx c x).now = s.now := rfl
@[simp] theorem State.putCtx_draws (s : State) (c : Nat) (x : Ctx) : (s.putCtx c x).draws = s.draws := rfl
@[simp] theorem State.putCtx_agenda (s : State) (c : Nat) (x : Ctx) : (s.putCtx c x).agenda = s.agenda := rfl
@[simp] theorem State.putCtx_actor (s : State) (c : Nat) (x : Ctx) : (s.putCtx c x).actor = s.actor := rfl
@[simp] theorem State.putCtx_dev (s : State) (c : Nat) (x : Ctx) : (s.putCtx c x).dev = s.dev := rfl
@[simp] theorem State.putCtx_link (s : State) (c : Nat) (x : Ctx) : (s.putCtx c x).link = s.link := rfl
@[simp] theorem State.putCtx_mem (s : State) (c : Nat) (x : Ctx) : (s.putCtx c x).mem = s.mem := rfl
@[simp] theorem State.putCtx_cairn (s : State) (c : Nat) (x : Ctx) : (s.putCtx c x).cairn = s.cairn := rfl
@[simp] theorem State.putCtx_host (s : State) (c : Nat) (x : Ctx) : (s.putCtx c x).host = { s.host with ctxs := tput s.host.ctxs c x } := rfl
@[simp] theorem State.putCtx_regions (s : State) (c : Nat) (x : Ctx) : (s.putCtx c x).regions = s.regions := rfl
@[simp] theorem State.putCtx_parked (s : State) (c : Nat) (x : Ctx) : (s.putCtx c x).parked = s.parked := rfl
@[simp] theorem State.putCtx_tiles (s : State) (c : Nat) (x : Ctx) : (s.putCtx c x).tiles = s.tiles := rfl
@[simp] theorem State.putCtx_heap (s : State) (c : Nat) (x : Ctx) : (s.putCtx c x).heap = s.heap := rfl
@[simp] theorem State.putCtx_caches (s : State) (c : Nat) (x : Ctx) : (s.putCtx c x).caches = s.caches := rfl

@[simp] theorem State.putLaunch_now (s : State) (l : Nat) (x : Launch) : (s.putLaunch l x).now = s.now := rfl
@[simp] theorem State.putLaunch_draws (s : State) (l : Nat) (x : Launch) : (s.putLaunch l x).draws = s.draws := rfl
@[simp] theorem State.putLaunch_agenda (s : State) (l : Nat) (x : Launch) : (s.putLaunch l x).agenda = s.agenda := rfl
@[simp] theorem State.putLaunch_actor (s : State) (l : Nat) (x : Launch) : (s.putLaunch l x).actor = s.actor := rfl
@[simp] theorem State.putLaunch_dev (s : State) (l : Nat) (x : Launch) : (s.putLaunch l x).dev = s.dev := rfl
@[simp] theorem State.putLaunch_link (s : State) (l : Nat) (x : Launch) : (s.putLaunch l x).link = s.link := rfl
@[simp] theorem State.putLaunch_mem (s : State) (l : Nat) (x : Launch) : (s.putLaunch l x).mem = s.mem := rfl
@[simp] theorem State.putLaunch_cairn (s : State) (l : Nat) (x : Launch) : (s.putLaunch l x).cairn = s.cairn := rfl
@[simp] theorem State.putLaunch_host (s : State) (l : Nat) (x : Launch) : (s.putLaunch l x).host = { s.host with launches := tput s.host.launches l x } := rfl
@[simp] theorem State.putLaunch_regions (s : State) (l : Nat) (x : Launch) : (s.putLaunch l x).regions = s.regions := rfl
@[simp] theorem State.putLaunch_parked (s : State) (l : Nat) (x : Launch) : (s.putLaunch l x).parked = s.parked := rfl
@[simp] theorem State.putLaunch_tiles (s : State) (l : Nat) (x : Launch) : (s.putLaunch l x).tiles = s.tiles := rfl
@[simp] theorem State.putLaunch_heap (s : State) (l : Nat) (x : Launch) : (s.putLaunch l x).heap = s.heap := rfl
@[simp] theorem State.putLaunch_caches (s : State) (l : Nat) (x : Launch) : (s.putLaunch l x).caches = s.caches := rfl

@[simp] theorem State.drawn_now (s : State) : (s.drawn).now = s.now := rfl
@[simp] theorem State.drawn_draws (s : State) : (s.drawn).draws = s.draws + 1 := rfl
@[simp] theorem State.drawn_agenda (s : State) : (s.drawn).agenda = s.agenda := rfl
@[simp] theorem State.drawn_actor (s : State) : (s.drawn).actor = s.actor := rfl
@[simp] theorem State.drawn_dev (s : State) : (s.drawn).dev = s.dev := rfl
@[simp] theorem State.drawn_link (s : State) : (s.drawn).link = s.link := rfl
@[simp] theorem State.drawn_mem (s : State) : (s.drawn).mem = s.mem := rfl
@[simp] theorem State.drawn_cairn (s : State) : (s.drawn).cairn = s.cairn := rfl
@[simp] theorem State.drawn_host (s : State) : (s.drawn).host = s.host := rfl
@[simp] theorem State.drawn_regions (s : State) : (s.drawn).regions = s.regions := rfl
@[simp] theorem State.drawn_parked (s : State) : (s.drawn).parked = s.parked := rfl
@[simp] theorem State.drawn_tiles (s : State) : (s.drawn).tiles = s.tiles := rfl
@[simp] theorem State.drawn_heap (s : State) : (s.drawn).heap = s.heap := rfl
@[simp] theorem State.drawn_caches (s : State) : (s.drawn).caches = s.caches := rfl

@[simp] theorem State.serving_now (s : State) (a : Actor) : (s.serving a).now = s.now := rfl
@[simp] theorem State.serving_draws (s : State) (a : Actor) : (s.serving a).draws = s.draws := rfl
@[simp] theorem State.serving_agenda (s : State) (a : Actor) : (s.serving a).agenda = s.agenda := rfl
@[simp] theorem State.serving_actor (s : State) (a : Actor) : (s.serving a).actor = a := rfl
@[simp] theorem State.serving_dev (s : State) (a : Actor) : (s.serving a).dev = s.dev := rfl
@[simp] theorem State.serving_link (s : State) (a : Actor) : (s.serving a).link = s.link := rfl
@[simp] theorem State.serving_mem (s : State) (a : Actor) : (s.serving a).mem = s.mem := rfl
@[simp] theorem State.serving_cairn (s : State) (a : Actor) : (s.serving a).cairn = s.cairn := rfl
@[simp] theorem State.serving_host (s : State) (a : Actor) : (s.serving a).host = s.host := rfl
@[simp] theorem State.serving_regions (s : State) (a : Actor) : (s.serving a).regions = s.regions := rfl
@[simp] theorem State.serving_parked (s : State) (a : Actor) : (s.serving a).parked = s.parked := rfl
@[simp] theorem State.serving_tiles (s : State) (a : Actor) : (s.serving a).tiles = s.tiles := rfl
@[simp] theorem State.serving_heap (s : State) (a : Actor) : (s.serving a).heap = s.heap := rfl
@[simp] theorem State.serving_caches (s : State) (a : Actor) : (s.serving a).caches = s.caches := rfl

@[simp] theorem State.cairnAdd_now (s : State) (k : Nat) (n : Word) : (s.cairnAdd k n).now = s.now := rfl
@[simp] theorem State.cairnAdd_draws (s : State) (k : Nat) (n : Word) : (s.cairnAdd k n).draws = s.draws := rfl
@[simp] theorem State.cairnAdd_agenda (s : State) (k : Nat) (n : Word) : (s.cairnAdd k n).agenda = s.agenda := rfl
@[simp] theorem State.cairnAdd_actor (s : State) (k : Nat) (n : Word) : (s.cairnAdd k n).actor = s.actor := rfl
@[simp] theorem State.cairnAdd_dev (s : State) (k : Nat) (n : Word) : (s.cairnAdd k n).dev = s.dev := rfl
@[simp] theorem State.cairnAdd_link (s : State) (k : Nat) (n : Word) : (s.cairnAdd k n).link = s.link := rfl
@[simp] theorem State.cairnAdd_mem (s : State) (k : Nat) (n : Word) : (s.cairnAdd k n).mem = s.mem := rfl
@[simp] theorem State.cairnAdd_cairn (s : State) (k : Nat) (n : Word) : (s.cairnAdd k n).cairn = s.cairn.add k n := rfl
@[simp] theorem State.cairnAdd_host (s : State) (k : Nat) (n : Word) : (s.cairnAdd k n).host = s.host := rfl
@[simp] theorem State.cairnAdd_regions (s : State) (k : Nat) (n : Word) : (s.cairnAdd k n).regions = s.regions := rfl
@[simp] theorem State.cairnAdd_parked (s : State) (k : Nat) (n : Word) : (s.cairnAdd k n).parked = s.parked := rfl
@[simp] theorem State.cairnAdd_tiles (s : State) (k : Nat) (n : Word) : (s.cairnAdd k n).tiles = s.tiles := rfl
@[simp] theorem State.cairnAdd_heap (s : State) (k : Nat) (n : Word) : (s.cairnAdd k n).heap = s.heap := rfl
@[simp] theorem State.cairnAdd_caches (s : State) (k : Nat) (n : Word) : (s.cairnAdd k n).caches = s.caches := rfl

@[simp] theorem State.advance_now (s : State) (k : Nat) (c : Bool) : (s.advance k c).now = s.now := by
  simp only [State.advance]; split <;> rfl
@[simp] theorem State.advance_draws (s : State) (k : Nat) (c : Bool) : (s.advance k c).draws = s.draws := by
  simp only [State.advance]; split <;> rfl
@[simp] theorem State.advance_agenda (s : State) (k : Nat) (c : Bool) : (s.advance k c).agenda = s.agenda := by
  simp only [State.advance]; split <;> rfl
@[simp] theorem State.advance_actor (s : State) (k : Nat) (c : Bool) : (s.advance k c).actor = s.actor := by
  simp only [State.advance]; split <;> rfl
theorem State.advance_dev (s : State) (k : Nat) (c : Bool) : (s.advance k c).dev =
    if k < Config.cairnCount ∧ cairnOver (s.cairn.val k) 1 = true then { s.dev with reports := s.dev.reports ++ [.cairnOverflow k] } else s.dev := by
  simp only [State.advance]; split <;> rfl
@[simp] theorem State.advance_link (s : State) (k : Nat) (c : Bool) : (s.advance k c).link = s.link := by
  simp only [State.advance]; split <;> rfl
@[simp] theorem State.advance_mem (s : State) (k : Nat) (c : Bool) : (s.advance k c).mem = s.mem := by
  simp only [State.advance]; split <;> rfl
@[simp] theorem State.advance_cairn (s : State) (k : Nat) (c : Bool) : (s.advance k c).cairn = s.cairn.advance k c := by
  simp only [State.advance]; split <;> rfl
@[simp] theorem State.advance_host (s : State) (k : Nat) (c : Bool) : (s.advance k c).host = s.host := by
  simp only [State.advance]; split <;> rfl
@[simp] theorem State.advance_regions (s : State) (k : Nat) (c : Bool) : (s.advance k c).regions = s.regions := by
  simp only [State.advance]; split <;> rfl
@[simp] theorem State.advance_parked (s : State) (k : Nat) (c : Bool) : (s.advance k c).parked = s.parked := by
  simp only [State.advance]; split <;> rfl
@[simp] theorem State.advance_tiles (s : State) (k : Nat) (c : Bool) : (s.advance k c).tiles = s.tiles := by
  simp only [State.advance]; split <;> rfl
@[simp] theorem State.advance_heap (s : State) (k : Nat) (c : Bool) : (s.advance k c).heap = s.heap := by
  simp only [State.advance]; split <;> rfl
@[simp] theorem State.advance_caches (s : State) (k : Nat) (c : Bool) : (s.advance k c).caches = s.caches := by
  simp only [State.advance]; split <;> rfl

@[simp] theorem State.putQueue_now (s : State) (n : Nat) (q : LQueue) : (s.putQueue n q).now = s.now := rfl
@[simp] theorem State.putQueue_draws (s : State) (n : Nat) (q : LQueue) : (s.putQueue n q).draws = s.draws := rfl
@[simp] theorem State.putQueue_agenda (s : State) (n : Nat) (q : LQueue) : (s.putQueue n q).agenda = s.agenda := rfl
@[simp] theorem State.putQueue_actor (s : State) (n : Nat) (q : LQueue) : (s.putQueue n q).actor = s.actor := rfl
@[simp] theorem State.putQueue_dev (s : State) (n : Nat) (q : LQueue) : (s.putQueue n q).dev = s.dev := rfl
@[simp] theorem State.putQueue_link (s : State) (n : Nat) (q : LQueue) : (s.putQueue n q).link = s.link := rfl
@[simp] theorem State.putQueue_mem (s : State) (n : Nat) (q : LQueue) : (s.putQueue n q).mem = s.mem := rfl
@[simp] theorem State.putQueue_cairn (s : State) (n : Nat) (q : LQueue) : (s.putQueue n q).cairn = s.cairn := rfl
@[simp] theorem State.putQueue_host (s : State) (n : Nat) (q : LQueue) : (s.putQueue n q).host = { s.host with lq := tput s.host.lq n q } := rfl
@[simp] theorem State.putQueue_regions (s : State) (n : Nat) (q : LQueue) : (s.putQueue n q).regions = s.regions := rfl
@[simp] theorem State.putQueue_parked (s : State) (n : Nat) (q : LQueue) : (s.putQueue n q).parked = s.parked := rfl
@[simp] theorem State.putQueue_tiles (s : State) (n : Nat) (q : LQueue) : (s.putQueue n q).tiles = s.tiles := rfl
@[simp] theorem State.putQueue_heap (s : State) (n : Nat) (q : LQueue) : (s.putQueue n q).heap = s.heap := rfl
@[simp] theorem State.putQueue_caches (s : State) (n : Nat) (q : LQueue) : (s.putQueue n q).caches = s.caches := rfl

@[simp] theorem State.putEng_now (s : State) (m : Nat) (e : RelocEng) : (s.putEng m e).now = s.now := rfl
@[simp] theorem State.putEng_draws (s : State) (m : Nat) (e : RelocEng) : (s.putEng m e).draws = s.draws := rfl
@[simp] theorem State.putEng_agenda (s : State) (m : Nat) (e : RelocEng) : (s.putEng m e).agenda = s.agenda := rfl
@[simp] theorem State.putEng_actor (s : State) (m : Nat) (e : RelocEng) : (s.putEng m e).actor = s.actor := rfl
@[simp] theorem State.putEng_dev (s : State) (m : Nat) (e : RelocEng) : (s.putEng m e).dev = s.dev := rfl
@[simp] theorem State.putEng_link (s : State) (m : Nat) (e : RelocEng) : (s.putEng m e).link = s.link := rfl
@[simp] theorem State.putEng_mem (s : State) (m : Nat) (e : RelocEng) : (s.putEng m e).mem = s.mem := rfl
@[simp] theorem State.putEng_cairn (s : State) (m : Nat) (e : RelocEng) : (s.putEng m e).cairn = s.cairn := rfl
@[simp] theorem State.putEng_host (s : State) (m : Nat) (e : RelocEng) : (s.putEng m e).host = s.host := rfl
@[simp] theorem State.putEng_regions (s : State) (m : Nat) (e : RelocEng) : (s.putEng m e).regions = s.regions := rfl
@[simp] theorem State.putEng_parked (s : State) (m : Nat) (e : RelocEng) : (s.putEng m e).parked = s.parked := rfl
@[simp] theorem State.putEng_tiles (s : State) (m : Nat) (e : RelocEng) : (s.putEng m e).tiles = s.tiles := rfl
@[simp] theorem State.putEng_heap (s : State) (m : Nat) (e : RelocEng) : (s.putEng m e).heap = { s.heap with engines := tput s.heap.engines m e } := rfl
@[simp] theorem State.putEng_caches (s : State) (m : Nat) (e : RelocEng) : (s.putEng m e).caches = s.caches := rfl

@[simp] theorem State.mgmtDone_now (s : State) (n : Nat) : (s.mgmtDone n).now = s.now := rfl
@[simp] theorem State.mgmtDone_draws (s : State) (n : Nat) : (s.mgmtDone n).draws = s.draws := rfl
@[simp] theorem State.mgmtDone_agenda (s : State) (n : Nat) : (s.mgmtDone n).agenda = s.agenda := rfl
@[simp] theorem State.mgmtDone_actor (s : State) (n : Nat) : (s.mgmtDone n).actor = s.actor := rfl
@[simp] theorem State.mgmtDone_dev (s : State) (n : Nat) : (s.mgmtDone n).dev = { s.dev with mgmtstat := BitVec.ofNat 32 n } := rfl
@[simp] theorem State.mgmtDone_link (s : State) (n : Nat) : (s.mgmtDone n).link = s.link := rfl
@[simp] theorem State.mgmtDone_mem (s : State) (n : Nat) : (s.mgmtDone n).mem = s.mem := rfl
@[simp] theorem State.mgmtDone_cairn (s : State) (n : Nat) : (s.mgmtDone n).cairn = s.cairn := rfl
@[simp] theorem State.mgmtDone_host (s : State) (n : Nat) : (s.mgmtDone n).host = s.host := rfl
@[simp] theorem State.mgmtDone_regions (s : State) (n : Nat) : (s.mgmtDone n).regions = s.regions := rfl
@[simp] theorem State.mgmtDone_parked (s : State) (n : Nat) : (s.mgmtDone n).parked = s.parked := rfl
@[simp] theorem State.mgmtDone_tiles (s : State) (n : Nat) : (s.mgmtDone n).tiles = s.tiles := rfl
@[simp] theorem State.mgmtDone_heap (s : State) (n : Nat) : (s.mgmtDone n).heap = s.heap := rfl
@[simp] theorem State.mgmtDone_caches (s : State) (n : Nat) : (s.mgmtDone n).caches = s.caches := rfl

@[simp] theorem State.tile_putTile (s : State) (k : Nat) (t : Tile) : (s.putTile k t).tile k = t := by simp [State.tile, tgetD]
@[simp] theorem State.tile_putTile_ne (s : State) (k j : Nat) (t : Tile) (h : j ≠ k) : (s.putTile k t).tile j = s.tile j := by simp [State.tile, tgetD, h]

/-! ### Tiles -/

@[simp] theorem Tile.putPe_pes (t : Tile) (k : Nat) (p : Pe) : (t.putPe k p).pes = tput t.pes k p := rfl
@[simp] theorem Tile.putPe_chans (t : Tile) (k : Nat) (p : Pe) : (t.putPe k p).chans = t.chans := rfl
@[simp] theorem Tile.putPe_miss (t : Tile) (k : Nat) (p : Pe) : (t.putPe k p).miss = t.miss := rfl
@[simp] theorem Tile.putPe_ready (t : Tile) (k : Nat) (p : Pe) : (t.putPe k p).ready = t.ready := rfl
@[simp] theorem Tile.putPe_streams (t : Tile) (k : Nat) (p : Pe) : (t.putPe k p).streams = t.streams := rfl
@[simp] theorem Tile.putPe_stmts (t : Tile) (k : Nat) (p : Pe) : (t.putPe k p).stmts = t.stmts := rfl
@[simp] theorem Tile.putPe_slots (t : Tile) (k : Nat) (p : Pe) : (t.putPe k p).slots = t.slots := rfl
@[simp] theorem Tile.putPe_rows (t : Tile) (k : Nat) (p : Pe) : (t.putPe k p).rows = t.rows := rfl
@[simp] theorem Tile.putPe_mpeB (t : Tile) (k : Nat) (p : Pe) : (t.putPe k p).mpeB = t.mpeB := rfl
@[simp] theorem Tile.putPe_tlb (t : Tile) (k : Nat) (p : Pe) : (t.putPe k p).tlb = t.tlb := rfl
@[simp] theorem Tile.putPe_barrier (t : Tile) (k : Nat) (p : Pe) : (t.putPe k p).barrier = t.barrier := rfl
@[simp] theorem Tile.putPe_bufs (t : Tile) (k : Nat) (p : Pe) : (t.putPe k p).bufs = t.bufs := rfl
@[simp] theorem Tile.putPe_delayUsed (t : Tile) (k : Nat) (p : Pe) : (t.putPe k p).delayUsed = t.delayUsed := rfl
@[simp] theorem Tile.putPe_spareUsed (t : Tile) (k : Nat) (p : Pe) : (t.putPe k p).spareUsed = t.spareUsed := rfl
@[simp] theorem Tile.putPe_fenced (t : Tile) (k : Nat) (p : Pe) : (t.putPe k p).fenced = t.fenced := rfl
@[simp] theorem Tile.putPe_nextId (t : Tile) (k : Nat) (p : Pe) : (t.putPe k p).nextId = t.nextId := rfl

@[simp] theorem Tile.putStream_pes (t : Tile) (k : Nat) (p : Stream) : (t.putStream k p).pes = t.pes := rfl
@[simp] theorem Tile.putStream_chans (t : Tile) (k : Nat) (p : Stream) : (t.putStream k p).chans = t.chans := rfl
@[simp] theorem Tile.putStream_miss (t : Tile) (k : Nat) (p : Stream) : (t.putStream k p).miss = t.miss := rfl
@[simp] theorem Tile.putStream_ready (t : Tile) (k : Nat) (p : Stream) : (t.putStream k p).ready = t.ready := rfl
@[simp] theorem Tile.putStream_streams (t : Tile) (k : Nat) (p : Stream) : (t.putStream k p).streams = tput t.streams k p := rfl
@[simp] theorem Tile.putStream_stmts (t : Tile) (k : Nat) (p : Stream) : (t.putStream k p).stmts = t.stmts := rfl
@[simp] theorem Tile.putStream_slots (t : Tile) (k : Nat) (p : Stream) : (t.putStream k p).slots = t.slots := rfl
@[simp] theorem Tile.putStream_rows (t : Tile) (k : Nat) (p : Stream) : (t.putStream k p).rows = t.rows := rfl
@[simp] theorem Tile.putStream_mpeB (t : Tile) (k : Nat) (p : Stream) : (t.putStream k p).mpeB = t.mpeB := rfl
@[simp] theorem Tile.putStream_tlb (t : Tile) (k : Nat) (p : Stream) : (t.putStream k p).tlb = t.tlb := rfl
@[simp] theorem Tile.putStream_barrier (t : Tile) (k : Nat) (p : Stream) : (t.putStream k p).barrier = t.barrier := rfl
@[simp] theorem Tile.putStream_bufs (t : Tile) (k : Nat) (p : Stream) : (t.putStream k p).bufs = t.bufs := rfl
@[simp] theorem Tile.putStream_delayUsed (t : Tile) (k : Nat) (p : Stream) : (t.putStream k p).delayUsed = t.delayUsed := rfl
@[simp] theorem Tile.putStream_spareUsed (t : Tile) (k : Nat) (p : Stream) : (t.putStream k p).spareUsed = t.spareUsed := rfl
@[simp] theorem Tile.putStream_fenced (t : Tile) (k : Nat) (p : Stream) : (t.putStream k p).fenced = t.fenced := rfl
@[simp] theorem Tile.putStream_nextId (t : Tile) (k : Nat) (p : Stream) : (t.putStream k p).nextId = t.nextId := rfl

@[simp] theorem Tile.pe_putPe (t : Tile) (k : Nat) (p : Pe) : (t.putPe k p).pe k = p := by simp [Tile.pe, tgetD]
@[simp] theorem Tile.pe_putPe_ne (t : Tile) (k j : Nat) (p : Pe) (h : j ≠ k) : (t.putPe k p).pe j = t.pe j := by simp [Tile.pe, tgetD, h]
@[simp] theorem Tile.stream_putStream (t : Tile) (k : Nat) (p : Stream) : (t.putStream k p).stream k = p := by simp [Tile.stream, tgetD]
@[simp] theorem Tile.stream_putStream_ne (t : Tile) (k j : Nat) (p : Stream) (h : j ≠ k) : (t.putStream k p).stream j = t.stream j := by
  simp [Tile.stream, tgetD, h]

/-! ### Links -/

@[simp] theorem Link.putPort_ports (l : Link) (k : Nat) (p : PortSt) : (l.putPort k p).ports = tput l.ports k p := rfl
@[simp] theorem Link.putPort_rx (l : Link) (k : Nat) (p : PortSt) : (l.putPort k p).rx = l.rx := rfl
@[simp] theorem Link.putPort_held (l : Link) (k : Nat) (p : PortSt) : (l.putPort k p).held = l.held := rfl
@[simp] theorem Link.putPort_tx (l : Link) (k : Nat) (p : PortSt) : (l.putPort k p).tx = l.tx := rfl
@[simp] theorem Link.putPort_routes (l : Link) (k : Nat) (p : PortSt) : (l.putPort k p).routes = l.routes := rfl
@[simp] theorem Link.putPort_avoid (l : Link) (k : Nat) (p : PortSt) : (l.putPort k p).avoid = l.avoid := rfl
@[simp] theorem Link.putPort_topoDone (l : Link) (k : Nat) (p : PortSt) : (l.putPort k p).topoDone = l.topoDone := rfl
@[simp] theorem Link.putPort_reqs (l : Link) (k : Nat) (p : PortSt) : (l.putPort k p).reqs = l.reqs := rfl
@[simp] theorem Link.putPort_nextTag (l : Link) (k : Nat) (p : PortSt) : (l.putPort k p).nextTag = l.nextTag := rfl
@[simp] theorem Link.putPort_txns (l : Link) (k : Nat) (p : PortSt) : (l.putPort k p).txns = l.txns := rfl
@[simp] theorem Link.putPort_nextXid (l : Link) (k : Nat) (p : PortSt) : (l.putPort k p).nextXid = l.nextXid := rfl
@[simp] theorem Link.putPort_targets (l : Link) (k : Nat) (p : PortSt) : (l.putPort k p).targets = l.targets := rfl
@[simp] theorem Link.putPort_creds (l : Link) (k : Nat) (p : PortSt) : (l.putPort k p).creds = l.creds := rfl
@[simp] theorem Link.putPort_credKth (l : Link) (k : Nat) (p : PortSt) : (l.putPort k p).credKth = l.credKth := rfl
@[simp] theorem Link.port_putPort (l : Link) (k : Nat) (p : PortSt) : (l.putPort k p).port k = p := by simp [Link.port, Link.putPort, tgetD]
@[simp] theorem Link.port_putPort_ne (l : Link) (k j : Nat) (p : PortSt) (h : j ≠ k) : (l.putPort k p).port j = l.port j := by
  simp [Link.port, Link.putPort, tgetD, h]

/-! ### Memory -/

@[simp] theorem Mem.write_cells (m : Mem) (a : Nat) (bs : List Byte) : (m.write a bs).cells = cellsWrite m.cells a bs := rfl
@[simp] theorem Mem.write_poison (m : Mem) (a : Nat) (bs : List Byte) : (m.write a bs).poison = m.poison := rfl
@[simp] theorem Mem.write_frames (m : Mem) (a : Nat) (bs : List Byte) : (m.write a bs).frames = m.frames := rfl
@[simp] theorem Mem.write_wts (m : Mem) (a : Nat) (bs : List Byte) : (m.write a bs).wts = m.wts := rfl
@[simp] theorem Mem.write_rts (m : Mem) (a : Nat) (bs : List Byte) : (m.write a bs).rts = m.rts := rfl
@[simp] theorem Mem.write_pts (m : Mem) (a : Nat) (bs : List Byte) : (m.write a bs).pts = m.pts := rfl

@[simp] theorem Mem.putWord_cells (m : Mem) (a : Nat) (v : Word) : (m.putWord a v).cells = cellsWrite m.cells a (leBytes 8 v.toNat) := rfl
@[simp] theorem Mem.putWord_poison (m : Mem) (a : Nat) (v : Word) : (m.putWord a v).poison = m.poison := rfl
@[simp] theorem Mem.putWord_frames (m : Mem) (a : Nat) (v : Word) : (m.putWord a v).frames = m.frames := rfl
@[simp] theorem Mem.putWord_wts (m : Mem) (a : Nat) (v : Word) : (m.putWord a v).wts = m.wts := rfl
@[simp] theorem Mem.putWord_rts (m : Mem) (a : Nat) (v : Word) : (m.putWord a v).rts = m.rts := rfl
@[simp] theorem Mem.putWord_pts (m : Mem) (a : Nat) (v : Word) : (m.putWord a v).pts = m.pts := rfl

@[simp] theorem Mem.putFrame_cells (m : Mem) (a : Nat) (f : Frame) : (m.putFrame a f).cells = m.cells := rfl
@[simp] theorem Mem.putFrame_poison (m : Mem) (a : Nat) (f : Frame) : (m.putFrame a f).poison = m.poison := rfl
@[simp] theorem Mem.putFrame_frames (m : Mem) (a : Nat) (f : Frame) : (m.putFrame a f).frames = tput m.frames (frameOf a) f := rfl
@[simp] theorem Mem.putFrame_wts (m : Mem) (a : Nat) (f : Frame) : (m.putFrame a f).wts = m.wts := rfl
@[simp] theorem Mem.putFrame_rts (m : Mem) (a : Nat) (f : Frame) : (m.putFrame a f).rts = m.rts := rfl
@[simp] theorem Mem.putFrame_pts (m : Mem) (a : Nat) (f : Frame) : (m.putFrame a f).pts = m.pts := rfl

@[simp] theorem Mem.stampStore_cells (m : Mem) (a : Nat) : (m.stampStore a).cells = m.cells := rfl
@[simp] theorem Mem.stampStore_poison (m : Mem) (a : Nat) : (m.stampStore a).poison = m.poison := rfl
@[simp] theorem Mem.stampStore_frames (m : Mem) (a : Nat) : (m.stampStore a).frames = m.frames := rfl

@[simp] theorem Mem.stampLoad_cells (m : Mem) (a : Nat) : (m.stampLoad a).cells = m.cells := rfl
@[simp] theorem Mem.stampLoad_poison (m : Mem) (a : Nat) : (m.stampLoad a).poison = m.poison := rfl
@[simp] theorem Mem.stampLoad_frames (m : Mem) (a : Nat) : (m.stampLoad a).frames = m.frames := rfl
@[simp] theorem Mem.stampLoad_wts (m : Mem) (a : Nat) : (m.stampLoad a).wts = m.wts := rfl

@[simp] theorem Mem.setPoison_cells (m : Mem) (a : Nat) (p : Bool) : (m.setPoison a p).cells = m.cells := by cases p <;> rfl
@[simp] theorem Mem.frame_putFrame (m : Mem) (a : Nat) (f : Frame) : (m.putFrame a f).frame a = f := by simp [Mem.frame, Mem.putFrame, tgetD]

end Sys2Proof.Machine
end

