-- ==== Sys2Proof/Laws/Memory.lean ====
section
/-! SUPPORT. Main memory: every operation keeps the canonical form, a read gives what was written, and no other byte changes. -/

namespace Sys2Proof.Machine

/-! ### Cells -/

theorem cellsFrom_mono {lo lo' : Nat} {c : List Host.Cell} (h : cellsFrom lo c = true) (hl : lo' ≤ lo) : cellsFrom lo' c = true := by
  cases c with
  | nil => rfl
  | cons e c =>
    obtain ⟨k, b⟩ := e
    simp only [cellsFrom, Bool.and_eq_true, decide_eq_true_eq] at h ⊢
    exact ⟨⟨le_trans hl h.1.1, h.1.2⟩, h.2⟩

/-- A write of a byte keeps the canonical form. -/
theorem cellsFrom_cellPut {lo : Nat} {c : List Host.Cell} (h : cellsFrom lo c = true) (a : Nat) (b : Byte) (ha : lo ≤ a) : cellsFrom lo (cellPut c a b) = true := by
  induction c generalizing lo with
  | nil => simp only [cellPut]; split <;> simp_all [cellsFrom]
  | cons e c ih =>
    obtain ⟨k, d⟩ := e
    have h0 := h
    simp only [cellsFrom, Bool.and_eq_true, decide_eq_true_eq] at h
    simp only [cellPut]
    split
    · split
      · exact h0
      · simp only [cellsFrom, Bool.and_eq_true, decide_eq_true_eq]
        exact ⟨⟨ha, ‹_›⟩, ⟨by omega, h.1.2⟩, h.2⟩
    · split
      · split
        · exact cellsFrom_mono h.2 (by omega)
        · simp only [cellsFrom, Bool.and_eq_true, decide_eq_true_eq]
          exact ⟨⟨ha, ‹_›⟩, by subst_vars; exact h.2⟩
      · simp only [cellsFrom, Bool.and_eq_true, decide_eq_true_eq]
        exact ⟨h.1, ih h.2 (by omega)⟩

theorem cellGet_below {lo : Nat} {c : List Host.Cell} (h : cellsFrom lo c = true) {a : Nat} (ha : a < lo) : cellGet c a = memUnlisted := by
  cases c with
  | nil => rfl
  | cons e c =>
    obtain ⟨k, b⟩ := e
    simp only [cellsFrom, Bool.and_eq_true, decide_eq_true_eq] at h
    simp only [cellGet]
    rw [if_neg (by omega), if_pos (by omega)]

/-- What a byte reads as after a write of a byte. -/
theorem cellGet_cellPut {lo : Nat} {c : List Host.Cell} (h : cellsFrom lo c = true) (a k : Nat) (b : Byte) :
    cellGet (cellPut c a b) k = if k = a then b else cellGet c k := by
  induction c generalizing lo with
  | nil => simp only [cellPut]; split <;> simp only [cellGet] <;> (repeat' split) <;> first | rfl | omega | simp_all
  | cons e c ih =>
    obtain ⟨j, d⟩ := e
    simp only [cellsFrom, Bool.and_eq_true, decide_eq_true_eq] at h
    have hb := fun (x : Nat) (hx : x < j + 1) => cellGet_below h.2 hx
    simp only [cellPut]
    split
    · split <;> simp only [cellGet] <;> (repeat' split) <;> first | rfl | omega | simp_all
    · split
      · subst_vars
        split
        · simp only [cellGet]
          split
          · subst_vars; simp_all
          · rw [if_neg (by omega)]
            split
            · exact hb k (by omega)
            · rfl
        · simp only [cellGet]; (repeat' split) <;> first | rfl | omega
      · simp only [cellGet, ih h.2]; (repeat' split) <;> first | rfl | omega

/-- A write of several bytes keeps the canonical form. -/
theorem cellsFrom_cellsWrite {lo : Nat} {c : List Host.Cell} (h : cellsFrom lo c = true) (a : Nat) (bs : List Byte) (ha : lo ≤ a) :
    cellsFrom lo (cellsWrite c a bs) = true := by
  induction bs generalizing c a with
  | nil => exact h
  | cons b bs ih => exact ih (cellsFrom_cellPut h a b ha) (a + 1) (by omega)

/-- What a byte reads as after a write of several bytes. -/
theorem cellGet_cellsWrite {c : List Host.Cell} (h : cellsFrom 0 c = true) (a k : Nat) (bs : List Byte) :
    cellGet (cellsWrite c a bs) k = if a ≤ k ∧ k < a + bs.length then bs.getD (k - a) 0 else cellGet c k := by
  induction bs generalizing c a with
  | nil => simp [cellsWrite, show ¬ (a ≤ k ∧ k < a) by omega]
  | cons b bs ih =>
    rw [cellsWrite, ih (cellsFrom_cellPut h a b (Nat.zero_le a)), cellGet_cellPut h]
    by_cases h1 : k = a
    · subst h1; simp
    · by_cases h2 : a + 1 ≤ k ∧ k < a + 1 + bs.length
      · obtain ⟨j, rfl⟩ : ∃ j, k = a + 1 + j := ⟨k - (a + 1), by omega⟩
        rw [if_pos h2, if_pos (by simp; omega), show a + 1 + j - a = j + 1 by omega, show a + 1 + j - (a + 1) = j by omega]
        rfl
      · rw [if_neg h2, if_neg h1, if_neg (by simp; omega)]

theorem cellsRead_eq (c : List Host.Cell) (a n : Nat) : cellsRead c a n = (List.range n).map fun i => cellGet c (a + i) := by
  induction n generalizing a with
  | zero => rfl
  | succ n ih =>
    rw [cellsRead, ih, List.range_succ_eq_map, List.map_cons, List.map_map]
    simp only [Nat.add_zero, List.cons.injEq, true_and]
    exact List.map_congr_left fun i _ => by simp only [Function.comp]; congr 1; omega

/-- A read of written bytes gives them. -/
theorem cellsRead_cellsWrite {c : List Host.Cell} (h : cellsFrom 0 c = true) (a : Nat) (bs : List Byte) : cellsRead (cellsWrite c a bs) a bs.length = bs := by
  rw [cellsRead_eq]
  apply List.ext_getElem
  · simp
  · intro i h1 h2
    simp only [List.getElem_map, List.getElem_range]
    rw [cellGet_cellsWrite h, if_pos ⟨by omega, by omega⟩, Nat.add_sub_cancel_left, List.getD_eq_getElem _ _ h2]

/-- A write of the bytes a mask selects keeps the canonical form. -/
theorem cellsFrom_maskCells {c : List Host.Cell} (h : cellsFrom 0 c = true) (mask : BitVec 64) (a i : Nat) (bs : List Byte) :
    cellsFrom 0 (maskCells mask a i bs c) = true := by
  induction bs generalizing c i with
  | nil => exact h
  | cons b bs ih =>
    rw [maskCells]
    split
    · exact ih (cellsFrom_cellPut h _ b (Nat.zero_le _)) (i + 1)
    · exact ih h (i + 1)

/-! ### Memory -/

theorem Mem.wf_of_cells {m n : Mem} (h : m.wf = true) (hc : n.cells = m.cells) : n.wf = true := by rwa [Mem.wf, hc]

@[simp] theorem Mem.wf_write {m : Mem} (h : m.wf = true) (a : Nat) (bs : List Byte) : (m.write a bs).wf = true := cellsFrom_cellsWrite h a bs (Nat.zero_le a)
@[simp] theorem Mem.wf_putWord {m : Mem} (h : m.wf = true) (a : Nat) (v : Word) : (m.putWord a v).wf = true := Mem.wf_write h a _
@[simp] theorem Mem.wf_putFrame {m : Mem} (h : m.wf = true) (a : Nat) (f : Frame) : (m.putFrame a f).wf = true := h
@[simp] theorem Mem.wf_stampStore {m : Mem} (h : m.wf = true) (a : Nat) : (m.stampStore a).wf = true := h
@[simp] theorem Mem.wf_stampLoad {m : Mem} (h : m.wf = true) (a : Nat) : (m.stampLoad a).wf = true := h
@[simp] theorem Mem.wf_setPoison {m : Mem} (h : m.wf = true) (a : Nat) (p : Bool) : (m.setPoison a p).wf = true := Mem.wf_of_cells h (by simp)

@[simp] theorem Mem.poisonBy_cells (m : Mem) (a : Nat) (k : StoreKind) : (m.poisonBy a k).1.cells = m.cells := by
  simp only [Mem.poisonBy]; (repeat' split) <;> simp

theorem Mem.store_cells (m : Mem) (a : Nat) (bs : List Byte) (k : StoreKind) : (m.store a bs k).1.cells = cellsWrite m.cells a bs := by
  simp [Mem.store]

@[simp] theorem Mem.wf_store {m : Mem} (h : m.wf = true) (a : Nat) (bs : List Byte) (k : StoreKind) :
    (m.store a bs k).1.wf = true := by
  rw [Mem.wf, Mem.store_cells]; exact cellsFrom_cellsWrite h a bs (Nat.zero_le a)

theorem Mem.storeMasked_cells (m : Mem) (a : Nat) (bs : List Byte) (mask : BitVec 64) (k : StoreKind) :
    (m.storeMasked a bs mask k).1.cells = maskCells mask a 0 (bs.take 64) m.cells := by
  simp [Mem.storeMasked]

@[simp] theorem Mem.wf_storeMasked {m : Mem} (h : m.wf = true) (a : Nat) (bs : List Byte) (mask : BitVec 64) (k : StoreKind) :
    (m.storeMasked a bs mask k).1.wf = true := by
  rw [Mem.wf, Mem.storeMasked_cells]; exact cellsFrom_maskCells h mask a 0 _

theorem Mem.wf_fillFree {m : Mem} (h : m.wf = true) (n a d : Nat) : (fillFree n m a d).wf = true := by
  induction n generalizing m a d with
  | zero => exact h
  | succ n ih => exact ih (Mem.wf_putWord h a _) _ _

/-- A byte after a write. -/
theorem Mem.get_write {m : Mem} (h : m.wf = true) (a k : Nat) (bs : List Byte) :
    (m.write a bs).get k = if a ≤ k ∧ k < a + bs.length then bs.getD (k - a) 0 else m.get k := cellGet_cellsWrite h a k bs

/-- Bytes read where they were written. -/
theorem Mem.read_write {m : Mem} (h : m.wf = true) (a : Nat) (bs : List Byte) : (m.write a bs).read a bs.length = bs := cellsRead_cellsWrite h a bs

theorem Mem.wf_reset : State.reset.mem.wf = true := by decide

end Sys2Proof.Machine
end

