-- ==== Sys2Proof/Laws/Ops.lean ====
section
/-! SUPPORT. What each shared shell of a meaning can do, said once: records, firings, flits, commands, register writes, steps, traps, cairns. -/

namespace Sys2Proof.Machine

open Host

/-! ### Control records -/

/-- A local record, where a block is at work: its copy goes on, or the block faults. -/
theorem ctlLocal_eq {s : State} {c : CSite} (h : s.csite = some c) (g : State → CSite → LRes) :
    ctlLocal s g = match g s c with
      | .ok w => .next (s.afterRecord c w)
      | .fault code => .next (s.coreFault c c.w code 0 0) := by
  simp only [ctlLocal, h]; cases g s c <;> rfl

theorem ctlWait_eq {s : State} {c : CSite} (h : s.csite = some c) (g : State → CSite → CRes) : ctlWait s g = .next (((g s c).afterWait c).run c) := by
  simp only [ctlWait, h]

/-- An effect, where the block has passed the checks before its first effect. -/
theorem ctlEffect_eq {s s1 : State} {c : CSite} (h : s.EffectSite s1 c) (g : State → CSite → CRes) : ctlEffect s g = .next ((g s1 c).run c) := by
  rcases h with ⟨h, hk, rfl⟩ | ⟨c0, c1, h, hk, ht, ha, hp, h1, rfl⟩
  · simp only [ctlEffect, h, hk, if_true]
  · simp only [ctlEffect, h, hk, ht, ha, hp, h1]; rfl

/-- A record that no block holds faults; any other answers a next state. -/
theorem ctlLocal_next_iff (s : State) (g : State → CSite → LRes) : (∃ t, ctlLocal s g = .next t) ↔ s.csite.isSome := by
  cases h : s.csite with
  | none => simp [ctlLocal, h]
  | some c => simp only [ctlLocal, h]; cases g s c <;> simp

@[simp] theorem CRes.run_next (s : State) (w : Work) (c : CSite) : (CRes.next s w).run c = s.afterRecord c w := rfl
@[simp] theorem CRes.afterWait_run_next (s : State) (w : Work) (c : CSite) : ((CRes.next s w).afterWait c).run c = s.afterWait c w := rfl
@[simp] theorem CRes.run_effect (s : State) (w : Work) (c : CSite) : (CRes.effect s w).run c = s.afterEffect c w := rfl
@[simp] theorem CRes.run_stay (s : State) (w : Work) (c : CSite) : (CRes.stay s w).run c = s.putWork c.key w := rfl
@[simp] theorem CRes.run_fault (s : State) (w : Work) (code reason addr : Nat) (c : CSite) :
    (CRes.fault s w code reason addr).run c = s.coreFault c w code reason addr := rfl

/-- What a site says of the region table. -/
theorem State.csite_some {s : State} {c : CSite} (h : s.csite = some c) :
    s.actor = .core c.key ∧ tget s.regions c.key = some c.rg ∧ c.rg.work = some c.w ∧ tget c.rg.blocks c.w.slot = some c.blk := by
  unfold State.csite at h
  split at h
  · rename_i key ha
    cases h1 : tget s.regions key with
    | none => simp [h1] at h
    | some rg =>
      cases h2 : rg.work with
      | none => simp [h1, h2] at h
      | some w =>
        cases h3 : tget rg.blocks w.slot with
        | none => simp [h1, h2, h3] at h
        | some b => simp only [h1, h2, h3, Option.some.injEq] at h; subst h; exact ⟨ha, h1, h2, h3⟩
  · simp at h

/-- The working copy of a block put back. -/
theorem State.putWork_eq {s : State} {key : Nat} {r : Region} (h : tget s.regions key = some r) (w : Work) :
    s.putWork key w = s.putRegion key { r with work := some w } := by
  simp only [State.putWork, h]

/-! ### Registers -/

@[simp] theorem readS_zero (rs : List Word) : readS rs 0 = 0 := by simp [readS]
@[simp] theorem writeS_zero (rs : List Word) (v : Word) : writeS rs 0 v = rs := by simp [writeS]

theorem readS_writeS (rs : List Word) (n k : BitVec 5) (v : Word) (hl : rs.length = 32) (hn : n ≠ 0) : readS (writeS rs n v) k = if k = n then v else readS rs k := by
  have hk : k.toNat < rs.length := by have := k.isLt; omega
  simp only [readS, writeS, if_neg hn]
  by_cases h : k = n
  · subst h; rw [if_neg hn, if_pos rfl]; simp [List.getD_eq_getElem?_getD, getElem?_lput, List.getElem?_eq_getElem hk]
  · rw [if_neg h]
    have : k.toNat ≠ n.toNat := fun e => h (BitVec.eq_of_toNat_eq e)
    simp [List.getD_eq_getElem?_getD, getElem?_lput, this]

/-! ### Firings -/

theorem fireNode_eq {s : State} {x : Site} (h : s.site = some x) (n : NodeRec) (lat gap : Nat) (g : State → Site → FireRes) :
    fireNode s n lat gap g = .next ((g s x).run x n lat gap) := by
  simp only [fireNode, h]

@[simp] theorem FireRes.run_fired (s : State) (out : List (Nat × Token)) (fl : BitVec 10) (x : Site) (n : NodeRec) (lat gap : Nat) :
    (FireRes.fired s out fl).run x n lat gap = s.fires x n lat gap out fl := rfl
@[simp] theorem FireRes.run_firedAt (s : State) (out : List (Nat × Nat × Token)) (fl : BitVec 10) (x : Site) (n : NodeRec) (lat : Nat) :
    (FireRes.firedAt s out fl).run x n lat 0 = s.firesAt x n lat out fl := rfl
@[simp] theorem FireRes.run_fault (s : State) (f : FaultRec) (x : Site) (n : NodeRec) (lat gap : Nat) : (FireRes.fault s f).run x n lat gap = (s.began x n).nodeFault x f := rfl
@[simp] theorem FireRes.run_stay (s : State) (x : Site) (n : NodeRec) (lat gap : Nat) : (FireRes.stay s).run x n lat gap =
    if x.f.begun then s else if s.firingBegun x then s.began x n else s.passSlot x := rfl

/-! ### Flits, commands, register writes -/

/-- A flit for this device, good and in order, is taken by the step of its type. -/
theorem recvHeld_eq {s s1 : State} {f : Flit} {typ op : Nat} (h : s.delivers s1 f typ op) (g : State → HeldFlit → Served) :
    recvHeld typ op s g = .next (match g s1 (HeldFlit.fresh f (s1.poolPlace f)) with
      | .done s2 => s2.served s1 f
      | .held s2 => s2
      | .part s2 k => { s2 with link := { s2.link with held := s2.link.held ++ [k] } }
      | .wait => s1.keeps f) := by
  obtain ⟨hh, hc, ⟨rest, hr, hs⟩, hu, hok, hseq, ht, ho, hm⟩ := h
  have hc' : (s1.link.held.any fun k => sameClass k.flit f) = false := by simpa using hc
  have hi : flitIs typ op f = true := by simp [flitIs, ht, ho]
  simp only [recvHeld, hh, List.isEmpty_nil, if_true, State.takeRx, hr, hu, hok, hseq, hi, ← hs, hm, hc']
  simp
  cases g s1 (HeldFlit.fresh f (s1.poolPlace f)) <;> rfl

/-- The same of a flit that is served whole. -/
theorem recvFlit_eq {s s1 : State} {f : Flit} {typ op : Nat} (h : s.delivers s1 f typ op) (g : State → Flit → Option State) :
    recvFlit typ op s g = match g s1 f with
      | some s2 => .next (s2.served s1 f)
      | none => .next (s1.keeps f) := by
  rw [recvFlit, recvHeld_eq h]
  simp only [HeldFlit.fresh]
  cases g s1 f <;> rfl

/-- Every step of received flits leads to a next state. -/
theorem recvHeld_next (typ op : Nat) (s : State) (g : State → HeldFlit → Served) : ∃ t, recvHeld typ op s g = .next t := by
  simp only [recvHeld]; (repeat' split) <;> exact ⟨_, rfl⟩

theorem recvFlit_next (typ op : Nat) (s : State) (g : State → Flit → Option State) : ∃ t, recvFlit typ op s g = .next t := recvHeld_next ..

theorem cmdStep_eq {s : State} {c : SysCmd} {a kind : Nat} (h : s.host.cmd = some (c, a)) (hk : field c.w0 7 0 = kind) (ho : Decode.commandOk c = true)
    (g : State → SysCmd → Nat → State) : cmdStep kind s g = .next (g s c a) := by
  simp [cmdStep, h, hk, ho]

theorem cmdStep_next (kind : Nat) (s : State) (g : State → SysCmd → Nat → State) : ∃ t, cmdStep kind s g = .next t := by
  simp only [cmdStep]; (repeat' split) <;> exact ⟨_, rfl⟩

theorem ctxStep_eq {s : State} {c : SysCmd} {a kind : Nat} {x : Ctx} (h : s.host.cmd = some (c, a)) (hk : field c.w0 7 0 = kind) (ho : Decode.commandOk c = true)
    (hx : tget s.host.ctxs (cmdCtx c) = some x) (g : State → SysCmd → Nat → State) : ctxStep kind s g = .next (g s c a) := by
  simp [ctxStep, cmdStep_eq h hk ho, hx]

theorem ctxStep_none {s : State} {c : SysCmd} {a kind : Nat} (h : s.host.cmd = some (c, a)) (hk : field c.w0 7 0 = kind) (ho : Decode.commandOk c = true)
    (hx : tget s.host.ctxs (cmdCtx c) = none) (g : State → SysCmd → Nat → State) : ctxStep kind s g = .next (s.finishCmd c a 2 0) := by
  simp [ctxStep, cmdStep_eq h hk ho, hx]

theorem mgmtStep_eq {s : State} {v : Word} {vs : List Word} (h : s.dev.mgmtIn = v :: vs) (f : State → Word → State) :
    mgmtStep s f = .next (if bitAt s.dev.mgmtstat 31 then s.mgmtTaken vs else f (s.mgmtTaken vs) v) := by
  simp only [mgmtStep, h]; rfl

theorem regStep_eq {s : State} {i : Nat} {a : RegAccess} (h : s.nextAccess i a) (f : State → RegAccess → State) :
    regStep s f = .next (if regWidth a.off = a.width ∧ a.width ≠ 0 then f (s.regTaken i a) a else (s.regTaken i a).herrUp a.fabric) := by
  simp only [regStep, h.1, List.getD_eq_getElem?_getD, h.2]; rfl

/-! ### Steps -/

theorem step_agenda {s : State} {t : Turn} {ts : List Turn} (h : s.agenda = t :: ts) : step s = performTurn t { s with agenda := ts } := by
  simp only [step, State.takeTurn, h]

theorem step_event {s : State} {i : Instr} {ts : List Turn} (h : s.agenda = .event i :: ts) : step s = exec i { s with agenda := ts, actor := .none } := by
  rw [step_agenda h]; rfl

/-! ### Cairns -/

theorem Cairns.val_add (c : Cairns) (k j : Nat) (n : Word) : (c.add k n).val j = if j = k then cairnSum (c.val k) n else c.val j := by
  simp [Cairns.add, Cairns.val, tgetD_tput]

theorem Cairns.val_advance (c : Cairns) (k j : Nat) (b : Bool) (h : k < 2 ^ 20) : (c.advance k b).val j = if j = k then cairnSum (c.val k) 1 else c.val j := by
  have hk : ¬ Config.cairnCount ≤ k := by simp only [Config.cairnCount]; omega
  rw [← Cairns.val_add]
  cases b <;> simp [Cairns.advance, hk, Cairns.val]

theorem Cairns.flag_advance (c : Cairns) (k j : Nat) (b : Bool) (h : k < 2 ^ 20) : (c.advance k b).flag j = (c.flag j || (b && decide (j = k))) := by
  have hk : ¬ Config.cairnCount ≤ k := by simp only [Config.cairnCount]; omega
  cases b
  · simp [Cairns.advance, hk, Cairns.flag, Cairns.add]
  · rw [Bool.eq_iff_iff]
    simp [Cairns.advance, hk, Cairns.flag, Cairns.add, mem_ninsert, or_comm]

/-! ### Traps (R325) -/

/-- Taking a trap writes one region and nothing else, or cancels the launch. -/
theorem State.takeTrap_cases {s : State} {key : Nat} {r : Region} (h : tget s.regions key = some r) (f : FaultRec) (resume efx swc : Nat) (queue : Bool) :
    ((r.active = true ∨ r.trapbase = 0) ∧ s.takeTrap key f resume efx swc queue = s.cancelLaunch r.launch) ∨
    ((r.active = false ∧ r.trapbase ≠ 0) ∧ ∃ t, s.takeTrap key f resume efx swc queue = (s.dropCore key).putRegion key t ∧
      t.trapblk = BitVec.ofNat 64 resume ∧ t.trapcause = trapCause f.code swc efx queue ∧ t.nextFetch = some r.trapbase.toNat ∧ t.trapped = true ∧ t.idle = none) := by
  by_cases hc : r.active = true ∨ r.trapbase = 0
  · refine .inl ⟨hc, ?_⟩
    simp only [State.takeTrap, h]; rw [if_pos (by simpa using hc)]
  · refine .inr ⟨by simpa using hc, ?_⟩
    simp only [State.takeTrap, h]; rw [if_neg (by simpa using hc)]
    exact ⟨_, rfl, rfl, rfl, rfl, rfl, rfl⟩

end Sys2Proof.Machine
end

