-- ==== Sys2Proof/Laws/PerInstr.lean ====
section
/-! SUPPORT. For each instruction: the operation number of its encoding names it, and no other (Tables 13.10 and 13.11). -/

/-- The rule of a record gives an operation number in range, which names the record again (with its M field, where several records share one
number); no record is both a node's and a control record. -/
def Sys2Proof.Laws.RecordEncoding.Statement (i : Sys2Proof.Instr) : Prop :=
  (∀ c n, Sys2Proof.Rules.nodeRule i = some (c, n) → Sys2Proof.Rules.ctlRule i = none ∧ Sys2Proof.Rules.mkNode c.op n = some i ∧ c.op < 1024) ∧
  (∀ c r, Sys2Proof.Rules.ctlRule i = some (c, r) → c.mOk = true → Sys2Proof.Rules.nodeRule i = none ∧ Sys2Proof.Rules.mkCtl c.op r = some i ∧ c.op < 256)

namespace Sys2Proof.Laws

open Sys2Proof

theorem op_regOrImm (op : Nat) (kind : Rules.CtlKind) (d : Rules.RegUse) (cc : Bool) (mMax : Nat) (r : CtlRec) :
    (Rules.regOrImm op kind d cc mMax r).op = op := by
  unfold Rules.regOrImm; split <;> rfl

theorem RecordEncoding.powerSample (watts : Nat) : RecordEncoding.Statement (.powerSample watts) := by
  exact ⟨fun _ _ h => (by cases h), fun _ _ h _ => (by cases h)⟩
theorem RecordEncoding.thermalSample (temps : List Nat) (inlet flow : Nat) : RecordEncoding.Statement (.thermalSample temps inlet flow) := by
  exact ⟨fun _ _ h => (by cases h), fun _ _ h _ => (by cases h)⟩
theorem RecordEncoding.freezeTrigger (periods : Nat) : RecordEncoding.Statement (.freezeTrigger periods) := by
  exact ⟨fun _ _ h => (by cases h), fun _ _ h _ => (by cases h)⟩
theorem RecordEncoding.clockStop (lag : Nat) : RecordEncoding.Statement (.clockStop lag) := by
  exact ⟨fun _ _ h => (by cases h), fun _ _ h _ => (by cases h)⟩
theorem RecordEncoding.samplePreload (pins : Word) : RecordEncoding.Statement (.samplePreload pins) := by
  exact ⟨fun _ _ h => (by cases h), fun _ _ h _ => (by cases h)⟩
theorem RecordEncoding.extest (pins : Word) : RecordEncoding.Statement (.extest pins) := by
  exact ⟨fun _ _ h => (by cases h), fun _ _ h _ => (by cases h)⟩
theorem RecordEncoding.statedump (addr : Word) (write : Bool) : RecordEncoding.Statement (.statedump addr write) := by
  exact ⟨fun _ _ h => (by cases h), fun _ _ h _ => (by cases h)⟩
theorem RecordEncoding.portTrained (port : Nat) (lo hi : Bool) : RecordEncoding.Statement (.portTrained port lo hi) := by
  exact ⟨fun _ _ h => (by cases h), fun _ _ h _ => (by cases h)⟩
theorem RecordEncoding.idleNullTimer (port : Nat) : RecordEncoding.Statement (.idleNullTimer port) := by
  exact ⟨fun _ _ h => (by cases h), fun _ _ h _ => (by cases h)⟩
theorem RecordEncoding.linkFault (port : Nat) (cause : LinkCause) : RecordEncoding.Statement (.linkFault port cause) := by
  exact ⟨fun _ _ h => (by cases h), fun _ _ h _ => (by cases h)⟩
theorem RecordEncoding.routeRehash (mdie dev port : Nat) : RecordEncoding.Statement (.routeRehash mdie dev port) := by
  exact ⟨fun _ _ h => (by cases h), fun _ _ h _ => (by cases h)⟩
theorem RecordEncoding.classReleaseTimer (port sdev ctx : Nat) : RecordEncoding.Statement (.classReleaseTimer port sdev ctx) := by
  exact ⟨fun _ _ h => (by cases h), fun _ _ h _ => (by cases h)⟩
theorem RecordEncoding.waitRetryTimer (tag : Nat) : RecordEncoding.Statement (.waitRetryTimer tag) := by
  exact ⟨fun _ _ h => (by cases h), fun _ _ h _ => (by cases h)⟩
theorem RecordEncoding.stagingTimeout (cdev xid : Nat) : RecordEncoding.Statement (.stagingTimeout cdev xid) := by
  exact ⟨fun _ _ h => (by cases h), fun _ _ h _ => (by cases h)⟩
theorem RecordEncoding.queryTimer (cdev xid : Nat) : RecordEncoding.Statement (.queryTimer cdev xid) := by
  exact ⟨fun _ _ h => (by cases h), fun _ _ h _ => (by cases h)⟩
theorem RecordEncoding.keepAliveTimer (xid : Nat) : RecordEncoding.Statement (.keepAliveTimer xid) := by
  exact ⟨fun _ _ h => (by cases h), fun _ _ h _ => (by cases h)⟩
theorem RecordEncoding.commitResend (xid : Nat) : RecordEncoding.Statement (.commitResend xid) := by
  exact ⟨fun _ _ h => (by cases h), fun _ _ h _ => (by cases h)⟩
theorem RecordEncoding.pageMove (frame dev : Nat) : RecordEncoding.Statement (.pageMove frame dev) := by
  exact ⟨fun _ _ h => (by cases h), fun _ _ h _ => (by cases h)⟩
theorem RecordEncoding.launchDescriptorTake (q die : Nat) : RecordEncoding.Statement (.launchDescriptorTake q die) := by
  exact ⟨fun _ _ h => (by cases h), fun _ _ h _ => (by cases h)⟩
theorem RecordEncoding.heldLaunchRelease (lid : Nat) : RecordEncoding.Statement (.heldLaunchRelease lid) := by
  exact ⟨fun _ _ h => (by cases h), fun _ _ h _ => (by cases h)⟩
theorem RecordEncoding.regionReplaceSwitch (key : Nat) : RecordEncoding.Statement (.regionReplaceSwitch key) := by
  exact ⟨fun _ _ h => (by cases h), fun _ _ h _ => (by cases h)⟩
theorem RecordEncoding.dispatchChoice (die : Nat) : RecordEncoding.Statement (.dispatchChoice die) := by
  exact ⟨fun _ _ h => (by cases h), fun _ _ h _ => (by cases h)⟩
theorem RecordEncoding.l2ModeSwitch (part : Nat) : RecordEncoding.Statement (.l2ModeSwitch part) := by
  exact ⟨fun _ _ h => (by cases h), fun _ _ h _ => (by cases h)⟩
theorem RecordEncoding.preempt (key : Nat) : RecordEncoding.Statement (.preempt key) := by
  exact ⟨fun _ _ h => (by cases h), fun _ _ h _ => (by cases h)⟩
theorem RecordEncoding.bivouacExchange (part : Nat) : RecordEncoding.Statement (.bivouacExchange part) := by
  exact ⟨fun _ _ h => (by cases h), fun _ _ h _ => (by cases h)⟩
theorem RecordEncoding.regionResume (pid : Nat) : RecordEncoding.Statement (.regionResume pid) := by
  exact ⟨fun _ _ h => (by cases h), fun _ _ h _ => (by cases h)⟩
theorem RecordEncoding.arbiterWindow (tile pe : Nat) : RecordEncoding.Statement (.arbiterWindow tile pe) := by
  exact ⟨fun _ _ h => (by cases h), fun _ _ h _ => (by cases h)⟩
theorem RecordEncoding.replicate (key bslot : Nat) : RecordEncoding.Statement (.replicate key bslot) := by
  exact ⟨fun _ _ h => (by cases h), fun _ _ h _ => (by cases h)⟩
theorem RecordEncoding.replicaWithdraw (key bslot : Nat) : RecordEncoding.Statement (.replicaWithdraw key bslot) := by
  exact ⟨fun _ _ h => (by cases h), fun _ _ h _ => (by cases h)⟩
theorem RecordEncoding.configFetchDone (idx : Nat) : RecordEncoding.Statement (.configFetchDone idx) := by
  exact ⟨fun _ _ h => (by cases h), fun _ _ h _ => (by cases h)⟩
theorem RecordEncoding.blockFetch (key : Nat) : RecordEncoding.Statement (.blockFetch key) := by
  exact ⟨fun _ _ h => (by cases h), fun _ _ h _ => (by cases h)⟩
theorem RecordEncoding.blockCommit (key : Nat) : RecordEncoding.Statement (.blockCommit key) := by
  exact ⟨fun _ _ h => (by cases h), fun _ _ h _ => (by cases h)⟩
theorem RecordEncoding.fabricBlockMap (key bslot : Nat) : RecordEncoding.Statement (.fabricBlockMap key bslot) := by
  exact ⟨fun _ _ h => (by cases h), fun _ _ h _ => (by cases h)⟩
theorem RecordEncoding.tokenArrival (tile idx : Nat) : RecordEncoding.Statement (.tokenArrival tile idx) := by
  exact ⟨fun _ _ h => (by cases h), fun _ _ h _ => (by cases h)⟩
theorem RecordEncoding.unitComplete (key bslot : Nat) : RecordEncoding.Statement (.unitComplete key bslot) := by
  exact ⟨fun _ _ h => (by cases h), fun _ _ h _ => (by cases h)⟩
theorem RecordEncoding.launchComplete (lid : Nat) : RecordEncoding.Statement (.launchComplete lid) := by
  exact ⟨fun _ _ h => (by cases h), fun _ _ h _ => (by cases h)⟩
theorem RecordEncoding.cancelAdvance (lid : Nat) : RecordEncoding.Statement (.cancelAdvance lid) := by
  exact ⟨fun _ _ h => (by cases h), fun _ _ h _ => (by cases h)⟩
theorem RecordEncoding.faultTokenEntry (key : Nat) : RecordEncoding.Statement (.faultTokenEntry key) := by
  exact ⟨fun _ _ h => (by cases h), fun _ _ h _ => (by cases h)⟩
theorem RecordEncoding.trapEntry (key : Nat) : RecordEncoding.Statement (.trapEntry key) := by
  exact ⟨fun _ _ h => (by cases h), fun _ _ h _ => (by cases h)⟩
theorem RecordEncoding.minorFaultServed (idx : Nat) : RecordEncoding.Statement (.minorFaultServed idx) := by
  exact ⟨fun _ _ h => (by cases h), fun _ _ h _ => (by cases h)⟩
theorem RecordEncoding.budgetExceeded (idx : Nat) : RecordEncoding.Statement (.budgetExceeded idx) := by
  exact ⟨fun _ _ h => (by cases h), fun _ _ h _ => (by cases h)⟩
theorem RecordEncoding.majorFaultSave (key : Nat) : RecordEncoding.Statement (.majorFaultSave key) := by
  exact ⟨fun _ _ h => (by cases h), fun _ _ h _ => (by cases h)⟩
theorem RecordEncoding.majorFaultServed (pid : Nat) (resident : Bool) : RecordEncoding.Statement (.majorFaultServed pid resident) := by
  exact ⟨fun _ _ h => (by cases h), fun _ _ h _ => (by cases h)⟩
theorem RecordEncoding.peCheckFailure (tile pe : Nat) : RecordEncoding.Statement (.peCheckFailure tile pe) := by
  exact ⟨fun _ _ h => (by cases h), fun _ _ h _ => (by cases h)⟩
theorem RecordEncoding.ccEccError (key : Nat) (committed : Bool) : RecordEncoding.Statement (.ccEccError key committed) := by
  exact ⟨fun _ _ h => (by cases h), fun _ _ h _ => (by cases h)⟩
theorem RecordEncoding.uncorrectableError (place : EccPlace) : RecordEncoding.Statement (.uncorrectableError place) := by
  exact ⟨fun _ _ h => (by cases h), fun _ _ h _ => (by cases h)⟩
theorem RecordEncoding.timestampRebase (mdie : Nat) : RecordEncoding.Statement (.timestampRebase mdie) := by
  exact ⟨fun _ _ h => (by cases h), fun _ _ h _ => (by cases h)⟩
theorem RecordEncoding.cairnWaitComplete (idx : Nat) : RecordEncoding.Statement (.cairnWaitComplete idx) := by
  exact ⟨fun _ _ h => (by cases h), fun _ _ h _ => (by cases h)⟩
theorem RecordEncoding.idleWake (key : Nat) : RecordEncoding.Statement (.idleWake key) := by
  exact ⟨fun _ _ h => (by cases h), fun _ _ h _ => (by cases h)⟩
theorem RecordEncoding.stalledPutProceed (tile idx : Nat) : RecordEncoding.Statement (.stalledPutProceed tile idx) := by
  exact ⟨fun _ _ h => (by cases h), fun _ _ h _ => (by cases h)⟩
theorem RecordEncoding.readReevaluate (tile idx : Nat) : RecordEncoding.Statement (.readReevaluate tile idx) := by
  exact ⟨fun _ _ h => (by cases h), fun _ _ h _ => (by cases h)⟩
theorem RecordEncoding.barrierRetry (tile idx : Nat) : RecordEncoding.Statement (.barrierRetry tile idx) := by
  exact ⟨fun _ _ h => (by cases h), fun _ _ h _ => (by cases h)⟩
theorem RecordEncoding.relocRun (mdie : Nat) : RecordEncoding.Statement (.relocRun mdie) := by
  exact ⟨fun _ _ h => (by cases h), fun _ _ h _ => (by cases h)⟩
theorem RecordEncoding.streamScoreboardStep (tile port : Nat) : RecordEncoding.Statement (.streamScoreboardStep tile port) := by
  exact ⟨fun _ _ h => (by cases h), fun _ _ h _ => (by cases h)⟩
theorem RecordEncoding.loadStreamToken (tile port : Nat) : RecordEncoding.Statement (.loadStreamToken tile port) := by
  exact ⟨fun _ _ h => (by cases h), fun _ _ h _ => (by cases h)⟩
theorem RecordEncoding.storeStreamToken (tile port : Nat) : RecordEncoding.Statement (.storeStreamToken tile port) := by
  exact ⟨fun _ _ h => (by cases h), fun _ _ h _ => (by cases h)⟩
theorem RecordEncoding.streamComplete (tile port : Nat) : RecordEncoding.Statement (.streamComplete tile port) := by
  exact ⟨fun _ _ h => (by cases h), fun _ _ h _ => (by cases h)⟩
theorem RecordEncoding.engineDrain (key idx : Nat) : RecordEncoding.Statement (.engineDrain key idx) := by
  exact ⟨fun _ _ h => (by cases h), fun _ _ h _ => (by cases h)⟩
theorem RecordEncoding.addS (r : CtlRec) : RecordEncoding.Statement (.addS r) := by
  refine ⟨fun c n h => (by cases h), fun c r h hm => ?_⟩
  cases h; simp only [op_regOrImm]; exact ⟨rfl, rfl, Nat.le_of_ble_eq_true rfl⟩
theorem RecordEncoding.subS (r : CtlRec) : RecordEncoding.Statement (.subS r) := by
  refine ⟨fun c n h => (by cases h), fun c r h hm => ?_⟩
  cases h; simp only [op_regOrImm]; exact ⟨rfl, rfl, Nat.le_of_ble_eq_true rfl⟩
theorem RecordEncoding.mulS (r : CtlRec) : RecordEncoding.Statement (.mulS r) := by
  refine ⟨fun c n h => (by cases h), fun c r h hm => ?_⟩
  cases h; simp only [op_regOrImm]; exact ⟨rfl, rfl, Nat.le_of_ble_eq_true rfl⟩
theorem RecordEncoding.mulhS (r : CtlRec) : RecordEncoding.Statement (.mulhS r) := by
  refine ⟨fun c n h => (by cases h), fun c r h hm => ?_⟩
  cases h; simp only [op_regOrImm]; exact ⟨rfl, rfl, Nat.le_of_ble_eq_true rfl⟩
theorem RecordEncoding.divS (r : CtlRec) : RecordEncoding.Statement (.divS r) := by
  refine ⟨fun c n h => (by cases h), fun c r h hm => ?_⟩
  cases h; simp only [op_regOrImm]; exact ⟨rfl, rfl, Nat.le_of_ble_eq_true rfl⟩
theorem RecordEncoding.remS (r : CtlRec) : RecordEncoding.Statement (.remS r) := by
  refine ⟨fun c n h => (by cases h), fun c r h hm => ?_⟩
  cases h; simp only [op_regOrImm]; exact ⟨rfl, rfl, Nat.le_of_ble_eq_true rfl⟩
theorem RecordEncoding.andS (r : CtlRec) : RecordEncoding.Statement (.andS r) := by
  refine ⟨fun c n h => (by cases h), fun c r h hm => ?_⟩
  cases h; simp only [op_regOrImm]; exact ⟨rfl, rfl, Nat.le_of_ble_eq_true rfl⟩
theorem RecordEncoding.orS (r : CtlRec) : RecordEncoding.Statement (.orS r) := by
  refine ⟨fun c n h => (by cases h), fun c r h hm => ?_⟩
  cases h; simp only [op_regOrImm]; exact ⟨rfl, rfl, Nat.le_of_ble_eq_true rfl⟩
theorem RecordEncoding.xorS (r : CtlRec) : RecordEncoding.Statement (.xorS r) := by
  refine ⟨fun c n h => (by cases h), fun c r h hm => ?_⟩
  cases h; simp only [op_regOrImm]; exact ⟨rfl, rfl, Nat.le_of_ble_eq_true rfl⟩
theorem RecordEncoding.andnS (r : CtlRec) : RecordEncoding.Statement (.andnS r) := by
  refine ⟨fun c n h => (by cases h), fun c r h hm => ?_⟩
  cases h; simp only [op_regOrImm]; exact ⟨rfl, rfl, Nat.le_of_ble_eq_true rfl⟩
theorem RecordEncoding.shlS (r : CtlRec) : RecordEncoding.Statement (.shlS r) := by
  refine ⟨fun c n h => (by cases h), fun c r h hm => ?_⟩
  cases h; simp only [op_regOrImm]; exact ⟨rfl, rfl, Nat.le_of_ble_eq_true rfl⟩
theorem RecordEncoding.shrS (r : CtlRec) : RecordEncoding.Statement (.shrS r) := by
  refine ⟨fun c n h => (by cases h), fun c r h hm => ?_⟩
  cases h; simp only [op_regOrImm]; exact ⟨rfl, rfl, Nat.le_of_ble_eq_true rfl⟩
theorem RecordEncoding.sarS (r : CtlRec) : RecordEncoding.Statement (.sarS r) := by
  refine ⟨fun c n h => (by cases h), fun c r h hm => ?_⟩
  cases h; simp only [op_regOrImm]; exact ⟨rfl, rfl, Nat.le_of_ble_eq_true rfl⟩
theorem RecordEncoding.minS (r : CtlRec) : RecordEncoding.Statement (.minS r) := by
  refine ⟨fun c n h => (by cases h), fun c r h hm => ?_⟩
  cases h; simp only [op_regOrImm]; exact ⟨rfl, rfl, Nat.le_of_ble_eq_true rfl⟩
theorem RecordEncoding.maxS (r : CtlRec) : RecordEncoding.Statement (.maxS r) := by
  refine ⟨fun c n h => (by cases h), fun c r h hm => ?_⟩
  cases h; simp only [op_regOrImm]; exact ⟨rfl, rfl, Nat.le_of_ble_eq_true rfl⟩
theorem RecordEncoding.movi (r : CtlRec) : RecordEncoding.Statement (.movi r) := by
  refine ⟨fun c n h => (by cases h), fun c r h hm => ?_⟩
  cases h; exact ⟨rfl, rfl, Nat.le_of_ble_eq_true rfl⟩
theorem RecordEncoding.sel (r : CtlRec) : RecordEncoding.Statement (.sel r) := by
  refine ⟨fun c n h => (by cases h), fun c r h hm => ?_⟩
  cases h; exact ⟨rfl, rfl, Nat.le_of_ble_eq_true rfl⟩
theorem RecordEncoding.setc (r : CtlRec) : RecordEncoding.Statement (.setc r) := by
  refine ⟨fun c n h => (by cases h), fun c r h hm => ?_⟩
  cases h; simp only [op_regOrImm]; exact ⟨rfl, rfl, Nat.le_of_ble_eq_true rfl⟩
theorem RecordEncoding.clz (r : CtlRec) : RecordEncoding.Statement (.clz r) := by
  refine ⟨fun c n h => (by cases h), fun c r h hm => ?_⟩
  cases h; exact ⟨rfl, rfl, Nat.le_of_ble_eq_true rfl⟩
theorem RecordEncoding.popc (r : CtlRec) : RecordEncoding.Statement (.popc r) := by
  refine ⟨fun c n h => (by cases h), fun c r h hm => ?_⟩
  cases h; exact ⟨rfl, rfl, Nat.le_of_ble_eq_true rfl⟩
theorem RecordEncoding.lds (r : CtlRec) : RecordEncoding.Statement (.lds r) := by
  refine ⟨fun c n h => (by cases h), fun c r h hm => ?_⟩
  cases h; exact ⟨rfl, rfl, Nat.le_of_ble_eq_true rfl⟩
theorem RecordEncoding.sts (r : CtlRec) : RecordEncoding.Statement (.sts r) := by
  refine ⟨fun c n h => (by cases h), fun c r h hm => ?_⟩
  cases h; exact ⟨rfl, rfl, Nat.le_of_ble_eq_true rfl⟩
theorem RecordEncoding.csrr (r : CtlRec) : RecordEncoding.Statement (.csrr r) := by
  refine ⟨fun c n h => (by cases h), fun c r h hm => ?_⟩
  cases h; exact ⟨rfl, rfl, Nat.le_of_ble_eq_true rfl⟩
theorem RecordEncoding.csrw (r : CtlRec) : RecordEncoding.Statement (.csrw r) := by
  refine ⟨fun c n h => (by cases h), fun c r h hm => ?_⟩
  cases h; exact ⟨rfl, rfl, Nat.le_of_ble_eq_true rfl⟩
theorem RecordEncoding.run (r : CtlRec) : RecordEncoding.Statement (.run r) := by
  refine ⟨fun c n h => (by cases h), fun c r h hm => ?_⟩
  cases h; by_cases hk : r.m.toNat = 1 <;> simp only [hk, if_true, if_false] <;> exact ⟨rfl, rfl, Nat.le_of_ble_eq_true rfl⟩
theorem RecordEncoding.runw (r : CtlRec) : RecordEncoding.Statement (.runw r) := by
  refine ⟨fun c n h => (by cases h), fun c r h hm => ?_⟩
  cases h; by_cases hk : r.m.toNat = 1 <;> simp only [hk, if_true, if_false] <;> exact ⟨rfl, rfl, Nat.le_of_ble_eq_true rfl⟩
theorem RecordEncoding.exitB (r : CtlRec) : RecordEncoding.Statement (.exitB r) := by
  refine ⟨fun c n h => (by cases h), fun c r h hm => ?_⟩
  cases h; by_cases hk : r.m.toNat = 1 <;> simp only [hk, if_true, if_false] <;> exact ⟨rfl, rfl, Nat.le_of_ble_eq_true rfl⟩
theorem RecordEncoding.exitc (r : CtlRec) : RecordEncoding.Statement (.exitc r) := by
  refine ⟨fun c n h => (by cases h), fun c r h hm => ?_⟩
  cases h; exact ⟨rfl, rfl, Nat.le_of_ble_eq_true rfl⟩
theorem RecordEncoding.callb (r : CtlRec) : RecordEncoding.Statement (.callb r) := by
  refine ⟨fun c n h => (by cases h), fun c r h hm => ?_⟩
  cases h; exact ⟨rfl, rfl, Nat.le_of_ble_eq_true rfl⟩
theorem RecordEncoding.retb (r : CtlRec) : RecordEncoding.Statement (.retb r) := by
  refine ⟨fun c n h => (by cases h), fun c r h hm => ?_⟩
  cases h; exact ⟨rfl, rfl, Nat.le_of_ble_eq_true rfl⟩
theorem RecordEncoding.replaceB (r : CtlRec) : RecordEncoding.Statement (.replaceB r) := by
  refine ⟨fun c n h => (by cases h), fun c r h hm => ?_⟩
  cases h; exact ⟨rfl, rfl, Nat.le_of_ble_eq_true rfl⟩
theorem RecordEncoding.bwait (r : CtlRec) : RecordEncoding.Statement (.bwait r) := by
  refine ⟨fun c n h => (by cases h), fun c r h hm => ?_⟩
  cases h; exact ⟨rfl, rfl, Nat.le_of_ble_eq_true rfl⟩
theorem RecordEncoding.feat (r : CtlRec) : RecordEncoding.Statement (.feat r) := by
  refine ⟨fun c n h => (by cases h), fun c r h hm => ?_⟩
  cases h; exact ⟨rfl, rfl, Nat.le_of_ble_eq_true rfl⟩
theorem RecordEncoding.fdecl (r : CtlRec) : RecordEncoding.Statement (.fdecl r) := by
  refine ⟨fun c n h => (by cases h), fun c r h hm => ?_⟩
  cases h; exact ⟨rfl, rfl, Nat.le_of_ble_eq_true rfl⟩
theorem RecordEncoding.fresize (r : CtlRec) : RecordEncoding.Statement (.fresize r) := by
  refine ⟨fun c n h => (by cases h), fun c r h hm => ?_⟩
  cases h; exact ⟨rfl, rfl, Nat.le_of_ble_eq_true rfl⟩
theorem RecordEncoding.fqry (r : CtlRec) : RecordEncoding.Statement (.fqry r) := by
  refine ⟨fun c n h => (by cases h), fun c r h hm => ?_⟩
  cases h; exact ⟨rfl, rfl, Nat.le_of_ble_eq_true rfl⟩
theorem RecordEncoding.fdrop (r : CtlRec) : RecordEncoding.Statement (.fdrop r) := by
  refine ⟨fun c n h => (by cases h), fun c r h hm => ?_⟩
  cases h; exact ⟨rfl, rfl, Nat.le_of_ble_eq_true rfl⟩
theorem RecordEncoding.fspill (r : CtlRec) : RecordEncoding.Statement (.fspill r) := by
  refine ⟨fun c n h => (by cases h), fun c r h hm => ?_⟩
  cases h; exact ⟨rfl, rfl, Nat.le_of_ble_eq_true rfl⟩
theorem RecordEncoding.ffill (r : CtlRec) : RecordEncoding.Statement (.ffill r) := by
  refine ⟨fun c n h => (by cases h), fun c r h hm => ?_⟩
  cases h; exact ⟨rfl, rfl, Nat.le_of_ble_eq_true rfl⟩
theorem RecordEncoding.cnew (r : CtlRec) : RecordEncoding.Statement (.cnew r) := by
  refine ⟨fun c n h => (by cases h), fun c r h hm => ?_⟩
  cases h; exact ⟨rfl, rfl, Nat.le_of_ble_eq_true rfl⟩
theorem RecordEncoding.cadd (r : CtlRec) : RecordEncoding.Statement (.cadd r) := by
  refine ⟨fun c n h => (by cases h), fun c r h hm => ?_⟩
  cases h; simp only [op_regOrImm]; exact ⟨rfl, rfl, Nat.le_of_ble_eq_true rfl⟩
theorem RecordEncoding.cwait (r : CtlRec) : RecordEncoding.Statement (.cwait r) := by
  refine ⟨fun c n h => (by cases h), fun c r h hm => ?_⟩
  cases h; simp only [op_regOrImm]; exact ⟨rfl, rfl, Nat.le_of_ble_eq_true rfl⟩
theorem RecordEncoding.crd (r : CtlRec) : RecordEncoding.Statement (.crd r) := by
  refine ⟨fun c n h => (by cases h), fun c r h hm => ?_⟩
  cases h; exact ⟨rfl, rfl, Nat.le_of_ble_eq_true rfl⟩
theorem RecordEncoding.launch (r : CtlRec) : RecordEncoding.Statement (.launch r) := by
  refine ⟨fun c n h => (by cases h), fun c r h hm => ?_⟩
  cases h; exact ⟨rfl, rfl, Nat.le_of_ble_eq_true rfl⟩
theorem RecordEncoding.cancel (r : CtlRec) : RecordEncoding.Statement (.cancel r) := by
  refine ⟨fun c n h => (by cases h), fun c r h hm => ?_⟩
  cases h; exact ⟨rfl, rfl, Nat.le_of_ble_eq_true rfl⟩
theorem RecordEncoding.arm (r : CtlRec) : RecordEncoding.Statement (.arm r) := by
  refine ⟨fun c n h => (by cases h), fun c r h hm => ?_⟩
  cases h; exact ⟨rfl, rfl, Nat.le_of_ble_eq_true rfl⟩
theorem RecordEncoding.sbind (r : CtlRec) : RecordEncoding.Statement (.sbind r) := by
  refine ⟨fun c n h => (by cases h), fun c r h hm => ?_⟩
  cases h; exact ⟨rfl, rfl, Nat.le_of_ble_eq_true rfl⟩
theorem RecordEncoding.sgo (r : CtlRec) : RecordEncoding.Statement (.sgo r) := by
  refine ⟨fun c n h => (by cases h), fun c r h hm => ?_⟩
  cases h; exact ⟨rfl, rfl, Nat.le_of_ble_eq_true rfl⟩
theorem RecordEncoding.sstop (r : CtlRec) : RecordEncoding.Statement (.sstop r) := by
  refine ⟨fun c n h => (by cases h), fun c r h hm => ?_⟩
  cases h; exact ⟨rfl, rfl, Nat.le_of_ble_eq_true rfl⟩
theorem RecordEncoding.sbar (r : CtlRec) : RecordEncoding.Statement (.sbar r) := by
  refine ⟨fun c n h => (by cases h), fun c r h hm => ?_⟩
  cases h; exact ⟨rfl, rfl, Nat.le_of_ble_eq_true rfl⟩
theorem RecordEncoding.copy (r : CtlRec) : RecordEncoding.Statement (.copy r) := by
  refine ⟨fun c n h => (by cases h), fun c r h hm => ?_⟩
  cases h; exact ⟨rfl, rfl, Nat.le_of_ble_eq_true rfl⟩
theorem RecordEncoding.gather (r : CtlRec) : RecordEncoding.Statement (.gather r) := by
  refine ⟨fun c n h => (by cases h), fun c r h hm => ?_⟩
  cases h; exact ⟨rfl, rfl, Nat.le_of_ble_eq_true rfl⟩
theorem RecordEncoding.scatter (r : CtlRec) : RecordEncoding.Statement (.scatter r) := by
  refine ⟨fun c n h => (by cases h), fun c r h hm => ?_⟩
  cases h; exact ⟨rfl, rfl, Nat.le_of_ble_eq_true rfl⟩
theorem RecordEncoding.cred (r : CtlRec) : RecordEncoding.Statement (.cred r) := by
  refine ⟨fun c n h => (by cases h), fun c r h hm => ?_⟩
  cases h; exact ⟨rfl, rfl, Nat.le_of_ble_eq_true rfl⟩
theorem RecordEncoding.rput (r : CtlRec) : RecordEncoding.Statement (.rput r) := by
  refine ⟨fun c n h => (by cases h), fun c r h hm => ?_⟩
  cases h; exact ⟨rfl, rfl, Nat.le_of_ble_eq_true rfl⟩
theorem RecordEncoding.rget (r : CtlRec) : RecordEncoding.Statement (.rget r) := by
  refine ⟨fun c n h => (by cases h), fun c r h hm => ?_⟩
  cases h; exact ⟨rfl, rfl, Nat.le_of_ble_eq_true rfl⟩
theorem RecordEncoding.xbegin (r : CtlRec) : RecordEncoding.Statement (.xbegin r) := by
  refine ⟨fun c n h => (by cases h), fun c r h hm => ?_⟩
  cases h; exact ⟨rfl, rfl, Nat.le_of_ble_eq_true rfl⟩
theorem RecordEncoding.xput (r : CtlRec) : RecordEncoding.Statement (.xput r) := by
  refine ⟨fun c n h => (by cases h), fun c r h hm => ?_⟩
  cases h; exact ⟨rfl, rfl, Nat.le_of_ble_eq_true rfl⟩
theorem RecordEncoding.xcommit (r : CtlRec) : RecordEncoding.Statement (.xcommit r) := by
  refine ⟨fun c n h => (by cases h), fun c r h hm => ?_⟩
  cases h; exact ⟨rfl, rfl, Nat.le_of_ble_eq_true rfl⟩
theorem RecordEncoding.xabort (r : CtlRec) : RecordEncoding.Statement (.xabort r) := by
  refine ⟨fun c n h => (by cases h), fun c r h hm => ?_⟩
  cases h; exact ⟨rfl, rfl, Nat.le_of_ble_eq_true rfl⟩
theorem RecordEncoding.hld (r : CtlRec) : RecordEncoding.Statement (.hld r) := by
  refine ⟨fun c n h => (by cases h), fun c r h hm => ?_⟩
  cases h; exact ⟨rfl, rfl, Nat.le_of_ble_eq_true rfl⟩
theorem RecordEncoding.hst (r : CtlRec) : RecordEncoding.Statement (.hst r) := by
  refine ⟨fun c n h => (by cases h), fun c r h hm => ?_⟩
  cases h; exact ⟨rfl, rfl, Nat.le_of_ble_eq_true rfl⟩
theorem RecordEncoding.hmov (r : CtlRec) : RecordEncoding.Statement (.hmov r) := by
  refine ⟨fun c n h => (by cases h), fun c r h hm => ?_⟩
  cases h; exact ⟨rfl, rfl, Nat.le_of_ble_eq_true rfl⟩
theorem RecordEncoding.hpin (r : CtlRec) : RecordEncoding.Statement (.hpin r) := by
  refine ⟨fun c n h => (by cases h), fun c r h hm => ?_⟩
  cases h; exact ⟨rfl, rfl, Nat.le_of_ble_eq_true rfl⟩
theorem RecordEncoding.hunpin (r : CtlRec) : RecordEncoding.Statement (.hunpin r) := by
  refine ⟨fun c n h => (by cases h), fun c r h hm => ?_⟩
  cases h; exact ⟨rfl, rfl, Nat.le_of_ble_eq_true rfl⟩
theorem RecordEncoding.hcmp (r : CtlRec) : RecordEncoding.Statement (.hcmp r) := by
  refine ⟨fun c n h => (by cases h), fun c r h hm => ?_⟩
  cases h; exact ⟨rfl, rfl, Nat.le_of_ble_eq_true rfl⟩
theorem RecordEncoding.hnew (r : CtlRec) : RecordEncoding.Statement (.hnew r) := by
  refine ⟨fun c n h => (by cases h), fun c r h hm => ?_⟩
  cases h; exact ⟨rfl, rfl, Nat.le_of_ble_eq_true rfl⟩
theorem RecordEncoding.reloc (r : CtlRec) : RecordEncoding.Statement (.reloc r) := by
  refine ⟨fun c n h => (by cases h), fun c r h hm => ?_⟩
  cases h; exact ⟨rfl, rfl, Nat.le_of_ble_eq_true rfl⟩
theorem RecordEncoding.relq (r : CtlRec) : RecordEncoding.Statement (.relq r) := by
  refine ⟨fun c n h => (by cases h), fun c r h hm => ?_⟩
  cases h; exact ⟨rfl, rfl, Nat.le_of_ble_eq_true rfl⟩
theorem RecordEncoding.snap (r : CtlRec) : RecordEncoding.Statement (.snap r) := by
  refine ⟨fun c n h => (by cases h), fun c r h hm => ?_⟩
  cases h; exact ⟨rfl, rfl, Nat.le_of_ble_eq_true rfl⟩
theorem RecordEncoding.snapdrop (r : CtlRec) : RecordEncoding.Statement (.snapdrop r) := by
  refine ⟨fun c n h => (by cases h), fun c r h hm => ?_⟩
  cases h; exact ⟨rfl, rfl, Nat.le_of_ble_eq_true rfl⟩
theorem RecordEncoding.trap (r : CtlRec) : RecordEncoding.Statement (.trap r) := by
  refine ⟨fun c n h => (by cases h), fun c r h hm => ?_⟩
  cases h; have hm := of_decide_eq_true hm; refine ⟨rfl, ?_, Nat.le_of_ble_eq_true rfl⟩; simp [Rules.mkCtl, hm]
theorem RecordEncoding.trapRd (r : CtlRec) : RecordEncoding.Statement (.trapRd r) := by
  refine ⟨fun c n h => (by cases h), fun c r h hm => ?_⟩
  cases h; have hm := of_decide_eq_true hm; refine ⟨rfl, ?_, Nat.le_of_ble_eq_true rfl⟩; simp [Rules.mkCtl, hm]
theorem RecordEncoding.trapPop (r : CtlRec) : RecordEncoding.Statement (.trapPop r) := by
  refine ⟨fun c n h => (by cases h), fun c r h hm => ?_⟩
  cases h; have hm := of_decide_eq_true hm; refine ⟨rfl, ?_, Nat.le_of_ble_eq_true rfl⟩; simp [Rules.mkCtl, hm]
theorem RecordEncoding.rett (r : CtlRec) : RecordEncoding.Statement (.rett r) := by
  refine ⟨fun c n h => (by cases h), fun c r h hm => ?_⟩
  cases h; exact ⟨rfl, rfl, Nat.le_of_ble_eq_true rfl⟩
theorem RecordEncoding.efence (r : CtlRec) : RecordEncoding.Statement (.efence r) := by
  refine ⟨fun c n h => (by cases h), fun c r h hm => ?_⟩
  cases h; exact ⟨rfl, rfl, Nat.le_of_ble_eq_true rfl⟩
theorem RecordEncoding.halt (r : CtlRec) : RecordEncoding.Statement (.halt r) := by
  refine ⟨fun c n h => (by cases h), fun c r h hm => ?_⟩
  cases h; exact ⟨rfl, rfl, Nat.le_of_ble_eq_true rfl⟩
theorem RecordEncoding.idle (r : CtlRec) : RecordEncoding.Statement (.idle r) := by
  refine ⟨fun c n h => (by cases h), fun c r h hm => ?_⟩
  cases h; exact ⟨rfl, rfl, Nat.le_of_ble_eq_true rfl⟩
theorem RecordEncoding.tlbinv (r : CtlRec) : RecordEncoding.Statement (.tlbinv r) := by
  refine ⟨fun c n h => (by cases h), fun c r h hm => ?_⟩
  cases h; exact ⟨rfl, rfl, Nat.le_of_ble_eq_true rfl⟩
theorem RecordEncoding.addNode (n : NodeRec) : RecordEncoding.Statement (.addNode n) := by
  refine ⟨fun c n h => ?_, fun c r h _ => (by cases h)⟩
  cases h; exact ⟨rfl, rfl, Nat.le_of_ble_eq_true rfl⟩
theorem RecordEncoding.subNode (n : NodeRec) : RecordEncoding.Statement (.subNode n) := by
  refine ⟨fun c n h => ?_, fun c r h _ => (by cases h)⟩
  cases h; exact ⟨rfl, rfl, Nat.le_of_ble_eq_true rfl⟩
theorem RecordEncoding.mulNode (n : NodeRec) : RecordEncoding.Statement (.mulNode n) := by
  refine ⟨fun c n h => ?_, fun c r h _ => (by cases h)⟩
  cases h; exact ⟨rfl, rfl, Nat.le_of_ble_eq_true rfl⟩
theorem RecordEncoding.mulhNode (n : NodeRec) : RecordEncoding.Statement (.mulhNode n) := by
  refine ⟨fun c n h => ?_, fun c r h _ => (by cases h)⟩
  cases h; exact ⟨rfl, rfl, Nat.le_of_ble_eq_true rfl⟩
theorem RecordEncoding.mad (n : NodeRec) : RecordEncoding.Statement (.mad n) := by
  refine ⟨fun c n h => ?_, fun c r h _ => (by cases h)⟩
  cases h; exact ⟨rfl, rfl, Nat.le_of_ble_eq_true rfl⟩
theorem RecordEncoding.minNode (n : NodeRec) : RecordEncoding.Statement (.minNode n) := by
  refine ⟨fun c n h => ?_, fun c r h _ => (by cases h)⟩
  cases h; exact ⟨rfl, rfl, Nat.le_of_ble_eq_true rfl⟩
theorem RecordEncoding.maxNode (n : NodeRec) : RecordEncoding.Statement (.maxNode n) := by
  refine ⟨fun c n h => ?_, fun c r h _ => (by cases h)⟩
  cases h; exact ⟨rfl, rfl, Nat.le_of_ble_eq_true rfl⟩
theorem RecordEncoding.abs (n : NodeRec) : RecordEncoding.Statement (.abs n) := by
  refine ⟨fun c n h => ?_, fun c r h _ => (by cases h)⟩
  cases h; exact ⟨rfl, rfl, Nat.le_of_ble_eq_true rfl⟩
theorem RecordEncoding.neg (n : NodeRec) : RecordEncoding.Statement (.neg n) := by
  refine ⟨fun c n h => ?_, fun c r h _ => (by cases h)⟩
  cases h; exact ⟨rfl, rfl, Nat.le_of_ble_eq_true rfl⟩
theorem RecordEncoding.adda (n : NodeRec) : RecordEncoding.Statement (.adda n) := by
  refine ⟨fun c n h => ?_, fun c r h _ => (by cases h)⟩
  cases h; exact ⟨rfl, rfl, Nat.le_of_ble_eq_true rfl⟩
theorem RecordEncoding.idx (n : NodeRec) : RecordEncoding.Statement (.idx n) := by
  refine ⟨fun c n h => ?_, fun c r h _ => (by cases h)⟩
  cases h; exact ⟨rfl, rfl, Nat.le_of_ble_eq_true rfl⟩
theorem RecordEncoding.iota (n : NodeRec) : RecordEncoding.Statement (.iota n) := by
  refine ⟨fun c n h => ?_, fun c r h _ => (by cases h)⟩
  cases h; exact ⟨rfl, rfl, Nat.le_of_ble_eq_true rfl⟩
theorem RecordEncoding.sad (n : NodeRec) : RecordEncoding.Statement (.sad n) := by
  refine ⟨fun c n h => ?_, fun c r h _ => (by cases h)⟩
  cases h; exact ⟨rfl, rfl, Nat.le_of_ble_eq_true rfl⟩
theorem RecordEncoding.andNode (n : NodeRec) : RecordEncoding.Statement (.andNode n) := by
  refine ⟨fun c n h => ?_, fun c r h _ => (by cases h)⟩
  cases h; exact ⟨rfl, rfl, Nat.le_of_ble_eq_true rfl⟩
theorem RecordEncoding.orNode (n : NodeRec) : RecordEncoding.Statement (.orNode n) := by
  refine ⟨fun c n h => ?_, fun c r h _ => (by cases h)⟩
  cases h; exact ⟨rfl, rfl, Nat.le_of_ble_eq_true rfl⟩
theorem RecordEncoding.xorNode (n : NodeRec) : RecordEncoding.Statement (.xorNode n) := by
  refine ⟨fun c n h => ?_, fun c r h _ => (by cases h)⟩
  cases h; exact ⟨rfl, rfl, Nat.le_of_ble_eq_true rfl⟩
theorem RecordEncoding.andnNode (n : NodeRec) : RecordEncoding.Statement (.andnNode n) := by
  refine ⟨fun c n h => ?_, fun c r h _ => (by cases h)⟩
  cases h; exact ⟨rfl, rfl, Nat.le_of_ble_eq_true rfl⟩
theorem RecordEncoding.notNode (n : NodeRec) : RecordEncoding.Statement (.notNode n) := by
  refine ⟨fun c n h => ?_, fun c r h _ => (by cases h)⟩
  cases h; exact ⟨rfl, rfl, Nat.le_of_ble_eq_true rfl⟩
theorem RecordEncoding.shlNode (n : NodeRec) : RecordEncoding.Statement (.shlNode n) := by
  refine ⟨fun c n h => ?_, fun c r h _ => (by cases h)⟩
  cases h; exact ⟨rfl, rfl, Nat.le_of_ble_eq_true rfl⟩
theorem RecordEncoding.shrNode (n : NodeRec) : RecordEncoding.Statement (.shrNode n) := by
  refine ⟨fun c n h => ?_, fun c r h _ => (by cases h)⟩
  cases h; exact ⟨rfl, rfl, Nat.le_of_ble_eq_true rfl⟩
theorem RecordEncoding.sarNode (n : NodeRec) : RecordEncoding.Statement (.sarNode n) := by
  refine ⟨fun c n h => ?_, fun c r h _ => (by cases h)⟩
  cases h; exact ⟨rfl, rfl, Nat.le_of_ble_eq_true rfl⟩
theorem RecordEncoding.rot (n : NodeRec) : RecordEncoding.Statement (.rot n) := by
  refine ⟨fun c n h => ?_, fun c r h _ => (by cases h)⟩
  cases h; exact ⟨rfl, rfl, Nat.le_of_ble_eq_true rfl⟩
theorem RecordEncoding.clzNode (n : NodeRec) : RecordEncoding.Statement (.clzNode n) := by
  refine ⟨fun c n h => ?_, fun c r h _ => (by cases h)⟩
  cases h; exact ⟨rfl, rfl, Nat.le_of_ble_eq_true rfl⟩
theorem RecordEncoding.popcNode (n : NodeRec) : RecordEncoding.Statement (.popcNode n) := by
  refine ⟨fun c n h => ?_, fun c r h _ => (by cases h)⟩
  cases h; exact ⟨rfl, rfl, Nat.le_of_ble_eq_true rfl⟩
theorem RecordEncoding.bfx (n : NodeRec) : RecordEncoding.Statement (.bfx n) := by
  refine ⟨fun c n h => ?_, fun c r h _ => (by cases h)⟩
  cases h; exact ⟨rfl, rfl, Nat.le_of_ble_eq_true rfl⟩
theorem RecordEncoding.bfi (n : NodeRec) : RecordEncoding.Statement (.bfi n) := by
  refine ⟨fun c n h => ?_, fun c r h _ => (by cases h)⟩
  cases h; exact ⟨rfl, rfl, Nat.le_of_ble_eq_true rfl⟩
theorem RecordEncoding.cmp (n : NodeRec) : RecordEncoding.Statement (.cmp n) := by
  refine ⟨fun c n h => ?_, fun c r h _ => (by cases h)⟩
  cases h; exact ⟨rfl, rfl, Nat.le_of_ble_eq_true rfl⟩
theorem RecordEncoding.selNode (n : NodeRec) : RecordEncoding.Statement (.selNode n) := by
  refine ⟨fun c n h => ?_, fun c r h _ => (by cases h)⟩
  cases h; exact ⟨rfl, rfl, Nat.le_of_ble_eq_true rfl⟩
theorem RecordEncoding.perm (n : NodeRec) : RecordEncoding.Statement (.perm n) := by
  refine ⟨fun c n h => ?_, fun c r h _ => (by cases h)⟩
  cases h; exact ⟨rfl, rfl, Nat.le_of_ble_eq_true rfl⟩
theorem RecordEncoding.bcast (n : NodeRec) : RecordEncoding.Statement (.bcast n) := by
  refine ⟨fun c n h => ?_, fun c r h _ => (by cases h)⟩
  cases h; exact ⟨rfl, rfl, Nat.le_of_ble_eq_true rfl⟩
theorem RecordEncoding.shfl (n : NodeRec) : RecordEncoding.Statement (.shfl n) := by
  refine ⟨fun c n h => ?_, fun c r h _ => (by cases h)⟩
  cases h; exact ⟨rfl, rfl, Nat.le_of_ble_eq_true rfl⟩
theorem RecordEncoding.red (n : NodeRec) : RecordEncoding.Statement (.red n) := by
  refine ⟨fun c n h => ?_, fun c r h _ => (by cases h)⟩
  cases h; exact ⟨rfl, rfl, Nat.le_of_ble_eq_true rfl⟩
theorem RecordEncoding.scan (n : NodeRec) : RecordEncoding.Statement (.scan n) := by
  refine ⟨fun c n h => ?_, fun c r h _ => (by cases h)⟩
  cases h; exact ⟨rfl, rfl, Nat.le_of_ble_eq_true rfl⟩
theorem RecordEncoding.compact (n : NodeRec) : RecordEncoding.Statement (.compact n) := by
  refine ⟨fun c n h => ?_, fun c r h _ => (by cases h)⟩
  cases h; exact ⟨rfl, rfl, Nat.le_of_ble_eq_true rfl⟩
theorem RecordEncoding.expand (n : NodeRec) : RecordEncoding.Statement (.expand n) := by
  refine ⟨fun c n h => ?_, fun c r h _ => (by cases h)⟩
  cases h; exact ⟨rfl, rfl, Nat.le_of_ble_eq_true rfl⟩
theorem RecordEncoding.pack (n : NodeRec) : RecordEncoding.Statement (.pack n) := by
  refine ⟨fun c n h => ?_, fun c r h _ => (by cases h)⟩
  cases h; exact ⟨rfl, rfl, Nat.le_of_ble_eq_true rfl⟩
theorem RecordEncoding.unpack (n : NodeRec) : RecordEncoding.Statement (.unpack n) := by
  refine ⟨fun c n h => ?_, fun c r h _ => (by cases h)⟩
  cases h; exact ⟨rfl, rfl, Nat.le_of_ble_eq_true rfl⟩
theorem RecordEncoding.vmask (n : NodeRec) : RecordEncoding.Statement (.vmask n) := by
  refine ⟨fun c n h => ?_, fun c r h _ => (by cases h)⟩
  cases h; exact ⟨rfl, rfl, Nat.le_of_ble_eq_true rfl⟩
theorem RecordEncoding.fan (n : NodeRec) : RecordEncoding.Statement (.fan n) := by
  refine ⟨fun c n h => ?_, fun c r h _ => (by cases h)⟩
  cases h; exact ⟨rfl, rfl, Nat.le_of_ble_eq_true rfl⟩
theorem RecordEncoding.merge (n : NodeRec) : RecordEncoding.Statement (.merge n) := by
  refine ⟨fun c n h => ?_, fun c r h _ => (by cases h)⟩
  cases h; exact ⟨rfl, rfl, Nat.le_of_ble_eq_true rfl⟩
theorem RecordEncoding.delay (n : NodeRec) : RecordEncoding.Statement (.delay n) := by
  refine ⟨fun c n h => ?_, fun c r h _ => (by cases h)⟩
  cases h; exact ⟨rfl, rfl, Nat.le_of_ble_eq_true rfl⟩
theorem RecordEncoding.tag (n : NodeRec) : RecordEncoding.Statement (.tag n) := by
  refine ⟨fun c n h => ?_, fun c r h _ => (by cases h)⟩
  cases h; exact ⟨rfl, rfl, Nat.le_of_ble_eq_true rfl⟩
theorem RecordEncoding.lastNode (n : NodeRec) : RecordEncoding.Statement (.lastNode n) := by
  refine ⟨fun c n h => ?_, fun c r h _ => (by cases h)⟩
  cases h; exact ⟨rfl, rfl, Nat.le_of_ble_eq_true rfl⟩
theorem RecordEncoding.sink (n : NodeRec) : RecordEncoding.Statement (.sink n) := by
  refine ⟨fun c n h => ?_, fun c r h _ => (by cases h)⟩
  cases h; exact ⟨rfl, rfl, Nat.le_of_ble_eq_true rfl⟩
theorem RecordEncoding.fadd (n : NodeRec) : RecordEncoding.Statement (.fadd n) := by
  refine ⟨fun c n h => ?_, fun c r h _ => (by cases h)⟩
  cases h; exact ⟨rfl, rfl, Nat.le_of_ble_eq_true rfl⟩
theorem RecordEncoding.fsub (n : NodeRec) : RecordEncoding.Statement (.fsub n) := by
  refine ⟨fun c n h => ?_, fun c r h _ => (by cases h)⟩
  cases h; exact ⟨rfl, rfl, Nat.le_of_ble_eq_true rfl⟩
theorem RecordEncoding.fmul (n : NodeRec) : RecordEncoding.Statement (.fmul n) := by
  refine ⟨fun c n h => ?_, fun c r h _ => (by cases h)⟩
  cases h; exact ⟨rfl, rfl, Nat.le_of_ble_eq_true rfl⟩
theorem RecordEncoding.ffma (n : NodeRec) : RecordEncoding.Statement (.ffma n) := by
  refine ⟨fun c n h => ?_, fun c r h _ => (by cases h)⟩
  cases h; exact ⟨rfl, rfl, Nat.le_of_ble_eq_true rfl⟩
theorem RecordEncoding.fmin (n : NodeRec) : RecordEncoding.Statement (.fmin n) := by
  refine ⟨fun c n h => ?_, fun c r h _ => (by cases h)⟩
  cases h; exact ⟨rfl, rfl, Nat.le_of_ble_eq_true rfl⟩
theorem RecordEncoding.fmax (n : NodeRec) : RecordEncoding.Statement (.fmax n) := by
  refine ⟨fun c n h => ?_, fun c r h _ => (by cases h)⟩
  cases h; exact ⟨rfl, rfl, Nat.le_of_ble_eq_true rfl⟩
theorem RecordEncoding.fcmp (n : NodeRec) : RecordEncoding.Statement (.fcmp n) := by
  refine ⟨fun c n h => ?_, fun c r h _ => (by cases h)⟩
  cases h; exact ⟨rfl, rfl, Nat.le_of_ble_eq_true rfl⟩
theorem RecordEncoding.fsgn (n : NodeRec) : RecordEncoding.Statement (.fsgn n) := by
  refine ⟨fun c n h => ?_, fun c r h _ => (by cases h)⟩
  cases h; exact ⟨rfl, rfl, Nat.le_of_ble_eq_true rfl⟩
theorem RecordEncoding.fclass (n : NodeRec) : RecordEncoding.Statement (.fclass n) := by
  refine ⟨fun c n h => ?_, fun c r h _ => (by cases h)⟩
  cases h; exact ⟨rfl, rfl, Nat.le_of_ble_eq_true rfl⟩
theorem RecordEncoding.fsfu (n : NodeRec) : RecordEncoding.Statement (.fsfu n) := by
  refine ⟨fun c n h => ?_, fun c r h _ => (by cases h)⟩
  cases h; exact ⟨rfl, rfl, Nat.le_of_ble_eq_true rfl⟩
theorem RecordEncoding.cvt (n : NodeRec) : RecordEncoding.Statement (.cvt n) := by
  refine ⟨fun c n h => ?_, fun c r h _ => (by cases h)⟩
  cases h; exact ⟨rfl, rfl, Nat.le_of_ble_eq_true rfl⟩
theorem RecordEncoding.ftoi (n : NodeRec) : RecordEncoding.Statement (.ftoi n) := by
  refine ⟨fun c n h => ?_, fun c r h _ => (by cases h)⟩
  cases h; exact ⟨rfl, rfl, Nat.le_of_ble_eq_true rfl⟩
theorem RecordEncoding.itof (n : NodeRec) : RecordEncoding.Statement (.itof n) := by
  refine ⟨fun c n h => ?_, fun c r h _ => (by cases h)⟩
  cases h; exact ⟨rfl, rfl, Nat.le_of_ble_eq_true rfl⟩
theorem RecordEncoding.frnd (n : NodeRec) : RecordEncoding.Statement (.frnd n) := by
  refine ⟨fun c n h => ?_, fun c r h _ => (by cases h)⟩
  cases h; exact ⟨rfl, rfl, Nat.le_of_ble_eq_true rfl⟩
theorem RecordEncoding.qmax (n : NodeRec) : RecordEncoding.Statement (.qmax n) := by
  refine ⟨fun c n h => ?_, fun c r h _ => (by cases h)⟩
  cases h; exact ⟨rfl, rfl, Nat.le_of_ble_eq_true rfl⟩
theorem RecordEncoding.qcvt (n : NodeRec) : RecordEncoding.Statement (.qcvt n) := by
  refine ⟨fun c n h => ?_, fun c r h _ => (by cases h)⟩
  cases h; exact ⟨rfl, rfl, Nat.le_of_ble_eq_true rfl⟩
theorem RecordEncoding.dqt (n : NodeRec) : RecordEncoding.Statement (.dqt n) := by
  refine ⟨fun c n h => ?_, fun c r h _ => (by cases h)⟩
  cases h; exact ⟨rfl, rfl, Nat.le_of_ble_eq_true rfl⟩
theorem RecordEncoding.scaleNode (n : NodeRec) : RecordEncoding.Statement (.scaleNode n) := by
  refine ⟨fun c n h => ?_, fun c r h _ => (by cases h)⟩
  cases h; exact ⟨rfl, rfl, Nat.le_of_ble_eq_true rfl⟩
theorem RecordEncoding.scacc (n : NodeRec) : RecordEncoding.Statement (.scacc n) := by
  refine ⟨fun c n h => ?_, fun c r h _ => (by cases h)⟩
  cases h; exact ⟨rfl, rfl, Nat.le_of_ble_eq_true rfl⟩
theorem RecordEncoding.rng (n : NodeRec) : RecordEncoding.Statement (.rng n) := by
  refine ⟨fun c n h => ?_, fun c r h _ => (by cases h)⟩
  cases h; exact ⟨rfl, rfl, Nat.le_of_ble_eq_true rfl⟩
theorem RecordEncoding.mldb (n : NodeRec) : RecordEncoding.Statement (.mldb n) := by
  refine ⟨fun c n h => ?_, fun c r h _ => (by cases h)⟩
  cases h; exact ⟨rfl, rfl, Nat.le_of_ble_eq_true rfl⟩
theorem RecordEncoding.mrow (n : NodeRec) : RecordEncoding.Statement (.mrow n) := by
  refine ⟨fun c n h => ?_, fun c r h _ => (by cases h)⟩
  cases h; exact ⟨rfl, rfl, Nat.le_of_ble_eq_true rfl⟩
theorem RecordEncoding.mqrow (n : NodeRec) : RecordEncoding.Statement (.mqrow n) := by
  refine ⟨fun c n h => ?_, fun c r h _ => (by cases h)⟩
  cases h; exact ⟨rfl, rfl, Nat.le_of_ble_eq_true rfl⟩
theorem RecordEncoding.mrec (n : NodeRec) : RecordEncoding.Statement (.mrec n) := by
  refine ⟨fun c n h => ?_, fun c r h _ => (by cases h)⟩
  cases h; exact ⟨rfl, rfl, Nat.le_of_ble_eq_true rfl⟩
theorem RecordEncoding.mout (n : NodeRec) : RecordEncoding.Statement (.mout n) := by
  refine ⟨fun c n h => ?_, fun c r h _ => (by cases h)⟩
  cases h; exact ⟨rfl, rfl, Nat.le_of_ble_eq_true rfl⟩
theorem RecordEncoding.ppset (n : NodeRec) : RecordEncoding.Statement (.ppset n) := by
  refine ⟨fun c n h => ?_, fun c r h _ => (by cases h)⟩
  cases h; exact ⟨rfl, rfl, Nat.le_of_ble_eq_true rfl⟩
theorem RecordEncoding.ppmul (n : NodeRec) : RecordEncoding.Statement (.ppmul n) := by
  refine ⟨fun c n h => ?_, fun c r h _ => (by cases h)⟩
  cases h; exact ⟨rfl, rfl, Nat.le_of_ble_eq_true rfl⟩
theorem RecordEncoding.ppdiv (n : NodeRec) : RecordEncoding.Statement (.ppdiv n) := by
  refine ⟨fun c n h => ?_, fun c r h _ => (by cases h)⟩
  cases h; exact ⟨rfl, rfl, Nat.le_of_ble_eq_true rfl⟩
theorem RecordEncoding.ppcmb (n : NodeRec) : RecordEncoding.Statement (.ppcmb n) := by
  refine ⟨fun c n h => ?_, fun c r h _ => (by cases h)⟩
  cases h; exact ⟨rfl, rfl, Nat.le_of_ble_eq_true rfl⟩
theorem RecordEncoding.ppnrm (n : NodeRec) : RecordEncoding.Statement (.ppnrm n) := by
  refine ⟨fun c n h => ?_, fun c r h _ => (by cases h)⟩
  cases h; exact ⟨rfl, rfl, Nat.le_of_ble_eq_true rfl⟩
theorem RecordEncoding.ppout (n : NodeRec) : RecordEncoding.Statement (.ppout n) := by
  refine ⟨fun c n h => ?_, fun c r h _ => (by cases h)⟩
  cases h; exact ⟨rfl, rfl, Nat.le_of_ble_eq_true rfl⟩
theorem RecordEncoding.xlat (n : NodeRec) : RecordEncoding.Statement (.xlat n) := by
  refine ⟨fun c n h => ?_, fun c r h _ => (by cases h)⟩
  cases h; exact ⟨rfl, rfl, Nat.le_of_ble_eq_true rfl⟩
theorem RecordEncoding.ld (n : NodeRec) : RecordEncoding.Statement (.ld n) := by
  refine ⟨fun c n h => ?_, fun c r h _ => (by cases h)⟩
  cases h; exact ⟨rfl, rfl, Nat.le_of_ble_eq_true rfl⟩
theorem RecordEncoding.st (n : NodeRec) : RecordEncoding.Statement (.st n) := by
  refine ⟨fun c n h => ?_, fun c r h _ => (by cases h)⟩
  cases h; exact ⟨rfl, rfl, Nat.le_of_ble_eq_true rfl⟩
theorem RecordEncoding.ldg (n : NodeRec) : RecordEncoding.Statement (.ldg n) := by
  refine ⟨fun c n h => ?_, fun c r h _ => (by cases h)⟩
  cases h; exact ⟨rfl, rfl, Nat.le_of_ble_eq_true rfl⟩
theorem RecordEncoding.stx (n : NodeRec) : RecordEncoding.Statement (.stx n) := by
  refine ⟨fun c n h => ?_, fun c r h _ => (by cases h)⟩
  cases h; exact ⟨rfl, rfl, Nat.le_of_ble_eq_true rfl⟩
theorem RecordEncoding.pref (n : NodeRec) : RecordEncoding.Statement (.pref n) := by
  refine ⟨fun c n h => ?_, fun c r h _ => (by cases h)⟩
  cases h; exact ⟨rfl, rfl, Nat.le_of_ble_eq_true rfl⟩
theorem RecordEncoding.putNode (n : NodeRec) : RecordEncoding.Statement (.putNode n) := by
  refine ⟨fun c n h => ?_, fun c r h _ => (by cases h)⟩
  cases h; exact ⟨rfl, rfl, Nat.le_of_ble_eq_true rfl⟩
theorem RecordEncoding.getNode (n : NodeRec) : RecordEncoding.Statement (.getNode n) := by
  refine ⟨fun c n h => ?_, fun c r h _ => (by cases h)⟩
  cases h; exact ⟨rfl, rfl, Nat.le_of_ble_eq_true rfl⟩
theorem RecordEncoding.getr (n : NodeRec) : RecordEncoding.Statement (.getr n) := by
  refine ⟨fun c n h => ?_, fun c r h _ => (by cases h)⟩
  cases h; exact ⟨rfl, rfl, Nat.le_of_ble_eq_true rfl⟩
theorem RecordEncoding.rls (n : NodeRec) : RecordEncoding.Statement (.rls n) := by
  refine ⟨fun c n h => ?_, fun c r h _ => (by cases h)⟩
  cases h; exact ⟨rfl, rfl, Nat.le_of_ble_eq_true rfl⟩
theorem RecordEncoding.hldNode (n : NodeRec) : RecordEncoding.Statement (.hldNode n) := by
  refine ⟨fun c n h => ?_, fun c r h _ => (by cases h)⟩
  cases h; exact ⟨rfl, rfl, Nat.le_of_ble_eq_true rfl⟩
theorem RecordEncoding.hstNode (n : NodeRec) : RecordEncoding.Statement (.hstNode n) := by
  refine ⟨fun c n h => ?_, fun c r h _ => (by cases h)⟩
  cases h; exact ⟨rfl, rfl, Nat.le_of_ble_eq_true rfl⟩
theorem RecordEncoding.hnewNode (n : NodeRec) : RecordEncoding.Statement (.hnewNode n) := by
  refine ⟨fun c n h => ?_, fun c r h _ => (by cases h)⟩
  cases h; exact ⟨rfl, rfl, Nat.le_of_ble_eq_true rfl⟩
theorem RecordEncoding.hpinNode (n : NodeRec) : RecordEncoding.Statement (.hpinNode n) := by
  refine ⟨fun c n h => ?_, fun c r h _ => (by cases h)⟩
  cases h; exact ⟨rfl, rfl, Nat.le_of_ble_eq_true rfl⟩
theorem RecordEncoding.hunpinNode (n : NodeRec) : RecordEncoding.Statement (.hunpinNode n) := by
  refine ⟨fun c n h => ?_, fun c r h _ => (by cases h)⟩
  cases h; exact ⟨rfl, rfl, Nat.le_of_ble_eq_true rfl⟩
theorem RecordEncoding.hcmpNode (n : NodeRec) : RecordEncoding.Statement (.hcmpNode n) := by
  refine ⟨fun c n h => ?_, fun c r h _ => (by cases h)⟩
  cases h; exact ⟨rfl, rfl, Nat.le_of_ble_eq_true rfl⟩
theorem RecordEncoding.caddNode (n : NodeRec) : RecordEncoding.Statement (.caddNode n) := by
  refine ⟨fun c n h => ?_, fun c r h _ => (by cases h)⟩
  cases h; exact ⟨rfl, rfl, Nat.le_of_ble_eq_true rfl⟩
theorem RecordEncoding.cwaitNode (n : NodeRec) : RecordEncoding.Statement (.cwaitNode n) := by
  refine ⟨fun c n h => ?_, fun c r h _ => (by cases h)⟩
  cases h; exact ⟨rfl, rfl, Nat.le_of_ble_eq_true rfl⟩
theorem RecordEncoding.bin (n : NodeRec) : RecordEncoding.Statement (.bin n) := by
  refine ⟨fun c n h => ?_, fun c r h _ => (by cases h)⟩
  cases h; exact ⟨rfl, rfl, Nat.le_of_ble_eq_true rfl⟩
theorem RecordEncoding.bout (n : NodeRec) : RecordEncoding.Statement (.bout n) := by
  refine ⟨fun c n h => ?_, fun c r h _ => (by cases h)⟩
  cases h; exact ⟨rfl, rfl, Nat.le_of_ble_eq_true rfl⟩
theorem RecordEncoding.tap (n : NodeRec) : RecordEncoding.Statement (.tap n) := by
  refine ⟨fun c n h => ?_, fun c r h _ => (by cases h)⟩
  cases h; exact ⟨rfl, rfl, Nat.le_of_ble_eq_true rfl⟩
theorem RecordEncoding.vote (n : NodeRec) : RecordEncoding.Statement (.vote n) := by
  refine ⟨fun c n h => ?_, fun c r h _ => (by cases h)⟩
  cases h; exact ⟨rfl, rfl, Nat.le_of_ble_eq_true rfl⟩
theorem RecordEncoding.trapNode (n : NodeRec) : RecordEncoding.Statement (.trapNode n) := by
  refine ⟨fun c n h => ?_, fun c r h _ => (by cases h)⟩
  cases h; exact ⟨rfl, rfl, Nat.le_of_ble_eq_true rfl⟩
theorem RecordEncoding.brk (n : NodeRec) : RecordEncoding.Statement (.brk n) := by
  refine ⟨fun c n h => ?_, fun c r h _ => (by cases h)⟩
  cases h; exact ⟨rfl, rfl, Nat.le_of_ble_eq_true rfl⟩
theorem RecordEncoding.trace (n : NodeRec) : RecordEncoding.Statement (.trace n) := by
  refine ⟨fun c n h => ?_, fun c r h _ => (by cases h)⟩
  cases h; exact ⟨rfl, rfl, Nat.le_of_ble_eq_true rfl⟩
theorem RecordEncoding.efenceNode (n : NodeRec) : RecordEncoding.Statement (.efenceNode n) := by
  refine ⟨fun c n h => ?_, fun c r h _ => (by cases h)⟩
  cases h; exact ⟨rfl, rfl, Nat.le_of_ble_eq_true rfl⟩
theorem RecordEncoding.nop (n : NodeRec) : RecordEncoding.Statement (.nop n) := by
  refine ⟨fun c n h => ?_, fun c r h _ => (by cases h)⟩
  cases h; exact ⟨rfl, rfl, Nat.le_of_ble_eq_true rfl⟩
theorem RecordEncoding.abortedRecordTimeout (xid : Nat) : RecordEncoding.Statement (.abortedRecordTimeout xid) := by
  exact ⟨fun _ _ h => (by cases h), fun _ _ h _ => (by cases h)⟩
theorem RecordEncoding.coldReset : RecordEncoding.Statement (.coldReset) := by
  exact ⟨fun _ _ h => (by cases h), fun _ _ h _ => (by cases h)⟩
theorem RecordEncoding.warmReset : RecordEncoding.Statement (.warmReset) := by
  exact ⟨fun _ _ h => (by cases h), fun _ _ h _ => (by cases h)⟩
theorem RecordEncoding.resetRestart : RecordEncoding.Statement (.resetRestart) := by
  exact ⟨fun _ _ h => (by cases h), fun _ _ h _ => (by cases h)⟩
theorem RecordEncoding.thermalTrip : RecordEncoding.Statement (.thermalTrip) := by
  exact ⟨fun _ _ h => (by cases h), fun _ _ h _ => (by cases h)⟩
theorem RecordEncoding.freezeCmd : RecordEncoding.Statement (.freezeCmd) := by
  exact ⟨fun _ _ h => (by cases h), fun _ _ h _ => (by cases h)⟩
theorem RecordEncoding.warmresetCmd : RecordEncoding.Statement (.warmresetCmd) := by
  exact ⟨fun _ _ h => (by cases h), fun _ _ h _ => (by cases h)⟩
theorem RecordEncoding.contCmd : RecordEncoding.Statement (.contCmd) := by
  exact ⟨fun _ _ h => (by cases h), fun _ _ h _ => (by cases h)⟩
theorem RecordEncoding.dumpdataRead : RecordEncoding.Statement (.dumpdataRead) := by
  exact ⟨fun _ _ h => (by cases h), fun _ _ h _ => (by cases h)⟩
theorem RecordEncoding.bypass : RecordEncoding.Statement (.bypass) := by
  exact ⟨fun _ _ h => (by cases h), fun _ _ h _ => (by cases h)⟩
theorem RecordEncoding.idcode : RecordEncoding.Statement (.idcode) := by
  exact ⟨fun _ _ h => (by cases h), fun _ _ h _ => (by cases h)⟩
theorem RecordEncoding.registerWrite : RecordEncoding.Statement (.registerWrite) := by
  exact ⟨fun _ _ h => (by cases h), fun _ _ h _ => (by cases h)⟩
theorem RecordEncoding.devnumWrite : RecordEncoding.Statement (.devnumWrite) := by
  exact ⟨fun _ _ h => (by cases h), fun _ _ h _ => (by cases h)⟩
theorem RecordEncoding.featenWrite : RecordEncoding.Statement (.featenWrite) := by
  exact ⟨fun _ _ h => (by cases h), fun _ _ h _ => (by cases h)⟩
theorem RecordEncoding.lqctlWrite : RecordEncoding.Statement (.lqctlWrite) := by
  exact ⟨fun _ _ h => (by cases h), fun _ _ h _ => (by cases h)⟩
theorem RecordEncoding.scqctlWrite : RecordEncoding.Statement (.scqctlWrite) := by
  exact ⟨fun _ _ h => (by cases h), fun _ _ h _ => (by cases h)⟩
theorem RecordEncoding.nullFlit : RecordEncoding.Statement (.nullFlit) := by
  exact ⟨fun _ _ h => (by cases h), fun _ _ h _ => (by cases h)⟩
theorem RecordEncoding.rdreq : RecordEncoding.Statement (.rdreq) := by
  exact ⟨fun _ _ h => (by cases h), fun _ _ h _ => (by cases h)⟩
theorem RecordEncoding.wrreq : RecordEncoding.Statement (.wrreq) := by
  exact ⟨fun _ _ h => (by cases h), fun _ _ h _ => (by cases h)⟩
theorem RecordEncoding.rdrsp : RecordEncoding.Statement (.rdrsp) := by
  exact ⟨fun _ _ h => (by cases h), fun _ _ h _ => (by cases h)⟩
theorem RecordEncoding.wrack : RecordEncoding.Statement (.wrack) := by
  exact ⟨fun _ _ h => (by cases h), fun _ _ h _ => (by cases h)⟩
theorem RecordEncoding.tokenFlit : RecordEncoding.Statement (.tokenFlit) := by
  exact ⟨fun _ _ h => (by cases h), fun _ _ h _ => (by cases h)⟩
theorem RecordEncoding.cairnAdd : RecordEncoding.Statement (.cairnAdd) := by
  exact ⟨fun _ _ h => (by cases h), fun _ _ h _ => (by cases h)⟩
theorem RecordEncoding.cairnWait : RecordEncoding.Statement (.cairnWait) := by
  exact ⟨fun _ _ h => (by cases h), fun _ _ h _ => (by cases h)⟩
theorem RecordEncoding.cairnRead : RecordEncoding.Statement (.cairnRead) := by
  exact ⟨fun _ _ h => (by cases h), fun _ _ h _ => (by cases h)⟩
theorem RecordEncoding.greply : RecordEncoding.Statement (.greply) := by
  exact ⟨fun _ _ h => (by cases h), fun _ _ h _ => (by cases h)⟩
theorem RecordEncoding.hopReadHeader : RecordEncoding.Statement (.hopReadHeader) := by
  exact ⟨fun _ _ h => (by cases h), fun _ _ h _ => (by cases h)⟩
theorem RecordEncoding.hopPin : RecordEncoding.Statement (.hopPin) := by
  exact ⟨fun _ _ h => (by cases h), fun _ _ h _ => (by cases h)⟩
theorem RecordEncoding.hopUnpin : RecordEncoding.Statement (.hopUnpin) := by
  exact ⟨fun _ _ h => (by cases h), fun _ _ h _ => (by cases h)⟩
theorem RecordEncoding.hopWait : RecordEncoding.Statement (.hopWait) := by
  exact ⟨fun _ _ h => (by cases h), fun _ _ h _ => (by cases h)⟩
theorem RecordEncoding.classBind : RecordEncoding.Statement (.classBind) := by
  exact ⟨fun _ _ h => (by cases h), fun _ _ h _ => (by cases h)⟩
theorem RecordEncoding.classRelease : RecordEncoding.Statement (.classRelease) := by
  exact ⟨fun _ _ h => (by cases h), fun _ _ h _ => (by cases h)⟩
theorem RecordEncoding.xstage : RecordEncoding.Statement (.xstage) := by
  exact ⟨fun _ _ h => (by cases h), fun _ _ h _ => (by cases h)⟩
theorem RecordEncoding.prepareTxn : RecordEncoding.Statement (.prepareTxn) := by
  exact ⟨fun _ _ h => (by cases h), fun _ _ h _ => (by cases h)⟩
theorem RecordEncoding.readyTxn : RecordEncoding.Statement (.readyTxn) := by
  exact ⟨fun _ _ h => (by cases h), fun _ _ h _ => (by cases h)⟩
theorem RecordEncoding.commitTxn : RecordEncoding.Statement (.commitTxn) := by
  exact ⟨fun _ _ h => (by cases h), fun _ _ h _ => (by cases h)⟩
theorem RecordEncoding.abortTxn : RecordEncoding.Statement (.abortTxn) := by
  exact ⟨fun _ _ h => (by cases h), fun _ _ h _ => (by cases h)⟩
theorem RecordEncoding.doneTxn : RecordEncoding.Statement (.doneTxn) := by
  exact ⟨fun _ _ h => (by cases h), fun _ _ h _ => (by cases h)⟩
theorem RecordEncoding.queryTxn : RecordEncoding.Statement (.queryTxn) := by
  exact ⟨fun _ _ h => (by cases h), fun _ _ h _ => (by cases h)⟩
theorem RecordEncoding.keepTxn : RecordEncoding.Statement (.keepTxn) := by
  exact ⟨fun _ _ h => (by cases h), fun _ _ h _ => (by cases h)⟩
theorem RecordEncoding.recordResume : RecordEncoding.Statement (.recordResume) := by
  exact ⟨fun _ _ h => (by cases h), fun _ _ h _ => (by cases h)⟩
theorem RecordEncoding.systemCommandTake : RecordEncoding.Statement (.systemCommandTake) := by
  exact ⟨fun _ _ h => (by cases h), fun _ _ h _ => (by cases h)⟩
theorem RecordEncoding.ctxnew : RecordEncoding.Statement (.ctxnew) := by
  exact ⟨fun _ _ h => (by cases h), fun _ _ h _ => (by cases h)⟩
theorem RecordEncoding.ctxfree : RecordEncoding.Statement (.ctxfree) := by
  exact ⟨fun _ _ h => (by cases h), fun _ _ h _ => (by cases h)⟩
theorem RecordEncoding.cancelCommand : RecordEncoding.Statement (.cancelCommand) := by
  exact ⟨fun _ _ h => (by cases h), fun _ _ h _ => (by cases h)⟩
theorem RecordEncoding.snapCommand : RecordEncoding.Statement (.snapCommand) := by
  exact ⟨fun _ _ h => (by cases h), fun _ _ h _ => (by cases h)⟩
theorem RecordEncoding.snapdropCommand : RecordEncoding.Statement (.snapdropCommand) := by
  exact ⟨fun _ _ h => (by cases h), fun _ _ h _ => (by cases h)⟩
theorem RecordEncoding.replaceCommand : RecordEncoding.Statement (.replaceCommand) := by
  exact ⟨fun _ _ h => (by cases h), fun _ _ h _ => (by cases h)⟩
theorem RecordEncoding.cfginv : RecordEncoding.Statement (.cfginv) := by
  exact ⟨fun _ _ h => (by cases h), fun _ _ h _ => (by cases h)⟩
theorem RecordEncoding.topo : RecordEncoding.Statement (.topo) := by
  exact ⟨fun _ _ h => (by cases h), fun _ _ h _ => (by cases h)⟩
theorem RecordEncoding.cinit : RecordEncoding.Statement (.cinit) := by
  exact ⟨fun _ _ h => (by cases h), fun _ _ h _ => (by cases h)⟩
theorem RecordEncoding.malformedCommand : RecordEncoding.Statement (.malformedCommand) := by
  exact ⟨fun _ _ h => (by cases h), fun _ _ h _ => (by cases h)⟩

end Sys2Proof.Laws
end

