-- ==== Sys2Proof/Tests/Slice0.lean ====
section
/-! SUPPORT. Tests: decodings written out from the tables, ill-formed terms that the checks refuse, worked examples of the spec, and a witness for each
statement that has hypotheses. -/

open Sys2Proof Sys2Proof.Machine Host

namespace Sys2Proof.Tests

-- One theorem is checked at a time.
set_option Elab.async false

/-! ### States the tests run in -/

/-- A record on control core 0, or node 0 of its first tile, about to be run. -/
def ready (i : Instr) : State :=
  match Decode.encode i with
  | some x => { State.reset.withRecord x with actor := if x.getLsbD 94 then .core 0 else .fire 0 0 }
  | none => State.reset

/-- The same with a change to its region. -/
def readyIn (i : Instr) (f : Region → Region) : State := { ready i with regions := (ready i).regions.map fun e => (e.1, f e.2) }

/-- The same with the working copy of its block changed. -/
def atWork (i : Instr) (f : Work → Work) : State := readyIn i fun r => { r with work := r.work.map f }

/-- Scalar registers given values. -/
def setRegs (rs : List (Nat × Word)) (w : Work) : Work := { w with s := rs.foldl (fun s p => s.set p.1 p.2) w.s }

/-- A record whose block has passed its checks, with scalar registers given values. -/
def effect (i : Instr) (rs : List (Nat × Word)) : State := atWork i fun w => { setRegs rs w with checked := true }

/-- Whether a control record's site holds. -/
def onSite (s : State) (f : CSite → Bool) : Bool :=
  match s.csite with
  | some c => f c
  | none => false

/-- Whether an effect record's site, its checks passed, holds. -/
def onEffect (s : State) (f : CSite → Bool) : Bool := onSite s fun c => c.w.checked && f c

theorem onSite_spec {s : State} {f : CSite → Bool} (h : onSite s f = true) : ∃ c, s.csite = some c ∧ f c = true := by
  unfold onSite at h
  cases e : s.csite with
  | none => simp [e] at h
  | some c => exact ⟨c, rfl, by simpa [e] using h⟩

theorem onEffect_spec {s : State} {f : CSite → Bool} (h : onEffect s f = true) : ∃ c, s.EffectSite s c ∧ f c = true := by
  obtain ⟨c, hc, hf⟩ := onSite_spec h
  rw [Bool.and_eq_true] at hf
  exact ⟨c, .inl ⟨hc, hf.1, rfl⟩, hf.2⟩

/-- Whether a firing's site holds. -/
def onFire (s : State) (f : Site → Bool) : Bool :=
  match s.site with
  | some x => f x
  | none => false

theorem onFire_spec {s : State} {f : Site → Bool} (h : onFire s f = true) : ∃ x, s.site = some x ∧ f x = true := by
  unfold onFire at h
  cases e : s.site with
  | none => simp [e] at h
  | some x => exact ⟨x, rfl, by simpa [e] using h⟩

/-- A node record's firing with operands given. -/
def fire (i : Instr) (l r : List Lane) : State :=
  let s := ready i
  let t := s.tile 0
  let tok := fun (ls : List Lane) (po : Port) => some { zeroTok po with lanes := ls }
  s.putTile 0 { t with ready := t.ready.map fun f => { f with l := tok l .left, r := tok r .right } }

/-- Sixteen lanes of one value, sixteen lanes from a list. -/
def all16 (v : Elem) : List Lane := List.replicate 16 (Lane.on v)
def lanes (vs : List Elem) : List Lane := (vs ++ List.replicate (16 - vs.length) 0).map Lane.on

/-- Lanes of the token that a firing sends first, and the flags it raises. -/
def sent (i : Instr) (l r : List Lane) : Option (List Lane × BitVec 10) :=
  match exec i (fire i l r) with
  | .next t => ((t.tile 0).chans.head?).map fun c => (c.tok.lanes, ((t.tile 0).pe 0).sticky)
  | _ => none

/-- Its first element and the flags. -/
def first (i : Instr) (l r : Elem) : Option (Elem × BitVec 10) := (sent i (all16 l) (all16 r)).bind fun p => p.1.head?.map fun e => (e.val, p.2)

/-- A control record's destination register after it has run. -/
def reg (i : Instr) (rs : List (Nat × Word)) (n : Nat) : Option Word :=
  match exec i (atWork i (setRegs rs)) with
  | .next t => ((tget t.regions 0).bind fun r => r.work).map fun w => w.s.getD n 0
  | _ => none

/-- Groups 0 and 1 (Tables 13.2 and 13.3, opcodes of Table 13.10). -/
theorem test_decode_integer : ∀ p ∈ ([
    (0x0005011480050000FFFF0001, .addNode ⟨.n16, 1, .token, .literal, .ifTrue, .node .left 5, .unwired, 0xffff0001⟩),
    (0x00100028A014C01500000000, .subNode ⟨.i8, 0, .token, .held, .ifFalse, .node .right 20, .node .pred 21, 0x0⟩),
    (0x0024000C8020E02100000000, .mulNode ⟨.n8, 0, .token, .token, .steer, .node .left 32, .node .ctl 33, 0x0⟩),
    (0x003700308005000000000000, .mulhNode ⟨.n64, 0, .token, .zero, .always, .node .left 5, .unwired, 0x0⟩),
    (0x004100208005000080000005, .mad ⟨.i16, 0, .token, .held, .always, .node .left 5, .unwired, 0x80000005⟩),
    (0x005200408005000000000007, .minNode ⟨.i32, 0, .literal, .token, .always, .node .left 5, .unwired, 0x7⟩),
    (0x006200908005000000000009, .maxNode ⟨.i32, 0, .held, .literal, .always, .node .left 5, .unwired, 0x9⟩),
    (0x007301308005000000000000, .abs ⟨.i64, 1, .token, .zero, .always, .node .left 5, .unwired, 0x0⟩),
    (0x008401B08005000000000000, .neg ⟨.n8, 1, .held, .zero, .always, .node .left 5, .unwired, 0x0⟩),
    (0x009300108005000000000040, .adda ⟨.i64, 0, .token, .literal, .always, .node .left 5, .unwired, 0x40⟩),
    (0x00A707308005000000000003, .idx ⟨.n64, 7, .token, .zero, .always, .node .left 5, .unwired, 0x3⟩),
    (0x00B20FF08005000000000002, .iota ⟨.i32, 15, .zero, .zero, .always, .node .left 5, .unwired, 0x2⟩),
    (0x00C500008005000000000000, .sad ⟨.n16, 0, .token, .token, .always, .node .left 5, .unwired, 0x0⟩),
    (0x040E00008005000000000000, .andNode ⟨.a4, 0, .token, .token, .always, .node .left 5, .unwired, 0x0⟩),
    (0x041B00008005000000000000, .orNode ⟨.e4m3, 0, .token, .token, .always, .node .left 5, .unwired, 0x0⟩),
    (0x042A00208005000000000000, .xorNode ⟨.bf16, 0, .token, .held, .always, .node .left 5, .unwired, 0x0⟩),
    (0x043800108005000000000001, .andnNode ⟨.f32, 0, .token, .literal, .always, .node .left 5, .unwired, 0x1⟩),
    (0x044C00308005000000000000, .notNode ⟨.e5m2, 0, .token, .zero, .always, .node .left 5, .unwired, 0x0⟩),
    (0x04560010800500000000001F, .shlNode ⟨.n32, 0, .token, .literal, .always, .node .left 5, .unwired, 0x1f⟩),
    (0x046500008005000000000000, .shrNode ⟨.n16, 0, .token, .token, .always, .node .left 5, .unwired, 0x0⟩),
    (0x047300008005000000000000, .sarNode ⟨.i64, 0, .token, .token, .always, .node .left 5, .unwired, 0x0⟩),
    (0x048400108005000000000003, .rot ⟨.n8, 0, .token, .literal, .always, .node .left 5, .unwired, 0x3⟩),
    (0x049100308005000000000000, .clzNode ⟨.i16, 0, .token, .zero, .always, .node .left 5, .unwired, 0x0⟩),
    (0x04A700308005000000000000, .popcNode ⟨.n64, 0, .token, .zero, .always, .node .left 5, .unwired, 0x0⟩),
    (0x04B600308005000000000F08, .bfx ⟨.n32, 0, .token, .zero, .always, .node .left 5, .unwired, 0xf08⟩),
    (0x04C700008005000000001F20, .bfi ⟨.n64, 0, .token, .token, .always, .node .left 5, .unwired, 0x1f20⟩),
    (0x04DF01008005000000000000, .cmp ⟨.ref, 1, .token, .token, .always, .node .left 5, .unwired, 0x0⟩),
    (0x04E800148005000000000004, .selNode ⟨.f32, 0, .token, .literal, .ifTrue, .node .left 5, .unwired, 0x4⟩)] : List (Rec96 × Instr)), Decode.record p.1 = .ok p.2 ∧ Decode.encode p.2 = some p.1 := by decide +kernel

/-- Group 2 (Tables 13.2 and 13.3, opcodes of Table 13.10). -/
theorem test_decode_lane : ∀ p ∈ ([
    (0x080F00008005000000000000, .perm ⟨.ref, 0, .token, .token, .always, .node .left 5, .unwired, 0x0⟩),
    (0x08100130800500000000003F, .bcast ⟨.i8, 1, .token, .zero, .always, .node .left 5, .unwired, 0x3f⟩),
    (0x08290330800500000000000F, .shfl ⟨.f16, 3, .token, .zero, .always, .node .left 5, .unwired, 0xf⟩),
    (0x083A02308005000000000000, .red ⟨.bf16, 2, .token, .zero, .always, .node .left 5, .unwired, 0x0⟩),
    (0x08420D008005000000000000, .scan ⟨.i32, 13, .token, .token, .always, .node .left 5, .unwired, 0x0⟩),
    (0x085800308005000000000000, .compact ⟨.f32, 0, .token, .zero, .always, .node .left 5, .unwired, 0x0⟩),
    (0x086F00308005000000000000, .expand ⟨.ref, 0, .token, .zero, .always, .node .left 5, .unwired, 0x0⟩),
    (0x087401008005000000000000, .pack ⟨.n8, 1, .token, .token, .always, .node .left 5, .unwired, 0x0⟩),
    (0x088101308005000000000000, .unpack ⟨.i16, 1, .token, .zero, .always, .node .left 5, .unwired, 0x0⟩),
    (0x089202308005000000008001, .vmask ⟨.i32, 2, .token, .zero, .always, .node .left 5, .unwired, 0x8001⟩),
    (0x08A80130A014C01500000000, .fan ⟨.f32, 1, .token, .zero, .always, .node .right 20, .node .pred 21, 0x0⟩),
    (0x08B801008005000000000000, .merge ⟨.f32, 1, .token, .token, .always, .node .left 5, .unwired, 0x0⟩),
    (0x08C801308005000000000100, .delay ⟨.f32, 1, .token, .zero, .always, .node .left 5, .unwired, 0x100⟩),
    (0x08D20D3080050000FFFFFFFF, .tag ⟨.i32, 13, .token, .zero, .always, .node .left 5, .unwired, 0xffffffff⟩),
    (0x08E200308005000000000008, .lastNode ⟨.i32, 0, .token, .zero, .always, .node .left 5, .unwired, 0x8⟩),
    (0x08F200300000000000000000, .sink ⟨.i32, 0, .token, .zero, .always, .unwired, .unwired, 0x0⟩)] : List (Rec96 × Instr)), Decode.record p.1 = .ok p.2 ∧ Decode.encode p.2 = some p.1 := by decide +kernel

/-- Groups 3 to 5 (Tables 13.2 and 13.3, opcodes of Table 13.10). -/
theorem test_decode_float : ∀ p ∈ ([
    (0x0C0880008005000000000000, .fadd ⟨.f32, 128, .token, .token, .always, .node .left 5, .unwired, 0x0⟩),
    (0x0C190010800500003C003C00, .fsub ⟨.f16, 0, .token, .literal, .always, .node .left 5, .unwired, 0x3c003c00⟩),
    (0x0C2A00208005000000000000, .fmul ⟨.bf16, 0, .token, .held, .always, .node .left 5, .unwired, 0x0⟩),
    (0x0C380000800500003F800000, .ffma ⟨.f32, 0, .token, .token, .always, .node .left 5, .unwired, 0x3f800000⟩),
    (0x0C4800008005000000000000, .fmin ⟨.f32, 0, .token, .token, .always, .node .left 5, .unwired, 0x0⟩),
    (0x0C5800308005000000000000, .fmax ⟨.f32, 0, .token, .zero, .always, .node .left 5, .unwired, 0x0⟩),
    (0x0C6B85008005000000000000, .fcmp ⟨.e4m3, 133, .token, .token, .always, .node .left 5, .unwired, 0x0⟩),
    (0x0C7C02008005000000000000, .fsgn ⟨.e5m2, 2, .token, .token, .always, .node .left 5, .unwired, 0x0⟩),
    (0x0C8B00308005000000000000, .fclass ⟨.e4m3, 0, .token, .zero, .always, .node .left 5, .unwired, 0x0⟩),
    (0x100808308005000000000000, .fsfu ⟨.f32, 8, .token, .zero, .always, .node .left 5, .unwired, 0x0⟩),
    (0x101BF8308005000000000000, .cvt ⟨.e4m3, 248, .token, .zero, .always, .node .left 5, .unwired, 0x0⟩),
    (0x102208308005000000000000, .ftoi ⟨.i32, 8, .token, .zero, .always, .node .left 5, .unwired, 0x0⟩),
    (0x103802308005000000000000, .itof ⟨.f32, 2, .token, .zero, .always, .node .left 5, .unwired, 0x0⟩),
    (0x104870308005000000000000, .frnd ⟨.f32, 112, .token, .zero, .always, .node .left 5, .unwired, 0x0⟩),
    (0x140D08308005000000000010, .qmax ⟨.a8, 8, .token, .zero, .always, .node .left 5, .unwired, 0x10⟩),
    (0x141B89008005000000000100, .qcvt ⟨.e4m3, 137, .token, .token, .always, .node .left 5, .unwired, 0x100⟩),
    (0x14282D008005000000000000, .dqt ⟨.f32, 45, .token, .token, .always, .node .left 5, .unwired, 0x0⟩),
    (0x143802008005000000000000, .scaleNode ⟨.f32, 2, .token, .token, .always, .node .left 5, .unwired, 0x0⟩),
    (0x144812008005000000000000, .scacc ⟨.f32, 18, .token, .token, .always, .node .left 5, .unwired, 0x0⟩),
    (0x14560320800500000000FFFF, .rng ⟨.n32, 3, .token, .held, .always, .node .left 5, .unwired, 0xffff⟩)] : List (Rec96 × Instr)), Decode.record p.1 = .ok p.2 ∧ Decode.encode p.2 = some p.1 := by decide +kernel

/-- Groups 6 and 7 (Tables 13.2 and 13.3, opcodes of Table 13.10). -/
theorem test_decode_matrix : ∀ p ∈ ([
    (0x180A05308005000000020001, .mldb ⟨.bf16, 5, .token, .zero, .always, .node .left 5, .unwired, 0x20001⟩),
    (0x181B01008020E02100000000, .mrow ⟨.e4m3, 1, .token, .token, .always, .node .left 32, .node .ctl 33, 0x0⟩),
    (0x182E03108020E02100003C00, .mqrow ⟨.a4, 3, .token, .literal, .always, .node .left 32, .node .ctl 33, 0x3c00⟩),
    (0x183A00008001900000000000, .mrec ⟨.bf16, 0, .token, .token, .always, .node .left 1, .region 0, 0x0⟩),
    (0x184901308005000000000000, .mout ⟨.f16, 1, .token, .zero, .always, .node .left 5, .unwired, 0x0⟩),
    (0x1C08E030800500000000003F, .ppset ⟨.f32, 224, .token, .zero, .always, .node .left 5, .unwired, 0x3f⟩),
    (0x1C1802308005000000000000, .ppmul ⟨.f32, 2, .token, .zero, .always, .node .left 5, .unwired, 0x0⟩),
    (0x1C2821308005000000000000, .ppdiv ⟨.f32, 33, .token, .zero, .always, .node .left 5, .unwired, 0x0⟩),
    (0x1C3800308005000000000000, .ppcmb ⟨.f32, 0, .token, .zero, .always, .node .left 5, .unwired, 0x0⟩),
    (0x1C4840308005000000000000, .ppnrm ⟨.f32, 64, .token, .zero, .always, .node .left 5, .unwired, 0x0⟩),
    (0x1C5801308005000000000000, .ppout ⟨.f32, 1, .token, .zero, .always, .node .left 5, .unwired, 0x0⟩)] : List (Rec96 × Instr)), Decode.record p.1 = .ok p.2 ∧ Decode.encode p.2 = some p.1 := by decide +kernel

/-- Groups 8 to 10 (Tables 13.2 and 13.3, opcodes of Table 13.10). -/
theorem test_decode_memory : ∀ p ∈ ([
    (0x200701308005000000000000, .xlat ⟨.n64, 1, .token, .zero, .always, .node .left 5, .unwired, 0x0⟩),
    (0x20130030800500000000C003, .ld ⟨.i64, 0, .token, .zero, .always, .node .left 5, .unwired, 0xc003⟩),
    (0x2028000080050000000000FF, .st ⟨.f32, 0, .token, .token, .always, .node .left 5, .unwired, 0xff⟩),
    (0x203D00208005000000000000, .ldg ⟨.a8, 0, .token, .held, .always, .node .left 5, .unwired, 0x0⟩),
    (0x204A00008005000000000000, .stx ⟨.bf16, 0, .token, .token, .always, .node .left 5, .unwired, 0x0⟩),
    (0x205F01308005000000000000, .pref ⟨.ref, 1, .token, .zero, .always, .node .left 5, .unwired, 0x0⟩),
    (0x2408FF30800500000F0F0F0F, .putNode ⟨.f32, 255, .token, .zero, .always, .node .left 5, .unwired, 0xf0f0f0f⟩),
    (0x241A07348005000000000001, .getNode ⟨.bf16, 7, .token, .zero, .ifTrue, .node .left 5, .unwired, 0x1⟩),
    (0x242901008005000000000000, .getr ⟨.f16, 1, .token, .token, .always, .node .left 5, .unwired, 0x0⟩),
    (0x243009F88005000000000000, .rls ⟨.i8, 9, .zero, .zero, .ifFalse, .node .left 5, .unwired, 0x0⟩),
    (0x280200308005000000000010, .hldNode ⟨.i32, 0, .token, .zero, .always, .node .left 5, .unwired, 0x10⟩),
    (0x281F0000800500000000FFF0, .hstNode ⟨.ref, 0, .token, .token, .always, .node .left 5, .unwired, 0xfff0⟩),
    (0x282F003080050000000F0020, .hnewNode ⟨.ref, 0, .token, .zero, .always, .node .left 5, .unwired, 0xf0020⟩),
    (0x283F00308005000000000000, .hpinNode ⟨.ref, 0, .token, .zero, .always, .node .left 5, .unwired, 0x0⟩),
    (0x284F00308005000000000000, .hunpinNode ⟨.ref, 0, .token, .zero, .always, .node .left 5, .unwired, 0x0⟩),
    (0x285F00208005000000000000, .hcmpNode ⟨.ref, 0, .token, .held, .always, .node .left 5, .unwired, 0x0⟩)] : List (Rec96 × Instr)), Decode.record p.1 = .ok p.2 ∧ Decode.encode p.2 = some p.1 := by decide +kernel

/-- Groups 11 and 12 (Tables 13.2 and 13.3, opcodes of Table 13.10). -/
theorem test_decode_sync : ∀ p ∈ ([
    (0x2C07003080050000FFF80001, .caddNode ⟨.n64, 0, .token, .zero, .always, .node .left 5, .unwired, 0xfff80001⟩),
    (0x2C1702008005000000100000, .cwaitNode ⟨.n64, 2, .token, .token, .always, .node .left 5, .unwired, 0x100000⟩),
    (0x2C280100A014C01500000000, .bin ⟨.f32, 1, .token, .token, .always, .node .right 20, .node .pred 21, 0x0⟩),
    (0x2C3800008020E02100000000, .bout ⟨.f32, 0, .token, .token, .always, .node .left 32, .node .ctl 33, 0x0⟩),
    (0x2C4801308005000000080000, .tap ⟨.f32, 1, .token, .zero, .always, .node .left 5, .unwired, 0x80000⟩),
    (0x2C5800308005000000000000, .vote ⟨.f32, 0, .token, .zero, .always, .node .left 5, .unwired, 0x0⟩),
    (0x300200340000000000000005, .trapNode ⟨.i32, 0, .token, .zero, .ifTrue, .unwired, .unwired, 0x5⟩),
    (0x301200388005000000000000, .brk ⟨.i32, 0, .token, .zero, .ifFalse, .node .left 5, .unwired, 0x0⟩),
    (0x30220020800500000000000B, .trace ⟨.i32, 0, .token, .held, .always, .node .left 5, .unwired, 0xb⟩),
    (0x303200308005000000000000, .efenceNode ⟨.i32, 0, .token, .zero, .always, .node .left 5, .unwired, 0x0⟩),
    (0x3042003C8007800D00000000, .nop ⟨.i32, 0, .token, .zero, .steer, .node .left 7, .node .left 13, 0x0⟩)] : List (Rec96 × Instr)), Decode.record p.1 = .ok p.2 ∧ Decode.encode p.2 = some p.1 := by decide +kernel

/-- Groups 0 and 1 of control records (Table 13.4, opcodes of Table 13.11). -/
theorem test_decode_scalar : ∀ p ∈ ([
    (0x400221800000000000000000, .addS ⟨1, 2, 3, 0, 0, 0x0⟩),
    (0x407FE001FFFFFFFFFFFFFFFE, .subS ⟨31, 30, 0, 0, 1, 0xfffffffffffffffe⟩),
    (0x408221800000000000000000, .mulS ⟨1, 2, 3, 0, 0, 0x0⟩),
    (0x40C850030000000000000007, .mulhS ⟨4, 5, 0, 0, 3, 0x7⟩),
    (0x410850030000000000000003, .divS ⟨4, 5, 0, 0, 3, 0x3⟩),
    (0x414853020000000000000000, .remS ⟨4, 5, 6, 0, 2, 0x0⟩),
    (0x418221800000000000000000, .andS ⟨1, 2, 3, 0, 0, 0x0⟩),
    (0x41FFE001FFFFFFFFFFFFFFFE, .orS ⟨31, 30, 0, 0, 1, 0xfffffffffffffffe⟩),
    (0x423FE001FFFFFFFFFFFFFFFE, .xorS ⟨31, 30, 0, 0, 1, 0xfffffffffffffffe⟩),
    (0x424221800000000000000000, .andnS ⟨1, 2, 3, 0, 0, 0x0⟩),
    (0x428221800000000000000000, .shlS ⟨1, 2, 3, 0, 0, 0x0⟩),
    (0x42C85001000000000000003F, .shrS ⟨4, 5, 0, 0, 1, 0x3f⟩),
    (0x430850800000000000000000, .sarS ⟨4, 5, 1, 0, 0, 0x0⟩),
    (0x434221800000000000000000, .minS ⟨1, 2, 3, 0, 0, 0x0⟩),
    (0x438853020000000000000000, .maxS ⟨4, 5, 6, 0, 2, 0x0⟩),
    (0x43C600008000000000000001, .movi ⟨3, 0, 0, 0, 0, 0x8000000000000001⟩),
    (0x440853000000000000000009, .sel ⟨4, 5, 6, 0, 0, 0x9⟩),
    (0x444C43C00000000000000000, .setc ⟨6, 4, 7, 4, 0, 0x0⟩),
    (0x449090000000000000000000, .clz ⟨8, 9, 0, 0, 0, 0x0⟩),
    (0x44D090000000000000000000, .popc ⟨8, 9, 0, 0, 0, 0x0⟩),
    (0x480820060000000000000008, .lds ⟨4, 2, 0, 0, 6, 0x8⟩),
    (0x48402203FFFFFFFFFFFFFFF8, .sts ⟨0, 2, 4, 0, 3, 0xfffffffffffffff8⟩),
    (0x489200000000000000000002, .csrr ⟨9, 0, 0, 0, 0, 0x2⟩),
    (0x48C040000000000000000010, .csrw ⟨0, 4, 0, 0, 0, 0x10⟩)] : List (Rec96 × Instr)), Decode.record p.1 = .ok p.2 ∧ Decode.encode p.2 = some p.1 := by decide +kernel

/-- Groups 2 to 4 (Table 13.4, opcodes of Table 13.11). -/
theorem test_decode_flow : ∀ p ∈ ([
    (0x500642800000000000020000, .run ⟨3, 4, 5, 0, 0, 0x20000⟩),
    (0x504600010000000000020000, .runw ⟨3, 0, 0, 0, 1, 0x20000⟩),
    (0x508040010000000000000000, .exitB ⟨0, 4, 0, 0, 1, 0x0⟩),
    (0x50C040100000000000001800, .exitc ⟨0, 4, 0, 1, 0, 0x1800⟩),
    (0x513E000000FFFFFFFFFFF800, .callb ⟨31, 0, 0, 0, 0, 0xfffffffffff800⟩),
    (0x5141F0000000000000000000, .retb ⟨0, 31, 0, 0, 0, 0x0⟩),
    (0x518221800000000000001000, .replaceB ⟨1, 2, 3, 0, 0, 0x1000⟩),
    (0x51C000000000000000000000, .bwait ⟨0, 0, 0, 0, 0, 0x0⟩),
    (0x52080000000000000007FFFF, .feat ⟨4, 0, 0, 0, 0, 0x7ffff⟩),
    (0x58000000000000000000000F, .fdecl ⟨0, 0, 0, 0, 0, 0xf⟩),
    (0x58422000000000000000FFFF, .fresize ⟨1, 2, 0, 0, 0, 0xffff⟩),
    (0x5882218000000000000000FF, .fqry ⟨1, 2, 3, 0, 0, 0xff⟩),
    (0x58C220000000000000000000, .fdrop ⟨1, 2, 0, 0, 0, 0x0⟩),
    (0x59022180000000000000007F, .fspill ⟨1, 2, 3, 0, 0, 0x7f⟩),
    (0x594221800000000000000041, .ffill ⟨1, 2, 3, 0, 0, 0x41⟩),
    (0x600800000000000000000000, .cnew ⟨4, 0, 0, 0, 0, 0x0⟩),
    (0x604040010000000000000001, .cadd ⟨0, 4, 0, 0, 1, 0x1⟩),
    (0x608042800000000000000000, .cwait ⟨0, 4, 5, 0, 0, 0x0⟩),
    (0x60C850010000000000000000, .crd ⟨4, 5, 0, 0, 1, 0x0⟩),
    (0x610850000000000000000007, .launch ⟨4, 5, 0, 0, 0, 0x7⟩),
    (0x614850000000000000000002, .cancel ⟨4, 5, 0, 0, 0, 0x2⟩),
    (0x618042800000000100000001, .arm ⟨0, 4, 5, 0, 0, 0x100000001⟩)] : List (Rec96 × Instr)), Decode.record p.1 = .ok p.2 ∧ Decode.encode p.2 = some p.1 := by decide +kernel

/-- Group 5 (Table 13.4, opcodes of Table 13.11). -/
theorem test_decode_stream : ∀ p ∈ ([
    (0x680042800000000000000007, .sbind ⟨0, 4, 5, 0, 0, 0x7⟩),
    (0x6840000100000000000000FF, .sgo ⟨0, 0, 0, 0, 1, 0xff⟩),
    (0x688002820000000000000001, .sstop ⟨0, 0, 5, 0, 2, 0x1⟩),
    (0x68C000000000000000000000, .sbar ⟨0, 0, 0, 0, 0, 0x0⟩),
    (0x690850000000000000000000, .copy ⟨4, 5, 0, 0, 0, 0x0⟩),
    (0x694850000000000000000000, .gather ⟨4, 5, 0, 0, 0, 0x0⟩),
    (0x698850000000000000000000, .scatter ⟨4, 5, 0, 0, 0, 0x0⟩),
    (0x69C850000000000000000000, .cred ⟨4, 5, 0, 0, 0, 0x0⟩),
    (0x6A0850000000000000000000, .rput ⟨4, 5, 0, 0, 0, 0x0⟩),
    (0x6A4850000000000000000000, .rget ⟨4, 5, 0, 0, 0, 0x0⟩),
    (0x6A8850000000000000000000, .xbegin ⟨4, 5, 0, 0, 0, 0x0⟩),
    (0x6AC221800000000000010000, .xput ⟨1, 2, 3, 0, 0, 0x10000⟩),
    (0x6B0000000000000000000000, .xcommit ⟨0, 0, 0, 0, 0, 0x0⟩),
    (0x6B4000000000000000000000, .xabort ⟨0, 0, 0, 0, 0, 0x0⟩)] : List (Rec96 × Instr)), Decode.record p.1 = .ok p.2 ∧ Decode.encode p.2 = some p.1 := by decide +kernel

/-- Groups 6 and 7 (Table 13.4, opcodes of Table 13.11). -/
theorem test_decode_system : ∀ p ∈ ([
    (0x701EE00B0000000000000020, .hld ⟨15, 14, 0, 0, 11, 0x20⟩),
    (0x7040EF830000000000000010, .hst ⟨0, 14, 31, 0, 3, 0x10⟩),
    (0x70BEF0010000000000000000, .hmov ⟨31, 15, 0, 0, 1, 0x0⟩),
    (0x70C8F0000000000000000000, .hpin ⟨4, 15, 0, 0, 0, 0x0⟩),
    (0x7100F0000000000000000000, .hunpin ⟨0, 15, 0, 0, 0, 0x0⟩),
    (0x714811000000000000000000, .hcmp ⟨4, 1, 2, 0, 0, 0x0⟩),
    (0x7186400000000000000F0002, .hnew ⟨3, 4, 0, 0, 0, 0xf0002⟩),
    (0x71C221800000000000010000, .reloc ⟨1, 2, 3, 0, 0, 0x10000⟩),
    (0x720800000000000000000003, .relq ⟨4, 0, 0, 0, 0, 0x3⟩),
    (0x7242218000000000000FFFFF, .snap ⟨1, 2, 3, 0, 0, 0xfffff⟩),
    (0x7280200000000000000FFFFF, .snapdrop ⟨0, 2, 0, 0, 0, 0xfffff⟩),
    (0x78000000000000000000FFFF, .trap ⟨0, 0, 0, 0, 0, 0xffff⟩),
    (0x78080001000000000000000F, .trapRd ⟨4, 0, 0, 0, 1, 0xf⟩),
    (0x780000020000000000000000, .trapPop ⟨0, 0, 0, 0, 2, 0x0⟩),
    (0x784000000000000000000000, .rett ⟨0, 0, 0, 0, 0, 0x0⟩),
    (0x788000000000000000000000, .efence ⟨0, 0, 0, 0, 0, 0x0⟩),
    (0x78C000000000000000000000, .halt ⟨0, 0, 0, 0, 0, 0x0⟩),
    (0x7900000000000000FFFFFFFF, .idle ⟨0, 0, 0, 0, 0, 0xffffffff⟩),
    (0x794000000000000000000000, .tlbinv ⟨0, 0, 0, 0, 0, 0x0⟩)] : List (Rec96 × Instr)), Decode.record p.1 = .ok p.2 ∧ Decode.encode p.2 = some p.1 := by decide +kernel

/-- Record words that the spec writes out itself (Tables 13.14, 14.11, 15.2, 16.5, 16.11). -/
theorem test_decode_specWords1 : ∀ p ∈ ([
    (0x0C080010800400003F000000, .fadd ⟨.f32, 0x0, .token, .literal, .always, .node .left 4, .unwired, 0x3f000000⟩),
    (0x240800300000000000000000, .putNode ⟨.f32, 0x0, .token, .zero, .always, .unwired, .unwired, 0x0⟩),
    (0x43C600000000000000000001, .movi ⟨3, 0, 0, 0, 0, 0x1⟩),
    (0x48C030000000000000000010, .csrw ⟨0, 3, 0, 0, 0, 0x10⟩),
    (0x780000000000000000000007, .trap ⟨0, 0, 0, 0, 0, 0x7⟩),
    (0x508000000000010000001000, .exitB ⟨0, 0, 0, 0, 0, 0x10000001000⟩),
    (0x40084001000000000000000A, .addS ⟨4, 4, 0, 0, 1, 0xa⟩),
    (0x600800000000000000000000, .cnew ⟨4, 0, 0, 0, 0, 0x0⟩),
    (0x608042800000000000000000, .cwait ⟨0, 4, 5, 0, 0, 0x0⟩),
    (0x580000000000000000000000, .fdecl ⟨0, 0, 0, 0, 0, 0x0⟩),
    (0x680050010000000000000002, .sbind ⟨0, 5, 0, 0, 1, 0x2⟩),
    (0x684000010000000000000004, .sgo ⟨0, 0, 0, 0, 1, 0x4⟩),
    (0x68C000000000000000000000, .sbar ⟨0, 0, 0, 0, 0, 0x0⟩),
    (0x690E60000000000000000000, .copy ⟨7, 6, 0, 0, 0, 0x0⟩),
    (0x6A9090000000000000000000, .xbegin ⟨8, 9, 0, 0, 0, 0x0⟩),
    (0x6AD4B6000000000000001000, .xput ⟨10, 11, 12, 0, 0, 0x1000⟩),
    (0x6B0000000000000000000000, .xcommit ⟨0, 0, 0, 0, 0, 0x0⟩),
    (0x000101108003000000010001, .addNode ⟨.i16, 0x1, .token, .literal, .always, .node .left 3, .unwired, 0x10001⟩),
    (0x00B200F08001000000000000, .iota ⟨.i32, 0x0, .zero, .zero, .always, .node .left 1, .unwired, 0x0⟩),
    (0x04D20210C005000000000000, .cmp ⟨.i32, 0x2, .token, .literal, .always, .node .pred 5, .unwired, 0x0⟩),
    (0x04E800148004000000000000, .selNode ⟨.f32, 0x0, .token, .literal, .ifTrue, .node .left 4, .unwired, 0x0⟩),
    (0x08E200308002000000000000, .lastNode ⟨.i32, 0x0, .token, .zero, .always, .node .left 2, .unwired, 0x0⟩),
    (0x085800308006000000000000, .compact ⟨.f32, 0x0, .token, .zero, .always, .node .left 6, .unwired, 0x0⟩),
    (0x08C80030A00900000000000C, .delay ⟨.f32, 0x0, .token, .zero, .always, .node .right 9, .unwired, 0xc⟩),
    (0x08A801308002800300000000, .fan ⟨.f32, 0x1, .token, .zero, .always, .node .left 2, .node .left 3, 0x0⟩),
    (0x140C1830A003000000000004, .qmax ⟨.e5m2, 0x18, .token, .zero, .always, .node .right 3, .unwired, 0x4⟩),
    (0x141C08009000000000000004, .qcvt ⟨.e5m2, 0x8, .token, .token, .always, .region 0, .unwired, 0x4⟩),
    (0x145800208004000000000003, .rng ⟨.f32, 0x0, .token, .held, .always, .node .left 4, .unwired, 0x3⟩),
    (0x0C3801008005000000000000, .ffma ⟨.f32, 0x1, .token, .token, .always, .node .left 5, .unwired, 0x0⟩),
    (0x0C38000080050000BF800000, .ffma ⟨.f32, 0x0, .token, .token, .always, .node .left 5, .unwired, 0xbf800000⟩),
    (0x0C680210C006000000000000, .fcmp ⟨.f32, 0x2, .token, .literal, .always, .node .pred 6, .unwired, 0x0⟩),
    (0x100801308006000000000000, .fsfu ⟨.f32, 0x1, .token, .zero, .always, .node .left 6, .unwired, 0x0⟩),
    (0x101908008007000000000000, .cvt ⟨.f16, 0x8, .token, .token, .always, .node .left 7, .unwired, 0x0⟩),
    (0x102258308008000000000000, .ftoi ⟨.i32, 0x58, .token, .zero, .always, .node .left 8, .unwired, 0x0⟩),
    (0x14280C208005000000000000, .dqt ⟨.f32, 0xc, .token, .held, .always, .node .left 5, .unwired, 0x0⟩),
    (0x183A00008001900000000000, .mrec ⟨.bf16, 0x0, .token, .token, .always, .node .left 1, .region 0, 0x0⟩),
    (0x08CA00308000000000000004, .delay ⟨.bf16, 0x0, .token, .zero, .always, .node .left 0, .unwired, 0x4⟩),
    (0x180A0130E003000000000000, .mldb ⟨.bf16, 0x1, .token, .zero, .always, .node .ctl 3, .unwired, 0x0⟩),
    (0x181A01008004800500000000, .mrow ⟨.bf16, 0x1, .token, .token, .always, .node .left 4, .node .left 5, 0x0⟩),
    (0x181A00308004800500000000, .mrow ⟨.bf16, 0x0, .token, .zero, .always, .node .left 4, .node .left 5, 0x0⟩),
    (0x182D01208006800700000000, .mqrow ⟨.a8, 0x1, .token, .held, .always, .node .left 6, .node .left 7, 0x0⟩),
    (0x184A01308009000000000000, .mout ⟨.bf16, 0x1, .token, .zero, .always, .node .left 9, .unwired, 0x0⟩),
    (0x144812208004000000000000, .scacc ⟨.f32, 0x12, .token, .held, .always, .node .left 4, .unwired, 0x0⟩),
    (0x1C082030000000000000000C, .ppset ⟨.f32, 0x20, .token, .zero, .always, .unwired, .unwired, 0xc⟩),
    (0x1C180030E005000000000000, .ppmul ⟨.f32, 0x0, .token, .zero, .always, .node .ctl 5, .unwired, 0x0⟩)] : List (Rec96 × Instr)), Decode.record p.1 = .ok p.2 ∧ Decode.encode p.2 = some p.1 := by decide +kernel

/-- Record words that the spec writes out itself (Tables of files 17 to 19, 21 to 23). -/
theorem test_decode_specWords2 : ∀ p ∈ ([
    (0x1C5801309000000000000000, .ppout ⟨.f32, 0x1, .token, .zero, .always, .region 0, .unwired, 0x0⟩),
    (0x200301308001000000000000, .xlat ⟨.i64, 0x1, .token, .zero, .always, .node .left 1, .unwired, 0x0⟩),
    (0x201800308003E0040000FFFF, .ld ⟨.f32, 0x0, .token, .zero, .always, .node .left 3, .node .ctl 4, 0xffff⟩),
    (0x241A01308002000000000000, .getNode ⟨.bf16, 0x1, .token, .zero, .always, .node .left 2, .unwired, 0x0⟩),
    (0x2C0700308007000000180001, .caddNode ⟨.n64, 0x0, .token, .zero, .always, .node .left 7, .unwired, 0x180001⟩),
    (0x300200340000000000000005, .trapNode ⟨.i32, 0x0, .token, .zero, .ifTrue, .unwired, .unwired, 0x5⟩),
    (0x303200308008000000000000, .efenceNode ⟨.i32, 0x0, .token, .zero, .always, .node .left 8, .unwired, 0x0⟩),
    (0x20280000E00500000000FFFF, .st ⟨.f32, 0x0, .token, .token, .always, .node .ctl 5, .unwired, 0xffff⟩),
    (0x2C2201008003800900000000, .bin ⟨.i32, 0x1, .token, .token, .always, .node .left 3, .node .left 9, 0x0⟩),
    (0x2C4201308004000000080002, .tap ⟨.i32, 0x1, .token, .zero, .always, .node .left 4, .unwired, 0x80002⟩),
    (0x283F00308002000000000000, .hpinNode ⟨.ref, 0x0, .token, .zero, .always, .node .left 2, .unwired, 0x0⟩),
    (0x304800308001000000000000, .nop ⟨.f32, 0x0, .token, .zero, .always, .node .left 1, .unwired, 0x0⟩),
    (0x08E900308001000000000000, .lastNode ⟨.f16, 0x0, .token, .zero, .always, .node .left 1, .unwired, 0x0⟩),
    (0x08D902008002000000000000, .tag ⟨.f16, 0x2, .token, .token, .always, .node .left 2, .unwired, 0x0⟩),
    (0x240903300000000000000000, .putNode ⟨.f16, 0x3, .token, .zero, .always, .unwired, .unwired, 0x0⟩),
    (0x08A600308001A00100000000, .fan ⟨.n32, 0x0, .token, .zero, .always, .node .left 1, .node .right 1, 0x0⟩),
    (0x08D602008002000000000000, .tag ⟨.n32, 0x2, .token, .token, .always, .node .left 2, .unwired, 0x0⟩),
    (0x241903308003000000000000, .getNode ⟨.f16, 0x3, .token, .zero, .always, .node .left 3, .unwired, 0x0⟩),
    (0x240904300000000000000000, .putNode ⟨.f16, 0x4, .token, .zero, .always, .unwired, .unwired, 0x0⟩),
    (0x589490000000000000000000, .fqry ⟨10, 9, 0, 0, 0, 0x0⟩),
    (0x50C0A5900000010000001800, .exitc ⟨0, 10, 11, 1, 0, 0x10000001800⟩),
    (0x585890000000000000000002, .fresize ⟨12, 9, 0, 0, 0, 0x2⟩),
    (0x04220010800100005A5A5A5A, .xorNode ⟨.i32, 0x0, .token, .literal, .always, .node .left 1, .unwired, 0x5a5a5a5a⟩),
    (0x2C1701308001000000000201, .cwaitNode ⟨.n64, 0x1, .token, .zero, .always, .node .left 1, .unwired, 0x201⟩),
    (0x241200308002000000000000, .getNode ⟨.i32, 0x0, .token, .zero, .always, .node .left 2, .unwired, 0x0⟩),
    (0x04D20010C006000000000001, .cmp ⟨.i32, 0x0, .token, .literal, .always, .node .pred 6, .unwired, 0x1⟩),
    (0x3042003C8007800D00000000, .nop ⟨.i32, 0x0, .token, .zero, .steer, .node .left 7, .node .left 13, 0x0⟩),
    (0x08D203308009000000000000, .tag ⟨.i32, 0x3, .token, .zero, .always, .node .left 9, .unwired, 0x0⟩),
    (0x300200300000000000000006, .trapNode ⟨.i32, 0x0, .token, .zero, .always, .unwired, .unwired, 0x6⟩),
    (0x08710130A004000000000000, .pack ⟨.i16, 0x1, .token, .zero, .always, .node .right 4, .unwired, 0x0⟩),
    (0x2021000080050000000000FF, .st ⟨.i16, 0x0, .token, .token, .always, .node .left 5, .unwired, 0xff⟩),
    (0x2C4601308006000000000204, .tap ⟨.n32, 0x1, .token, .zero, .always, .node .left 6, .unwired, 0x204⟩),
    (0x790000000000000000000000, .idle ⟨0, 0, 0, 0, 0, 0x0⟩),
    (0x782A00010000000000000001, .trapRd ⟨21, 0, 0, 0, 1, 0x1⟩),
    (0x780000020000000000000000, .trapPop ⟨0, 0, 0, 0, 2, 0x0⟩),
    (0x617200000000000000000000, .cancel ⟨25, 0, 0, 0, 0, 0x0⟩),
    (0x100807308001000000000000, .fsfu ⟨.f32, 0x7, .token, .zero, .always, .node .left 1, .unwired, 0x0⟩),
    (0x08C801308007000000000004, .delay ⟨.f32, 0x1, .token, .zero, .always, .node .left 7, .unwired, 0x4⟩),
    (0x140C1830A007A01600000004, .qmax ⟨.e5m2, 0x18, .token, .zero, .always, .node .right 7, .node .right 22, 0x4⟩),
    (0x141C08008008000000000004, .qcvt ⟨.e5m2, 0x8, .token, .token, .always, .node .left 8, .unwired, 0x4⟩),
    (0x00A20430800C0000FFFFFC00, .idx ⟨.i32, 0x4, .token, .zero, .always, .node .left 12, .unwired, 0xfffffc00⟩),
    (0x204C00008017000000000000, .stx ⟨.e5m2, 0x0, .token, .token, .always, .node .left 23, .unwired, 0x0⟩),
    (0x089C0330800F000000000000, .vmask ⟨.e5m2, 0x3, .token, .zero, .always, .node .left 15, .unwired, 0x0⟩),
    (0x046600008011000000000000, .shrNode ⟨.n32, 0x0, .token, .token, .always, .node .left 17, .unwired, 0x0⟩),
    (0x04060010C012000000000001, .andNode ⟨.n32, 0x0, .token, .literal, .always, .node .pred 18, .unwired, 0x1⟩)] : List (Rec96 × Instr)), Decode.record p.1 = .ok p.2 ∧ Decode.encode p.2 = some p.1 := by decide +kernel

/-- Record words that the spec writes out itself (the programs of files 23 to 26). -/
theorem test_decode_specWords3 : ∀ p ∈ ([
    (0x300C00340000000000000003, .trapNode ⟨.e5m2, 0x0, .token, .zero, .ifTrue, .unwired, .unwired, 0x3⟩),
    (0x082701308016000000000001, .shfl ⟨.n64, 0x1, .token, .zero, .always, .node .left 22, .unwired, 0x1⟩),
    (0x20280000E017000000000001, .st ⟨.f32, 0x0, .token, .token, .always, .node .ctl 23, .unwired, 0x1⟩),
    (0x2C0700300000000000100301, .caddNode ⟨.n64, 0x0, .token, .zero, .always, .unwired, .unwired, 0x100301⟩),
    (0x782800010000000000000000, .trapRd ⟨20, 0, 0, 0, 1, 0x0⟩),
    (0x48B400000000000000000001, .csrr ⟨26, 0, 0, 0, 0, 0x1⟩),
    (0x48418D030000000000000010, .sts ⟨0, 24, 26, 0, 3, 0x10⟩),
    (0x04D102008005000000000000, .cmp ⟨.i16, 0x2, .token, .token, .always, .node .left 5, .unwired, 0x0⟩),
    (0x08310030A009000000000000, .red ⟨.i16, 0x0, .token, .zero, .always, .node .right 9, .unwired, 0x0⟩),
    (0x08410800800C000000000000, .scan ⟨.i16, 0x8, .token, .token, .always, .node .left 12, .unwired, 0x0⟩),
    (0x088101308010000000000000, .unpack ⟨.i16, 0x1, .token, .zero, .always, .node .left 16, .unwired, 0x0⟩),
    (0x089201008011E01300000000, .vmask ⟨.i32, 0x1, .token, .token, .always, .node .left 17, .node .ctl 19, 0x0⟩),
    (0x00B200F08016000000000010, .iota ⟨.i32, 0x0, .zero, .zero, .always, .node .left 22, .unwired, 0x10⟩),
    (0x204200000000000000000000, .stx ⟨.i32, 0x0, .token, .token, .always, .unwired, .unwired, 0x0⟩),
    (0x082701308021000000000001, .shfl ⟨.n64, 0x1, .token, .zero, .always, .node .left 33, .unwired, 0x1⟩),
    (0x10180A30800C000000000001, .cvt ⟨.f32, 0xa, .token, .zero, .always, .node .left 12, .unwired, 0x1⟩),
    (0x0C3801009001000000000000, .ffma ⟨.f32, 0x1, .token, .token, .always, .region 1, .unwired, 0x0⟩),
    (0x694A60000000000000000000, .gather ⟨5, 6, 0, 0, 0, 0x0⟩),
    (0x604090010000000000000001, .cadd ⟨0, 9, 0, 0, 1, 0x1⟩),
    (0x1C1802308002000000000000, .ppmul ⟨.f32, 0x2, .token, .zero, .always, .node .left 2, .unwired, 0x0⟩),
    (0x1C182230A002000000000000, .ppmul ⟨.f32, 0x22, .token, .zero, .always, .node .right 2, .unwired, 0x0⟩),
    (0x040600008003000000000000, .andNode ⟨.n32, 0x0, .token, .token, .always, .node .left 3, .unwired, 0x0⟩),
    (0x1C5820308004000000000000, .ppout ⟨.f32, 0x20, .token, .zero, .always, .node .left 4, .unwired, 0x0⟩),
    (0x1C3800308005000000000000, .ppcmb ⟨.f32, 0x0, .token, .zero, .always, .node .left 5, .unwired, 0x0⟩),
    (0x1C5800308006000000000000, .ppout ⟨.f32, 0x0, .token, .zero, .always, .node .left 6, .unwired, 0x0⟩),
    (0x08A800309000800800000000, .fan ⟨.f32, 0x0, .token, .zero, .always, .region 0, .node .left 8, 0x0⟩),
    (0x1C2842308009000000000000, .ppdiv ⟨.f32, 0x42, .token, .zero, .always, .node .left 9, .unwired, 0x0⟩),
    (0x1C084130E00700000000003F, .ppset ⟨.f32, 0x41, .token, .zero, .always, .node .ctl 7, .unwired, 0x3f⟩),
    (0x1C5840309001000000000000, .ppout ⟨.f32, 0x40, .token, .zero, .always, .region 1, .unwired, 0x0⟩),
    (0x500800010000010000000000, .run ⟨4, 0, 0, 0, 1, 0x10000000000⟩),
    (0x68400001000000000000001F, .sgo ⟨0, 0, 0, 0, 1, 0x1f⟩),
    (0x608040010000000000000001, .cwait ⟨0, 4, 0, 0, 1, 0x1⟩),
    (0x70D650000000000000000000, .hpin ⟨11, 5, 0, 0, 0, 0x0⟩),
    (0x71DA32000000000000001000, .reloc ⟨13, 3, 4, 0, 0, 0x1000⟩),
    (0x704046030000000000000018, .hst ⟨0, 4, 12, 0, 3, 0x18⟩),
    (0x700A10030000000000000018, .hld ⟨5, 1, 0, 0, 3, 0x18⟩),
    (0x7004100B0000000000000010, .hld ⟨2, 1, 0, 0, 11, 0x10⟩),
    (0x708220020000000000000000, .hmov ⟨1, 2, 0, 0, 2, 0x0⟩),
    (0x708E20010000000000000000, .hmov ⟨7, 2, 0, 0, 1, 0x0⟩),
    (0x50C070100000010000001800, .exitc ⟨0, 7, 0, 1, 0, 0x10000001800⟩),
    (0x6080E0010000000000000001, .cwait ⟨0, 14, 0, 0, 1, 0x1⟩),
    (0x715221000000000000000000, .hcmp ⟨9, 2, 2, 0, 0, 0x0⟩),
    (0x7040110B0000000000000010, .hst ⟨0, 1, 2, 0, 11, 0x10⟩),
    (0x50C070000000010000004000, .exitc ⟨0, 7, 0, 0, 0, 0x10000004000⟩),
    (0x710050000000000000000000, .hunpin ⟨0, 5, 0, 0, 0, 0x0⟩)] : List (Rec96 × Instr)), Decode.record p.1 = .ok p.2 ∧ Decode.encode p.2 = some p.1 := by decide +kernel
/-! ### Messages -/

/-- Flits with their header, body and CRC (Tables 2.1, 2.2, 2.8). -/
theorem test_decode_flits1 :
    decodeTableWord 768 0xC00400800C0140000001FF8 = some .nullFlit ∧
    decodeTableWord 768 0x400000000000000000000000000FF000000000000000000000000000000000000000000000000000000000000000000000000000000000000000000000000000000000000000000000000000000001000400800C014000000CA2E = some .rdreq ∧
    decodeTableWord 768 0x8000000000000000000000000000000000000001000000000000000000000000000000000000000000000000000000000000000000000000000000000000000000000000000000000000000000000000000000072000400800C014000000D3A4 = some .wrreq ∧
    decodeTableWord 768 0xFF000000000000000000000000000000000000000000000000000000000000000000000000000000000000000000000000000000000000000000000000000000093400400800C014000000D775 = some .rdrsp ∧
    decodeTableWord 768 0x1000000000000000000000000000000000000000000000000000000000000000000000000000000000000000000000000000000000000000000000000000000004400400800C0140000003190 = some .wrack ∧
    decodeTableWord 768 0x200000000000000000000000000000000000000015800400800C014000000C5F2 = some .tokenFlit ∧
    decodeTableWord 768 0x100000005000900016800400800C014000000632F = some .cairnAdd ∧
    decodeTableWord 768 0x80000000000026800400800C0140000009E03 = some .cairnWait ∧
    decodeTableWord 768 0x36800400800C014000000DBA7 = some .cairnRead ∧
    decodeTableWord 768 0x2000000040000000000000000000000000000000000000000000000000000000000000000000000000000000000000000000000000000000000000000000000000000000000000000000000017000400800C01400000032BC = some .xstage := by decide +kernel

/-- Flits of Tables 2.9 to 2.12. -/
theorem test_decode_flits2 :
    decodeTableWord 768 0x18800400800C0140000002D62 = some .prepareTxn ∧
    decodeTableWord 768 0x28800400800C0140000001F63 = some .readyTxn ∧
    decodeTableWord 768 0x38800400800C014000000FE83 = some .commitTxn ∧
    decodeTableWord 768 0x1048800400800C014000000959C = some .abortTxn ∧
    decodeTableWord 768 0x58800400800C0140000009A81 = some .doneTxn ∧
    decodeTableWord 768 0x68800400800C014000000A880 = some .queryTxn ∧
    decodeTableWord 768 0x78800400800C0140000004960 = some .keepTxn ∧
    decodeTableWord 768 0x300019C00400800C01400000021F1 = some .classBind ∧
    decodeTableWord 768 0x300029C00400800C01400000013F0 = some .classRelease ∧
    decodeTableWord 768 0x70001A400400800C014000000584D = some .greply ∧
    decodeTableWord 768 0x10001B000400800C0140000007C1E = some .hopReadHeader ∧
    decodeTableWord 768 0x2B000400800C014000000162A = some .hopPin ∧
    decodeTableWord 768 0x3B000400800C014000000F7CA = some .hopUnpin ∧
    decodeTableWord 768 0x4B000400800C0140000007228 = some .hopWait := by decide +kernel

/-- A wrong CRC, a wrong channel, a reserved TYPE, an OP that is not listed, a byte that is not named (R31, R32). -/
theorem test_decode_flits_refused :
    decodeTableWord 768 0xFF000000000000000000000000000000000000000000000000000000000000000000000000000000000000000000000000000000000000000000000000000000001000400800C014000000CC8E = none ∧
    decodeTableWord 768 0x10C00400800C014000000FE18 = none ∧
    decodeTableWord 768 0x46800400800C0140000005E45 = none ∧
    decodeTableWord 768 0x1016800400800C014000000E6BB = none ∧
    decodeTableWord 768 0x88800400800C014000000B365 = none ∧
    decodeTableWord 768 0x39C00400800C0140000001A4F = none := by decide +kernel

/-- System commands by KIND (Table 3.11). -/
theorem test_decode_commands :
    decodeTableWord 512 0x30010 = some .ctxnew ∧
    decodeTableWord 512 0x30011 = some .ctxfree ∧
    decodeTableWord 512 0x30012 = some .cancelCommand ∧
    decodeTableWord 512 0x30013 = some .snapCommand ∧
    decodeTableWord 512 0x30014 = some .snapdropCommand ∧
    decodeTableWord 512 0x30015 = some .replaceCommand ∧
    decodeTableWord 512 0x30016 = some .cfginv ∧
    decodeTableWord 512 0x30017 = some .topo ∧
    decodeTableWord 512 0x30018 = some .cinit ∧
    decodeTableWord 512 0x30019 = none ∧
    decodeTableWord 512 0x3000F = none := by decide +kernel

/-- MGMTCMD values (Table 1.6): FREEZE, WARMRESET, CONT of partition 5 core 3, an unlisted OP, a reserved bit. -/
theorem test_decode_mgmt :
    decodeTableWord 64 0x100000000000000 = some .freezeCmd ∧
    decodeTableWord 64 0x200000000000000 = some .warmresetCmd ∧
    decodeTableWord 64 0x356000000000000 = some .contCmd ∧
    decodeTableWord 64 0x400000000000000 = some .malformedCommand ∧
    decodeTableWord 64 0x100000000000001 = some .malformedCommand := by decide +kernel
/-! ### Ill-formed terms: one for each check of WellFormed (Tables 13.12, 14.1, 15.1, 16.1, 17.1, 18.1, 19.1) -/

/-- A node record with every field given. -/
def rec_ (f : Fmt) (m : BitVec 8) (l r : Src) (pm : PMode) (a b : Target) (lit : BitVec 32) : NodeRec := ⟨f, m, l, r, pm, a, b, lit⟩
/-- A well-formed pair of targets, and a node that keeps every common rule but for what a test changes. -/
def to5 : Target := .node .left 5
def plain (f : Fmt) (m : BitVec 8) (l r : Src) (lit : BitVec 32) : NodeRec := ⟨f, m, l, r, .always, to5, .unwired, lit⟩

/-- Sources, format, reserved MOD bits, reserved LIT bits, predicate modes. -/
theorem test_refused_common : ∀ i ∈ ([.mad (plain .i32 0 .literal .token 1), .abs (plain .i32 0 .token .token 0), .abs (plain .n32 0 .token .zero 0),
    .addNode (plain .f32 0 .token .token 0), .addNode (plain .i32 2 .token .token 0), .addNode (plain .i32 0 .token .token 1),
    .addNode (rec_ .i32 0 .token .token .steer to5 .unwired 0), .red (rec_ .i32 0 .token .zero .ifTrue to5 .unwired 0),
    .selNode (plain .i32 0 .token .token 0)] : List Instr), i.wf = false := by decide +kernel

/-- The rules of single entries: fields of BFX and BFI, conditions, lanes, modes, literals. -/
theorem test_refused_integer : ∀ i ∈ ([.bfx (plain .i16 0 .token .zero 0x0F01), .bfi (plain .n8 0 .token .token 0x0008), .cmp (plain .i32 6 .token .token 0),
    .cmp (plain .ref 2 .token .token 0), .bcast (plain .i32 1 .token .zero 16), .bcast (plain .i32 0 .token .zero 16), .red (plain .i32 6 .token .zero 0),
    .red (plain .f32 3 .token .zero 0), .scan (plain .i32 7 .token .zero 0), .scan (plain .bf16 4 .token .zero 0), .vmask (plain .i32 0 .token .token 1),
    .vmask (plain .i32 1 .token .token 1), .vmask (plain .i32 3 .token .zero 1), .fan (plain .i32 1 .token .zero 0), .delay (plain .i32 0 .token .zero 0),
    .delay (plain .i32 0 .token .zero 257), .tag (plain .i32 2 .token .token 1), .tag (plain .i32 0 .token .token 1), .tag (plain .i32 4 .token .zero 1),
    .lastNode (plain .i32 1 .token .zero 1), .sink (plain .i32 0 .token .zero 0), .sink (rec_ .i32 0 .token .zero .always .unwired to5 0)] : List Instr),
    i.wf = false := by decide +kernel

theorem test_refused_float : ∀ i ∈ ([.ffma (plain .f32 1 .token .token 1), .ffma (plain .f32 0 .literal .token 1), .ffma (plain .f32 0 .token .literal 1),
    .fsgn (plain .f32 3 .token .token 0), .fsfu (plain .f32 9 .token .zero 0), .cvt (plain .f32 2 .token .zero 0),
    .cvt (plain .e4m3 8 .token .zero 1), .cvt (plain .f32 9 .token .zero 2), .cvt (plain .f32 9 .token .token 0), .ftoi (plain .i32 0x02 .token .zero 0),
    .itof (plain .f32 0x08 .token .zero 0), .frnd (plain .f32 0x01 .token .zero 0), .qmax (plain .a8 2 .token .zero 4),
    .qmax (plain .a8 8 .token .zero 0), .qcvt (plain .e4m3 8 .token .token 257), .qcvt (plain .e4m3 0x0B .token .token 4), .dqt (plain .f32 2 .token .token 0),
    .dqt (plain .f32 0x3D .token .token 0), .dqt (plain .f32 0x1B .token .token 0), .scaleNode (plain .f16 2 .token .token 0),
    .scacc (plain .f32 3 .token .token 0)] : List Instr), i.wf = false := by decide +kernel

theorem test_refused_matrix : ∀ i ∈ ([.mrow (plain .bf16 0 .token .zero 0), .mrow (rec_ .bf16 1 .token .zero .always to5 to5 0), .mrow (rec_ .bf16 0 .token .token .always to5 to5 0),
    .mqrow (plain .a8 0 .token .token 0), .mrec (rec_ .bf16 0 .token .token .always .unwired to5 0), .mout (plain .e4m3 1 .token .zero 0),
    .ppmul (plain .f32 3 .token .zero 0), .ppdiv (plain .f32 3 .token .zero 0), .ld (plain .f32 0 .token .zero 0), .ld (plain .i64 0 .token .zero 1),
    .st (plain .f32 0 .token .token 0), .st (plain .n64 0 .token .token 2), .caddNode (plain .n64 2 .token .token 1), .caddNode (plain .n64 0 .token .token 1),
    .caddNode (plain .n64 1 .token .zero 0x00100001), .cwaitNode (plain .n64 3 .token .token 0x80000000), .bin (plain .f32 0 .token .token 0),
    .bout (plain .f32 0 .token .token 0), .trace (plain .f32 0 .token .held 4), .trace (plain .f32 0 .token .held 12), .trapNode (plain .i32 1 .token .zero 0)] :
    List Instr), i.wf = false := by decide +kernel

/-- Control records: unused registers, reference registers above `h15`, conditions, IMM, M; then the rules of single entries. -/
theorem test_refused_control : ∀ i ∈ ([.movi ⟨1, 1, 0, 0, 0, 0⟩, .movi ⟨1, 0, 1, 0, 0, 0⟩, .halt ⟨1, 0, 0, 0, 0, 0⟩, .addS ⟨1, 2, 3, 0, 1, 4⟩, .addS ⟨1, 2, 3, 0, 0, 4⟩,
    .hpin ⟨1, 16, 0, 0, 0, 0⟩, .hmov ⟨16, 1, 0, 0, 0, 0⟩, .setc ⟨1, 2, 3, 6, 0, 0⟩, .addS ⟨1, 2, 3, 1, 0, 0⟩, .csrr ⟨1, 0, 0, 0, 0, 0x1000⟩, .callb ⟨1, 0, 0, 0, 0, 0x400⟩,
    .callb ⟨1, 0, 0, 0, 0, 0x0100000000000000⟩, .lds ⟨1, 2, 0, 0, 7, 0⟩, .sts ⟨0, 2, 1, 0, 4, 0⟩, .hld ⟨1, 2, 0, 0, 7, 0⟩, .addS ⟨1, 2, 3, 0, 2, 0⟩, .sgo ⟨0, 0, 0, 0, 3, 1⟩,
    .trapPop ⟨0, 0, 0, 0, 2, 1⟩, .shlS ⟨1, 2, 0, 0, 1, 64⟩, .shrS ⟨1, 2, 0, 0, 1, 64⟩, .sarS ⟨1, 2, 0, 0, 1, 64⟩, .cancel ⟨1, 2, 0, 0, 0, 3⟩, .arm ⟨0, 2, 3, 0, 0, 0x100000000⟩,
    .arm ⟨0, 2, 3, 0, 0, 1⟩, .arm ⟨0, 2, 3, 0, 0, 0x100000003⟩, .xput ⟨1, 2, 3, 0, 0, 0⟩, .xput ⟨1, 2, 3, 0, 0, 65537⟩, .reloc ⟨1, 2, 3, 0, 0, 65537⟩] : List Instr),
    i.wf = false := by decide +kernel

/-- Events that name what the device has not. -/
theorem test_refused_event : ∀ i ∈ ([.portTrained 36 true true, .idleNullTimer 36, .linkFault 36 .replays, .routeRehash 4 0 0, .routeRehash 0 4096 0, .routeRehash 0 0 9,
    .classReleaseTimer 36 0 0, .classReleaseTimer 0 4096 0, .classReleaseTimer 0 0 4096, .launchDescriptorTake 64 0, .launchDescriptorTake 0 4, .dispatchChoice 4, .relocRun 4,
    .timestampRebase 4, .l2ModeSwitch 16, .bivouacExchange 16, .preempt 128, .blockFetch 128, .blockCommit 128, .faultTokenEntry 128, .trapEntry 128, .majorFaultSave 128,
    .regionReplaceSwitch 128, .idleWake 128, .replicate 128 0, .replicate 0 8, .replicaWithdraw 0 8, .fabricBlockMap 0 8, .unitComplete 0 8, .streamScoreboardStep 2048 0,
    .loadStreamToken 0 8, .storeStreamToken 2048 0, .streamComplete 0 8, .arbiterWindow 2048 0, .arbiterWindow 0 17, .peCheckFailure 2048 0, .peCheckFailure 0 17] : List Instr),
    i.wf = false := by decide +kernel

/-- Words that are no instruction, refused by name: unallocated codes, class 11, reserved bits (R284, R286, Table 13.12). -/
theorem test_refused_words : ∀ w ∈ ([0x00D000F08001000000000000, 0x340000000000000000000000, 0x450000000000000000000000, 0xC00000000000000000000000, 0x800000000000000000000000,
    0x0002000C8001000000000000, 0x000200018001000000000000, 0x000200008001800080000000] : List Nat), (decodeTableWord 96 w).isNone = true := by decide +kernel

/-! ### Worked examples of the spec -/

/-- The same under a policy of the PE. -/
def firstUnder (pol : BitVec 8) (i : Instr) (l r : Elem) : Option (Elem × BitVec 10) :=
  let s := fire i (all16 l) (all16 r)
  let t := s.tile 0
  match exec i (s.putTile 0 { t with pes := t.pes.map fun p => (p.1, { p.2 with policy := pol }) }) with
  | .next t => ((t.tile 0).chans.head?).bind fun c => c.tok.lanes.head?.map fun e => (e.val, ((t.tile 0).pe 0).sticky)
  | _ => none

/-- A node record of two token operands, of one token operand. -/
def two (f : Fmt) (m : BitVec 8) : NodeRec := ⟨f, m, .token, .token, .always, .node .left 5, .unwired, 0⟩
def one (f : Fmt) (m : BitVec 8) : NodeRec := { two f m with rsrc := .zero }

/-- Table 16.3, its rows of values of 8 bits in the lowest byte, of 16 bits in the lower half. -/
theorem test_table16_3 :
    first (.addNode (two .i8 0)) 0x64 0x64 = some (0xC8, 0) ∧
    first (.addNode (two .i8 1)) 0x64 0x64 = some (0x7F, fSAT) ∧
    first (.subNode (two .n16 0)) 3 5 = some (0xFFFE, 0) ∧
    first (.subNode (two .n16 1)) 3 5 = some (0, fSAT) ∧
    first (.neg (one .i32 0)) 0x80000000 0 = some (0x80000000, 0) ∧
    first (.neg (one .i32 1)) 0x80000000 0 = some (0x7FFFFFFF, fSAT) ∧
    first (.neg (one .n8 1)) 5 0 = some (0, fSAT) ∧
    first (.abs (one .i16 0)) 0x8000 0 = some (0x8000, 0) ∧
    first (.abs (one .i16 1)) 0x8000 0 = some (0x7FFF, fSAT) ∧
    first (.mulNode (two .i16 0)) 0x0100 0x0100 = some (0, 0) ∧
    first (.mulhNode (two .i16 0)) 0xFFFF 2 = some (0xFFFF, 0) ∧
    first (.mulhNode (two .n16 0)) 0xFFFF 2 = some (1, 0) ∧
    first (.mad ⟨.i32, 0, .token, .token, .always, .node .left 5, .unwired, 5⟩) 3 4 = some (17, 0) ∧
    first (.minNode (two .i8 0)) 0xFF 1 = some (0xFF, 0) ∧
    first (.minNode (two .n8 0)) 0xFF 1 = some (1, 0) := by decide +kernel

/-- Examples of R360 to R363. -/
theorem test_bits : ∀ p ∈ ([(.shlNode (two .i8 0), 0x81, 9, 2), (.bfx { one .i16 0 with lit := 0x0304 }, 0x00F0, 0, 0xFFFF),
    (.bfx { one .n16 0 with lit := 0x0304 }, 0x00F0, 0, 0x000F), (.clzNode (one .i16 0), 0x00010000, 0, 0x000F0010), (.popcNode (one .i32 0), 0xF0F0, 0, 8),
    (.cmp (two .i32 2), 0xFFFFFFFF, 0, 0xFFFFFFFF), (.cmp (two .n32 2), 0xFFFFFFFF, 0, 0), (.rot (two .n32 0), 0x80000001, 4, 0x18),
    (.bfi { two .n32 0 with lit := 0x0708 }, 0x11223344, 0xAB, 0x1122AB44)] : List (Instr × Elem × Elem × Elem)),
    first p.1 p.2.1 p.2.2.1 = some (p.2.2.2, 0) := by decide +kernel

/-- An invalid operand element gives the invalid element with payload 0; a poisoned one is computed and poisoned, and raises PSN (Table 16.3). -/
theorem test_validity : ((sent (.addNode (two .i32 0)) (Lane.off :: ⟨3, true, true⟩ :: lanes [4]) (lanes [5, 6, 7])).map fun p => (p.1.take 3, p.2)) =
    some ([Lane.off, ⟨9, true, true⟩, Lane.on 11], fPSN) := by decide +kernel

/-- Table 17.2. -/
theorem test_table17_2 : ∀ p ∈ ([(0, .fadd (two .f32 0), 0x3F800000, 0x33800000, 0x3F800000, fNX), (0x80, .fadd (two .f32 0), 0x3F800000, 0x33800000, 0x3F800001, fNX),
    (0, .fsub (two .f32 0), 0x7F800000, 0x7F800000, 0x7FC00000, fNV), (0, .fmul (two .f32 0), 0, 0xFF800000, 0x7FC00000, fNV),
    (0, .fmul (two .f32 0), 0x3F800400, 0x3F7FF800, 0x3F800000, fNX), (0, .ffma { two .f32 0 with lit := 0xBF800000 }, 0x3F800400, 0x3F7FF800, 0xB2800000, 0),
    (4, .fadd (two .f32 0), 0x7F800001, 0x3F800000, 0x7FC00001, fNV), (0, .fadd (two .bf16 0), 0x7F7F7F7F, 0x7F7F7F7F, 0x7F807F80, fOF ||| fNX),
    (0x10, .fadd (two .bf16 0), 0x7F7F7F7F, 0x7F7F7F7F, 0x7F7F7F7F, fSAT ||| fNX), (0, .fadd (two .f16 0), 0x3C003C00, 0x3C003C00, 0x40004000, 0)] :
    List (BitVec 8 × Instr × Elem × Elem × Elem × BitVec 10)),
    firstUnder p.1 p.2.1 p.2.2.1 p.2.2.2.1 = some (p.2.2.2.2.1, p.2.2.2.2.2) := by decide +kernel

/-- Table 12.5: flushing. -/
theorem test_table12_5 :
    firstUnder 1 (.fadd ⟨.f16, 0, .token, .literal, .always, .node .left 5, .unwired, 0⟩) 1 0 = some (1, 0) ∧
    firstUnder 0 (.fadd ⟨.f16, 0, .token, .literal, .always, .node .left 5, .unwired, 0⟩) 0x10 0 = some (0x10, 0) ∧
    firstUnder 2 (.fadd ⟨.f16, 0, .token, .literal, .always, .node .left 5, .unwired, 0⟩) 0x10 0 = some (0, fUF ||| fNX) := by decide +kernel

/-- Special operands of FSFU and class codes (Table 17.5, R385). -/
theorem test_special : ∀ p ∈ ([(.fsfu (one .f32 0), 0x80000000, 0xFF800000, fDZ), (.fsfu (one .f32 2), 0x80000000, 0x80000000, 0), (.fsfu (one .f32 3), 0xFF800000, 0, 0),
    (.fsfu (one .f32 7), 0x7F800000, 0x3F800000, 0), (.fclass (one .f32 0), 0x80000001, 2, 0), (.fclass (one .f32 0), 0x7F800001, 8, 0)] :
    List (Instr × Elem × Elem × BitVec 10)), first p.1 p.2.1 0 = some (p.2.2.1, p.2.2.2) := by decide +kernel

/-- The row of R262: the third product is truncated, and the sum is 2^-20. -/
theorem test_matrixRow : (matrixRowSum [(fvOf .bf16 0x4480, fvOf .bf16 0x4480), (fvOf .bf16 0xC480, fvOf .bf16 0x4480), (fvOf .bf16 0x3AC0, fvOf .bf16 0x3A80)]
    (fvOf .f32 0)).1 = 0x35800000 := by decide +kernel

/-- The recurrence of Table 18.4, column 0: 256 + 1 rounds to even. -/
theorem test_table18_4 : (policy .bf16 0 0 [] (fvOf .f32 (matrixRowSum [(fvOf .bf16 0x4380, fvOf .bf16 0x3F80)] (fvOf .bf16 0x3F80)).1).ey).bits = 0x4380 ∧
    (policy .bf16 0 0 [] (fvOf .f32 (matrixRowSum [(fvOf .bf16 0x4381, fvOf .bf16 0x3F80)] (fvOf .bf16 0x3F80)).1).ey).bits = 0x4382 := by decide +kernel

/-- Table 12.6. -/
theorem test_table12_6 : let a : PolyAcc := { PolyAcc.blank with d := 2 }
    let b := (a.mulFactor (fvOf .f32 0x3F000000) (fvOf .f32 0x3F000000)).1
    let c := (b.mulFactor (fvOf .f32 0x3F400000) (fvOf .f32 0x3E800000)).1
    let d := (c.divFactor (fvOf .f32 0x3F400000) (fvOf .f32 0x3E800000)).1
    (b.c.take 3, b.e, b.trunc, b.count) = ([0x3F000000, 0x3F000000, 0], 0, false, 1) ∧
    (c.c.take 3, c.e, c.trunc, c.count) = ([0x3EC00000, 0x3F000000, 0x3E000000], 0, false, 2) ∧
    (d.c.take 3, d.e, d.trunc, d.count) = ([0x3F000000, 0x3F000000, 0], 0, false, 1) := by decide +kernel

/-- The scree generator after two rounds (R267). -/
theorem test_scree : scree 2 (0, 0, 0, 0) 0 0 = (0x7536AD68, 0x519E8DAA, 0xD1B54A33, 0x6B43A9B5) := by decide +kernel

/-- The CRC of "123456789" (Table 2.1). -/
theorem test_crc : Decode.crc16 [0x31, 0x32, 0x33, 0x34, 0x35, 0x36, 0x37, 0x38, 0x39] = 0x29B1 := by decide +kernel

/-- What COMPACT keeps of the tokens A and C of Table 16.7: five elements, base 20. -/
def compactState : State :=
  let i : Instr := .compact (one .f32 0)
  let s := fire i ((List.range 16).map fun k => if k < 3 then Lane.on (BitVec.ofNat 32 (k + 1)) else Lane.off) noLanes
  let t := s.tile 0
  s.putTile 0 { t with ready := t.ready.map fun f => { f with itag := 20, l := f.l.map fun u => { u with itag := 20 } } }

theorem test_compact : (match exec (.compact (one .f32 0)) compactState with
    | .next t => ((t.tile 0).inst 0 0).map fun m => (m.lanes.map fun l => l.val, m.base)
    | _ => none) = some ([1, 2, 3], 20) := by decide +kernel

/-- Division by zero and of the most negative number (Table 14.5), shifts, SETC, CLZ (R294 to R296). -/
theorem test_scalar : ∀ p ∈ ([(.divS ⟨4, 5, 6, 0, 0, 0⟩, 7, 0, 0xFFFFFFFFFFFFFFFF), (.remS ⟨4, 5, 6, 0, 0, 0⟩, 7, 0, 7),
    (.divS ⟨4, 5, 6, 0, 0, 0⟩, 0x8000000000000000, 0xFFFFFFFFFFFFFFFF, 0x8000000000000000), (.remS ⟨4, 5, 6, 0, 0, 0⟩, 0xFFFFFFFFFFFFFFF9, 2, 0xFFFFFFFFFFFFFFFF),
    (.divS ⟨4, 5, 0, 0, 3, 3⟩, 0xFFFFFFFFFFFFFFFF, 0, 0x5555555555555555), (.mulhS ⟨4, 5, 6, 0, 0, 0⟩, 0xFFFFFFFFFFFFFFFF, 2, 0xFFFFFFFFFFFFFFFF),
    (.mulhS ⟨4, 5, 6, 0, 2, 0⟩, 0xFFFFFFFFFFFFFFFF, 2, 1), (.sarS ⟨4, 5, 0, 0, 1, 63⟩, 0x8000000000000000, 0, 0xFFFFFFFFFFFFFFFF),
    (.setc ⟨4, 5, 6, 4, 0, 0⟩, 1, 2, 1), (.setc ⟨4, 5, 6, 2, 0, 0⟩, 1, 0xFFFFFFFFFFFFFFFF, 0), (.clz ⟨4, 5, 0, 0, 0, 0⟩, 0, 0, 64),
    (.popc ⟨4, 5, 0, 0, 0, 0⟩, 0xFF, 0, 8), (.minS ⟨4, 5, 6, 0, 0, 0⟩, 0xFFFFFFFFFFFFFFFF, 1, 0xFFFFFFFFFFFFFFFF), (.minS ⟨4, 5, 6, 0, 2, 0⟩, 0xFFFFFFFFFFFFFFFF, 1, 1)] :
    List (Instr × Word × Word × Word)), reg p.1 [(5, p.2.1), (6, p.2.2.1)] 4 = some p.2.2.2 := by decide +kernel
/-! ### Witnesses: states and operands that meet the hypotheses of a statement, clause by clause -/

/-- The machine with number 0, so that the addresses below its memory are its own. -/
def numbered (s : State) : State := { s with dev := { s.dev with devSet := true, devNum := 0 } }

/-- A fault record of a code. -/
def aFault (code : Nat) : FaultRec := State.reset.region0.faultRec 31 code 0 0 0 0 0 0

/-- A translation of the first 64 KiB, of a heap page at the bottom of the heap. -/
def page0 : TlbEntry := ⟨0, 0, 65536, 0, true, true, false, false⟩

/-- Operand registers only; with an immediate; with the unsigned bit. -/
def rrr : CtlRec := ⟨1, 4, 5, 0, 0, 0⟩
def rri (m : BitVec 4) (imm : Word) : CtlRec := ⟨1, 4, 0, 0, m, imm⟩

theorem witness_DecodeOfEncode : Decode.encode (.addNode (two .i32 0)) = some 0x000200008005000000000000 ∧ (Instr.addNode (two .i32 0)).WellFormed := by decide +kernel

theorem witness_EncodeOfDecode : Decode.record 0x000200008005000000000000 = .ok (.addNode (two .i32 0)) := by decide +kernel

theorem witness_StepRunsDecodedRecord :
    (let s := State.reset.withRecord 0x400440000000000000000000;
      s.agenda = [.record 0] ∧ ((tget s.regions 0).bind fun r => r.work.bind fun w => (tget r.blocks w.slot).bind fun b => b.image.recs[w.pc]?) =
        some 0x400440000000000000000000 ∧ Decode.record 0x400440000000000000000000 = .ok (.addS ⟨2, 4, 0, 0, 0, 0⟩)) ∧
    (let s := State.reset.withRecord 0x000200008005000000000000;
      s.agenda = [.fire 0 0] ∧ ((s.tile 0).ready[0]?.bind fun f => ((s.tile 0).inst f.pe f.slot).bind fun n => nodeRecOf n.bits).isSome = true) := by decide +kernel

theorem witness_StepRunsDecodedMessage :
    (State.reset.withMgmt (leBytes 8 (2 ^ 56))).agenda = [.event .freezeCmd] ∧
    (let s := State.reset.withCommand (leBytes 64 0x11);
      s.clocked = true ∧ (s.host.cmd.map fun c => Decode.command c.1) = some (.ok .ctxfree)) ∧
    (let s := State.reset.withFlit (leBytes 12 (3 * 2 ^ 90) ++ List.replicate 84 0);
      s.clocked = true ∧ (s.link.rx.map Decode.flitStep) = [.ok .nullFlit]) ∧
    (State.reset.withMgmt (leBytes 8 (2 ^ 56))).dev.mgmtIn = [0x0100000000000000] := by decide +kernel

theorem witness_StepTakesOpenTurn : State.reset.agenda = [] := by decide +kernel

theorem witness_ClockCountsCycles : (State.post State.reset .tick).agenda = [.tick] := by decide +kernel

theorem witness_StepKeepsSafe : State.reset.safe = true ∧ (match step (State.post State.reset .tick) with | .next t => t.safe | _ => false) = true := by decide +kernel

theorem witness_ScalarBinaryResults :
    (ready (.addS rrr)).csite.isSome = true ∧ (rri 1 64).m.getLsbD 0 = true ∧ 64 ≤ (rri 1 64).imm.toNat ∧
    onSite (atWork (.divS rrr) (setRegs [(4, 7)])) (fun c => decide (c.reg 4 = 7 ∧ c.reg 5 = 0)) = true ∧
    onSite (atWork (.divS (rri 3 3)) (setRegs [(4, 7)])) (fun c => decide (c.reg 4 = 7)) = true ∧ (rri 3 3).m.getLsbD 1 = true ∧ (rri 3 3).imm ≠ 0 ∧
    (rri 1 3).m.getLsbD 1 = false := by decide +kernel

theorem witness_ScalarOtherResults : ∀ cc : BitVec 3, cc.toNat < 6 → (ready (.setc { rrr with cc := cc })).csite.isSome = true ∧ (Instr.setc { rrr with cc := cc }).WellFormed := by
  decide +kernel

theorem witness_ScalarRegisterZero : State.reset.region0.s.length = 32 ∧ (31 : BitVec 5) ≠ 0 := by decide +kernel

theorem witness_StatusRegisterAccess :
    onSite (ready (.csrr (rri 0 0x12))) (fun c => (tget c.w.csrs 0x12).isSome && (tget c.w.csrs 0x13).isNone) = true ∧
    onSite (atWork (.csrw (rri 0 0x11)) (setRegs [(4, 0xFFFFFFFFFFF800)])) (fun c => csrwOk 0x11 (c.reg 4)) = true ∧
    onSite (atWork (.csrw (rri 0 3)) (setRegs [(4, 0xFFFF)])) (fun c => csrwOk 3 (c.reg 4)) = true ∧
    onSite (atWork (.csrw (rri 0 3)) (setRegs [(4, 0x10000)])) (fun c => !csrwOk 3 (c.reg 4)) = true ∧
    onSite (atWork (.csrw (rri 0 2)) (setRegs [(4, 0)])) (fun c => !csrwOk 2 (c.reg 4)) = true := by decide +kernel

theorem witness_LocalRecordResults :
    onSite (atWork (.exitB (rri 1 0)) (setRegs [(4, 0xFFFFFFFFFFF800)])) (fun c => decide ((c.reg 4).toNat < 2 ^ 56 ∧ (c.reg 4).toNat % 2048 = 0)) = true ∧
    onSite (atWork (.exitB (rri 1 0)) (setRegs [(4, 0x0100000000000000)])) (fun c => decide ¬ ((c.reg 4).toNat < 2 ^ 56 ∧ (c.reg 4).toNat % 2048 = 0)) = true ∧
    onSite (atWork (.retb ⟨0, 4, 0, 0, 0, 0⟩) (setRegs [(4, 0x800)])) (fun c => decide ((c.reg 4).toNat < 2 ^ 56 ∧ (c.reg 4).toNat % 2048 = 0)) = true ∧
    (∀ m : BitVec 4, m.toNat ≤ 2 → (ready (.hmov ⟨1, 2, 0, 0, m, 0⟩)).csite.isSome = true) := by decide +kernel

/-- The queue holds nothing, a class-11 record alone, or a class-00 record behind one. -/
theorem witness_TrapRecordReads :
    onSite (ready (.trapPop ⟨0, 0, 0, 0, 2, 0⟩)) (fun c => (softHead c.queue).isNone) = true ∧
    onSite (readyIn (.trapPop ⟨0, 0, 0, 0, 2, 0⟩) fun r => { r with queue := [{ aFault cCairnOverflow with cls := 3 }] }) (fun c => (softHead c.queue).map (fun f => f.cls) == some 3) = true ∧
    onSite (readyIn (.trapRd ⟨1, 0, 0, 0, 1, 0xF⟩) fun r => { r with queue := [{ aFault cCairnOverflow with cls := 3 }, aFault cUnmapped] })
      (fun c => (softHead c.queue).map (fun f => f.code) == some cUnmapped) = true ∧ bitAt 0xF#64 3 = true ∧ bitAt 7#64 3 = false := by decide +kernel

/-- A unit that still runs, none; a number without a cairn, a value reached, a value not reached; no access open. -/
theorem witness_WaitRecordResults :
    onSite (readyIn (.bwait ⟨0, 0, 0, 0, 0, 0⟩) fun r => { r with blocks := tput r.blocks 1 (oneBlock 0x000200008005000000000000 false) }) (fun c => c.rg.anyUnit) = true ∧
    onSite (ready (.bwait ⟨0, 0, 0, 0, 0, 0⟩)) (fun c => !c.rg.anyUnit) = true ∧
    onSite (atWork (.cwait ⟨0, 4, 0, 0, 1, 1⟩) (setRegs [(4, 0x100000)])) (fun c => !c.w.begun && decide (2 ^ 20 ≤ (c.reg 4).toNat)) = true ∧
    onSite (atWork (.cwait ⟨0, 4, 0, 0, 1, 0⟩) (setRegs [(4, 0xFFFFF)])) (fun c => !c.w.begun && decide ((c.reg 4).toNat < 2 ^ 20 ∧ 0 ≤ (State.reset.cairn.val 0xFFFFF).toNat)) = true ∧
    onSite (atWork (.cwait ⟨0, 4, 0, 0, 1, 1⟩) (setRegs [(4, 0xFFFFF)])) (fun c => !c.w.begun && decide ((State.reset.cairn.val (c.reg 4).toNat).toNat < 1)) = true ∧
    onSite (ready (.efence ⟨0, 0, 0, 0, 0, 0⟩)) (fun c => decide ((ready (.efence ⟨0, 0, 0, 0, 0, 0⟩)).openAccs c.rg = [] ∧ c.rg.errs = [])) = true := by decide +kernel

theorem witness_RecordFrame : (ready (.addS rrr)).csite.isSome = true := by decide +kernel

/-- An access of one piece, performed at its only turn. -/
def oneTurn (s : State) (ctx : Nat) (who : Who) (as : List Acc) (f : List Acc → Bool) : Bool :=
  match pendingAccs as with
  | [i] => match s.perform ctx who as i with
    | .ok _ bs => (bs.all fun a => a.done) && f bs
    | _ => false
  | _ => false

theorem oneTurn_spec {s : State} {ctx : Nat} {who : Who} {as : List Acc} {f : List Acc → Bool} (h : oneTurn s ctx who as f = true) :
    ∃ t bs, s.turnAccs ctx who as = .all t bs ∧ f bs = true := by
  unfold oneTurn at h
  split at h
  · rename_i i hp
    split at h
    · rename_i t bs he
      rw [Bool.and_eq_true] at h
      refine ⟨t.drawn, bs, ?_, h.2⟩
      simp [State.turnAccs, hp, State.choice, Nat.mod_one, he, h.1]
    · cases h
  · cases h

/-- LDS and STS in context 0, its first 64 KiB mapped: laid out and performed in one turn; LDS with its access done. -/
theorem witness_ScalarMemoryRecords :
    (let s := numbered (readyIn (.lds (rri 3 8)) fun r => { r with tlb := [page0], work := r.work.map fun w => { w with checked := true } });
      onEffect s fun c => !c.w.begun && match s.lay ⟨.core c.key, c.rg.ctx, .read, 0, false, false, false, 0⟩ (c.reg 4 + 8).toNat (widthBytes 3) [] with
        | .ok s2 as0 => match s2.issueAccs c.key as0 with
          | (s4, as) => oneTurn s4 c.rg.ctx c.who as fun bs => bs.all fun a => !a.psn
        | _ => false) = true ∧
    (let s := numbered (readyIn (.sts ⟨0, 4, 5, 0, 3, 8⟩) fun r => { r with tlb := [page0], work := r.work.map fun w => { w with checked := true } });
      onEffect s fun c => !c.w.begun && match s.lay ⟨.core c.key, c.rg.ctx, .write, 0, true, false, false, 0⟩ (c.reg 4 + 8).toNat (widthBytes 3) (leBytes 8 (c.reg 5).toNat) with
        | .ok s2 as0 => match s2.issueAccs c.key as0 with
          | (s4, as) => oneTurn s4 c.rg.ctx c.who as fun _ => true
        | _ => false) = true ∧
    (let a : Acc := ⟨8, 8, 0, false, List.replicate 8 1, false, false, 8, 0, false, true, false, 0, 0⟩;
      let s := numbered (atWork (.lds (rri 3 8)) fun w => { w with checked := true, begun := true, accs := [a] });
      onEffect s fun c => c.w.begun && match s.turnAccs c.rg.ctx c.who c.w.accs with
        | .all _ bs => bs.all fun a => !a.psn
        | _ => false) = true := by decide +kernel

/-- A load, a store of 32 bytes at the last beat of memory, a store to a copy-on-write frame. -/
theorem witness_AccessTouchesItsBytes :
    (let s := numbered State.reset;
      s.safe = true ∧ s.target 0 (Config.memBytes - 32) = Config.memBytes - 32 ∧ s.isLocal (Config.memBytes - 32) = true ∧ localOf (Config.memBytes - 32) < Config.memBytes ∧
      (s.mem.frame (localOf (Config.memBytes - 32))).cow = false) ∧
    (let s := numbered { State.reset with mem := State.reset.mem.putFrame 65536 { State.reset.mem.frame 65536 with cow := true } };
      s.target 0 65536 = 65536 ∧ s.isLocal 65536 = true ∧ (s.mem.frame (localOf 65536)).cow = true) := by decide +kernel

theorem witness_CairnRecords :
    onEffect (effect (.crd (rri 0 0)) [(4, 0xFFFFF)]) (fun c => decide ((c.reg 4).toNat < 2 ^ 20)) = true ∧ (rri 1 0).m.getLsbD 0 = true ∧
    onEffect (effect (.cadd (rri 1 1)) [(4, 5)]) (fun c => decide ((State.reset.cairn.val (c.reg 4).toNat).toNat + 1 < 2 ^ 64)) = true ∧
    (let s := { effect (.cadd (rri 1 1)) [(4, 5)] with cairn := State.reset.cairn.add 5 (BitVec.allOnes 64) };
      onEffect s fun c => decide (2 ^ 64 ≤ (s.cairn.val (c.reg 4).toNat).toNat + 1)) = true ∧
    onEffect (effect (.cadd (rri 1 1)) [(4, 0x100000)]) (fun c => decide (2 ^ 20 ≤ (c.reg 4).toNat)) = true ∧
    onEffect (effect (.cnew ⟨1, 4, 0, 0, 0, 0⟩) [(4, 0xFFFFF)]) (fun c => decide ((c.reg 4).toNat < 2 ^ 20)) = true := by decide +kernel

/-- With nothing taken a cairn is free, whichever is tried first; with all of them taken none is. -/
theorem freeCairn_reset : ∃ n, State.reset.freeCairn = some n := by
  have h : State.reset.cairn.taken = [] := by decide +kernel
  simp [State.freeCairn, State.freeCairn.go, h, tget]

theorem freeCairn_full (s : State) (h : ∀ k, 524288 ≤ k → k < 1048576 → (tget s.cairn.taken k).isSome = true) : s.freeCairn = none := by
  have : ∀ fuel i, State.freeCairn.go s fuel i = none := by
    intro fuel
    induction fuel with
    | zero => intro i; rfl
    | succ n ih => intro i; rw [State.freeCairn.go]; rw [if_pos (h _ (by omega) (by omega))]; exact ih _
  exact this _ _

/-- The first `n` allocated numbers taken. -/
def allTaken (n : Nat) : Tab Nat := (List.range n).map fun i => (524288 + i, 0)

theorem allTaken_isSome (n k : Nat) (h1 : 524288 ≤ k) (h2 : k < 524288 + n) : (tget (allTaken n) k).isSome = true := by
  have go : ∀ (l : List Nat) (j : Nat), j ∈ l → (tget (l.map fun i => (524288 + i, 0)) (524288 + j)).isSome = true := by
    intro l
    induction l with
    | nil => intro j h; cases h
    | cons a l ih =>
      intro j h
      rw [List.map_cons, tget]
      split
      · rfl
      · rcases List.mem_cons.1 h with rfl | h'
        · contradiction
        · exact ih j h'
  have := go (List.range n) (k - 524288) (List.mem_range.2 (by omega))
  rwa [Nat.add_sub_cancel' h1] at this

theorem witness_CairnRecords_none (n : Nat) (h : n = 524288) :
    { State.reset with cairn := { State.reset.cairn with taken := allTaken n } }.freeCairn = none :=
  freeCairn_full _ fun k h1 h2 => allTaken_isSome n k h1 (by omega)

/-! ### Effects -/

/-- A context with every feature, no redirections, no page table; and the machine with it as context 0. -/
def aCtx : Ctx := ⟨1, 0, 0x3FFFF, 0, 50, 0, 0, false, [], [], [], [], [], []⟩
def inCtx (x : Ctx) (s : State) : State := { s with host := { s.host with ctxs := [(0, x)] } }

/-- The two beats of a descriptor of eight words, as they have been read. -/
def readAccs (ws : List Nat) : List Acc :=
  let bs := ws.flatMap fun w => leBytes 8 w;
  [⟨0, 32, 0, false, bs.take 32, false, false, 0, 0, false, true, false, 0, 0⟩, ⟨32, 32, 0, false, bs.drop 32, false, false, 32, 0, false, true, false, 0, 0⟩]

/-- An effect record whose descriptor has been read. -/
def effectRead (i : Instr) (ws : List Nat) : State := atWork i fun w => { w with checked := true, begun := true, accs := readAccs ws }

/-- A predicate of the words read, where the accesses of the record are all done. -/
def onRead (s : State) (f : CSite → List Word → Bool) : Bool :=
  onEffect s fun c => c.w.begun && match s.turnAccs c.rg.ctx c.who c.w.accs with
    | .all _ bs => (bs.all fun a => !a.psn) && f c (wordsOf (laneBytes bs 0))
    | _ => false

/-- The descriptor of Table 3.9. -/
def launchWords : List Nat := [0x130501, 0x10000200800, 0x101, 0, 0, 0x10007, 0x40, 0]

theorem witness_LaunchRecords :
    onRead (effectRead (.launch (rri 0 1)) [0, 0, 0, 0, 0, 0, 0, 0]) (fun c d => decide ((c.reg 4).toNat % 64 = 0) && !launchOk (sysCmdOf d)) = true ∧
    (let s := inCtx aCtx (effectRead (.launch (rri 0 1)) launchWords);
      onRead s fun c d => launchOk (sysCmdOf d) && (s.launchDie (launchOf (sysCmdOf d) c.rg.ctx 1 0 none) (dieOf c.rg.part)).isSome) = true ∧
    onEffect (effect (.cancel (rri 0 0)) []) (fun c => decide (c.reg 4 = 0)) = true ∧
    (let s := effect (.cancel (rri 0 1)) [(4, 5)];
      onEffect s fun c => !s.anyMember c.rg.ctx 1 (c.reg 4).toNat) = true ∧
    (let s := effect (.cancel (rri 0 1)) [(4, 0)];
      let t := { s with host := { s.host with launches := [(0, loadLaunch)] } };
      onEffect t fun c => t.anyMember c.rg.ctx 1 (c.reg 4).toNat) = true ∧
    onEffect (inCtx aCtx (effect (.arm ⟨0, 4, 5, 0, 0, 0x100000001⟩) [(4, 0xFFFFF)])) (fun c => decide ((c.reg 4).toNat < 2 ^ 20)) = true ∧
    256 ≤ (List.replicate 256 (⟨1, 7, 0, 1, false⟩ : Arm)).length ∧ aCtx.arms.length < 256 := by decide +kernel

/-- A fabric block of one node in the configuration cache, at an address that context 0 maps. -/
def withFabric (s : State) : State := { s with caches := { s.caches with cfg := [(0, [⟨0, 0x800, some (oneRecord 0x000200008005000000000000 false)⟩])] } }
def runState (i : Instr) (rs : List (Nat × Word)) : State :=
  withFabric (readyIn i fun r => { r with tlb := [page0], work := r.work.map fun w => { setRegs rs w with checked := true } })

theorem witness_UnitRecords :
    (let s := runState (.run ⟨3, 0, 0, 0, 1, 0x800⟩) [(3, 0xFFFFF)];
      onEffect s fun c => decide ((c.reg 3).toNat < 2 ^ 20) && decide (c.runMask ⟨3, 0, 0, 0, 1, 0x800⟩ ≠ 0) && match s.wantImage c.key c.rg 0x800 with
        | .ok s2 (some m) => !m.hdr.control && ((tget s2.regions c.key).bind fun r => r.freeSlot).isSome
        | _ => false) = true ∧
    (let s := runState (.run ⟨0, 4, 5, 0, 0, 0x800⟩) [];
      onEffect s fun c => decide (c.runMask ⟨0, 4, 5, 0, 0, 0x800⟩ = 0) && match s.wantImage c.key c.rg 0x800 with
        | .ok _ (some m) => !m.hdr.control
        | _ => false) = true ∧
    onEffect (effect (.replaceB ⟨1, 2, 3, 0, 0, 0x1000⟩) [(2, 1)]) (fun c => decide ((c.reg 2).toNat % 2048 ≠ 0)) = true ∧
    (let s := inCtx aCtx (effect (.replaceB ⟨1, 2, 3, 0, 0, 0x1000⟩) [(2, 0x800), (3, 0x2000)]);
      onEffect s fun c => !s.replaceLacks c c.w.pc (c.reg 3).toNat 0x1000 (s.diefeat 0) &&
        (redirectAfter (s.redirectOf c.rg.ctx) (c.reg 2).toNat (c.reg 3).toNat 0x1000).isSome) = true ∧
    (let s := inCtx { aCtx with redirect := (List.range 16).map fun k => (0x100000 + 0x1000 * k, 0, 0x800) } (effect (.replaceB ⟨1, 2, 3, 0, 0, 0x1000⟩) [(2, 0x800), (3, 0x2000)]);
      onEffect s fun c => !s.replaceLacks c c.w.pc (c.reg 3).toNat 0x1000 (s.diefeat 0) &&
        (redirectAfter (s.redirectOf c.rg.ctx) (c.reg 2).toNat (c.reg 3).toNat 0x1000).isNone) = true := by decide +kernel

/-- A control block with the declaration of Table 13.14, and a tile that holds the statement. -/
def withDecl (s : State) : State :=
  { s with regions := s.regions.map fun e => (e.1, { e.2 with blocks := e.2.blocks.map fun b =>
      (b.1, { b.2 with image := { b.2.image with decls := [0xC00004000000200000000000, 0xC40000000000000000000000] } }) }) }
def aStmt : Stmt := ⟨1, 8, 0, [], 1, [], 0, 8, [], none, [], false⟩
def withStmt (s : State) : State := s.putTile 0 { s.tile 0 with stmts := [(0, aStmt)] }

theorem witness_FoldRecords :
    (let s := withDecl (effect (.fdecl ⟨0, 0, 0, 0, 0, 0⟩) []);
      onEffect s fun c => match c.blk.image.declAt 0 with
        | some (idx, d, clean) => decide (declCheck idx d (s.stmtsOf c.rg) clean = 0) && (tget (s.stmtsOf c.rg) idx).isNone
        | none => false) = true ∧
    (let s := withStmt (withDecl (effect (.fdecl ⟨0, 0, 0, 0, 0, 0⟩) []));
      onEffect s fun c => match c.blk.image.declAt 0 with
        | some (idx, d, clean) => decide (declCheck idx d (s.stmtsOf c.rg) clean ≠ 0)
        | none => false) = true ∧
    (let s0 := withDecl (effect (.fdecl ⟨0, 0, 0, 0, 0, 0⟩) []);
      let s := match s0.csite.bind fun c => c.blk.image.declAt 0 with
        | some (idx, d, _) => s0.mapTiles [0] fun t => t.declare idx d
        | none => s0;
      onEffect s fun c => match c.blk.image.declAt 0 with
        | some (idx, d, clean) => decide (declCheck idx d (s.stmtsOf c.rg) clean = 0 ∧ c.w.aux = []) && (match tget (s.stmtsOf c.rg) idx with
          | some o => decide (o.lat = d.lat)
          | none => false)
        | none => false) = true ∧
    (let s := effect (.fresize ⟨1, 2, 0, 0, 0, 0⟩) [];
      onEffect s fun c => (tget (s.stmtsOf c.rg) (c.reg 2).toNat).isNone) = true ∧
    (let s := withStmt (effect (.fdrop ⟨1, 2, 0, 0, 0, 0⟩) []);
      onEffect s fun c => decide (tget (s.stmtsOf c.rg) (c.reg 2).toNat = some aStmt) && c.rg.tiles.all fun k => !(s.tile k).anySlot aStmt fun e => decide (e = .draining)) = true ∧
    (let s := withStmt (effect (.fqry ⟨1, 2, 3, 0, 0, 0⟩) []);
      onEffect s fun c => decide (tget (s.stmtsOf c.rg) (c.reg 2).toNat = some aStmt ∧ (c.reg 3).toNat < aStmt.foot ∧ 0 < c.rg.size)) = true ∧
    (let s := withStmt (atWork (.fresize ⟨1, 2, 0, 0, 0, 0⟩) fun w => { w with checked := true, aux := [2] });
      onEffect s fun c => match s.resizeTurn c.rg 0 (resizeLat 0 0) 2 with
        | .done _ _ => true
        | _ => (match s.resizeTurn c.rg 0 (resizeLat 0 0) 3 with | .done _ _ => true | _ => false)) = true := by decide +kernel

/-- A spill and a fill of a name of the statement, their sectors transferred. -/
theorem witness_FoldRecords_spill :
    (let s := withStmt (atWork (.fspill ⟨1, 2, 3, 0, 0, 0⟩) fun w => { w with checked := true, begun := true, accs := [] });
      onEffect s fun c => c.w.begun && (match s.spillName c ⟨1, 2, 3, 0, 0, 0⟩ with
        | .name _ _ _ _ _ => true
        | _ => false) && match s.turnAccs c.rg.ctx c.who c.w.accs with
        | .all _ _ => true
        | _ => false) = true := by decide +kernel

/-- Words of engine descriptors of each kind that keep their layout (Tables 15.4 to 15.8), and of a load pattern. -/
def engineWords : Nat → List Nat
  | 0x23 => [0x23, 0x1000, 0x2000, 64, 0x80110000, 0, 0, 0]
  | 0x21 => [0x21, 0x1000, 0x2000, 0x3000, 0, 0, 0, 0]
  | 0x22 => [0x22, 0x1000, 0x2000, 0x3000, 0, 0, 0, 0]
  | k => [k, 0x1000, 0x2000, 64, 0, 0, 0, 0]

theorem witness_StreamEngineRecords :
    (let s := effect (.sgo ⟨0, 0, 0, 0, 1, 0xFF⟩) [];
      onEffect s fun c => s.streamRoom (c.streamTiles ⟨0, 0, 0, 0, 1, 0xFF⟩) (portsOf 0xFF)) = true ∧
    (let s := effectRead (.sbind ⟨0, 4, 0, 0, 1, 7⟩) [0x1000, 8, 64, 0, 0, 0, 0, 0];
      onRead s fun c d => decide ((c.reg 4).toNat % 64 = 0 ∧ c.w.descAt c.w.pc (c.reg 4).toNat = none) && patternOk d && s.streamRoom (c.streamTiles ⟨0, 4, 0, 0, 1, 7⟩) [7]) = true ∧
    (∀ p ∈ ([(0x20, .copy ⟨0, 4, 0, 0, 0, 0⟩), (0x21, .gather ⟨0, 4, 0, 0, 0, 0⟩), (0x22, .scatter ⟨0, 4, 0, 0, 0, 0⟩), (0x23, .cred ⟨0, 4, 0, 0, 0, 0⟩),
        (0x24, .rput ⟨0, 4, 0, 0, 0, 0⟩), (0x25, .rget ⟨0, 4, 0, 0, 0, 0⟩)] : List (Nat × Instr)),
      (let s := effectRead p.2 (engineWords p.1);
        onRead s fun c d => s.engineFits c p.1 d c.rg.latestUnit.isSome && decide (c.rg.engines.length < 16 ∧ c.w.descAt c.w.pc (c.reg 4).toNat = none)) = true) ∧
    (let s := effect (.sbar ⟨0, 0, 0, 0, 0, 0⟩) [];
      onEffect s fun c => (c.rg.tiles.all fun k => (s.tile k).streams.all fun p => !p.2.pendingBefore c.blk.order) && c.rg.engines.all fun e => decide (c.blk.order ≤ e.blockOrder)) =
        true := by decide +kernel

/-- A transaction of this device, opened and with nothing staged. -/
def aTxn : Txn := ⟨1, 0, 5, .opened, [], 0, 0, false, false, false, false, 0, 0⟩
def inTxn (s : State) : State :=
  { s with regions := s.regions.map fun e => (e.1, { e.2 with txn := some 1, tlb := [page0] }), link := { s.link with txns := [aTxn], nextXid := 2 } }

theorem witness_TransactionRecords :
    (let s := effect (.xbegin (rri 0 0)) [(4, 0xFFFFF)];
      onEffect s fun c => decide ((c.reg 4).toNat < 2 ^ 20 ∧ c.rg.txn = none ∧ s.openTxns ((c.reg 4).toNat % 4) < 64 ∧ s.cairn.val (c.reg 4).toNat ≠ BitVec.allOnes 64)) = true ∧
    (let s := inTxn (effect (.xbegin (rri 0 0)) [(4, 5)]);
      onEffect s fun c => decide ((c.reg 4).toNat < 2 ^ 20) && c.rg.txn.isSome) = true ∧
    64 ≤ ({ State.reset with link := { State.reset.link with txns := List.replicate 64 aTxn } }).openTxns (5 % 4) ∧
    (let s := inTxn (effect (.xcommit ⟨0, 0, 0, 0, 0, 0⟩) []);
      onEffect s fun c => decide (c.rg.txn = some 1 ∧ s.txn? 1 = some aTxn ∧ s.canSend (aTxn.targets.map fun g => g.dev) = some true)) = true ∧
    (let s := numbered (inTxn (effectRead (.xput ⟨1, 2, 3, 0, 0, 64⟩) [1, 2, 3, 4, 5, 6, 7, 8]));
      onEffect s fun c => c.w.begun && decide (c.rg.txn = some 1 ∧ s.txn? 1 = some aTxn) && match s.turnAccs c.rg.ctx c.who c.w.accs with
        | .all s2 bs => match s2.lay ⟨.core c.key, c.rg.ctx, .write, 0, true, false, false, 0⟩ (c.reg 3).toNat 64 [] with
          | .ok s3 ps => (ps.all fun a => !s3.storeCow c.rg.ctx a.addr) &&
            (let gs := sectorsOf c.rg.ctx (s3.target c.rg.ctx) (fillPieces ps (laneBytes bs 0) (bytePsn bs)) [];
              !aTxn.limit gs && match State.stageAll 1 gs 0 s3 with
                | .done _ => true
                | _ => false)
          | _ => false
        | _ => false) = true := by decide +kernel

/-- A heap access that the barrier has let pass, in its access; a pin applied; no pair; a buffer with room; a range of heap pages without a home. -/
def heapState (i : Instr) (j : HeapJob) : State := atWork i fun w => { w with checked := true, begun := true, aux := j.nums, accs := [⟨0, 8, 0, false, List.replicate 8 1, false, false, 0, 0, false, true, false, 0, 0⟩] }

theorem witness_HeapRecords :
    (∀ p ∈ ([(.hld ⟨1, 2, 0, 0, 3, 16⟩, .load, 6, 16, 8, []), (.hst ⟨0, 2, 3, 0, 3, 16⟩, .store, 6, 16, 8, leBytes 8 0), (.hpin ⟨1, 2, 0, 0, 0, 0⟩, .pin, 5, 0, 0, []), (.hunpin ⟨0, 2, 0, 0, 0, 0⟩, .unpin, 5, 0, 0, [])] :
        List (Instr × HeapOp × Nat × Nat × Nat × List Byte)),
      (let s := heapState p.1 ⟨0xA000000000000010, 1, p.2.2.1, 0, 0⟩;
        onEffect s fun c => match s.heapTurn (.core c.key) c.rg.ctx c.who p.2.1 p.2.2.2.1 p.2.2.2.2.1 p.2.2.2.2.2 false (HeapJob.ofNums c.w.aux) c.w.accs with
          | .done _ _ hops _ _ psn _ => decide (0 < hops) && !psn
          | _ => false) = true) ∧
    onEffect (effect (.hcmp ⟨1, 2, 3, 0, 0, 0⟩) []) (fun c => decide (readH c.w.h 2 = 0)) = true ∧
    (let s := readyIn (.hnew ⟨1, 4, 0, 0, 0, 0xF0002⟩) fun r => { r with bufs := [(15, ⟨heapBase 15, 0, 65520⟩)], work := r.work.map fun w => { setRegs [(4, 16)] w with checked := true } };
      onEffect s fun c => match s.alloc (.core c.key) c.rg.ctx (c.reg 4).toNat 2 15 with
        | .ok _ _ => true
        | _ => false) = true ∧
    (let s := effect (.reloc ⟨1, 4, 5, 0, 0, 0⟩) [(4, 0x80000000000000), (5, 1)];
      onEffect s fun c => inHeap (c.reg 4).toNat && decide (s.relocHomes c.rg.ctx ((c.reg 4).toNat / 65536 * 65536) (field (c.reg 5) 31 0) = [])) = true ∧
    onEffect (effect (.snap ⟨1, 2, 3, 0, 0, 5⟩) []) (fun _ => true) = true := by decide +kernel

/-- No handler, a trap active, a handler and no trap active. -/
theorem witness_TrapEntrySaves :
    State.reset.region0.trapbase = 0 ∧ ({ State.reset.region0 with trapcause := 0x8000000000000000 } : Region).active = true ∧
    (let r := { State.reset.region0 with trapbase := 0x800 }; r.active = false ∧ r.trapbase ≠ 0) ∧
    (tget (readyIn (.halt ⟨0, 0, 0, 0, 0, 0⟩) fun r => { r with trapbase := 0x800 }).regions 0).isSome = true := by decide +kernel

/-- At a boundary: nothing fetched, or a block fetched. -/
theorem witness_TrapsTaken :
    codeClass cUnmapped = 0 ∧ onSite (ready (.addS rrr)) (fun c => decide (c.w.cancels = [])) = true ∧
    (let r := { State.reset.region0 with queue := [aFault cUnmapped], nextFetch := some 0x800 };
      r.run = .running ∧ r.cancelling = false ∧ r.trapped = false ∧ r.work = none ∧ (oldest r.queue 0).isSome = true ∧ r.fetched = [] ∧ r.nextFetch = some 0x800) ∧
    (let r := { State.reset.region0 with queue := [aFault cUnmapped], fetched := [0], blocks := [(0, oneBlock 0x400440000000000000000000 true)] };
      r.work = none ∧ (oldest r.queue 0).isSome = true ∧ r.fetched = [0] ∧ (tget r.blocks 0).isSome = true) := by decide +kernel

/-- A firing with operands, whose firing, instance and tile are changed. -/
def firing (i : Instr) (l r : List Lane) (g : Firing → Firing) (h : NodeInst → NodeInst) (k : Tile → Tile) : State :=
  let s := fire i l r;
  match (s.tile 0).ready with
  | f :: fs =>
    match (s.tile 0).inst f.pe f.slot with
    | some n => s.putTile 0 (k { (s.tile 0).putInst f.pe f.slot (h n) with ready := g f :: fs })
    | none => s
  | [] => s

/-- Its operands' flags. -/
def leftFlags (fl : Flags) (f : Firing) : Firing := { f with l := f.l.map fun t => { t with flags := fl } }
def last : Flags := { Flags.none with last := true }
def scaled : Flags := { Flags.none with scaled := true }

/-- A translated element of the first 64 KiB, writable, in pair 0. -/
def aTae : List Lane := lanes [0, BitVec.ofNat 32 (2 ^ 31 + 2 ^ 28)]

/-- Its own state as it is. -/
abbrev keep {α : Type} (x : α) : α := x

theorem witness_NodeArithmetic :
    (ready (.addNode (two .i32 0))).site.isSome = true ∧ ((arithmeticExact (two .i32 0)).map fun p => decide p.1.WellFormed) =
      [true, true, true, true, true, true, true, false, false] ∧
    ((arithmeticExact (one .i32 1)).map fun p => decide p.1.WellFormed).drop 7 = [true, true] := by decide +kernel

theorem witness_NodeBitValues :
    (ready (.andNode (two .n32 0))).site.isSome = true ∧ ((bitValues (two .i32 0)).map fun p => decide p.1.WellFormed) =
      [true, true, true, true, false, true, true, true, true, false, false, false, true, false, true] ∧
    ((bitValues (one .i32 0)).map fun p => decide p.1.WellFormed).drop 9 = [true, true, true, true, false, true] ∧
    ((bitValues (one .i32 0)).map fun p => decide p.1.WellFormed)[4]? = some true ∧ ((bitValues (two .i64 0)).map fun p => decide p.1.WellFormed)[13]? = some true := by
  decide +kernel

theorem witness_NodeLanes : (ready (.sad (two .i8 0))).site.isSome = true ∧ Rules.fmtWidth .i8 < 64 ∧ (one .n8 0).mod.getLsbD 0 = false ∧ (one .n8 1).mod.getLsbD 0 = true := by
  decide +kernel

/-- Some valid values, none; integers, floating values. -/
theorem witness_NodeReductions :
    (Instr.red (one .i32 0)).WellFormed ∧ (Instr.scan (one .i32 0)).WellFormed ∧ (Instr.pack (two .i8 1)).WellFormed ∧ (Instr.unpack (one .i8 1)).WellFormed ∧
    (Instr.red (one .f32 0)).WellFormed ∧ (Instr.scan (one .f32 0)).WellFormed ∧
    onFire (fire (.red (one .i32 0)) (all16 3) []) (fun x => valOk .i32 (x.opA (one .i32 0) .i32) 15) = true ∧
    onFire (fire (.red (one .i32 0)) noLanes []) (fun x => (List.range 16).all fun j => !valOk .i32 (x.opA (one .i32 0) .i32) j) = true := by decide +kernel

/-- FAN's copies and halves, MERGE with a left token and with a right token alone, the modes of TAG with a valid and an invalid word, EXPAND of a token that
is MIXED, TAP without LAST and with it, COMPACT with a token, with LAST and with a control token. -/
theorem witness_TokenControl :
    onFire (ready (.fan (one .i32 0))) (fun x => (x.left (one .i32 0)).isSome) = true ∧
    onFire (firing (.merge (two .i32 0)) (all16 1) (all16 2) (leftFlags last) keep keep) (fun x => x.f.l.isSome) = true ∧
    onFire (firing (.merge (two .i32 0)) (all16 1) (all16 2) (fun f => { f with l := none }) keep keep) (fun x => x.f.l.isNone && x.f.r.isSome) = true ∧
    onFire (firing (.merge (two .i32 1)) (all16 1) [] (fun f => { f with r := none }) keep keep) (fun x => x.f.l.isSome && x.f.r.isNone && (two .i32 1).mod.getLsbD 0) = true ∧
    onFire (firing (.merge (two .i32 0)) [] [] (fun f => { f with l := none, r := none }) keep keep) (fun x => x.f.l.isNone && x.f.r.isNone) = true ∧
    onFire (ready (.delay { one .i32 0 with lit := 5 })) (fun x => x.f.l.isSome && (x.left { one .i32 0 with lit := 5 }).isSome) = true ∧
    onFire (firing (.delay { one .i32 0 with lit := 5 }) (all16 1) [] (fun f => { f with l := none }) keep keep) (fun x => x.f.l.isNone) = true ∧
    (one .i32 0).mod.getLsbD 0 = false ∧ (one .i32 1).mod.getLsbD 0 = true ∧
    onFire (ready (.expand { one .i32 0 with lsrc := .zero })) (fun x => (x.left { one .i32 0 with lsrc := .zero }).isNone) = true ∧
    onFire (ready (.expand (one .i32 0))) (fun x => (x.left (one .i32 0)).any fun t => !t.flags.mixed) = true ∧
    field (one .i32 1).mod 1 0 = 1 ∧ field (one .i32 2).mod 1 0 = 2 ∧ field (one .i32 3).mod 1 0 = 3 ∧
    onFire (fire (.tag (two .i32 2)) (all16 1) (all16 7)) (fun x => (laneAt (x.opB (two .i32 2) .i32) 0).valid) = true ∧
    onFire (fire (.tag (two .i32 2)) (all16 1) noLanes) (fun x => !(laneAt (x.opB (two .i32 2) .i32) 0).valid) = true ∧
    onFire (firing (.expand (one .i32 0)) (all16 1) [] (leftFlags { Flags.none with mixed := true }) keep keep) (fun x => (x.left (one .i32 0)).any fun t => t.flags.mixed) = true ∧
    onFire (ready (.tap (one .i32 0))) (fun x => (x.left (one .i32 0)).any fun t => !t.flags.last) = true ∧
    onFire (firing (.tap { one .i32 0 with lit := 5 }) (all16 1) [] (leftFlags last) keep keep) (fun x => (x.left (one .i32 0)).any fun t => t.flags.last) = true ∧
    (State.reset.cairn.val 5).toNat + 1 < 2 ^ 64 ∧ 2 ^ 64 ≤ ((State.reset.cairn.add 5 (BitVec.allOnes 64)).val 5).toNat + 1 ∧
    (let s := numbered (fire (.pref (two .i64 0)) aTae (all16 0));
      onFire s fun x => match baseCheck (x.opA (two .i64 0) .i64) false with
        | .at pa => s.isLocal pa && decide (localOf pa < Config.memBytes)
        | _ => false) = true ∧
    onFire (fire (.pref (two .i64 0)) aTae (all16 0)) (fun x => match baseCheck (x.opA (two .i64 0) .i64) false with
      | .at pa => !State.reset.isLocal pa
      | _ => false) = true ∧
    onFire (fire (.pref (two .i64 0)) noLanes (all16 0)) (fun x => match baseCheck (x.opA (two .i64 0) .i64) false with
      | .at _ => false
      | _ => true) = true ∧
    (let c : CompactSt := ⟨[([Lane.on 1], 0)], 0, true, []⟩;
      c.units ≠ [] ∧ (∀ u ∈ c.units, u.1.length = if isPair .i32 then 2 else 1) ∧ (⟨[], 0, true, []⟩ : CompactSt).units = []) ∧
    onFire (firing (.compact (one .i32 0)) (all16 1) [] (leftFlags last) keep keep) (fun x => x.inst.lanes.isEmpty && x.f.l.any fun t => t.flags.last) = true ∧
    onFire (firing (.compact (one .i32 0)) (all16 1) [] (fun f => { f with l := none }) (fun n => { n with lanes := [Lane.on 4] }) keep)
      (fun x => x.f.l.isNone && x.inst.lanes.all fun l => l.valid) = true := by decide +kernel

/-- Without RS, and with RS on a token that is not SCALED. -/
theorem witness_NodeFloatValues :
    ((floatValues (two .f32 0) 0).map fun p => decide p.1.WellFormed) = [true, true, true, true, true, true, false, false, false] ∧
    ((floatValues (one .f32 0) 0).map fun p => decide p.1.WellFormed).drop 6 = [true, true, true] ∧
    onFire (ready (.fadd (two .f32 0))) (fun x => !x.unscaled (two .f32 0) false) = true ∧
    onFire (ready (.fadd (two .f32 0x80))) (fun x => x.unscaled (two .f32 0x80) false) = true ∧ (Instr.fadd (two .f32 0x80)).WellFormed ∧
    onFire (ready (.ffma (two .f32 1))) (fun x => !x.unscaled (two .f32 1) true) = true ∧
    onFire (ready (.fsgn (two .f32 0))) (fun x => !x.unscaled (two .f32 0) false) = true := by decide +kernel

theorem witness_NodeConversions :
    onFire (ready (.cvt (one .f16 8))) (fun x => !x.unscaled (one .f16 8) false) = true ∧ (Instr.cvt (one .f16 8)).WellFormed ∧ (Instr.cvt (one .f32 9)).WellFormed ∧
    (Instr.ftoi (one .i32 8)).WellFormed ∧ (Instr.itof (one .f32 2)).WellFormed ∧ (Instr.scaleNode (two .f32 2)).WellFormed ∧
    onFire (ready (.scacc (two .f32 0x12))) (fun x => (x.left (two .f32 0x12)).any fun t => !t.flags.scaled) = true ∧
    onFire (firing (.scacc (two .f32 0x12)) (all16 1) (all16 0x3F800000) (leftFlags scaled) keep keep) (fun x => (x.left (two .f32 0x12)).any fun t => t.flags.scaled) = true := by
  decide +kernel

/-- QMAX and QCVT within a block and at its end; QCVT with its scale held, and full after one token. -/
theorem witness_NodeQuantisation :
    (let n := { one .e4m3 8 with lit := 2 };
      onFire (ready (.qmax n)) (fun x => x.f.l.any (fun t => !t.flags.last) && !x.unscaled n false && decide (x.inst.word.toNat + 1 ≠ field n.lit 8 0)) = true) ∧
    (let n := { one .e4m3 8 with lit := 1 };
      onFire (ready (.qmax n)) (fun x => x.f.l.isSome && !x.unscaled n false && decide (x.inst.word.toNat + 1 = field n.lit 8 0)) = true) ∧
    (let n := { two .e4m3 8 with lit := 9 };
      onFire (firing (.qcvt n) (all16 0) [] keep (fun i => { i with buf2 := [zeroTok .right] }) keep) (fun x => x.f.l.any (fun t => !t.flags.last) && x.inst.buf2.head?.isSome &&
        decide (x.inst.word.toNat + 1 ≠ field n.lit 8 0 ∧ x.inst.buf.length + 1 ≠ valNum .e4m3 / valNum .f32)) = true ∧
      onFire (firing (.qcvt n) (all16 0) [] keep (fun i => { i with buf := List.replicate 3 (zeroTok .left), buf2 := [zeroTok .right], word := 3 }) keep) (fun x =>
        x.f.l.isSome && x.inst.buf2.head?.isSome && decide (x.inst.buf.length + 1 = valNum .e4m3 / valNum .f32)) = true ∧
      onFire (firing (.qcvt n) (all16 0) [] keep keep keep) (fun x => x.inst.buf2.isEmpty) = true ∧ n.mod.getLsbD 7 = false) ∧
    (let n := { one .e4m3 0x88 with lit := 2 };
      onFire (ready (.qmax n)) (fun x => x.unscaled n false) = true ∧ (Instr.qmax n).WellFormed) ∧
    (let n := { two .e4m3 0x88 with lit := 9 };
      onFire (firing (.qcvt n) (all16 0) [] keep (fun i => { i with buf2 := [zeroTok .right] }) keep) (fun x => x.f.l.any (fun t => !t.flags.scaled) && x.inst.buf2.head?.isSome) = true ∧
        n.mod.getLsbD 7 = true) ∧
    (Lane.on 0).valid = true ∧ [zeroTok .left].length * valNum .f32 ≤ valNum .e4m3 ∧ (fvOf .f32 0x3F800000).finite = true ∧
    (Instr.dqt (two .f32 11)).WellFormed ∧ (Instr.qmax { one .e4m3 8 with lit := 2 }).WellFormed ∧ (Instr.qcvt { two .e4m3 8 with lit := 9 }).WellFormed ∧
    onFire (ready (.rng (two .n32 0))) (fun x => (laneAt (x.opA (two .n32 0) .n32) 0).valid && (laneAt (x.opB (two .n32 0) .n32) 1).valid) = true := by decide +kernel

/-- The MPE with a stationary operand loaded; a node with both targets. -/
def loaded (b : MpeB) (t : Tile) : Tile := { t with mpeB := some b }
def both (f : Fmt) (m : BitVec 8) : NodeRec := { two f m with t1 := .node .left 6 }

/-- B loaded in the node's format and in another; a group inside K and past it; a row; MLDB with its panel read. -/
theorem witness_NodeMatrix :
    (∀ p ∈ ([(.mrow (both .bf16 1), 10), (.mrec (both .bf16 0), 10), (.mout (one .bf16 1), 10)] : List (Instr × Nat)), p.1.WellFormed ∧
      onFire (firing p.1 (all16 0x3F803F80) (all16 0) keep keep (loaded ⟨10, List.replicate 32 (all16 1)⟩)) (fun x => decide (x.f.pe = 17) && x.f.r.isSome) = true) ∧
    (let b : MpeB := ⟨13, List.replicate 36 (all16 1)⟩;
      (Instr.mqrow (both .a8 1)).WellFormed ∧ bK .a8 / max 1 b.groups * 1 < bK .a8 ∧ bK .a8 ≤ 2 * (bK .a8 / max 1 b.groups) ∧
      onFire (firing (.mqrow (both .a8 1)) (all16 1) (all16 0x00003C00) keep keep (loaded b)) (fun x => x.f.l.isSome) = true) ∧
    onFire (firing (.mrow (both .bf16 0)) (all16 1) [] keep keep (loaded ⟨9, []⟩)) (fun _ => true) = true ∧ (9 : Nat) ≠ Rules.fmtCode .bf16 ∧
    onFire (firing (.mldb { one .bf16 0 with lsrc := .token }) (all16 1) [] (fun f => { f with begun := true, aux := [0, 32, 0, 5] }) keep keep)
      (fun x => x.f.begun && decide (x.f.aux = [0, 32, 0, 5])) = true := by decide +kernel

/-- An accumulator lost and not; no factor, a factor; a stream's first token and its fifth, with finite coefficients and with an infinity. -/
theorem witness_NodePolynomial :
    (let n := one .f32 0;
      onFire (firing (.ppmul n) (all16 1) [] keep keep fun t => t.putPe 0 { t.pe 0 with acc := { (t.pe 0).acc with lost := true } })
        (fun x => x.f.l.isSome) = true ∧
      onFire (fire (.ppmul n) (all16 0x3F800000) []) (fun x => decide ((factorsOf 0 (x.opA n .f32)).length = 16) && (factorsOf 0 (x.opA n .f32)).all fun p => !p.2.2.1) = true ∧
      onFire (fire (.ppdiv n) noLanes []) (fun x => (factorsOf 0 (x.opA n .f32)).isEmpty) = true ∧
      onFire (fire (.ppset (one .f32 1)) (all16 0) []) (fun x => x.f.l.isSome && decide (x.inst.buf.length < 4)) = true ∧
      onFire (firing (.ppcmb n) (lanes [0, 1, 0, 1]) [] keep (fun i => { i with buf := List.replicate 4 (zeroTok .left) }) keep)
        (fun x => x.f.l.any fun t => (poisonedElem (x.inst.buf ++ [t])).isNone && !strmBad (x.inst.buf ++ [t])) = true ∧
      onFire (firing (.ppcmb n) (lanes [0, 1, 0, 1]) [] keep (fun i => { i with buf := List.replicate 4 { zeroTok .left with lanes := all16 0x7F800000 } }) keep)
        (fun x => x.f.l.any fun t => (poisonedElem (x.inst.buf ++ [t])).isNone && strmBad (x.inst.buf ++ [t])) = true) ∧
    ((State.reset.tile 0).pe 0).acc.lost = false := by decide +kernel

/-- The accesses of a firing all done. -/
def allDone (f : Firing) : Firing := { f with begun := true, accs := [⟨0, 4, 0, false, List.replicate 4 1, false, false, 0, 0, false, true, false, 0, 0⟩] }

theorem witness_NodeMemory :
    (∀ i ∈ ([.ld { one .i32 0 with lit := 0xFFFF }, .ldg (two .i32 0), .st { two .i32 0 with lit := 0xFFFF }, .stx (two .i32 0)] : List Instr), i.WellFormed ∧
      (let s := firing i aTae (lanes [1, 2, 3]) allDone keep keep;
        onFire s fun x => x.f.begun && match s.turnAccs x.rg.ctx x.who x.f.accs with
          | .all _ _ => true
          | _ => false) = true) ∧
    (let n := { two .i32 0 with lit := 0xFFFF };
      let s := fire (.st n) aTae (lanes [1, 2, 3]);
      onFire s fun x => !x.f.begun && s.roomOut x && decide (rowAddr .i32 (x.opA n .i64) false = .at 0) && decide (rowAddr .i32 (x.opA n .i64) true = .at 0) &&
        decide (((rowUnits .i32).filter fun e => n.lit.getLsbD e && unitValid .i32 (x.opB n .i32) e && x.sel n e) ≠ [])) = true ∧
    (let n := two .i32 0;
      let s := firing (.stx n) aTae (lanes [1, 2, 3]) (fun f => { f with c := some { zeroTok .ctl with lanes := all16 7 } }) keep keep;
      onFire s fun x => !x.f.begun && s.roomOut x && decide (baseCheck (x.opA n .i64) false = .at 0) && decide (baseCheck (x.opA n .i64) true = .at 0) &&
        decide (idxFaults .i32 (basePage (x.opA n .i64)) 0 (x.opB n .i32) (rowUnits .i32) = none) && unitValid .i32 x.opC 0 &&
        ((rowUnits .i32).all fun e => (laneAt (x.opB n .i32) e).valid && x.sel n e && !(laneAt (x.opB n .i32) e).poison)) = true ∧
    (let n := one .i64 0;
      let s0 := fire (.xlat n) (lanes [8, 0]) [];
      let s := s0.putTile 0 { s0.tile 0 with tlb := [page0] };
      onFire s fun x => ((s.xlatPairs (.tile 0) x.rg.ctx .read [(0, 8)] []).1).all fun r => match r.2 with
        | .ok _ _ => true
        | _ => false) = true := by decide +kernel

/-- A declared statement of one row; its panel ready to read, or being filled by the node. -/
def panelSlot (st : SlotState) (t : Tile) : Tile :=
  { t with stmts := [(0, aStmt)], slots := [(0, ⟨0, 0, st, true, 1, 0, 0, 0, 0, 1⟩)] }

theorem witness_NodePanels :
    onFire (firing (.getNode (one .f32 0)) (all16 1) [] (fun f => { f with begun := true, aux := [0, 1, 0] }) keep keep)
      (fun x => x.f.begun && decide (x.f.aux.take 3 = [0, 1, 0] ∧ 1 = x.f.row + 1)) = true ∧
    onFire (firing (.getNode { one .f32 0 with pmode := .ifTrue }) (all16 1) [] keep keep keep) (fun x => !x.f.begun && !x.selected { one .f32 0 with pmode := .ifTrue }) = true ∧
    (let s := firing (.rls (one .f32 0)) (all16 1) [] keep keep (panelSlot .ready);
      onFire s fun x => !x.f.begun && x.selected (one .f32 0) && match s.panelRead x (one .f32 0) (fmtShape (one .f32 0)) with
        | .issued _ _ _ => true
        | _ => false) = true ∧
    (let put := fun (fl : Flags) (k : Nat) => firing (.putNode (one .f32 0)) (all16 1) [] (leftFlags fl) (fun i => { i with name := some (0, 0) })
        fun t => { panelSlot .filling t with slots := [(0, ⟨0, 0, .filling, true, 0, 0, 0, k, 0, 1⟩)] };
      let holds := fun (s : State) (g : Bool → Slot → Bool) => onFire s fun x => decide (tget (s.tile 0).stmts (one .f32 0).mod.toNat = some aStmt ∧ x.inst.name = some (0, 0)) &&
        (let e := (s.tile 0).slot 0; e.held && decide (e.stmt = 0 ∧ e.vec = 0 ∧ e.st = .filling ∧ e.wnode = x.f.node) && x.f.l.any fun t => g t.flags.last e);
      holds (put Flags.none 0) (fun l e => !l && decide (e.rcnt < aStmt.rows)) = true ∧
      holds (put last 0) (fun l e => l && decide (e.rcnt + 1 = aStmt.rows)) = true ∧
      holds (put last 1) (fun l e => l && decide (e.rcnt + 1 ≠ aStmt.rows)) = true ∧ holds (put Flags.none 1) (fun l e => !l && decide (aStmt.rows ≤ e.rcnt)) = true) ∧
    (let s := ready (.putNode (one .f32 0));
      onFire s fun x => (tget (s.tile 0).stmts 0).isNone && decide (x.inst.name = none) && x.f.l.isSome) = true ∧
    (let s := ready (.getNode (one .f32 0));
      onFire s fun x => (tget (s.tile 0).stmts 0).isNone && !x.f.begun && x.selected (one .f32 0)) = true := by decide +kernel

/-- All pairs done; a pair at hand in its access; HNEW with no pair and with one, in an open buffer. -/
theorem witness_NodeHeapAccesses :
    (∀ i ∈ ([.hldNode (one .i64 0), .hstNode (two .i64 0), .hpinNode (one .ref 0), .hunpinNode (one .ref 0), .hcmpNode (two .ref 0)] : List Instr), i.WellFormed ∧
      (let s := firing i (all16 1) (all16 2) (fun f => { f with begun := true, aux := (HeapFire.start.close 0).nums.set 0 255 }) keep keep;
        onFire s fun x => x.f.begun && decide (8 ≤ (HeapFire.ofNums x.f.aux).cur) && ((x.refPairs (one .i64 0) (x.opA (one .i64 0) .ref)).filter fun k => !(HeapFire.ofNums x.f.aux).done.testBit k).isEmpty) =
        true) ∧
    (let n := { one .i64 0 with lit := 16 };
      let g : HeapFire := { HeapFire.start with cur := 0, job := ⟨0xA000000000000010, 1, 6, 0, 0⟩ };
      let s := firing (.hldNode n) (all16 1) [] (fun f => { f with begun := true, aux := g.nums, accs := [⟨0, 8, 0, false, List.replicate 8 1, false, false, 0, 0, false, true, false, 0, 0⟩] }) keep keep;
      onFire s fun x => decide ((HeapFire.ofNums x.f.aux).cur < 8) && !(HeapFire.ofNums x.f.aux).right &&
        match s.heapTurn (.tile x.tile) x.rg.ctx x.who .load (field n.lit 15 0) (elemSize n.fmt) (List.take (elemSize n.fmt) (leBytes 8 0)) false (HeapFire.ofNums x.f.aux).job
          (x.f.accs.filter fun c => !(c.done && c.err && decide (c.len = 0))) with
        | .done _ _ _ _ _ _ _ => true
        | _ => false) = true ∧
    (let n := { one .ref 0 with lit := 0xF0002 };
      (Instr.hnewNode n).WellFormed ∧ onFire (fire (.hnewNode n) noLanes []) (fun x => ((x.refPairs n (x.opA n .ref)).filter fun i => decide (x.f.row ≤ i)).isEmpty) = true ∧
      (let s := firing (.hnewNode n) (lanes [16, 0] |>.take 2) [] keep keep fun t => { t with bufs := [(15, ⟨heapBase 15, 0, 65520⟩)] };
        onFire s fun x => decide ((x.refPairs n (x.opA n .ref)).filter (fun i => decide (x.f.row ≤ i)) = [0]) &&
          match s.alloc (.tile x.tile) x.rg.ctx (laneAt (x.opA n .ref) 0).val.toNat (field n.lit 15 0) (field n.lit 19 16) with
          | .ok _ _ => true
          | _ => false) = true) := by decide +kernel

/-- CADD and CWAIT with their literal and with both operands: not here, poisoned, no such cairn, an add below the limit and past it, a threshold reached
and not. -/
theorem witness_NodeSync_cairns :
    (let n := { one .n64 0 with lsrc := .zero, lit := 0x00100005 };
      (Instr.caddNode n).WellFormed ∧ onFire (ready (.caddNode n)) (fun x => !x.f.begun) = true ∧ n.mod.getLsbD 0 = false ∧ n.mod.getLsbD 1 = false ∧
      field n.lit 19 0 = 5 ∧ field n.lit 31 20 = 1 ∧
      (State.reset.cairn.val 5).toNat + 1 < 2 ^ 64 ∧ 2 ^ 64 ≤ ((State.reset.cairn.add 5 (BitVec.allOnes 64)).val 5).toNat + 1 ∧
      (State.reset.cairn.val 5).toNat < 1 ∧ 1 ≤ ((State.reset.cairn.add 5 1).val 5).toNat) ∧
    (let n := two .n64 3;
      let psn := (all16 5).map fun l => { l with poison := true };
      (Instr.caddNode n).WellFormed ∧ (Instr.cwaitNode n).WellFormed ∧ n.mod.getLsbD 0 = true ∧ n.mod.getLsbD 1 = true ∧
      onFire (fire (.caddNode n) (lanes [1, 0]) (lanes [5, 0])) (fun x => !x.f.begun && pairValid (x.opA n .n64) 0 && pairValid (x.opB n .n64) 0 &&
        decide (pairVal (x.opB n .n64) 0 = 5) && !(laneAt (x.opA n .n64) 0).poison) = true ∧
      onFire (fire (.caddNode n) noLanes (lanes [5, 0])) (fun x => !pairValid (x.opA n .n64) 0) = true ∧
      onFire (fire (.caddNode n) psn (lanes [5, 0])) (fun x => pairValid (x.opA n .n64) 0 && (laneAt (x.opA n .n64) 0).poison) = true ∧
      onFire (fire (.caddNode n) (lanes [1, 0]) (lanes [0x100000, 0])) (fun x => decide (2 ^ 20 ≤ pairVal (x.opB n .n64) 0)) = true) ∧
    onFire (firing (.cwaitNode (two .n64 3)) (all16 1) (all16 1) (fun f => { f with begun := true }) keep keep) (fun x => x.f.begun) = true := by decide +kernel

/-- BIN with a contender and a belay, with one of them alone, with a contender that is no token; a vote's first, second and third token and none. -/
theorem witness_NodeSync_belays :
    (let n := both .i32 0;
      let permit := fun (f : Firing) => { f with r := f.r.map fun t => { t with flags := { Flags.none with permit := true } } };
      onFire (firing (.bin n) (all16 1) noLanes permit keep keep)
        (fun x => decide (n.lsrc = .token) && x.inst.buf.isEmpty && x.f.l.isSome && x.f.r.any fun t => t.flags.permit) = true ∧
      onFire (firing (.bin n) (all16 1) noLanes (fun f => { f with r := none }) keep keep) (fun x => x.f.l.isSome && x.f.r.isNone && x.inst.buf2.isEmpty) = true ∧
      onFire (firing (.bin n) (all16 1) noLanes (fun f => permit { f with l := none }) keep keep) (fun x => x.f.l.isNone && x.inst.buf.isEmpty) = true ∧
      ({ n with lsrc := .zero } : NodeRec).lsrc ≠ .token) ∧
    (let n := one .i32 0;
      let t := fun (v : Elem) => { zeroTok .left with lanes := all16 v };
      let s := fun (vs : List Elem) => firing (.vote n) (all16 1) [] keep (fun i => { i with buf := vs.map t }) keep;
      let before := fun (vs : List Elem) => onFire (s vs) fun x => x.f.l.any fun u => decide (u = t 1 ∧ x.inst.buf.filter (fun v => decide (v.itag = u.itag)) = vs.map t);
      before [] = true ∧ before [1] = true ∧ before [2] = true ∧ before [1, 1] = true ∧ before [1, 2] = true ∧ before [2, 1] = true ∧ before [2, 2] = true ∧ before [2, 3] = true ∧
      agree (t 1) (t 1) = true ∧ agree (t 1) (t 2) = false ∧ agree (t 2) (t 3) = false ∧ agree (t 3) (t 1) = false ∧
      onFire (firing (.vote n) (all16 1) [] (fun f => { f with l := none }) keep keep) (fun x => x.f.l.isNone) = true) := by decide +kernel

/-- TRAP selected and not; EFENCE without and with an error; TRACE with counters kept, without a ring, with room in its ring and with a full one. -/
theorem witness_NodeSync :
    (let n := { one .i32 0 with t0 := .unwired, lit := 5 };
      onFire (ready (.trapNode n)) (fun x => x.selected n) = true ∧ (Instr.trapNode n).WellFormed ∧
      onFire (ready (.trapNode { n with pmode := .ifTrue })) (fun x => !x.selected { n with pmode := .ifTrue }) = true) ∧
    (let n := one .i32 0;
      let e := lanes [1, 0, 0x1000, 0];
      onFire (ready (.efenceNode n)) (fun x => ((x.dataToks n true).filterMap complErr).isEmpty) = true ∧
      onFire (firing (.efenceNode n) e [] (leftFlags { Flags.none with compl := true }) keep keep) (fun x => decide ((x.dataToks n true).filterMap complErr = [0x1000])) = true) ∧
    (let n := { two .i32 0 with rsrc := .held, lit := 5 };
      onFire (firing (.trace n) (all16 1) [] keep (fun i => { i with loffs := [0, 0, 0] }) keep) (fun x => (x.ring n).isNone && decide (x.inst.loffs = [0, 0, 0])) = true ∧
      (let tae := some { zeroTok .right with lanes := aTae };
        let held := fun (w : Nat) (i : NodeInst) => { i with loffs := [w, 0, 0] };
        let s := fun (w : Nat) => numbered (firing (.trace n) (all16 1) [] (fun f => { f with r := tae }) (held w) keep);
        (Instr.trace n).WellFormed ∧
        onFire (s 0) (fun x => decide (x.ring n = some 0 ∧ 0 - 0 < 2 ^ field n.lit 3 0) && (((s 0).traceStore x.rg.ctx (64 + 32 * 0) (x.traceRec (x.fwd n))).bind fun s2 =>
          s2.traceStore x.rg.ctx 0 (leBytes 8 1)).isSome) = true ∧
        onFire (s 32) (fun x => decide (x.ring n = some 0 ∧ ¬ 32 - 0 < 2 ^ field n.lit 3 0) && match (s 32).traceRcnt x.rg.ctx 0 with
          | (r', s1) => decide (r' = 0) && (s1.traceStore x.rg.ctx 16 (leBytes 8 1)).isSome) = true)) := by decide +kernel

theorem witness_FiringFrame :
    onFire (ready (.addNode (two .i32 0))) (fun x => (x.blk.image.declList.all fun d => match d with
      | .tap .. => false
      | _ => true) && (match nodeRecOf x.inst.bits with
      | some (_, c, _) => decide (c.op / 64 ≠ 10)
      | none => true) && decide (x.inst.bslot = x.f.bslot ∧ tget (ready (.addNode (two .i32 0))).regions x.key = some x.rg)) = true := by decide +kernel

/-- An arc of a node to itself. -/
theorem witness_TokenTravels :
    onFire (ready (.addNode { two .i32 0 with t0 := .node .left 0 })) (fun x => (x.blk.image.tmrOf 0).isNone && decide (homeTile (instTiles x.rg x.blk 0) 0 0 = 0) &&
      (((ready (.addNode { two .i32 0 with t0 := .node .left 0 })).tile 0).findNode 0 0 0 0).isSome) = true := by decide +kernel

theorem witness_NodeFaultStops :
    codeClass cUntranslated = 0 ∧ codeClass cWalkMiss = 1 ∧
    onFire (ready (.addNode (two .i32 0))) (fun x => decide (tget (ready (.addNode (two .i32 0))).regions x.key = some x.rg) && (x.blk.image.tmrOf x.f.node).isNone &&
      (((ready (.addNode (two .i32 0))).tile x.tile).inst x.f.pe x.f.slot).isSome) = true := by decide +kernel

/-! ### Events -/

/-- The machine with number 5, its registers changed; with a region, its region changed. -/
def device (g : Dev → Dev) : State := { State.reset with dev := g { State.reset.dev with devSet := true, devNum := 5 } }
def withRegion (g : Region → Region) : State := { device id with regions := [(0, g (device id).region0)] }

theorem witness_PackageEvents :
    (let s := device fun d => { d with hotTime := [(3, 10)], frzstat := 0x80000000 }; s.dev.hot = true ∧ bitAt s.dev.frzstat 31 = true) ∧
    (let s := device fun d => { d with hotTime := [(3, 10)] }; s.dev.hot = true ∧ bitAt s.dev.frzstat 31 = false ∧ s.dev.freezePending = none ∧ s.dev.resetSeq = none) ∧
    (let s : State := { device (fun d => { d with freezePending := some (3, 0) }) with now := 5 };
      s.dev.freezePending = some (3, 0) ∧ s.dev.resetSeq = none ∧ 0 + 5 = s.now ∧ 0 + 6 ≠ s.now) ∧
    (device id).dev.resetSeq = none ∧ (device id).dev.railsOff = false ∧ (device fun d => { d with railsOff := true }).dev.railsOff = true ∧
    (∀ n ∈ [1, 2, 3, 4, 5, 6], (device fun d => { d with resetSeq := some n, warm := true }).dev.resetSeq = some n ∧
      (Instr.warmReset, (device fun d => { d with resetSeq := some n, warm := true }).dev.warm) ∈ [(Instr.coldReset, false), (Instr.warmReset, true)] ∧
      (Instr.coldReset, (device fun d => { d with resetSeq := some n }).dev.warm) ∈ [(Instr.coldReset, false), (Instr.warmReset, true)]) := by decide +kernel

/-- A write of a register; a value of MGMTCMD. -/
def written (off width : Nat) (v : Word) : State := device fun d => { d with regIn := [⟨off, width, v, true⟩] }

theorem witness_ManagementEvents :
    (device fun d => { d with mgmtIn := [0x0352000000000000] }).dev.mgmtIn = [0x0352000000000000] ∧ bitAt (0x80000000 : BitVec 32) 31 = true ∧ bitAt (0 : BitVec 32) 31 = false ∧
    (let s := withRegion fun r => { r with run := .brk };
      (tget s.regions (coreKey (field (0x0300000000000000 : Word) 55 52) (field (0x0300000000000000 : Word) 51 49))).map (fun r => r.run) = some .brk ∧ bitAt s.dev.frzstat 31 = false) ∧
    (∀ warm, let s := device fun d => { d with resetSeq := some 2, warm := warm }; s.dev.railsOff = false ∧ s.dev.resetSeq = some 2 ∧ s.dev.warm = warm) ∧
    (let s := device fun d => { d with frzstat := 0x80000000, regIn := [⟨0xC, 4, 1, true⟩, ⟨0x88, 4, 1, false⟩] };
      s.dev.regIn.findIdx? s.regServed = some 1 ∧ s.dev.regIn[1]? = some ⟨0x88, 4, 1, false⟩) ∧
    (tget (withRegion id).regions 0).map (fun r => r.run) = some .running ∧
    ¬ (regWidth 0x88 = 8 ∧ (8 : Nat) ≠ 0) ∧ (∀ p ∈ [(0x88, 4), (0xC, 4), (0x98, 8), (0x2008, 8), (0x2808, 8)], regWidth p.1 = p.2 ∧ p.2 ≠ 0) ∧ 
    (∀ p ∈ [(0x88, 4), (0xC, 4), (0x98, 8), (0x2008, 8), (0x2808, 8), (0x88, 8)], let s := written p.1 p.2 1;
      s.dev.regIn.findIdx? s.regServed = some 0 ∧ s.dev.regIn[0]? = some ⟨p.1, p.2, 1, true⟩) ∧
    bitAt (0 : Word) 63 = false ∧ field (0x8000000000000005 : Word) 53 50 ≤ 10 := by decide +kernel

/-- A destination with one route: its port needs no hash. -/
theorem routePort_one (s : State) (dev a p : Nat) (h : tgetD s.link.routes (homeDie (localOf a) * 4096 + dev) [] = [p]) :
    s.routePort dev a = some (homeDie (localOf a) * 9 + p) := by
  simp [State.routePort, State.routeList, h, routeOf, Nat.mod_one]

/-- A request outstanding at device 3, its port 1; its state here. -/
def aReq (typ tag : Nat) : Req := ⟨tag, typ, 3, 1, 0, 3 * 2 ^ 40, 0xFF, 0, [], .scc, none, true⟩
def upPort : PortSt := { State.reset.link.port 0 with up := true }
def withLink (f : Link → Link) (s : State) : State := { s with link := f (s.link.putPort 0 upPort) }

theorem witness_LinkEvents :
    (∀ e ∈ (device id).regions, e.2.engines = []) ∧ (device id).link.reqs = [] ∧ (device id).link.txns = [] ∧
    (let s := withLink (fun l => { l with avoid := [1] }) (device id); s.link.avoid.contains 1 = true ∧ (s.link.reqs.any (s.holdsPort 0 3 1)) = false) ∧
    (∀ typ ∈ [1, 2, 6], ({ aReq typ 9 with lost := some 2 } : Req).typ = typ) ∧ (aReq 1 9).port = 0 * 9 + 1 ∧ ({ aReq 1 9 with lost := some 2 } : Req).lost = some (0 * 9 + 2) ∧
    ((withLink id (device id)).link.port 0).up = true ∧
    (let s : State := { device id with now := 153600, link := State.reset.link.putPort 0 { upPort with classes := [⟨3, 7, 7, 0⟩] } };
      ((s.link.port 0).classes.any fun c => decide (c.sdev = 3 ∧ c.ctx = 7 ∧ c.last + 153600 ≤ s.now)) = true ∧ s.classBusy 0 3 7 = false) ∧
    (let s := { device id with link := { State.reset.link.putPort 0 upPort with reqs := [aReq 6 9], topoDone := true, routes := [(3, [0])] } };
      (s.link.reqs.find? fun q => decide (q.tag = 9 ∧ q.typ ≠ 5 ∧ q.typ ≠ 15) && q.retry) = some (aReq 6 9) ∧ s.link.topoDone = true ∧
        tgetD s.link.routes (homeDie (localOf (3 * 2 ^ 40)) * 4096 + 3) [] = [0] ∧ s.link.avoid.contains 0 = false ∧ (s.link.port 0).up = true) ∧
    (∀ mv ∈ [0, 3], let s := { device id with mem := State.reset.mem.putFrame 65536 { State.reset.mem.frame 65536 with moves := mv } };
      (let f := s.mem.frame 65536; 65536 < Config.memBytes ∧ s.dev.devSet = true ∧ 3 ≠ s.dev.devNum ∧ 3 < 0xFFF ∧ f.fwd = none ∧ s.frameStaged 65536 = false ∧ s.openBuffer 65536 = false ∧
        f.frozen = false ∧ f.moves = mv)) ∧
    (device id).host.ctxs = [] := by decide +kernel

/-- A good flit from device 3 on port 0, and the machine that has received it. -/
def aFlit (typ : Nat) (body : List Byte) : Flit :=
  let h : FlitHdr := ⟨BitVec.ofNat 4 typ, BitVec.ofNat 2 (Decode.typeVch typ), 5, 3, 0, 0, 0, 0, 0, 0⟩;
  let f : Flit := ⟨0, h, body ++ List.replicate (84 - body.length) 0⟩;
  { f with hdr := { h with crc := Decode.flitCrc f } }

def received (f : Flit) (s : State) : State := { s with link := { s.link.putPort f.port upPort with rx := [f] } }

/-- The machine once it has taken the flit; whether it is delivered. -/
def taken (f : Flit) (s : State) : State := ({ received f s with link := { (received f s).link with rx := [] } } : State).acceptFlit f
def arrives (s : State) (f : Flit) (typ op : Nat) : Bool :=
  decide ((received f s).heldFor typ op = [] ∧ (∀ k ∈ (taken f s).link.held, sameClass k.flit f = false) ∧ (received f s).link.rx = [f] ∧ ((received f s).link.port f.port).up = true ∧ Decode.flitOk f = true ∧
    f.hdr.seq.toNat = ((received f s).link.port f.port).expect ∧ f.hdr.typ.toNat = typ ∧ (op = 0 ∨ Decode.bodyNum f.body 0 0 = op) ∧ (taken f s).forMe f = true)

theorem arrives_spec {s : State} {f : Flit} {typ op : Nat} (h : arrives s f typ op = true) : (received f s).delivers (taken f s) f typ op := by
  obtain ⟨x, y, a, b, c, d, e, g, k⟩ := of_decide_eq_true h
  exact ⟨x, y, ⟨[], a, rfl⟩, b, c, d, e, g, k⟩

/-- A body of bytes 0, 2 and 3 (an OP and a tag), a cairn in bytes 4 to 6, an operand. -/
def opBody (op a k : Nat) (v : Nat) : List Byte := leBytes 2 op ++ leBytes 2 a ++ leBytes 4 k ++ leBytes 8 v
/-- A body of a sector address, its mask of the first beat. -/
def atBody (a : Nat) : List Byte := List.replicate 64 1 ++ leBytes 8 (2 ^ 32 - 1) ++ leBytes 6 0 ++ leBytes 6 (a / 64)

/-- A flit on a port that is down, one with a bad CRC, one for another device; a NULL; a read and a write of this device's memory. -/
theorem witness_FlitEvents_accept :
    (let f := aFlit 1 []; (State.reset.link.port f.port).up = false) ∧
    (let f := { aFlit 1 [] with body := List.replicate 84 1 }; Decode.flitOk f = false ∧ ((received f (device id)).link.port f.port).up = true) ∧
    (let s := device fun d => { d with devNum := 6 };
      let f := aFlit 1 (atBody 0 |>.drop 64 |> (List.replicate 64 0 ++ ·)); Decode.flitOk f = true ∧ f.hdr.typ.toNat = 1 ∧ (taken f s).forMe f = false) ∧
    arrives (device id) (aFlit 0 []) 0 0 = true ∧ ((taken (aFlit 0 []) (device id)).link.port 0).buffer = [] ∧
    (∀ typ ∈ [1, 2], let f := aFlit typ (if typ = 1 then List.replicate 64 0 ++ (atBody (5 * 2 ^ 40 + 65536)).drop 64 else atBody (5 * 2 ^ 40 + 65536));
      arrives (device id) f typ 0 = true ∧
      (let s1 := taken f (device id);
        let t := s1.homeOf f.hdr.ctx.toNat (flitAddr f);
        (s1.seeTime (Decode.bodyNum f.body 72 77)).ours t = true ∧ localOf t < Config.memBytes ∧ ((s1.seeTime (Decode.bodyNum f.body 72 77)).mem.frame (localOf t)).cow = false ∧
          (let mask := Decode.bodyNum f.body 64 71; (s1.seeTime (Decode.bodyNum f.body 72 77)).partNow true mask 0 = mask))) := by
  decide +kernel

/-- Responses with and without a request; a token that lands and one that cannot. -/
theorem witness_FlitEvents_answer :
    (∀ p ∈ [(1, 3), (2, 4)], let f := aFlit p.2 ((if p.2 = 4 then List.replicate 64 0 else List.replicate 64 1) ++ (atBody (3 * 2 ^ 40)).drop 64);
      arrives (device id) f p.2 0 = true ∧ (taken f (device id)).reqFor p.1 3 0 (flitAddr f) = none ∧
      arrives { device id with link := { State.reset.link with reqs := [aReq p.1 9] } } f p.2 0 = true ∧
      (taken f { device id with link := { State.reset.link with reqs := [aReq p.1 9] } }).reqFor p.1 3 0 (flitAddr f) = some (aReq p.1 9)) ∧
    arrives (device id) (aFlit 5 []) 5 0 = true ∧ ((taken (aFlit 5 []) (device id)).link.port 0).tokens = [] ∧ (taken (aFlit 5 []) (device id)).landToken (Token.ofBytes (aFlit 5 []).body) = none ∧
    (let s := { ready (.addNode (two .i32 0)) with dev := (device id).dev };
      arrives s (aFlit 5 []) 5 0 = true ∧ ((taken (aFlit 5 []) s).tokenHomes (Token.ofBytes (aFlit 5 []).body)).length = 1) := by decide +kernel

/-- An add below a cairn's limit and past it; waits reached, pending and without room; a read; replies with and without a request. -/
theorem witness_FlitEvents_cairn :
    (∀ op ∈ [1, 2, 3], arrives (device id) (aFlit 6 (opBody op 9 5 1)) 6 op = true ∧ flitCairn (aFlit 6 (opBody op 9 5 1)) = 5 ∧ flitOperand (aFlit 6 (opBody op 9 5 1)) = 1) ∧
    (let full := { device id with cairn := State.reset.cairn.add 5 (BitVec.allOnes 64) };
      arrives full (aFlit 6 (opBody 1 9 5 1)) 6 1 = true ∧ arrives full (aFlit 6 (opBody 2 9 5 1)) 6 2 = true ∧
      2 ^ 64 ≤ ((taken (aFlit 6 (opBody 1 9 5 1)) full).cairn.val 5).toNat + 1 ∧ 1 ≤ ((taken (aFlit 6 (opBody 2 9 5 1)) full).cairn.val 5).toNat) ∧
    ((device id).cairn.val 5).toNat < 1 ∧ (device id).remoteWaits 1 < 4096 ∧
    (let f := aFlit 10 (opBody 1 9 0 0);
      arrives (device id) f 10 0 = true ∧ (taken f (device id)).link.reqs = []) ∧
    (∀ st ∈ [0, 1], let f := aFlit 10 (leBytes 1 1 ++ leBytes 1 st ++ leBytes 2 9);
      let s := { device id with link := { State.reset.link with reqs := [aReq 6 9] } };
      arrives s f 10 0 = true ∧ Decode.bodyNum f.body 1 1 = st ∧ ((taken f s).link.reqs.find? fun q => decide (q.typ = 6 ∧ q.dev = 3 ∧ q.tag = flitTag f)) = some (aReq 6 9)) := by
  decide +kernel

/-- A full queue of remote waits. -/
theorem witness_FlitEvents_waits (n : Nat) :
    ({ device id with cairn := { State.reset.cairn with waits := List.replicate n ⟨5, 1, .remote 3 0 0⟩ } } : State).remoteWaits 1 = n := by
  simp [State.remoteWaits]

/-- Heap requests to this device: past its memory, a header that is not MOVING, one that is; class binds with and without room, and a release. -/
theorem witness_FlitEvents_heap :
    (∀ op ∈ [1, 2, 3, 4], let f := aFlit 11 (opBody op 9 0 0 |>.take 4 |> (· ++ leBytes 4 0 ++ leBytes 6 ((5 * 2 ^ 40 + 65536) / 16)));
      arrives (device id) f 11 op = true ∧ (let s1 := taken f (device id); let t := s1.target 0 (Decode.bodyNum f.body 8 13 * 16);
        (s1.seeTime (flitTs f)).isLocal t = true ∧ localOf t < Config.memBytes ∧ hdrState (s1.mem.word (localOf t)) ≠ 2)) ∧
    (let f := aFlit 11 (leBytes 2 1 ++ leBytes 2 9 ++ leBytes 4 0 ++ leBytes 6 ((5 * 2 ^ 40 + Config.memBytes) / 16));
      arrives (device id) f 11 1 = true ∧ (let t := (taken f (device id)).target 0 (Decode.bodyNum f.body 8 13 * 16);
        (taken f (device id)).isLocal t = true ∧ Config.memBytes ≤ localOf t)) ∧
    (let f := aFlit 11 (leBytes 2 4 ++ leBytes 2 9 ++ leBytes 4 0 ++ leBytes 6 ((5 * 2 ^ 40 + 65536) / 16));
      let s := { device id with mem := State.reset.mem.putHeader 65536 (setHdrState 0 2) };
      arrives s f 11 4 = true ∧ hdrState ((taken f s).mem.word 65536) = 2) ∧
    arrives (device id) (aFlit 9 (opBody 1 7 0 0)) 9 1 = true ∧ arrives (device id) (aFlit 9 (opBody 2 7 0 0)) 9 2 = true ∧
    256 ≤ ((List.replicate 256 (⟨3, 8, 7, 0⟩ : ClassEntry)).filter fun c => decide (c.sdev ≠ (device id).ownNum)).length := by decide +kernel

/-- A machine that can send to device 3. -/
def routed : State := { device id with link := { State.reset.link.putPort 0 upPort with reqs := [aReq 6 9], topoDone := true, routes := [(3, [0])] } }

theorem witness_LinkEvents_send : ∃ s1, routed.send 3 (3 * 2 ^ 40) 6 0 [] = .ok s1 := by
  have h : routed.routePort 3 (3 * 2 ^ 40) = some 0 := routePort_one _ _ _ 0 (by decide +kernel)
  have h2 : (routed.link.avoid.contains 0 || !(routed.link.port 0).up || (routed.link.port 0).queued 0 (Decode.typeVch 6)) = false := by decide +kernel
  have h3 : ¬ ((3 : Nat) = 0xFFF ∨ (!routed.link.topoDone) = true) := by decide +kernel
  have h4 : (routed.trySend 0 6 3 0 []).isSome = true := by decide +kernel
  obtain ⟨s1, h5⟩ := Option.isSome_iff_exists.mp h4
  simp only [State.send, if_neg h3, h, h2, h5]
  exact ⟨s1, rfl⟩

/-- A transaction of this device (number 5) in a phase; one staged here by device 3; an XCTL body. -/
def ownTxn (ph : TxnPhase) : Txn := ⟨1, 7, 5, ph, [⟨3, 1, false, false⟩], 1, 5, false, false, false, false, 0, 2⟩
def owning (t : Txn) : State := { device id with link := { State.reset.link with txns := [t], topoDone := true } }
def aTgt (need : Option Nat) (rdy : Bool) : TgtTxn := ⟨3, 1, [⟨0, 65536, List.replicate 64 1, 0xFF, false⟩], rdy, need, 0⟩
def target (t : TgtTxn) : State := { device id with link := { State.reset.link with targets := [t] } }
def xctl (op cdev n : Nat) : Flit := aFlit 8 (leBytes 1 op ++ leBytes 1 0 ++ leBytes 2 cdev ++ leBytes 4 1 ++ leBytes 8 n)
def xstageFlit : Flit := aFlit 7 (List.replicate 64 1 ++ leBytes 8 (2 ^ 64 - 1) ++ leBytes 4 1 ++ leBytes 2 3 ++ leBytes 6 ((5 * 2 ^ 40 + 65536) / 64))

/-- A sector with room for it; PREPARE, COMMIT, ABORT and KEEP of a transaction staged here; READY, DONE, ABORT and QUERY of one of this device. -/
theorem witness_TransactionEvents_flits :
    arrives (device id) xstageFlit 7 0 = true ∧
    (match (taken xstageFlit (device id)).stage (stageCdev xstageFlit) (stageXid xstageFlit) ⟨0, 65536, [], 0, false⟩ with
      | some _ => true
      | none => false) = true ∧
    (∀ op ∈ [1, 3, 4, 7], arrives (target (aTgt none false)) (xctl op 3 1) 8 op = true ∧
      (taken (xctl op 3 1) (target (aTgt none false))).staging (xctlCdev (xctl op 3 1)) (xctlXid (xctl op 3 1)) = some (aTgt none false)) ∧
    ((target (aTgt (some 1) false)).staging 3 1 = some (aTgt (some 1) false) ∧ (aTgt (some 1) false).need = some (aTgt (some 1) false).sectors.length ∧
      (aTgt none false).need ≠ some (aTgt none false).sectors.length) ∧
    (∀ op ∈ [2, 4, 5], arrives (owning (ownTxn .preparing)) (xctl op 5 0) 8 op = true ∧ xctlCdev (xctl op 5 0) = (taken (xctl op 5 0) (owning (ownTxn .preparing))).dev.devNum) ∧
    (∀ ph ∈ [TxnPhase.opened, .preparing, .committed, .aborted], arrives (owning (ownTxn ph)) (xctl 6 5 0) 8 6 = true ∧
      (taken (xctl 6 5 0) (owning (ownTxn ph))).txn? (xctlXid (xctl 6 5 0)) = some (ownTxn ph) ∧ (ownTxn ph).phase = ph ∧ (ownTxn ph).survived = false) ∧
    (let t := { ownTxn .committed with survived := true };
      (taken (xctl 6 5 0) (owning t)).txn? (xctlXid (xctl 6 5 0)) = some t ∧ t.survived = true ∧ t.resumed = false) ∧
    (arrives (device id) (xctl 6 5 0) 8 6 = true ∧ (taken (xctl 6 5 0) (device id)).txn? (xctlXid (xctl 6 5 0)) = none) := by decide +kernel

/-- Staging full for the sector's die: 256 transactions hold sectors of it. -/
theorem witness_TransactionEvents_full :
    ({ device id with link := { State.reset.link with targets := (List.range 256).map fun k => { aTgt none false with xid := 2 + k } } }).stage 3 1 ⟨0, 65536, [], 0, false⟩ =
      none := by decide +kernel

theorem witness_TransactionEvents_timers :
    (let s := { target (aTgt none false) with now := cycles100us }; s.staging 3 1 = some (aTgt none false) ∧ (3 : Nat) ≠ s.dev.devNum ∧ (aTgt none false).ready = false ∧
      (aTgt none false).seen + cycles100us ≤ s.now) ∧
    ((target (aTgt (some 1) true)).staging 3 1 = some (aTgt (some 1) true) ∧ (aTgt (some 1) true).ready = true) ∧
    (∀ ph ∈ [TxnPhase.opened, .preparing, .committed], (owning (ownTxn ph)).txn? 1 = some (ownTxn ph) ∧ (ownTxn ph).phase = ph ∧ (ownTxn ph).survived = false) ∧
    (∀ num ∈ [4, 5], let t := { ownTxn .committed with num := num, survived := true };
      (owning t).dev.devSet = true ∧ (owning t).link.topoDone = true ∧ (owning t).link.txns = [t] ∧ t.survived = true ∧ t.resumed = false ∧ t.phase = .committed ∧ t.num = num) := by
  decide +kernel

/-- A launch queue of context 0 on, a descriptor posted: well formed or not, its context there or not; overrun; behind its job's phase. -/
def withQueue (n posted : Nat) (ws : List Nat) (s : State) : State :=
  { s with
    host := { s.host with lq := [(n, ⟨0, 0x8000000000000005, 0, some 0, []⟩)] }
    cairn := State.reset.cairn.add 5 (BitVec.ofNat 64 posted)
    mem := ws.zipIdx.foldl (fun m p => m.write (8 * p.2) (leBytes 8 p.1)) s.mem }

theorem witness_HostEvents_launch :
    (let s := withQueue 3 1 [] (device id); let q := s.host.queue 3;
      bitAt q.ctl 63 = true ∧ s.overrun q = false ∧ q.next < s.bell q ∧ launchOk (s.descriptor q q.head) = false) ∧
    (let s := withQueue 3 1 launchWords (inCtx aCtx (device id)); let q := s.host.queue 3; let d := s.descriptor q q.head;
      launchOk d = true ∧ tget s.host.ctxs 0 ≠ none ∧ q.marks.contains q.head = false ∧
      tgetD s.host.phases (s.jobOf 0) 0 ≤ (launchOf d 0 0 0 (some (3, 0))).phase ∧ (s.launchDie (launchOf d 0 0 0 (some (3, 0))) 0).isSome = true) ∧
    (let s := { withQueue 3 1 [] (device id) with host := { State.reset.host with lq := [(3, ⟨0, 0x8000000000000005, 0, some 0, [0]⟩)] } };
      s.overrun (s.host.queue 3) = false ∧ (s.host.queue 3).next < s.bell (s.host.queue 3) ∧ (s.host.queue 3).marks.contains (s.host.queue 3).head = true) ∧
    (let s := withQueue 3 1 launchWords (inCtx aCtx (device id)); let l := launchOf (s.descriptor (s.host.queue 3) 0) 0 0 0 (some (3, 0));
      let t := { s with host := { s.host with launches := (List.range 256).map fun k => (k, { l with die := 1 }) } };
      s.host.phases = [] ∧ t.launchDie l 0 = none) ∧
    (let s := withQueue 3 1 launchWords { inCtx aCtx (device id) with host := { (inCtx aCtx (device id)).host with phases := [(1, 9)] } };
      let l := launchOf (s.descriptor (s.host.queue 3) 0) 0 0 0 (some (3, 0)); l.phase < tgetD s.host.phases (s.jobOf 0) 0) ∧
    (let s := withQueue 3 100000 [] (device id); s.overrun (s.host.queue 3) = true ∧ bitAt (s.host.queue 3).ctl 63 = true) ∧
    (let s := { inCtx aCtx (device id) with host := { (inCtx aCtx (device id)).host with launches := [(7, loadLaunch)] } };
      tget s.host.launches 7 = some loadLaunch ∧ (loadLaunch.st = .held ∨ loadLaunch.st = .placed 0) ∧ loadLaunch.cancelled = false) ∧
    (let l := { loadLaunch with st := .held };
      let s := { inCtx aCtx (device id) with host := { (inCtx aCtx (device id)).host with launches := [(7, l)] } };
      tget s.host.launches 7 = some l ∧ l.st = .held ∧ tgetD s.host.phases (s.jobOf l.ctx) 0 ≤ l.phase ∧ s.mustHold l = false) ∧
    (let l := { loadLaunch with st := .held };
      let s := { inCtx aCtx (device id) with host := { (inCtx aCtx (device id)).host with launches := [(7, l)], phases := [(1, 3)] } };
      l.phase < tgetD s.host.phases (s.jobOf l.ctx) 0) := by decide +kernel

/-- A command of a kind for a context, taken and not performed; the context's place. -/
def cmdWords (kind ctx w2 w3 w4 : Nat) : SysCmd := ⟨BitVec.ofNat 64 (kind + 65536 * ctx), 0, BitVec.ofNat 64 w2, BitVec.ofNat 64 w3, BitVec.ofNat 64 w4, 0, 0, 0⟩
def commanded (c : SysCmd) (s : State) : State := { s with host := { s.host with cmd := some (c, 0) } }
def inCtx3 (x : Ctx) : State := { device id with host := { (device id).host with ctxs := [(3, x)] } }

theorem witness_HostEvents_take :
    (∀ w ∈ [0x11, 0x19], let s := { withQueue 0 1 [w] (device id) with host := { State.reset.host with scq := ⟨0, 0x8000000000000005, 0, some 0, []⟩ } };
      s.host.cmd = none ∧ bitAt s.host.scq.ctl 63 = true ∧ s.overrun s.host.scq = false ∧ s.host.scq.next < s.bell s.host.scq) ∧
    Decode.commandOk (cmdWords 0x11 0 0 0 0) = true ∧ (Decode.command (cmdWords 0x11 0 0 0 0)).toOption.isSome = true ∧ (Decode.command (cmdWords 0x19 0 0 0 0)).toOption.isNone = true := by
  decide +kernel

theorem witness_HostEvents_absent : ∀ n ∈ [0x11, 0x12, 0x13, 0x14, 0x15, 0x16], Decode.commandOk (cmdWords n 3 0 0 0) = true ∧ field (cmdWords n 3 0 0 0).w0 7 0 = n ∧
    cmdCtx (cmdWords n 3 0 0 0) = 3 ∧ tget (device id).host.ctxs 3 = none := by decide +kernel

theorem witness_HostEvents_contexts :
    (∀ k ∈ [0, 3], Decode.commandOk (cmdWords 0x10 k 0 0 0x100000) = true ∧ cmdCtx (cmdWords 0x10 k 0 0 0x100000) = k) ∧
    featsIn (newCtx (cmdWords 0x10 3 0 0 0x100000)).feats (device id).featenN = true ∧ saveOk (newCtx (cmdWords 0x10 3 0 0 0x100000)) = true ∧
    tget (inCtx3 aCtx).host.ctxs 3 = some aCtx ∧ (inCtx3 aCtx).ctxBusy 3 = false ∧
    (let s := { inCtx3 aCtx with host := { (inCtx3 aCtx).host with launches := [(7, { loadLaunch with ctx := 3, st := .runnable })] } };
      s.ctxBusy 3 = true ∧ s.anyMember 3 3 0 = true) ∧ (inCtx3 aCtx).anyMember 3 3 0 = false ∧ Decode.commandOk (cmdWords 0x12 3 3 0 0) = true ∧
    field (cmdWords 0x12 3 3 0 0).w2 1 0 = 3 := by decide +kernel

/-- CANCEL of a descriptor: another context's queue, one taken, one posted; SNAP and SNAPDROP; REPLACE with room and without; TOPO and CINIT. -/
theorem witness_HostEvents_commands :
    (let c := cmdWords 0x12 3 0 2 0;
      Decode.commandOk c = true ∧ field ((inCtx3 aCtx).host.queue c.w3.toNat).ctl 31 20 ≠ 3 ∧
      (let q : LQueue := ⟨0, 0x8000000000300005, 1, some 0, []⟩;
        let s := { inCtx3 aCtx with host := { (inCtx3 aCtx).host with lq := [(2, q)], launches := [(7, { loadLaunch with ctx := 3, src := some (2, 0) })] } };
        field (s.host.queue 2).ctl 31 20 = 3 ∧ (s.launchBy 2 c.w4.toNat 3).isSome = true) ∧
      (let q : LQueue := ⟨0, 0x8000000000300005, 0, some 0, []⟩;
        let s := { inCtx3 aCtx with host := { (inCtx3 aCtx).host with lq := [(2, q)] }, cairn := State.reset.cairn.add 5 1 };
        s.launchBy 2 c.w4.toNat 3 = none ∧ field (s.host.queue 2).ctl 31 20 = 3 ∧ c.w4.toNat ∉ (s.host.queue 2).marks ∧ (s.host.queue 2).head ≤ c.w4.toNat ∧ c.w4.toNat < (s.host.queue 2).head + s.postedTo (s.host.queue 2))) ∧
    (let c := cmdWords 0x13 3 65536 65536 7; Decode.commandOk c = true ∧ c.w2.toNat % 65536 = 0 ∧ c.w3.toNat % 65536 = 0 ∧ c.w2.toNat + c.w3.toNat ≤ 2 ^ 56) ∧
    (let c := cmdWords 0x14 3 9 0 7; Decode.commandOk c = true ∧ (inCtx3 aCtx).hasSnap 3 (field c.w4 19 0) c.w2 = false ∧
      (inCtx3 { aCtx with snaps := [⟨7, 9, 0, 65536, 0, false⟩] }).hasSnap 3 (field c.w4 19 0) c.w2 = true) ∧
    (let c := cmdWords 0x15 3 0x800 0x2000 0x1000; Decode.commandOk c = true ∧ (inCtx3 aCtx).host.replacing = none ∧
      ((inCtx3 aCtx).rangeBlocks 3 c.w3.toNat c.w4.toNat).all (fun t => ((inCtx3 aCtx).headerAt t).isSome && !(inCtx3 aCtx).blockLacks t) = true ∧ (redirectAfter ((inCtx3 aCtx).redirectOf 3) c.w2.toNat c.w3.toNat c.w4.toNat).isSome = true ∧
      (redirectAfter ((List.range 16).map fun k => (0x100000 + 0x1000 * k, 0, 0x800)) c.w2.toNat c.w3.toNat c.w4.toNat).isNone = true) ∧
    Decode.commandOk (cmdWords 0x16 3 0 0 0) = true ∧
    (let c := cmdWords 0x17 0 3 0 0; Decode.commandOk c = true ∧ field c.w3 11 0 = 0) ∧
    (let c := cmdWords 0x17 0 4097 1 0; Decode.commandOk c = true ∧ field c.w3 11 0 ≠ 0 ∧ c.w2.toNat % 8 ≠ 0) ∧
    (let c := cmdWords 0x17 0 4096 1 0; Decode.commandOk c = true ∧ c.w2.toNat % 8 = 0 ∧ c.w2.toNat + 8 * field c.w3 11 0 ≤ Config.memBytes ∧
      topoOk (BitVec.ofNat 64 (3 + 65536 + 2 ^ 19 * 2)) = true ∧ topoOk 0x4000 = false) ∧
    (let c := cmdWords 0x18 0 16 4 0; Decode.commandOk c = true ∧ field c.w3 19 0 ≠ 0 ∧ field c.w2 19 0 + field c.w3 19 0 ≤ 0x80000) ∧
    Decode.commandOk (cmdWords 0x18 0 0x7FFFF 2 0) = true ∧
    (tget (withRegion fun r => { r with replaceMark := true }).regions 0).map (fun r => (r.replaceMark, r.work.isNone)) = some (true, true) := by decide +kernel

/-- Context 0 with every feature and a launch of it. -/
def dispatching (ls : List (Nat × Launch)) : State := { inCtx aCtx (device id) with host := { (inCtx aCtx (device id)).host with launches := ls } }
def runnableLaunch : Launch := { loadLaunch with st := .runnable }

/-- A launch to place and nothing else; nothing to place; a place for it. -/
theorem witness_DispatchEvents_choice :
    (let s := dispatching [(7, runnableLaunch)];
      ((s.runnable 0 0).any fun e => (s.placeable [] e.2 0).isSome) = true ∧ (∀ q ∈ [1, 2, 3, 4, 5, 6, 7], (s.runnable 0 q).isEmpty) ∧ s.runnable 0 0 = [(7, runnableLaunch)] ∧
      tgetD (tgetD s.host.dies 0 Die.blank).rounds 0 [] = [] ∧ (s.placeable [] runnableLaunch 0).isSome = true) ∧
    (∀ q ∈ [0, 1, 2, 3, 4, 5, 6, 7], ((dispatching []).runnable 0 q).isEmpty) := by decide +kernel

/-- A region of launch 7 on partition 0, running or halted; parked. -/
def placed (g : Region → Region) : State :=
  let s := dispatching [(7, { loadLaunch with st := .placed 0 })];
  { s with regions := [(0, g (newRegion s 7 runnableLaunch ⟨0, 0, 0, 0⟩))] }
def parkedState : State :=
  let s := dispatching [(7, { loadLaunch with st := .parked 7 })];
  { s with parked := [(7, ⟨newRegion s 7 runnableLaunch ⟨0, 0, 0, 0⟩, [], some 0, none, 0, true, none, [], []⟩)] }

theorem witness_DispatchEvents_regions :
    ((placed id).regions.find? fun e => decide (e.2.part = 0)).isSome = true ∧
    (tget (placed id).regions 0).map (fun r => (r.cancelling, r.run)) = some (false, .running) ∧
    (let s := placed fun r => { r with run := .preempted };
      ((s.regions.filter fun e => decide (e.2.part = 0 ∧ e.2.run = .preempted) && !e.2.cancelling).length = 1) ∧
        (tget s.regions 0).any (fun r => (State.makeRoom 0 r [] 9 s).isSome && (s.exchangeSwap 0 0 r).isNone && (s.haltTurns 0 r).isEmpty) = true) ∧
    (tget parkedState.parked 7).any (fun p => (tget parkedState.host.launches 7).any fun l => p.resident && !l.cancelled &&
      decide (l.phase ≤ tgetD parkedState.host.phases (parkedState.jobOf l.ctx) 0) && !(parkedState.placementDies l.ctx).isEmpty &&
      !((parkedState.resumeSpots p).filter fun q => !parkedState.outranked l (dieOf q.part)).isEmpty) = true ∧
    (let s := { parkedState with host := { parkedState.host with ctxs := [(0, { aCtx with excluded := [0, 1, 2, 3] })] } }; (s.placementDies 0).isEmpty = true) := by decide +kernel

/-- A mapped elastic unit beside free tiles, with three copies or draining; an image fetched here and from elsewhere; room for it. -/
theorem witness_DispatchEvents_units :
    (let s := placed fun r => { r with blocks := [(0, oneBlock 0x000200008005000000000000 false)] };
      (tget s.regions 0).any (fun r => (tget r.blocks 0).any fun b => s.featenN.testBit 11 && decide (r.run = .running) && b.elastic &&
        decide ((maskTiles r b).length ≤ (s.adjoining r).length)) = true) ∧
    (let f : Fetch := ⟨0, 0, 0x800, 5 * 2 ^ 40 + 0x800, 0, [], none⟩;
      let s := { placed id with caches := { State.reset.caches with fetches := [f] } };
      s.caches.fetches[0]? = some f ∧ s.isLocal (s.target f.ctx f.pa) = true ∧ (s.imageRoom f.part).isSome = true) ∧
    (let f : Fetch := ⟨0, 0, 0x800, 3 * 2 ^ 40 + 0x800, 0, [(3 * 2 ^ 40 + 0x800, List.replicate 64 0)], none⟩;
      let s := { placed id with caches := { State.reset.caches with fetches := [f] } };
      s.isLocal (s.target f.ctx f.pa) = false ∧ (match f.bytes 1 with
        | some h => (f.bytes ((imageLen (recAt h 0) + 63) / 64)).isSome
        | none => false) = true) := by decide +kernel

/-- A control block and a fabric block in the cache, about to be fetched; a fetched block at its boundary; a block past its last record, halting. -/
theorem witness_BlockEvents_fetch :
    (∀ c ∈ [true, false],
      let s0 := placed fun r => { r with nextFetch := some 0x800, tlb := [page0] };
      let s := { s0 with caches := { s0.caches with cfg := [(0, [⟨0, 0x800, some (oneRecord (if c then 0x400440000000000000000000 else 0x000200008005000000000000) c)⟩])] } };
      (tget s.regions 0).any (fun r => r.freeSlot.isSome && s.canFetch r && match s.wantImage 0 r 0x800 with
        | .ok s1 (some m) => decide (m.hdr.control = c) && (tget s1.regions 0).isSome && r.fetched.isEmpty && r.work.isNone
        | _ => false) = true) ∧
    (let s := placed fun r => { r with fetched := [0], blocks := [(0, oneBlock 0x400440000000000000000000 true)] };
      (tget s.regions 0).any (fun r => r.live && r.work.isNone && decide (r.fetched.head? = some 0) && !r.replaceMark && !s.modeDue r && !r.heldByRunw && !r.trapDue &&
        (tget r.blocks 0).any fun b => b.image.decodes && featsIn b.image.hdr.freq (s.diefeat (dieOf r.part))) = true) ∧
    onSite (atWork (.addS rrr) fun w => { w with pc := 1, ending := .halt }) (fun c => decide (c.rg.live = true ∧ c.w.trapCode = none ∧ c.w.cancels = [] ∧ c.w.csrw = []) &&
      decide (c.blk.image.recs.length ≤ c.w.pc) && !c.rg.trapDue) = true := by decide +kernel

/-- A unit issued that maps, and one that is refused; mapped and done. -/
def issuedUnit (x : Rec96) : State := placed fun r => { r with blocks := [(0, { oneBlock x false with phase := .issued })] }
def mapsTo (s : State) (ok : Bool) : Bool :=
  (tget s.regions 0).any fun r => decide (r.run = .running) && !r.cancelling && (tget r.blocks 0).any fun b => decide (b.phase = .issued) && match s.mapUnit r 0 b with
    | .ok _ => ok
    | .refuse _ _ => !ok
    | .wait => false

theorem witness_BlockEvents_units :
    mapsTo (issuedUnit 0x000200F00000000000000000) true = true ∧ mapsTo (issuedUnit 0x1F0000000000000000000000) false = true ∧
    (let s := placed fun r => { r with blocks := [(0, oneBlock 0x000200008005000000000000 false)] };
      (tget s.regions 0).any (fun r => (tget r.blocks 0).any fun b => decide (b.phase = .mapped) && s.unitDone r 0 b) = true) := by decide +kernel

/-- Tokens at the end of their way to a node, a store port, a block of this device and of another; a store port that takes one. -/
theorem witness_BlockEvents_tokens :
    (∀ d ∈ [Dest.node, .store 3, .block 5 0, .block 3 0],
      let c : ChanTok := ⟨zeroTok .left, 9, 0, 0, false, d⟩;
      let s := (placed id).putTile 0 { (placed id).tile 0 with chans := [c] };
      (s.tile 0).arrivals[0]? = some c ∧ (s.regionOf 0).map (fun e => e.2.run) = some .running ∧ c.left = 0 ∧ (s.tile 0).headOfArc 0 c = true ∧ s.dev.devNum = 5) ∧
    (let p := { (State.reset.tile 0).stream 3 with st := .running, desc := [0, 16, 0, 0, 0, 0, 0, 0] };
      p.takes = true ∧ (dataToks p.buf).length < 16) := by decide +kernel

/-- A PUT that stalled on its panel, an RLS that waits and then issues; a heap access that waited on MOVING. -/
theorem witness_BlockEvents_retries :
    (let s := firing (.putNode (one .f32 0)) (all16 1) [] (fun f => { f with st := .slot }) (fun i => { i with name := some (0, 0) })
        fun t => { panelSlot .filling t with stmts := [(0, { aStmt with rows := 2 })], slots := [(0, ⟨0, 0, .filling, true, 0, 0, 0, 0, 0, 2⟩)] };
      (s.retried 0 0 .slot).any (fun p => decide (p.1 = .putNode (one .f32 0)) &&
        onFire p.2 fun x => decide (x.tile = 0 ∧ x.inst.name = some (0, 0)) && x.f.l.any fun t => !t.flags.last) = true) ∧
    (let s := firing (.rls (one .f32 0)) (all16 1) [] (fun f => { f with st := .slot }) id (panelSlot .ready);
      (s.retried 0 0 .slot).any (fun p => decide (p.1 = .rls (one .f32 0)) &&
        onFire p.2 fun x => x.selected (one .f32 0) && match p.2.panelRead x (one .f32 0) (fmtShape (one .f32 0)) with
          | .issued _ _ _ => true
          | _ => false) = true) ∧
    (∀ i ∈ ([.getNode (one .f32 0), .getr (two .f32 0), .mldb (one .bf16 0)] : List Instr),
      ((firing i (all16 1) [] (fun f => { f with st := .slot }) id id).retried 0 0 .slot).map (fun p => p.1) = some i) ∧
    ((firing (.hldNode (one .i64 0)) (all16 1) [] (fun f => { f with st := .moving }) id id).retried 0 0 .moving).isSome = true := by decide +kernel

/-- Waits on a cairn of a core, a firing and another device, reached; a core idle past its limit, and within it. -/
theorem witness_BlockEvents_waits :
    (∀ w ∈ [Who.core 0, .fire 0 1, .remote 3 0 9], let s0 := withLink id (placed id);
      let s := { s0 with cairn := { (s0.cairn.add 5 2) with waits := [⟨5, 1, w⟩] } };
      s.cairn.waits[0]? = some ⟨5, 1, w⟩ ∧ 1 ≤ (s.cairn.val 5).toNat ∧ (tget s.regions 0).isSome = true ∧ (s.link.port 0).up = true) ∧
    (∀ p ∈ [(10, false), (5, true), (0, true)], (tget (placed fun r => { r with cycle := 12, idle := some (p.1, 2, p.2) }).regions 0).map (fun r => (r.idle, r.cycle)) =
      some (some (p.1, 2, p.2), 12)) ∧ (10 : Nat) ≠ 0 ∧ 2 + 10 ≤ (12 : Word).toNat ∧ (12 : Word).toNat < 2 + 11 := by decide +kernel

/-- A launch whose region has ended; cancelled while held, placed and parked. -/
theorem witness_BlockEvents_launches :
    (let s := placed fun r => { r with haltAfter := true };
      (tget s.host.launches 7).map (fun l => l.st) = some (.placed 0) ∧ (tget s.regions 0).any (fun r =>
        decide (r.launch = 7 ∧ r.haltAfter = true ∧ r.cancelling = false ∧ r.run = .running ∧ r.work = none ∧ r.blocks = [] ∧ r.engines = [])) = true) ∧
    (let l := { loadLaunch with st := .held, cancelled := true }; tget (dispatching [(7, l)]).host.launches 7 = some l ∧ l.st ≠ .ended) ∧
    (let s0 := placed fun r => { r with cancelling := true };
      let s := { s0 with host := { s0.host with launches := [(7, { loadLaunch with cancelled := true })] } };
      (tget s.host.launches 7).map (fun l => (l.st, l.cancelled)) = some (.placed 0, true) ∧ (tget s.regions 0).map (fun r => (r.launch, r.cancelling, r.engines.isEmpty)) = some (7, true, true) ∧
      (s.link.reqs.any fun q => decide (q.who = .gone 0)) = false) ∧
    (let s := { parkedState with host := { parkedState.host with launches := [(7, { loadLaunch with st := .parked 7, cancelled := true })] } };
      (tget s.host.launches 7).map (fun l => (l.st, l.cancelled)) = some (.parked 7, true) ∧ (tget s.parked 7).isSome = true ∧ s.link.reqs = []) := by decide +kernel

/-- A record in a FAULT token, with room in the queue, with a full queue that holds a class-11 record or not; minor faults served and over their budget; a major
fault with a save area and without; a parked region with a missing page. -/
def overrec : FaultRec := { aFault cCairnOverflow with cls := 3 }
def aMinor (who : Who) : Minor := ⟨cWalkMiss, who, 0, 65536, 0, 0, 0, 0⟩

theorem witness_FaultEvents_queue :
    (tget (placed fun r => { r with faultTokens := [aFault cUnmapped] }).regions 0).any (fun r => decide (r.run = .running ∧ r.faultTokens = [aFault cUnmapped] ∧ r.queue.length < 16)) = true ∧
    (tget (placed fun r => { r with faultTokens := [overrec], queue := List.replicate 16 overrec }).regions 0).any (fun r =>
      decide (r.faultTokens = [overrec] ∧ 16 ≤ r.queue.length)) = true ∧ overrec.cls = 3 ∧ (aFault cUnmapped).cls ≠ 3 ∧
    (oldest (List.replicate 16 overrec) 3).isSome = true := by decide +kernel

theorem witness_FaultEvents_minor :
    (let s0 := placed id;
      let s := { s0 with host := { s0.host with minors := [aMinor (.core 0)] }, now := 120000 };
      s.host.minors[0]? = some (aMinor (.core 0)) ∧ codeClass (aMinor (.core 0)).code = 1 ∧ (tget s.regions 0).any (fun r => decide (r.run = .running ∧ r.cancelling = false ∧
        (aMinor (.core 0)).since + r.fwb.toNat * 2400 ≤ 120000)) = true ∧ (tget s.regions 0).any (fun r => decide (119999 < (aMinor (.core 0)).since + r.fwb.toNat * 2400)) = true) ∧
    (∀ area ∈ [0, 16], let s0 := placed fun r => { r with run := .major cPeLost };
      let s := { s0 with host := { s0.host with ctxs := [(0, { aCtx with saveUnits := area })] } };
      (tget s.regions 0).any (fun r => decide (r.run = .major cPeLost ∧ r.cancelling = false) && decide ((s.takeImage r).isSome = decide (area = 16)) && (s.haltTurns 0 r).isEmpty) = true) := by decide +kernel

theorem witness_FaultEvents_major :
    (let s := { parkedState with parked := parkedState.parked.map fun (e : Nat × Parked) => (e.1, { e.2 with resident := false }) };
      (tget s.parked 7).map (fun p => p.resident) = some false ∧ s.host.minors = []) ∧
    (let s := { parkedState with parked := parkedState.parked.map (fun (e : Nat × Parked) => (e.1, { e.2 with resident := false })), host := { parkedState.host with minors := [aMinor (.parked 7)] } };
      (tget s.parked 7).map (fun p => p.resident) = some false ∧ (s.host.minors.filter fun m => decide (m.who = Who.parked 7)) = [aMinor (.parked 7)]) := by decide +kernel

/-- A PE's first check failure, a second within a cycle count of 2^20, one with the spare used; ECC errors of a control core; storage that exists. -/
theorem witness_FaultEvents_checks :
    ((placed id).tile 0).fenced.contains 3 = false ∧ (((placed id).tile 0).pe 3).lastFail = none ∧ ((placed id).tile 0).spareUsed = none ∧
    (let t := (placed id).tile 0;
      let s := (placed id).putTile 0 { (t.putPe 3 { t.pe 3 with lastFail := some 0 }) with spareUsed := some 5 };
      ((s.tile 0).pe 3).lastFail.any (fun c => decide (s.now ≤ c + 2 ^ 20)) = true ∧ (s.tile 0).fenced.contains 3 = false ∧ (s.tile 0).spareUsed.isSome = true ∧
        (s.regionOf 0).map (fun e => e.2.cancelling) = some false) ∧
    (∀ c ∈ [none, some 0], (tget (placed fun r => { r with ccErr := c }).regions 0).map (fun r => (r.run, r.cancelling, r.ccErr)) = some (.running, false, c)) ∧
    (tget (placed id).regions 0).map (fun r => (r.active, r.trapbase)) = some (false, 0) ∧ (tget (placed fun r => { r with trapbase := 1 }).regions 0).map (fun r => (r.active, r.trapbase)) = some (false, 1) ∧
    (State.reset.now ≤ 0 + 2 ^ 20) ∧ 0 + 2 ^ 20 < (2 ^ 20 + 1) ∧ 7 * 64 < Config.memBytes ∧
    (let t := (placed id).tile 0;
      let s := (placed id).putTile 0 { t with rows := [(2, ⟨all16 1, false, false, noLoff⟩)], chans := [⟨zeroTok .left, 9, 0, 0, false, .node⟩], miss := [⟨zeroTok .left, 9, 0, 0, false, .node⟩] };
      (tget (s.tile 0).rows 2).isSome = true ∧ (s.tile 0).chans[0]?.isSome = true ∧ (s.tile 0).miss[0]?.isSome = true) ∧
    2 ^ 47 ≤ ({ placed id with mem := { (placed id).mem with pts := 2 ^ 47 } } : State).mem.pts := by decide +kernel

/-- A port of the region's tile with a pattern of 8 elements at address 0 of the first 64 KiB. -/
def loadDesc : List Word := [0, 0, 0, 7, 1, 0, 0, 0]
def storeDesc : List Word := [0, 16, 0, 7, 1, 0, 0, 0]
def streamed (f : Stream → Stream) : State :=
  let s := (placed id).putTile 0 { (placed id).tile 0 with tlb := [page0] };
  s.putTile 0 ((s.tile 0).putStream 3 (f ((s.tile 0).stream 3)))
def onPort (f : Stream → Stream) (g : State → SSite → Bool) : Bool := ((streamed f).ssite 0 3).any fun x => g (streamed f) x
def oneAcc (store : Bool) : Acc := ⟨5 * 2 ^ 40, 4, 0, store, List.replicate 4 1, false, false, 0, 0, false, false, false, 1, 0⟩

theorem witness_StreamAndRelocEvents_ports :
    onPort (fun p => { p with queue := [(.bind loadDesc, 1)] }) (fun _ x => match x.p.queue with
      | (c, n) :: _ => (x.p.command c n).isSome
      | [] => false) = true ∧
    onPort (fun p => { p with st := .running, desc := loadDesc, buf := [zeroTok .left] }) (fun _ x => !(patternOf x.p.desc).store && x.feeds.isNone) = true ∧
    onPort (fun p => { p with st := .closed, desc := loadDesc, flight := [(0, zeroTok .left)], accs := [oneAcc false] }) (fun s x => decide (x.p.buf = [] ∧ x.p.tokDone 0 = false) &&
      !s.begins x x.mayRead && oneTurn s.drawn x.rg.ctx x.who x.p.accs fun _ => true) = true ∧
    onPort (fun p => { p with st := .running, desc := loadDesc, flight := [(0, zeroTok .left)] }) (fun s x => decide (x.p.buf = [] ∧ x.p.tokDone 0 = true)) = true ∧
    onPort (fun p => { p with st := .running, desc := loadDesc, flight := [(0, zeroTok .left)], accs := [{ oneAcc false with sent := true }] }) (fun s x => decide (x.p.tokDone 0 = false) &&
      s.begins x x.mayRead) = true ∧
    onPort (fun p => { p with st := .running, desc := loadDesc }) (fun s x => let q := patternOf x.p.desc;
      decide (x.p.flight = []) && x.mayRead && match s.layElems ⟨.tile 0, x.rg.ctx, .read, 0, false, false, false, 1⟩ q.esize
        (q.addrs ((x.rg.rtile 0).getD 0) x.p.pos) 0 [] with
      | .ok s1 as => !(s1.issueAccs x.key as).2.isEmpty
      | _ => false) = true ∧
    onPort (fun p => { p with st := .running, desc := storeDesc, flight := [(0, zeroTok .left)] }) (fun s x => (patternOf x.p.desc).store &&
      (x.p.flight.find? fun f => x.p.tokDone f.1).isSome) = true ∧
    onPort (fun p => { p with st := .closed, desc := storeDesc, flight := [(0, zeroTok .left)], accs := [oneAcc true] }) (fun s x => (patternOf x.p.desc).store &&
      (x.p.flight.find? fun f => x.p.tokDone f.1).isNone && oneTurn s x.rg.ctx x.who x.p.accs fun _ => true) = true ∧
    onPort (fun p => { p with st := .closed, desc := storeDesc, buf := [zeroTok .left], flight := [(0, zeroTok .left)], accs := [oneAcc true] }) (fun s x =>
      (x.p.flight.find? fun f => x.p.tokDone f.1).isNone && !s.begins x x.mayTake && oneTurn s.drawn x.rg.ctx x.who x.p.accs fun _ => true) = true ∧
    onPort (fun p => { p with st := .running, desc := storeDesc, buf := [zeroTok .left] }) (fun s x => let q := patternOf x.p.desc;
      let es := storeElems q ((x.rg.rtile 0).getD 0) x.p.pos (zeroTok .left);
      decide (x.p.flight = [] ∧ x.p.faulted = false ∧ x.p.minor = false) && s.begins x x.mayTake && match s.drawn.layStore (.tile 0) x.rg.ctx q (zeroTok .left) x.p.pos
        (fullStore q es (zeroTok .left)) es [] with
      | .ok _ as => !as.isEmpty
      | _ => false) = true ∧
    onPort (fun p => { p with st := .closed }) (fun _ x => decide (x.p.flight = [] ∧ x.p.buf = [])) = true := by decide +kernel

/-- A running load port with a token for a mapped unit whose port it feeds. -/
theorem witness_StreamAndRelocEvents_feeds :
    (let b := oneBlock 0x000200008005000000000000 false;
      let img := { b.image with decls := [0xC82300000000000000000000] };
      let s0 := streamed fun p => { p with st := .running, desc := loadDesc, buf := [zeroTok .left] };
      let s := { s0 with regions := s0.regions.map fun (e : Nat × Region) => (e.1, { e.2 with blocks := [(0, { b with image := img })] }) };
      (s.ssite 0 3).any (fun (x : SSite) => x.feeds.isSome) = true) := by decide +kernel

/-- Engines at work: a whole copy done, with and without a signal; a piece to write; a CRED. -/
def engined (e : Engine) : State := placed fun r => { r with engines := [e] }
def anEngine (ws : List Nat) : Engine := ⟨0, ws.map (BitVec.ofNat 64), none, 0, some 5, [], 0, false, false, false, 0⟩

theorem witness_StreamAndRelocEvents_engines :
    (∀ k ∈ [0x20, 0x23], let s := engined (anEngine (engineWords k));
      (s.esite 0 0).any (fun x => !x.e.stopped && !x.e.faulted && !x.e.minor && decide (engKind x.e.words = k)) = true) ∧
    (let w := (anEngine (engineWords 0x20)).words; ¬ ((engKind w = 0x24 ∨ engKind w = 0x25) ∧ bitAt (dw w 4) 32 = true)) ∧
    (∀ d ∈ [5, 3], let e := anEngine [0x24, 0x1000, 0x2000, 64, 2 ^ 32 + d * 2 ^ 20 + 7, 0, 0, 0];
      engKind e.words = 0x24 ∧ bitAt (dw e.words 4) 32 = true ∧ (field (dw e.words 4) 31 20 = (device id).dev.devNum ↔ d = 5)) ∧
    (∀ p ∈ [(⟨0, 64, 1, 0, []⟩ : EngPiece), ⟨0, 4, 1, 0, [oneAcc false]⟩, ⟨0, 4, 2, 0, [oneAcc true]⟩], let s := engined { anEngine (engineWords 0x20) with work := [p] };
      (s.esite 0 0).any (fun x => decide (x.e.ready (decide (x.rg.run = .running)) = [0] ∧ x.e.work[0]? = some p) &&
        (p.accs.isEmpty || oneTurn s.drawn x.rg.ctx x.who p.accs fun _ => true)) = true) ∧
    (tget (engined (anEngine (engineWords 0x20))).regions 0).isSome = true := by decide +kernel

/-- A RELOC at each pass; an object that is moved and one that is not; its last engine's report. -/
def aReloc : Reloc := ⟨1, 1, 0, 0x90000, 1, 1, 5, false⟩
def relocating (hdr : Nat) (e : RelocEng) : State :=
  let s := inCtx { aCtx with root := 0x10000 } (device id);
  { s with
    mem := ((s.mem.write 0x10000 (leBytes 8 0x12001)).write 0x12000 (leBytes 8 (5 * 2 ^ 40 + 7))).write 0x90000 (leBytes 8 hdr)
    heap := { s.heap with engines := [(0, e)], reports := [(1, (1, 5, false))] } }
def relocEng (pass : Nat) : RelocEng := { RelocEng.blank with queue := [aReloc], pass := pass, pages := [(0x90000, 0x90000)], dest := some ⟨0xA0000, 5 * 2 ^ 40 + 0xA0000, 0⟩ }

theorem witness_StreamAndRelocEvents_reloc :
    (∀ p ∈ [0, 1, 2, 3, 4, 5], tget (relocating 0 (relocEng p)).heap.engines 0 = some (relocEng p) ∧ (relocEng p).pass = p ∧ (relocEng p).queue = [aReloc]) ∧
    (∀ w ∈ [0x40000002, 0x140000002, 0xC0000002], let s := relocating w (relocEng 3);
      (relocEng 3).pages[(relocEng 3).cur]? = some (0x90000, 0x90000) ∧ (relocEng 3).moving = none ∧ aReloc.cancelled = false ∧ s.pageFrame 0 0x90000 = some 0x90000 ∧
      hdrSize (s.mem.word 0x90000) = 32 ∧ (hdrState (s.mem.word 0x90000) = 1 ∧ hdrPin (s.mem.word 0x90000) = 0 ↔ w = 0x40000002) ∧ (s.mem.frame 0x90000).cow = false) ∧
    (tget (relocating 0 (relocEng 5)).heap.reports aReloc.id = some (1, 5, false) ∧ (relocEng 5).full = false) := by decide +kernel

/-! ### Clauses at their edges -/

/-- A context whose save area is all of main memory leaves no frame free. -/
theorem noFrame {s : State} {e : Nat × Ctx} (he : e ∈ s.host.ctxs) (hb : e.2.saveBase = 0) (hu : e.2.saveUnits = Config.memBytes / 65536) : s.newFrame = none := by
  have hm : Config.memBytes / 65536 * 65536 = Config.memBytes := by decide
  have hp : 0 < Config.memBytes / 65536 := by decide
  have h : ∀ fuel n, s.freeFrom fuel n = none := by
    intro fuel
    induction fuel with
    | zero => intro n; rfl
    | succ k ih =>
      intro n
      have hlt : n % (Config.memBytes / 65536) * 65536 < Config.memBytes := by
        have := Nat.mod_lt n hp
        calc _ < Config.memBytes / 65536 * 65536 := by omega
          _ = _ := hm
      have hf : s.frameFree (n % (Config.memBytes / 65536) * 65536) = false := by
        have hc : (s.host.ctxs.any fun e => s.ctxUses (n % (Config.memBytes / 65536) * 65536) e.2) = true := by
          refine List.any_eq_true.mpr ⟨e, he, ?_⟩
          simp only [State.ctxUses, hb, hu, hm, Bool.or_eq_true, decide_eq_true_eq]
          exact .inl (.inr ⟨Nat.zero_le _, by omega⟩)
        simp [State.frameFree, hc]
      simp only [State.freeFrom, hf, Bool.false_eq_true, if_false]
      exact ih _
  simp [State.newFrame, h]

/-- A preempted region with a firing under way; one parked in its slot that may take its place, with no save area. -/
def swapping : State :=
  let s := dispatching [(7, { loadLaunch with st := .placed 0 }), (8, { loadLaunch with st := .parked 8 })];
  let r := newRegion s 7 runnableLaunch ⟨0, 0, 0, 0⟩;
  { s with
    regions := [(0, { r with run := .preempted })]
    parked := [(8, ⟨{ r with launch := 8 }, [], some 0, none, 0, true, none, [], []⟩)] }

theorem witness_DispatchEvents_swap :
    (tget swapping.regions 0).any (fun r => (swapping.exchangeSwap 0 0 r).isSome && (swapping.exchangeOut 0 0 r).isNone && (swapping.takeImage r).isNone) = true ∧
    (let s0 := placed fun r => { r with run := .preempted };
      let s := s0.putTile 0 { s0.tile 0 with ready := ((ready (.addNode (two .i32 0))).tile 0).ready.map fun f => { f with begun := true, accs := [oneAcc true] } };
      (tget s.regions 0).any (fun r => !(s.haltTurns 0 r).isEmpty && !(s.haltTurns 0 { r with run := .major cPeLost }).isEmpty) = true) ∧
    (let s0 := dispatching [(7, { loadLaunch with st := .placed 0 }), (8, { runnableLaunch with prio := 1, anyp := false, part := 0 })];
      let r := newRegion s0 7 { runnableLaunch with w := 16, hgt := 8 } ⟨0, 0, 0, 0⟩;
      let s := { s0 with regions := [(0, r)] };
      s.runnable 0 1 ≠ [] ∧ ((s.runnable 0 1).any fun e => (s.placeable [] e.2 0).isSome) = false ∧
        ((s.runnable 0 1).findSome? fun e => s.preemption e.2 0) = some [0]) := by decide +kernel

/-- An elastic unit whose arcs were held for 75 % of the last window, beside free tiles; its copy, running, draining and torn; mergers that emit. -/
def replicable (xs : List Replica) (h : List MergeTok) : State :=
  let s := placed fun r => { r with blocks := [(0, oneBlock 0x000200008005000000000000 false)], replicas := xs };
  { s with host := { s.host with stages := [(0, ⟨0, 0, 3072⟩)], splits := if xs = [] then [] else [⟨0, 0, [], 0, h, []⟩] } }
def aCopy : Replica := ⟨0, 1, [(0, 16, 17)], false, false⟩
def merging (copy itag : Nat) (tear : Bool) : MergeTok :=
  ⟨copy, 0, ⟨{ zeroTok .left with itag := BitVec.ofNat 32 itag, flags := { Flags.none with tear := tear } }, 9, 0, 0, false, .node⟩⟩
def onUnit (s : State) (f : Region → Bif → Bool) : Bool := (tget s.regions 0).any fun r => (tget r.blocks 0).any fun b => f r b

theorem witness_DispatchEvents_copies :
    (let s := replicable [] [];
      onUnit s fun r b => let free := (s.adjoining r).take (maskTiles r b).length;
        s.featenN.testBit 11 && b.elastic && decide (free.length = (maskTiles r b).length ∧ r.run = .running ∧ r.cancelling = false) &&
          decide (3 * 4096 ≤ 4 * (tgetD s.host.stages (0 * 8 + 0) ⟨0, 0, 0⟩).last) && !s.unitEnding r b 0 &&
          match placeNodes (fun _ _ => ⟨0, 0, 0⟩) (fun tile p => (s.tile tile).fenced.contains p) b.image 0 free (List.range (b.image.hdr.ncnt + 1)) [] [] with
          | .ok _ => true
          | .error _ => false) = true ∧
    (∀ p ∈ [(false, false), (true, false), (true, true)], let x := { aCopy with draining := p.1, torn := p.2 };
      let s := replicable [x] [];
      onUnit s (fun r _ => (s.splitOf 0 0).isSome && decide (r.run = .running ∧ (r.replicas.filter fun x => decide (x.bslot = 0)).reverse = [x])) = true) ∧
    (∀ h ∈ [[merging 0 5 true, merging 1 6 true], [merging 0 5 false, merging 1 6 false], [merging 1 6 false]], let s := replicable [aCopy] h;
      onUnit s (fun r b => (s.splitOf 0 0).any fun x => match s.mergeArc r b x 9 with
        | some (g, _) => decide (g.chan.tok.flags.tear = (h.length == 2 && (h.all fun k => k.chan.tok.flags.tear)))
        | none => false) = true) := by decide +kernel

/-- A unit of the block at work waits for its commit; one for which there is no room waits. -/
theorem witness_BlockEvents_uncommitted :
    (let b := oneBlock 0x400440000000000000000000 true;
      let u := { oneBlock 0x000200F00000000000000000 false with phase := .issued, blockOrder := b.order };
      let s := placed fun r => { r with blocks := [(0, b), (1, u)], work := some (Work.start { r with blocks := [(0, b)] } 0) };
      (tget s.regions 0).any (fun r => r.uncommitted u && decide ((tget r.blocks 1).map (fun x => x.phase) = some .issued)) = true) ∧
    mapsTo (issuedUnit 0x000200F00000000000000000) true = true ∧
    ((tget (issuedUnit 0x000200F00000000000000000).regions 0).any fun r => (tget r.blocks 0).any fun b => !r.uncommitted b) = true := by decide +kernel

/-- Contexts whose save areas leave no frame, the table entry of the first 64 KiB as given. -/
def atEntry (w : Nat) : State :=
  let s := inCtx { aCtx with root := 0x10000, saveBase := 0, saveUnits := Config.memBytes / 65536 } (device id);
  { s with mem := (s.mem.write 0x10000 (leBytes 8 0x12001)).write 0x12000 (leBytes 8 w) }

theorem atEntry_full (s : State) (w : Nat) (h : s.host = (atEntry w).host) : s.newFrame = none :=
  noFrame (e := (0, { aCtx with root := 0x10000, saveBase := 0, saveUnits := Config.memBytes / 65536 })) (by rw [h]; exact List.mem_singleton.mpr rfl) rfl rfl

/-- A first touch and a missing page for which there is no frame, with a region's fault and a parked region's; a walk miss, which is served. -/
theorem witness_FaultEvents_served :
    ((atEntry 0x400).serveMinor { aMinor (.core 0) with code := cFirstTouch, va := 0 } = none) ∧
    ((atEntry 0x800).serveMajor { aMinor (.parked 7) with code := cNotResident, va := 0 } = none) ∧
    ((atEntry 0x400).serveMinor (aMinor (.core 0))).isSome = true ∧ ((atEntry 0x400).serveMajor { aMinor (.parked 7) with code := cRefill }).isSome = true := by
  have h : (atEntry 0x400).pteAt 0 0 = .firstTouch := by decide +kernel
  have k : (atEntry 0x800).pteAt 0 0 = .notResident := by decide +kernel
  have d : cFirstTouch ≠ cWalkMiss ∧ cRefill ≠ cNotResident := by decide
  refine ⟨?_, ?_, rfl, ?_⟩
  · simp [State.serveMinor, d.1, State.firstTouch, aMinor, h, atEntry_full _ 0x400 rfl]
  · simp [State.serveMajor, State.makeResident, aMinor, k, atEntry_full (atEntry 0x800).drawn.drawn 0x800 rfl]
  · simp only [State.serveMajor, d.2, if_false, if_true, Option.isSome_some]

def upperLeaf (w : Walk) : Bool :=
  match w with
  | .done (.leaf ..) l _ => decide (l < 4)
  | _ => false

theorem split_full {s : State} {ctx va n : Nat} (hf : s.newFrame = none)
    (hw : upperLeaf (walkFull s.mem ctx va 4 1 (s.root ctx) []).1 = true) : State.splitLeaf ctx va (n + 1) s = none := by
  unfold State.splitLeaf
  generalize (walkFull s.mem ctx va 4 1 (s.root ctx) []).1 = w at hw ⊢
  cases w with
  | miss => cases hw
  | done p l e =>
    cases p with
    | leaf a b c d f =>
      have h : ¬ 4 ≤ l := Nat.not_le.mpr (of_decide_eq_true hw)
      simp only [h, if_false, hf]
    | _ => cases hw

theorem remap_full {s : State} {ctx old va new : Nat} (hv : findVa s.mem old 4 1 (s.root ctx) 0 = some va) (hf : s.newFrame = none)
    (hw : upperLeaf (walkFull s.mem ctx va 4 1 (s.root ctx) []).1 = true) : s.remap ctx old new = none := by
  unfold State.remap
  rw [hv]
  show (State.splitLeaf ctx va 3 s).map _ = none
  rw [show State.splitLeaf ctx va 3 s = none from split_full (n := 2) hf hw]
  rfl

/-- A page of a large leaf that is to move, with no frame for the table it splits into. -/
theorem witness_LinkEvents_full : ∃ s : State, s.remap 0 0x50000010000 (3 * 2 ^ 40) = none := by
  have hv : findVa (atEntry 0x50000000007).mem 0x50000010000 4 1 ((atEntry 0x50000000007).root 0) 0 = some 65536 := by decide +kernel
  have hw : upperLeaf (walkFull (atEntry 0x50000000007).mem 0 65536 4 1 ((atEntry 0x50000000007).root 0) []).1 = true := by decide +kernel
  generalize hx : atEntry 0x50000000007 = x at hv hw
  exact ⟨x, remap_full hv (atEntry_full x 0x50000000007 (by rw [hx])) hw⟩

theorem pinFor_full {s : State} {ctx a : Nat} (up : Bool) (hc : (s.mem.frame a).cow = true) (hf : s.newFrame = none) (hn : s.nowAt ctx a = a) (ha : localOf a = a)
    (hh : hdrState (s.mem.word a) = 0) : s.pinFor ctx a up = .keep := by
  have k : s.serveCow ctx a = s := by simp [State.serveCow, State.copyCow, hf]
  simp [State.pinFor, k, hn, hh, State.pinHere, ha, hc]

/-- A pin of a copy-on-write frame that cannot be copied, of a plain object, and of one that is moving. -/
theorem witness_FlitEvents_keep (up : Bool) :
    State.pinFor { atEntry 0 with mem := (atEntry 0).mem.putFrame 131072 { Frame.blank with cow := true } } 0 131072 up = .keep :=
  pinFor_full up (by decide +kernel) (atEntry_full _ 0 rfl) (by decide +kernel) (by decide +kernel) (by decide +kernel)

theorem witness_FlitEvents_pins :
    (match (device id).pinFor 0 131072 true with
      | .done .. => true
      | _ => false) = true ∧
    State.pinFor { device id with mem := (device id).mem.putHeader 131072 (setHdrState 0 2) } 0 131072 true = .stand := by decide +kernel

/-- CTXNEW without a feature, and without a save area; REPLACE over a range that another device holds, and over a block of a feature that FEATEN lacks. -/
theorem witness_HostEvents_codes :
    (let s := device fun d => { d with featen := 0 }; featsIn (newCtx (cmdWords 0x10 3 0 1 0x100000)).feats s.featenN = false) ∧
    saveOk (newCtx (cmdWords 0x10 3 0 0 0)) = false ∧ (inCtx3 aCtx).jobCtxs 1 = [3] ∧
    (let leaf := fun (n : Nat) => let s := inCtx3 { aCtx with root := 0x10000 }; ({ s with mem := (s.mem.write 0x10000 (leBytes 8 0x12001)).write 0x12000 (leBytes 8 (n * 2 ^ 40 + 7)) } : State);
      ((leaf 3).rangeBlocks 3 0 2048).any (fun t => ((leaf 3).headerAt t).isNone) = true ∧
      (let s := leaf 5;
        let t := { s with dev := { s.dev with featen := 0 }, mem := s.mem.write 0 (leBytes 12 (2 ^ 95 + 1)) };
        (t.rangeBlocks 3 0 2048).any (fun a => (t.headerAt a).isSome && t.blockLacks a) = true)) := by decide +kernel

end Sys2Proof.Tests
end

section
/-! SUPPORT. What reset leaves, and the turn a step takes where nothing is posted. -/

namespace Sys2Proof.Machine

/-- With an empty agenda the free choice falls on a turn that stands open; where none does, on the clock. -/
theorem State.takeTurn_idle {s : State} (h : s.agenda = []) : ∃ t, (t ∈ s.enabled ∨ t = .tick) ∧ s.takeTurn = (t, s.drawn) := by
  simp only [State.takeTurn, h]
  refine ⟨_, ?_, rfl⟩
  obtain none_open | some_open := Nat.eq_zero_or_pos s.enabled.length
  · right
    rw [List.length_eq_zero_iff.mp none_open, List.getD_nil]
  · left
    rw [List.getD_eq_getElem _ _ (Nat.mod_lt _ some_open)]
    exact List.getElem_mem _

end Sys2Proof.Machine

open Sys2Proof Sys2Proof.Machine

/-- Settles O8: each register at the value the reset state gives it. -/
theorem resetValues : Obligations.ResetValues := by
  unfold Obligations.ResetValues
  exact ⟨rfl, rfl, rfl, rfl, rfl, rfl, rfl, rfl, fun _ => ⟨rfl, rfl⟩, rfl, rfl, rfl, rfl⟩

/-- Settles O6: the turn is the free choice's, which is the model's own (log 2), and taking it only counts the choice on. -/
theorem stepTakesOpenTurn : Obligations.StepTakesOpenTurn := by
  unfold Obligations.StepTakesOpenTurn
  intro s h
  obtain ⟨t, ht, taken⟩ := State.takeTurn_idle h
  exact ⟨t, ht, by rw [step, taken]⟩
end

section
/-! SUPPORT. What moves registers and what does not: a cycle of the clock (R11, R12). -/

namespace Sys2Proof.Machine

/-! ### What keeps the registers of every region

A node whose TEAR has left may close allocation buffers, and a page closed may be copied on a write first: what that changes of a region is its
translation and barrier caches. -/

/-- `r'` is `r` but for its translation and barrier caches. -/
def Region.SameButCaches (r r' : Region) : Prop := r' = { r with tlb := r'.tlb, barrier := r'.barrier }

/-- From `s` to `t` no cairn changes, and no region but for its translation and barrier caches. -/
def State.KeepsRegisters (s t : State) : Prop :=
  t.cairn = s.cairn ∧ ∀ k r, tget s.regions k = some r → ∃ r', tget t.regions k = some r' ∧ r.SameButCaches r'

theorem Region.SameButCaches.trans {r r1 r2 : Region} (h : r.SameButCaches r1) (h1 : r1.SameButCaches r2) : r.SameButCaches r2 := by
  rw [Region.SameButCaches] at h h1 ⊢
  rw [h1, h]

theorem State.KeepsRegisters.of_eq {s t : State} (hc : t.cairn = s.cairn) (hr : t.regions = s.regions) : s.KeepsRegisters t :=
  ⟨hc, fun _ r h => ⟨r, by rwa [hr], rfl⟩⟩

theorem State.KeepsRegisters.refl (s : State) : s.KeepsRegisters s := .of_eq rfl rfl

theorem State.KeepsRegisters.trans {s t u : State} (h : s.KeepsRegisters t) (h1 : t.KeepsRegisters u) : s.KeepsRegisters u := by
  refine ⟨h1.1.trans h.1, fun k r hr => ?_⟩
  obtain ⟨r1, hr1, hs⟩ := h.2 k r hr
  obtain ⟨r2, hr2, hs1⟩ := h1.2 k r1 hr1
  exact ⟨r2, hr2, hs.trans hs1⟩

/-- A loop whose every round keeps the registers keeps them. -/
theorem State.KeepsRegisters.foldl {α : Type} {f : State → α → State} (h : ∀ (s : State) (a : α), s.KeepsRegisters (f s a)) (l : List α) (s : State) :
    s.KeepsRegisters (l.foldl f s) :=
  List.foldlRecOn l f (.refl s) fun t ht a _ => ht.trans (h t a)

theorem State.keepsRegisters_mem (s : State) (m : Mem) : s.KeepsRegisters { s with mem := m } := .of_eq rfl rfl

theorem State.keepsRegisters_putTile (s : State) (k : Nat) (t : Tile) : s.KeepsRegisters (s.putTile k t) := .of_eq rfl rfl

theorem State.keepsRegisters_copied (s : State) (m : Mem) (a : Nat) : s.KeepsRegisters ({ s with mem := m }.cwfUp a) := .of_eq rfl rfl

/-- A region without the entries of a context in its translation and barrier caches. -/
def Region.invalidate (r : Region) (ctx : Nat) : Region :=
  { r with tlb := r.tlb.filter fun t => decide (t.ctx ≠ ctx), barrier := r.barrier.filter fun t => decide (t.ctx ≠ ctx) }

theorem State.tget_invalidate_regions (s : State) (ctx k : Nat) :
    tget (s.invalidate ctx).regions k = (tget s.regions k).map fun r => r.invalidate ctx :=
  tget_map (fun _ r => Region.invalidate r ctx) s.regions k

theorem State.keepsRegisters_invalidate (s : State) (ctx : Nat) : s.KeepsRegisters (s.invalidate ctx) := by
  refine ⟨rfl, fun k r h => ⟨r.invalidate ctx, ?_, rfl⟩⟩
  rw [State.tget_invalidate_regions, h, Option.map_some]

theorem State.keepsRegisters_logOverflow (s : State) (ctx : Nat) : s.KeepsRegisters (s.logOverflow ctx) := by
  unfold State.logOverflow
  split
  · exact .of_eq rfl rfl
  · exact .refl s

theorem State.keepsRegisters_deposit (s : State) (ctx lo hi : Nat) (cowf : Bool) : s.KeepsRegisters (s.deposit ctx lo hi cowf) := by
  unfold State.deposit
  dsimp only
  split
  · exact (State.keepsRegisters_mem ..).trans (State.keepsRegisters_logOverflow ..)
  · exact State.keepsRegisters_mem ..

theorem State.keepsRegisters_newFrame {s t : State} {a : Nat} (h : s.newFrame = some (a, t)) : s.KeepsRegisters t := by
  simp only [State.newFrame, Option.map_eq_some_iff, Prod.mk.injEq] at h
  obtain ⟨_, _, _, rfl⟩ := h
  exact .of_eq rfl rfl

theorem State.keepsRegisters_splitLeaf {ctx va n : Nat} {s t : State} (h : State.splitLeaf ctx va n s = some t) : s.KeepsRegisters t := by
  induction n generalizing s with
  | zero => cases h; exact .refl _
  | succ n ih =>
    rw [State.splitLeaf] at h
    split at h
    · split at h
      · cases h; exact .refl _
      · dsimp only at h
        split at h
        · cases h
        · next hf => exact ((State.keepsRegisters_newFrame hf).trans (State.keepsRegisters_mem ..)).trans (ih h)
    · cases h; exact .refl _

theorem State.keepsRegisters_mapCopy {s t : State} {ctx va g : Nat} (h : s.mapCopy ctx va g = some t) : s.KeepsRegisters t := by
  simp only [State.mapCopy, Option.map_eq_some_iff] at h
  obtain ⟨s1, h1, rfl⟩ := h
  refine (State.keepsRegisters_splitLeaf h1).trans ?_
  split
  · exact ((State.keepsRegisters_mem ..).trans (State.keepsRegisters_invalidate ..)).trans (State.keepsRegisters_deposit ..)
  · exact .refl s1

theorem State.keepsRegisters_copyCow {s t : State} {ctx old : Nat} (h : s.copyCow ctx old = some t) : s.KeepsRegisters t := by
  unfold State.copyCow at h
  -- The search of the page table stands for itself: it is not to be run when the cases below are checked.
  obtain ⟨search, hs⟩ : ∃ search, search = findVa := ⟨_, rfl⟩
  rw [← hs] at h
  split at h
  · cases h
  · next hf =>
    dsimp only at h
    refine (State.keepsRegisters_newFrame hf).trans ?_
    split at h
    · cases h; exact State.keepsRegisters_copied ..
    · exact (State.keepsRegisters_copied ..).trans (State.keepsRegisters_mapCopy h)

theorem State.keepsRegisters_serveCow (s : State) (ctx a : Nat) : s.KeepsRegisters (s.serveCow ctx a) := by
  unfold State.serveCow
  split
  · cases h : s.copyCow ctx (a / 65536 * 65536) with
    | none => exact .refl s
    | some t => exact State.keepsRegisters_copyCow h
  · exact .refl s

theorem State.keepsRegisters_closeRest (s : State) (a fill : Nat) : s.KeepsRegisters (s.closeRest a fill) := by
  unfold State.closeRest
  split
  · exact .refl s
  · exact State.keepsRegisters_mem ..

theorem State.keepsRegisters_closePage (s : State) (ctx : Nat) (b : HeapBuf) : s.KeepsRegisters (s.closePage ctx b) := by
  have cow : s.KeepsRegisters (if (s.mem.frame (s.bufAt ctx b)).cow then s.serveCow ctx (s.bufAt ctx b) else s) := by
    split
    · exact State.keepsRegisters_serveCow ..
    · exact .refl s
  unfold State.closePage
  dsimp only
  generalize (if (s.mem.frame (s.bufAt ctx b)).cow then s.serveCow ctx (s.bufAt ctx b) else s) = s1 at cow ⊢
  split
  · exact cow
  · exact cow.trans (State.keepsRegisters_closeRest ..)

theorem State.keepsRegisters_closeBuf (s : State) (tile h : Nat) : s.KeepsRegisters (s.closeBuf (.tile tile) h) := by
  unfold State.closeBuf
  split
  · exact (State.keepsRegisters_closePage ..).trans (State.keepsRegisters_putTile ..)
  · exact .refl s

theorem State.keepsRegisters_freeNode (s : State) (tile pe slot : Nat) : s.KeepsRegisters (s.freeNode tile pe slot) := by
  unfold State.freeNode
  split
  · exact .refl s
  · dsimp only
    split
    · exact State.keepsRegisters_putTile ..
    · split
      · exact (State.keepsRegisters_putTile ..).trans (.foldl (fun t h => t.keepsRegisters_closeBuf tile h) _ _)
      · exact State.keepsRegisters_putTile ..
    · exact State.keepsRegisters_putTile ..

theorem State.keepsRegisters_freeLeavers (s : State) (k : Nat) : s.KeepsRegisters (s.freeLeavers k) :=
  .foldl (fun t (q : Nat × Nat) => t.keepsRegisters_freeNode k q.1 q.2) _ s

theorem State.freeLeavers_of_nil {s : State} {k : Nat} (h : (s.tile k).leavers = []) : s.freeLeavers k = s := by
  simp only [State.freeLeavers, h, List.foldl_nil]

/-! ### What changes the host's tables and the tiles alone -/

/-- From `s` to `t` nothing changes but the host's tables and the tiles. -/
def State.SameButHostTiles (s t : State) : Prop := t = { s with host := t.host, tiles := t.tiles }

theorem State.SameButHostTiles.trans {s t u : State} (h : s.SameButHostTiles t) (h1 : t.SameButHostTiles u) : s.SameButHostTiles u := by
  rw [State.SameButHostTiles] at h h1 ⊢
  rw [h1, h]

theorem State.SameButHostTiles.foldl {α : Type} {f : State → α → State} (h : ∀ (s : State) (a : α), s.SameButHostTiles (f s a)) (l : List α) (s : State) :
    s.SameButHostTiles (l.foldl f s) :=
  List.foldlRecOn l f rfl fun t ht a _ => ht.trans (h t a)

theorem State.SameButHostTiles.now {s t : State} (h : s.SameButHostTiles t) : t.now = s.now := by rw [h]
theorem State.SameButHostTiles.cairn {s t : State} (h : s.SameButHostTiles t) : t.cairn = s.cairn := by rw [h]
theorem State.SameButHostTiles.regions {s t : State} (h : s.SameButHostTiles t) : t.regions = s.regions := by rw [h]

theorem State.sameButHostTiles_charge (s : State) (r : Region) : s.SameButHostTiles (s.charge r) := rfl

theorem State.sameButHostTiles_mergeUnit (s : State) (x : Split) : s.SameButHostTiles (s.mergeUnit x) := by
  unfold State.mergeUnit
  split
  · rfl
  · split
    · rfl
    · refine .foldl (fun t arc => ?_) _ s
      split
      · rfl
      · split <;> rfl

theorem State.sameButHostTiles_noteDue (s : State) : s.SameButHostTiles s.noteDue := by
  refine .foldl (fun t d => ?_) _ s
  dsimp only
  generalize (if s.dieActs d then some ((tgetD s.host.dies d Die.blank).due.getD s.now) else none) = due
  split <;> rfl

/-! ### The tick -/

/-- A region after a cycle of `s`. -/
def State.cycled (s : State) (r : Region) : Region := { r with cycle := if s.runs r then r.cycle + 1 else r.cycle }

/-- The regions that run in a cycle. -/
def State.live (s : State) : Tab Region := s.regions.filter fun e => s.runs e.2

/-- The machine once the nodes whose TEAR leaves in a cycle have left. -/
def State.torn (s : State) : State := (s.live.flatMap fun e => e.2.tiles).foldl State.freeLeavers s

theorem State.keepsRegisters_torn (s : State) : s.KeepsRegisters s.torn := .foldl State.keepsRegisters_freeLeavers _ s

theorem State.torn_of_no_leavers {s : State} (h : ∀ e ∈ s.regions, s.runs e.2 = true → ∀ k ∈ e.2.tiles, (s.tile k).leavers = []) : s.torn = s := by
  refine List.foldlRecOn (motive := fun t => t = s) _ _ rfl fun t ht k hk => ?_
  simp only [State.live, List.mem_flatMap, List.mem_filter] at hk
  obtain ⟨e, ⟨he, hr⟩, hk⟩ := hk
  rw [ht, State.freeLeavers_of_nil (h e he hr k hk)]

/-- What the edge of the clock in a cycle of `s` does to the machine `u` beside its tiles and the host's tables: the time goes on, CYCLE of the
regions that run, and in every sixteenth cycle the logical time of memory. -/
def State.clockEdge (s u : State) : State :=
  { u with
    now := s.now + 1
    regions := u.regions.map fun e => if s.runs e.2 then (e.1, { e.2 with cycle := e.2.cycle + 1 }) else e
    mem := if s.now % 16 = 15 then { u.mem with pts := u.mem.pts + 1 } else u.mem }

theorem State.sameButHostTiles_tick (s : State) : (s.clockEdge s.torn).SameButHostTiles s.tick := by
  have charged : s.torn.SameButHostTiles (s.live.foldl (fun s' e => s'.charge e.2) s.torn) :=
    .foldl (fun t (e : Nat × Region) => t.sameButHostTiles_charge e.2) _ _
  unfold State.tick
  refine .trans (.trans ?_ (.foldl State.sameButHostTiles_mergeUnit _ _)) (State.sameButHostTiles_noteDue _)
  unfold State.torn State.live at charged ⊢
  generalize List.foldl (fun (s' : State) (e : Nat × Region) => s'.charge e.2) _ _ = u at charged ⊢
  rw [charged]
  rfl

theorem State.runs_of_sameButCaches (s : State) {r r' : Region} (h : r.SameButCaches r') : s.runs r' = s.runs r := by rw [h]; rfl

theorem State.tget_clockEdge_regions (s u : State) (k : Nat) : tget (s.clockEdge u).regions k = (tget u.regions k).map s.cycled := by
  have edge : (fun e : Nat × Region => if s.runs e.2 then (e.1, { e.2 with cycle := e.2.cycle + 1 }) else e) = fun e => (e.1, s.cycled e.2) := by
    funext e
    cases h : s.runs e.2 <;> simp [State.cycled, h]
  rw [State.clockEdge, edge]
  exact tget_map (fun _ => s.cycled) u.regions k

theorem State.clockEdge_cells (s u : State) : (s.clockEdge u).mem.cells = u.mem.cells := by
  rw [State.clockEdge]
  dsimp only
  split <;> rfl

theorem State.clockEdge_poison (s u : State) : (s.clockEdge u).mem.poison = u.mem.poison := by
  rw [State.clockEdge]
  dsimp only
  split <;> rfl

/-- A cycle of the clock counts the time and CYCLE of the regions that run in it, and changes no other register and no cairn. -/
theorem State.tick_registers (s : State) : s.tick.now = s.now + 1 ∧ s.tick.cairn = s.cairn ∧
    ∀ k r, tget s.regions k = some r → ∃ r', tget s.tick.regions k = some r' ∧ r'.s = r.s ∧ r'.h = r.h ∧ r'.csrs = (s.cycled r).csrs := by
  have tick := s.sameButHostTiles_tick
  obtain ⟨cairn, kept⟩ := s.keepsRegisters_torn
  refine ⟨tick.now, tick.cairn.trans cairn, fun k r h => ?_⟩
  obtain ⟨r1, h1, same⟩ := kept k r h
  refine ⟨s.cycled r1, by rw [tick.regions, State.tget_clockEdge_regions, h1, Option.map_some], by rw [same]; rfl, by rw [same]; rfl, ?_⟩
  rw [State.cycled, State.runs_of_sameButCaches s same, same]
  rfl

/-- Where no TEAR leaves a slot in it, a cycle counts CYCLE and the logical time of memory, and leaves the rest but the host's tables and the tiles. -/
theorem State.tick_of_no_leavers {s : State} (h : ∀ e ∈ s.regions, s.runs e.2 = true → ∀ k ∈ e.2.tiles, (s.tile k).leavers = []) :
    (∀ k r, tget s.regions k = some r → tget s.tick.regions k = some (s.cycled r)) ∧ s.tick.mem.cells = s.mem.cells ∧
    s.tick.mem.poison = s.mem.poison ∧ s.tick.dev = s.dev ∧ s.tick.link = s.link ∧ s.tick.heap = s.heap ∧ s.tick.caches = s.caches := by
  have tick := s.sameButHostTiles_tick
  rw [State.torn_of_no_leavers h] at tick
  refine ⟨fun k r hk => by rw [tick.regions, State.tget_clockEdge_regions, hk, Option.map_some], ?_⟩
  rw [tick]
  exact ⟨State.clockEdge_cells s s, State.clockEdge_poison s s, rfl, rfl, rfl, rfl⟩

theorem step_tick {s : State} {ts : List Turn} (h : s.agenda = .tick :: ts) : step s = .next { s with agenda := ts }.tick := by
  rw [step_agenda h, performTurn, if_pos rfl]

end Sys2Proof.Machine

open Sys2Proof Sys2Proof.Machine

/-- Settles O7: a tick frees the slots that TEAR leaves, charges the host's tables, moves the clock's edge and lets the mergers emit; the first keeps
every register, the others do not reach one but CYCLE. -/
theorem clockCountsCycles : Obligations.ClockCountsCycles := by
  unfold Obligations.ClockCountsCycles
  intro s ts h
  obtain ⟨now, cairn, registers⟩ := State.tick_registers { s with agenda := ts }
  exact ⟨_, step_tick h, now, cairn, registers, fun none_leaves => State.tick_of_no_leavers (s := { s with agenda := ts }) none_leaves⟩
end

section
/-! SUPPORT. Power, temperature, freeze, reset, the test port and the state dump: what each event of the package leaves (R11 to R25). -/

namespace Sys2Proof.Machine

/-! ### Words -/

@[simp] theorem bitAt_or {w : Nat} (x y : BitVec w) (i : Nat) : bitAt (x ||| y) i = (bitAt x i || bitAt y i) := BitVec.getLsbD_or

@[simp] theorem bitAt_and {w : Nat} (x y : BitVec w) (i : Nat) : bitAt (x &&& y) i = (bitAt x i && bitAt y i) := BitVec.getLsbD_and

theorem field_or {w : Nat} (x y : BitVec w) (hi lo : Nat) : field (x ||| y) hi lo = field x hi lo ||| field y hi lo := by
  simp only [field, BitVec.toNat_or, Nat.shiftRight_or_distrib, Nat.or_mod_two_pow]

theorem field_and {w : Nat} (x y : BitVec w) (hi lo : Nat) : field (x &&& y) hi lo = field x hi lo &&& field y hi lo := by
  simp only [field, BitVec.toNat_and, Nat.shiftRight_and_distrib, Nat.and_mod_two_pow]

/-! ### Samples (R11, R17) -/

theorem State.choice_lt (s : State) {n : Nat} (h : 0 < n) : s.choice n < n := by
  rw [State.choice, if_neg h.ne']
  exact Nat.mod_lt _ h

/-- The limit in force stands, or was set between 1,000 W and 2,200 W (R11). -/
theorem State.limitNow_cases (s : State) : s.limitNow = s.dev.powerLimit ∨ (1000 ≤ s.limitNow ∧ s.limitNow ≤ 2200) := by
  have bound := s.drawn.choice_lt (n := 1201) (by omega)
  rw [State.limitNow]
  split
  · exact .inl rfl
  · exact .inr (by omega)

/-- A pass over a list that updates the entry at each of its places updates each once. -/
theorem tgetD_foldl_zipIdx {α β : Type} (f : α → β → β) (d : β) (l : List α) (n : Nat) (t : Tab β) (p : Nat) :
    tgetD ((l.zipIdx n).foldl (fun t x => tput t x.2 (f x.1 (tgetD t x.2 d))) t) p d =
      if h : n ≤ p ∧ p - n < l.length then f (l[p - n]'h.2) (tgetD t p d) else tgetD t p d := by
  induction l generalizing n t with
  | nil => simp
  | cons a l ih =>
    rw [List.zipIdx_cons, List.foldl_cons, ih, tgetD_tput]
    rcases lt_trichotomy p n with h | rfl | h
    · rw [dif_neg (by omega), dif_neg (by omega), if_neg (by omega)]
    · simp
    · obtain ⟨k, rfl⟩ : ∃ k, p = n + 1 + k := ⟨p - (n + 1), by omega⟩
      have e : n + 1 + k - n = k + 1 := by omega
      simp [e, show ¬ n + 1 + k = n by omega, show n ≤ n + 1 + k by omega]

/-- So a pass updates the entry at a place the list has. -/
theorem tgetD_foldl_zipIdx_lt {α β : Type} (f : α → β → β) (d : β) (l : List α) (a : α) (t : Tab β) {p : Nat} (h : p < l.length) :
    tgetD (l.zipIdx.foldl (fun t x => tput t x.2 (f x.1 (tgetD t x.2 d))) t) p d = f (l.getD p a) (tgetD t p d) := by
  rw [tgetD_foldl_zipIdx, dif_pos ⟨Nat.zero_le p, h⟩, List.getD_eq_getElem _ _ h]
  rfl

/-- What a sample of the temperatures writes: the throttle steps of the partitions, the times at 110 °C, and a report where the coolant is short. -/
theorem exec_thermalSample (temps : List Nat) (inlet flow : Nat) (s : State) : ∃ t, exec (.thermalSample temps inlet flow) s = .next t ∧
    t.dev.thermSteps = (temps.take 16).zipIdx.foldl (fun t p => tput t p.2 (thermStep p.1 (tgetD t p.2 0))) s.dev.thermSteps ∧
    t.dev.hotTime = temps.zipIdx.foldl (fun t p => tput t p.2 (hotStep p.1 (tgetD t p.2 0))) s.dev.hotTime ∧
    (40 < inlet ∨ flow < 18 → .coolant ∈ t.dev.reports) := by
  refine ⟨_, rfl, ?_⟩
  split
  · exact ⟨rfl, rfl, fun _ => by simp⟩
  · next h => exact ⟨rfl, rfl, fun short => absurd short h⟩

/-! ### Freeze (R18, R22, R23) -/

theorem exec_thermalTrip_frozen {s : State} (h : s.dev.hot = true) (hf : bitAt s.dev.frzstat 31 = true) :
    exec .thermalTrip s = .next { s with dev := s.dev.tripped } := by
  change execThermalTrip s = _
  rw [execThermalTrip, h, hf]
  rfl

theorem exec_thermalTrip_running {s : State} (h : s.dev.hot = true) (hf : bitAt s.dev.frzstat 31 = false) :
    exec .thermalTrip s = .next (s.startFreeze 3) := by
  change execThermalTrip s = _
  rw [execThermalTrip, h, hf]
  rfl

theorem exec_freezeTrigger {periods : Nat} (h : 2 ≤ periods) (s : State) : exec (.freezeTrigger periods) s = .next (s.startFreeze 1) :=
  congrArg _ (if_pos h)

/-- The bits of FRZSTAT that a freeze writes (Table 1.5), whatever bits `z` stand in none of their places. -/
theorem frzOf_fields (src : Nat) {lag : Nat} (h : lag ≤ 64) {z : BitVec 32} (hs : field z 30 29 = 0) (hl : field z 15 0 = 0) :
    bitAt (frzOf src lag ||| z) 31 = true ∧ field (frzOf src lag ||| z) 30 29 = src % 4 ∧ field (frzOf src lag ||| z) 15 0 = lag := by
  have hv : (frzOf src lag).toNat = 2147483648 + src % 4 * 536870912 + lag := by
    simp only [frzOf, BitVec.toNat_ofNat]
    omega
  refine ⟨?_, ?_, ?_⟩
  · rw [bitAt_or, Bool.or_eq_true]
    refine .inl ?_
    rw [bitAt, BitVec.getLsbD, hv, Nat.testBit_eq_decide_div_mod_eq, decide_eq_true_eq]
    omega
  · rw [field_or, hs, Nat.or_zero, field, hv, Nat.shiftRight_eq_div_pow]
    omega
  · rw [field_or, hl, Nat.or_zero, field, hv, Nat.shiftRight_eq_div_pow]
    omega

/-- TRIPPED is in none of the fields that a freeze writes. -/
theorem tripped_fields (x : BitVec 32) : field (x &&& 0x10000000#32) 30 29 = 0 ∧ field (x &&& 0x10000000#32) 15 0 = 0 := by
  simp only [field_and, show field 0x10000000#32 30 29 = 0 by decide, show field 0x10000000#32 15 0 = 0 by decide, Nat.and_zero, and_self]

theorem Dev.tripped_bit (d : Dev) : bitAt d.tripped.frzstat 28 = true := by
  rw [Dev.tripped, bitAt_or, show bitAt 0x10000000#32 28 = true by decide, Bool.or_true]

/-- A trigger on a running device is noted with its source and cycle. -/
theorem State.startFreeze_running {s : State} (hf : bitAt s.dev.frzstat 31 = false) (hp : s.dev.freezePending = none) (hr : s.dev.resetSeq = none)
    (src : Nat) : s.startFreeze src = { s with dev := { s.dev with freezePending := some (src, s.now) } } := by
  simp only [State.startFreeze, hf, hp, hr]
  rfl

/-- The package's registers once the clocks have stopped, `lag` cycles after a trigger of source `src`. -/
def State.stopped (s : State) (src lag : Nat) : Dev :=
  let d : Dev := { s.dev with
    freezePending := none, resetSeq := none, dumpKey := s.draws, frzstat := frzOf src lag ||| (s.dev.frzstat &&& 0x10000000#32) }
  if src = 3 || s.dev.hot then d.tripped else d

theorem exec_clockStop {s : State} {src c lag : Nat} (h : s.dev.freezePending = some (src, c)) (h1 : 1 ≤ lag) (h2 : lag ≤ 64)
    (hc : s.dev.resetSeq = none → c + lag = s.now) : exec (.clockStop lag) s = .next { s.drawn with dev := s.stopped src lag } := by
  have due : ¬ (lag < 1 ∨ 64 < lag ∨ (s.dev.resetSeq.isNone ∧ c + lag ≠ s.now)) := by
    rintro (h | h | ⟨hr, hn⟩)
    · omega
    · omega
    · exact hn (hc (Option.isNone_iff_eq_none.mp hr))
  change execClockStop lag s = _
  simp only [execClockStop, h, if_neg due]
  rfl

theorem exec_clockStop_early {s : State} {src c lag : Nat} (h : s.dev.freezePending = some (src, c)) (hr : s.dev.resetSeq = none)
    (hc : c + lag ≠ s.now) : exec (.clockStop lag) s = .next s := by
  change execClockStop lag s = _
  simp only [execClockStop, h]
  exact if_pos (.inr (.inr ⟨Option.isNone_iff_eq_none.mpr hr, hc⟩))

theorem State.stopped_frzstat (s : State) (src : Nat) {lag : Nat} (h : lag ≤ 64) :
    bitAt (s.stopped src lag).frzstat 31 = true ∧ field (s.stopped src lag).frzstat 30 29 = src % 4 ∧ field (s.stopped src lag).frzstat 15 0 = lag := by
  obtain ⟨hs, hl⟩ := tripped_fields s.dev.frzstat
  unfold State.stopped
  dsimp only
  split
  · rw [Dev.tripped, BitVec.or_assoc]
    exact frzOf_fields src h (by rw [field_or, hs]; rfl) (by rw [field_or, hl]; rfl)
  · exact frzOf_fields src h hs hl

theorem State.stopped_tripped (s : State) {src : Nat} (lag : Nat) (h : src = 3 ∨ s.dev.hot = true) :
    (s.stopped src lag).railsOff = true ∧ bitAt (s.stopped src lag).frzstat 28 = true := by
  rw [State.stopped, if_pos (by simpa using h)]
  exact ⟨rfl, Dev.tripped_bit _⟩

/-! ### Reset (R14 to R16, R22) -/

/-- In a sequence of its own kind each reset event takes the next step of Table 1.3. -/
theorem exec_reset {s : State} {i : Instr} {n : Nat} (hi : (i, s.dev.warm) ∈ [(Instr.coldReset, false), (Instr.warmReset, true)])
    (hn : s.dev.resetSeq = some n) : exec i s = .next (s.resetStep n) := by
  simp only [List.mem_cons, Prod.mk.injEq, List.not_mem_nil, or_false] at hi
  obtain ⟨rfl, hw⟩ | ⟨rfl, hw⟩ := hi
  · change execColdReset s = _
    simp only [execColdReset, hn, hw]
  · change execWarmReset s = _
    simp only [execWarmReset, hn, hw]

theorem exec_coldReset_idle {s : State} (h : s.dev.resetSeq = none) : exec .coldReset s = .next { s with dev := { s.dev with
    pwrok := true, rstn := true, resetSeq := some 1, warm := false, clocksLocked := false, freezePending := none,
    frzstat := s.dev.frzstat &&& 0x10000000#32 } } := by
  change execColdReset s = _
  simp only [execColdReset, h]

theorem exec_resetRestart {s : State} {n : Nat} (h : s.dev.resetSeq = some n) : exec .resetRestart s =
    .next { s with dev := { s.dev with resetSeq := some (if s.dev.warm then 4 else 1), freezePending := none } } := by
  change execResetRestart s = _
  simp only [execResetRestart, h]

theorem exec_warmReset_idle {s : State} (h : s.dev.resetSeq = none) : exec .warmReset s = .next s.startWarm := by
  change execWarmReset s = _
  simp only [execWarmReset, h]

theorem State.startWarm_eq {s : State} (ho : s.dev.railsOff = false) (hr : s.dev.resetSeq = none ∨ s.dev.warm = true) :
    s.startWarm = { s with dev := { s.dev with resetSeq := some 4, warm := true, freezePending := none, frzstat := 0 } } := by
  rw [State.startWarm, if_neg]
  obtain hr | hr := hr <;> simp [ho, hr]

theorem State.startWarm_railsOff {s : State} (h : s.dev.railsOff = true) : s.startWarm = s := by
  rw [State.startWarm, if_pos]
  simp [h]

/-- A transaction's record that outlives a warm reset says so. -/
theorem Link.survived_of_mem_records {l : Link} {x : Txn} (h : x ∈ l.records) : x.survived = true := by
  simp only [Link.records, List.mem_map] at h
  obtain ⟨y, _, rfl⟩ := h
  rfl

theorem State.cleared_txns {s : State} {keep : Bool} {x : Txn} (h : x ∈ (s.cleared keep).link.txns) : keep = true ∧ x.survived = true := by
  cases keep with
  | true => exact ⟨rfl, Link.survived_of_mem_records h⟩
  | false => cases h

theorem State.cleared_mem (s : State) (keep : Bool) :
    (s.cleared keep).mem.cells = (if keep then s.mem.cells else []) ∧ (s.cleared keep).mem.poison = if keep then s.mem.poison else [] := by
  cases keep <;> exact ⟨rfl, rfl⟩

end Sys2Proof.Machine

open Sys2Proof Sys2Proof.Machine

/-- Settles O51, event by event; of the sequences of reset both kinds at once. Where the spec leaves it open, what an event does is the model's
choice (logs 3, 21 to 26, 78). -/
theorem packageEvents : Obligations.PackageEvents := by
  unfold Obligations.PackageEvents
  intro s
  refine ⟨fun watts => ?power, fun temps inlet flow => ?thermal, fun hot frozen => ?trip, fun hf hp hr => ⟨fun hot => ?heat, fun periods h => ?trigger⟩,
    fun src c lag hp h1 h2 hc => ?stop, fun src c lag hp hr hc => exec_clockStop_early hp hr hc, fun hr => ⟨?cold, fun ho => ?warm, fun ho => ?off⟩,
    fun i hi => ⟨fun n hn hs => ?step, fun hs => ?clear, fun hs => ⟨_, exec_reset hi hs, rfl, rfl⟩⟩, fun n hn => ?restart,
    ⟨_, rfl, rfl, rfl⟩, fun pins => ⟨_, rfl, rfl, rfl⟩, fun pins => ⟨_, rfl, rfl, rfl⟩, ⟨_, rfl, rfl⟩, fun a => ⟨_, rfl, rfl, rfl, rfl, rfl⟩,
    fun a => ⟨_, _, rfl, rfl, rfl, rfl, rfl, rfl, rfl⟩⟩
  case power =>
    refine ⟨_, rfl, rfl, s.limitNow_cases, ?_⟩
    split
    · rfl
    · exact Nat.le_of_lt_succ (State.choice_lt _ (Nat.succ_pos _))
  case thermal =>
    obtain ⟨t, ht, steps, times, report⟩ := exec_thermalSample temps inlet flow s
    refine ⟨t, ht, fun p h16 hp => ?_, fun p hp => ?_, report⟩
    · rw [steps, tgetD_foldl_zipIdx_lt thermStep 0 _ 0 _ (by simp; omega)]
      simp [thermStep, List.getD_eq_getElem?_getD, h16]
    · rw [times, tgetD_foldl_zipIdx_lt hotStep 0 _ 0 _ hp]
      rfl
  case trip => exact ⟨_, exec_thermalTrip_frozen hot frozen, s.dev.tripped_bit, rfl, rfl⟩
  case heat => exact ⟨_, exec_thermalTrip_running hot hf, by rw [State.startFreeze_running hf hp hr]⟩
  case trigger => exact ⟨_, exec_freezeTrigger h s, by rw [State.startFreeze_running hf hp hr]⟩
  case stop =>
    obtain ⟨frozen, source, lags⟩ := s.stopped_frzstat src h2
    exact ⟨_, exec_clockStop hp h1 h2 hc, frozen, source, lags, fun h => s.stopped_tripped lag h, rfl, rfl, rfl, rfl⟩
  case cold => exact ⟨_, exec_coldReset_idle hr, rfl, rfl, rfl⟩
  case warm =>
    rw [exec_warmReset_idle hr, State.startWarm_eq ho (.inl hr)]
    exact ⟨_, rfl, rfl, rfl, rfl, rfl⟩
  case off => rw [exec_warmReset_idle hr, State.startWarm_railsOff ho]
  case step =>
    simp only [List.mem_cons, List.not_mem_nil, or_false] at hn
    obtain rfl | rfl | rfl | rfl := hn <;> exact ⟨_, exec_reset hi hs, rfl, rfl, rfl⟩
  case clear =>
    obtain ⟨cells, poison⟩ := s.cleared_mem s.dev.warm
    exact ⟨_, exec_reset hi hs, rfl, rfl, rfl, rfl, rfl, rfl, cells, poison, rfl, rfl, rfl, fun x hx => State.cleared_txns hx⟩
  case restart => exact ⟨_, exec_resetRestart hn, rfl⟩
end

section
/-! SUPPORT. Management commands, register writes and the registers that keep what is written (R24, R58 to R62, R66, R71). -/

namespace Sys2Proof.Machine

/-! ### Commands (R24) -/

/-- A command met while BUSY is discarded. -/
theorem mgmtStep_busy {s : State} {v : Word} {vs : List Word} (h : s.dev.mgmtIn = v :: vs) (hb : bitAt s.dev.mgmtstat 31 = true)
    (f : State → Word → State) : mgmtStep s f = .next (s.mgmtTaken vs) := by
  rw [mgmtStep_eq h, if_pos hb]

/-- A command met while not BUSY has its effect. -/
theorem mgmtStep_taken {s : State} {v : Word} {vs : List Word} (h : s.dev.mgmtIn = v :: vs) (hb : bitAt s.dev.mgmtstat 31 = false)
    (f : State → Word → State) : mgmtStep s f = .next (f (s.mgmtTaken vs) v) := by
  rw [mgmtStep_eq h, if_neg (by simp [hb])]

theorem exec_freezeCmd (s : State) : exec .freezeCmd s = mgmtStep s fun s _ => (s.startFreeze 2).mgmtDone 0 := rfl
theorem exec_warmresetCmd (s : State) : exec .warmresetCmd s = mgmtStep s fun s _ => (s.mgmtDone 0).startWarm := rfl
theorem exec_contCmd (s : State) : exec .contCmd s = mgmtStep s fun s v => s.mgmtCont (field v 55 52) (field v 51 49) := rfl
theorem exec_malformedCommand (s : State) : exec .malformedCommand s = mgmtStep s fun s _ => s.mgmtDone 1 := rfl

theorem exec_command {i : Instr} (h : i ∈ [Instr.freezeCmd, .warmresetCmd, .contCmd, .malformedCommand]) (s : State) : ∃ f, exec i s = mgmtStep s f := by
  simp only [List.mem_cons, List.not_mem_nil, or_false] at h
  obtain rfl | rfl | rfl | rfl := h
  exacts [⟨_, exec_freezeCmd s⟩, ⟨_, exec_warmresetCmd s⟩, ⟨_, exec_contCmd s⟩, ⟨_, exec_malformedCommand s⟩]

theorem State.startWarm_coldSequence {s : State} {n : Nat} (hr : s.dev.resetSeq = some n) (hw : s.dev.warm = false) : s.startWarm = s := by
  rw [State.startWarm, if_pos]
  simp [hr, hw]

theorem State.mgmtCont_frozen {s : State} (h : bitAt s.dev.frzstat 31 = true) (part core : Nat) : s.mgmtCont part core = s.mgmtDone 3 := by
  rw [State.mgmtCont, if_pos h]

theorem State.mgmtCont_brk {s : State} {part core : Nat} {r : Region} (h : bitAt s.dev.frzstat 31 = false)
    (hr : tget s.regions (coreKey part core) = some r) (hb : r.run = .brk) :
    s.mgmtCont part core = (s.putRegion (coreKey part core) { r with run := .running }).mgmtDone 0 := by
  rw [State.mgmtCont, if_neg (by simp [h]), hr]
  exact if_pos hb

theorem State.mgmtCont_other {s : State} {part core : Nat} {r : Region} (h : bitAt s.dev.frzstat 31 = false)
    (hr : tget s.regions (coreKey part core) = some r) (hb : r.run ≠ .brk) : s.mgmtCont part core = s.mgmtDone 2 := by
  rw [State.mgmtCont, if_neg (by simp [h]), hr]
  exact if_neg hb

/-! ### Register writes (R58, R59) -/

theorem exec_registerWrite (s : State) : exec .registerWrite s = regStep s fun s a => s.regWrite a.off a.val := rfl
theorem exec_devnumWrite (s : State) : exec .devnumWrite s = regStep s fun s a => s.writeDevnum a.val.toNat := rfl
theorem exec_featenWrite (s : State) : exec .featenWrite s = regStep s fun s a => s.writeFeaten a.val.toNat := rfl
theorem exec_lqctlWrite (s : State) : exec .lqctlWrite s = regStep s fun s a => s.writeLqctl ((a.off - 0x2000) / 32) a.val := rfl
theorem exec_scqctlWrite (s : State) : exec .scqctlWrite s = regStep s fun s a => s.writeScqctl a.val := rfl

theorem exec_write {i : Instr} (h : i ∈ [Instr.registerWrite, .devnumWrite, .featenWrite, .lqctlWrite, .scqctlWrite]) (s : State) :
    ∃ f, exec i s = regStep s f := by
  simp only [List.mem_cons, List.not_mem_nil, or_false] at h
  obtain rfl | rfl | rfl | rfl | rfl := h
  exacts [⟨_, exec_registerWrite s⟩, ⟨_, exec_devnumWrite s⟩, ⟨_, exec_featenWrite s⟩, ⟨_, exec_lqctlWrite s⟩, ⟨_, exec_scqctlWrite s⟩]

/-- A write of another width is discarded, and counted where it came in a flit. -/
theorem regStep_discarded {s : State} {i : Nat} {a : RegAccess} (h : s.nextAccess i a) (hw : ¬ (regWidth a.off = a.width ∧ a.width ≠ 0))
    (f : State → RegAccess → State) : regStep s f = .next { s.regTaken i a with
      dev := { (s.regTaken i a).dev with herr := if a.fabric then min (s.dev.herr + 1) 4095 else s.dev.herr } } := by
  rw [regStep_eq h, if_neg hw, State.herrUp]
  cases a.fabric <;> rfl

theorem regStep_applied {s : State} {i : Nat} {a : RegAccess} (h : s.nextAccess i a) (hw : regWidth a.off = a.width) (h0 : a.width ≠ 0)
    (f : State → RegAccess → State) : regStep s f = .next (f (s.regTaken i a) a) := by
  rw [regStep_eq h, if_pos ⟨hw, h0⟩]

theorem State.regWrite_plain (s : State) {off : Nat} (v : Word) (h : off ∉ [0x0, 0xC, 0x80, 0x2808])
    (hq : ¬ (0x2000 ≤ off ∧ off < 0x2800 ∧ off % 32 = 8)) : s.regWrite off v = s.writePlain off v := by
  simp only [List.mem_cons, List.not_mem_nil, or_false, not_or] at h
  obtain ⟨h0, hc, h80, h2808⟩ := h
  rw [State.regWrite, if_neg h0, if_neg hc, if_neg h80, if_neg hq, if_neg h2808]

theorem State.writeDevnum_dev (s : State) (v : Nat) :
    (s.writeDevnum v).dev.devSet = true ∧ (s.writeDevnum v).dev.devNum = if s.dev.devSet then s.dev.devNum else v % 4096 := by
  cases h : s.dev.devSet <;> simp [State.writeDevnum, h]

theorem State.writeFeaten_featen (s : State) (v : Nat) :
    (s.writeFeaten v).dev.featen = if s.host.ctxs.isEmpty then BitVec.ofNat 32 v &&& Config.featav else s.dev.featen := by
  cases h : s.host.ctxs.isEmpty <;> simp only [State.writeFeaten, h] <;> rfl

theorem State.writeLqctl_queue (s : State) (q k : Nat) (v : Word) : (s.writeLqctl q v).host.queue k =
    if k = q then (s.host.queue q).writeCtl v lqMask s.cairn else s.host.queue k := by
  simp only [State.writeLqctl, Hosting.queue, tgetD_tput]

/-! ### LQCTL and SCQCTL (R66, R71) -/

theorem field_19_lt (v : Word) : field v 19 0 < 2 ^ 20 := Nat.mod_lt _ (by decide)

/-- What a write keeps of a stopped queue's LQCTL and what it writes there, but for EN. -/
def lqctlKept (old v mask : Word) : Word :=
  (old &&& ~~~(v &&& 0x6000000000000000#64) &&& 0x6000000000000000#64) ||| (v &&& mask &&& 0x1FFFFFFFFFFFFFFF#64)

theorem lqctlNext_stopped {old : Word} (h : bitAt old 63 = false) (v mask : Word) :
    lqctlNext old v mask = if bitAt v 63 ∧ field v 53 50 ≤ 10 then lqctlKept old v mask ||| 0x8000000000000000#64 else lqctlKept old v mask := by
  rw [lqctlNext, if_neg (by simp [h])]
  rfl

theorem bitAt_lqctlKept (old v mask : Word) : bitAt (lqctlKept old v mask) 63 = false := by
  simp only [lqctlKept, bitAt_or, bitAt_and, show bitAt 0x6000000000000000#64 63 = false by decide,
    show bitAt 0x1FFFFFFFFFFFFFFF#64 63 = false by decide, Bool.and_false, Bool.or_false]

/-- Both kinds of queue have the field that names the cairn. -/
theorem field_lqctlKept (old v : Word) {mask : Word} (hm : mask = lqMask ∨ mask = scqMask) : field (lqctlKept old v mask) 19 0 = field v 19 0 := by
  have cairn : field mask 19 0 = 2 ^ 20 - 1 := by obtain rfl | rfl := hm <;> decide
  simp only [lqctlKept, field_or, field_and, cairn, show field 0x6000000000000000#64 19 0 = 0 by decide,
    show field 0x1FFFFFFFFFFFFFFF#64 19 0 = 2 ^ 20 - 1 by decide, Nat.and_zero, Nat.zero_or, Nat.and_two_pow_sub_one_eq_mod, Nat.mod_mod]
  exact Nat.mod_eq_of_lt (field_19_lt v)

theorem bitAt_lqctlNext {old : Word} (h : bitAt old 63 = false) (v mask : Word) :
    bitAt (lqctlNext old v mask) 63 = true ↔ bitAt v 63 = true ∧ field v 53 50 ≤ 10 := by
  rw [lqctlNext_stopped h]
  split
  · next enabled => simp only [bitAt_or, show bitAt 0x8000000000000000#64 63 = true by decide, Bool.or_true, enabled, and_self]
  · next disabled => simp only [bitAt_lqctlKept, disabled, Bool.false_eq_true]

theorem field_lqctlNext {old : Word} (h : bitAt old 63 = false) (v : Word) {mask : Word} (hm : mask = lqMask ∨ mask = scqMask) :
    field (lqctlNext old v mask) 19 0 = field v 19 0 := by
  rw [lqctlNext_stopped h]
  split
  · rw [field_or, field_lqctlKept old v hm, show field 0x8000000000000000#64 19 0 = 0 by decide, Nat.or_zero]
  · exact field_lqctlKept old v hm

/-- A write of a stopped queue's control register: it enables the queue, at its origin, where EN is written 1 with a depth there is. -/
theorem LQueue.writeCtl_stopped {q : LQueue} (h : bitAt q.ctl 63 = false) (v : Word) {mask : Word} (hm : mask = lqMask ∨ mask = scqMask) (c : Cairns) :
    let n := q.writeCtl v mask c
    n.base = q.base ∧ (bitAt n.ctl 63 = true ↔ bitAt v 63 = true ∧ field v 53 50 ≤ 10) ∧
    (bitAt n.ctl 63 = true → n.head = 0 ∧ n.origin = some (c.val (field v 19 0)).toNat ∧ n.marks = [] ∧ field n.ctl 19 0 = field v 19 0) := by
  have en := bitAt_lqctlNext h v mask
  have cairn := field_lqctlNext h v hm
  rw [LQueue.writeCtl, h]
  dsimp only
  split
  · exact ⟨rfl, en, fun _ => ⟨rfl, by rw [cairn], rfl, cairn⟩⟩
  · next stays => exact ⟨rfl, en, fun enabled => absurd (by simpa using enabled) stays⟩

/-! ### Registers that keep what is written (R58) -/

/-- The bits of a value from place `k` on, in a register of 32 bits. -/
theorem ofNat_and_allOnes_shiftLeft (n k : Nat) : BitVec.ofNat 32 n &&& (BitVec.allOnes 32 <<< k) = BitVec.ofNat 32 (n / 2 ^ k * 2 ^ k) := by
  refine BitVec.eq_of_getLsbD_eq fun i hi => ?_
  simp only [BitVec.getLsbD_and, BitVec.getLsbD_ofNat, BitVec.getLsbD_shiftLeft, BitVec.getLsbD_allOnes, Nat.testBit_mul_two_pow,
    Nat.testBit_div_two_pow, hi, decide_true, Bool.true_and]
  by_cases hk : i < k
  · simp [hk]
  · simp [hk, show i - k < 32 by omega, show k ≤ i by omega]

theorem State.writePlain_hsel (s : State) (v : Word) : (s.writePlain 0x3800 v).dev.hsel = BitVec.ofNat 32 (v.toNat / 2 ^ 10 * 2 ^ 10) :=
  ofNat_and_allOnes_shiftLeft v.toNat 10

theorem State.writePlain_dsel (s : State) (v : Word) : (s.writePlain 0x3900 v).dev.dsel = BitVec.ofNat 32 (v.toNat / 2 ^ 18 * 2 ^ 18) :=
  ofNat_and_allOnes_shiftLeft v.toNat 18

/-- LFAULT is cleared by writing it 1 (Table 2.4). -/
theorem State.writePlain_lfault (s : State) (v : Word) {p : Nat} (h : p < 36) :
    ((s.writePlain (0x1000 + 16 * p) v).link.port p).lfault = ((s.link.port p).lfault && !bitAt v 29) := by
  have place : (0x1000 + 16 * p - 0x1000) / 16 = p := by omega
  rw [State.writePlain, if_neg (by omega), if_pos (by omega), place]
  cases hb : bitAt v 29 <;> simp

/-- LQBASE is fixed while EN is 1 (R66). -/
theorem State.writePlain_base (s : State) (v : Word) {q : Nat} (h : q < 64) : ((s.writePlain (0x2000 + 32 * q) v).host.queue q).base =
    if bitAt (s.host.queue q).ctl 63 then (s.host.queue q).base else (v &&& 0xFFFFFFFFC0#64).toNat := by
  have place : (0x2000 + 32 * q - 0x2000) / 32 = q := by omega
  rw [State.writePlain, if_neg (by omega), if_neg (by omega), if_neg (by omega), if_pos (by omega), place]
  simp only [Hosting.queue, tgetD_tput, if_true, LQueue.writeBase]
  exact apply_ite LQueue.base ..

end Sys2Proof.Machine

open Sys2Proof Sys2Proof.Machine

/-- Settles O52, command by command and register by register; that WARMRESET leaves a cold sequence as it is is the model's choice (log 25). -/
theorem managementEvents : Obligations.ManagementEvents := by
  unfold Obligations.ManagementEvents
  refine ⟨?commands, ?writes, fun q v mask c hm h => LQueue.writeCtl_stopped h v hm c, fun s v => ⟨rfl, s.writePlain_hsel v, s.writePlain_dsel v, rfl, rfl, rfl,
    fun p hp => s.writePlain_lfault v hp, fun q hq => s.writePlain_base v hq⟩⟩
  case commands =>
    rintro s s1 v vs hv rfl
    refine ⟨fun hb i hi => ?busy, fun hb => ⟨fun hf hp hr => ?freeze, fun ho hr => ?warm, fun n hr hw => ?cold,
      fun r hf hr => ⟨fun hk => ?brk, fun hk => ?other⟩, fun hf => ?frozen,
      _, (exec_malformedCommand s).trans (mgmtStep_taken hv hb _), rfl, rfl⟩⟩
    case busy =>
      obtain ⟨f, hf⟩ := exec_command hi s
      exact hf.trans (mgmtStep_busy hv hb f)
    case freeze =>
      refine ⟨_, (exec_freezeCmd s).trans (mgmtStep_taken hv hb _), ?_⟩
      rw [State.startFreeze_running (s := s.mgmtTaken vs) hf hp hr]
      exact ⟨rfl, rfl⟩
    case warm =>
      refine ⟨_, (exec_warmresetCmd s).trans (mgmtStep_taken hv hb _), ?_⟩
      rw [State.startWarm_eq (s := (s.mgmtTaken vs).mgmtDone 0) ho hr]
      exact ⟨rfl, rfl, rfl⟩
    case cold =>
      refine ⟨_, (exec_warmresetCmd s).trans (mgmtStep_taken hv hb _), ?_⟩
      rw [State.startWarm_coldSequence (s := (s.mgmtTaken vs).mgmtDone 0) hr hw]
      exact ⟨hr, hw⟩
    case brk =>
      refine ⟨_, (exec_contCmd s).trans (mgmtStep_taken hv hb _), ?_⟩
      rw [State.mgmtCont_brk (s := s.mgmtTaken vs) hf hr hk]
      exact ⟨rfl, tget_tput_self ..⟩
    case other =>
      refine ⟨_, (exec_contCmd s).trans (mgmtStep_taken hv hb _), ?_⟩
      rw [State.mgmtCont_other (s := s.mgmtTaken vs) hf hr hk]
      exact ⟨rfl, rfl⟩
    case frozen =>
      refine ⟨_, (exec_contCmd s).trans (mgmtStep_taken hv hb _), ?_⟩
      rw [State.mgmtCont_frozen (s := s.mgmtTaken vs) hf]
      exact ⟨rfl, rfl⟩
  case writes =>
    rintro s s1 i a ha rfl
    refine ⟨fun hw k hk => ?discarded, fun hw h0 => ⟨(exec_registerWrite s).trans (regStep_applied ha hw h0 _), fun ho hq => State.regWrite_plain _ _ ho hq,
      ⟨_, (exec_devnumWrite s).trans (regStep_applied ha hw h0 _), State.writeDevnum_dev ..⟩,
      ⟨_, (exec_featenWrite s).trans (regStep_applied ha hw h0 _), State.writeFeaten_featen ..⟩,
      ⟨_, (exec_lqctlWrite s).trans (regStep_applied ha hw h0 _), ?queue, fun k hk => ?others⟩,
      _, (exec_scqctlWrite s).trans (regStep_applied ha hw h0 _), rfl, rfl⟩⟩
    case discarded =>
      obtain ⟨f, hf⟩ := exec_write hk s
      exact hf.trans (regStep_discarded ha hw f)
    case queue => exact (State.writeLqctl_queue ..).trans (if_pos rfl)
    case others => exact (State.writeLqctl_queue ..).trans (if_neg hk)
end

section
/-! SUPPORT. What stands open as a turn: the management value, the system command and the received flits that stand first (R24, R31, R71). -/

namespace Sys2Proof.Machine

/-- The turns of the package stand open in a freeze and in reset too. -/
theorem State.packageTurns_subset_enabled (s : State) : s.packageTurns ⊆ s.enabled := List.subset_append_left ..

/-- While the clocks run those of the host and of the links do. -/
theorem State.mem_enabled_of_clocked {s : State} {t : Turn} (h : s.clocked = true) (ht : t ∈ s.hostTurns ∨ t ∈ s.linkTurns) : t ∈ s.enabled := by
  simp only [State.enabled, h, if_true, List.mem_append]
  obtain host | link := ht
  · exact .inr (.inl (.inl (.inl (.inl host))))
  · exact .inr (.inl (.inl (.inr link)))

theorem State.mgmt_mem_packageTurns {s : State} {v : Word} {vs : List Word} (h : s.dev.mgmtIn = v :: vs) :
    Turn.event (Decode.mgmt v) ∈ s.packageTurns := by
  simp only [State.packageTurns, h, List.mem_append, List.mem_singleton, true_or, or_true]

theorem State.command_mem_hostTurns {s : State} {c : SysCmd} {a : Nat} {i : Instr} (h : s.host.cmd = some (c, a)) (hi : Decode.command c = .ok i) :
    Turn.event i ∈ s.hostTurns := by
  simp only [State.hostTurns, h, hi, List.mem_append, List.mem_singleton, true_or, or_true]

/-- The first flit from the wires and those of the receive buffer stand open as the step of their type. -/
theorem State.flitStep_mem_linkTurns {s : State} {f : Flit} {i : Instr} (h : s.link.rx.head? = some f ∨ ∃ k ∈ s.link.held, k.flit = f)
    (hi : Decode.flitStep f = .ok i) : Turn.event i ∈ s.linkTurns := by
  have waits : f ∈ s.link.rx.take 1 ++ s.link.held.map fun k => k.flit := by
    obtain first | held := h
    · obtain ⟨rest, hr⟩ := List.head?_eq_some_iff.mp first
      simp [hr]
    · exact List.mem_append_right _ (List.mem_map.mpr held)
  simp only [State.linkTurns, List.mem_append]
  iterate 6 left
  exact List.mem_map.mpr ⟨f, waits, by rw [hi]⟩

end Sys2Proof.Machine

open Sys2Proof Sys2Proof.Machine

/-- Settles O5: a posted event is the turn of a step; a value, a command or a flit that waits is among the turns of its unit. -/
theorem stepRunsDecodedMessage : Obligations.StepRunsDecodedMessage := by
  unfold Obligations.StepRunsDecodedMessage
  exact ⟨fun s ts i h => step_event h,
    fun s c a i hc h hi => State.mem_enabled_of_clocked hc (.inl (State.command_mem_hostTurns h hi)),
    fun s f i hc h hi => State.mem_enabled_of_clocked hc (.inr (State.flitStep_mem_linkTurns h hi)),
    fun s v vs h => s.packageTurns_subset_enabled (State.mgmt_mem_packageTurns h)⟩
end

section
/-! SUPPORT. Received flits: what the end of a flit's service and the time that it carries leave unchanged (R40, R191). -/

namespace Sys2Proof.Machine

/-! ### How a service ends -/

/-- A flit that is served whole is served; one that cannot be served yet stands in the receive buffer. -/
theorem recvFlit_some {s s1 s2 : State} {f : Flit} {typ op : Nat} {g : State → Flit → Option State} (h : s.delivers s1 f typ op)
    (hg : g s1 f = some s2) : recvFlit typ op s g = .next (s2.served s1 f) := by
  rw [recvFlit_eq h, hg]

theorem recvFlit_none {s s1 : State} {f : Flit} {typ op : Nat} {g : State → Flit → Option State} (h : s.delivers s1 f typ op)
    (hg : g s1 f = none) : recvFlit typ op s g = .next (s1.keeps f) := by
  rw [recvFlit_eq h, hg]

theorem recvHeld_done {s s1 s2 : State} {f : Flit} {typ op : Nat} {g : State → HeldFlit → Served} (h : s.delivers s1 f typ op)
    (hg : g s1 (HeldFlit.fresh f (s1.poolPlace f)) = .done s2) : recvHeld typ op s g = .next (s2.served s1 f) := by
  rw [recvHeld_eq h, hg]

theorem recvHeld_held {s s1 s2 : State} {f : Flit} {typ op : Nat} {g : State → HeldFlit → Served} (h : s.delivers s1 f typ op)
    (hg : g s1 (HeldFlit.fresh f (s1.poolPlace f)) = .held s2) : recvHeld typ op s g = .next s2 := by
  rw [recvHeld_eq h, hg]

/-- A flit of which one beat is served stands in the receive buffer with what was done. -/
theorem recvHeld_part {s s1 s2 : State} {f : Flit} {k : HeldFlit} {typ op : Nat} {g : State → HeldFlit → Served} (h : s.delivers s1 f typ op)
    (hg : g s1 (HeldFlit.fresh f (s1.poolPlace f)) = .part s2 k) :
    recvHeld typ op s g = .next { s2 with link := { s2.link with held := s2.link.held ++ [k] } } := by
  rw [recvHeld_eq h, hg]

/-! ### Ports -/

theorem Link.port_putPort_eq (l : Link) (k j : Nat) (p : PortSt) : (l.putPort k p).port j = if j = k then p else l.port j := by
  rw [Link.port, Link.putPort, tgetD_tput]
  rfl

/-- A field of every port stands where one port is put back with that field as it was. -/
theorem Link.port_putPort_field {α : Type} (g : PortSt → α) {l : Link} {k : Nat} {p : PortSt} (h : g p = g (l.port k)) (j : Nat) :
    g ((l.putPort k p).port j) = g (l.port j) := by
  rw [Link.port_putPort_eq]
  split
  · next e => rw [h, e]
  · rfl

/-! ### A place of the pool that is free again -/

@[simp] theorem State.owe_mem (s : State) (port vch : Nat) (pool : Bool) : (s.owe port vch pool).mem = s.mem := by cases pool <;> rfl
@[simp] theorem State.owe_cairn (s : State) (port vch : Nat) (pool : Bool) : (s.owe port vch pool).cairn = s.cairn := by cases pool <;> rfl
@[simp] theorem State.owe_reqs (s : State) (port vch : Nat) (pool : Bool) : (s.owe port vch pool).link.reqs = s.link.reqs := by cases pool <;> rfl
@[simp] theorem State.owe_targets (s : State) (port vch : Nat) (pool : Bool) : (s.owe port vch pool).link.targets = s.link.targets := by
  cases pool <;> rfl

@[simp] theorem State.owe_classes (s : State) (port vch : Nat) (pool : Bool) (j : Nat) :
    ((s.owe port vch pool).link.port j).classes = (s.link.port j).classes := by
  cases pool
  · rfl
  · rw [State.owe, if_pos rfl]
    exact Link.port_putPort_field PortSt.classes (by rfl) j

@[simp] theorem State.owe_norsv (s : State) (port vch : Nat) (pool : Bool) (j : Nat) :
    ((s.owe port vch pool).link.port j).norsv = (s.link.port j).norsv := by
  cases pool
  · rfl
  · rw [State.owe, if_pos rfl]
    exact Link.port_putPort_field PortSt.norsv (by rfl) j

@[simp] theorem State.served_mem (s s1 : State) (f : Flit) : (s.served s1 f).mem = s.mem := State.owe_mem ..
@[simp] theorem State.served_cairn (s s1 : State) (f : Flit) : (s.served s1 f).cairn = s.cairn := State.owe_cairn ..
@[simp] theorem State.served_reqs (s s1 : State) (f : Flit) : (s.served s1 f).link.reqs = s.link.reqs := State.owe_reqs ..
@[simp] theorem State.served_targets (s s1 : State) (f : Flit) : (s.served s1 f).link.targets = s.link.targets := State.owe_targets ..
@[simp] theorem State.served_classes (s s1 : State) (f : Flit) (j : Nat) : ((s.served s1 f).link.port j).classes = (s.link.port j).classes :=
  State.owe_classes ..
@[simp] theorem State.served_norsv (s s1 : State) (f : Flit) (j : Nat) : ((s.served s1 f).link.port j).norsv = (s.link.port j).norsv :=
  State.owe_norsv ..

/-! ### The time that a flit carries -/

theorem State.target_seeTime (s : State) (ts ctx a : Nat) : (s.seeTime ts).target ctx a = s.target ctx a := rfl
theorem State.homeOf_seeTime (s : State) (ts ctx a : Nat) : (s.seeTime ts).homeOf ctx a = s.homeOf ctx a := rfl

end Sys2Proof.Machine
end

section
/-! SUPPORT. Ports, routes, classes, retries and page moves: what each event does, and when it leaves the machine as it is (R28 to R46, R55 to R57). -/

namespace Sys2Proof.Machine

/-! ### Training (R28) -/

/-- A port after training, on the halves that trained. -/
def PortSt.trained (p : PortSt) (lo hi : Bool) (now : Nat) : PortSt :=
  { p with
    up := lo || hi
    degr := lo != hi
    nextSeq := 0
    expect := 0
    acked := 0
    buffer := []
    inPool := []
    pool := poolFull
    owed := [0, 0, 0]
    replays := 0
    lastGood := now
    lastSent := now }

theorem exec_portTrained {port : Nat} (h : port < 36) (lo hi : Bool) (s : State) : exec (.portTrained port lo hi) s =
    .next { s with link := s.link.putPort port ((s.link.port port).trained lo hi s.now) } := by
  change execPortTrained port lo hi s = _
  exact if_pos h

/-! ### Link faults (R34, R35) -/

theorem exec_linkFault {port : Nat} (h : port < 36) (cause : LinkCause) (s : State) : exec (.linkFault port cause) s = .next (s.linkFault port) :=
  congrArg Host.Outcome.next (if_pos h)

/-- A port once its link has failed. -/
def PortSt.failed (p : PortSt) : PortSt :=
  { p with
    up := false
    lfault := true
    classes := []
    buffer := []
    tokens := []
    inPool := []
    waiting := []
    replayAsked := false }

/-- The machine once a port has failed and is reported, before what was on its way over it has its outcomes. -/
def State.linkDown (s : State) (port : Nat) : State :=
  State.report { s with link := { s.link.putPort port (s.link.port port).failed with
    rx := s.link.rx.filter fun f => decide (f.port ≠ port)
    held := s.link.held.filter fun h => decide (h.flit.port ≠ port)
    avoid := ninsert s.link.avoid port } } (.linkFault port)

/-- Without an engine no CRED has a member behind the port. -/
theorem State.credsCaught_of_no_engines {s : State} (h : ∀ e ∈ s.regions, e.2.engines = []) (port : Nat) : s.credsCaught port = s := by
  refine List.foldlRecOn (motive := fun t => t = s) _ _ rfl fun t ht e he => ?_
  rw [h e he, List.foldl_nil, ht]

/-- Where nothing is on its way a link fault does no more. -/
theorem State.linkFault_quiet {s : State} (hq : s.link.reqs = []) (ht : s.link.txns = []) (he : ∀ e ∈ s.regions, e.2.engines = []) (port : Nat) :
    s.linkFault port = s.linkDown port := by
  have reqs : (s.linkDown port).link.reqs = [] := hq
  have txns : (s.linkDown port).link.txns = [] := ht
  have creds : (s.linkDown port).credsCaught port = s.linkDown port := State.credsCaught_of_no_engines (s := s.linkDown port) he port
  change State.credsCaught (List.foldl _ (List.foldl _ (s.linkDown port) (List.filter _ (s.linkDown port).link.reqs))
    (List.filter _ (List.foldl _ (s.linkDown port) (List.filter _ (s.linkDown port).link.reqs)).link.txns)) port = _
  simp only [reqs, txns, List.filter_nil, List.foldl_nil, creds]

/-! ### Routes (R39) -/

/-- A route table without a port in one entry. -/
def routesWithout (routes : Tab (List Nat)) (k port : Nat) : Tab (List Nat) :=
  if (tgetD routes k []).contains port then tput routes k ((tgetD routes k []).filter fun x => decide (x ≠ port)) else routes

theorem tgetD_routesWithout_ne (routes : Tab (List Nat)) (port : Nat) {k j : Nat} (h : j ≠ k) :
    tgetD (routesWithout routes k port) j [] = tgetD routes j [] := by
  rw [routesWithout]
  split
  · rw [tgetD_tput, if_neg h]
  · rfl

theorem not_mem_routesWithout (routes : Tab (List Nat)) (k port : Nat) : port ∉ tgetD (routesWithout routes k port) k [] := by
  rw [routesWithout]
  split
  · rw [tgetD_tput, if_pos rfl]
    simp
  · next h => simpa using h

/-- The ports held back once a port has left an entry: it no more, where no entry of its M-die lists it. -/
def avoidAfter (avoid : List Nat) (routes : Tab (List Nat)) (mdie port : Nat) : List Nat :=
  if routes.any fun e => decide (e.1 / 4096 = mdie) && e.2.contains port then avoid else avoid.filter fun x => decide (x ≠ mdie * 9 + port)

theorem avoidAfter_subset (avoid : List Nat) (routes : Tab (List Nat)) (mdie port : Nat) : avoidAfter avoid routes mdie port ⊆ avoid := by
  rw [avoidAfter]
  split
  · exact List.Subset.refl _
  · exact fun k hk => List.mem_of_mem_filter hk

section
variable {s : State} {mdie dev port : Nat}

/-- Once no request holds it a failed port leaves its entry. -/
theorem exec_routeRehash (ha : s.link.avoid.contains (mdie * 9 + port) = true) (hq : (s.link.reqs.any (s.holdsPort mdie dev port)) = false) :
    exec (.routeRehash mdie dev port) s = .next { s with link := { s.link with
      routes := routesWithout s.link.routes (mdie * 4096 + dev) port
      avoid := avoidAfter s.link.avoid (routesWithout s.link.routes (mdie * 4096 + dev) port) mdie port } } := by
  change execRouteRehash mdie dev port s = _
  simp only [execRouteRehash, ha, hq, Bool.not_true, Bool.or_self, Bool.false_eq_true, if_false]
  rfl

/-- A request that went out by it, or was reissued from it, holds it. -/
theorem State.holdsPort_of_port {q : Req} (ht : q.typ ≠ 15) (hp : q.port = mdie * 9 + port ∨ q.lost = some (mdie * 9 + port)) :
    s.holdsPort mdie dev port q = true := by
  simp only [State.holdsPort, decide_eq_true ht, decide_eq_true hp, Bool.true_or, Bool.and_self]

theorem exec_routeRehash_held (h : (s.link.reqs.any (s.holdsPort mdie dev port)) = true) : exec (.routeRehash mdie dev port) s = .next s := by
  change execRouteRehash mdie dev port s = _
  simp only [execRouteRehash, h, Bool.or_true, if_true]

end

/-! ### Idle links and classes (R33, R40, R41) -/

theorem exec_idleNullTimer {s : State} {port : Nat} (h : (s.link.port port).up = true) : exec (.idleNullTimer port) s = .next (s.sendNull port) :=
  congrArg Host.Outcome.next (if_pos h)

/-- A link control flit has no class. -/
theorem State.putRaw_classes {typ : Nat} (h : Decode.typeVch typ = 3) (s : State) (port ddev sdev ctx : Nat) (body : List Byte) (pool : Bool) (j : Nat) :
    ((s.putRaw port typ ddev sdev ctx body pool).link.port j).classes = (s.link.port j).classes := by
  simp only [State.putRaw, h]
  exact Link.port_putPort_field PortSt.classes (by rfl) j

theorem State.putFlit_classes {typ : Nat} (h : Decode.typeVch typ = 3) (s : State) (port ddev ctx : Nat) (body : List Byte) (j : Nat) :
    ((s.putFlit port typ ddev ctx body).link.port j).classes = (s.link.port j).classes := by
  have later : ((s.link.putPort port { s.link.port port with waiting := (s.link.port port).waiting ++ [⟨typ, ddev, ctx, body⟩] }).port j).classes =
      (s.link.port j).classes := Link.port_putPort_field PortSt.classes (by rfl) j
  rw [State.putFlit]
  split
  · rfl
  · split
    · exact later
    · simp only [State.trySend, h, if_true]
      cases ((s.link.port port).room s.ownNum ctx 3) with
      | none => exact later
      | some pool => exact State.putRaw_classes h ..

/-- An entry that has had no flit for 64 µs, and has none in the buffers, is freed. -/
theorem exec_classReleaseTimer {s : State} {port sdev ctx : Nat} (hi : (s.link.port port).idleClass sdev ctx s.now = true)
    (hb : s.classBusy port sdev ctx = false) : exec (.classReleaseTimer port sdev ctx) s =
    .next (let s1 : State := { s with link := s.link.putPort port ((s.link.port port).freeClass sdev ctx) }
      if sdev = s.ownNum then s1.putFlit port 9 0xFFF ctx (classBody 2 ctx) else s1) := by
  change execClassReleaseTimer port sdev ctx s = _
  simp only [execClassReleaseTimer, hi, hb, Bool.not_true, Bool.or_self, Bool.false_eq_true, if_false]

/-! ### Retries (R46) -/

theorem exec_waitRetryTimer {s s1 : State} {tag : Nat} {q : Req}
    (hq : (s.link.reqs.find? fun q => decide (q.tag = tag ∧ q.typ ≠ 5 ∧ q.typ ≠ 15) && q.retry) = some q)
    (hs : s.send q.dev q.addr q.typ q.ctx q.body = .ok s1) : exec (.waitRetryTimer tag) s = .next { s1 with link := { s1.link with
      reqs := s1.link.reqs.map fun r => if r = q then { r with retry := false, port := (s.routePort q.dev q.addr).getD q.port } else r } } := by
  change execWaitRetryTimer tag s = _
  simp only [execWaitRetryTimer, hq, hs]

/-! ### Page moves (R55 to R57) -/

/-- The global address that a page moves to in another device: a free frame of its main memory. -/
def State.movedTo (s : State) (dev : Nat) : Nat := dev * 2 ^ 40 + Config.frame s.draws % (Config.memBytes / 65536) * 65536

theorem State.movedTo_frame (s : State) (dev : Nat) : s.movedTo dev / 2 ^ 40 = dev ∧ s.movedTo dev % 65536 = 0 := by
  have room := Nat.mod_lt (Config.frame s.draws) (y := Config.memBytes / 65536) (by decide)
  rw [State.movedTo]
  generalize Config.frame s.draws % (Config.memBytes / 65536) = n at room ⊢
  rw [Config.memBytes] at room
  omega

/-- The machine once a page is forwarded to its new home, before the leaves that map it follow. -/
def State.forwarded (s : State) (frame dev : Nat) : State :=
  let f := s.mem.frame (frame * 65536)
  { s with draws := s.draws + 1, mem := s.mem.putFrame (frame * 65536) { f with fwd := some (s.movedTo dev), moves := f.moves + 1 } }

/-- The leaves of every context follow; none where no frame is left for a table. -/
def State.remapped (s : State) (frame dev : Nat) : Option State :=
  s.host.ctxs.foldl (fun (o : Option State) e => o.bind fun s' => s'.remap e.1 (s.dev.devNum * 2 ^ 40 + frame * 65536) (s.movedTo dev))
    (some (s.forwarded frame dev))

section
variable {s : State} {frame dev : Nat} (ha : frame * 65536 < Config.memBytes) (hd : s.dev.devSet = true) (hn : dev ≠ s.dev.devNum) (hr : dev < 0xFFF)
  (hf : (s.mem.frame (frame * 65536)).fwd = none) (hs : s.frameStaged (frame * 65536) = false) (ho : s.openBuffer (frame * 65536) = false)
  (hz : (s.mem.frame (frame * 65536)).frozen = false)
include ha hd hn hr hf hs ho hz

/-- A page that may move does so, unless it has moved three times in the phase: then it is frozen. -/
theorem exec_pageMove : exec (.pageMove frame dev) s = .next (
    if 3 ≤ (s.mem.frame (frame * 65536)).moves then
      { s with mem := s.mem.putFrame (frame * 65536) { s.mem.frame (frame * 65536) with frozen := true } }
    else ((s.remapped frame dev).map fun s2 => s2.pgmigUp (homeDie (frame * 65536)) true).getD s) := by
  have here : ¬ (Config.memBytes ≤ frame * 65536 ∨ s.dev.devSet = false ∨ 0xFFF ≤ dev) := by
    rintro (h | h | h)
    · omega
    · exact absurd (hd.symm.trans h) (by decide)
    · omega
  have free : ¬ ((s.mem.frame (frame * 65536)).fwd.isSome = true ∨ s.frameStaged (frame * 65536) = true ∨ s.openBuffer (frame * 65536) = true ∨
      (s.mem.frame (frame * 65536)).frozen = true) := by simp [hf, hs, ho, hz]
  change execPageMove frame dev s = _
  rw [execPageMove, if_neg here, if_neg hn, if_neg free]
  split
  · rfl
  · change (match s.remapped frame dev with | some s2 => _ | none => _) = _
    cases s.remapped frame dev <;> rfl

end

/-- The two counts of PGMIG (Table 2.7). -/
theorem pgmig_fields {hi lo : Nat} (h : hi ≤ 65535) (l : lo ≤ 65535) :
    field (BitVec.ofNat 32 (hi * 65536 + lo)) 31 16 = hi ∧ field (BitVec.ofNat 32 (hi * 65536 + lo)) 15 0 = lo := by
  simp only [field, BitVec.toNat_ofNat, Nat.shiftRight_eq_div_pow]
  omega

theorem field_le_65535 (x : BitVec 32) : field x 31 16 ≤ 65535 ∧ field x 15 0 ≤ 65535 :=
  ⟨Nat.le_of_lt_succ (Nat.mod_lt _ (by decide)), Nat.le_of_lt_succ (Nat.mod_lt _ (by decide))⟩

theorem State.pgmigUp_fields (s : State) (m : Nat) (move : Bool) : let r := tgetD s.dev.pgmig m 0
    let r' := tgetD (s.pgmigUp m move).dev.pgmig m 0
    field r' 31 16 = (if move then min 65535 (field r 31 16 + 1) else field r 31 16) ∧
    field r' 15 0 = if move then field r 15 0 else min 65535 (field r 15 0 + 1) := by
  intro r r'
  obtain ⟨moves, frozen⟩ := field_le_65535 r
  have counts : r' = BitVec.ofNat 32 ((if move then min 65535 (field r 31 16 + 1) else field r 31 16) * 65536 +
      if move then field r 15 0 else min 65535 (field r 15 0 + 1)) := by
    simp only [r', State.pgmigUp, tgetD_tput, if_true]
    rfl
  rw [counts]
  refine pgmig_fields ?_ ?_
  · split <;> omega
  · split <;> omega

end Sys2Proof.Machine

open Sys2Proof Sys2Proof.Machine

/-- Settles O53, event by event. Where sequence numbers stand after training (log 28), what a link fault does to requests on their way (log 30), how a page
move comes about and where the page lands (log 31), and that an event whose condition does not hold changes nothing (log 78), is the model's choice. -/
theorem linkEvents : Obligations.LinkEvents := by
  unfold Obligations.LinkEvents
  intro s
  refine ⟨fun port lo hi hp => ⟨_, exec_portTrained hp lo hi s, ?up, ?degr, fun p hne => Link.port_putPort_ne _ _ _ _ hne⟩,
    fun port cause hp => exec_linkFault hp cause s, fun port hq ht he => ?quiet, fun q hq => ?load, fun q hq => ?unknown,
    ?rehash, fun mdie dev port q hq ht hp => exec_routeRehash_held (List.any_eq_true.mpr ⟨q, hq, State.holdsPort_of_port ht hp⟩),
    fun port hu => exec_idleNullTimer hu, fun port sdev ctx hi hb => ⟨_, exec_classReleaseTimer hi hb, ?released⟩,
    fun tag q s1 hq hs => ⟨_, exec_waitRetryTimer hq hs, rfl, _, rfl⟩, ?page, fun m move _ => s.pgmigUp_fields m move⟩
  case up => rw [Link.port_putPort]; rfl
  case degr => rw [Link.port_putPort]; rfl
  case quiet =>
    rw [State.linkFault_quiet hq ht he]
    have self : (s.linkDown port).link.port port = (s.link.port port).failed := Link.port_putPort ..
    intro t
    rw [self]
    refine ⟨rfl, rfl, rfl, rfl, fun f hf => ?rx, fun k hk => ?held, ?reported, (mem_ninsert ..).mpr (.inl rfl), fun p hp => Link.port_putPort_ne _ _ _ _ hp⟩
    case rx => simpa using (List.mem_filter.mp hf).2
    case held => simpa using (List.mem_filter.mp hk).2
    case reported => exact List.mem_append_right _ (List.mem_singleton.mpr rfl)
  case load => simp only [Req.caught, hq]
  case unknown => obtain hq | hq := hq <;> simp only [Req.caught, hq]
  case rehash =>
    intro mdie dev port p ha hq
    exact ⟨_, exec_routeRehash ha hq, not_mem_routesWithout _ _ _, fun k hk => tgetD_routesWithout_ne _ _ hk, fun k hk => avoidAfter_subset _ _ _ _ hk⟩
  case released =>
    split
    · rw [State.putFlit_classes rfl, Link.port_putPort]
      rfl
    · rw [Link.port_putPort]
      rfl
  case page =>
    intro frame dev a f ha hd hn hr hf hs ho hz
    have move := exec_pageMove ha hd hn hr hf hs ho hz
    obtain ⟨home, aligned⟩ := s.movedTo_frame dev
    refine ⟨fun hm => ⟨s.movedTo dev, home, aligned, fun s2 h2 => ?moves, fun h2 => ?noFrame⟩, fun hm => ?frozen⟩
    case moves =>
      have follow : s.remapped frame dev = some s2 := h2
      rw [move, if_neg (Nat.not_le.mpr hm), follow]
      rfl
    case noFrame =>
      have follow : s.remapped frame dev = none := h2
      rw [move, if_neg (Nat.not_le.mpr hm), follow]
      rfl
    case frozen =>
      rw [if_pos hm] at move
      refine ⟨_, move, ?_, ?_, rfl⟩
      · rw [Mem.frame_putFrame]
      · rw [Mem.frame_putFrame]
        exact hf
end

section
/-! SUPPORT. Received flits: those that the link or the device does not take, and what each type does at this device (R31 to R33, R45, R46, R195, R223). -/

namespace Sys2Proof.Machine

/-! ### Flits that are not taken (R31, R33, R60) -/

/-- The steps that receive flits, with the type and the OP (0 for any) that each takes (Tables 2.2, 2.8 to 2.12). -/
def receivers : List (Instr × Nat × Nat) :=
  [(.nullFlit, 0, 0), (.rdreq, 1, 0), (.wrreq, 2, 0), (.rdrsp, 3, 0), (.wrack, 4, 0), (.tokenFlit, 5, 0), (.cairnAdd, 6, 1), (.cairnWait, 6, 2),
    (.cairnRead, 6, 3), (.xstage, 7, 0), (.prepareTxn, 8, 1), (.readyTxn, 8, 2), (.commitTxn, 8, 3), (.abortTxn, 8, 4), (.doneTxn, 8, 5),
    (.queryTxn, 8, 6), (.keepTxn, 8, 7), (.classBind, 9, 1), (.classRelease, 9, 2), (.greply, 10, 0), (.hopReadHeader, 11, 1), (.hopPin, 11, 2),
    (.hopUnpin, 11, 3), (.hopWait, 11, 4)]

theorem exec_receivers (s : State) : ∀ x ∈ receivers, ∃ g, exec x.1 s = recvHeld x.2.1 x.2.2 s g := by
  rw [receivers]
  repeat refine List.forall_mem_cons.mpr ⟨⟨_, rfl⟩, ?_⟩
  exact List.forall_mem_nil _

/-- The machine once the next flit is taken from the wires. -/
def State.rxTaken (s : State) (rest : List Flit) : State := { s with link := { s.link with rx := rest } }

section
variable {s : State} {f : Flit} {rest : List Flit} {typ op : Nat} (hh : s.heldFor typ op = []) (hr : s.link.rx = f :: rest)
  (g : State → HeldFlit → Served)
include hh hr

/-- A port that is down loses a flit. -/
theorem recvHeld_portDown (hu : (s.link.port f.port).up = false) : recvHeld typ op s g = .next (s.rxTaken rest) := by
  simp only [recvHeld, hh, State.takeRx, hr, hu, List.isEmpty_nil, Bool.not_false, if_true, State.rxTaken]

/-- A flit that is not good, or out of order, asks for replay. -/
theorem recvHeld_replay (hu : (s.link.port f.port).up = true) (hb : Decode.flitOk f = false ∨ f.hdr.seq.toNat ≠ (s.link.port f.port).expect) :
    recvHeld typ op s g = .next ((s.rxTaken rest).askReplay f.port) := by
  have bad : (!Decode.flitOk f || decide (f.hdr.seq.toNat ≠ (s.link.port f.port).expect)) = true := by simpa using hb
  simp only [recvHeld, hh, State.takeRx, hr, hu, bad, List.isEmpty_nil, Bool.not_true, Bool.false_eq_true, if_false, if_true, State.rxTaken]

/-- A flit for another device is accepted by the link and discarded. -/
theorem recvHeld_otherDevice (hu : (s.link.port f.port).up = true) (hok : Decode.flitOk f = true)
    (hs : f.hdr.seq.toNat = (s.link.port f.port).expect) (ht : f.hdr.typ.toNat = typ) (ho : op = 0 ∨ Decode.bodyNum f.body 0 0 = op)
    (hm : ((s.rxTaken rest).acceptFlit f).forMe f = false) :
    recvHeld typ op s g = .next (((s.rxTaken rest).acceptFlit f).served ((s.rxTaken rest).acceptFlit f) f) := by
  have mine : flitIs typ op f = true := by simp [flitIs, ht, ho]
  rw [State.rxTaken] at hm
  simp only [recvHeld, hh, State.takeRx, hr, hu, hok, hs, mine, hm, List.isEmpty_nil, Bool.not_true, Bool.not_false, Bool.false_eq_true,
    ne_eq, not_true_eq_false, decide_false, Bool.or_false, if_false, if_true, State.rxTaken]
  rfl

end

/-! ### NULL (R33) -/

theorem exec_nullFlit_noBuffer {s s1 : State} {f : Flit} (h : s.delivers s1 f 0 0) (hb : (s1.link.port f.port).buffer = []) :
    exec .nullFlit s = .next (s1.served s1 f) := by
  change execNullFlit s = _
  refine recvFlit_some h ?_
  simp only [hb, List.isEmpty_nil, if_true]

/-! ### Requests for memory (R45, R190) -/

/-- What a step serves of a flit of which nothing is done: all it names, or the bytes of one beat. -/
theorem State.partNow_cases (s : State) (mask : Nat) :
    s.partNow true mask 0 = mask ∨ s.partNow true mask 0 = mask % 2 ^ 32 ∨ s.partNow true mask 0 = mask / 2 ^ 32 * 2 ^ 32 := by
  simp only [State.partNow, Nat.sub_zero]
  split
  · exact .inl rfl
  · split
    · exact .inl rfl
    · exact .inr (.inl rfl)
    · exact .inr (.inr rfl)

/-- A flit that names bytes of one beat is served whole. -/
theorem State.partNow_oneBeat (s : State) {mask : Nat} (h : mask % 2 ^ 32 = 0 ∨ mask / 2 ^ 32 = 0) : s.partNow true mask 0 = mask := by
  have one : beatMask false mask = 0 ∨ beatMask true mask = 0 := by
    obtain low | high := h
    · exact .inl low
    · exact .inr (by rw [beatMask, if_pos rfl, high, Nat.zero_mul])
  simp only [State.partNow, Nat.sub_zero]
  exact if_pos (by simpa using one)

/-- Bytes of a mask over no bytes are those bytes. -/
theorem mergeBytes_maskBytes (m : Nat) (bs : List Byte) : mergeBytes m (List.replicate bs.length 0) (maskBytes m bs) = maskBytes m bs := by
  apply List.ext_getElem
  · simp [mergeBytes, maskBytes]
  · intro i h1 h2
    have hi : i < bs.length := by simpa [maskBytes] using h2
    cases hb : m.testBit i <;> simp [mergeBytes, maskBytes, hb, hi]

theorem Mem.length_read (m : Mem) (a n : Nat) : (m.read a n).length = n := by
  rw [Mem.read, cellsRead_eq, List.length_map, List.length_range]

/-- So of a sector that is read under a mask. -/
theorem mergeBytes_read (mask : Nat) (m : Mem) (a : Nat) :
    mergeBytes mask (List.replicate 64 0) (maskBytes mask (m.read a 64)) = maskBytes mask (m.read a 64) := by
  have merged := mergeBytes_maskBytes mask (m.read a 64)
  rwa [Mem.length_read] at merged

/-- The machine once a sector of main memory is read for a flit. -/
def State.sectorRead (s : State) (a : Nat) : State := { s.drawn with mem := s.mem.stampLoad a }

theorem State.readSector_main (s : State) {a : Nat} (h : a < Config.memBytes) (m : Nat) :
    s.drawn.readSector a m = ((maskBytes m (s.mem.read a 64), s.mem.poisoned a), s.sectorRead a) := if_pos h

section
variable {s s1 s2 : State} {f : Flit} {t mask m : Nat} (hm : Decode.bodyNum f.body 64 71 = mask)
  (h2 : s1.seeTime (Decode.bodyNum f.body 72 77) = s2) (ho : s2.ours t = true) (ha : localOf t < Config.memBytes) (hp : s2.partNow true mask 0 = m)

section
variable (h : s.delivers s1 f 1 0) (ht : s1.homeOf f.hdr.ctx.toNat (flitAddr f) = t)
include hm h2 ho ha hp h ht

/-- RDREQ served in one step: the answer bears what the sector holds under its mask. -/
theorem exec_rdreq_whole (hw : m = mask) : exec .rdreq s = .next (((s2.sectorRead (localOf t)).putFlit f.port 3 f.hdr.sdev.toNat f.hdr.ctx.toNat
    (memBody (maskBytes mask (s2.mem.read (localOf t) 64)) mask (s2.sectorRead (localOf t)).mem.pts (flitAddr f) (s2.mem.poisoned (localOf t)))).served
    s1 f) := by
  change execRdreq s = _
  refine recvHeld_done h ?_
  simp only [HeldFlit.fresh, ht, hm, h2, ho, ha, decide_true, if_true, hp, State.readSector_main, hw, Nat.zero_add, mergeBytes_read, Bool.false_or]

/-- RDREQ of which one beat is served. -/
theorem exec_rdreq_beat (hw : m ≠ mask) : exec .rdreq s = .next { s2.sectorRead (localOf t) with link := { (s2.sectorRead (localOf t)).link with
    held := (s2.sectorRead (localOf t)).link.held ++
      [⟨f, s1.poolPlace f, m, maskBytes m (s2.mem.read (localOf t) 64), s2.mem.poisoned (localOf t)⟩] } } := by
  change execRdreq s = _
  refine recvHeld_part h ?_
  simp only [HeldFlit.fresh, ht, hm, h2, ho, ha, decide_true, if_true, hp, State.readSector_main, hw, if_false, Nat.zero_add, mergeBytes_read, Bool.false_or]

end

/-- The first bytes of a write of a sector of main memory: its poison goes by all that the flit names. -/
theorem State.writeSector_mem_first (s : State) {a : Nat} (h : a < Config.memBytes) (m mask : Nat) (bs : List Byte) (psn fabric : Bool) :
    (s.writeSector a m 0 mask bs psn fabric).mem =
      ((s.mem.storeMasked a bs (BitVec.ofNat 64 m) ⟨psn, true, true, decide (mask = 2 ^ 64 - 1), decide (m = mask)⟩).1).stampStore a := by
  simp only [State.writeSector, if_pos h, decide_true, Nat.zero_add]
  split <;> rfl

section
variable {psn : Bool} (h : s.delivers s1 f 2 0) (ht : s2.homeOf f.hdr.ctx.toNat (flitAddr f) = t) (hc : (s2.mem.frame (localOf t)).cow = false)
  (hb : (Decode.bodyNum f.body 78 83).testBit 47 = psn)
include hm h2 ho ha hp h ht hc hb

/-- WRREQ served in one step. -/
theorem exec_wrreq_whole (hw : m = mask) : exec .wrreq s = .next
    (((s2.drawn.writeSector (localOf t) m 0 mask (f.body.take 64) psn true).putFlit f.port 4 f.hdr.sdev.toNat f.hdr.ctx.toNat
      (memBody (List.replicate 64 0) mask (s2.drawn.writeSector (localOf t) m 0 mask (f.body.take 64) psn true).mem.pts (flitAddr f) false)).served s1 f) := by
  change execWrreq s = _
  refine recvHeld_done h ?_
  simp only [HeldFlit.fresh, ht, hm, h2, ho, ha, hc, hb, hp, hw, decide_true, Bool.and_false, Bool.false_and, Bool.false_eq_true, if_false, if_true,
    Nat.zero_add]

/-- WRREQ of which one beat is served. -/
theorem exec_wrreq_beat (hw : m ≠ mask) : exec .wrreq s = .next
    { s2.drawn.writeSector (localOf t) m 0 mask (f.body.take 64) psn true with
      link := { (s2.drawn.writeSector (localOf t) m 0 mask (f.body.take 64) psn true).link with
        held := (s2.drawn.writeSector (localOf t) m 0 mask (f.body.take 64) psn true).link.held ++
          [⟨f, s1.poolPlace f, m, List.replicate 64 0, false⟩] } } := by
  change execWrreq s = _
  refine recvHeld_part h ?_
  simp only [HeldFlit.fresh, ht, hm, h2, ho, ha, hc, hb, hp, hw, decide_true, Bool.and_false, Bool.false_and, Bool.false_eq_true, if_false, if_true,
    Nat.zero_add]

end
end

/-! ### Answers and tokens (R43, R45, R282) -/

section
variable {s s1 : State} {f : Flit}

theorem memAnswer_found {typ : Nat} {q : Req} (hq : s1.reqFor typ f.hdr.sdev.toNat f.hdr.ctx.toNat (flitAddr f) = some q) :
    memAnswer typ s1 f = some (s1.deliverMem q f.body) := by
  rw [memAnswer, hq]

theorem memAnswer_none {typ : Nat} (hq : s1.reqFor typ f.hdr.sdev.toNat f.hdr.ctx.toNat (flitAddr f) = none) : memAnswer typ s1 f = some s1 := by
  rw [memAnswer, hq]

theorem exec_memAnswer {typ : Nat} {i : Instr} (hi : (typ, i) ∈ [(1, Instr.rdrsp), (2, Instr.wrack)]) :
    exec i s = recvFlit (typ + 2) 0 s (memAnswer typ) := by
  simp only [List.mem_cons, Prod.mk.injEq, List.not_mem_nil, or_false] at hi
  obtain ⟨rfl, rfl⟩ | ⟨rfl, rfl⟩ := hi <;> rfl

/-- A token goes to its node where none of its arc is held before it and a unit that holds it stands. -/
theorem exec_tokenFlit_lands (h : s.delivers s1 f 5 0) {s2 : State}
    (hn : ∀ u ∈ (s1.link.port f.port).tokens, remoteSrc u.tok ≠ remoteSrc (Token.ofBytes f.body)) (hs : s1.landToken (Token.ofBytes f.body) = some s2) :
    exec .tokenFlit s = .next (s2.served s1 f) := by
  have free : ((s1.link.port f.port).tokens.any fun u => decide (remoteSrc u.tok = remoteSrc (Token.ofBytes f.body))) = false := by simpa using hn
  change execTokenFlit s = _
  refine recvHeld_done h ?_
  rw [HeldFlit.fresh]
  simp only [free, hs, Bool.false_eq_true, if_false]

/-- Any other is held. -/
theorem exec_tokenFlit_held (h : s.delivers s1 f 5 0)
    (hn : (∃ u ∈ (s1.link.port f.port).tokens, remoteSrc u.tok = remoteSrc (Token.ofBytes f.body)) ∨ s1.landToken (Token.ofBytes f.body) = none) :
    exec .tokenFlit s = .next { s1 with link := s1.link.putPort f.port { s1.link.port f.port with
      tokens := (s1.link.port f.port).tokens ++ [⟨f.hdr.sdev.toNat, s1.poolPlace f, Token.ofBytes f.body⟩] } } := by
  have stays : (if ((s1.link.port f.port).tokens.any fun u => decide (remoteSrc u.tok = remoteSrc (Token.ofBytes f.body))) = true then none
      else s1.landToken (Token.ofBytes f.body)) = none := by
    split
    · rfl
    · next free => exact hn.resolve_left (by simpa using free)
  change execTokenFlit s = _
  refine recvHeld_held h ?_
  rw [HeldFlit.fresh]
  simp only [stays]

/-! ### Cairns (R195, Table 8.3) -/

theorem State.cairnAddScc_cairn (s : State) (k : Nat) (n : Word) : (s.cairnAddScc k n).cairn = s.cairn.add k n := by
  rw [State.cairnAddScc]
  split <;> rfl

theorem State.cairnAddScc_reports {s : State} {k : Nat} {n : Word} (h : 2 ^ 64 ≤ (s.cairn.val k).toNat + n.toNat) :
    Report.cairnOverflow k ∈ (s.cairnAddScc k n).dev.reports := by
  rw [State.cairnAddScc, if_pos (show cairnOver (s.cairn.val k) n = true from decide_eq_true h)]
  exact List.mem_append_right _ (List.mem_singleton.mpr rfl)

/-- An add is answered with status 3 where it overflows. -/
theorem exec_cairnAdd (h : s.delivers s1 f 6 1) : exec .cairnAdd s =
    .next ((((s1.seeTime (flitTs f)).cairnAddScc (flitCairn f) (flitOperand f)).cairnReply f.port f.hdr.sdev.toNat f.hdr.ctx.toNat (flitTag f)
      (flitCairn f) (if cairnOver (s1.cairn.val (flitCairn f)) (flitOperand f) then 3 else 0)).served s1 f) := by
  change execCairnAdd s = _
  exact recvFlit_some h rfl

theorem exec_cairnWait_complete (h : s.delivers s1 f 6 2) (hv : (flitOperand f).toNat ≤ (s1.cairn.val (flitCairn f)).toNat) : exec .cairnWait s =
    .next (((s1.seeTime (flitTs f)).cairnReply f.port f.hdr.sdev.toNat f.hdr.ctx.toNat (flitTag f) (flitCairn f) 0).served s1 f) := by
  change execCairnWait s = _
  exact recvFlit_some h (if_pos hv)

/-- A wait for which its unit has no place is answered retry. -/
theorem exec_cairnWait_retry (h : s.delivers s1 f 6 2) (hv : (s1.cairn.val (flitCairn f)).toNat < (flitOperand f).toNat)
    (hw : 4096 ≤ s1.remoteWaits (flitCairn f % 4)) : exec .cairnWait s =
    .next (((s1.seeTime (flitTs f)).cairnReply f.port f.hdr.sdev.toNat f.hdr.ctx.toNat (flitTag f) (flitCairn f) 1).served s1 f) := by
  change execCairnWait s = _
  exact recvFlit_some h ((if_neg (Nat.not_le.mpr hv)).trans (if_pos hw))

/-- Any other stands with the unit. -/
theorem exec_cairnWait_stands (h : s.delivers s1 f 6 2) (hv : (s1.cairn.val (flitCairn f)).toNat < (flitOperand f).toNat)
    (hw : s1.remoteWaits (flitCairn f % 4) < 4096) : ∃ t w, exec .cairnWait s = .next t ∧ t.cairn.waits = s1.cairn.waits ++ [w] ∧
      w.cairn = flitCairn f ∧ w.thresh = flitOperand f := by
  change ∃ t w, execCairnWait s = .next t ∧ _
  refine ⟨_, ⟨flitCairn f, flitOperand f, .remote f.hdr.sdev.toNat f.port (flitTag f + 65536 * f.hdr.ctx.toNat)⟩,
    recvFlit_some h ((if_neg (Nat.not_le.mpr hv)).trans (if_neg (Nat.not_le.mpr hw))), ?_, rfl, rfl⟩
  rw [State.served_cairn]
  rfl

theorem exec_cairnRead (h : s.delivers s1 f 6 3) : exec .cairnRead s =
    .next (((s1.seeTime (flitTs f)).cairnReply f.port f.hdr.sdev.toNat f.hdr.ctx.toNat (flitTag f) (flitCairn f) 0).served s1 f) := by
  change execCairnRead s = _
  exact recvFlit_some h rfl

/-! ### Replies (R32, R46) -/

/-- The request that a GREPLY answers. -/
def State.repliedTo (s : State) (f : Flit) : Option Req :=
  s.link.reqs.find? fun q => decide (q.typ = (if Decode.bodyNum f.body 0 0 = 1 then 6 else 11) ∧ q.dev = f.hdr.sdev.toNat ∧ q.tag = flitTag f)

theorem exec_greply_unknown (h : s.delivers s1 f 10 0) (hq : s1.repliedTo f = none) : exec .greply s = .next (s1.served s1 f) := by
  rw [State.repliedTo] at hq
  change execGreply s = _
  refine recvFlit_some h ?_
  simp only [hq]

theorem exec_greply_answer (h : s.delivers s1 f 10 0) {q : Req} (hq : s1.repliedTo f = some q) (hr : Decode.bodyNum f.body 1 1 ≠ 1) :
    exec .greply s = .next ((s1.deliverReply q f.body).served s1 f) := by
  rw [State.repliedTo] at hq
  change execGreply s = _
  refine recvFlit_some h ?_
  simp only [hq, hr, if_false]

theorem exec_greply_retry (h : s.delivers s1 f 10 0) {q : Req} (hq : s1.repliedTo f = some q) (hr : Decode.bodyNum f.body 1 1 = 1) :
    exec .greply s = .next (State.served { s1 with link := { s1.link with
      reqs := s1.link.reqs.map fun u => if u = q then { u with retry := true } else u } } s1 f) := by
  rw [State.repliedTo] at hq
  change execGreply s = _
  refine recvFlit_some h ?_
  simp only [hq, hr, if_true]

/-! ### Header operations (R217, R218, R223) -/

section
variable {s2 : State} {op t : Nat} {g : State → Flit → Nat → HopRes} (h : s.delivers s1 f 11 op)
  (h2 : s1.seeTime (flitTs f) = s2) (ht : s2.target f.hdr.ctx.toNat (Decode.bodyNum f.body 8 13 * 16) = t) (hl : s2.isLocal t = true)
include h h2 ht hl

/-- Outside main memory there is no heap. -/
theorem hopStep_outside (ha : Config.memBytes ≤ localOf t) : hopStep op g s =
    .next ((s2.putFlit f.port 10 f.hdr.sdev.toNat f.hdr.ctx.toNat (greplyBody 2 6 (flitTag f) false 0 0 0 s2.mem.pts)).served s1 f) := by
  refine recvFlit_some h ?_
  simp only [h2, ht, hl, ha, if_true]

section
variable (ha : localOf t < Config.memBytes)
include ha

theorem hopStep_done {s3 : State} {status a : Nat} (hg : g s2 f (localOf t) = .done s3 status a) : hopStep op g s =
    .next ((s3.heapReply f.port f.hdr.sdev.toNat f.hdr.ctx.toNat (flitTag f) status a).served s1 f) := by
  refine recvFlit_some h ?_
  simp only [h2, ht, hl, Nat.not_le.mpr ha, if_true, if_false, hg]

/-- A request that stands with the heap unit. -/
theorem hopStep_stand (hg : g s2 f (localOf t) = .stand) : ∃ u q, hopStep op g s = .next u ∧ u.link.reqs = s1.link.reqs ++ [q] ∧ q.typ = 15 ∧
    q.addr = localOf t ∧ q.tag = flitTag f := by
  have reqs : s2.link.reqs = s1.link.reqs := by rw [← h2]; rfl
  let q : Req := ⟨flitTag f, 15, f.hdr.sdev.toNat, f.port, f.hdr.ctx.toNat, localOf t, 0, 0, [], .remote f.hdr.sdev.toNat f.port (flitTag f), none, false⟩
  refine ⟨State.served { s2 with link := { s2.link with reqs := s2.link.reqs ++ [q] } } s1 f, q, recvFlit_some h ?_, ?_, rfl, rfl, rfl⟩
  · simp only [h2, ht, hl, Nat.not_le.mpr ha, if_true, if_false, hg, q]
  · rw [State.served_reqs, reqs]

theorem hopStep_keep (hg : g s2 f (localOf t) = .keep) : hopStep op g s = .next (s1.keeps f) := by
  refine recvFlit_none h ?_
  simp only [h2, ht, hl, Nat.not_le.mpr ha, if_true, if_false, hg]

end
end

/-- The header operations, by OP (Table 2.9). -/
def headerOps : List (Nat × Instr) := [(1, .hopReadHeader), (2, .hopPin), (3, .hopUnpin), (4, .hopWait)]

theorem exec_hopReadHeader (s : State) :
    exec .hopReadHeader s = hopStep 1 (fun s1 _ a => .done { s1 with mem := s1.mem.stampLoad a } 0 a) s := rfl

theorem exec_hopWait (s : State) : exec .hopWait s =
    hopStep 4 (fun s1 _ a => if hdrState (s1.mem.word a) = 2 then .stand else .done { s1 with mem := s1.mem.stampLoad a } 0 a) s := rfl

theorem exec_hopPin (s : State) : exec .hopPin s = hopStep 2 (fun s1 f a => s1.pinFor f.hdr.ctx.toNat a true) s := rfl
theorem exec_hopUnpin (s : State) : exec .hopUnpin s = hopStep 3 (fun s1 f a => s1.pinFor f.hdr.ctx.toNat a false) s := rfl

theorem exec_headerOps (s : State) : ∀ x ∈ headerOps, ∃ g, exec x.2 s = hopStep x.1 g s :=
  List.forall_mem_cons.mpr ⟨⟨_, exec_hopReadHeader s⟩, List.forall_mem_cons.mpr ⟨⟨_, exec_hopPin s⟩,
    List.forall_mem_cons.mpr ⟨⟨_, exec_hopUnpin s⟩, List.forall_mem_singleton.mpr ⟨_, exec_hopWait s⟩⟩⟩⟩

/-- PIN is changed up by OP 2, down by OP 3. -/
theorem exec_pin {op : Nat} {i : Instr} (hi : (op, i) ∈ headerOps) (ho : op = 2 ∨ op = 3) (s : State) :
    exec i s = hopStep op (fun s1 f a => s1.pinFor f.hdr.ctx.toNat a (decide (op = 2))) s := by
  obtain rfl | rfl := ho
  · obtain rfl : i = .hopPin := by simpa [headerOps] using hi
    exact exec_hopPin s
  · obtain rfl : i = .hopUnpin := by simpa [headerOps] using hi
    exact exec_hopUnpin s

/-! ### Classes (R40, R41) -/

/-- The entries of a port but for a class's own. -/
def PortSt.otherClasses (p : PortSt) (sdev ctx : Nat) : List ClassEntry := p.classes.filter fun c => decide (c.sdev ≠ sdev ∨ c.ctx ≠ ctx)

/-- Whether a port has its 256 entries for the classes that send to it. -/
def State.classesFull (s : State) (f : Flit) : Prop :=
  256 ≤ (((s.link.port f.port).otherClasses f.hdr.sdev.toNat (Decode.bodyNum f.body 2 3)).filter fun c => decide (c.sdev ≠ s.ownNum)).length

theorem exec_classBind_full (h : s.delivers s1 f 9 1) (hc : s1.classesFull f) : exec .classBind s = .next (State.served { s1 with
    link := s1.link.putPort f.port { s1.link.port f.port with norsv := min 255 ((s1.link.port f.port).norsv + 1) } } s1 f) := by
  change execClassBind s = _
  exact recvFlit_some h (if_pos hc)

theorem exec_classBind_entry (h : s.delivers s1 f 9 1) (hc : ¬ s1.classesFull f) : exec .classBind s = .next (State.served { s1 with
    link := s1.link.putPort f.port { s1.link.port f.port with
      classes := (s1.link.port f.port).otherClasses f.hdr.sdev.toNat (Decode.bodyNum f.body 2 3) ++
        [⟨f.hdr.sdev.toNat, Decode.bodyNum f.body 2 3, Decode.bodyNum f.body 4 4, s1.now⟩] } } s1 f) := by
  change execClassBind s = _
  exact recvFlit_some h (if_neg hc)

theorem exec_classRelease (h : s.delivers s1 f 9 2) : exec .classRelease s = .next (State.served { s1 with
    link := s1.link.putPort f.port ((s1.link.port f.port).freeClass f.hdr.sdev.toNat (Decode.bodyNum f.body 2 3)) } s1 f) := by
  change execClassRelease s = _
  exact recvFlit_some h rfl

end

end Sys2Proof.Machine

open Sys2Proof Sys2Proof.Machine

/-- Settles O54, type by type. Which flits take a place of the pool (log 29), which header operations stand (log 30), whether a sector is served in one
step or two and by which port its answer leaves (log 32), and to which tile a token goes (log 33), is the model's choice. -/
theorem flitEvents : Obligations.FlitEvents := by
  unfold Obligations.FlitEvents
  refine ⟨?refused, fun s s1 f => exec_nullFlit_noBuffer, fun s mask => ⟨s.partNow_cases mask, s.partNow_oneBeat⟩, ?read, ?write, ?answers,
    fun s s1 f h => ⟨fun s2 => exec_tokenFlit_lands h, exec_tokenFlit_held h⟩, ?cairns, ?replies, ?headers, ?bind, ?release⟩
  case refused =>
    intro s i typ op f rest hi hr hh s0
    obtain ⟨g, hg⟩ := exec_receivers s (i, typ, op) hi
    change exec i s = recvHeld typ op s g at hg
    rw [hg]
    exact ⟨recvHeld_portDown hh hr g, recvHeld_replay hh hr g, recvHeld_otherDevice hh hr g⟩
  case read =>
    intro s s1 f h ctx t mask s2 m ho ha s3
    exact ⟨exec_rdreq_whole rfl rfl ho ha rfl h rfl, exec_rdreq_beat rfl rfl ho ha rfl h rfl⟩
  case write =>
    intro s s1 f h ctx t mask psn s2 m ho ha hc s3
    exact ⟨State.writeSector_mem_first _ ha .., exec_wrreq_whole rfl rfl ho ha rfl h (State.homeOf_seeTime ..) hc rfl,
      exec_wrreq_beat rfl rfl ho ha rfl h (State.homeOf_seeTime ..) hc rfl⟩
  case answers =>
    intro s s1 f typ i hi h
    rw [exec_memAnswer hi]
    exact ⟨fun q hq => recvFlit_some h (memAnswer_found hq), fun hq => recvFlit_some h (memAnswer_none hq)⟩
  case cairns =>
    intro s s1 f op i hi h k v x reply s2
    refine ⟨fun ho hv => ?add, fun ho hv => ?overflow, fun ho hv => ?complete, fun ho hv hw => ?retry, fun ho hv hw => ?stands, fun ho => ?get⟩
    all_goals subst ho
    case add =>
      obtain rfl : i = .cairnAdd := by simpa using hi
      have fits : cairnOver v x = false := decide_eq_false (Nat.not_le.mpr hv)
      refine ⟨s2.cairnAddScc k x, (exec_cairnAdd h).trans (by rw [fits]; rfl), ?_⟩
      rw [State.cairnAddScc_cairn, Cairns.val_add, if_pos rfl]
      exact if_pos hv
    case overflow =>
      obtain rfl : i = .cairnAdd := by simpa using hi
      have spills : cairnOver v x = true := decide_eq_true hv
      refine ⟨s2.cairnAddScc k x, (exec_cairnAdd h).trans (by rw [spills]; rfl), ?_, State.cairnAddScc_reports hv⟩
      rw [State.cairnAddScc_cairn, Cairns.val_add, if_pos rfl]
      exact if_neg (Nat.not_lt.mpr hv)
    case complete =>
      obtain rfl : i = .cairnWait := by simpa using hi
      exact exec_cairnWait_complete h hv
    case retry =>
      obtain rfl : i = .cairnWait := by simpa using hi
      exact exec_cairnWait_retry h hv hw
    case stands =>
      obtain rfl : i = .cairnWait := by simpa using hi
      exact exec_cairnWait_stands h hv hw
    case get =>
      obtain rfl : i = .cairnRead := by simpa using hi
      exact exec_cairnRead h
  case replies =>
    intro s s1 f h q
    exact ⟨exec_greply_unknown h, fun r => exec_greply_answer h, fun r => exec_greply_retry h⟩
  case headers =>
    intro s s1 f op i hi h ctx t a s2 hl
    refine ⟨fun ha => ?outside, fun ha => ⟨?header, ?moving, fun ho => ?pin⟩⟩
    case outside =>
      obtain ⟨g, hg⟩ := exec_headerOps s (op, i) hi
      exact hg.trans (hopStep_outside h rfl (State.target_seeTime ..) hl ha)
    case header =>
      rintro (rfl | ⟨rfl, hs⟩)
      · obtain rfl : i = .hopReadHeader := by simpa using hi
        exact (exec_hopReadHeader s).trans (hopStep_done h rfl (State.target_seeTime ..) hl ha rfl)
      · obtain rfl : i = .hopWait := by simpa using hi
        exact (exec_hopWait s).trans (hopStep_done h rfl (State.target_seeTime ..) hl ha (if_neg hs))
    case moving =>
      rintro rfl hs
      obtain rfl : i = .hopWait := by simpa using hi
      rw [exec_hopWait]
      exact hopStep_stand h rfl (State.target_seeTime ..) hl ha (if_pos hs)
    case pin =>
      rw [exec_pin hi ho]
      split
      · next hp => exact hopStep_done h rfl (State.target_seeTime ..) hl ha hp
      · next hp => exact hopStep_stand h rfl (State.target_seeTime ..) hl ha hp
      · next hp => exact hopStep_keep h rfl (State.target_seeTime ..) hl ha hp
  case bind =>
    intro s s1 f h p sdev ctx others
    by_cases hc : 256 ≤ (others.filter fun c => decide (c.sdev ≠ s1.ownNum)).length
    · refine ⟨_, exec_classBind_full h hc, ?_⟩
      rw [if_pos hc, State.served_norsv, State.served_classes, Link.port_putPort]
      exact ⟨rfl, rfl⟩
    · refine ⟨_, exec_classBind_entry h hc, ?_⟩
      rw [if_neg hc, State.served_classes, Link.port_putPort]
      rfl
  case release =>
    intro s s1 f h
    refine ⟨_, exec_classRelease h, ?_⟩
    rw [State.served_classes, Link.port_putPort]
    rfl
end

section
/-! SUPPORT. Transactions: staging at a target, the records of the coordinator, and what each transaction flit and timer does (R47 to R54, R350). -/

namespace Sys2Proof.Machine

/-! ### Staging (R47, R49, R50) -/

/-- A change of a transaction's staging that keeps its name. -/
theorem State.staging_mapTgt {s : State} {cdev xid : Nat} {t : TgtTxn} (h : s.staging cdev xid = some t) {g : TgtTxn → TgtTxn}
    (hg : ∀ u, (g u).cdev = u.cdev ∧ (g u).xid = u.xid) : (s.mapTgt cdev xid g).staging cdev xid = some (g t) := by
  have named : t.cdev = cdev ∧ t.xid = xid := by simpa using List.find?_some h
  have same : (fun u : TgtTxn => decide (u.cdev = cdev ∧ u.xid = xid)) ∘ (fun u => if u.cdev = cdev ∧ u.xid = xid then g u else u) =
      fun u => decide (u.cdev = cdev ∧ u.xid = xid) := by
    funext u
    dsimp only [Function.comp]
    split
    · rw [(hg u).1, (hg u).2]
    · rfl
  rw [State.staging, State.mapTgt, List.find?_map, same]
  rw [State.staging] at h
  rw [h, Option.map_some, if_pos named]

/-- Staging that a transaction has not. -/
theorem State.staging_of_filter {s : State} {cdev xid : Nat} {l : List TgtTxn}
    (h : s.link.targets = l.filter fun u => decide (u.cdev ≠ cdev ∨ u.xid ≠ xid)) : s.staging cdev xid = none := by
  rw [State.staging, h, List.find?_eq_none]
  intro u hu named
  simp only [decide_eq_true_eq] at named
  simp [named] at hu

theorem State.staging_dropStaging (s : State) (cdev xid : Nat) : (s.dropStaging cdev xid).staging cdev xid = none := State.staging_of_filter rfl

@[simp] theorem State.staging_served (s s1 : State) (f : Flit) (cdev xid : Nat) : (s.served s1 f).staging cdev xid = s.staging cdev xid := by
  rw [State.staging, State.staging, State.served_targets]

/-- Staged sectors whose homes are all here can go live. -/
theorem State.canApply_of_local {s : State} {gs : List Staged} (h : ∀ g ∈ gs, s.isLocal (s.stagedTo g) = true) : s.canApply gs = true := by
  rw [State.canApply, List.all_eq_true]
  intro g hg
  simp only [h g hg, Bool.true_or]

/-- Staging that goes live is gone. -/
theorem State.staging_applyTxn {s : State} {cdev xid : Nat} {t : TgtTxn} (h : s.staging cdev xid = some t)
    (hl : ∀ g ∈ t.sectors, s.isLocal (s.stagedTo g) = true) : (s.applyTxn cdev xid).staging cdev xid = none := by
  simp only [State.applyTxn, h, State.canApply_of_local hl]
  exact State.staging_of_filter rfl

/-! ### Readiness (Table 2.5) -/

theorem State.readyCheck_complete {s : State} {cdev xid : Nat} {t : TgtTxn} (h : s.staging cdev xid = some t) (hr : t.ready = false)
    (hn : t.need = some t.sectors.length) (f : Flit) :
    s.readyCheck f cdev xid = (s.mapTgt cdev xid fun u => { u with ready := true }).answerXctl f 2 0 cdev xid := by
  simp only [State.readyCheck, h, hr, hn, Bool.false_eq_true, if_false, if_true]

theorem State.readyCheck_incomplete {s : State} {cdev xid : Nat} {t : TgtTxn} (h : s.staging cdev xid = some t)
    (hn : t.need ≠ some t.sectors.length) (f : Flit) : s.readyCheck f cdev xid = s := by
  simp only [State.readyCheck, h, hn, if_false, ite_self]

/-! ### Flits at a target -/

section
variable {s s1 : State} {f : Flit}

/-- The sector that an XSTAGE flit stages (R47). -/
def stagedSector (f : Flit) : Staged :=
  ⟨f.hdr.ctx.toNat, localOf (flitAddr f), f.body.take 64, BitVec.ofNat 64 (Decode.bodyNum f.body 64 71), (Decode.bodyNum f.body 78 83).testBit 47⟩

theorem exec_xstage_staged (h : s.delivers s1 f 7 0) {s2 : State} (hs : s1.stage (stageCdev f) (stageXid f) (stagedSector f) = some s2) :
    exec .xstage s = .next ((s2.readyCheck f (stageCdev f) (stageXid f)).served s1 f) := by
  change execXstage s = _
  refine recvFlit_some h ?_
  rw [stagedSector] at hs
  simp only [hs]

theorem exec_xstage_full (h : s.delivers s1 f 7 0) (hs : s1.stage (stageCdev f) (stageXid f) (stagedSector f) = none) :
    exec .xstage s = .next (((s1.dropStaging (stageCdev f) (stageXid f)).answerXctl f 4 3 (stageCdev f) (stageXid f)).served s1 f) := by
  change execXstage s = _
  refine recvFlit_some h ?_
  rw [stagedSector] at hs
  simp only [hs]

theorem exec_prepareTxn_staged (h : s.delivers s1 f 8 1) {t : TgtTxn} (ht : s1.staging (xctlCdev f) (xctlXid f) = some t) :
    exec .prepareTxn s = .next (((s1.mapTgt (xctlCdev f) (xctlXid f) fun u => { u with need := some (xctlCount f), seen := s1.now }).readyCheck f
      (xctlCdev f) (xctlXid f)).served s1 f) := by
  change execPrepareTxn s = _
  refine recvFlit_some h ?_
  simp only [ht, Option.isSome_some, if_true]

theorem exec_readyTxn (h : s.delivers s1 f 8 2) : exec .readyTxn s = .next (((s1.mapTxn (xctlXid f) fun t =>
    t.mapTarget f.hdr.sdev.toNat fun g => { g with ready := true }).commitPoint (xctlXid f)).served s1 f) := by
  change execReadyTxn s = _
  exact recvFlit_some h rfl

/-- COMMIT is answered once nothing of the transaction is left here or on its way. -/
theorem exec_commitTxn (h : s.delivers s1 f 8 3) : exec .commitTxn s = .next (State.served (let s2 := s1.applyTxn (xctlCdev f) (xctlXid f)
    if s2.staging (xctlCdev f) (xctlXid f) ≠ none ∨ s2.applying (xctlCdev f) (xctlXid f) = true then s2
    else s2.answerXctl f 5 0 (xctlCdev f) (xctlXid f)) s1 f) := by
  change execCommitTxn s = _
  refine recvFlit_some h ?_
  simp only [Bool.or_eq_true, Option.isSome_iff_ne_none]

/-- The coordinator of a transaction that a target refuses aborts it. -/
theorem exec_abortTxn_coordinator (h : s.delivers s1 f 8 4) (hc : xctlCdev f = s1.dev.devNum) :
    exec .abortTxn s = .next ((s1.txnAbort (xctlXid f) (Decode.bodyNum f.body 1 1)).served s1 f) := by
  change execAbortTxn s = _
  exact recvFlit_some h (if_pos hc)

theorem exec_abortTxn_target (h : s.delivers s1 f 8 4) (hc : xctlCdev f ≠ s1.dev.devNum) : exec .abortTxn s =
    .next (((s1.dropStaging (xctlCdev f) (xctlXid f)).answerXctl f 5 0 (xctlCdev f) (xctlXid f)).served s1 f) := by
  change execAbortTxn s = _
  exact recvFlit_some h (if_neg hc)

theorem exec_keepTxn (h : s.delivers s1 f 8 7) : exec .keepTxn s =
    .next ((s1.mapTgt (xctlCdev f) (xctlXid f) fun t => { t with seen := s1.now }).served s1 f) := by
  change execKeepTxn s = _
  exact recvFlit_some h rfl

/-! ### Flits at the coordinator -/

theorem exec_doneTxn (h : s.delivers s1 f 8 5) : exec .doneTxn s = .next ((((s1.mapTxn (xctlXid f) fun t =>
    t.mapTarget f.hdr.sdev.toNat fun g => { g with done := true }).txnFinish (xctlXid f)).abortFinish (xctlXid f)).served s1 f) := by
  change execDoneTxn s = _
  exact recvFlit_some h rfl

/-- What QUERY is answered about a transaction of which there is a record (R51, R53). -/
def State.queryAnswer (s : State) (f : Flit) (t : Txn) : State :=
  match t.phase with
  | .committed => s.answerXctl f 3 0 (xctlCdev f) (xctlXid f)
  | .aborted => s.answerXctl f 4 t.reason (xctlCdev f) (xctlXid f)
  | .opened | .preparing => (s.txnAbort (xctlXid f) 4).answerXctl f 4 4 (xctlCdev f) (xctlXid f)

section
variable (h : s.delivers s1 f 8 6) {t : Txn} (ht : s1.txn? (xctlXid f) = some t)
include h ht

/-- A record not yet resumed after a reset answers nothing. -/
theorem exec_queryTxn_unresumed (hs : t.survived = true) (hr : t.resumed = false) : exec .queryTxn s = .next (s1.served s1 f) := by
  change execQueryTxn s = _
  refine recvFlit_some h ?_
  simp only [ht, hs, hr, Bool.not_false, Bool.and_self, if_true]

theorem exec_queryTxn_record (hr : t.survived = false ∨ t.resumed = true) : exec .queryTxn s = .next ((s1.queryAnswer f t).served s1 f) := by
  have live : (t.survived && !t.resumed) = false := by obtain hr | hr := hr <;> simp [hr]
  change execQueryTxn s = _
  refine recvFlit_some h ?_
  simp only [ht, live, Bool.false_eq_true, if_false, State.queryAnswer]
  cases t.phase <;> rfl

end

theorem exec_queryTxn_none (h : s.delivers s1 f 8 6) (ht : s1.txn? (xctlXid f) = none) :
    exec .queryTxn s = .next ((s1.drawn.answerXctl f 4 (1 + s1.choice 6) (xctlCdev f) (xctlXid f)).served s1 f) := by
  change execQueryTxn s = _
  refine recvFlit_some h ?_
  simp only [ht]

end

/-! ### Timers -/

theorem exec_stagingTimeout {s : State} {cdev xid : Nat} {t : TgtTxn} (h : s.staging cdev xid = some t) (hc : cdev ≠ s.dev.devNum)
    (hr : t.ready = false) (ht : t.seen + cycles100us ≤ s.now) : exec (.stagingTimeout cdev xid) s =
    .next ((s.dropStaging cdev xid).sendAny cdev 8 0 (xctlBody 4 6 cdev xid 0)) := by
  change execStagingTimeout cdev xid s = _
  simp only [execStagingTimeout, h, hr, hc, Bool.false_eq_true, Nat.not_lt.mpr ht, or_self, if_false]

theorem exec_queryTimer {s : State} {cdev xid : Nat} {t : TgtTxn} (h : s.staging cdev xid = some t) (hc : cdev ≠ s.dev.devNum)
    (hr : t.ready = true) : exec (.queryTimer cdev xid) s = .next (s.sendAny cdev 8 0 (xctlBody 6 0 cdev xid 0)) := by
  change execQueryTimer cdev xid s = _
  simp only [execQueryTimer, h, hr, ne_eq, hc, not_false_eq_true, and_self, if_true]

theorem exec_keepAliveTimer {s : State} {xid : Nat} {t : Txn} (h : s.txn? xid = some t) (hp : t.phase = .opened ∨ t.phase = .preparing) :
    exec (.keepAliveTimer xid) s =
      .next ((t.targets.filter fun g => decide (g.dev ≠ s.dev.devNum)).foldl (fun (s' : State) g => s'.sendXctl g.dev 7 0 xid 0) s) := by
  change execKeepAliveTimer xid s = _
  simp only [execKeepAliveTimer, h, if_pos hp]

theorem exec_commitResend {s : State} {xid : Nat} {t : Txn} (h : s.txn? xid = some t) (hp : t.phase = .committed)
    (hr : t.survived = false ∨ t.resumed = true) : exec (.commitResend xid) s =
      .next (if t.targets.any fun g => !g.done && decide (g.dev ≠ s.dev.devNum) && (s.anyPort g.dev).isNone
        then ((s.sendCommits xid).txnFinish xid).pending xid else (s.sendCommits xid).txnFinish xid) := by
  change execCommitResend xid s = _
  simp only [execCommitResend, h, if_pos (And.intro hp hr)]

theorem State.pending_link (s : State) (xid : Nat) : (s.pending xid).link = s.link := by
  rw [State.pending]
  split <;> rfl

theorem State.mem_pending_reports (s : State) (xid : Nat) : Report.txnPending xid ∈ (s.pending xid).dev.reports := by
  rw [State.pending]
  split
  · next told => exact List.contains_iff_mem.mp told
  · exact List.mem_append_right _ (List.mem_singleton.mpr rfl)

section
variable {s : State} {t : Txn} (hd : s.dev.devSet = true) (ht : s.link.topoDone = true) (hl : s.link.txns = [t]) (hs : t.survived = true)
  (hr : t.resumed = false)
include hd ht hl hs hr

/-- A single record that names another number stays unresolved. -/
theorem exec_recordResume_other (hn : t.num ≠ s.dev.devNum) :
    exec .recordResume s = .next ((s.mapTxn t.xid fun u => { u with unresolved := true }).pending t.xid) := by
  change execRecordResume s = _
  simp [execRecordResume, hd, ht, hl, hs, hr, hn]

/-- A single record COMMITTED of this device is resumed. -/
theorem exec_recordResume_committed (hn : t.num = s.dev.devNum) (hp : t.phase = .committed) : exec .recordResume s =
    .next (((s.mapTxn t.xid fun u => { u with resumed := true, unresolved := false, since := s.now }).sendCommits t.xid).txnFinish t.xid) := by
  change execRecordResume s = _
  simp [execRecordResume, hd, ht, hl, hs, hr, hn, hp]

end

/-- A change of a transaction that stands alone. -/
theorem State.mapTxn_txns_single {s : State} {t : Txn} (h : s.link.txns = [t]) (g : Txn → Txn) : (s.mapTxn t.xid g).link.txns = [g t] := by
  simp [State.mapTxn, h]

end Sys2Proof.Machine

open Sys2Proof Sys2Proof.Machine

/-- Settles O55, flit by flit and timer by timer. What ABORT of an unknown transaction and QUERY of one still open or of none are answered (log 34),
and when the timers other than that of staging and of an aborted record may fire (log 35), is the model's choice. -/
theorem transactionEvents : Obligations.TransactionEvents := by
  unfold Obligations.TransactionEvents
  refine ⟨fun s s1 f h => ⟨fun s2 => exec_xstage_staged h, exec_xstage_full h⟩, fun s s1 f h t ht => ⟨_, exec_prepareTxn_staged h ht, ?need⟩,
    fun s f cdev xid t ht hr => ⟨fun hn => ⟨_, State.readyCheck_complete ht hr hn f, ?ready⟩, fun hn => State.readyCheck_incomplete ht hn f⟩,
    fun s s1 f h => exec_readyTxn h, fun s s1 f h => ⟨fun done => ?answered, fun left => ?unanswered⟩, fun s cdev xid t => State.staging_applyTxn,
    fun s s1 f h => ⟨exec_abortTxn_coordinator h, fun hc => ⟨_, exec_abortTxn_target h hc, rfl, State.staging_dropStaging ..⟩⟩,
    fun s s1 f h => exec_doneTxn h, fun s s1 f h t ht => ⟨exec_queryTxn_unresumed h ht, fun hr => ?record⟩,
    fun s s1 f h ht => ⟨_, Nat.le_add_right .., ?reason, exec_queryTxn_none h ht⟩, fun s s1 f h t ht => ⟨_, exec_keepTxn h, ?seen, ?kept⟩,
    fun s cdev xid t ht hc => ⟨fun hr hw => ⟨_, exec_stagingTimeout ht hc hr hw, State.staging_dropStaging .., rfl⟩, exec_queryTimer ht hc⟩,
    fun s xid t ht => ⟨exec_keepAliveTimer ht, fun hp hr => ⟨_, exec_commitResend ht hp hr⟩⟩,
    fun s t hd htopo hl hs hr => ⟨fun hn => ⟨_, exec_recordResume_other hd htopo hl hs hr hn, ?unresolved, State.mem_pending_reports ..⟩,
      fun hn hp => ⟨_, exec_recordResume_committed hd htopo hl hs hr hn hp, State.mapTxn_txns_single hl _⟩⟩,
    fun s xid => ⟨_, rfl, rfl, fun t => ?freed⟩⟩
  case need => exact State.staging_mapTgt ht fun _ => ⟨rfl, rfl⟩
  case ready => exact State.staging_mapTgt ht fun _ => ⟨rfl, rfl⟩
  case answered => rw [exec_commitTxn h, if_neg (by simpa using done)]
  case unanswered => rw [exec_commitTxn h, if_pos left]
  case record =>
    rw [exec_queryTxn_record h ht hr, State.queryAnswer]
    refine ⟨fun hp => by rw [hp], fun hp => by rw [hp], ?_⟩
    rintro (hp | hp) <;> rw [hp]
  case reason =>
    have := s1.choice_lt (n := 6) (by omega)
    omega
  case seen => exact (State.staging_served ..).trans (State.staging_mapTgt ht fun _ => ⟨rfl, rfl⟩)
  case kept => rw [State.served_mem]; rfl
  case unresolved => rw [State.pending_link, State.mapTxn_txns_single hl]
  case freed => simp only [List.mem_filter, Bool.not_eq_true', ← Bool.not_eq_true, Bool.and_eq_true, decide_eq_true_eq, and_assoc]
end

section
/-! SUPPORT. What leaves memory as it was: operations on the other parts of the machine. -/

namespace Sys2Proof.Machine

/-- A loop whose every round leaves memory leaves memory. -/
theorem State.foldl_mem {α : Type} {f : State → α → State} (h : ∀ (s : State) (a : α), (f s a).mem = s.mem) (l : List α) (s : State) :
    (l.foldl f s).mem = s.mem :=
  List.foldlRecOn (motive := fun t => t.mem = s.mem) l f rfl fun t ht a _ => (h t a).trans ht

/-- What stands in for an answer where there is none. -/
theorem State.getD_mem {o : Option State} {s u : State} (h : ∀ t, o = some t → t.mem = s.mem) (hu : u.mem = s.mem) : (o.getD u).mem = s.mem := by
  cases o with
  | none => exact hu
  | some t => exact h t rfl

@[simp] theorem State.setFlags_mem (s : State) (key : Nat) (f : BitVec 10) : (s.setFlags key f).mem = s.mem := by
  grind [State.setFlags, State.putRegion_mem]

@[simp] theorem State.cairnAddScc_mem (s : State) (c : Nat) (n : Word) : (s.cairnAddScc c n).mem = s.mem := by
  grind [State.cairnAddScc, State.report_mem, State.cairnAdd_mem]

@[simp] theorem State.putRaw_mem (s : State) (port typ ddev sdev ctx : Nat) (body : List Byte) (pool : Bool) :
    (s.putRaw port typ ddev sdev ctx body pool).mem = s.mem := rfl

@[simp] theorem State.bindClass_mem (s : State) (port ddev ctx : Nat) : (s.bindClass port ddev ctx).mem = s.mem := by
  grind [State.bindClass, State.putRaw_mem]

theorem State.trySend_mem {s : State} {port typ ddev ctx : Nat} {body : List Byte} {t : State} (h : s.trySend port typ ddev ctx body = some t) :
    t.mem = s.mem := by
  simp only [State.trySend, Option.map_eq_some_iff] at h
  obtain ⟨_, _, rfl⟩ := h
  split <;> simp

@[simp] theorem State.putFlit_mem (s : State) (port typ ddev ctx : Nat) (body : List Byte) : (s.putFlit port typ ddev ctx body).mem = s.mem := by
  unfold State.putFlit
  dsimp only
  split
  · rfl
  · split
    · rfl
    · exact State.getD_mem (fun _ => State.trySend_mem) rfl

@[simp] theorem State.drainWaits_mem (port : Nat) (ws : List WaitFlit) (s : State) : (State.drainWaits port ws s).mem = s.mem := by
  induction ws generalizing s with
  | nil => rfl
  | cons w ws ih =>
    rw [State.drainWaits, ih]
    split
    · rfl
    · exact State.getD_mem (fun _ => State.trySend_mem) rfl

@[simp] theorem State.drainPort_mem (s : State) (port : Nat) : (s.drainPort port).mem = s.mem := by
  grind [State.drainPort, State.drainWaits_mem]

theorem State.send_mem {s : State} {dev a typ ctx : Nat} {body : List Byte} {t : State} (h : s.send dev a typ ctx body = .ok t) :
    t.mem = s.mem := by
  grind [State.send, State.trySend_mem]

@[simp] theorem State.sendAny_mem (s : State) (dev typ ctx : Nat) (body : List Byte) : (s.sendAny dev typ ctx body).mem = s.mem := by
  grind [State.sendAny, State.putFlit_mem]

@[simp] theorem State.mapTxn_mem (s : State) (xid : Nat) (f : Txn → Txn) : (s.mapTxn xid f).mem = s.mem := rfl

@[simp] theorem State.dropStaging_mem (s : State) (cdev xid : Nat) : (s.dropStaging cdev xid).mem = s.mem := rfl

@[simp] theorem State.txnAbort_mem (s : State) (xid reason : Nat) : (s.txnAbort xid reason).mem = s.mem := by
  unfold State.txnAbort
  split
  · rfl
  · split
    · have told := fun (ts : List TxnTgt) => State.foldl_mem (f := fun s' (g : TxnTgt) => if g.dev = s.dev.devNum then s'.dropStaging g.dev xid
        else s'.sendAny g.dev 8 0 (xctlBody 4 reason s.dev.devNum xid 0)) (by grind [State.dropStaging_mem, State.sendAny_mem]) ts s
      split <;> simp [told]
    · rfl

@[simp] theorem State.txnCancel_mem (s : State) (lid : Nat) : (s.txnCancel lid).mem = s.mem := by
  unfold State.txnCancel
  exact State.foldl_mem (fun _ _ => State.txnAbort_mem ..) _ s

@[simp] theorem State.faultToken_mem (s : State) (key : Nat) (f : FaultRec) : (s.faultToken key f).mem = s.mem := by
  grind [State.faultToken, State.putRegion_mem]

@[simp] theorem State.releaseWaits_mem (s : State) (key : Nat) (tiles : List Nat) : (s.releaseWaits key tiles).mem = s.mem := rfl

@[simp] theorem State.cancelRegion_mem (s : State) (key : Nat) : (s.cancelRegion key).mem = s.mem := by
  grind [State.cancelRegion, State.releaseWaits_mem, State.putRegion_mem, State.txnCancel_mem]

@[simp] theorem State.cancelLaunch_mem (s : State) (lid : Nat) : (s.cancelLaunch lid).mem = s.mem := by
  grind [State.cancelLaunch, State.putLaunch_mem, State.cancelRegion_mem]

@[simp] theorem State.dropCore_mem (s : State) (key : Nat) : (s.dropCore key).mem = s.mem := rfl

@[simp] theorem State.takeTrap_mem (s : State) (key : Nat) (rec_ : FaultRec) (resume efx swc : Nat) (queue : Bool) :
    (s.takeTrap key rec_ resume efx swc queue).mem = s.mem := by
  grind [State.takeTrap, State.cancelLaunch_mem, State.putRegion_mem, State.dropCore_mem]

@[simp] theorem State.writeDevnum_mem (s : State) (v : Nat) : (s.writeDevnum v).mem = s.mem := by
  grind [State.writeDevnum]

@[simp] theorem State.writeFeaten_mem (s : State) (v : Nat) : (s.writeFeaten v).mem = s.mem := by
  grind [State.writeFeaten]

@[simp] theorem State.writeLqctl_mem (s : State) (q : Nat) (v : Word) : (s.writeLqctl q v).mem = s.mem := rfl

@[simp] theorem State.writeScqctl_mem (s : State) (v : Word) : (s.writeScqctl v).mem = s.mem := rfl

@[simp] theorem State.writePlain_mem (s : State) (off : Nat) (v : Word) : (s.writePlain off v).mem = s.mem := by
  grind [State.writePlain]

@[simp] theorem State.startFreeze_mem (s : State) (src : Nat) : (s.startFreeze src).mem = s.mem := by
  grind [State.startFreeze]

@[simp] theorem State.startWarm_mem (s : State) : (s.startWarm).mem = s.mem := by
  grind [State.startWarm]

@[simp] theorem State.mgmtCont_mem (s : State) (part core : Nat) : (s.mgmtCont part core).mem = s.mem := by
  grind [State.mgmtCont, State.mgmtDone_mem, State.putRegion_mem]

@[simp] theorem State.mgmtCommand_mem (s : State) (v : Word) : (s.mgmtCommand v).mem = s.mem := by
  grind [State.mgmtCommand, State.mgmtDone_mem, State.startFreeze_mem, State.startWarm_mem, State.mgmtCont_mem]

@[simp] theorem State.regWrite_mem (s : State) (off : Nat) (v : Word) : (s.regWrite off v).mem = s.mem := by
  grind [State.regWrite, State.writeDevnum_mem, State.writeFeaten_mem, State.mgmtCommand_mem, State.writeLqctl_mem, State.writeScqctl_mem, State.writePlain_mem]

@[simp] theorem State.herrUp_mem (s : State) (fabric : Bool) : (s.herrUp fabric).mem = s.mem := by
  grind [State.herrUp]

@[simp] theorem State.regAccess_mem (s : State) (a : RegAccess) : (s.regAccess a).mem = s.mem := by
  grind [State.regAccess, State.regWrite_mem, State.herrUp_mem]

@[simp] theorem State.ppwUp_mem (s : State) (a : Nat) : (s.ppwUp a).mem = s.mem := rfl

@[simp] theorem State.tlbAdd_mem (s : State) (o : TlbOf) (e : TlbEntry) : (s.tlbAdd o e).mem = s.mem := by
  simp only [State.tlbAdd]
  (repeat' split) <;> simp [*]

@[simp] theorem State.invalidate_mem (s : State) (ctx : Nat) : (s.invalidate ctx).mem = s.mem := rfl

@[simp] theorem State.issueAccs_mem (s : State) (key : Nat) (accs : List Acc) : (s.issueAccs key accs).1.mem = s.mem := by
  grind [State.issueAccs, State.putRegion_mem]

@[simp] theorem State.noteErrs_mem (s : State) (key : Nat) (accs : List Acc) : (s.noteErrs key accs).mem = s.mem := by
  grind [State.noteErrs, State.putRegion_mem]

@[simp] theorem State.keepReq_mem (s : State) (tag typ dev port a ctx mask : Nat) (operand : Word) (body : List Byte) (who : Who) :
    (s.keepReq tag typ dev port a ctx mask operand body who).mem = s.mem := rfl

theorem State.request_mem {s : State} {typ dev a ctx mask : Nat} {operand : Word} {body : List Byte} {who : Who} {t : State} (h : s.request typ dev a ctx mask operand body who = .ok t) :
    t.mem = s.mem := by
  grind [State.request, State.send_mem, State.keepReq_mem]

@[simp] theorem State.mapAccs_mem (s : State) (who : Who) (f : List Acc → List Acc) : (s.mapAccs who f).mem = s.mem := by
  simp only [State.mapAccs]
  (repeat' split) <;> simp [*]

@[simp] theorem State.minorAt_mem (s : State) (code : Nat) (who : Who) (ctx va pa heap key : Nat) :
    (s.minorAt code who ctx va pa heap key).mem = s.mem := by
  grind [State.minorAt]

theorem State.askHop_mem {s : State} {op pa ctx : Nat} {who : Who} {t : State} (h : s.askHop op pa ctx who = .ok t) : t.mem = s.mem := by
  grind [State.askHop, State.request_mem]

@[simp] theorem State.mapTiles_mem (s : State) (ks : List Nat) (f : Tile → Tile) : (s.mapTiles ks f).mem = s.mem := by
  unfold State.mapTiles
  exact State.foldl_mem (fun _ _ => State.putTile_mem ..) _ _

@[simp] theorem State.barrierAdd_mem (s : State) (o : TlbOf) (e : BarEntry) : (s.barrierAdd o e).mem = s.mem := by
  simp only [State.barrierAdd]
  (repeat' split) <;> simp [*]

@[simp] theorem State.heapErrs_mem (s : State) (key : Nat) (es : List Nat) : (s.heapErrs key es).mem = s.mem := by
  grind [State.heapErrs, State.putRegion_mem]

@[simp] theorem State.logOverflow_mem (s : State) (ctx : Nat) : (s.logOverflow ctx).mem = s.mem := by
  grind [State.logOverflow, State.putCtx_mem]

@[simp] theorem State.cwfUp_mem (s : State) (a : Nat) : (s.cwfUp a).mem = s.mem := rfl

@[simp] theorem State.usePage_mem (s : State) (ctx va : Nat) : (s.usePage ctx va).mem = s.mem := rfl

@[simp] theorem State.putBuf_mem (s : State) (o : TlbOf) (h : Nat) (b : Option HeapBuf) : (s.putBuf o h b).mem = s.mem := by
  simp only [State.putBuf]
  (repeat' split) <;> simp [*]

@[simp] theorem State.toChan_mem (s : State) (tile : Nat) (c : ChanTok) : (s.toChan tile c).mem = s.mem := rfl

@[simp] theorem State.putSplit_mem (s : State) (x : Split) : (s.putSplit x).mem = s.mem := rfl

@[simp] theorem State.toOut_mem (s : State) (key bslot copy tile : Nat) (c : ChanTok) : (s.toOut key bslot copy tile c).mem = s.mem := by
  grind [State.toOut, State.putSplit_mem, State.toChan_mem]

@[simp] theorem State.cairnAddBy_mem (s : State) (key c : Nat) (n : Word) (f : FaultRec) : (s.cairnAddBy key c n f).mem = s.mem := by
  grind [State.cairnAddBy, State.faultToken_mem, State.cairnAdd_mem]

@[simp] theorem State.tapArc_mem (s : State) (key : Nat) (img : Image) (node k : Nat) (tok : Token) (rec_ : FaultRec) :
    (s.tapArc key img node k tok rec_).mem = s.mem := by
  unfold State.tapArc
  split
  · rfl
  · exact State.foldl_mem (by grind [State.cairnAddBy_mem]) _ s

@[simp] theorem State.sendNode_mem (s : State) (q : Src1) (k : Nat) (p : Port) (m : Nat) (tok : Token) : (s.sendNode q k p m tok).mem = s.mem := by
  grind [State.sendNode, State.toChan_mem]

@[simp] theorem State.sendPort_mem (s : State) (q : Src1) (k port : Nat) (tok : Token) : (s.sendPort q k port tok).mem = s.mem := by
  grind [State.sendPort, State.toOut_mem, State.toChan_mem]

@[simp] theorem State.emit_mem (s : State) (q : Src1) (n : NodeRec) (k : Nat) (tok : Token) (rec_ : FaultRec) : (s.emit q n k tok rec_).mem = s.mem := by
  grind [State.emit, State.tapArc_mem, State.sendNode_mem, State.sendPort_mem]

@[simp] theorem State.tearDone_mem (s : State) (key : Nat) (rg : Region) (blk : Bif) (tile pe slot : Nat) (i : Instr) (op : Nat) (n : NodeRec) (x : NodeInst) :
    (s.tearDone key rg blk tile pe slot i op n x).mem = s.mem := by
  grind [State.tearDone, State.putTile_mem, State.emit_mem]

@[simp] theorem State.tearBegin_mem (s : State) (key tile pe slot : Nat) (i : Instr) (n : NodeRec) (x : NodeInst) :
    (s.tearBegin key tile pe slot i n x).1.mem = s.mem := by
  simp only [State.tearBegin]
  (repeat' split) <;> simp [*]

@[simp] theorem State.tearRun_mem (s : State) (key tile pe slot : Nat) : (s.tearRun key tile pe slot).mem = s.mem := by
  grind [State.tearRun, State.tearBegin_mem, State.tearDone_mem]

@[simp] theorem State.voteCheck_mem (s : State) (key tile : Nat) : (s.voteCheck key tile).mem = s.mem := by
  unfold State.voteCheck
  split
  · rfl
  · exact State.foldl_mem (by grind [State.tearRun_mem, State.putTile_mem]) _ s

/-- Whatever state the answer holds has the memory of `s`. -/
def State.MemIn (s : State) (o : Option State) : Prop := ∀ t, o = some t → t.mem = s.mem

theorem State.memIn_none (s : State) : s.MemIn none := fun _ h => nomatch h

theorem State.memIn_some {s u : State} (h : u.mem = s.mem) : s.MemIn (some u) := fun _ ht => Option.some.inj ht ▸ h

theorem State.memIn_deliver (s : State) (tile pe slot : Nat) (x : NodeInst) (tok : Token) : s.MemIn (s.deliver tile pe slot x tok) := by
  unfold State.deliver
  split
  · exact s.memIn_none
  · dsimp only
    split
    · exact s.memIn_none
    · refine iteInduction (motive := s.MemIn) (fun _ => State.memIn_some (by simp)) fun _ => ?_
      refine iteInduction (motive := s.MemIn) (fun _ => State.memIn_some rfl) fun _ => ?_
      refine iteInduction (motive := s.MemIn) (fun _ => State.memIn_some (by simp)) fun _ => ?_
      refine iteInduction (motive := s.MemIn) (fun _ => s.memIn_none) fun _ => ?_
      refine iteInduction (motive := s.MemIn) (fun _ => State.memIn_some rfl) fun _ => ?_
      refine iteInduction (motive := s.MemIn) (fun _ => ?_) fun _ => ?_
      · exact iteInduction (motive := s.MemIn) (fun _ => s.memIn_none) fun _ => State.memIn_some (State.putTile_mem ..)
      refine iteInduction (motive := s.MemIn) (fun _ => State.memIn_some (State.putTile_mem ..)) fun _ => ?_
      refine iteInduction (motive := s.MemIn) (fun _ => State.memIn_some (State.putTile_mem ..)) fun _ => ?_
      exact iteInduction (motive := s.MemIn) (fun _ => s.memIn_none) fun _ => State.memIn_some (State.putTile_mem ..)

theorem State.deliver_mem {s : State} {tile pe slot : Nat} {x : NodeInst} {tok : Token} {t : State} (h : s.deliver tile pe slot x tok = some t) :
    t.mem = s.mem := s.memIn_deliver tile pe slot x tok t h

@[simp] theorem State.fireFlags_mem (s : State) (key tile pe : Nat) (fl : BitVec 10) : (s.fireFlags key tile pe fl).mem = s.mem := by
  grind [State.fireFlags, State.setFlags_mem, State.putTile_mem]

@[simp] theorem State.fireStart_mem (s : State) (x : Site) : (s.fireStart x).mem = s.mem := by
  grind [State.fireStart, State.putTile_mem]

@[simp] theorem State.fireEnd_mem (s : State) (x : Site) : (s.fireEnd x).mem = s.mem := by
  grind [State.fireEnd, State.putTile_mem, State.tearRun_mem]

@[simp] theorem State.putFiring_mem (s : State) (x : Site) (f : Firing) : (s.putFiring x f).mem = s.mem := rfl

@[simp] theorem State.passSlot_mem (s : State) (x : Site) : (s.passSlot x).mem = s.mem := rfl

@[simp] theorem State.holdOps_mem (s : State) (x : Site) (n : NodeRec) : (s.holdOps x n).mem = s.mem := rfl

@[simp] theorem State.began_mem (s : State) (x : Site) (n : NodeRec) : (s.began x n).mem = s.mem := by
  grind [State.began, State.holdOps_mem, State.fireStart_mem]

@[simp] theorem State.putInst_mem (s : State) (x : Site) (n : NodeInst) : (s.putInst x n).mem = s.mem := rfl

@[simp] theorem State.holdBack_mem (s : State) (x : Site) : (s.holdBack x).mem = s.mem := by
  grind [State.holdBack, State.putSplit_mem]

@[simp] theorem State.nodeFault_mem (s : State) (x : Site) (f : FaultRec) : (s.nodeFault x f).mem = s.mem := by
  grind [State.nodeFault, State.faultToken_mem, State.putTile_mem, State.holdBack_mem, State.voteCheck_mem]

@[simp] theorem State.sendAll_mem (s : State) (x : Site) (n : NodeRec) (lat gap : Nat) (out : List (Nat × Token)) :
    (s.sendAll x n lat gap out).mem = s.mem := State.foldl_mem (fun _ _ => State.emit_mem ..) out s

theorem State.takeImage_mem {s : State} {r : Region} {p : Nat × State} (h : s.takeImage r = some p) : p.2.mem = s.mem := by
  unfold State.takeImage at h
  split at h
  · cases h
  · obtain ⟨_, _, rfl⟩ := Option.map_eq_some_iff.mp h
    rfl

theorem State.makeRoom_mem {part : Nat} {r : Region} {swap : List Nat} {fuel : Nat} {s t : State} (h : State.makeRoom part r swap fuel s = some t) :
    t.mem = s.mem := by
  induction fuel generalizing s with
  | zero => cases h
  | succ fuel ih =>
    rw [State.makeRoom] at h
    dsimp only at h
    split at h
    · cases h; rfl
    · split at h
      · next hf =>
        obtain ⟨pid, -, hp⟩ := List.exists_of_findSome?_eq_some hf
        split at hp
        · obtain ⟨a, ha, he⟩ := Option.map_eq_some_iff.mp hp
          cases he
          exact (ih h).trans (State.takeImage_mem ha)
        · cases hp
      · cases h

@[simp] theorem State.countUp_mem (s : State) (ctx level num : Nat) : (s.countUp ctx level num).mem = s.mem := by
  grind [State.countUp, State.putCtx_mem]

@[simp] theorem State.jobUp_mem (s : State) (job : Nat) : (s.jobUp job).mem = s.mem := rfl

@[simp] theorem State.markArms_mem (s : State) (ctx level num : Nat) : (s.markArms ctx level num).mem = s.mem := rfl

@[simp] theorem State.cancelPosted_mem (s : State) (n : Nat) (q : LQueue) (m : Nat) : (s.cancelPosted n q m).mem = s.mem := by
  unfold State.cancelPosted
  dsimp only
  split <;> simp

@[simp] theorem State.cancelQueues_mem (s : State) (ctx level num : Nat) : (s.cancelQueues ctx level num).mem = s.mem := by
  refine State.foldl_mem (fun s1 e => ?_) _ s
  have posted := State.foldl_mem (fun (s2 : State) m => s2.cancelPosted_mem e.1 e.2 m) (s.postedMembers ctx level num e.2) s1
  split <;> exact posted

@[simp] theorem State.cancelRelocs_mem (s : State) (job : Nat) : (s.cancelRelocs job).mem = s.mem := rfl

@[simp] theorem State.putWork_mem (s : State) (key : Nat) (w : Work) : (s.putWork key w).mem = s.mem := by
  grind [State.putWork, State.putRegion_mem]

@[simp] theorem State.advanceAll_mem (s : State) (ks : List Nat) : (s.advanceAll ks).mem = s.mem := State.foldl_mem (fun s k => s.advance_mem k false) ks s

@[simp] theorem State.touchImage_mem (s : State) (part ctx a : Nat) : (s.touchImage part ctx a).mem = s.mem := by
  grind [State.touchImage]

@[simp] theorem State.postWait_mem (s : State) (key c : Nat) (w : Word) : (s.postWait key c w).mem = s.mem := by
  grind [State.postWait, State.putRegion_mem]

@[simp] theorem State.replaceCode_mem (s : State) (ctx : Nat) (t : List (Nat × Nat × Nat)) : (s.replaceCode ctx t).mem = s.mem := by
  grind [State.replaceCode, State.putCtx_mem]

@[simp] theorem State.mapTgt_mem (s : State) (cdev xid : Nat) (f : TgtTxn → TgtTxn) : (s.mapTgt cdev xid f).mem = s.mem := rfl

theorem State.stage_mem {s : State} {cdev xid : Nat} {g : Staged} {t : State} (h : s.stage cdev xid g = some t) : t.mem = s.mem := by
  grind [State.stage, State.mapTgt_mem]

@[simp] theorem State.sendXctl_mem (s : State) (dev op reason xid count : Nat) :
    (s.sendXctl dev op reason xid count).mem = s.mem := by
  grind [State.sendXctl, State.sendAny_mem]

@[simp] theorem State.txnFinish_mem (s : State) (xid : Nat) : (s.txnFinish xid).mem = s.mem := by
  grind [State.txnFinish, State.cairnAddScc_mem]

@[simp] theorem State.queueStream_mem (s : State) (ks ps : List Nat) (cmd : SCmd) (order : Nat) : (s.queueStream ks ps cmd order).mem = s.mem := by
  grind [State.queueStream, State.mapTiles_mem]

@[simp] theorem State.credOrdinal_mem (s : State) (kind : Nat) (d : List Word) : (s.credOrdinal kind d).2.mem = s.mem := by
  grind [State.credOrdinal]

@[simp] theorem State.setTxn_mem (s : State) (key : Nat) (x : Option Nat) : (s.setTxn key x).mem = s.mem := by
  grind [State.setTxn, State.putRegion_mem]

@[simp] theorem State.putPort_mem (s : State) (x : SSite) (p : Stream) : (s.putPort x p).mem = s.mem := rfl

@[simp] theorem State.streamFault_mem (s : State) (x : SSite) (code va : Nat) : (s.streamFault x code va).mem = s.mem := by
  grind [State.streamFault, State.faultToken_mem, State.minorAt_mem, State.putPort_mem]

@[simp] theorem State.dropToks_mem (s : State) (key : Nat) (ts : List Token) : (s.dropToks key ts).mem = s.mem := by
  grind [State.dropToks, State.setFlags_mem]

@[simp] theorem State.dealTo_mem (s : State) (rg : Region) (bslot : Nat) (blk : Bif) (tile : Nat) (tok : Token) :
    (s.dealTo rg bslot blk tile tok).1.mem = s.mem := by
  grind [State.dealTo, State.putSplit_mem]

@[simp] theorem State.injectAt_mem (s : State) (via tile : Nat) (rg : Region) (bslot : Nat) (blk : Bif) (node : Nat) (p : Port) (src : Nat) (tok : Token) :
    (s.injectAt via tile rg bslot blk node p src tok).mem = s.mem := by
  grind [State.injectAt, State.toChan_mem]

@[simp] theorem State.inject_mem (s : State) (via tile : Nat) (rg : Region) (bslot : Nat) (blk : Bif) (node : Nat) (p : Port) (src : Nat) (tok : Token) :
    (s.inject via tile rg bslot blk node p src tok).mem = s.mem :=
  (State.foldl_mem (fun _ _ => State.injectAt_mem ..) _ _).trans (State.dealTo_mem ..)

@[simp] theorem State.feed_mem (s : State) (x : SSite) (c : Nat × Bif × Nat × Port) (t : Token) (rest : List Token) : (s.feed x c t rest).mem = s.mem := by
  grind [State.feed, State.putPort_mem, State.inject_mem]

@[simp] theorem State.wroteTok_mem (s : State) (x : SSite) (k : Nat) : (s.wroteTok x k).mem = s.mem := by
  grind [State.wroteTok, State.putPort_mem, State.noteErrs_mem]

@[simp] theorem State.putEngine_mem (s : State) (key : Nat) (e : Engine) : (s.putEngine key e).mem = s.mem := by
  grind [State.putEngine, State.putRegion_mem]

@[simp] theorem State.dropEngine_mem (s : State) (key id : Nat) : (s.dropEngine key id).mem = s.mem := by
  grind [State.dropEngine, State.putRegion_mem]

@[simp] theorem State.engineFault_mem (s : State) (x : ESite) (e : Engine) (code va : Nat) : (s.engineFault x e code va).mem = s.mem := by
  grind [State.engineFault, State.faultToken_mem, State.minorAt_mem, State.putEngine_mem]

@[simp] theorem State.drain_mem (s : State) (x : ESite) : (s.drain x).mem = s.mem := by
  grind [State.drain, State.cairnAddScc_mem, State.inject_mem, State.dropEngine_mem]

@[simp] theorem State.finishEngine_mem (s : State) (x : ESite) : (s.finishEngine x).mem = s.mem := by
  grind [State.finishEngine, State.drain_mem, State.cairnAddScc_mem, State.request_mem, State.putEngine_mem, State.engineFault_mem]

@[simp] theorem State.sendNull_mem (s : State) (port : Nat) : (s.sendNull port).mem = s.mem := by
  grind [State.sendNull, State.putRaw_mem]

@[simp] theorem State.askReplay_mem (s : State) (port : Nat) : (s.askReplay port).mem = s.mem := by
  grind [State.askReplay, State.sendNull_mem]

@[simp] theorem State.acceptFlit_mem (s : State) (f : Flit) : (s.acceptFlit f).mem = s.mem := by
  grind [State.acceptFlit, State.drawn_mem, State.drainPort_mem]

@[simp] theorem State.replayAll_mem (s : State) (port : Nat) : (s.replayAll port).mem = s.mem := by
  grind [State.replayAll, State.post_mem]

@[simp] theorem State.dropReq_mem (s : State) (q : Req) : (s.dropReq q).mem = s.mem := rfl

@[simp] theorem State.keepResp_mem (s : State) (pid : Nat) (q : Req) (body : List Byte) (fault : Option Nat) : (s.keepResp pid q body fault).mem = s.mem := by
  grind [State.keepResp]

theorem State.landToken_mem {s : State} {t : Token} {u : State} (h : s.landToken t = some u) : u.mem = s.mem := by
  grind [State.landToken, State.inject_mem, State.drawn_mem]

@[simp] theorem State.cairnReply_mem (s : State) (port dev ctx tag c status : Nat) :
    (s.cairnReply port dev ctx tag c status).mem = s.mem := by
  grind [State.cairnReply, State.putFlit_mem]

@[simp] theorem State.heapReply_mem (s : State) (port dev ctx tag status a : Nat) :
    (s.heapReply port dev ctx tag status a).mem = s.mem := by
  grind [State.heapReply, State.putFlit_mem]

@[simp] theorem State.hopWake_mem (s : State) : s.hopWake.mem = s.mem := State.foldl_mem (fun s q => by simp) _ s

@[simp] theorem State.mapJob_mem (s : State) (who : Who) (f : HeapJob → HeapJob) : (s.mapJob who f).mem = s.mem := by
  simp only [State.mapJob]
  (repeat' split) <;> simp [*]

@[simp] theorem State.beginAccs_mem (s : State) (x : Site) (accs : List Acc) (lanes : List Lane) : (s.beginAccs x accs lanes).mem = s.mem := by
  grind [State.beginAccs, State.issueAccs_mem, State.putFiring_mem]

@[simp] theorem State.prefetch_mem (s : State) (part pa : Nat) (l2 : Bool) : (s.prefetch part pa l2).mem = s.mem := by
  grind [State.prefetch]

@[simp] theorem State.landList_mem (port : Nat) (ts kept : List HeldTok) (s : State) : (s.landList port ts kept).1.mem = s.mem := by
  induction ts generalizing kept s with
  | nil => rfl
  | cons t ts ih => grind [State.landList, State.owe_mem, State.landToken_mem]

@[simp] theorem State.landHeld_mem (s : State) : s.landHeld.mem = s.mem := State.foldl_mem (by grind [State.landList_mem]) _ s

@[simp] theorem State.arcFault_mem (s0 : State) (src code : Nat) (itag : BitVec 32) : (State.arcFault s0 src code itag).mem = s0.mem := by
  grind [State.arcFault, State.putTile_mem, State.faultToken_mem]

@[simp] theorem State.credsCaught_mem (s : State) (port : Nat) : (s.credsCaught port).mem = s.mem :=
  State.foldl_mem (fun s1 _ => State.foldl_mem (by grind [State.engineFault_mem]) _ s1) _ s

@[simp] theorem State.pgmigUp_mem (s : State) (m : Nat) (move : Bool) : (s.pgmigUp m move).mem = s.mem := rfl

@[simp] theorem State.answerXctl_mem (s : State) (f : Flit) (op reason cdev xid : Nat) :
    (s.answerXctl f op reason cdev xid).mem = s.mem := by
  grind [State.answerXctl, State.putFlit_mem]

@[simp] theorem State.readyCheck_mem (s : State) (f : Flit) (cdev xid : Nat) : (s.readyCheck f cdev xid).mem = s.mem := by
  grind [State.readyCheck, State.answerXctl_mem, State.mapTgt_mem]

@[simp] theorem State.abortFinish_mem (s : State) (xid : Nat) : (s.abortFinish xid).mem = s.mem := by
  grind [State.abortFinish]

@[simp] theorem State.pending_mem (s : State) (xid : Nat) : (s.pending xid).mem = s.mem := by
  grind [State.pending, State.report_mem]

@[simp] theorem State.badSrc_mem (s : State) (l : Launch) : (s.badSrc l).mem = s.mem := by
  grind [State.badSrc, State.putQueue_mem]

@[simp] theorem State.askHeaders_mem (s : State) (ctx : Nat) (ts : List Nat) : (s.askHeaders ctx ts).mem = s.mem :=
  State.foldl_mem (by grind [State.request_mem]) ts s

@[simp] theorem State.emptyTiles_mem (s : State) (ks : List Nat) : (s.emptyTiles ks).mem = s.mem := rfl

@[simp] theorem State.place_mem (s : State) (lid : Nat) (l : Launch) (p : Spot) : (s.place lid l p).mem = s.mem := rfl

@[simp] theorem State.putRounds_mem (s : State) (die p : Nat) (rs : List Round) : (s.putRounds die p rs).mem = s.mem := rfl

@[simp] theorem State.serveRound_mem (s : State) (die p : Nat) : (s.serveRound die p).mem = s.mem := by
  grind [State.serveRound, State.place_mem, State.putRounds_mem]

@[simp] theorem State.withdraw_mem (s : State) (key : Nat) : (s.withdraw key).mem = s.mem := by
  grind [State.withdraw, State.putRegion_mem]

@[simp] theorem State.freeImage_mem (s : State) (ctx : Nat) (a : Option Nat) : (s.freeImage ctx a).mem = s.mem := by
  simp only [State.freeImage]
  (repeat' split) <;> simp [*]

theorem State.spill_mem {s : State} {pid : Nat} {p : Parked} {t : State} (h : s.spill pid p = some t) : t.mem = s.mem := by
  obtain ⟨_, ha, rfl⟩ := Option.map_eq_some_iff.mp h
  exact State.takeImage_mem ha

@[simp] theorem State.failFetch_mem (s : State) (f : Fetch) (code : Nat) : (s.failFetch f code).mem = s.mem := rfl

@[simp] theorem State.askSectors_mem (t : Nat) (f : Fetch) (n : Nat) (s : State) : (State.askSectors t f n s).mem = s.mem := by
  induction n with
  | zero => rfl
  | succ n ih => grind [State.askSectors, State.request_mem, State.failFetch_mem]

@[simp] theorem State.imageCame_mem (s : State) (f : Fetch) (bs : List Byte) : (s.imageCame f bs).mem = s.mem := by
  grind [State.imageCame, State.putCtx_mem]

@[simp] theorem State.fetchFault_mem (s : State) (key a code va : Nat) : (s.fetchFault key a code va).mem = s.mem := by
  grind [State.fetchFault, State.minorAt_mem, State.putRegion_mem, State.takeTrap_mem]

@[simp] theorem State.excludeDie_mem (s : State) (ctx die : Nat) : (s.excludeDie ctx die).mem = s.mem := by
  grind [State.excludeDie, State.putCtx_mem]

@[simp] theorem State.keepHeap_mem (s : State) (x : Site) (h : HeapFire) (accs : List Acc) (lanes healed : List Lane) (st : FireSt) :
    (s.keepHeap x h accs lanes healed st).mem = s.mem := rfl

@[simp] theorem State.mapNode_mem (s : State) (rg : Region) (bslot : Nat) (m : Image) (q : Placed) : (s.mapNode rg bslot m q).mem = s.mem := by
  grind [State.mapNode, State.putTile_mem]

@[simp] theorem State.refuseUnit_mem (s : State) (key : Nat) (rg : Region) (bslot : Nat) (b : Bif) (code node : Nat) :
    (s.refuseUnit key rg bslot b code node).mem = s.mem := by
  grind [State.refuseUnit, State.faultToken_mem, State.putRegion_mem, State.advance_mem, State.excludeDie_mem]

@[simp] theorem State.flagUnits_mem (s : State) (bs : Tab Bif) : (s.flagUnits bs).mem = s.mem := State.foldl_mem (by grind [State.advance_mem]) bs s

@[simp] theorem State.flagEngines_mem (s : State) (es : List Engine) :
    (s.flagEngines es).mem = s.mem := State.foldl_mem (by grind [State.advance_mem]) es s

@[simp] theorem State.fillWalker_mem (s : State) (die ctx va : Nat) : (s.fillWalker die ctx va).mem = s.mem := rfl

@[simp] theorem State.changeRecord_mem (s : State) (m : Minor) (g : FaultRec → Option FaultRec) : (s.changeRecord m g).mem = s.mem := by
  grind [State.changeRecord, State.putRegion_mem]

@[simp] theorem State.release_mem (s : State) (who : Who) : (s.release who).mem = s.mem := by
  simp only [State.release]
  (repeat' split) <;> simp [*]

@[simp] theorem State.dropMinor_mem (s : State) (idx : Nat) : (s.dropMinor idx).mem = s.mem := rfl

@[simp] theorem State.reportOnce_mem (s : State) (x : Report) : (s.reportOnce x).mem = s.mem := by
  grind [State.reportOnce, State.report_mem]

@[simp] theorem State.rasevUp_mem (s : State) (part lo w : Nat) : (s.rasevUp part lo w).mem = s.mem := rfl

@[simp] theorem State.dropFeats_mem (s : State) (die : Nat) : (s.dropFeats die).mem = s.mem := by
  unfold State.dropFeats
  split
  · rfl
  · exact State.foldl_mem (by grind [State.post_mem]) _ _

@[simp] theorem State.fencePe_mem (s : State) (tile pe : Nat) : (s.fencePe tile pe).mem = s.mem := by
  grind [State.fencePe, State.rasevUp_mem, State.putTile_mem, State.putRegion_mem, State.dropFeats_mem]

@[simp] theorem State.peFails_mem (s : State) (tile pe : Nat) : (s.peFails tile pe).mem = s.mem := by
  grind [State.peFails, State.rasevUp_mem, State.putTile_mem, State.fencePe_mem]

@[simp] theorem State.coreFails_mem (s : State) (key : Nat) : (s.coreFails key).mem = s.mem := by
  grind [State.coreFails, State.putRegion_mem, State.rasevUp_mem, State.dropCore_mem]

@[simp] theorem State.correctedUp_mem (s : State) (part : Nat) : (s.correctedUp part).mem = s.mem := rfl

@[simp] theorem State.dropBarriers_mem (s : State) (job : Nat) : (s.dropBarriers job).mem = s.mem := rfl

@[simp] theorem State.relocReport_mem (s : State) (m : Nat) (e : RelocEng) (q : Reloc) : (s.relocReport m e q).mem = s.mem := by
  grind [State.relocReport, State.report_mem, State.putEng_mem, State.advance_mem]

@[simp] theorem State.testIr_mem (s : State) : (s.testIr).mem = s.mem := rfl

@[simp] theorem State.mergeUnit_mem (s : State) (x : Split) : (s.mergeUnit x).mem = s.mem := by rw [s.sameButHostTiles_mergeUnit x]

@[simp] theorem State.tearCopy_mem (s : State) (r : Region) (b : Bif) (bslot : Nat) (x : Replica) : (s.tearCopy r b bslot x).mem = s.mem :=
  State.foldl_mem (fun s1 _ => State.foldl_mem (fun _ _ => State.injectAt_mem ..) _ s1) _ s

@[simp] theorem State.dropCopy_mem (s : State) (key bslot : Nat) (r : Region) (x : Replica) : (s.dropCopy key bslot r x).mem = s.mem := by
  unfold State.dropCopy
  dsimp only
  split
  · simp
  · split
    · simp
    · rw [State.foldl_mem fun _ _ => State.toChan_mem ..]
      simp

@[simp] theorem State.countRead_mem (s : State) (x : Site) (n : NodeRec) (row : Nat) : (s.countRead x n row).mem = s.mem := by
  grind [State.countRead, State.putTile_mem]

@[simp] theorem State.arriveStore_mem (s : State) (key tile idx port : Nat) (tok : Token) :
    (s.arriveStore key tile idx port tok).mem = s.mem := by
  grind [State.arriveStore, State.putTile_mem, State.dropToks_mem]

@[simp] theorem State.arriveNode_mem (s : State) (key tile idx : Nat) (tok : Token) : (s.arriveNode key tile idx tok).mem = s.mem := by
  unfold State.arriveNode
  dsimp only
  split
  · split
    · exact State.getD_mem (fun _ h => (State.deliver_mem h).trans (State.putTile_mem ..)) rfl
    · rfl
  · simp

@[simp] theorem State.arriveBlock_mem (s : State) (rg : Region) (tile idx blkid : Nat) (c : ChanTok) :
    (s.arriveBlock rg tile idx blkid c).mem = s.mem := by
  grind [State.arriveBlock, State.putTile_mem, State.inject_mem]

@[simp] theorem State.arriveRemote_mem (s : State) (rg : Region) (tile idx dev : Nat) (c : ChanTok) :
    (s.arriveRemote rg tile idx dev c).mem = s.mem := by
  grind [State.arriveRemote, State.drawn_mem, State.putTile_mem, State.send_mem, State.arcFault_mem]

theorem State.retried_mem {s : State} {tile idx : Nat} {st : FireSt} {p : Instr × State} (h : s.retried tile idx st = some p) : p.2.mem = s.mem := by
  unfold State.retried at h
  split at h
  · cases h
  · split at h
    · cases h
    · obtain ⟨_, _, rfl⟩ := Option.map_eq_some_iff.mp h
      exact State.putFiring_mem ..

@[simp] theorem State.waitOver_mem (s : State) (w : CWait) : (s.waitOver w).mem = s.mem := by
  grind [State.waitOver, State.putRegion_mem, State.putTile_mem, State.cairnReply_mem]

@[simp] theorem State.putAcc_mem (s : State) (x : Site) (a : PolyAcc) : (s.putAcc x a).mem = s.mem := rfl

@[simp] theorem State.noteDue_mem (s : State) : s.noteDue.mem = s.mem := by rw [s.sameButHostTiles_noteDue]

@[simp] theorem State.takeTurn_mem (s : State) : (s.takeTurn).2.mem = s.mem := by
  grind [State.takeTurn, State.drawn_mem]

end Sys2Proof.Machine
end

section
/-! SUPPORT. A machine is safe where its memory has its canonical form: what that says of each kind of answer, of the forms of memory, and of loops. -/

namespace Sys2Proof.Machine

/-! ### Answers whose every machine is safe -/

def Laid.Safe : Laid → Prop
  | .ok s _ => s.safe = true
  | .fault s _ _ => s.safe = true

def Perf.Safe : Perf → Prop
  | .ok s _ => s.safe = true
  | _ => True

def Turned.Safe : Turned → Prop
  | .more s _ => s.safe = true
  | .all s _ => s.safe = true
  | .fault s _ _ => s.safe = true

def Barrier.Safe : Barrier → Prop
  | .ok s _ _ _ => s.safe = true
  | .waits s _ _ _ => s.safe = true
  | .ask s _ _ _ => s.safe = true
  | .fault s _ _ _ => s.safe = true

def PinRes.Safe : PinRes → Prop
  | .ok s => s.safe = true
  | .fault _ => True

def HeapRes.Safe : HeapRes → Prop
  | .done s _ _ _ _ _ _ => s.safe = true
  | .stand s _ _ _ => s.safe = true
  | .fault s _ _ _ _ => s.safe = true

def AllocRes.Safe : AllocRes → Prop
  | .ok s _ => s.safe = true
  | .fault s _ _ => s.safe = true

def FireRes.Safe : FireRes → Prop
  | .fired s _ _ => s.safe = true
  | .firedAt s _ _ => s.safe = true
  | .fault s _ => s.safe = true
  | .stay s => s.safe = true

def CRes.Safe : CRes → Prop
  | .next s _ => s.safe = true
  | .effect s _ => s.safe = true
  | .stay s _ => s.safe = true
  | .fault s _ _ _ _ => s.safe = true

def ImgRes.Safe : ImgRes → Prop
  | .ok s _ => s.safe = true
  | .fault s _ _ => s.safe = true
  | .wait s => s.safe = true

def Pre.Safe : Pre → Prop
  | .ok s => s.safe = true
  | .hold s => s.safe = true
  | .ask s _ _ => s.safe = true
  | .fault s _ => s.safe = true

def ResizeRes.Safe : ResizeRes → Prop
  | .goes s _ => s.safe = true
  | .done s _ => s.safe = true

def StageRes.Safe : StageRes → Prop
  | .done s => s.safe = true
  | .dead s => s.safe = true
  | .waits s _ => s.safe = true
  | .noRoute s => s.safe = true

def Served.Safe : Served → Prop
  | .done s => s.safe = true
  | .held s => s.safe = true
  | .part s _ => s.safe = true
  | .wait => True

def HopRes.Safe : HopRes → Prop
  | .done s _ _ => s.safe = true
  | _ => True

def Reached.Safe : Reached → Prop
  | .wait s => s.safe = true
  | .issue s _ _ => s.safe = true
  | .plain s => s.safe = true

def ReadOut.Safe : ReadOut → Prop
  | .fault r => r.Safe
  | .issued s _ _ => s.safe = true
  | _ => True

/-- A next state of the outcome is safe. -/
def SafeOutcome : Host.Outcome State Fault Refusal → Prop
  | .next t => t.safe = true
  | _ => True

theorem SafeOutcome.next {t : State} {o : Host.Outcome State Fault Refusal} (h : SafeOutcome o) (ho : o = .next t) : t.safe = true := by
  rwa [ho] at h

/-! ### Memory -/

theorem Mem.wf_foldl {α : Type} {f : Mem → α → Mem} (h : ∀ (m : Mem) (a : α), m.wf = true → (f m a).wf = true) (l : List α) {m : Mem} (hm : m.wf = true) :
    (l.foldl f m).wf = true :=
  List.foldlRecOn (motive := fun n : Mem => n.wf = true) l f hm fun n hn a _ => h n a hn

theorem Mem.wf_fillTable {m : Mem} (h : m.wf = true) (n a : Nat) (v : Word) : (fillTable n m a v).wf = true := by
  induction n generalizing m a with
  | zero => exact h
  | succ n ih => exact ih (Mem.wf_putWord h a v) _

theorem Mem.wf_splitFill {m : Mem} (h : m.wf = true) (n a : Nat) (e : Word) (size : Nat) : (splitFill n m a e size).wf = true := by
  induction n generalizing m a e with
  | zero => exact h
  | succ n ih => exact ih (Mem.wf_putWord h a e) _ _

theorem Mem.copyFrame_cells (m : Mem) (a b : Nat) : (m.copyFrame a b).cells = (m.write b (m.read a 65536)).cells := by
  simp only [Mem.copyFrame]

theorem Mem.wf_copyFrame {m : Mem} (h : m.wf = true) (a b : Nat) : (m.copyFrame a b).wf = true :=
  Mem.wf_of_cells (Mem.wf_write h b (m.read a 65536)) (m.copyFrame_cells a b)

theorem Mem.wf_putHeader {m : Mem} (h : m.wf = true) (a : Nat) (v : Word) : (m.putHeader a v).wf = true := Mem.wf_putWord h a v

theorem Mem.wf_copyObject {m : Mem} (h : m.wf = true) (a b n : Nat) : (m.copyObject a b n).wf = true := by
  refine Mem.wf_foldl (fun m1 i h1 => Mem.wf_stampStore h1 _) _ (Mem.wf_foldl (fun m1 i h1 => ?_) _ (Mem.wf_write h b _))
  split
  · exact Mem.wf_setPoison h1 _ _
  · exact h1

theorem Mem.wf_moveObject {m : Mem} (h : m.wf = true) (a b n : Nat) : (m.moveObject a b n).wf = true := Mem.wf_putHeader (Mem.wf_copyObject h a b n) _ _

/-! ### Loops and answers -/

/-- A machine whose memory is that of a safe one is safe. -/
theorem State.safe_of_mem {s t : State} (hs : s.safe = true) (h : t.mem = s.mem) : t.safe = true := by rwa [State.safe, h]

theorem State.safe_putMem {s : State} {m : Mem} (h : m.wf = true) : ({ s with mem := m } : State).safe = true := h

theorem State.safe_foldl {α : Type} {f : State → α → State} (h : ∀ (s : State) (a : α), s.safe = true → (f s a).safe = true) (l : List α) {s : State}
    (hs : s.safe = true) : (l.foldl f s).safe = true :=
  List.foldlRecOn (motive := fun t : State => t.safe = true) l f hs fun t ht a _ => h t a ht

theorem State.safe_getD {o : Option State} {u : State} (h : ∀ t, o = some t → t.safe = true) (hu : u.safe = true) : (o.getD u).safe = true := by
  cases o with
  | none => exact hu
  | some t => exact h t rfl

end Sys2Proof.Machine
end

section
/-! SUPPORT. Translation, the heap and accesses keep memory in its canonical form. -/

namespace Sys2Proof.Machine

theorem State.safe_loadLocal {s : State} (hs : s.safe = true) (a n : Nat) : (s.loadLocal a n).2.safe = true := by
  unfold State.loadLocal
  split
  · exact Mem.wf_stampLoad hs a
  · dsimp only
    (repeat' split) <;> simp only [hs]

theorem State.safe_storeLocal {s : State} (hs : s.safe = true) (a : Nat) (bs : List Byte) (k : StoreKind) (fabric : Bool) :
    (s.storeLocal a bs k fabric).1.safe = true := by
  have stored : ({ s with mem := (s.mem.store a bs k).1 } : State).safe = true := Mem.wf_store hs a bs k
  have reg := fun x => State.safe_of_mem hs (s.regAccess_mem x)
  unfold State.storeLocal
  dsimp only
  split
  · split
    · exact State.safe_of_mem stored (State.ppwUp_mem ..)
    · exact stored
  · split
    · simp only [reg]
    · exact State.safe_of_mem hs (State.herrUp_mem ..)

theorem State.safe_translate {s : State} (hs : s.safe = true) (o : TlbOf) (ctx va : Nat) (i : Intent) : (s.translate o ctx va i).2.safe = true := by
  grind [State.translate, State.safe, State.tlbAdd_mem, Mem.wf_putWord]

theorem State.safe_layPieces {s : State} (hs : s.safe = true) (q : LayReq) (ps : List (Nat × Nat)) (bs : List Byte) (acc : List Acc) :
    (s.layPieces q ps bs acc).Safe := by
  induction ps generalizing s bs acc with
  | nil => exact hs
  | cons p ps ih => grind [State.layPieces, State.safe_translate, Laid.Safe]

theorem State.safe_lay {s : State} (hs : s.safe = true) (q : LayReq) (va n : Nat) (bs : List Byte) : (s.lay q va n bs).Safe := by
  grind [State.lay, State.safe, State.safe_layPieces, Laid.Safe]

theorem State.safe_performHere {s : State} (hs : s.safe = true) (accs : List Acc) (i : Nat) (a : Acc) (t : Nat) : (s.performHere accs i a t).Safe := by
  grind [State.performHere, State.safe, State.safe_storeLocal, State.safe_loadLocal, Perf.Safe]

theorem State.safe_performThere {s : State} (hs : s.safe = true) (ctx : Nat) (who : Who) (accs : List Acc) (a : Acc) (t : Nat) :
    (s.performThere ctx who accs a t).Safe := by
  grind [State.performThere, State.safe, State.request_mem, Perf.Safe]

theorem State.safe_performAll {s : State} (hs : s.safe = true) (ctx : Nat) (is : List Nat) (accs : List Acc) : (State.performAll ctx is s accs).Safe := by
  induction is generalizing s accs with
  | nil => exact hs
  | cons i is ih => grind [State.performAll, State.safe_performHere, Perf.Safe]

theorem State.safe_perform {s : State} (hs : s.safe = true) (ctx : Nat) (who : Who) (accs : List Acc) (i : Nat) : (s.perform ctx who accs i).Safe := by
  grind [State.perform, State.safe, State.safe_performAll, State.safe_performThere, Perf.Safe]

theorem State.safe_turnAccs {s : State} (hs : s.safe = true) (ctx : Nat) (who : Who) (accs : List Acc) : (s.turnAccs ctx who accs).Safe := by
  grind [State.turnAccs, State.safe, State.safe_perform, State.drawn_mem, Turned.Safe, Perf.Safe]

theorem State.safe_loadPieces {s : State} (hs : s.safe = true) (ps : List (Nat × Nat)) : (State.loadPieces ps s).2.2.safe = true := by
  induction ps generalizing s with
  | nil => exact hs
  | cons p ps ih => exact ih (State.safe_loadLocal hs _ _)

theorem State.safe_storePieces {s : State} (hs : s.safe = true) (psn : Bool) (ps : List (Nat × Nat)) (bs : List Byte) (prev : Option Nat) :
    (State.storePieces psn ps bs prev s).1.safe = true := by
  induction ps generalizing s bs prev with
  | nil => exact hs
  | cons p ps ih => exact ih (State.safe_storeLocal hs ..) ..

theorem State.safe_loadNow {s : State} (hs : s.safe = true) (a n : Nat) : (s.loadNow a n).2.2.safe = true := by
  grind [State.loadNow, State.safe, State.safe_loadPieces]

theorem State.safe_storeNow {s : State} (hs : s.safe = true) (a : Nat) (bs : List Byte) (psn : Bool) : (s.storeNow a bs psn).1.safe = true := by
  grind [State.storeNow, State.safe, State.safe_storePieces]

theorem State.safe_barrierLookup {s : State} (hs : s.safe = true) (o : TlbOf) (ctx page : Nat) (store : Bool) :
    (s.barrierLookup o ctx page store).2.2.safe = true := by
  grind [State.barrierLookup, State.safe, State.safe_translate, State.drawn_mem, State.barrierAdd_mem]

/-- What holds of a function of fuel round by round, said of the recursor it is compiled to. -/
theorem brecOn_induction {α : Type} {F : (n : Nat) → Nat.below (motive := fun _ => α) n → α} {P : α → Prop} (zero : P (F 0 ⟨⟩))
    (succ : ∀ (n : Nat) (below : Nat.below (motive := fun _ => α) (n + 1)), P below.1 → P (F (n + 1) below)) (n : Nat) :
    P (Nat.brecOn (motive := fun _ => α) n F) := by
  induction n with
  | zero => exact zero
  | succ n ih => exact succ n _ ih

/-- The kernel would count to 65536 in ones where it checks the equations of `State.barrier`, so this opens its round, of the recursor it is compiled to. -/
theorem State.safe_barrier (o : TlbOf) (ctx : Nat) (store : Bool) (f n fuel : Nat) {s : State} (hs : s.safe = true) (r : Word) (hops : Nat)
    (hdr : Option (Word × Word)) : (State.barrier o ctx store f n fuel s r hops hdr).Safe := by
  delta State.barrier
  refine brecOn_induction (F := State.barrier._f o ctx store f n)
    (P := fun g : State → Word → Nat → Option (Word × Word) → Barrier => ∀ s, s.safe = true → ∀ r hops hdr, (g s r hops hdr).Safe)
    ?zero (fun fuel below ih s hs r hops hdr => ?succ) fuel s hs r hops hdr
  case zero => exact fun s hs r hops hdr => hs
  have found := State.safe_barrierLookup hs o ctx (refVa r / 65536 * 65536) store
  dsimp only [State.barrier._f]
  split
  · exact hs
  · split
    · exact hs
    · split
      · next heq => rw [heq] at found; exact found
      · next heq =>
        rw [heq] at found
        have hs1 := found
        (repeat' split) <;> simp_all [Barrier.Safe]

theorem State.safe_pinHere {s : State} (hs : s.safe = true) (pa : Nat) (up : Bool) : (s.pinHere pa up).Safe := by
  have wrote := fun v => Mem.wf_stampStore (Mem.wf_putWord hs (localOf pa) v) (localOf pa)
  unfold State.pinHere
  dsimp only
  split
  · trivial
  · split
    · split
      · trivial
      · exact wrote _
    · split
      · trivial
      · exact wrote _

theorem State.safe_heapAsk {s : State} (hs : s.safe = true) (op pa ctx : Nat) (who : Who) (j : HeapJob) (stage : Nat) :
    (s.heapAsk op pa ctx who j stage).Safe := by
  grind [State.heapAsk, State.safe, State.askHop_mem, HeapRes.Safe]

theorem State.safe_heapAt {s : State} (hs : s.safe = true) (ctx : Nat) (who : Who) (op : HeapOp) (f n : Nat) (bs : List Byte) (psn : Bool)
    (j : HeapJob) (pa : Nat) : (s.heapAt ctx who op f n bs psn j pa).Safe := by
  have asked := fun op j => State.safe_heapAsk hs op pa ctx who j 4
  have pinned := fun up => State.safe_pinHere hs pa up
  cases op
  case cmp => exact hs
  case load => grind [State.heapAt, State.safe_loadNow, HeapRes.Safe]
  case store => grind [State.heapAt, State.safe_storeNow, HeapRes.Safe]
  all_goals grind [State.heapAt, HeapRes.Safe, PinRes.Safe]

theorem State.safe_heapTurn {s : State} (hs : s.safe = true) (o : TlbOf) (ctx : Nat) (who : Who) (op : HeapOp) (f n : Nat) (bs : List Byte) (psn : Bool) (j : HeapJob) (accs : List Acc) :
    (s.heapTurn o ctx who op f n bs psn j accs).Safe := by
  grind [State.heapTurn, State.safe, State.safe_turnAccs, State.safe_barrier, State.safe_heapAsk, State.safe_heapAt, Turned.Safe, HeapRes.Safe, Barrier.Safe]

end Sys2Proof.Machine
end

section
/-! SUPPORT. Launches, pages, heap buffers and firings keep memory in its canonical form. -/

namespace Sys2Proof.Machine

theorem State.safe_newFrame {s : State} (hs : s.safe = true) {a : Nat} {t : State} (h : s.newFrame = some (a, t)) : t.safe = true := by
  simp only [State.newFrame, Option.map_eq_some_iff, Prod.mk.injEq] at h
  obtain ⟨_, _, _, rfl⟩ := h
  exact State.safe_putMem (Mem.wf_putFrame hs _ _)

theorem State.safe_mapLeaf {va : Nat} {leaf : Word} {fuel level table : Nat} {s t : State} (hs : s.safe = true)
    (h : State.mapLeaf va leaf fuel level table s = some t) : t.safe = true := by
  induction fuel generalizing s level table with
  | zero => cases h
  | succ fuel ih =>
    rw [State.mapLeaf] at h
    dsimp only at h
    split at h
    · cases h; exact State.safe_putMem (Mem.wf_putWord hs _ _)
    · split at h
      · exact ih hs h
      · split at h
        · cases h
        · next hf => exact ih (State.safe_putMem (Mem.wf_putWord (Mem.wf_fillTable (State.safe_newFrame hs hf) ..) ..)) h

theorem State.safe_mapFrame {s t : State} {ctx va frame : Nat} {heap : Bool} (hs : s.safe = true) (h : s.mapFrame ctx va frame heap = some t) :
    t.safe = true := by
  simp only [State.mapFrame, Option.map_eq_some_iff] at h
  obtain ⟨s1, h1, rfl⟩ := h
  exact State.safe_of_mem (State.safe_mapLeaf hs h1) (State.invalidate_mem ..)

theorem State.safe_freePage {s : State} (hs : s.safe = true) (frame : Nat) : (s.freePage frame).safe = true := by
  grind [State.freePage, State.safe, Mem.wf_putWord]

theorem State.safe_deposit {s : State} (hs : s.safe = true) (ctx lo hi : Nat) (cowf : Bool) : (s.deposit ctx lo hi cowf).safe = true := by
  have wrote : ∀ m : Mem, m.wf = true → ∀ (a b c : Nat) (u v w : Word), (((m.putWord a u).putWord b v).putWord c w).wf = true :=
    fun m hm a b c u v w => Mem.wf_putWord (Mem.wf_putWord (Mem.wf_putWord hm a u) b v) c w
  unfold State.deposit
  dsimp only
  split
  · exact State.safe_of_mem (State.safe_putMem (wrote _ (Mem.wf_putWord (Mem.wf_putWord hs ..) ..) ..)) (State.logOverflow_mem ..)
  · exact State.safe_putMem (wrote _ hs ..)

theorem State.safe_splitLeaf {ctx va n : Nat} {s t : State} (hs : s.safe = true) (h : State.splitLeaf ctx va n s = some t) : t.safe = true := by
  induction n generalizing s with
  | zero => cases h; exact hs
  | succ n ih =>
    rw [State.splitLeaf] at h
    split at h
    · split at h
      · cases h; exact hs
      · dsimp only at h
        split at h
        · cases h
        · next hf => exact ih (State.safe_putMem (Mem.wf_putWord (Mem.wf_splitFill (State.safe_newFrame hs hf) ..) ..)) h
    · cases h; exact hs

theorem State.safe_mapCopy {s t : State} {ctx va g : Nat} (hs : s.safe = true) (h : s.mapCopy ctx va g = some t) : t.safe = true := by
  simp only [State.mapCopy, Option.map_eq_some_iff] at h
  obtain ⟨s1, h1, rfl⟩ := h
  have split1 := State.safe_splitLeaf hs h1
  split
  · next entry _ =>
    exact State.safe_deposit (State.safe_of_mem (State.safe_putMem (Mem.wf_putWord split1 ..)) (State.invalidate_mem ..)) ..
  · exact split1

theorem State.safe_copyCow {s t : State} {ctx old : Nat} (hs : s.safe = true) (h : s.copyCow ctx old = some t) : t.safe = true := by
  unfold State.copyCow at h
  -- The search of the page table stands for itself: it is not to be run when the cases below are checked.
  obtain ⟨search, hw⟩ : ∃ search, search = findVa := ⟨_, rfl⟩
  rw [← hw] at h
  split at h
  · cases h
  · next f s1 hf =>
    dsimp only at h
    have copied : ∀ fr fr1, ({ s1 with mem := ((s1.mem.copyFrame old f).putFrame f fr).putFrame old fr1 } : State).safe = true :=
      fun _ _ => State.safe_putMem (Mem.wf_putFrame (Mem.wf_putFrame (Mem.wf_copyFrame (State.safe_newFrame hs hf) old f) f _) old _)
    have counted := fun fr fr1 => State.safe_of_mem (copied fr fr1) (State.cwfUp_mem _ old)
    split at h
    · cases h; exact counted _ _
    · exact State.safe_mapCopy (counted _ _) h

theorem State.safe_serveCow {s : State} (hs : s.safe = true) (ctx a : Nat) : (s.serveCow ctx a).safe = true := by
  unfold State.serveCow
  split
  · exact State.safe_getD (fun _ => State.safe_copyCow hs) hs
  · exact hs

theorem State.safe_closeRest {s : State} (hs : s.safe = true) (a fill : Nat) : (s.closeRest a fill).safe = true := by
  unfold State.closeRest
  split
  · exact hs
  · exact State.safe_putMem (Mem.wf_putWord hs _ _)

theorem State.safe_closePage {s : State} (hs : s.safe = true) (ctx : Nat) (b : HeapBuf) : (s.closePage ctx b).safe = true := by
  have served : (if (s.mem.frame (s.bufAt ctx b)).cow then s.serveCow ctx (s.bufAt ctx b) else s).safe = true := by
    split
    · exact State.safe_serveCow hs ..
    · exact hs
  unfold State.closePage
  generalize (if (s.mem.frame (s.bufAt ctx b)).cow then s.serveCow ctx (s.bufAt ctx b) else s) = s1 at served ⊢
  dsimp only
  split
  · exact served
  · exact State.safe_closeRest served ..

theorem State.safe_closeBuf {s : State} (hs : s.safe = true) (o : TlbOf) (h : Nat) : (s.closeBuf o h).safe = true := by
  unfold State.closeBuf
  split
  · exact State.safe_of_mem (State.safe_closePage hs ..) (State.putBuf_mem ..)
  · exact hs

theorem State.safe_alloc {s : State} (hs : s.safe = true) (o : TlbOf) (ctx size cls h : Nat) : (s.alloc o ctx size cls h).Safe := by
  unfold State.alloc
  split
  · exact hs
  · split
    · next b _ =>
      split
      · dsimp only
        split
        · exact hs
        · exact State.safe_of_mem (State.safe_closeRest (State.safe_putMem (Mem.wf_stampStore (Mem.wf_putWord (Mem.wf_putWord hs ..) ..) _)) ..)
            (State.putBuf_mem ..)
      · split
        · exact hs
        · exact State.safe_closeBuf hs ..
    · split <;> exact hs

/-- The search for a page stands for itself, and the body is put in place whole: neither is to be run when the cases are checked. -/
theorem State.safe_refill {s t : State} {o : TlbOf} {ctx h : Nat} (hs : s.safe = true) (ht : s.refill o ctx h = some t) : t.safe = true := by
  have body := Eq.refl State.refill
  conv at body => rhs; delta State.refill
  rw [body] at ht
  beta_reduce at ht
  obtain ⟨search, hn⟩ : ∃ search, search = State.nextPage := ⟨_, rfl⟩
  rw [← hn] at ht
  split at ht
  · cases ht; exact hs
  · split at ht
    · cases ht
    · next hf =>
      rw [Option.map_eq_some_iff] at ht
      obtain ⟨s2, h2, rfl⟩ := ht
      have mapped := State.safe_mapFrame (State.safe_newFrame (State.safe_closeBuf hs o h) hf) h2
      exact State.safe_of_mem (State.safe_freePage mapped _) ((State.putBuf_mem ..).trans (State.usePage_mem ..))

theorem State.safe_freeNode {s : State} (hs : s.safe = true) (tile pe slot : Nat) : (s.freeNode tile pe slot).safe = true := by
  unfold State.freeNode
  split
  · exact hs
  · dsimp only
    split
    · exact hs
    · split
      · exact State.safe_foldl (fun s h hs => State.safe_closeBuf hs (.tile tile) h) _ hs
      · exact hs
    · exact hs

theorem FireRes.safe_run {r : FireRes} (h : r.Safe) (x : Site) (n : NodeRec) (lat gap : Nat) : (r.run x n lat gap).safe = true := by
  cases r with
  | fired s out fl => exact State.safe_of_mem h (by simp [FireRes.run])
  | firedAt s out fl =>
    refine State.safe_of_mem h ?_
    rw [FireRes.run, State.fireEnd_mem, State.foldl_mem fun _ _ => State.emit_mem ..]
    simp
  | fault s f => exact State.safe_of_mem h (by simp [FireRes.run])
  | stay s =>
    rw [FireRes.run]
    split
    · exact h
    · split
      · exact State.safe_of_mem h (State.began_mem ..)
      · exact State.safe_of_mem h (State.passSlot_mem ..)

theorem safe_fireNode {s : State} {g : State → Site → FireRes} (h : ∀ x, (g s x).Safe) (n : NodeRec) (lat gap : Nat) :
    SafeOutcome (fireNode s n lat gap g) := by
  unfold fireNode
  split
  · trivial
  · exact FireRes.safe_run (h _) ..

/-- A firing that answers the machine it got. -/
theorem safe_firePure {s : State} (hs : s.safe = true) (n : NodeRec) (op : Nat) (g : Site → Out × BitVec 10) : SafeOutcome (firePure s n op g) := by
  unfold firePure
  refine safe_fireNode (fun x => ?_) ..
  split
  exact hs

theorem safe_fireMap1 {s : State} (hs : s.safe = true) (n : NodeRec) (op : Nat) (g : Nat → VRes) : SafeOutcome (fireMap1 s n op g) :=
  safe_firePure hs ..

theorem safe_fireMap2 {s : State} (hs : s.safe = true) (n : NodeRec) (op : Nat) (g : Nat → Nat → VRes) : SafeOutcome (fireMap2 s n op g) :=
  safe_firePure hs ..

theorem State.safe_releasePages {s : State} (hs : s.safe = true) (job : Nat) : (s.releasePages job).safe = true := by
  unfold State.releasePages
  refine State.safe_foldl (fun s u hs => ?_) _ hs
  split
  · exact hs
  · dsimp only
    split
    · have unmapped : ∀ cs : List Nat, (cs.foldl (fun s2 c => match s2.leafAt c u.2 with
          | some (_, entry) => ({ s2 with mem := s2.mem.putWord entry 0 } : State).invalidate c
          | none => s2) s).safe = true := fun cs => State.safe_foldl (fun s2 c h2 => by
        split
        · next entry _ => exact State.safe_of_mem (s := { s2 with mem := s2.mem.putWord entry 0 }) (Mem.wf_putWord h2 ..) (State.invalidate_mem ..)
        · exact h2) cs hs
      refine Mem.wf_of_cells (unmapped (s.jobCtxs job)) ?_
      split <;> rfl
    · exact hs

theorem State.safe_phaseEnds {s : State} (hs : s.safe = true) (job : Nat) : (s.phaseEnds job).safe = true :=
  Mem.wf_of_cells (m := (s.releasePages job).mem) (State.safe_releasePages hs job) rfl

theorem State.safe_nextPhase {s : State} (hs : s.safe = true) (job n : Nat) : (State.nextPhase job n s).safe = true := by
  induction n generalizing s with
  | zero => exact hs
  | succ n ih =>
    have ended := fun (h : Hosting) => State.safe_phaseEnds (s := { s with host := h }) hs job
    rw [State.nextPhase]
    dsimp only
    split
    · exact hs
    · split
      · exact ih (ended _)
      · exact ended _

theorem State.safe_completeArm {s : State} (hs : s.safe = true) (ctx : Nat) (c : Ctx) (a : Arm) : (s.completeArm ctx c a).safe = true := by
  have advanced := fun x => State.safe_of_mem hs (((s.putCtx ctx x).advance_mem a.cairn a.cancelled).trans (s.putCtx_mem ctx x))
  unfold State.completeArm
  dsimp only
  split
  · exact State.safe_of_mem (advanced _) (State.countUp_mem ..)
  · refine State.safe_of_mem ?_ (State.jobUp_mem ..)
    split
    · exact State.safe_nextPhase (advanced _) ..
    · split
      · exact advanced _
      · exact advanced _
  · exact advanced _

theorem State.safe_settleAll {s : State} (hs : s.safe = true) (job n : Nat) : (State.settleAll job n s).safe = true := by
  induction n generalizing s with
  | zero => exact hs
  | succ n ih =>
    rw [State.settleAll]
    split
    · exact ih (State.safe_completeArm hs ..)
    · exact hs

theorem State.safe_settle {s : State} (hs : s.safe = true) (ctx : Nat) : (s.settle ctx).safe = true := by
  grind [State.settle, State.safe, State.safe_settleAll]

theorem State.safe_endLaunch {s : State} (hs : s.safe = true) (lid : Nat) (flagged : Bool) : (s.endLaunch lid flagged).safe = true := by
  grind [State.endLaunch, State.safe, State.safe_settle, State.countUp_mem, State.advance_mem, State.putLaunch_mem]

theorem State.safe_admitLaunch {s : State} (hs : s.safe = true) (l : Launch) : (s.admitLaunch l).safe = true := by
  grind [State.admitLaunch, State.safe, State.putLaunch_mem, State.safe_endLaunch]

theorem State.safe_arm {s : State} (hs : s.safe = true) (ctx level num cairn count : Nat) :
    (s.arm ctx level num cairn count).safe = true := by
  grind [State.arm, State.safe, State.safe_settle, State.putCtx_mem]

theorem State.safe_cancelLevel {s : State} (hs : s.safe = true) (ctx level num : Nat) : (s.cancelLevel ctx level num).safe = true := by
  refine State.safe_settle (State.safe_of_mem hs ?_) ctx
  have marked : ∀ l : List Nat, (l.foldl (fun s' l => s'.cancelLaunch l)
      (if level = 0 then s.cancelQueues ctx level num else (s.cancelQueues ctx level num).markArms ctx level num)).mem = s.mem := fun l => by
    rw [State.foldl_mem fun _ _ => State.cancelLaunch_mem ..]
    split <;> simp
  split
  · rw [State.cancelRelocs_mem]; exact marked _
  · exact marked _

end Sys2Proof.Machine
end

section
/-! SUPPORT. Control records and commits keep memory in its canonical form. -/

namespace Sys2Proof.Machine

theorem State.safe_startCancels {s : State} (hs : s.safe = true) (ctx launch : Nat) (cs : List (Nat × Word)) :
    (s.startCancels ctx launch cs).safe = true := by
  unfold State.startCancels
  refine State.safe_foldl (fun s c hs => ?_) cs hs
  split
  · exact State.safe_of_mem hs (State.cancelLaunch_mem ..)
  · exact State.safe_cancelLevel hs ..

theorem State.safe_coreFault {s : State} (hs : s.safe = true) (c : CSite) (w : Work) (code reason addr : Nat) :
    (s.coreFault c w code reason addr).safe = true := by
  have put := State.safe_of_mem hs (s.putWork_mem c.key w)
  unfold State.coreFault
  split
  · dsimp only
    split <;> exact put
  · dsimp only
    split <;> exact put
  · exact State.safe_startCancels (State.safe_of_mem hs ((State.takeTrap_mem ..).trans (State.advanceAll_mem ..))) ..

theorem CRes.safe_run {r : CRes} (h : r.Safe) (c : CSite) : (r.run c).safe = true := by
  cases r with
  | next s w => exact State.safe_of_mem h (State.putWork_mem ..)
  | effect s w => exact State.safe_of_mem h (State.putWork_mem ..)
  | stay s w => exact State.safe_of_mem h (State.putWork_mem ..)
  | fault s w code reason addr => exact State.safe_coreFault h ..

theorem CRes.safe_afterWait {r : CRes} (h : r.Safe) (c : CSite) : (r.afterWait c).Safe := by
  cases r <;> exact h

/-- A local record changes its working copy alone. -/
theorem safe_ctlLocal {s : State} (hs : s.safe = true) (g : State → CSite → LRes) : SafeOutcome (ctlLocal s g) := by
  unfold ctlLocal
  split
  · trivial
  · split
    · exact CRes.safe_run (r := .next s _) hs _
    · exact CRes.safe_run (r := .fault s ..) hs _

theorem safe_ctlWait {s : State} {g : State → CSite → CRes} (h : ∀ c, (g s c).Safe) : SafeOutcome (ctlWait s g) := by
  unfold ctlWait
  split
  · trivial
  · exact CRes.safe_run (CRes.safe_afterWait (h _) _) _

theorem State.safe_wantImage {s : State} (hs : s.safe = true) (key : Nat) (rg : Region) (a : Nat) : (s.wantImage key rg a).Safe := by
  have found := State.safe_translate hs (.core key) rg.ctx (rg.redirected a) .fetch
  unfold State.wantImage
  dsimp only
  split
  · next heq => rw [heq] at found; exact found
  · next heq =>
    rw [heq] at found
    split
    · exact found
    · split
      · split <;> exact found
      · exact found

theorem State.safe_runHeader {s : State} (hs : s.safe = true) (c : CSite) (i : Instr) : (s.runHeader c i).Safe := by
  have came := fun r : CtlRec => State.safe_wantImage hs c.key c.rg r.imm.toNat
  unfold State.runHeader
  split
  case h_3 => exact hs
  all_goals grind [ImgRes.Safe, Pre.Safe]

theorem State.safe_walkRecs {s : State} (hs : s.safe = true) (c : CSite) (xs : List Rec96) (k : Chk) : (State.walkRecs c xs s k).Safe := by
  induction xs generalizing s k with
  | nil => rw [State.walkRecs]; split <;> exact hs
  | cons x xs ih =>
    rw [State.walkRecs]
    split
    · exact ih hs k
    · next i _ =>
      dsimp only
      split
      · split
        · exact ih hs _
        · split
          · exact ih hs _
          · exact hs
      · split
        · exact hs
        · split
          · exact hs
          · have headed := State.safe_runHeader hs { c with w := k.w } i
            split
            · next heq => rw [heq] at headed; exact ih headed _
            · exact headed

theorem State.safe_precheck {s : State} (hs : s.safe = true) (c : CSite) : (s.precheck c).Safe := by
  grind [State.precheck, State.safe, State.safe_walkRecs, Pre.Safe]

theorem State.safe_ctlTurn {s : State} (hs : s.safe = true) (c : CSite) (accs : List Acc) {g : State → Work → List Acc → CRes}
    (hg : ∀ s w as, s.safe = true → (g s w as).Safe) : (s.ctlTurn c accs g).Safe := by
  have turned := State.safe_turnAccs hs c.rg.ctx c.who accs
  unfold State.ctlTurn
  split
  · next heq => rw [heq] at turned; exact turned
  · next heq => rw [heq] at turned; exact hg _ _ _ turned
  · next heq => rw [heq] at turned; exact State.safe_of_mem turned (State.minorAt_mem ..)

theorem State.safe_ctlAccess {s : State} (hs : s.safe = true) (c : CSite) (it : Intent) (va n : Nat) (bs : List Byte) (psn full : Bool)
    {g : State → Work → List Acc → CRes} (hg : ∀ s w as, s.safe = true → (g s w as).Safe) : (s.ctlAccess c it va n bs psn full g).Safe := by
  have laid := State.safe_lay hs ⟨.core c.key, c.rg.ctx, it, 0, decide (it = .write), psn, full, 0⟩ va n bs
  unfold State.ctlAccess
  split
  · exact State.safe_ctlTurn hs c _ hg
  · split
    · next heq => rw [heq] at laid; exact State.safe_of_mem laid (State.minorAt_mem ..)
    · next s1 accs heq =>
      rw [heq] at laid
      exact State.safe_ctlTurn (State.safe_of_mem laid (s1.issueAccs_mem c.key accs)) c _ hg

theorem State.safe_ctlLoad {s : State} (hs : s.safe = true) (c : CSite) (va n : Nat) {g : State → Work → List Byte → CRes}
    (hg : ∀ s w bs, s.safe = true → (g s w bs).Safe) : (s.ctlLoad c va n g).Safe := by
  unfold State.ctlLoad
  refine State.safe_ctlAccess hs c _ _ _ _ _ _ fun s w as hs => ?_
  split
  · exact hs
  · exact hg _ _ _ hs

theorem State.safe_checkRead {s : State} (hs : s.safe = true) (c : CSite) (n va : Nat) : (s.checkRead c n va).Safe := by
  unfold State.checkRead
  refine State.safe_ctlAccess hs c _ _ _ _ _ _ fun s w as hs => ?_
  split <;> exact hs

theorem safe_ctlEffect {s : State} (hs : s.safe = true) {g : State → CSite → CRes} (hg : ∀ s c, s.safe = true → (g s c).Safe) :
    SafeOutcome (ctlEffect s g) := by
  unfold ctlEffect
  split
  · trivial
  · next c _ =>
    split
    · exact CRes.safe_run (hg s c hs) c
    · split
      · exact hs
      · split
        · exact CRes.safe_run (State.safe_checkRead hs ..) c
        · have checked := State.safe_precheck hs c
          split
          · next heq => rw [heq] at checked; exact checked
          · next heq => rw [heq] at checked; exact State.safe_of_mem checked (State.putWork_mem ..)
          · next heq =>
            rw [heq] at checked
            exact CRes.safe_run (r := .fault ..) (State.safe_of_mem checked (State.minorAt_mem ..)) c
          · next heq =>
            rw [heq] at checked
            split
            · exact checked
            · exact CRes.safe_run (hg _ _ checked) _

theorem State.safe_ctlStore {s : State} (hs : s.safe = true) (c : CSite) (va : Nat) (bs : List Byte) (psn full : Bool) {g : State → Work → CRes}
    (hg : ∀ s w, s.safe = true → (g s w).Safe) : (s.ctlStore c va bs psn full g).Safe := by
  unfold State.ctlStore
  exact State.safe_ctlAccess hs c _ _ _ _ _ _ fun s w as hs => hg _ _ (State.safe_of_mem hs (State.noteErrs_mem ..))

theorem safe_runTurn {s : State} (hs : s.safe = true) (r : CtlRec) (hold : Bool) (c : CSite) : (runTurn r hold s c).Safe := by
  have came := State.safe_wantImage hs c.key c.rg r.imm.toNat
  unfold runTurn
  dsimp only
  split
  · exact hs
  · split
    · next heq => rw [heq] at came; exact State.safe_of_mem came (State.minorAt_mem ..)
    · next heq => rw [heq] at came; exact came
    · next heq => rw [heq] at came; exact came
    · next heq =>
      rw [heq] at came
      (repeat' split) <;> exact came

theorem State.safe_resizeTurn {s : State} (hs : s.safe = true) (rg : Region) (idx : Nat) (lat : List Nat) (stage : Nat) :
    (s.resizeTurn rg idx lat stage).Safe := by
  have mapped := fun ks f => State.safe_of_mem hs (s.mapTiles_mem ks f)
  unfold State.resizeTurn
  dsimp only
  split
  · exact mapped _ _
  · split
    · exact hs
    · split
      · exact mapped _ _
      · exact State.safe_of_mem (mapped _ _) (State.mapTiles_mem ..)
  · split <;> exact hs

theorem State.safe_layRows {s : State} (hs : s.safe = true) (c : CSite) (it : Intent) (rs : List (List Byte × Bool)) (n va : Nat) (acc : List Acc) :
    (s.layRows c it rs n va acc).Safe := by
  induction rs generalizing s n va acc with
  | nil => exact hs
  | cons r rs ih =>
    have laid := State.safe_lay hs ⟨.core c.key, c.rg.ctx, it, n, decide (it = .write), r.2, decide (it = .write), 0⟩ va 64 r.1
    rw [State.layRows]
    split
    · next heq => rw [heq] at laid; exact laid
    · next heq => rw [heq] at laid; exact ih laid _ _ _

theorem State.safe_drainLog {s : State} (hs : s.safe = true) (ctx : Nat) : (s.drainLog ctx).safe = true :=
  State.safe_putMem (Mem.wf_putWord (Mem.wf_putWord hs ..) ..)

theorem State.safe_snapPage {s : State} (hs : s.safe = true) (ctx cairn ident va : Nat) (visit : Bool) :
    (s.snapPage ctx cairn ident va visit).safe = true := by
  have visited : ∀ entry, (if visit then s.mem.putWord entry (s.mem.word entry ||| 0x20#64) else s.mem).wf = true := fun entry => by
    split
    · exact Mem.wf_putWord hs ..
    · exact hs
  unfold State.snapPage
  split
  · next entry _ =>
    have marked := visited entry
    dsimp only
    generalize (if visit then s.mem.putWord entry (s.mem.word entry ||| 0x20#64) else s.mem) = m at marked ⊢
    split
    · exact State.safe_putMem (Mem.wf_putFrame marked ..)
    · exact State.safe_putMem marked
  · exact hs

theorem State.safe_snapPages {s : State} (hs : s.safe = true) (ctx cairn ident : Nat) (visits : Nat → Bool) (n va : Nat) :
    (State.snapPages ctx cairn ident visits n va s).safe = true := by
  induction n generalizing s va with
  | zero => exact hs
  | succ n ih => exact ih (State.safe_snapPage hs ..) _

theorem State.safe_snap {s : State} (hs : s.safe = true) (ctx base len cairn : Nat) : (s.snap ctx base len cairn).2.safe = true := by
  have taken := State.safe_drainLog (State.safe_snapPages hs ctx cairn (s.cairn.val cairn).toNat (s.snapVisits ctx cairn) (len / 65536) base) ctx
  unfold State.snap
  dsimp only
  split
  · exact State.safe_of_mem taken (by simp)
  · exact State.safe_of_mem taken (by simp)

theorem State.safe_snapDrop {s : State} (hs : s.safe = true) (ctx cairn : Nat) (ident : Word) : (s.snapDrop ctx cairn ident).safe = true := by
  unfold State.snapDrop
  split
  · exact hs
  · dsimp only
    split <;> exact Mem.wf_of_cells (m := s.mem) hs rfl

theorem State.safe_ctlHeap {s : State} (hs : s.safe = true) (c : CSite) (op : HeapOp) (f n : Nat) (bs : List Byte) (ref : Word) (aux : List Nat)
    {g : State → Work → Word → Nat → Nat → List Byte → Bool → CRes} (hg : ∀ s w r hops pa data psn, s.safe = true → (g s w r hops pa data psn).Safe) :
    (s.ctlHeap c op f n bs ref aux g).Safe := by
  have turned := State.safe_heapTurn hs (.core c.key) c.rg.ctx c.who op f n bs false
    (if c.w.begun then HeapJob.ofNums (c.w.aux.drop aux.length) else HeapJob.start ref) c.w.accs
  unfold State.ctlHeap
  dsimp only
  split
  · next heq => rw [heq] at turned; exact turned
  · next heq => rw [heq] at turned; exact State.safe_of_mem turned (State.minorAt_mem ..)
  · next heq => rw [heq] at turned; exact hg _ _ _ _ _ _ _ (State.safe_of_mem turned (State.heapErrs_mem ..))

end Sys2Proof.Machine
end

section
/-! SUPPORT. Transactions, streams and engines keep memory in its canonical form. -/

namespace Sys2Proof.Machine

theorem State.safe_writeSector {s : State} (hs : s.safe = true) (a now_ done mask : Nat) (bs : List Byte) (psn fabric : Bool) :
    (s.writeSector a now_ done mask bs psn fabric).safe = true := by
  have wrote : ∀ k, ({ s with mem := (s.mem.storeMasked a bs (BitVec.ofNat 64 now_) k).1.stampStore a } : State).safe = true :=
    fun k => State.safe_putMem (Mem.wf_stampStore (Mem.wf_storeMasked hs ..) _)
  unfold State.writeSector
  split
  · dsimp only
    split
    · exact State.safe_of_mem (wrote _) (State.ppwUp_mem ..)
    · exact wrote _
  · split
    · exact State.safe_storeLocal hs ..
    · exact State.safe_of_mem hs (State.herrUp_mem ..)

theorem State.safe_serveStaged {s : State} (hs : s.safe = true) (gs : List Staged) : (s.serveStaged gs).safe = true := by
  unfold State.serveStaged
  refine State.safe_foldl (fun s g hs => ?_) gs hs
  split
  · exact State.safe_serveCow hs ..
  · exact hs

theorem State.safe_applySector (cdev xid : Nat) {s : State} (hs : s.safe = true) (g : Staged) : (State.applySector cdev xid s g).safe = true := by
  have wrote : ∀ a k, ({ s with mem := (s.mem.storeMasked a g.bytes g.mask k).1 } : State).safe = true :=
    fun a k => State.safe_putMem (Mem.wf_storeMasked hs ..)
  unfold State.applySector
  dsimp only
  split
  · split
    · exact State.safe_of_mem hs ((State.keepReq_mem ..).trans (State.putFlit_mem ..))
    · exact hs
  · split
    · exact State.safe_writeSector hs ..
    · split
      · exact State.safe_of_mem (wrote _ _) (State.ppwUp_mem ..)
      · exact wrote _ _

theorem State.safe_applyTxn {s : State} (hs : s.safe = true) (cdev xid : Nat) : (s.applyTxn cdev xid).safe = true := by
  unfold State.applyTxn
  split
  · exact hs
  · next t _ =>
    split
    · exact hs
    · have applied := State.safe_foldl (fun s g hs => State.safe_applySector cdev xid hs g) t.sectors (State.safe_serveStaged hs t.sectors)
      exact Mem.wf_of_cells (m := (t.sectors.foldl (State.applySector cdev xid) (s.serveStaged t.sectors)).mem) applied rfl

theorem State.safe_sendCommits {s : State} (hs : s.safe = true) (xid : Nat) : (s.sendCommits xid).safe = true := by
  unfold State.sendCommits
  split
  · exact hs
  · refine State.safe_foldl (fun s g hs => ?_) _ hs
    split
    · exact State.safe_of_mem (State.safe_applyTxn hs ..) (State.mapTxn_mem ..)
    · exact State.safe_of_mem hs (State.sendXctl_mem ..)

theorem State.safe_commitPoint {s : State} (hs : s.safe = true) (xid : Nat) : (s.commitPoint xid).safe = true := by
  unfold State.commitPoint
  split
  · exact hs
  · split
    · exact State.safe_of_mem (State.safe_sendCommits (State.safe_of_mem hs (State.mapTxn_mem ..)) _) (State.txnFinish_mem ..)
    · exact hs

theorem State.safe_prepareTxn {s : State} (hs : s.safe = true) (xid : Nat) : (s.prepareTxn xid).safe = true := by
  unfold State.prepareTxn
  split
  · exact hs
  · refine State.safe_commitPoint (State.safe_foldl (fun s g hs => ?_) _ (State.safe_of_mem hs (State.mapTxn_mem ..))) xid
    split
    · exact State.safe_of_mem hs ((State.mapTxn_mem ..).trans (State.mapTgt_mem ..))
    · exact State.safe_of_mem hs (State.sendXctl_mem ..)

theorem safe_streamTurn (cmd : SCmd) (r : CtlRec) {s : State} (hs : s.safe = true) (c : CSite) : (streamTurn cmd r s c).Safe := by
  unfold streamTurn
  dsimp only
  split
  · exact State.safe_of_mem hs (State.queueStream_mem ..)
  · exact hs

theorem State.safe_ctlDesc {s : State} (hs : s.safe = true) (c : CSite) (r : CtlRec) {g : State → Work → List Word → CRes}
    (hg : ∀ s w ws, s.safe = true → (g s w ws).Safe) : (s.ctlDesc c r g).Safe := by
  unfold State.ctlDesc
  split
  · exact hs
  · split
    · exact hg _ _ _ hs
    · exact State.safe_ctlLoad hs c _ _ fun s w bs hs => hg s w _ hs

theorem safe_engineTurn (kind : Nat) (r : CtlRec) {s : State} (hs : s.safe = true) (c : CSite) : (engineTurn kind r s c).Safe := by
  unfold engineTurn
  dsimp only
  split
  · exact hs
  · refine State.safe_ctlDesc hs c r fun s w desc hs => ?_
    split
    · exact hs
    · split
      · exact hs
      · split
        · exact hs
        · exact State.safe_of_mem hs (State.credOrdinal_mem ..)

theorem State.safe_stageAll (xid : Nat) (gs : List (Nat × Staged)) (n : Nat) {s : State} (hs : s.safe = true) : (State.stageAll xid gs n s).Safe := by
  induction gs generalizing n s with
  | nil => exact hs
  | cons g gs ih =>
    rw [State.stageAll]
    split
    · split
      · next h => exact ih _ (State.safe_of_mem hs ((State.mapTxn_mem ..).trans (State.stage_mem h)))
      · exact State.safe_of_mem hs (State.txnAbort_mem ..)
    · split
      · next h => exact ih _ (State.safe_of_mem hs ((State.mapTxn_mem ..).trans (State.send_mem h)))
      · exact hs
      · exact hs

theorem safe_xputStage (r : CtlRec) (c : CSite) (t : Txn) (n : Nat) {s : State} (hs : s.safe = true) (w : Work) (as : List Acc) :
    (xputStage r c t n s w as).Safe := by
  have laid := State.safe_lay hs ⟨.core c.key, c.rg.ctx, .write, 0, true, false, false, 0⟩ (c.sB r).toNat r.imm.toNat []
  unfold xputStage
  split
  · next heq => rw [heq] at laid; exact State.safe_of_mem laid (State.minorAt_mem ..)
  · next s1 ps heq =>
    rw [heq] at laid
    have hs1 : s1.safe = true := laid
    split
    · exact State.safe_of_mem hs1 (State.minorAt_mem ..)
    · dsimp only
      split
      · exact State.safe_of_mem hs1 (State.txnAbort_mem ..)
      · have staged := State.safe_stageAll t.xid
          ((sectorsOf c.rg.ctx (s1.target c.rg.ctx) (fillPieces ps (laneBytes as 0) (bytePsn as)) []).drop n) n hs1
        split <;> next heq => rw [heq] at staged; exact staged

theorem State.safe_layElems {s : State} (hs : s.safe = true) (q : LayReq) (size : Nat) (as : List Int) (i : Nat) (acc : List Acc) :
    (s.layElems q size as i acc).Safe := by
  induction as generalizing s i acc with
  | nil => exact hs
  | cons a as ih =>
    have laid := State.safe_lay hs { q with lane := i } a.toNat size []
    rw [State.layElems]
    split
    · exact hs
    · split
      · next heq => rw [heq] at laid; exact laid
      · next heq => rw [heq] at laid; exact ih laid _ _

theorem State.safe_beginRead {s : State} (hs : s.safe = true) (x : SSite) : (s.beginRead x).safe = true := by
  have laid := State.safe_layElems hs ⟨.tile x.tile, x.rg.ctx, .read, 0, false, false, false, x.p.pos + 1⟩ (patternOf x.p.desc).esize
    ((patternOf x.p.desc).addrs ((x.rg.rtile x.tile).getD 0) x.p.pos) 0 []
  unfold State.beginRead
  dsimp only
  split
  · next heq => rw [heq] at laid; exact State.safe_of_mem laid (State.streamFault_mem ..)
  · next heq => rw [heq] at laid; exact State.safe_of_mem laid ((State.putPort_mem ..).trans (State.issueAccs_mem ..))

theorem State.safe_turnPort {s : State} (hs : s.safe = true) (x : SSite) : (s.turnPort x).safe = true := by
  have turned := State.safe_turnAccs hs x.rg.ctx x.who x.p.accs
  unfold State.turnPort
  split
  · next heq => rw [heq] at turned; exact State.safe_of_mem turned (State.putPort_mem ..)
  · next heq => rw [heq] at turned; exact State.safe_of_mem turned (State.putPort_mem ..)
  · next heq => rw [heq] at turned; exact State.safe_of_mem turned (State.streamFault_mem ..)

theorem State.safe_layStore {s : State} (hs : s.safe = true) (owner : TlbOf) (ctx : Nat) (q : Pattern) (t : Token) (k : Nat) (full : Bool)
    (es : List (Nat × Int)) (acc : List Acc) : (s.layStore owner ctx q t k full es acc).Safe := by
  induction es generalizing s acc with
  | nil => exact hs
  | cons e es ih =>
    have laid := State.safe_lay hs ⟨owner, ctx, .write, e.1, true, if full then t.lanes.any fun l => l.poison else (elemBytes q t e.1).2, full, k + 1⟩
      e.2.toNat q.esize (elemBytes q t e.1).1
    rw [State.layStore]
    split
    · exact hs
    · split
      · next heq => rw [heq] at laid; exact laid
      · next heq => rw [heq] at laid; exact ih laid _

theorem State.safe_takeTok {s : State} (hs : s.safe = true) (x : SSite) (t : Token) (rest : List Token) : (s.takeTok x t rest).safe = true := by
  have laid := fun full => State.safe_layStore hs (.tile x.tile) x.rg.ctx (patternOf x.p.desc) t x.p.pos full
    (storeElems (patternOf x.p.desc) ((x.rg.rtile x.tile).getD 0) x.p.pos t) []
  unfold State.takeTok
  dsimp only
  generalize fullStore (patternOf x.p.desc) (storeElems (patternOf x.p.desc) ((x.rg.rtile x.tile).getD 0) x.p.pos t) t = full
  have laid := laid full
  split
  · next heq => rw [heq] at laid; exact State.safe_of_mem laid (State.streamFault_mem ..)
  · next heq =>
    rw [heq] at laid
    split
    · exact State.safe_of_mem laid ((State.dropToks_mem ..).trans ((State.putPort_mem ..).trans (State.issueAccs_mem ..)))
    · exact State.safe_of_mem laid ((State.putPort_mem ..).trans (State.issueAccs_mem ..))

theorem State.safe_layEngine {s : State} (hs : s.safe = true) (x : ESite) (it : Intent) (lane : Nat) (a : Int) (n : Nat) (bs : List Byte) (psn full : Bool) :
    (s.layEngine x it lane a n bs psn full).Safe := by
  unfold State.layEngine
  split
  · exact hs
  · exact State.safe_lay hs ..

theorem safe_startPiece {l : Laid} (hl : l.Safe) (x : ESite) (i : Nat) (p : EngPiece) (k : Nat) : (startPiece x i p k l).safe = true := by
  cases l with
  | ok s as => exact State.safe_of_mem hl ((State.putEngine_mem ..).trans (State.issueAccs_mem ..))
  | fault s c va => exact State.safe_of_mem hl (State.engineFault_mem ..)

theorem State.safe_beginPiece {s : State} (hs : s.safe = true) (x : ESite) (g : EngKind) (i : Nat) (p : EngPiece) :
    (s.beginPiece x g i p).safe = true := by
  unfold State.beginPiece
  dsimp only
  split <;> exact safe_startPiece (State.safe_layEngine hs ..) ..

theorem State.safe_pieceDone {s : State} (hs : s.safe = true) (x : ESite) (g : EngKind) (i : Nat) (p : EngPiece) (as : List Acc) :
    (s.pieceDone x g i p as).safe = true := by
  unfold State.pieceDone
  split
  · split
    · exact State.safe_of_mem hs (State.engineFault_mem ..)
    · exact State.safe_of_mem hs (State.putEngine_mem ..)
  · have laid := State.safe_layEngine (State.safe_of_mem hs (s.setFlags_mem x.key (g.out p as).flags)) x .write 0 (g.cut p).dst p.n (g.out p as).bytes
      (g.out p as).psn (decide ((g.cut p).dst % 64 = 0 ∧ p.n = 64))
    dsimp only
    split
    · next heq => rw [heq] at laid; exact State.safe_of_mem laid (State.engineFault_mem ..)
    · next heq => rw [heq] at laid; exact State.safe_of_mem laid ((State.putEngine_mem ..).trans (State.issueAccs_mem ..))
  · exact State.safe_of_mem hs ((State.putEngine_mem ..).trans (State.noteErrs_mem ..))

theorem State.safe_turnPiece {s : State} (hs : s.safe = true) (x : ESite) (g : EngKind) (i : Nat) (p : EngPiece) : (s.turnPiece x g i p).safe = true := by
  have turned := State.safe_turnAccs hs x.rg.ctx x.who p.accs
  unfold State.turnPiece
  split
  · next heq => rw [heq] at turned; exact State.safe_of_mem turned (State.putEngine_mem ..)
  · next heq => rw [heq] at turned; exact State.safe_of_mem turned (State.engineFault_mem ..)
  · next heq => rw [heq] at turned; exact State.safe_pieceDone turned ..

theorem State.safe_workTurn {s : State} (hs : s.safe = true) (x : ESite) (g : EngKind) : (s.workTurn x g).safe = true := by
  unfold State.workTurn
  dsimp only
  split
  · exact hs
  · split
    · exact State.safe_beginPiece (s := s.drawn) hs ..
    · exact State.safe_turnPiece (s := s.drawn) hs ..

theorem State.safe_copyTurn {s : State} (hs : s.safe = true) (x : ESite) : (s.copyTurn x).safe = true := by
  unfold State.copyTurn
  split
  · exact State.safe_of_mem hs (State.finishEngine_mem ..)
  · exact State.safe_workTurn hs ..

theorem State.safe_credTurn {s : State} (hs : s.safe = true) (x : ESite) : (s.credTurn x).safe = true := by
  unfold State.credTurn
  dsimp only
  split
  · exact State.safe_of_mem hs (State.engineFault_mem ..)
  · split
    · exact hs
    · split
      · exact State.safe_of_mem hs (State.engineFault_mem ..)
      · split
        · exact State.safe_of_mem hs (State.drain_mem ..)
        · exact State.safe_workTurn hs ..

theorem State.safe_stoppedTurn {s : State} (hs : s.safe = true) (x : ESite) : (s.stoppedTurn x).safe = true := by
  have gone : ((match x.e.cairn with
      | some k => s.advance k true
      | none => s).dropEngine x.key x.e.id).safe = true := State.safe_of_mem hs (by split <;> simp)
  unfold State.stoppedTurn
  dsimp only
  split
  · split
    · exact hs
    · exact gone
  · split
    · exact gone
    · next p ps _ =>
      have turned := State.safe_turnAccs hs x.rg.ctx x.who p.accs
      split <;> next heq => rw [heq] at turned; exact State.safe_of_mem turned (State.putEngine_mem ..)

end Sys2Proof.Machine
end

section
/-! SUPPORT. The fabric, its requests and page moves keep memory in its canonical form. -/

namespace Sys2Proof.Machine

theorem State.safe_serveHeld {s : State} (hs : s.safe = true) (i : Nat) {g : State → HeldFlit → Served} (hg : ∀ s h, s.safe = true → (g s h).Safe) :
    (s.serveHeld i g).safe = true := by
  unfold State.serveHeld
  split
  · exact hs
  · next h _ =>
    have served := hg { s with link := { s.link with held := ldrop s.link.held i } } h hs
    split
    · next heq => rw [heq] at served; exact State.safe_of_mem served (State.owe_mem ..)
    · next heq => rw [heq] at served; exact served
    · next heq => rw [heq] at served; exact served
    · exact hs

theorem State.safe_takeRx {s : State} (hs : s.safe = true) (typ op : Nat) {g : State → HeldFlit → Served} (hg : ∀ s h, s.safe = true → (g s h).Safe) :
    (s.takeRx typ op g).safe = true := by
  unfold State.takeRx
  split
  · exact hs
  · next f rest _ =>
    have taken := State.safe_of_mem (s := { s with link := { s.link with rx := rest } }) hs (State.acceptFlit_mem _ f)
    dsimp only
    generalize ({ s with link := { s.link with rx := rest } } : State).acceptFlit f = s1 at taken ⊢
    split
    · exact hs
    · split
      · exact State.safe_of_mem hs (State.askReplay_mem ..)
      · split
        · exact hs
        · split
          · exact State.safe_of_mem taken (State.owe_mem ..)
          · split
            · exact taken
            · have served := hg s1 (HeldFlit.fresh f (s1.poolPlace f)) taken
              split
              · next heq => rw [heq] at served; exact State.safe_of_mem served (State.owe_mem ..)
              · next heq => rw [heq] at served; exact served
              · next heq => rw [heq] at served; exact served
              · exact taken

theorem safe_recvHeld (typ op : Nat) {s : State} (hs : s.safe = true) {g : State → HeldFlit → Served} (hg : ∀ s h, s.safe = true → (g s h).Safe) :
    SafeOutcome (recvHeld typ op s g) := by
  unfold recvHeld
  dsimp only
  split
  · exact State.safe_takeRx hs typ op hg
  · split
    · exact State.safe_serveHeld (s := s.drawn) hs _ hg
    · exact State.safe_takeRx (s := s.drawn) hs typ op hg

theorem safe_recvFlit (typ op : Nat) {s : State} (hs : s.safe = true) {g : State → Flit → Option State}
    (hg : ∀ s f t, s.safe = true → g s f = some t → t.safe = true) : SafeOutcome (recvFlit typ op s g) := by
  unfold recvFlit
  refine safe_recvHeld typ op hs fun s h hs => ?_
  split
  · next heq => exact hg _ _ _ hs heq
  · trivial

theorem State.safe_seeTime {s : State} (hs : s.safe = true) (ts : Nat) : (s.seeTime ts).safe = true := hs

theorem State.safe_readSector {s : State} (hs : s.safe = true) (a mask : Nat) : (s.readSector a mask).2.safe = true := by
  unfold State.readSector
  split
  · exact State.safe_putMem (Mem.wf_stampLoad hs a)
  · split
    · exact State.safe_loadLocal hs ..
    · exact hs

theorem State.safe_deliverMem {s : State} (hs : s.safe = true) (q : Req) (body : List Byte) : (s.deliverMem q body).safe = true := by
  have seen := State.safe_seeTime (State.safe_of_mem hs (s.dropReq_mem q)) (Decode.bodyNum body 72 77)
  unfold State.deliverMem
  generalize (s.dropReq q).seeTime (Decode.bodyNum body 72 77) = s1 at seen ⊢
  dsimp only
  split
  · exact State.safe_of_mem seen (State.keepResp_mem ..)
  · exact State.safe_of_mem seen (State.putFlit_mem ..)
  · split
    · exact seen
    · split
      · exact State.safe_of_mem seen ((State.txnFinish_mem ..).trans (State.mapTxn_mem ..))
      · exact State.safe_of_mem seen (State.sendAny_mem ..)
  · exact seen
  · split <;> exact seen
  · exact State.safe_of_mem seen (State.mapAccs_mem ..)

theorem safe_memAnswer {typ : Nat} {s t : State} (hs : s.safe = true) {f : Flit} (h : memAnswer typ s f = some t) : t.safe = true := by
  unfold memAnswer at h
  split at h
  · cases h; exact State.safe_deliverMem hs ..
  · cases h; exact hs

theorem safe_hopStep (op : Nat) {g : State → Flit → Nat → HopRes} (hg : ∀ s f a, s.safe = true → (g s f a).Safe) {s : State} (hs : s.safe = true) :
    SafeOutcome (hopStep op g s) := by
  unfold hopStep
  refine safe_recvFlit 11 op hs fun s f t hs h => ?_
  have seen := State.safe_seeTime hs (flitTs f)
  generalize s.seeTime (flitTs f) = s2 at seen h
  dsimp only at h
  split at h
  · split at h
    · cases h; exact State.safe_of_mem seen (State.putFlit_mem ..)
    · have done := hg s2 f (localOf (s2.target f.hdr.ctx.toNat (Decode.bodyNum f.body 8 13 * 16))) seen
      split at h
      · next heq => rw [heq] at done; cases h; exact State.safe_of_mem done (State.heapReply_mem ..)
      · cases h
      · cases h; exact seen
  · split at h
    · next heq => cases h; exact State.safe_of_mem seen (State.askHop_mem heq)
    · cases h

theorem State.safe_pinFor {s : State} (hs : s.safe = true) (ctx a : Nat) (up : Bool) : (s.pinFor ctx a up).Safe := by
  have served := State.safe_serveCow hs ctx a
  unfold State.pinFor
  generalize s.serveCow ctx a = s1 at served ⊢
  dsimp only
  have pinned := State.safe_pinHere served (s1.nowAt ctx a) up
  split
  · trivial
  · exact served
  · split
    · next heq => rw [heq] at pinned; exact pinned
    · split
      · trivial
      · exact served

theorem State.safe_deliverReply {s : State} (hs : s.safe = true) (q : Req) (body : List Byte) : (s.deliverReply q body).safe = true := by
  have seen := State.safe_seeTime (State.safe_of_mem hs (s.dropReq_mem q)) (Decode.bodyNum body 32 37)
  unfold State.deliverReply
  generalize (s.dropReq q).seeTime (Decode.bodyNum body 32 37) = s1 at seen ⊢
  dsimp only
  split
  · exact State.safe_of_mem seen (State.keepResp_mem ..)
  · exact State.safe_of_mem seen (State.putFlit_mem ..)
  · split
    · split
      · exact State.safe_of_mem seen (State.engineFault_mem ..)
      · exact State.safe_of_mem seen (State.putEngine_mem ..)
    · exact seen
  · exact State.safe_of_mem seen (State.mapJob_mem ..)

theorem State.safe_turnFiring {s : State} (hs : s.safe = true) (x : Site) {g : State → List Acc → FireRes} (hg : ∀ s as, s.safe = true → (g s as).Safe) :
    (s.turnFiring x g).Safe := by
  have turned := State.safe_turnAccs hs x.rg.ctx x.who x.f.accs
  unfold State.turnFiring
  split
  · next heq => rw [heq] at turned; exact State.safe_of_mem turned (State.putFiring_mem ..)
  · next heq => rw [heq] at turned; exact hg _ _ (State.safe_of_mem turned (State.noteErrs_mem ..))
  · next heq => rw [heq] at turned; exact State.safe_of_mem turned (State.minorAt_mem ..)

theorem State.safe_xlatPairs {s : State} (hs : s.safe = true) (o : TlbOf) (ctx : Nat) (it : Intent) (l : List (Nat × Nat)) (acc : List (Nat × XRes)) :
    (s.xlatPairs o ctx it l acc).2.safe = true := by
  induction l generalizing s acc with
  | nil => exact hs
  | cons p l ih => exact ih (State.safe_translate hs ..) _

theorem State.safe_faultWho {s : State} (hs : s.safe = true) (q : Req) (code : Nat) : (s.faultWho q code).safe = true := by
  have dropped := State.safe_of_mem hs (s.dropReq_mem q)
  unfold State.faultWho
  generalize s.dropReq q = s1 at dropped ⊢
  dsimp only
  split
  · split
    · exact State.safe_coreFault dropped ..
    · exact dropped
  · split
    · exact State.safe_of_mem dropped (State.nodeFault_mem ..)
    · exact dropped
  · split
    · exact State.safe_of_mem dropped (State.streamFault_mem ..)
    · exact dropped
  · split
    · exact State.safe_of_mem dropped (State.engineFault_mem ..)
    · exact dropped
  · exact dropped
  · exact State.safe_of_mem dropped (State.keepResp_mem ..)
  · exact State.safe_of_mem dropped (State.arcFault_mem ..)
  · split <;> exact dropped
  all_goals exact dropped

theorem State.safe_reissue {s : State} (hs : s.safe = true) (q : Req) : (s.reissue q).safe = true := by
  unfold State.reissue
  split
  · split
    · exact State.safe_of_mem hs (State.putFlit_mem ..)
    · exact State.safe_faultWho hs ..
  · exact State.safe_faultWho hs ..
  · exact State.safe_faultWho hs ..

theorem State.safe_linkFault {s : State} (hs : s.safe = true) (port : Nat) : (s.linkFault port).safe = true := by
  unfold State.linkFault
  refine State.safe_of_mem ?_ (State.credsCaught_mem ..)
  refine State.safe_of_mem ?_ (State.foldl_mem (fun _ _ => State.txnAbort_mem ..) _ _)
  exact State.safe_foldl (fun s q hs => State.safe_reissue hs q) _ (State.safe_of_mem hs (State.report_mem ..))

theorem State.safe_remap {s t : State} {ctx old new : Nat} (hs : s.safe = true) (h : s.remap ctx old new = some t) : t.safe = true := by
  unfold State.remap at h
  -- The search of the page table stands for itself: it is not to be run when the cases below are checked.
  obtain ⟨search, hw⟩ : ∃ search, search = findVa := ⟨_, rfl⟩
  rw [← hw] at h
  split at h
  · cases h; exact hs
  · rw [Option.map_eq_some_iff] at h
    obtain ⟨s1, h1, rfl⟩ := h
    have split1 := State.safe_splitLeaf hs h1
    split
    · exact State.safe_of_mem (State.safe_putMem (Mem.wf_putWord split1 ..)) (State.invalidate_mem ..)
    · exact split1

theorem State.safe_putFrames {m : Mem} (hm : m.wf = true) (s : State) (fr : List (Nat × Frame)) (d : Nat) :
    State.safe { s with draws := d, mem := { m with frames := fr } } = true :=
  Mem.wf_of_cells hm rfl

theorem State.safe_pageComes {s : State} (hs : s.safe = true) (a : Nat) : (s.pageComes a).safe = true := by
  have filled : (fillFree 8192 s.mem a (s.draws + 1)).wf = true := Mem.wf_fillFree hs ..
  unfold State.pageComes
  dsimp only
  generalize fillFree 8192 s.mem a (s.draws + 1) = m at filled ⊢
  split
  · exact State.safe_of_mem (s := s.drawn) hs (State.pgmigUp_mem ..)
  · generalize s.draws + 1 + 8192 = d
    exact State.safe_of_mem (State.safe_putFrames filled s _ d) (State.pgmigUp_mem _ _ _)

end Sys2Proof.Machine
end

section
/-! SUPPORT. System commands, halting, parking and resuming keep memory in its canonical form. -/

namespace Sys2Proof.Machine

theorem State.safe_finishCmd {s : State} (hs : s.safe = true) (c : SysCmd) (a code : Nat) (result : Word) : (s.finishCmd c a code result).safe = true := by
  unfold State.finishCmd
  have kept : (if a + 64 ≤ Config.memBytes then ((s.mem.putWord (a + 48) result).putWord (a + 56) (BitVec.ofNat 64 code)).stampStore a else s.mem).wf =
      true := by
    split
    · exact Mem.wf_stampStore (Mem.wf_putWord (Mem.wf_putWord hs ..) ..) _
    · exact hs
  refine State.safe_of_mem ?_ (State.cairnAddScc_mem ..)
  exact kept

theorem safe_cmdStep (kind : Nat) {s : State} (hs : s.safe = true) {g : State → SysCmd → Nat → State} (hg : ∀ s c a, s.safe = true → (g s c a).safe = true) :
    SafeOutcome (cmdStep kind s g) := by
  unfold cmdStep
  split
  · exact hs
  · split
    · exact hs
    · split
      · exact State.safe_finishCmd hs ..
      · exact hg _ _ _ hs

theorem safe_ctxStep (kind : Nat) {s : State} (hs : s.safe = true) {g : State → SysCmd → Nat → State} (hg : ∀ s c a, s.safe = true → (g s c a).safe = true) :
    SafeOutcome (ctxStep kind s g) := by
  unfold ctxStep
  refine safe_cmdStep kind hs fun s c a hs => ?_
  split
  · exact State.safe_finishCmd hs ..
  · exact hg _ _ _ hs

theorem State.safe_replaceEnd {s : State} (hs : s.safe = true) : s.replaceEnd.safe = true := by
  unfold State.replaceEnd
  split
  · split
    · exact hs
    · exact State.safe_finishCmd (s := { s with host := { s.host with replacing := none } }) hs ..
  · exact hs

theorem State.safe_freeRegion {s : State} (hs : s.safe = true) (key : Nat) : (s.freeRegion key).safe = true := by
  unfold State.freeRegion
  split
  · exact hs
  · next r _ => exact State.safe_replaceEnd (State.safe_of_mem hs (s.emptyTiles_mem r.tiles))

theorem State.safe_haltRegion {s : State} (hs : s.safe = true) (key : Nat) (why : RunState) : (s.haltRegion key why).safe = true := by
  unfold State.haltRegion
  split
  · exact hs
  · refine State.safe_foldl (fun s k hs => State.safe_foldl (fun s h hs => State.safe_closeBuf hs _ h) _ hs) _
      (State.safe_foldl (fun s h hs => State.safe_closeBuf hs _ h) _ (State.safe_of_mem hs ?_))
    rw [State.withdraw_mem, State.putRegion_mem]
    split
    · split
      · exact State.mapTiles_mem ..
      · rfl
    · rfl

theorem State.safe_parkAs {s : State} (hs : s.safe = true) (key pid : Nat) (r : Region) (part image : Option Nat) (resident : Bool) (notCore : Option Nat) :
    (s.parkAs key pid r part image resident notCore).safe = true := by
  unfold State.parkAs
  refine State.safe_freeRegion (State.safe_of_mem hs ?_) key
  split <;> rfl

theorem State.safe_park {s : State} (hs : s.safe = true) (key pid : Nat) (part image : Option Nat) (resident : Bool) (notCore : Option Nat) :
    (s.park key pid part image resident notCore).safe = true := by
  unfold State.park
  split
  · exact hs
  · exact State.safe_parkAs (State.safe_of_mem hs (State.withdraw_mem ..)) ..

theorem State.safe_redeliver {s : State} (hs : s.safe = true) (asked : List (Nat × Who)) (x : PendResp) : (s.redeliver asked x).safe = true := by
  unfold State.redeliver
  split
  · exact hs
  · dsimp only
    split
    · exact State.safe_faultWho hs ..
    · split
      · exact State.safe_deliverMem hs ..
      · exact State.safe_deliverReply hs ..

theorem State.safe_unpark {s : State} (hs : s.safe = true) (pid : Nat) (p : Parked) (q : Spot) : (s.unpark pid p q).safe = true := by
  unfold State.unpark
  refine State.safe_of_mem (State.safe_foldl (fun s x hs => State.safe_redeliver hs _ x) _ (State.safe_of_mem hs ?_)) (State.landHeld_mem _)
  split <;>
  · refine (State.freeImage_mem ..).trans ?_
    refine State.foldl_mem ?_ _ _
    exact fun _ _ => rfl

theorem State.safe_exchangeOut {s t : State} {part key : Nat} {r : Region} (hs : s.safe = true) (h : s.exchangeOut part key r = some t) :
    t.safe = true := by
  unfold State.exchangeOut at h
  split at h
  · next h1 => cases h; exact State.safe_park (State.safe_of_mem hs (State.makeRoom_mem h1)) ..
  · rw [Option.map_eq_some_iff] at h
    obtain ⟨a, ha, rfl⟩ := h
    exact State.safe_park (State.safe_of_mem hs (State.takeImage_mem ha)) ..

theorem State.safe_exchangeSwap {s t : State} {part key : Nat} {r : Region} (hs : s.safe = true) (h : s.exchangeSwap part key r = some t) :
    t.safe = true := by
  unfold State.exchangeSwap at h
  obtain ⟨e, -, he⟩ := List.exists_of_findSome?_eq_some h
  rw [Option.bind_eq_some_iff] at he
  obtain ⟨s1, h1, h2⟩ := he
  rw [Option.map_eq_some_iff] at h2
  obtain ⟨q, -, rfl⟩ := h2
  exact State.safe_unpark (State.safe_park (State.safe_of_mem hs (State.makeRoom_mem h1)) ..) ..

theorem State.safe_exchange {s : State} (hs : s.safe = true) (part : Nat) (e : Nat × Region) : (s.exchange part e).safe = true := by
  unfold State.exchange
  split
  · next h1 h2 =>
    split
    · exact State.safe_of_mem (State.safe_exchangeOut hs h1) rfl
    · exact State.safe_of_mem (State.safe_exchangeSwap hs h2) rfl
  · next h1 _ => exact State.safe_exchangeOut hs h1
  · next _ h2 => exact State.safe_exchangeSwap hs h2
  · exact hs

theorem State.safe_beginBlock {s : State} (hs : s.safe = true) (key : Nat) (r : Region) (slot : Nat) (b : Bif) :
    (s.beginBlock key r slot b).safe = true := by
  unfold State.beginBlock
  dsimp only
  split
  · exact State.safe_coreFault (State.safe_of_mem hs (State.excludeDie_mem ..)) ..
  · split
    · exact State.safe_coreFault hs ..
    · exact State.safe_of_mem hs (State.putWork_mem ..)

theorem State.safe_endCommit {s : State} (hs : s.safe = true) (c : CSite) (next : Nat) : (s.endCommit c next).safe = true := by
  have cancelled : ∀ s1 : State, s1.mem = s.mem → (s1.startCancels c.rg.ctx c.rg.launch c.w.cancels).safe = true :=
    fun s1 h => State.safe_startCancels (State.safe_of_mem hs h) ..
  unfold State.endCommit
  dsimp only
  split
  · refine State.safe_of_mem (cancelled _ ?_) (State.post_mem ..)
    (repeat' split) <;> simp
  · refine cancelled _ ?_
    (repeat' split) <;> simp

theorem State.safe_reached {s : State} (hs : s.safe = true) (c : CSite) (next : Nat) : (s.reached c next).Safe := by
  unfold State.reached
  split
  · exact hs
  · dsimp only
    generalize (if c.rg.replaceMark then { c.rg with redirect := s.redirectOf c.rg.ctx } else c.rg) = rg
    have came := State.safe_wantImage hs c.key rg next
    split
    · next heq => rw [heq] at came; exact came
    · next heq =>
      rw [heq] at came
      split
      · exact came
      · split <;> exact came
    · next heq => rw [heq] at came; exact came
    · exact hs

theorem State.safe_commitBlock {s : State} (hs : s.safe = true) (c : CSite) : (s.commitBlock c).safe = true := by
  have came := State.safe_reached hs c (c.w.successor c.blk.image.hdr)
  unfold State.commitBlock
  dsimp only
  split
  · next heq => rw [heq] at came; exact came
  · next s1 heq =>
    rw [heq] at came
    split
    · exact State.safe_endCommit (State.safe_of_mem (s := s1) came (State.putRegion_mem ..)) ..
    · exact came
  · next s1 n m heq =>
    rw [heq] at came
    split
    · exact State.safe_endCommit (State.safe_of_mem (s := s1) came (State.putRegion_mem ..)) ..
    · exact came

theorem State.safe_heapCheck {s : State} (hs : s.safe = true) (x : Site) (h : HeapSpec) (l : List (Nat × Word)) (acc : List (Nat × Nat × Nat)) :
    (s.heapCheck x h l acc).2.safe = true := by
  induction l generalizing s acc with
  | nil => exact hs
  | cons p l ih =>
    have found := State.safe_barrierLookup hs (.tile x.tile) x.rg.ctx (refVa p.2 / 65536 * 65536) h.op.asStore
    rw [State.heapCheck]
    split
    · exact ih hs _
    · split
      · next heq => rw [heq] at found; exact ih found _
      · next heq => rw [heq] at found; exact ih found _

theorem State.safe_heapPair {s : State} (hs : s.safe = true) (x : Site) (h : HeapSpec) (g : HeapFire) (errs : List Acc)
    (put : List Lane → Nat → List Byte → Bool → Nat → List Lane) : (s.heapPair x h g errs put).Safe := by
  have turned := State.safe_heapTurn hs (.tile x.tile) x.rg.ctx x.who h.op h.f h.n ((leBytes 8 (pairVal h.b g.cur)).take h.n) (pairPsn h.b g.cur) g.job
    (x.f.accs.filter fun a => !(a.done && a.err && decide (a.len = 0)))
  unfold State.heapPair
  dsimp only
  split
  · next heq => rw [heq] at turned; exact State.safe_of_mem turned (State.keepHeap_mem ..)
  · next heq => rw [heq] at turned; exact State.safe_of_mem turned ((State.keepHeap_mem ..).trans (State.minorAt_mem ..))
  · next heq =>
    rw [heq] at turned
    split
    · exact State.safe_of_mem turned ((State.keepHeap_mem ..).trans (State.heapErrs_mem ..))
    · exact State.safe_of_mem turned ((State.keepHeap_mem ..).trans (State.heapErrs_mem ..))

theorem safe_heapFire (n : NodeRec) {s : State} (hs : s.safe = true) (x : Site) (h : HeapSpec) (init : List Lane)
    (put : List Lane → Nat → List Byte → Bool → Nat → List Lane) (fin : List Lane → List Nat → Out) : (heapFire n s x h init put fin).Safe := by
  unfold heapFire
  dsimp only
  split
  · split
    · exact State.safe_heapPair hs ..
    · split
      · exact hs
      · split
        · exact State.safe_of_mem (s := s) hs (State.keepHeap_mem ..)
        · exact State.safe_heapPair (s := s.drawn) hs ..
  · split
    · exact hs
    · have checked := State.safe_heapCheck hs x h (h.pairs.flatMap fun i => (h.refs i).map fun r => (i, r)) []
      split
      · next heq => rw [heq] at checked; exact State.safe_of_mem checked (State.keepHeap_mem ..)
      · next heq => rw [heq] at checked; exact State.safe_of_mem checked (State.minorAt_mem ..)

end Sys2Proof.Machine
end

section
/-! SUPPORT. Fault service, relocation, reset, the fold space and the cycle keep memory in its canonical form. -/

namespace Sys2Proof.Machine

theorem State.safe_traceStore {s t : State} {ctx pa : Nat} {bs : List Byte} (hs : s.safe = true) (h : s.traceStore ctx pa bs = some t) :
    t.safe = true := by
  unfold State.traceStore at h
  dsimp only at h
  split at h
  · cases h
  · split at h
    · cases h; exact State.safe_storeNow hs ..
    · split at h
      · next sent => cases h; exact State.safe_of_mem hs (State.request_mem sent)
      · cases h

theorem State.safe_traceRcnt {s : State} (hs : s.safe = true) (ctx pa : Nat) : (s.traceRcnt ctx pa).2.safe = true := by
  have read := State.safe_loadNow hs (s.target ctx (pa + 8)) 8
  unfold State.traceRcnt
  dsimp only
  generalize s.loadNow (s.target ctx (pa + 8)) 8 = p at read ⊢
  split
  · exact read
  · exact State.safe_of_mem hs (State.drawn_mem s)

theorem State.safe_traceOne {s : State} (hs : s.safe = true) (x : Site) (n : NodeRec) (t : Token) : (s.traceOne x n t).1.safe = true := by
  unfold State.traceOne
  dsimp only
  split
  · exact hs
  · next pa _ =>
    have read : (if x.inst.loffs.getD 0 0 - x.inst.loffs.getD 1 0 < 2 ^ field n.lit 3 0 then (x.inst.loffs.getD 1 0, s)
        else s.traceRcnt x.rg.ctx pa).2.safe = true := by
      split
      · exact hs
      · exact State.safe_traceRcnt hs ..
    have stored {s : State} {p : Nat} {bs : List Byte} (hs : s.safe = true) : ((s.traceStore x.rg.ctx p bs).getD s).safe = true :=
      State.safe_getD (fun _ h => State.safe_traceStore hs h) hs
    generalize (if x.inst.loffs.getD 0 0 - x.inst.loffs.getD 1 0 < 2 ^ field n.lit 3 0 then (x.inst.loffs.getD 1 0, s)
        else s.traceRcnt x.rg.ctx pa) = q at read ⊢
    split
    · split
      · exact stored read
      · next written => exact stored (State.safe_traceStore read written)
    · exact stored read

theorem State.safe_depositAll {s : State} (hs : s.safe = true) (ctx : Nat) (ps : List Stream) : (s.depositAll ctx ps).safe = true := by
  refine State.safe_foldl (fun s p hs => ?_) _ hs
  split
  · exact State.safe_deposit hs ..
  · exact hs

theorem State.safe_closeBufs {s : State} (hs : s.safe = true) (key : Nat) (ts : List Nat) : (s.closeBufs key ts).safe = true := by
  unfold State.closeBufs
  exact State.safe_foldl (fun s t hs => State.safe_foldl (fun s h hs => State.safe_closeBuf hs _ h) _ hs) _
    (State.safe_foldl (fun s h hs => State.safe_closeBuf hs _ h) _ hs)

theorem State.safe_leave {s : State} (hs : s.safe = true) (lid key : Nat) (rg : Region) (flagged : Bool) : (s.leave lid key rg flagged).safe = true := by
  unfold State.leave
  exact State.safe_endLaunch (State.safe_freeRegion (State.safe_of_mem (State.safe_closeBufs (State.safe_depositAll hs ..) ..) (State.releaseWaits_mem ..)) _) ..

theorem State.safe_leaveParked {s : State} (hs : s.safe = true) (lid pid : Nat) (p : Parked) : (s.leaveParked lid pid p).safe = true := by
  unfold State.leaveParked
  refine State.safe_endLaunch (State.safe_of_mem (State.safe_of_mem (State.safe_of_mem (State.safe_depositAll ?_ ..) (State.flagUnits_mem ..))
    (State.flagEngines_mem ..)) (State.freeImage_mem ..)) ..
  exact State.safe_of_mem hs (State.txnCancel_mem ..)

theorem State.safe_firstTouch {s t : State} {ctx va : Nat} (hs : s.safe = true) (h : s.firstTouch ctx va = some t) : t.safe = true := by
  unfold State.firstTouch at h
  dsimp only at h
  split at h
  · cases h; exact hs
  · split at h
    · cases h
    · next frame =>
      have framed := State.safe_newFrame hs frame
      split at h
      · rw [Option.map_eq_some_iff] at h
        obtain ⟨s2, mapped, rfl⟩ := h
        exact State.safe_of_mem (State.safe_freePage (State.safe_mapFrame framed mapped) _) (State.usePage_mem ..)
      · exact State.safe_mapFrame framed h

theorem State.safe_serveCowVa {s t : State} {ctx va : Nat} (hs : s.safe = true) (h : s.serveCowVa ctx va = some t) : t.safe = true := by
  unfold State.serveCowVa at h
  split at h
  · cases h; exact hs
  · dsimp only at h
    split at h
    · cases h; exact hs
    · split at h
      · exact State.safe_mapCopy (s := s.drawn) hs h
      · split at h
        · exact State.safe_mapCopy hs h
        · exact State.safe_copyCow hs h

theorem State.safe_serveCowAt {s t : State} {ctx va pa : Nat} (hs : s.safe = true) (h : s.serveCowAt ctx va pa = some t) : t.safe = true := by
  unfold State.serveCowAt at h
  dsimp only at h
  split at h
  · exact State.safe_serveCowVa hs h
  · split at h
    · exact State.safe_copyCow hs h
    · cases h; exact hs

theorem State.safe_serveMinor {s t : State} {m : Minor} (hs : s.safe = true) (h : s.serveMinor m = some t) : t.safe = true := by
  unfold State.serveMinor at h
  split at h
  · cases h; exact State.safe_of_mem hs (State.fillWalker_mem ..)
  · split at h
    · exact State.safe_firstTouch hs h
    · split at h
      · exact State.safe_serveCowAt hs h
      · split at h
        · exact State.safe_refill hs h
        · cases h; exact hs

theorem State.safe_filled {m : Mem} (hm : m.wf = true) (s : State) (d : Nat) : State.safe { s with mem := m, draws := d } = true := hm

theorem State.safe_makeResident {s t : State} {ctx va : Nat} (hs : s.safe = true) (h : s.makeResident ctx va = some t) : t.safe = true := by
  unfold State.makeResident at h
  dsimp only at h
  split at h
  · cases h; exact hs
  · split at h
    · cases h
    · next f s1 frame =>
      have filled : (fillFree 8192 s1.mem f s1.draws).wf = true := Mem.wf_fillFree (State.safe_newFrame (s := s.drawn.drawn) hs frame) ..
      generalize fillFree 8192 s1.mem f s1.draws = m at filled h
      generalize s1.draws + 8192 = d at h
      have refilled := State.safe_filled filled s1 d
      split at h
      · exact State.safe_mapFrame refilled h
      · rw [Option.map_eq_some_iff] at h
        obtain ⟨s3, mapped, rfl⟩ := h
        exact State.safe_of_mem (State.safe_mapLeaf refilled mapped) (State.invalidate_mem ..)

theorem State.safe_serveMajor {s t : State} {m : Minor} (hs : s.safe = true) (h : s.serveMajor m = some t) : t.safe = true := by
  unfold State.serveMajor at h
  split at h
  · exact State.safe_makeResident hs h
  · split at h
    · cases h; exact hs
    · exact State.safe_serveMinor hs h

theorem State.safe_serveAll {ms : List Minor} {s t : State} (hs : s.safe = true) (h : State.serveAll ms s = some t) : t.safe = true := by
  induction ms generalizing s with
  | nil => cases h; exact hs
  | cons m ms ih =>
    rw [State.serveAll, Option.bind_eq_some_iff] at h
    obtain ⟨s1, served, rest⟩ := h
    exact ih (State.safe_serveMajor hs served) rest

theorem State.safe_orphan {s : State} (hs : s.safe = true) (sector : Nat) : (s.orphan sector).safe = true := hs

theorem State.safe_markPages {s : State} (hs : s.safe = true) (q : Reloc) (ps : List (Nat × Nat)) (st : PageState) :
    (s.markPages q ps st).safe = true := by
  unfold State.markPages
  refine State.safe_of_mem (State.safe_foldl (fun s p hs => ?_) _ hs) (State.dropBarriers_mem ..)
  split <;> exact hs

theorem State.safe_finishMove {s : State} (hs : s.safe = true) (m : Nat) (e : RelocEng) (q : Reloc) (frame off : Nat) (d : HeapBuf) :
    (s.finishMove m e q frame off d).safe = true := by
  unfold State.finishMove
  dsimp only
  refine State.safe_of_mem (State.safe_of_mem (State.safe_closeRest (State.safe_putMem ?_) _ _) (State.putEng_mem ..)) (State.hopWake_mem _)
  exact Mem.wf_putHeader (Mem.wf_putWord (Mem.wf_moveObject hs ..) ..) _ _

/-- The search for a page stands for itself: it is not to be run when the cases are checked. -/
theorem State.safe_destPage {s t : State} {q : Reloc} {b : HeapBuf} (hs : s.safe = true) (h : s.destPage q = some (b, t)) : t.safe = true := by
  have body := Eq.refl State.destPage
  conv at body => rhs; delta State.destPage
  rw [body] at h
  beta_reduce at h
  obtain ⟨search, hn⟩ : ∃ search, search = State.nextPage := ⟨_, rfl⟩
  rw [← hn] at h
  split at h
  · next frame =>
    rw [Option.map_eq_some_iff] at h
    obtain ⟨s2, mapped, h⟩ := h
    obtain ⟨-, rfl⟩ := Prod.mk.inj h
    exact State.safe_of_mem (State.safe_freePage (State.safe_mapFrame (State.safe_newFrame hs frame) mapped) _) (State.usePage_mem ..)
  · cases h

theorem State.safe_closeDest {s : State} (hs : s.safe = true) (ctx : Nat) (dest : Option HeapBuf) : State.safe (match dest with
    | some d => s.closePage ctx d
    | none => s) = true := by
  cases dest with
  | none => exact hs
  | some d => exact State.safe_closePage hs ctx d

theorem State.safe_endEvacuate {s : State} (hs : s.safe = true) (m : Nat) (e : RelocEng) (q : Reloc) (full : Bool) :
    (s.endEvacuate m e q full).safe = true := by
  unfold State.endEvacuate
  exact State.safe_of_mem (State.safe_closeDest hs q.ctx e.dest) (State.putEng_mem ..)

/-- The choice of the page it moves to stands for itself: it is not to be run when the cases are checked. -/
theorem State.safe_startMove {s : State} (hs : s.safe = true) (m : Nat) (e : RelocEng) (q : Reloc) (frame off n : Nat) (w : Word) :
    (s.startMove m e q frame off n w).safe = true := by
  unfold State.startMove
  obtain ⟨take, hn⟩ : ∃ take, take = State.destPage := ⟨_, rfl⟩
  have taken {s1 t : State} {d : HeapBuf} (h1 : s1.safe = true) (h : take s1 q = some (d, t)) : t.safe = true := by
    rw [hn] at h
    exact State.safe_destPage h1 h
  rw [← hn]
  dsimp only
  split
  · exact State.safe_serveCow hs ..
  · refine iteInduction (motive := fun t : State => t.safe = true) (fun _ => ?_) fun _ => ?_
    · exact State.safe_of_mem (State.safe_putMem (Mem.wf_putHeader hs ..)) (State.putEng_mem ..)
    · have closed := State.safe_closeDest hs q.ctx e.dest
      split
      · next page => exact State.safe_of_mem (taken closed page) (State.putEng_mem ..)
      · exact State.safe_endEvacuate closed ..

theorem State.safe_endMove {s : State} (hs : s.safe = true) (m : Nat) (e : RelocEng) (q : Reloc) (frame0 off : Nat) (d : HeapBuf) :
    (s.endMove m e q frame0 off d).safe = true := by
  unfold State.endMove
  dsimp only
  split
  · exact State.safe_serveCow hs ..
  · split
    · exact State.safe_serveCow hs ..
    · exact State.safe_finishMove hs ..

theorem State.safe_evacuate {s : State} (hs : s.safe = true) (m : Nat) (e : RelocEng) (q : Reloc) : (s.evacuate m e q).safe = true := by
  unfold State.evacuate
  split
  · exact State.safe_endMove hs ..
  · split
    · exact State.safe_endEvacuate hs ..
    · split
      · exact State.safe_endEvacuate hs ..
      · split
        · exact State.safe_of_mem hs (State.putEng_mem ..)
        · dsimp only
          split
          · exact State.safe_of_mem hs (State.putEng_mem ..)
          · split
            · exact State.safe_of_mem hs (State.putEng_mem ..)
            · exact State.safe_startMove hs ..

theorem State.safe_cleared {s : State} (hs : s.safe = true) (keep : Bool) : (s.cleared keep).safe = true := by
  cases keep with
  | true => exact hs
  | false => exact Mem.wf_reset

theorem State.safe_resetStep {s : State} (hs : s.safe = true) (n : Nat) : (s.resetStep n).safe = true := by
  unfold State.resetStep
  split
  case h_4 => exact State.safe_of_mem (State.safe_cleared hs s.dev.warm) rfl
  all_goals exact hs

theorem safe_mgmtStep {s : State} (hs : s.safe = true) {f : State → Word → State} (hf : ∀ s v, s.safe = true → (f s v).safe = true) :
    SafeOutcome (mgmtStep s f) := by
  unfold mgmtStep
  split
  · exact hs
  · dsimp only [SafeOutcome]
    split
    · exact hs
    · exact hf _ _ hs

theorem safe_regStep {s : State} (hs : s.safe = true) {f : State → RegAccess → State} (hf : ∀ s a, s.safe = true → (f s a).safe = true) :
    SafeOutcome (regStep s f) := by
  unfold regStep
  split
  · exact hs
  · dsimp only [SafeOutcome]
    split
    · exact hf _ _ hs
    · exact State.safe_of_mem hs (State.herrUp_mem ..)

theorem State.safe_slotFault {s : State} (hs : s.safe = true) (x : Site) (n : NodeRec) (code reason row want held : Nat) :
    (s.slotFault x n code reason row want held).Safe := hs

theorem State.safe_panelRead {s : State} (hs : s.safe = true) (x : Site) (n : NodeRec) (shape : Stmt → Bool) : (s.panelRead x n shape).Safe := by
  unfold State.panelRead
  split
  · exact hs
  · trivial
  · dsimp only
    split
    · trivial
    · exact State.safe_of_mem hs (State.putTile_mem ..)
    · exact hs

theorem State.safe_waitSlot {s : State} (hs : s.safe = true) (x : Site) : (s.waitSlot x).Safe := State.safe_of_mem hs (State.putFiring_mem ..)

theorem State.safe_serve {s : State} (hs : s.safe = true) (x : Site) (row rows : Nat) (boundary : Bool) : (s.serve x row rows boundary).Safe :=
  State.safe_of_mem hs (State.putFiring_mem ..)

theorem State.safe_sendSome {s : State} (hs : s.safe = true) (x : Site) (n : NodeRec) (o : Out) (next : Firing) : (s.sendSome x n o next).Safe :=
  State.safe_of_mem hs ((State.putFiring_mem ..).trans ((State.sendAll_mem ..).trans (State.fireFlags_mem ..)))

theorem State.safe_serveRow {s : State} (hs : s.safe = true) (x : Site) (n : NodeRec) (pick : Nat → Row) : (s.serveRow x n pick).Safe := by
  unfold State.serveRow
  dsimp only
  split
  · dsimp only [FireRes.Safe]
    split
    · exact hs
    · exact State.safe_of_mem hs (State.countRead_mem ..)
  · exact State.safe_sendSome hs ..

theorem safe_getTurn (n : NodeRec) {s : State} (hs : s.safe = true) (x : Site) : (getTurn n s x).Safe := by
  have read := State.safe_panelRead hs x n (fmtShape n)
  unfold getTurn
  split
  · exact State.safe_serveRow hs ..
  · split
    · exact hs
    · generalize s.panelRead x n (fmtShape n) = out at read ⊢
      cases out with
      | fault r => exact read
      | boundary st => exact State.safe_serve hs ..
      | waits => exact State.safe_waitSlot hs _
      | issued s1 st row => exact State.safe_serve read ..

theorem safe_getrTurn (n : NodeRec) {s : State} (hs : s.safe = true) (x : Site) : (getrTurn n s x).Safe := by
  have read := State.safe_panelRead hs x n (fmtShape n)
  unfold getrTurn
  dsimp only
  split
  · exact State.safe_serveRow hs ..
  · generalize s.panelRead x n (fmtShape n) = out at read ⊢
    cases out with
    | fault r => exact read
    | boundary st => exact State.safe_serve hs ..
    | waits => exact State.safe_waitSlot hs _
    | issued s1 st row => exact State.safe_of_mem read (State.putFiring_mem ..)

theorem safe_rlsTurn (n : NodeRec) {s : State} (hs : s.safe = true) (x : Site) : (rlsTurn n s x).Safe := by
  have read := State.safe_panelRead hs x n (fmtShape n)
  unfold rlsTurn
  dsimp only
  split
  · exact hs
  · generalize s.panelRead x n (fmtShape n) = out at read ⊢
    cases out with
    | fault r => exact read
    | boundary st => exact hs
    | waits => exact State.safe_waitSlot hs _
    | issued s1 st row => exact State.safe_of_mem read (State.countRead_mem ..)

theorem State.safe_putRowAt {s : State} (hs : s.safe = true) (x : Site) (n : NodeRec) (st : Stmt) (row vec : Nat) (t : Token) :
    (s.putRowAt x n st row vec t).Safe := by
  unfold State.putRowAt
  dsimp only
  split
  · exact State.safe_slotFault hs ..
  · split
    · exact State.safe_slotFault hs ..
    · split
      · exact State.safe_slotFault hs ..
      · split <;> exact State.safe_of_mem hs ((State.putInst_mem ..).trans (State.putTile_mem ..))

theorem safe_putTurn (n : NodeRec) {s : State} (hs : s.safe = true) (x : Site) : (putTurn n s x).Safe := by
  unfold putTurn
  split
  · exact hs
  · split
    · split
      · exact hs
      · exact State.safe_putRowAt hs ..
    · split
      · exact hs
      · exact hs
      · dsimp only
        split
        · exact State.safe_slotFault hs ..
        · exact State.safe_waitSlot hs _
        · exact State.safe_putRowAt (State.safe_of_mem hs (State.putTile_mem ..)) ..

theorem safe_fireScaled {s : State} (hs : s.safe = true) (n : NodeRec) (op : Nat) (c : Bool) (g : Site → Out × BitVec 10) :
    SafeOutcome (fireScaled s n op c g) := by
  unfold fireScaled
  refine safe_fireNode (fun x => ?_) ..
  dsimp only
  split
  · exact hs
  · exact hs

theorem safe_fireFp1 {s : State} (hs : s.safe = true) (n : NodeRec) (op : Nat) (g : BitVec 8 → Nat → VRes) : SafeOutcome (fireFp1 s n op g) := by
  grind [fireFp1, State.safe, safe_fireScaled, SafeOutcome]

theorem safe_fireFp2 {s : State} (hs : s.safe = true) (n : NodeRec) (op : Nat) (g : BitVec 8 → Nat → Nat → VRes) : SafeOutcome (fireFp2 s n op g) := by
  grind [fireFp2, State.safe, safe_fireScaled, SafeOutcome]

theorem safe_fireConv {s : State} (hs : s.safe = true) (n : NodeRec) (op : Nat) (g : BitVec 8 → Nat → Nat → VRes) : SafeOutcome (fireConv s n op g) := by
  grind [fireConv, State.safe, safe_fireScaled, SafeOutcome]

theorem safe_withB (n : NodeRec) {s : State} (hs : s.safe = true) (x : Site) {g : MpeB → FireRes} (hg : ∀ b, (g b).Safe) : (withB n s x g).Safe := by
  unfold withB
  split
  · exact hs
  · split
    · exact hg _
    · exact hs

theorem safe_mldbTurn (n : NodeRec) {s : State} (hs : s.safe = true) (x : Site) : (mldbTurn n s x).Safe := by
  have read := State.safe_panelRead hs x n (mldbShape n)
  have started {s1 : State} (h1 : s1.safe = true) (t : Tile) (f : Firing) : ((s1.putTile x.tile t).putFiring x f).safe = true :=
    State.safe_of_mem h1 ((State.putFiring_mem ..).trans (State.putTile_mem ..))
  unfold mldbTurn
  dsimp only
  split
  · split
    · exact hs
    · dsimp only [FireRes.Safe]
      split
      · exact State.safe_of_mem hs (State.putTile_mem ..)
      · exact State.safe_of_mem hs ((State.countRead_mem ..).trans (State.putTile_mem ..))
  · generalize s.panelRead x n (mldbShape n) = out at read ⊢
    cases out with
    | fault r => exact read
    | boundary st => exact started hs ..
    | waits => exact State.safe_waitSlot hs _
    | issued s1 st row => exact started read ..

theorem safe_polyDone {s : State} (hs : s.safe = true) (x : Site) (itag : BitVec 32) (last : Bool) (a : PolyAcc) (fl : BitVec 10) :
    (polyDone s x itag last a fl).Safe := State.safe_of_mem hs (State.putAcc_mem ..)

theorem safe_firePoly {s : State} (hs : s.safe = true) (n : NodeRec) (op : Nat) {g : State → Site → PolyAcc → FireRes} (hg : ∀ x a, (g s x a).Safe) :
    SafeOutcome (firePoly s n op g) := by
  unfold firePoly
  refine safe_fireNode (fun x => ?_) ..
  dsimp only
  split
  · exact hs
  · exact hg _ _

theorem safe_polyStream {s : State} (hs : s.safe = true) (x : Site) (view : List Token → List Token) {g : List Token → FireRes} (hg : ∀ ts, (g ts).Safe) :
    (polyStream s x view g).Safe := by
  unfold polyStream
  split
  · exact hs
  · dsimp only
    split
    · exact State.safe_of_mem hs (State.putInst_mem ..)
    · split
      · exact State.safe_of_mem hs (State.putInst_mem ..)
      · exact hg _

theorem State.safe_freeLeavers {s : State} (hs : s.safe = true) (k : Nat) : (s.freeLeavers k).safe = true := by
  unfold State.freeLeavers
  exact State.safe_foldl (fun s q hs => State.safe_freeNode hs ..) _ hs

theorem State.safe_tick {s : State} (hs : s.safe = true) : s.tick.safe = true := by
  have left (ks : List Nat) : (ks.foldl State.freeLeavers s).safe = true := State.safe_foldl (fun _ k hs => State.safe_freeLeavers hs k) ks hs
  have charged (ks : List Nat) (live : List (Nat × Region)) : (live.foldl (fun s e => s.charge e.2) (ks.foldl State.freeLeavers s)).safe = true :=
    State.safe_of_mem (left ks) (State.foldl_mem (f := fun s (e : Nat × Region) => s.charge e.2) (fun _ _ => rfl) ..)
  unfold State.tick
  dsimp only
  refine State.safe_of_mem ?_ ((State.noteDue_mem _).trans (State.foldl_mem (fun s x => s.mergeUnit_mem x) _ _))
  dsimp only [State.safe]
  split
  · exact charged ..
  · exact charged ..

end Sys2Proof.Machine
end

section
/-! SUPPORT. The instructions keep memory in its canonical form. -/

namespace Sys2Proof.Machine

theorem Laid.safe_of_ok {l : Laid} {s : State} {as : List Acc} (h : l.Safe) (e : l = .ok s as) : s.safe = true := by rwa [e] at h

theorem Laid.safe_of_fault {l : Laid} {s : State} {code a : Nat} (h : l.Safe) (e : l = .fault s code a) : s.safe = true := by rwa [e] at h

theorem safe_execBwait (r : CtlRec) {s : State} (hs : s.safe = true) : SafeOutcome (execBwait r s) := by
  unfold execBwait
  refine safe_ctlWait fun c => ?_
  split <;> exact hs

theorem safe_execCwait (r : CtlRec) {s : State} (hs : s.safe = true) : SafeOutcome (execCwait r s) := by
  unfold execCwait
  refine safe_ctlWait fun c => ?_
  (repeat' split) <;> exact State.safe_of_mem hs (by simp)

theorem safe_execEfence (r : CtlRec) {s : State} (hs : s.safe = true) : SafeOutcome (execEfence r s) := by
  unfold execEfence
  refine safe_ctlWait fun c => ?_
  dsimp only
  (repeat' split) <;> exact hs

theorem safe_execLds (r : CtlRec) {s : State} (hs : s.safe = true) : SafeOutcome (execLds r s) :=
  safe_ctlEffect hs fun s c hs => State.safe_ctlLoad hs c _ _ fun s w bs hs => hs

theorem safe_execSts (r : CtlRec) {s : State} (hs : s.safe = true) : SafeOutcome (execSts r s) :=
  safe_ctlEffect hs fun s c hs => State.safe_ctlStore hs c _ _ _ _ fun s w hs => hs

theorem safe_execCnew (r : CtlRec) {s : State} (hs : s.safe = true) : SafeOutcome (execCnew r s) := by
  unfold execCnew
  refine safe_ctlEffect hs fun s c hs => ?_
  (repeat' split) <;> exact hs

theorem safe_execCadd (r : CtlRec) {s : State} (hs : s.safe = true) : SafeOutcome (execCadd r s) := by
  unfold execCadd
  refine safe_ctlEffect hs fun s c hs => ?_
  (repeat' split) <;> exact State.safe_of_mem hs (by simp)

theorem safe_execCrd (r : CtlRec) {s : State} (hs : s.safe = true) : SafeOutcome (execCrd r s) := by
  unfold execCrd
  refine safe_ctlEffect hs fun s c hs => ?_
  (repeat' split) <;> exact hs

theorem safe_execLaunch (r : CtlRec) {s : State} (hs : s.safe = true) : SafeOutcome (execLaunch r s) := by
  unfold execLaunch
  refine safe_ctlEffect hs fun s c hs => ?_
  split
  · exact hs
  · refine State.safe_ctlLoad hs c _ _ fun s w bs hs => ?_
    dsimp only
    split
    · exact State.safe_of_mem hs (State.advance_mem ..)
    · split
      · exact hs
      · exact State.safe_of_mem (State.safe_admitLaunch hs _) (State.drawn_mem _)

theorem safe_execCancel (r : CtlRec) {s : State} (hs : s.safe = true) : SafeOutcome (execCancel r s) := by
  unfold execCancel
  refine safe_ctlEffect hs fun s c hs => ?_
  dsimp only
  (repeat' split) <;> exact hs

theorem safe_execArm (r : CtlRec) {s : State} (hs : s.safe = true) : SafeOutcome (execArm r s) := by
  unfold execArm
  refine safe_ctlEffect hs fun s c hs => ?_
  refine iteInduction (motive := fun r : CRes => r.Safe) (fun _ => hs) fun _ => ?_
  exact iteInduction (motive := fun r : CRes => r.Safe) (fun _ => hs) fun _ => State.safe_arm hs ..

theorem safe_execRun (r : CtlRec) {s : State} (hs : s.safe = true) : SafeOutcome (execRun r s) :=
  safe_ctlEffect hs fun s c hs => safe_runTurn hs r false c

theorem safe_execRunw (r : CtlRec) {s : State} (hs : s.safe = true) : SafeOutcome (execRunw r s) :=
  safe_ctlEffect hs fun s c hs => safe_runTurn hs r true c

theorem safe_execReplaceB (r : CtlRec) {s : State} (hs : s.safe = true) : SafeOutcome (execReplaceB r s) := by
  unfold execReplaceB
  refine safe_ctlEffect hs fun s c hs => ?_
  dsimp only
  (repeat' split) <;> exact State.safe_of_mem hs (by simp)

theorem safe_execFresize (r : CtlRec) {s : State} (hs : s.safe = true) : SafeOutcome (execFresize r s) := by
  unfold execFresize
  refine safe_ctlEffect hs fun s c hs => ?_
  dsimp only
  split
  · exact hs
  · next d _ =>
    have resized := State.safe_resizeTurn hs c.rg (c.sA r).toNat (resizeLat r.imm d.rank) (c.w.aux.getD 0 0)
    generalize s.resizeTurn c.rg (c.sA r).toNat (resizeLat r.imm d.rank) (c.w.aux.getD 0 0) = out at resized ⊢
    split <;> exact resized

theorem safe_execFdecl (r : CtlRec) {s : State} (hs : s.safe = true) : SafeOutcome (execFdecl r s) := by
  unfold execFdecl
  refine safe_ctlEffect hs fun s c hs => ?_
  dsimp only
  split
  · exact hs
  · next idx d clean _ =>
    split
    · exact hs
    · split
      · exact State.safe_of_mem hs (State.mapTiles_mem ..)
      · split
        · exact State.safe_of_mem hs (State.mapTiles_mem ..)
        · have resized := State.safe_resizeTurn hs c.rg idx d.lat (c.w.aux.getD 0 0)
          generalize s.resizeTurn c.rg idx d.lat (c.w.aux.getD 0 0) = out at resized ⊢
          split
          · exact resized
          · exact State.safe_of_mem resized (State.mapTiles_mem ..)
          · exact resized

theorem safe_execFqry (r : CtlRec) {s : State} (hs : s.safe = true) : SafeOutcome (execFqry r s) :=
  safe_ctlEffect hs fun s c hs => hs

theorem safe_execFdrop (r : CtlRec) {s : State} (hs : s.safe = true) : SafeOutcome (execFdrop r s) := by
  unfold execFdrop
  refine safe_ctlEffect hs fun s c hs => ?_
  dsimp only
  (repeat' split) <;> exact State.safe_of_mem hs (by simp)

theorem safe_execFspill (r : CtlRec) {s : State} (hs : s.safe = true) : SafeOutcome (execFspill r s) := by
  unfold execFspill
  refine safe_ctlEffect hs fun s c hs => ?_
  split
  · exact hs
  · dsimp only
    split
    · exact State.safe_ctlTurn hs c _ fun s w as hs => State.safe_of_mem hs ((State.putTile_mem ..).trans (State.noteErrs_mem ..))
    · split
      · exact hs
      · split
        · next out => exact State.safe_of_mem (Laid.safe_of_fault (State.safe_layRows hs ..) out) (State.minorAt_mem ..)
        · next out => exact State.safe_of_mem (Laid.safe_of_ok (State.safe_layRows hs ..) out) ((State.issueAccs_mem ..).trans (State.putTile_mem ..))

theorem safe_execFfill (r : CtlRec) {s : State} (hs : s.safe = true) : SafeOutcome (execFfill r s) := by
  unfold execFfill
  refine safe_ctlEffect hs fun s c hs => ?_
  split
  · exact hs
  · dsimp only
    split
    · exact State.safe_ctlTurn hs c _ fun s w as hs => State.safe_of_mem hs (State.putTile_mem ..)
    · split
      · exact hs
      · exact hs
      · split
        · next out => exact State.safe_of_mem (Laid.safe_of_fault (State.safe_layRows hs ..) out) (State.minorAt_mem ..)
        · next out => exact State.safe_of_mem (Laid.safe_of_ok (State.safe_layRows hs ..) out) ((State.issueAccs_mem ..).trans (State.putTile_mem ..))

theorem safe_execHld (r : CtlRec) {s : State} (hs : s.safe = true) : SafeOutcome (execHld r s) := by
  unfold execHld
  refine safe_ctlEffect hs fun s c hs => State.safe_ctlHeap hs c _ _ _ _ _ _ fun s w ref hops pa data psn hs => ?_
  split <;> exact hs

theorem safe_execHst (r : CtlRec) {s : State} (hs : s.safe = true) : SafeOutcome (execHst r s) := by
  unfold execHst
  refine safe_ctlEffect hs fun s c hs => ?_
  dsimp only
  split
  · exact hs
  · exact State.safe_ctlHeap hs c _ _ _ _ _ _ fun s w ref hops pa data psn hs => hs

theorem safe_execHpin (r : CtlRec) {s : State} (hs : s.safe = true) : SafeOutcome (execHpin r s) :=
  safe_ctlEffect hs fun s c hs => State.safe_ctlHeap hs c _ _ _ _ _ _ fun s w ref hops pa data psn hs => hs

theorem safe_execHunpin (r : CtlRec) {s : State} (hs : s.safe = true) : SafeOutcome (execHunpin r s) :=
  safe_ctlEffect hs fun s c hs => State.safe_ctlHeap hs c _ _ _ _ _ _ fun s w ref hops pa data psn hs => hs

theorem safe_execHcmp (r : CtlRec) {s : State} (hs : s.safe = true) : SafeOutcome (execHcmp r s) := by
  unfold execHcmp
  refine safe_ctlEffect hs fun s c hs => ?_
  dsimp only
  split
  · exact hs
  · split <;> exact State.safe_ctlHeap hs c _ _ _ _ _ _ fun s w ref hops pa data psn hs => hs

theorem safe_execHnew (r : CtlRec) {s : State} (hs : s.safe = true) : SafeOutcome (execHnew r s) := by
  unfold execHnew
  refine safe_ctlEffect hs fun s c hs => ?_
  dsimp only
  have made := State.safe_alloc hs (.core c.key) c.rg.ctx (c.sA r).toNat (field r.imm 15 0) (field r.imm 19 16)
  generalize s.alloc (.core c.key) c.rg.ctx (c.sA r).toNat (field r.imm 15 0) (field r.imm 19 16) = out at made ⊢
  cases out with
  | ok s1 ref => exact made
  | fault s1 code va => exact State.safe_of_mem made (State.minorAt_mem ..)

theorem safe_execReloc (r : CtlRec) {s : State} (hs : s.safe = true) : SafeOutcome (execReloc r s) := by
  unfold execReloc
  refine safe_ctlEffect hs fun s c hs => ?_
  dsimp only
  (repeat' split) <;> exact State.safe_of_mem hs (by simp)

theorem safe_execSnap (r : CtlRec) {s : State} (hs : s.safe = true) : SafeOutcome (execSnap r s) :=
  safe_ctlEffect hs fun s c hs => State.safe_snap hs ..

theorem safe_execSnapdrop (r : CtlRec) {s : State} (hs : s.safe = true) : SafeOutcome (execSnapdrop r s) :=
  safe_ctlEffect hs fun s c hs => State.safe_snapDrop hs ..

theorem safe_execTlbinv (r : CtlRec) {s : State} (hs : s.safe = true) : SafeOutcome (execTlbinv r s) :=
  safe_ctlEffect hs fun s c hs => hs

theorem safe_execSbind (r : CtlRec) {s : State} (hs : s.safe = true) : SafeOutcome (execSbind r s) := by
  unfold execSbind
  refine safe_ctlEffect hs fun s c hs => State.safe_ctlDesc hs c r fun s w d hs => ?_
  dsimp only
  split
  · exact hs
  · split
    · exact State.safe_of_mem hs (State.queueStream_mem ..)
    · exact hs

theorem safe_execSgo (r : CtlRec) {s : State} (hs : s.safe = true) : SafeOutcome (execSgo r s) :=
  safe_ctlEffect hs fun s c hs => safe_streamTurn .go r hs c

theorem safe_execSstop (r : CtlRec) {s : State} (hs : s.safe = true) : SafeOutcome (execSstop r s) :=
  safe_ctlEffect hs fun s c hs => safe_streamTurn .stop r hs c

theorem safe_execSbar (r : CtlRec) {s : State} (hs : s.safe = true) : SafeOutcome (execSbar r s) := by
  unfold execSbar
  refine safe_ctlEffect hs fun s c hs => ?_
  dsimp only
  (repeat' split) <;> exact hs

theorem safe_execCopy (r : CtlRec) {s : State} (hs : s.safe = true) : SafeOutcome (execCopy r s) :=
  safe_ctlEffect hs fun s c hs => safe_engineTurn 0x20 r hs c

theorem safe_execGather (r : CtlRec) {s : State} (hs : s.safe = true) : SafeOutcome (execGather r s) :=
  safe_ctlEffect hs fun s c hs => safe_engineTurn 0x21 r hs c

theorem safe_execScatter (r : CtlRec) {s : State} (hs : s.safe = true) : SafeOutcome (execScatter r s) :=
  safe_ctlEffect hs fun s c hs => safe_engineTurn 0x22 r hs c

theorem safe_execCred (r : CtlRec) {s : State} (hs : s.safe = true) : SafeOutcome (execCred r s) :=
  safe_ctlEffect hs fun s c hs => safe_engineTurn 0x23 r hs c

theorem safe_execRput (r : CtlRec) {s : State} (hs : s.safe = true) : SafeOutcome (execRput r s) :=
  safe_ctlEffect hs fun s c hs => safe_engineTurn 0x24 r hs c

theorem safe_execRget (r : CtlRec) {s : State} (hs : s.safe = true) : SafeOutcome (execRget r s) :=
  safe_ctlEffect hs fun s c hs => safe_engineTurn 0x25 r hs c

theorem safe_execXbegin (r : CtlRec) {s : State} (hs : s.safe = true) : SafeOutcome (execXbegin r s) := by
  unfold execXbegin
  refine safe_ctlEffect hs fun s c hs => ?_
  dsimp only
  (repeat' split) <;> exact State.safe_of_mem hs (by simp)

theorem safe_execXput (r : CtlRec) {s : State} (hs : s.safe = true) : SafeOutcome (execXput r s) := by
  unfold execXput
  refine safe_ctlEffect hs fun s c hs => ?_
  split
  · exact hs
  · split
    · exact hs
    · split
      · exact hs
      · exact State.safe_ctlAccess hs c _ _ _ _ _ _ fun s w as hs => safe_xputStage r c _ _ hs w as

theorem safe_execXcommit (r : CtlRec) {s : State} (hs : s.safe = true) : SafeOutcome (execXcommit r s) := by
  unfold execXcommit
  refine safe_ctlEffect hs fun s c hs => ?_
  split
  · exact hs
  · split
    · exact State.safe_of_mem hs (State.setTxn_mem ..)
    · split
      · exact State.safe_of_mem hs (State.setTxn_mem ..)
      · split
        · exact hs
        · exact State.safe_of_mem hs ((State.setTxn_mem ..).trans (State.txnAbort_mem ..))
        · exact State.safe_of_mem (State.safe_prepareTxn hs _) (State.setTxn_mem ..)

theorem safe_execXabort (r : CtlRec) {s : State} (hs : s.safe = true) : SafeOutcome (execXabort r s) := by
  unfold execXabort
  refine safe_ctlEffect hs fun s c hs => ?_
  split
  · exact hs
  · exact State.safe_of_mem hs ((State.setTxn_mem ..).trans (State.txnAbort_mem ..))

theorem safe_execStreamScoreboardStep (tile port : Nat) {s : State} (hs : s.safe = true) : SafeOutcome (execStreamScoreboardStep tile port s) := by
  unfold execStreamScoreboardStep
  (repeat' split) <;> exact State.safe_of_mem hs (by simp)

theorem safe_execLoadStreamToken (tile port : Nat) {s : State} (hs : s.safe = true) : SafeOutcome (execLoadStreamToken tile port s) := by
  unfold execLoadStreamToken
  split
  · exact hs
  · dsimp only
    split
    · exact hs
    · split
      · exact State.safe_of_mem hs (State.feed_mem ..)
      · split
        · exact State.safe_of_mem hs (State.putPort_mem ..)
        · dsimp only [SafeOutcome]
          split
          · exact State.safe_beginRead (s := s.drawn) hs _
          · exact State.safe_turnPort (s := s.drawn) hs _
      · dsimp only [SafeOutcome]
        split
        · exact State.safe_beginRead hs _
        · exact hs

theorem safe_execStoreStreamToken (tile port : Nat) {s : State} (hs : s.safe = true) : SafeOutcome (execStoreStreamToken tile port s) := by
  unfold execStoreStreamToken
  split
  · exact hs
  · dsimp only
    split
    · exact hs
    · split
      · exact State.safe_of_mem hs (State.wroteTok_mem ..)
      · split
        · exact State.safe_of_mem hs (State.putPort_mem ..)
        · dsimp only [SafeOutcome]
          split
          · exact State.safe_takeTok (s := s.drawn) hs ..
          · exact State.safe_turnPort (s := s.drawn) hs _
      · exact State.safe_turnPort hs _

theorem safe_execStreamComplete (tile port : Nat) {s : State} (hs : s.safe = true) : SafeOutcome (execStreamComplete tile port s) := by
  unfold execStreamComplete
  split
  · exact hs
  · dsimp only
    split
    · exact hs
    · refine State.safe_of_mem ?_ (State.putPort_mem ..)
      split
      · exact State.safe_deposit hs ..
      · exact hs

theorem safe_execEngineDrain (key idx : Nat) {s : State} (hs : s.safe = true) : SafeOutcome (execEngineDrain key idx s) := by
  unfold execEngineDrain
  split
  · exact hs
  · split
    · exact State.safe_stoppedTurn hs _
    · split
      · exact hs
      · split
        · exact State.safe_credTurn hs _
        · exact State.safe_copyTurn hs _

theorem safe_execNullFlit {s : State} (hs : s.safe = true) : SafeOutcome (execNullFlit s) := by
  unfold execNullFlit
  refine safe_recvFlit 0 0 hs fun s f t hs h => ?_
  split at h
  · cases h; exact hs
  · split at h <;> (cases h; exact State.safe_of_mem hs (by simp))

theorem safe_execRdreq {s : State} (hs : s.safe = true) : SafeOutcome (execRdreq s) := by
  unfold execRdreq
  refine safe_recvHeld 1 0 hs fun s h hs => ?_
  have seen := State.safe_seeTime hs (Decode.bodyNum h.flit.body 72 77)
  dsimp only
  split
  · have came (a m : Nat) := State.safe_readSector (s := (s.seeTime (Decode.bodyNum h.flit.body 72 77)).drawn) seen a m
    split
    · exact State.safe_of_mem (came ..) (State.putFlit_mem ..)
    · exact came ..
  · split
    · next sent => exact State.safe_of_mem seen (State.request_mem sent)
    · trivial

theorem safe_execWrreq {s : State} (hs : s.safe = true) : SafeOutcome (execWrreq s) := by
  unfold execWrreq
  refine safe_recvHeld 2 0 hs fun s h hs => ?_
  have seen := State.safe_seeTime hs (Decode.bodyNum h.flit.body 72 77)
  dsimp only
  generalize s.seeTime (Decode.bodyNum h.flit.body 72 77) = s2 at seen ⊢
  have copied (c : Prop) [Decidable c] (ctx a : Nat) : (if c then s2.serveCow ctx a else s2).safe = true := by
    split
    · exact State.safe_serveCow seen ..
    · exact seen
  refine iteInduction (motive := fun r : Served => r.Safe) (fun _ => ?_) fun _ => ?_
  · refine iteInduction (motive := fun r : Served => r.Safe) (fun _ => ?_) fun _ => ?_
    · exact State.safe_of_mem (State.safe_writeSector (State.safe_of_mem (copied ..) (State.drawn_mem _)) ..) (State.putFlit_mem ..)
    · exact State.safe_writeSector (State.safe_of_mem (copied ..) (State.drawn_mem _)) ..
  · split
    · next sent => exact State.safe_of_mem (copied ..) (State.request_mem sent)
    · trivial

theorem safe_execRdrsp {s : State} (hs : s.safe = true) : SafeOutcome (execRdrsp s) :=
  safe_recvFlit 3 0 hs fun s f t hs h => safe_memAnswer hs h

theorem safe_execWrack {s : State} (hs : s.safe = true) : SafeOutcome (execWrack s) :=
  safe_recvFlit 4 0 hs fun s f t hs h => safe_memAnswer hs h

theorem safe_execTokenFlit {s : State} (hs : s.safe = true) : SafeOutcome (execTokenFlit s) := by
  unfold execTokenFlit
  refine safe_recvHeld 5 0 hs fun s h hs => ?_
  dsimp only
  split
  · next landed =>
    split at landed
    · cases landed
    · exact State.safe_of_mem hs (State.landToken_mem landed)
  · exact hs

theorem safe_execCairnAdd {s : State} (hs : s.safe = true) : SafeOutcome (execCairnAdd s) := by
  unfold execCairnAdd
  refine safe_recvFlit 6 1 hs fun s f t hs h => ?_
  obtain rfl := Option.some.inj h
  exact State.safe_of_mem (State.safe_seeTime hs (flitTs f)) ((State.cairnReply_mem ..).trans (State.cairnAddScc_mem ..))

theorem safe_execCairnWait {s : State} (hs : s.safe = true) : SafeOutcome (execCairnWait s) := by
  unfold execCairnWait
  refine safe_recvFlit 6 2 hs fun s f t hs h => ?_
  have seen := State.safe_seeTime hs (flitTs f)
  dsimp only at h
  split at h
  · cases h; exact State.safe_of_mem seen (State.cairnReply_mem ..)
  · split at h
    · cases h; exact State.safe_of_mem seen (State.cairnReply_mem ..)
    · cases h; exact seen

theorem safe_execCairnRead {s : State} (hs : s.safe = true) : SafeOutcome (execCairnRead s) := by
  unfold execCairnRead
  refine safe_recvFlit 6 3 hs fun s f t hs h => ?_
  obtain rfl := Option.some.inj h
  exact State.safe_of_mem (State.safe_seeTime hs (flitTs f)) (State.cairnReply_mem ..)

theorem safe_execHopReadHeader {s : State} (hs : s.safe = true) : SafeOutcome (execHopReadHeader s) :=
  safe_hopStep 1 (g := fun s1 _ a => .done { s1 with mem := s1.mem.stampLoad a } 0 a) (fun s f a hs => hs) hs

theorem safe_execHopPin {s : State} (hs : s.safe = true) : SafeOutcome (execHopPin s) :=
  safe_hopStep 2 (fun s f a hs => State.safe_pinFor hs ..) hs

theorem safe_execHopUnpin {s : State} (hs : s.safe = true) : SafeOutcome (execHopUnpin s) :=
  safe_hopStep 3 (fun s f a hs => State.safe_pinFor hs ..) hs

theorem safe_execHopWait {s : State} (hs : s.safe = true) : SafeOutcome (execHopWait s) := by
  refine safe_hopStep 4 (fun s f a hs => ?_) hs
  split
  · trivial
  · exact hs

theorem safe_execGreply {s : State} (hs : s.safe = true) : SafeOutcome (execGreply s) := by
  unfold execGreply
  refine safe_recvFlit 10 0 hs fun s f t hs h => ?_
  dsimp only at h
  split at h
  · cases h; exact hs
  · split at h
    · cases h; exact hs
    · cases h; exact State.safe_deliverReply hs ..

theorem safe_execWaitRetryTimer (tag : Nat) {s : State} (hs : s.safe = true) : SafeOutcome (execWaitRetryTimer tag s) := by
  unfold execWaitRetryTimer
  split
  · exact hs
  · split
    · next sent => exact State.safe_of_mem (State.safe_of_mem hs (State.send_mem sent)) rfl
    · exact hs

theorem safe_execClassBind {s : State} (hs : s.safe = true) : SafeOutcome (execClassBind s) := by
  unfold execClassBind
  refine safe_recvFlit 9 1 hs fun s f t hs h => ?_
  dsimp only at h
  (repeat' split at h) <;> (cases h; exact State.safe_of_mem hs (by simp))

theorem safe_execClassRelease {s : State} (hs : s.safe = true) : SafeOutcome (execClassRelease s) := by
  unfold execClassRelease
  refine safe_recvFlit 9 2 hs fun s f t hs h => ?_
  obtain rfl := Option.some.inj h
  exact State.safe_of_mem hs (by simp)

theorem safe_execClassReleaseTimer (port sdev ctx : Nat) {s : State} (hs : s.safe = true) :
    SafeOutcome (execClassReleaseTimer port sdev ctx s) := by
  unfold execClassReleaseTimer
  dsimp only
  (repeat' split) <;> exact State.safe_of_mem hs (by simp)

theorem safe_execIdleNullTimer (port : Nat) {s : State} (hs : s.safe = true) : SafeOutcome (execIdleNullTimer port s) := by
  unfold execIdleNullTimer
  dsimp only [SafeOutcome]
  (repeat' split) <;> exact State.safe_of_mem hs (by simp)

theorem safe_execXlat (n : NodeRec) {s : State} (hs : s.safe = true) : SafeOutcome (execXlat n s) := by
  unfold execXlat
  refine safe_fireNode (fun x => ?_) ..
  dsimp only
  have translated (it : Intent) (ps : List (Nat × Nat)) : (s.xlatPairs (.tile x.tile) x.rg.ctx it ps []).2.safe = true := State.safe_xlatPairs hs ..
  split
  · exact State.safe_of_mem (translated ..) (State.minorAt_mem ..)
  · exact translated ..

theorem safe_execLd (n : NodeRec) {s : State} (hs : s.safe = true) : SafeOutcome (execLd n s) := by
  unfold execLd
  refine safe_fireNode (fun x => ?_) ..
  dsimp only
  split
  · exact State.safe_turnFiring hs x fun s as hs => hs
  · (repeat' split) <;> exact State.safe_of_mem hs (by simp)

theorem safe_execSt (n : NodeRec) {s : State} (hs : s.safe = true) : SafeOutcome (execSt n s) := by
  unfold execSt
  refine safe_fireNode (fun x => ?_) ..
  dsimp only
  split
  · exact State.safe_turnFiring hs x fun s as hs => hs
  · (repeat' split) <;> exact State.safe_of_mem hs (by simp)

theorem safe_execLdg (n : NodeRec) {s : State} (hs : s.safe = true) : SafeOutcome (execLdg n s) := by
  unfold execLdg
  refine safe_fireNode (fun x => ?_) ..
  dsimp only
  split
  · exact State.safe_turnFiring hs x fun s as hs => hs
  · (repeat' split) <;> exact State.safe_of_mem hs (by simp)

theorem safe_execStx (n : NodeRec) {s : State} (hs : s.safe = true) : SafeOutcome (execStx n s) := by
  unfold execStx
  refine safe_fireNode (fun x => ?_) ..
  dsimp only
  split
  · exact State.safe_turnFiring hs x fun s as hs => hs
  · (repeat' split) <;> exact State.safe_of_mem hs (by simp)

theorem safe_execPref (n : NodeRec) {s : State} (hs : s.safe = true) : SafeOutcome (execPref n s) := by
  unfold execPref
  refine safe_fireNode (fun x => ?_) ..
  (repeat' split) <;> exact State.safe_of_mem hs (by simp)

theorem safe_execLinkFault (port : Nat) (cause : LinkCause) {s : State} (hs : s.safe = true) : SafeOutcome (execLinkFault port cause s) := by
  unfold execLinkFault
  dsimp only [SafeOutcome]
  split
  · exact State.safe_linkFault hs port
  · exact hs

theorem safe_execPortTrained (port : Nat) (lo hi : Bool) {s : State} (hs : s.safe = true) : SafeOutcome (execPortTrained port lo hi s) := by
  unfold execPortTrained
  (repeat' split) <;> exact hs

theorem safe_execRouteRehash (mdie dev port : Nat) {s : State} (hs : s.safe = true) : SafeOutcome (execRouteRehash mdie dev port s) := by
  unfold execRouteRehash
  dsimp only
  (repeat' split) <;> exact hs

theorem safe_execPageMove (frame dev : Nat) {s : State} (hs : s.safe = true) : SafeOutcome (execPageMove frame dev s) := by
  have moved (a g : Nat) (l : List (Nat × Ctx)) (o : Option State) (ho : ∀ t, o = some t → t.safe = true) (t : State)
      (ht : l.foldl (fun o e => o.bind fun s' => s'.remap e.1 a g) o = some t) : t.safe = true := by
    induction l generalizing o with
    | nil => exact ho t ht
    | cons e l ih =>
      refine ih _ (fun u hu => ?_) ht
      obtain ⟨s2, h2, hu⟩ := Option.bind_eq_some_iff.mp hu
      exact State.safe_remap (ho s2 h2) hu
  unfold execPageMove
  dsimp only
  split
  · exact hs
  · split
    · exact State.safe_pageComes hs _
    · split
      · exact hs
      · split
        · exact State.safe_putMem (Mem.wf_putFrame hs ..)
        · split
          · next remapped =>
            refine State.safe_of_mem (moved _ _ _ _ (fun t ht => ?_) _ remapped) (State.pgmigUp_mem ..)
            obtain rfl := Option.some.inj ht
            exact hs
          · exact hs

theorem safe_execXstage {s : State} (hs : s.safe = true) : SafeOutcome (execXstage s) := by
  unfold execXstage
  refine safe_recvFlit 7 0 hs fun s f t hs h => ?_
  dsimp only at h
  split at h
  · next staged => cases h; exact State.safe_of_mem (State.safe_of_mem hs (State.stage_mem staged)) (State.readyCheck_mem ..)
  · cases h; exact State.safe_of_mem hs (by simp)

theorem safe_execPrepareTxn {s : State} (hs : s.safe = true) : SafeOutcome (execPrepareTxn s) := by
  unfold execPrepareTxn
  refine safe_recvFlit 8 1 hs fun s f t hs h => ?_
  obtain rfl := Option.some.inj h
  refine State.safe_of_mem ?_ (State.readyCheck_mem ..)
  split
  · exact State.safe_of_mem hs (State.mapTgt_mem ..)
  · exact hs

theorem safe_execCommitTxn {s : State} (hs : s.safe = true) : SafeOutcome (execCommitTxn s) := by
  unfold execCommitTxn
  refine safe_recvFlit 8 3 hs fun s f t hs h => ?_
  have applied := State.safe_applyTxn hs (xctlCdev f) (xctlXid f)
  dsimp only at h
  obtain rfl := Option.some.inj h
  split
  · exact applied
  · exact State.safe_of_mem applied (State.answerXctl_mem ..)

theorem safe_execAbortTxn {s : State} (hs : s.safe = true) : SafeOutcome (execAbortTxn s) := by
  unfold execAbortTxn
  refine safe_recvFlit 8 4 hs fun s f t hs h => ?_
  split at h
  · cases h; exact State.safe_of_mem hs (State.txnAbort_mem ..)
  · cases h; exact State.safe_of_mem hs (by simp)

theorem safe_execKeepTxn {s : State} (hs : s.safe = true) : SafeOutcome (execKeepTxn s) := by
  unfold execKeepTxn
  refine safe_recvFlit 8 7 hs fun s f t hs h => ?_
  obtain rfl := Option.some.inj h
  exact State.safe_of_mem hs (by simp)

theorem safe_execStagingTimeout (cdev xid : Nat) {s : State} (hs : s.safe = true) : SafeOutcome (execStagingTimeout cdev xid s) := by
  unfold execStagingTimeout
  (repeat' split) <;> exact State.safe_of_mem hs (by simp)

theorem safe_execQueryTimer (cdev xid : Nat) {s : State} (hs : s.safe = true) : SafeOutcome (execQueryTimer cdev xid s) := by
  unfold execQueryTimer
  (repeat' split) <;> exact State.safe_of_mem hs (by simp)

theorem safe_execReadyTxn {s : State} (hs : s.safe = true) : SafeOutcome (execReadyTxn s) := by
  unfold execReadyTxn
  refine safe_recvFlit 8 2 hs fun s f t hs h => ?_
  obtain rfl := Option.some.inj h
  exact State.safe_commitPoint (s := s.mapTxn _ _) hs _

theorem safe_execDoneTxn {s : State} (hs : s.safe = true) : SafeOutcome (execDoneTxn s) := by
  unfold execDoneTxn
  refine safe_recvFlit 8 5 hs fun s f t hs h => ?_
  obtain rfl := Option.some.inj h
  exact State.safe_of_mem hs (by simp)

theorem safe_execQueryTxn {s : State} (hs : s.safe = true) : SafeOutcome (execQueryTxn s) := by
  unfold execQueryTxn
  refine safe_recvFlit 8 6 hs fun s f t hs h => ?_
  dsimp only at h
  split at h
  · cases h; exact State.safe_of_mem hs (by simp)
  · split at h
    · cases h; exact hs
    · split at h
      · cases h; exact State.safe_of_mem hs (by simp)
      · cases h; exact State.safe_of_mem hs (by simp)
      · cases h; exact State.safe_of_mem hs ((State.answerXctl_mem ..).trans (State.txnAbort_mem ..))

theorem safe_execKeepAliveTimer (xid : Nat) {s : State} (hs : s.safe = true) : SafeOutcome (execKeepAliveTimer xid s) := by
  unfold execKeepAliveTimer
  split
  · exact hs
  · split
    · exact State.safe_foldl (fun s g hs => State.safe_of_mem hs (State.sendXctl_mem ..)) _ hs
    · exact hs

theorem safe_execCommitResend (xid : Nat) {s : State} (hs : s.safe = true) : SafeOutcome (execCommitResend xid s) := by
  unfold execCommitResend
  split
  · exact hs
  · split
    · have sent := State.safe_of_mem (State.safe_sendCommits hs xid) (State.txnFinish_mem _ xid)
      dsimp only [SafeOutcome]
      split
      · exact State.safe_of_mem sent (State.pending_mem ..)
      · exact sent
    · exact hs

theorem safe_execRecordResume {s : State} (hs : s.safe = true) : SafeOutcome (execRecordResume s) := by
  unfold execRecordResume
  refine iteInduction (motive := SafeOutcome) (fun _ => hs) fun _ => State.safe_foldl (fun s1 t h1 => ?_) _ hs
  dsimp only
  split
  · exact State.safe_of_mem h1 ((State.pending_mem ..).trans (State.mapTxn_mem ..))
  · split
    · exact State.safe_of_mem (State.safe_sendCommits (State.safe_of_mem h1 (State.mapTxn_mem ..)) _) (State.txnFinish_mem ..)
    · exact State.safe_foldl (fun s g hs => State.safe_of_mem hs (State.sendXctl_mem ..)) _ (State.safe_of_mem h1 (State.mapTxn_mem ..))

theorem safe_execAbortedRecordTimeout (xid : Nat) {s : State} (hs : s.safe = true) : SafeOutcome (execAbortedRecordTimeout xid s) :=
  hs

theorem safe_execLaunchDescriptorTake (n die : Nat) {s : State} (hs : s.safe = true) : SafeOutcome (execLaunchDescriptorTake n die s) := by
  have put (q : LQueue) : (s.putQueue n q).safe = true := State.safe_of_mem hs (State.putQueue_mem ..)
  unfold execLaunchDescriptorTake
  dsimp only
  generalize s.descriptor (s.host.queue n) (s.host.queue n).head = d
  refine iteInduction (motive := SafeOutcome) (fun _ => hs) fun _ => ?_
  refine iteInduction (motive := SafeOutcome) (fun _ => put _) fun _ => ?_
  refine iteInduction (motive := SafeOutcome) (fun _ => hs) fun _ => ?_
  refine iteInduction (motive := SafeOutcome) (fun _ => put _) fun _ => ?_
  refine iteInduction (motive := SafeOutcome) (fun _ => State.safe_of_mem (put _) (State.advance_mem ..)) fun _ => ?_
  refine iteInduction (motive := SafeOutcome) (fun _ => State.safe_admitLaunch (put _) _) fun _ => ?_
  split
  · exact hs
  · exact State.safe_of_mem (State.safe_admitLaunch (put _) _) (State.drawn_mem _)

theorem safe_execHeldLaunchRelease (lid : Nat) {s : State} (hs : s.safe = true) : SafeOutcome (execHeldLaunchRelease lid s) := by
  unfold execHeldLaunchRelease
  split
  · exact hs
  · split
    · exact hs
    · split
      · exact State.safe_endLaunch (State.safe_of_mem hs (State.badSrc_mem ..)) ..
      · split <;> exact hs

theorem safe_execSystemCommandTake {s : State} (hs : s.safe = true) : SafeOutcome (execSystemCommandTake s) := by
  have put (h : Hosting) : ({ s with host := h } : State).safe = true := hs
  unfold execSystemCommandTake
  dsimp only
  generalize s.descriptor s.host.scq s.host.scq.head = c
  refine iteInduction (motive := SafeOutcome) (fun _ => hs) fun _ => ?_
  refine iteInduction (motive := SafeOutcome) (fun _ => put _) fun _ => ?_
  refine iteInduction (motive := SafeOutcome) (fun _ => hs) fun _ => ?_
  generalize Decode.command c = read
  cases read with
  | ok i => exact iteInduction (motive := fun t : State => t.safe = true) (fun _ => put _) fun _ => State.safe_finishCmd (put _) ..
  | error e => exact State.safe_finishCmd (put _) ..

theorem safe_execCtxnew {s : State} (hs : s.safe = true) : SafeOutcome (execCtxnew s) := by
  unfold execCtxnew
  refine safe_cmdStep 0x10 hs fun s c a hs => ?_
  have zeroed (b : Nat) : ((List.range 8).foldl (fun m i => m.putWord (b + 8 * i) 0) s.mem).wf = true :=
    Mem.wf_foldl (fun m i hm => Mem.wf_putWord hm ..) _ hs
  have put {m : Mem} (hm : m.wf = true) (h : Hosting) : ({ s with mem := m, host := h } : State).safe = true := hm
  dsimp only
  split
  · exact State.safe_finishCmd hs ..
  · split
    · exact State.safe_finishCmd hs ..
    · split
      · exact State.safe_finishCmd hs ..
      · split
        · exact State.safe_finishCmd hs ..
        · exact State.safe_finishCmd (State.safe_of_mem (put (zeroed _) _) (State.putCtx_mem ..)) ..

theorem safe_execCtxfree {s : State} (hs : s.safe = true) : SafeOutcome (execCtxfree s) := by
  unfold execCtxfree
  refine safe_ctxStep 0x11 hs fun s c a hs => ?_
  dsimp only
  split
  · exact State.safe_finishCmd hs ..
  · refine State.safe_finishCmd ?_ ..
    exact State.safe_of_mem hs (State.invalidate_mem s (cmdCtx c))

theorem safe_execCancelCommand {s : State} (hs : s.safe = true) : SafeOutcome (execCancelCommand s) := by
  unfold execCancelCommand
  refine safe_ctxStep 0x12 hs fun s c a hs => ?_
  dsimp only
  generalize (if field c.w2 1 0 = 3 then 0 else c.w3.toNat) = num
  split
  · split
    · exact State.safe_finishCmd (State.safe_of_mem hs (State.cancelLaunch_mem ..)) ..
    · split
      · exact State.safe_finishCmd (State.safe_of_mem hs (State.cancelPosted_mem ..)) ..
      · exact State.safe_finishCmd hs ..
  · split
    · exact State.safe_finishCmd (State.safe_cancelLevel hs ..) ..
    · exact State.safe_finishCmd hs ..

theorem safe_execSnapCommand {s : State} (hs : s.safe = true) : SafeOutcome (execSnapCommand s) := by
  unfold execSnapCommand
  refine safe_ctxStep 0x13 hs fun s c a hs => ?_
  split
  · exact State.safe_finishCmd hs ..
  · exact State.safe_finishCmd (State.safe_snap hs ..) ..

theorem safe_execSnapdropCommand {s : State} (hs : s.safe = true) : SafeOutcome (execSnapdropCommand s) := by
  unfold execSnapdropCommand
  refine safe_ctxStep 0x14 hs fun s c a hs => ?_
  split
  · exact State.safe_finishCmd (State.safe_snapDrop hs ..) ..
  · exact State.safe_finishCmd hs ..

theorem safe_execReplaceCommand {s : State} (hs : s.safe = true) : SafeOutcome (execReplaceCommand s) := by
  unfold execReplaceCommand
  refine safe_ctxStep 0x15 hs fun s c a hs => ?_
  dsimp only
  split
  · exact State.safe_replaceEnd hs
  · split
    · exact State.safe_finishCmd hs ..
    · split
      · exact State.safe_of_mem hs (State.askHeaders_mem ..)
      · split
        · exact State.safe_finishCmd hs ..
        · split
          · exact State.safe_finishCmd hs ..
          · next moves _ =>
            refine State.safe_replaceEnd ?_
            exact State.safe_of_mem hs (State.replaceCode_mem s (cmdCtx c) moves)

theorem safe_execRegionReplaceSwitch (key : Nat) {s : State} (hs : s.safe = true) : SafeOutcome (execRegionReplaceSwitch key s) := by
  unfold execRegionReplaceSwitch
  split
  · exact hs
  · split
    · exact hs
    · exact State.safe_replaceEnd (State.safe_of_mem hs (State.putRegion_mem ..))

theorem safe_execCfginv {s : State} (hs : s.safe = true) : SafeOutcome (execCfginv s) := by
  unfold execCfginv
  refine safe_ctxStep 0x16 hs fun s c a hs => ?_
  refine State.safe_finishCmd ?_ ..
  exact hs

theorem safe_execTopo {s : State} (hs : s.safe = true) : SafeOutcome (execTopo s) := by
  unfold execTopo
  refine safe_cmdStep 0x17 hs fun s c a hs => ?_
  dsimp only
  split
  · refine State.safe_finishCmd ?_ ..
    exact hs
  · refine iteInduction (motive := fun t : State => t.safe = true) (fun _ => State.safe_finishCmd hs ..) fun _ => ?_
    refine iteInduction (motive := fun t : State => t.safe = true) (fun _ => State.safe_finishCmd ?_ ..) fun _ => State.safe_finishCmd hs ..
    exact hs

theorem safe_execCinit {s : State} (hs : s.safe = true) : SafeOutcome (execCinit s) := by
  unfold execCinit
  refine safe_cmdStep 0x18 hs fun s c a hs => ?_
  dsimp only
  refine iteInduction (motive := fun t : State => t.safe = true) (fun _ => State.safe_finishCmd hs ..) fun _ => State.safe_finishCmd ?_ ..
  exact hs

theorem safe_execDispatchChoice (die : Nat) {s : State} (hs : s.safe = true) : SafeOutcome (execDispatchChoice die s) := by
  unfold execDispatchChoice
  split
  · exact hs
  · split
    · exact State.safe_of_mem hs (State.serveRound_mem ..)
    · exact State.safe_foldl (fun s k hs => State.safe_of_mem hs (State.post_mem ..)) _ hs
    · exact hs

theorem safe_execL2ModeSwitch (part : Nat) {s : State} (hs : s.safe = true) : SafeOutcome (execL2ModeSwitch part s) := by
  unfold execL2ModeSwitch
  dsimp only
  (repeat' split) <;> exact hs

theorem safe_execPreempt (key : Nat) {s : State} (hs : s.safe = true) : SafeOutcome (execPreempt key s) := by
  unfold execPreempt
  split
  · exact hs
  · split
    · exact hs
    · split
      · split
        · exact State.safe_of_mem hs (State.putRegion_mem ..)
        · exact State.safe_haltRegion hs ..
      · split
        · exact State.safe_of_mem hs (State.putRegion_mem ..)
        · exact State.safe_haltRegion hs ..
      · exact hs

theorem safe_execRegionResume (pid : Nat) {s : State} (hs : s.safe = true) : SafeOutcome (execRegionResume pid s) := by
  unfold execRegionResume
  split
  · split
    · exact hs
    · split
      · exact State.safe_of_mem hs (by split <;> simp)
      · split
        · exact hs
        · dsimp only
          split
          · exact State.safe_unpark (s := s.drawn) hs ..
          · exact State.safe_getD (fun t h => State.safe_of_mem (State.safe_of_mem hs (State.drawn_mem s)) (State.spill_mem h)) hs
  · exact hs

theorem safe_execBivouacExchange (part : Nat) {s : State} (hs : s.safe = true) : SafeOutcome (execBivouacExchange part s) := by
  refine State.safe_foldl (fun s e hs => ?_) _ hs
  split
  · exact State.safe_exchange hs ..
  · exact hs

theorem safe_execArbiterWindow (tile pe : Nat) {s : State} (hs : s.safe = true) : SafeOutcome (execArbiterWindow tile pe s) :=
  hs

theorem safe_execConfigFetchDone (idx : Nat) {s : State} (hs : s.safe = true) : SafeOutcome (execConfigFetchDone idx s) := by
  unfold execConfigFetchDone
  split
  · exact hs
  · next f _ =>
    split
    · exact hs
    · dsimp only
      split
      · have header := State.safe_loadNow hs (s.target f.ctx f.pa) 12
        generalize s.loadNow (s.target f.ctx f.pa) 12 = head at header ⊢
        have body := State.safe_loadNow header (s.target f.ctx f.pa) (imageLen (recAt head.1 0))
        generalize head.2.2.loadNow (s.target f.ctx f.pa) (imageLen (recAt head.1 0)) = image at body ⊢
        exact State.safe_of_mem body (State.imageCame_mem ..)
      · split
        · exact State.safe_of_mem hs (State.askSectors_mem ..)
        · split
          · exact State.safe_of_mem hs (State.imageCame_mem ..)
          · exact State.safe_of_mem hs (State.askSectors_mem ..)

theorem safe_execBlockFetch (key : Nat) {s : State} (hs : s.safe = true) : SafeOutcome (execBlockFetch key s) := by
  unfold execBlockFetch
  split
  · exact hs
  · next r _ =>
    split
    · next a slot _ _ =>
      split
      · exact hs
      · have wanted := State.safe_wantImage hs key r a
        dsimp only
        generalize s.wantImage key r a = out at wanted ⊢
        split
        · exact wanted
        · dsimp only [SafeOutcome]
          split
          · exact State.safe_of_mem wanted (by simp)
          · exact hs
        · dsimp only [SafeOutcome]
          split
          · exact State.safe_of_mem wanted (by simp)
          · exact hs
        · (repeat' split) <;> exact State.safe_of_mem wanted (by simp)
    · exact hs

theorem safe_execTrapEntry (key : Nat) {s : State} (hs : s.safe = true) : SafeOutcome (execTrapEntry key s) := by
  unfold execTrapEntry
  dsimp only
  (repeat' split) <;> exact State.safe_of_mem hs (by simp)

theorem safe_execBlockCommit (key : Nat) {s : State} (hs : s.safe = true) : SafeOutcome (execBlockCommit key s) := by
  unfold execBlockCommit
  split
  · exact hs
  · split
    · exact hs
    · split
      · split
        · exact hs
        · dsimp only [SafeOutcome]
          split
          · exact hs
          · exact State.safe_beginBlock hs ..
      · split
        · exact hs
        · dsimp only [SafeOutcome]
          split
          · exact hs
          · exact State.safe_commitBlock hs _
      · exact hs

theorem safe_execHldNode (n : NodeRec) {s : State} (hs : s.safe = true) : SafeOutcome (execHldNode n s) :=
  safe_fireNode (fun x => safe_heapFire n hs x ..) ..

theorem safe_execHstNode (n : NodeRec) {s : State} (hs : s.safe = true) : SafeOutcome (execHstNode n s) :=
  safe_fireNode (fun x => safe_heapFire n hs x ..) ..

theorem safe_execHpinNode (n : NodeRec) {s : State} (hs : s.safe = true) : SafeOutcome (execHpinNode n s) :=
  safe_fireNode (fun x => safe_heapFire n hs x ..) ..

theorem safe_execHunpinNode (n : NodeRec) {s : State} (hs : s.safe = true) : SafeOutcome (execHunpinNode n s) :=
  safe_fireNode (fun x => safe_heapFire n hs x ..) ..

theorem safe_execHcmpNode (n : NodeRec) {s : State} (hs : s.safe = true) : SafeOutcome (execHcmpNode n s) :=
  safe_fireNode (fun x => safe_heapFire n hs x ..) ..

theorem safe_execHnewNode (n : NodeRec) {s : State} (hs : s.safe = true) : SafeOutcome (execHnewNode n s) := by
  unfold execHnewNode
  refine safe_fireNode (fun x => ?_) ..
  dsimp only
  split
  · exact hs
  · next i _ _ =>
    have made := State.safe_alloc hs (.tile x.tile) x.rg.ctx (laneAt (x.opA n .ref) (2 * i)).val.toNat (field n.lit 15 0) (field n.lit 19 16)
    generalize s.alloc (.tile x.tile) x.rg.ctx (laneAt (x.opA n .ref) (2 * i)).val.toNat (field n.lit 15 0) (field n.lit 19 16) = out at made ⊢
    cases out with
    | ok s1 ref => exact State.safe_of_mem made (State.putFiring_mem ..)
    | fault s1 code va => exact State.safe_of_mem made ((State.putFiring_mem ..).trans (State.minorAt_mem ..))

theorem safe_execCaddNode (n : NodeRec) {s : State} (hs : s.safe = true) : SafeOutcome (execCaddNode n s) := by
  unfold execCaddNode
  refine safe_fireNode (fun x => ?_) ..
  (repeat' split) <;> exact State.safe_of_mem hs (by simp)

theorem safe_execCwaitNode (n : NodeRec) {s : State} (hs : s.safe = true) : SafeOutcome (execCwaitNode n s) := by
  unfold execCwaitNode
  refine safe_fireNode (fun x => ?_) ..
  (repeat' split) <;> exact hs

theorem safe_execBin (n : NodeRec) {s : State} (hs : s.safe = true) : SafeOutcome (execBin n s) := by
  unfold execBin
  refine safe_fireNode (fun x => ?_) ..
  dsimp only
  (repeat' split) <;> exact hs

theorem safe_execBout (n : NodeRec) {s : State} (hs : s.safe = true) : SafeOutcome (execBout n s) := by
  unfold execBout
  refine safe_fireNode (fun x => ?_) ..
  (repeat' split) <;> exact hs

theorem safe_execTap (n : NodeRec) {s : State} (hs : s.safe = true) : SafeOutcome (execTap n s) := by
  unfold execTap
  refine safe_fireNode (fun x => ?_) ..
  exact iteInduction (motive := fun t : State => t.safe = true) (fun _ => State.safe_of_mem hs (State.cairnAddBy_mem ..)) fun _ => hs

theorem safe_execVote (n : NodeRec) {s : State} (hs : s.safe = true) : SafeOutcome (execVote n s) := by
  unfold execVote
  refine safe_fireNode (fun x => ?_) ..
  dsimp only
  (repeat' split) <;> exact State.safe_of_mem hs (by simp)

theorem safe_execTrapNode (n : NodeRec) {s : State} (hs : s.safe = true) : SafeOutcome (execTrapNode n s) := by
  unfold execTrapNode
  refine safe_fireNode (fun x => ?_) ..
  (repeat' split) <;> exact hs

theorem safe_execBrk (n : NodeRec) {s : State} (hs : s.safe = true) : SafeOutcome (execBrk n s) := by
  unfold execBrk
  refine safe_fireNode (fun x => ?_) ..
  (repeat' split) <;> exact hs

theorem safe_execNop (n : NodeRec) {s : State} (hs : s.safe = true) : SafeOutcome (execNop n s) := by
  unfold execNop
  refine safe_fireNode (fun x => ?_) ..
  (repeat' split) <;> exact hs

theorem safe_execTrace (n : NodeRec) {s : State} (hs : s.safe = true) : SafeOutcome (execTrace n s) := by
  unfold execTrace
  refine safe_fireNode (fun x => ?_) ..
  exact State.safe_of_mem (State.safe_traceOne hs x n (x.fwd n)) (State.putInst_mem ..)

theorem safe_execEfenceNode (n : NodeRec) {s : State} (hs : s.safe = true) : SafeOutcome (execEfenceNode n s) := by
  unfold execEfenceNode
  refine safe_fireNode (fun x => ?_) ..
  dsimp only
  (repeat' split) <;> exact hs

theorem safe_execFabricBlockMap (key bslot : Nat) {s : State} (hs : s.safe = true) : SafeOutcome (execFabricBlockMap key bslot s) := by
  have mapped (rg : Region) (bslot : Nat) (m : Image) (ps : List Placed) : (ps.foldl (fun s' q => s'.mapNode rg bslot m q) s).safe = true :=
    State.safe_foldl (fun s q hs => State.safe_of_mem hs (State.mapNode_mem ..)) ps hs
  unfold execFabricBlockMap
  split
  · exact hs
  · split
    · exact hs
    · refine iteInduction (motive := SafeOutcome) (fun _ => hs) fun _ => ?_
      split
      · exact hs
      · exact State.safe_of_mem hs (State.refuseUnit_mem ..)
      · exact State.safe_of_mem (mapped ..) ((State.landHeld_mem _).trans ((State.touchImage_mem ..).trans (State.putRegion_mem ..)))

theorem safe_execUnitComplete (key bslot : Nat) {s : State} (hs : s.safe = true) : SafeOutcome (execUnitComplete key bslot s) := by
  unfold execUnitComplete
  (repeat' split) <;> exact State.safe_of_mem hs (by simp)

theorem safe_execLaunchComplete (lid : Nat) {s : State} (hs : s.safe = true) : SafeOutcome (execLaunchComplete lid s) := by
  unfold execLaunchComplete
  split
  · exact hs
  · split
    · split
      · exact hs
      · split
        · exact hs
        · exact State.safe_leave hs ..
    · exact hs

theorem safe_execCancelAdvance (lid : Nat) {s : State} (hs : s.safe = true) : SafeOutcome (execCancelAdvance lid s) := by
  unfold execCancelAdvance
  split
  · exact hs
  · split
    · exact hs
    · split
      · exact State.safe_endLaunch hs ..
      · exact State.safe_endLaunch hs ..
      · split
        · exact hs
        · split
          · exact hs
          · exact State.safe_leave (State.safe_of_mem hs (State.flagUnits_mem ..)) ..
      · split
        · exact hs
        · split
          · exact hs
          · exact State.safe_leaveParked hs ..
      · exact hs

theorem safe_execFaultTokenEntry (key : Nat) {s : State} (hs : s.safe = true) : SafeOutcome (execFaultTokenEntry key s) := by
  unfold execFaultTokenEntry
  (repeat' split) <;> exact hs

theorem safe_execMinorFaultServed (idx : Nat) {s : State} (hs : s.safe = true) : SafeOutcome (execMinorFaultServed idx s) := by
  unfold execMinorFaultServed
  split
  · exact hs
  · refine iteInduction (motive := SafeOutcome) (fun _ => hs) fun _ => ?_
    split
    · next served =>
      exact State.safe_of_mem (State.safe_serveMinor (State.safe_of_mem hs (State.dropMinor_mem ..)) served)
        ((State.release_mem ..).trans (State.changeRecord_mem ..))
    · exact hs

theorem safe_execBudgetExceeded (idx : Nat) {s : State} (hs : s.safe = true) : SafeOutcome (execBudgetExceeded idx s) := by
  unfold execBudgetExceeded
  dsimp only
  (repeat' split) <;> exact State.safe_of_mem hs (by simp)

theorem safe_execMajorFaultSave (key : Nat) {s : State} (hs : s.safe = true) : SafeOutcome (execMajorFaultSave key s) := by
  unfold execMajorFaultSave
  split
  · exact hs
  · dsimp only
    refine iteInduction (motive := SafeOutcome) (fun _ => hs) fun _ => ?_
    generalize halt : State.haltRegion _ key _ = s1
    have halted : s1.safe = true := by
      rw [← halt]
      refine State.safe_haltRegion ?_ ..
      exact hs
    split
    · exact halted
    · refine iteInduction (motive := SafeOutcome) (fun _ => halted) fun _ => ?_
      split
      · next image => exact State.safe_park (State.safe_of_mem halted (State.takeImage_mem image)) ..
      · exact State.safe_of_mem halted (State.reportOnce_mem ..)

theorem safe_execMajorFaultServed (pid : Nat) (resident : Bool) {s : State} (hs : s.safe = true) : SafeOutcome (execMajorFaultServed pid resident s) := by
  have put (h : Hosting) : ({ s with host := h } : State).safe = true := hs
  unfold execMajorFaultServed
  dsimp only
  split
  · exact hs
  · refine iteInduction (motive := SafeOutcome) (fun _ => hs) fun _ => ?_
    split
    · next served =>
      split at served
      · exact State.safe_of_mem (State.safe_serveAll (put _) served) rfl
      · cases served
    · refine State.safe_of_mem hs (State.foldl_mem ?_ _ _)
      exact fun s m => State.reportOnce_mem ..

theorem safe_execPeCheckFailure (tile pe : Nat) {s : State} (hs : s.safe = true) : SafeOutcome (execPeCheckFailure tile pe s) := by
  unfold execPeCheckFailure
  dsimp only [SafeOutcome]
  (repeat' split) <;> exact State.safe_of_mem hs (by simp)

theorem safe_execCcEccError (key : Nat) (committed : Bool) {s : State} (hs : s.safe = true) : SafeOutcome (execCcEccError key committed s) := by
  unfold execCcEccError
  split
  · exact State.safe_of_mem hs (State.coreFails_mem ..)
  · split
    · exact hs
    · split
      · exact hs
      · dsimp only [SafeOutcome]
        (repeat' split) <;> exact State.safe_of_mem hs (by simp)

theorem safe_execUncorrectableError (place : EccPlace) {s : State} (hs : s.safe = true) : SafeOutcome (execUncorrectableError place s) := by
  unfold execUncorrectableError
  cases place with
  | sector n =>
    dsimp only [SafeOutcome]
    split <;> exact hs
  | orphanLine sector =>
    dsimp only [SafeOutcome]
    split
    · exact State.safe_orphan hs sector
    · exact hs
  | _ =>
    dsimp only [SafeOutcome]
    (repeat' split) <;> exact State.safe_of_mem hs (by simp)

theorem safe_execTimestampRebase (mdie : Nat) {s : State} (hs : s.safe = true) : SafeOutcome (execTimestampRebase mdie s) := by
  unfold execTimestampRebase
  dsimp only
  split <;> exact hs

theorem safe_execRelocRun (mdie : Nat) {s : State} (hs : s.safe = true) : SafeOutcome (execRelocRun mdie s) := by
  unfold execRelocRun
  dsimp only
  split
  · exact hs
  · split
    · exact hs
    · exact hs
    · exact State.safe_of_mem (State.safe_markPages hs ..) (State.putEng_mem ..)
    · exact State.safe_evacuate hs ..
    · exact State.safe_of_mem (State.safe_markPages hs ..) (State.putEng_mem ..)
    · exact State.safe_of_mem hs (State.relocReport_mem ..)

theorem safe_execPowerSample (watts : Nat) {s : State} (hs : s.safe = true) : SafeOutcome (execPowerSample watts s) :=
  hs

theorem safe_execThermalSample (temps : List Nat) (inlet flow : Nat) {s : State} (hs : s.safe = true) :
    SafeOutcome (execThermalSample temps inlet flow s) := by
  unfold execThermalSample
  dsimp only [SafeOutcome]
  (repeat' split) <;> exact hs

theorem safe_execThermalTrip {s : State} (hs : s.safe = true) : SafeOutcome (execThermalTrip s) := by
  unfold execThermalTrip
  (repeat' split) <;> exact State.safe_of_mem hs (by simp)

theorem safe_execFreezeTrigger (periods : Nat) {s : State} (hs : s.safe = true) : SafeOutcome (execFreezeTrigger periods s) := by
  unfold execFreezeTrigger
  dsimp only [SafeOutcome]
  (repeat' split) <;> exact State.safe_of_mem hs (by simp)

theorem safe_execClockStop (lag : Nat) {s : State} (hs : s.safe = true) : SafeOutcome (execClockStop lag s) := by
  unfold execClockStop
  (repeat' split) <;> exact hs

theorem safe_execColdReset {s : State} (hs : s.safe = true) : SafeOutcome (execColdReset s) := by
  unfold execColdReset
  split
  · exact State.safe_resetStep hs _
  · exact hs

theorem safe_execWarmReset {s : State} (hs : s.safe = true) : SafeOutcome (execWarmReset s) := by
  unfold execWarmReset
  split
  · exact State.safe_resetStep hs _
  · exact hs
  · exact State.safe_of_mem hs (State.startWarm_mem _)

theorem safe_execResetRestart {s : State} (hs : s.safe = true) : SafeOutcome (execResetRestart s) := by
  unfold execResetRestart
  (repeat' split) <;> exact hs

theorem safe_execBypass {s : State} (hs : s.safe = true) : SafeOutcome (execBypass s) :=
  hs

theorem safe_execSamplePreload (pins : Word) {s : State} (hs : s.safe = true) : SafeOutcome (execSamplePreload pins s) :=
  hs

theorem safe_execExtest (pins : Word) {s : State} (hs : s.safe = true) : SafeOutcome (execExtest pins s) :=
  hs

theorem safe_execIdcode {s : State} (hs : s.safe = true) : SafeOutcome (execIdcode s) :=
  hs

theorem safe_execStatedump (addr : Word) (write : Bool) {s : State} (hs : s.safe = true) : SafeOutcome (execStatedump addr write s) :=
  hs

theorem safe_execDumpdataRead {s : State} (hs : s.safe = true) : SafeOutcome (execDumpdataRead s) :=
  hs

theorem safe_execFreezeCmd {s : State} (hs : s.safe = true) : SafeOutcome (execFreezeCmd s) :=
  safe_mgmtStep hs fun s v hs => State.safe_of_mem hs (by simp)

theorem safe_execWarmresetCmd {s : State} (hs : s.safe = true) : SafeOutcome (execWarmresetCmd s) :=
  safe_mgmtStep hs fun s v hs => State.safe_of_mem hs (by simp)

theorem safe_execContCmd {s : State} (hs : s.safe = true) : SafeOutcome (execContCmd s) :=
  safe_mgmtStep hs fun s v hs => State.safe_of_mem hs (by simp)

theorem safe_execMalformedCommand {s : State} (hs : s.safe = true) : SafeOutcome (execMalformedCommand s) :=
  safe_mgmtStep hs fun s v hs => State.safe_of_mem hs (by simp)

theorem safe_execRegisterWrite {s : State} (hs : s.safe = true) : SafeOutcome (execRegisterWrite s) :=
  safe_regStep hs fun s a hs => State.safe_of_mem hs (by simp)

theorem safe_execDevnumWrite {s : State} (hs : s.safe = true) : SafeOutcome (execDevnumWrite s) :=
  safe_regStep hs fun s a hs => State.safe_of_mem hs (by simp)

theorem safe_execFeatenWrite {s : State} (hs : s.safe = true) : SafeOutcome (execFeatenWrite s) :=
  safe_regStep hs fun s a hs => State.safe_of_mem hs (by simp)

theorem safe_execLqctlWrite {s : State} (hs : s.safe = true) : SafeOutcome (execLqctlWrite s) :=
  safe_regStep hs fun s a hs => State.safe_of_mem hs (by simp)

theorem safe_execScqctlWrite {s : State} (hs : s.safe = true) : SafeOutcome (execScqctlWrite s) :=
  safe_regStep hs fun s a hs => State.safe_of_mem hs (by simp)

theorem safe_execReplicate (key bslot : Nat) {s : State} (hs : s.safe = true) : SafeOutcome (execReplicate key bslot s) := by
  have grown (h : Hosting) : ({ s with host := h } : State).safe = true := hs
  unfold execReplicate
  split
  · exact hs
  · split
    · exact hs
    · dsimp only
      refine iteInduction (motive := SafeOutcome) (fun _ => hs) fun _ => ?_
      split
      · exact hs
      · refine State.safe_foldl (fun s q hs => State.safe_of_mem hs (State.mapNode_mem ..)) _ ?_
        refine State.safe_of_mem ?_ ((State.putRegion_mem ..).trans (State.emptyTiles_mem ..))
        exact iteInduction (motive := fun t : State => t.safe = true) (fun _ => hs) fun _ => grown _

theorem safe_execReplicaWithdraw (key bslot : Nat) {s : State} (hs : s.safe = true) : SafeOutcome (execReplicaWithdraw key bslot s) := by
  unfold execReplicaWithdraw
  (repeat' split) <;> exact State.safe_of_mem hs (by simp)

theorem safe_execGetNode (n : NodeRec) {s : State} (hs : s.safe = true) : SafeOutcome (execGetNode n s) :=
  safe_fireNode (safe_getTurn n hs) ..

theorem safe_execGetr (n : NodeRec) {s : State} (hs : s.safe = true) : SafeOutcome (execGetr n s) :=
  safe_fireNode (safe_getrTurn n hs) ..

theorem safe_execRls (n : NodeRec) {s : State} (hs : s.safe = true) : SafeOutcome (execRls n s) :=
  safe_fireNode (safe_rlsTurn n hs) ..

theorem safe_execPutNode (n : NodeRec) {s : State} (hs : s.safe = true) : SafeOutcome (execPutNode n s) :=
  safe_fireNode (safe_putTurn n hs) ..

theorem safe_execFfma (n : NodeRec) {s : State} (hs : s.safe = true) : SafeOutcome (execFfma n s) := by
  unfold execFfma
  dsimp only
  exact safe_fireScaled hs ..

theorem safe_execCompact (n : NodeRec) {s : State} (hs : s.safe = true) : SafeOutcome (execCompact n s) := by
  unfold execCompact
  refine safe_fireNode (fun x => ?_) ..
  (repeat' split) <;> exact hs

theorem safe_execExpand (n : NodeRec) {s : State} (hs : s.safe = true) : SafeOutcome (execExpand n s) := by
  unfold execExpand
  refine safe_fireNode (fun x => ?_) ..
  (repeat' split) <;> exact hs

theorem safe_execFan (n : NodeRec) {s : State} (hs : s.safe = true) : SafeOutcome (execFan n s) := by
  unfold execFan
  refine safe_fireNode (fun x => ?_) ..
  (repeat' split) <;> exact hs

theorem safe_execMerge (n : NodeRec) {s : State} (hs : s.safe = true) : SafeOutcome (execMerge n s) := by
  unfold execMerge
  refine safe_fireNode (fun x => ?_) ..
  (repeat' split) <;> exact hs

theorem safe_execDelay (n : NodeRec) {s : State} (hs : s.safe = true) : SafeOutcome (execDelay n s) := by
  unfold execDelay
  refine safe_fireNode (fun x => ?_) ..
  (repeat' split) <;> exact hs

theorem safe_execTag (n : NodeRec) {s : State} (hs : s.safe = true) : SafeOutcome (execTag n s) := by
  unfold execTag
  refine safe_fireNode (fun x => ?_) ..
  dsimp only
  (repeat' split) <;> exact hs

theorem safe_execLastNode (n : NodeRec) {s : State} (hs : s.safe = true) : SafeOutcome (execLastNode n s) := by
  unfold execLastNode
  refine safe_fireNode (fun x => ?_) ..
  (repeat' split) <;> exact hs

theorem safe_execSink (n : NodeRec) {s : State} (hs : s.safe = true) : SafeOutcome (execSink n s) := by
  unfold execSink
  refine safe_fireNode (fun x => ?_) ..
  (repeat' split) <;> exact hs

theorem safe_execQmax (n : NodeRec) {s : State} (hs : s.safe = true) : SafeOutcome (execQmax n s) := by
  unfold execQmax
  refine safe_fireNode (fun x => ?_) ..
  dsimp only
  (repeat' split) <;> exact hs

theorem safe_execQcvt (n : NodeRec) {s : State} (hs : s.safe = true) : SafeOutcome (execQcvt n s) := by
  unfold execQcvt
  refine safe_fireNode (fun x => ?_) ..
  dsimp only
  (repeat' split) <;> exact hs

theorem safe_execDqt (n : NodeRec) {s : State} (hs : s.safe = true) : SafeOutcome (execDqt n s) := by
  unfold execDqt
  refine safe_fireNode (fun x => ?_) ..
  (repeat' split) <;> exact hs

theorem safe_execMldb (n : NodeRec) {s : State} (hs : s.safe = true) : SafeOutcome (execMldb n s) :=
  safe_fireNode (safe_mldbTurn n hs) ..

theorem safe_execMrow (n : NodeRec) {s : State} (hs : s.safe = true) : SafeOutcome (execMrow n s) := by
  unfold execMrow
  refine safe_fireNode (fun x => safe_withB n hs x fun b => ?_) ..
  exact hs

theorem safe_execMqrow (n : NodeRec) {s : State} (hs : s.safe = true) : SafeOutcome (execMqrow n s) := by
  unfold execMqrow
  refine safe_fireNode (fun x => safe_withB n hs x fun b => ?_) ..
  dsimp only
  split <;> exact hs

theorem safe_execMrec (n : NodeRec) {s : State} (hs : s.safe = true) : SafeOutcome (execMrec n s) := by
  unfold execMrec
  refine safe_fireNode (fun x => safe_withB n hs x fun b => ?_) ..
  exact hs

theorem safe_execMout (n : NodeRec) {s : State} (hs : s.safe = true) : SafeOutcome (execMout n s) := by
  unfold execMout
  refine safe_fireNode (fun x => safe_withB n hs x fun b => ?_) ..
  exact hs

theorem safe_execScacc (n : NodeRec) {s : State} (hs : s.safe = true) : SafeOutcome (execScacc n s) := by
  unfold execScacc
  refine safe_fireNode (fun x => ?_) ..
  (repeat' split) <;> exact hs

theorem safe_execTokenArrival (tile idx : Nat) {s : State} (hs : s.safe = true) : SafeOutcome (execTokenArrival tile idx s) := by
  unfold execTokenArrival
  dsimp only
  (repeat' split) <;> exact State.safe_of_mem hs (by simp)

theorem safe_execStalledPutProceed (tile idx : Nat) {s : State} (hs : s.safe = true) : SafeOutcome (execStalledPutProceed tile idx s) := by
  unfold execStalledPutProceed
  split
  · next again => exact safe_fireNode (safe_putTurn _ (State.safe_of_mem hs (State.retried_mem again))) ..
  · exact hs

theorem safe_execReadReevaluate (tile idx : Nat) {s : State} (hs : s.safe = true) : SafeOutcome (execReadReevaluate tile idx s) := by
  unfold execReadReevaluate
  split
  · next again => exact safe_fireNode (safe_getTurn _ (State.safe_of_mem hs (State.retried_mem again))) ..
  · next again => exact safe_fireNode (safe_getrTurn _ (State.safe_of_mem hs (State.retried_mem again))) ..
  · next again => exact safe_fireNode (safe_rlsTurn _ (State.safe_of_mem hs (State.retried_mem again))) ..
  · next again => exact safe_fireNode (safe_mldbTurn _ (State.safe_of_mem hs (State.retried_mem again))) ..
  · exact hs

theorem safe_execBarrierRetry (tile idx : Nat) {s : State} (hs : s.safe = true) : SafeOutcome (execBarrierRetry tile idx s) := by
  unfold execBarrierRetry
  split
  · next again => exact State.safe_of_mem hs (State.retried_mem again)
  · exact hs

theorem safe_execCairnWaitComplete (idx : Nat) {s : State} (hs : s.safe = true) : SafeOutcome (execCairnWaitComplete idx s) := by
  unfold execCairnWaitComplete
  split
  · exact hs
  · exact iteInduction (motive := SafeOutcome) (fun _ => hs) fun _ => State.safe_of_mem hs (State.waitOver_mem ..)

theorem safe_execIdleWake (key : Nat) {s : State} (hs : s.safe = true) : SafeOutcome (execIdleWake key s) := by
  unfold execIdleWake
  (repeat' split) <;> exact hs

theorem safe_execSelNode (n : NodeRec) {s : State} (hs : s.safe = true) : SafeOutcome (execSelNode n s) := by
  unfold execSelNode
  refine safe_fireNode (fun x => ?_) ..
  (repeat' split) <;> exact hs

theorem safe_execPpset (n : NodeRec) {s : State} (hs : s.safe = true) : SafeOutcome (execPpset n s) := by
  unfold execPpset
  refine safe_firePoly hs n _ fun x a => ?_
  dsimp only
  split
  · refine safe_polyStream hs x _ fun ts => ?_
    split <;> exact safe_polyDone (State.safe_of_mem hs (State.putInst_mem ..)) ..
  · exact safe_polyDone hs ..

theorem safe_execPpmul (n : NodeRec) {s : State} (hs : s.safe = true) : SafeOutcome (execPpmul n s) := by
  unfold execPpmul
  refine safe_firePoly hs n _ fun x a => ?_
  dsimp only
  split
  · exact safe_polyDone hs ..
  · exact State.safe_of_mem hs ((State.fireFlags_mem ..).trans (State.putAcc_mem ..))

theorem safe_execPpdiv (n : NodeRec) {s : State} (hs : s.safe = true) : SafeOutcome (execPpdiv n s) := by
  unfold execPpdiv
  refine safe_firePoly hs n _ fun x a => ?_
  dsimp only
  split
  · exact safe_polyDone hs ..
  · split
    · exact hs
    · exact safe_polyDone hs ..

theorem safe_execPpcmb (n : NodeRec) {s : State} (hs : s.safe = true) : SafeOutcome (execPpcmb n s) := by
  unfold execPpcmb
  refine safe_firePoly hs n _ fun x a => safe_polyStream hs x _ fun ts => ?_
  dsimp only
  split <;> exact safe_polyDone (State.safe_of_mem hs (State.putInst_mem ..)) ..

theorem safe_execPpnrm (n : NodeRec) {s : State} (hs : s.safe = true) : SafeOutcome (execPpnrm n s) :=
  safe_firePoly hs n _ fun x a => safe_polyDone hs ..

theorem safe_execPpout (n : NodeRec) {s : State} (hs : s.safe = true) : SafeOutcome (execPpout n s) :=
  safe_firePoly hs n _ fun x a => hs

end Sys2Proof.Machine
end

section
/-! SUPPORT. Every step keeps memory in its canonical form. -/

namespace Sys2Proof.Machine

/-- Whatever an instruction answers, a next state has its memory in canonical form where the state before had. -/
theorem exec_safe (i : Instr) {s : State} (hs : s.safe = true) : SafeOutcome (exec i s) := by
  cases i with
  | addS r => exact (safe_ctlLocal hs .. : SafeOutcome (execAddS r s))
  | subS r => exact (safe_ctlLocal hs .. : SafeOutcome (execSubS r s))
  | mulS r => exact (safe_ctlLocal hs .. : SafeOutcome (execMulS r s))
  | mulhS r => exact (safe_ctlLocal hs .. : SafeOutcome (execMulhS r s))
  | divS r => exact (safe_ctlLocal hs .. : SafeOutcome (execDivS r s))
  | remS r => exact (safe_ctlLocal hs .. : SafeOutcome (execRemS r s))
  | andS r => exact (safe_ctlLocal hs .. : SafeOutcome (execAndS r s))
  | orS r => exact (safe_ctlLocal hs .. : SafeOutcome (execOrS r s))
  | xorS r => exact (safe_ctlLocal hs .. : SafeOutcome (execXorS r s))
  | andnS r => exact (safe_ctlLocal hs .. : SafeOutcome (execAndnS r s))
  | shlS r => exact (safe_ctlLocal hs .. : SafeOutcome (execShlS r s))
  | shrS r => exact (safe_ctlLocal hs .. : SafeOutcome (execShrS r s))
  | sarS r => exact (safe_ctlLocal hs .. : SafeOutcome (execSarS r s))
  | minS r => exact (safe_ctlLocal hs .. : SafeOutcome (execMinS r s))
  | maxS r => exact (safe_ctlLocal hs .. : SafeOutcome (execMaxS r s))
  | movi r => exact (safe_ctlLocal hs .. : SafeOutcome (execMovi r s))
  | sel r => exact (safe_ctlLocal hs .. : SafeOutcome (execSel r s))
  | setc r => exact (safe_ctlLocal hs .. : SafeOutcome (execSetc r s))
  | clz r => exact (safe_ctlLocal hs .. : SafeOutcome (execClz r s))
  | popc r => exact (safe_ctlLocal hs .. : SafeOutcome (execPopc r s))
  | csrr r => exact (safe_ctlLocal hs .. : SafeOutcome (execCsrr r s))
  | csrw r => exact (safe_ctlLocal hs .. : SafeOutcome (execCsrw r s))
  | exitB r => exact (safe_ctlLocal hs .. : SafeOutcome (execExitB r s))
  | exitc r => exact (safe_ctlLocal hs .. : SafeOutcome (execExitc r s))
  | callb r => exact (safe_ctlLocal hs .. : SafeOutcome (execCallb r s))
  | retb r => exact (safe_ctlLocal hs .. : SafeOutcome (execRetb r s))
  | feat r => exact (safe_ctlLocal hs .. : SafeOutcome (execFeat r s))
  | hmov r => exact (safe_ctlLocal hs .. : SafeOutcome (execHmov r s))
  | relq r => exact (safe_ctlLocal hs .. : SafeOutcome (execRelq r s))
  | trap r => exact (safe_ctlLocal hs .. : SafeOutcome (execTrap r s))
  | trapRd r => exact (safe_ctlLocal hs .. : SafeOutcome (execTrapRd r s))
  | trapPop r => exact (safe_ctlLocal hs .. : SafeOutcome (execTrapPop r s))
  | rett r => exact (safe_ctlLocal hs .. : SafeOutcome (execRett r s))
  | halt r => exact (safe_ctlLocal hs .. : SafeOutcome (execHalt r s))
  | idle r => exact (safe_ctlLocal hs .. : SafeOutcome (execIdle r s))
  | abs n => exact (safe_fireMap1 hs .. : SafeOutcome (execAbs n s))
  | neg n => exact (safe_fireMap1 hs .. : SafeOutcome (execNeg n s))
  | notNode n => exact (safe_fireMap1 hs .. : SafeOutcome (execNotNode n s))
  | clzNode n => exact (safe_fireMap1 hs .. : SafeOutcome (execClzNode n s))
  | popcNode n => exact (safe_fireMap1 hs .. : SafeOutcome (execPopcNode n s))
  | bfx n => exact (safe_fireMap1 hs .. : SafeOutcome (execBfx n s))
  | addNode n => exact (safe_fireMap2 hs .. : SafeOutcome (execAddNode n s))
  | subNode n => exact (safe_fireMap2 hs .. : SafeOutcome (execSubNode n s))
  | mulNode n => exact (safe_fireMap2 hs .. : SafeOutcome (execMulNode n s))
  | mulhNode n => exact (safe_fireMap2 hs .. : SafeOutcome (execMulhNode n s))
  | minNode n => exact (safe_fireMap2 hs .. : SafeOutcome (execMinNode n s))
  | maxNode n => exact (safe_fireMap2 hs .. : SafeOutcome (execMaxNode n s))
  | adda n => exact (safe_fireMap2 hs .. : SafeOutcome (execAdda n s))
  | andNode n => exact (safe_fireMap2 hs .. : SafeOutcome (execAndNode n s))
  | orNode n => exact (safe_fireMap2 hs .. : SafeOutcome (execOrNode n s))
  | xorNode n => exact (safe_fireMap2 hs .. : SafeOutcome (execXorNode n s))
  | andnNode n => exact (safe_fireMap2 hs .. : SafeOutcome (execAndnNode n s))
  | shlNode n => exact (safe_fireMap2 hs .. : SafeOutcome (execShlNode n s))
  | shrNode n => exact (safe_fireMap2 hs .. : SafeOutcome (execShrNode n s))
  | sarNode n => exact (safe_fireMap2 hs .. : SafeOutcome (execSarNode n s))
  | rot n => exact (safe_fireMap2 hs .. : SafeOutcome (execRot n s))
  | bfi n => exact (safe_fireMap2 hs .. : SafeOutcome (execBfi n s))
  | cmp n => exact (safe_fireMap2 hs .. : SafeOutcome (execCmp n s))
  | mad n => exact (safe_firePure hs .. : SafeOutcome (execMad n s))
  | idx n => exact (safe_firePure hs .. : SafeOutcome (execIdx n s))
  | iota n => exact (safe_firePure hs .. : SafeOutcome (execIota n s))
  | sad n => exact (safe_firePure hs .. : SafeOutcome (execSad n s))
  | perm n => exact (safe_firePure hs .. : SafeOutcome (execPerm n s))
  | bcast n => exact (safe_firePure hs .. : SafeOutcome (execBcast n s))
  | shfl n => exact (safe_firePure hs .. : SafeOutcome (execShfl n s))
  | red n => exact (safe_firePure hs .. : SafeOutcome (execRed n s))
  | scan n => exact (safe_firePure hs .. : SafeOutcome (execScan n s))
  | pack n => exact (safe_firePure hs .. : SafeOutcome (execPack n s))
  | unpack n => exact (safe_firePure hs .. : SafeOutcome (execUnpack n s))
  | vmask n => exact (safe_firePure hs .. : SafeOutcome (execVmask n s))
  | scaleNode n => exact (safe_firePure hs .. : SafeOutcome (execScaleNode n s))
  | rng n => exact (safe_firePure hs .. : SafeOutcome (execRng n s))
  | fclass n => exact (safe_fireFp1 hs .. : SafeOutcome (execFclass n s))
  | fsfu n => exact (safe_fireFp1 hs .. : SafeOutcome (execFsfu n s))
  | frnd n => exact (safe_fireFp1 hs .. : SafeOutcome (execFrnd n s))
  | fadd n => exact (safe_fireFp2 hs .. : SafeOutcome (execFadd n s))
  | fsub n => exact (safe_fireFp2 hs .. : SafeOutcome (execFsub n s))
  | fmul n => exact (safe_fireFp2 hs .. : SafeOutcome (execFmul n s))
  | fmin n => exact (safe_fireFp2 hs .. : SafeOutcome (execFmin n s))
  | fmax n => exact (safe_fireFp2 hs .. : SafeOutcome (execFmax n s))
  | fcmp n => exact (safe_fireFp2 hs .. : SafeOutcome (execFcmp n s))
  | fsgn n => exact (safe_fireFp2 hs .. : SafeOutcome (execFsgn n s))
  | cvt n => exact (safe_fireConv hs .. : SafeOutcome (execCvt n s))
  | ftoi n => exact (safe_fireConv hs .. : SafeOutcome (execFtoi n s))
  | itof n => exact (safe_fireConv hs .. : SafeOutcome (execItof n s))
  | powerSample watts => exact safe_execPowerSample watts hs
  | thermalSample temps inlet flow => exact safe_execThermalSample temps inlet flow hs
  | freezeTrigger periods => exact safe_execFreezeTrigger periods hs
  | clockStop lag => exact safe_execClockStop lag hs
  | samplePreload pins => exact safe_execSamplePreload pins hs
  | extest pins => exact safe_execExtest pins hs
  | statedump addr write => exact safe_execStatedump addr write hs
  | portTrained port lo hi => exact safe_execPortTrained port lo hi hs
  | idleNullTimer port => exact safe_execIdleNullTimer port hs
  | linkFault port cause => exact safe_execLinkFault port cause hs
  | routeRehash mdie dev port => exact safe_execRouteRehash mdie dev port hs
  | classReleaseTimer port sdev ctx => exact safe_execClassReleaseTimer port sdev ctx hs
  | waitRetryTimer tag => exact safe_execWaitRetryTimer tag hs
  | stagingTimeout cdev xid => exact safe_execStagingTimeout cdev xid hs
  | queryTimer cdev xid => exact safe_execQueryTimer cdev xid hs
  | keepAliveTimer xid => exact safe_execKeepAliveTimer xid hs
  | commitResend xid => exact safe_execCommitResend xid hs
  | pageMove frame dev => exact safe_execPageMove frame dev hs
  | launchDescriptorTake q die => exact safe_execLaunchDescriptorTake q die hs
  | heldLaunchRelease lid => exact safe_execHeldLaunchRelease lid hs
  | regionReplaceSwitch key => exact safe_execRegionReplaceSwitch key hs
  | dispatchChoice die => exact safe_execDispatchChoice die hs
  | l2ModeSwitch part => exact safe_execL2ModeSwitch part hs
  | preempt key => exact safe_execPreempt key hs
  | bivouacExchange part => exact safe_execBivouacExchange part hs
  | regionResume pid => exact safe_execRegionResume pid hs
  | arbiterWindow tile pe => exact safe_execArbiterWindow tile pe hs
  | replicate key bslot => exact safe_execReplicate key bslot hs
  | replicaWithdraw key bslot => exact safe_execReplicaWithdraw key bslot hs
  | configFetchDone idx => exact safe_execConfigFetchDone idx hs
  | blockFetch key => exact safe_execBlockFetch key hs
  | blockCommit key => exact safe_execBlockCommit key hs
  | fabricBlockMap key bslot => exact safe_execFabricBlockMap key bslot hs
  | tokenArrival tile idx => exact safe_execTokenArrival tile idx hs
  | unitComplete key bslot => exact safe_execUnitComplete key bslot hs
  | launchComplete lid => exact safe_execLaunchComplete lid hs
  | cancelAdvance lid => exact safe_execCancelAdvance lid hs
  | faultTokenEntry key => exact safe_execFaultTokenEntry key hs
  | trapEntry key => exact safe_execTrapEntry key hs
  | minorFaultServed idx => exact safe_execMinorFaultServed idx hs
  | budgetExceeded idx => exact safe_execBudgetExceeded idx hs
  | majorFaultSave key => exact safe_execMajorFaultSave key hs
  | majorFaultServed pid resident => exact safe_execMajorFaultServed pid resident hs
  | peCheckFailure tile pe => exact safe_execPeCheckFailure tile pe hs
  | ccEccError key committed => exact safe_execCcEccError key committed hs
  | uncorrectableError place => exact safe_execUncorrectableError place hs
  | timestampRebase mdie => exact safe_execTimestampRebase mdie hs
  | cairnWaitComplete idx => exact safe_execCairnWaitComplete idx hs
  | idleWake key => exact safe_execIdleWake key hs
  | stalledPutProceed tile idx => exact safe_execStalledPutProceed tile idx hs
  | readReevaluate tile idx => exact safe_execReadReevaluate tile idx hs
  | barrierRetry tile idx => exact safe_execBarrierRetry tile idx hs
  | relocRun mdie => exact safe_execRelocRun mdie hs
  | streamScoreboardStep tile port => exact safe_execStreamScoreboardStep tile port hs
  | loadStreamToken tile port => exact safe_execLoadStreamToken tile port hs
  | storeStreamToken tile port => exact safe_execStoreStreamToken tile port hs
  | streamComplete tile port => exact safe_execStreamComplete tile port hs
  | engineDrain key idx => exact safe_execEngineDrain key idx hs
  | lds r => exact safe_execLds r hs
  | sts r => exact safe_execSts r hs
  | run r => exact safe_execRun r hs
  | runw r => exact safe_execRunw r hs
  | replaceB r => exact safe_execReplaceB r hs
  | bwait r => exact safe_execBwait r hs
  | fdecl r => exact safe_execFdecl r hs
  | fresize r => exact safe_execFresize r hs
  | fqry r => exact safe_execFqry r hs
  | fdrop r => exact safe_execFdrop r hs
  | fspill r => exact safe_execFspill r hs
  | ffill r => exact safe_execFfill r hs
  | cnew r => exact safe_execCnew r hs
  | cadd r => exact safe_execCadd r hs
  | cwait r => exact safe_execCwait r hs
  | crd r => exact safe_execCrd r hs
  | launch r => exact safe_execLaunch r hs
  | cancel r => exact safe_execCancel r hs
  | arm r => exact safe_execArm r hs
  | sbind r => exact safe_execSbind r hs
  | sgo r => exact safe_execSgo r hs
  | sstop r => exact safe_execSstop r hs
  | sbar r => exact safe_execSbar r hs
  | copy r => exact safe_execCopy r hs
  | gather r => exact safe_execGather r hs
  | scatter r => exact safe_execScatter r hs
  | cred r => exact safe_execCred r hs
  | rput r => exact safe_execRput r hs
  | rget r => exact safe_execRget r hs
  | xbegin r => exact safe_execXbegin r hs
  | xput r => exact safe_execXput r hs
  | xcommit r => exact safe_execXcommit r hs
  | xabort r => exact safe_execXabort r hs
  | hld r => exact safe_execHld r hs
  | hst r => exact safe_execHst r hs
  | hpin r => exact safe_execHpin r hs
  | hunpin r => exact safe_execHunpin r hs
  | hcmp r => exact safe_execHcmp r hs
  | hnew r => exact safe_execHnew r hs
  | reloc r => exact safe_execReloc r hs
  | snap r => exact safe_execSnap r hs
  | snapdrop r => exact safe_execSnapdrop r hs
  | efence r => exact safe_execEfence r hs
  | tlbinv r => exact safe_execTlbinv r hs
  | selNode n => exact safe_execSelNode n hs
  | compact n => exact safe_execCompact n hs
  | expand n => exact safe_execExpand n hs
  | fan n => exact safe_execFan n hs
  | merge n => exact safe_execMerge n hs
  | delay n => exact safe_execDelay n hs
  | tag n => exact safe_execTag n hs
  | lastNode n => exact safe_execLastNode n hs
  | sink n => exact safe_execSink n hs
  | ffma n => exact safe_execFfma n hs
  | qmax n => exact safe_execQmax n hs
  | qcvt n => exact safe_execQcvt n hs
  | dqt n => exact safe_execDqt n hs
  | scacc n => exact safe_execScacc n hs
  | mldb n => exact safe_execMldb n hs
  | mrow n => exact safe_execMrow n hs
  | mqrow n => exact safe_execMqrow n hs
  | mrec n => exact safe_execMrec n hs
  | mout n => exact safe_execMout n hs
  | ppset n => exact safe_execPpset n hs
  | ppmul n => exact safe_execPpmul n hs
  | ppdiv n => exact safe_execPpdiv n hs
  | ppcmb n => exact safe_execPpcmb n hs
  | ppnrm n => exact safe_execPpnrm n hs
  | ppout n => exact safe_execPpout n hs
  | xlat n => exact safe_execXlat n hs
  | ld n => exact safe_execLd n hs
  | st n => exact safe_execSt n hs
  | ldg n => exact safe_execLdg n hs
  | stx n => exact safe_execStx n hs
  | pref n => exact safe_execPref n hs
  | putNode n => exact safe_execPutNode n hs
  | getNode n => exact safe_execGetNode n hs
  | getr n => exact safe_execGetr n hs
  | rls n => exact safe_execRls n hs
  | hldNode n => exact safe_execHldNode n hs
  | hstNode n => exact safe_execHstNode n hs
  | hnewNode n => exact safe_execHnewNode n hs
  | hpinNode n => exact safe_execHpinNode n hs
  | hunpinNode n => exact safe_execHunpinNode n hs
  | hcmpNode n => exact safe_execHcmpNode n hs
  | caddNode n => exact safe_execCaddNode n hs
  | cwaitNode n => exact safe_execCwaitNode n hs
  | bin n => exact safe_execBin n hs
  | bout n => exact safe_execBout n hs
  | tap n => exact safe_execTap n hs
  | vote n => exact safe_execVote n hs
  | trapNode n => exact safe_execTrapNode n hs
  | brk n => exact safe_execBrk n hs
  | trace n => exact safe_execTrace n hs
  | efenceNode n => exact safe_execEfenceNode n hs
  | nop n => exact safe_execNop n hs
  | abortedRecordTimeout xid => exact safe_execAbortedRecordTimeout xid hs
  | coldReset => exact safe_execColdReset hs
  | warmReset => exact safe_execWarmReset hs
  | resetRestart => exact safe_execResetRestart hs
  | thermalTrip => exact safe_execThermalTrip hs
  | freezeCmd => exact safe_execFreezeCmd hs
  | warmresetCmd => exact safe_execWarmresetCmd hs
  | contCmd => exact safe_execContCmd hs
  | dumpdataRead => exact safe_execDumpdataRead hs
  | bypass => exact safe_execBypass hs
  | idcode => exact safe_execIdcode hs
  | registerWrite => exact safe_execRegisterWrite hs
  | devnumWrite => exact safe_execDevnumWrite hs
  | featenWrite => exact safe_execFeatenWrite hs
  | lqctlWrite => exact safe_execLqctlWrite hs
  | scqctlWrite => exact safe_execScqctlWrite hs
  | nullFlit => exact safe_execNullFlit hs
  | rdreq => exact safe_execRdreq hs
  | wrreq => exact safe_execWrreq hs
  | rdrsp => exact safe_execRdrsp hs
  | wrack => exact safe_execWrack hs
  | tokenFlit => exact safe_execTokenFlit hs
  | cairnAdd => exact safe_execCairnAdd hs
  | cairnWait => exact safe_execCairnWait hs
  | cairnRead => exact safe_execCairnRead hs
  | greply => exact safe_execGreply hs
  | hopReadHeader => exact safe_execHopReadHeader hs
  | hopPin => exact safe_execHopPin hs
  | hopUnpin => exact safe_execHopUnpin hs
  | hopWait => exact safe_execHopWait hs
  | classBind => exact safe_execClassBind hs
  | classRelease => exact safe_execClassRelease hs
  | xstage => exact safe_execXstage hs
  | prepareTxn => exact safe_execPrepareTxn hs
  | readyTxn => exact safe_execReadyTxn hs
  | commitTxn => exact safe_execCommitTxn hs
  | abortTxn => exact safe_execAbortTxn hs
  | doneTxn => exact safe_execDoneTxn hs
  | queryTxn => exact safe_execQueryTxn hs
  | keepTxn => exact safe_execKeepTxn hs
  | recordResume => exact safe_execRecordResume hs
  | systemCommandTake => exact safe_execSystemCommandTake hs
  | ctxnew => exact safe_execCtxnew hs
  | ctxfree => exact safe_execCtxfree hs
  | cancelCommand => exact safe_execCancelCommand hs
  | snapCommand => exact safe_execSnapCommand hs
  | snapdropCommand => exact safe_execSnapdropCommand hs
  | replaceCommand => exact safe_execReplaceCommand hs
  | cfginv => exact safe_execCfginv hs
  | topo => exact safe_execTopo hs
  | cinit => exact safe_execCinit hs
  | malformedCommand => exact safe_execMalformedCommand hs

theorem performTurn_safe (t : Turn) {s : State} (hs : s.safe = true) : SafeOutcome (performTurn t s) := by
  unfold performTurn
  split
  · exact State.safe_tick hs
  · split
    · exact exec_safe _ (State.safe_of_mem hs (State.serving_mem ..))
    · exact hs

theorem step_safe {s : State} (hs : s.safe = true) : SafeOutcome (step s) := performTurn_safe _ (State.safe_of_mem hs (State.takeTurn_mem s))

end Sys2Proof.Machine

open Sys2Proof Sys2Proof.Machine

/-- Settles O10: whatever turn a step takes, each operation it is made of keeps the canonical form of memory, which is the model's choice (log 3). -/
theorem stepKeepsSafe : Obligations.StepKeepsSafe := by
  unfold Obligations.StepKeepsSafe
  exact fun s t hs h => (step_safe hs).next h

/-- Settles O9: memory is empty at reset, and the empty memory has its canonical form, which is the model's choice (log 3). -/
theorem resetIsSafe : Obligations.ResetIsSafe := by
  unfold Obligations.ResetIsSafe
  exact Mem.wf_reset

end

section
/-! SUPPORT. One access that is performed at home: what it does to the bytes of memory. -/

namespace Sys2Proof.Machine

theorem sameSector_single (a : Acc) : sameSector [a] 0 a = [] := by simp [sameSector]

theorem peersOf_single {a : Acc} (hs : a.sent = false) (hd : a.done = false) : peersOf [a] 0 a = [0] := by
  unfold peersOf
  split
  · rfl
  · simp [hs, hd]

/-- A lone access at home is performed there. -/
theorem State.perform_single {s : State} {ctx : Nat} {who : Who} {a : Acc} (hs : a.sent = false) (hd : a.done = false)
    (hl : s.isLocal (s.target ctx a.addr) = true) :
    s.perform ctx who [a] 0 = s.performHere [a] 0 a (s.target ctx a.addr) := by
  simp only [State.perform, List.getElem?_cons_zero, hl, if_true, peersOf_single hs hd, State.performAll]
  generalize s.performHere [a] 0 a (s.target ctx a.addr) = r
  cases r <;> rfl

@[simp] theorem Mem.get_stampLoad (m : Mem) (a k : Nat) : (m.stampLoad a).get k = m.get k := by simp [Mem.get]

/-- A byte after a store: the store's own where it reaches, and the byte before elsewhere. -/
theorem Mem.get_store {m : Mem} (h : m.wf = true) (a k : Nat) (bs : List Byte) (kind : StoreKind) :
    (m.store a bs kind).1.get k = if a ≤ k ∧ k < a + bs.length then bs.getD (k - a) 0 else m.get k := by
  rw [Mem.get, Mem.store_cells]
  exact cellGet_cellsWrite h a k bs

theorem State.loadLocal_mem {s : State} {a : Nat} (h : a < Config.memBytes) (n : Nat) :
    s.loadLocal a n = ((s.mem.read a n, s.mem.poisoned a), { s with mem := s.mem.stampLoad a }) := by rw [State.loadLocal, if_pos h]

theorem State.storeLocal_mem {s : State} {a : Nat} (h : a < Config.memBytes) (bs : List Byte) (k : StoreKind) (fabric : Bool) :
    (s.storeLocal a bs k fabric).1.mem = (s.mem.store a bs k).1 := by
  rw [State.storeLocal, if_pos h]
  dsimp only
  split <;> rfl

end Sys2Proof.Machine

open Sys2Proof Sys2Proof.Machine

/-- Settles O21: a lone access at home is performed by the local memory, whose load changes no byte and whose store changes its own bytes alone. -/
theorem accessTouchesItsBytes : Obligations.AccessTouchesItsBytes := by
  unfold Obligations.AccessTouchesItsBytes
  refine ⟨?load, ?store, ?cow⟩
  case load =>
    rintro s ctx who a t hs hd hl rfl home inside
    refine ⟨{ s with mem := s.mem.stampLoad (localOf (s.target ctx a.addr)) }, ?_, fun k => Mem.get_stampLoad ..⟩
    simp [State.perform_single hs hd home, State.performHere, hl, State.loadLocal_mem inside]
  case store =>
    rintro s ctx who a t safe hs hd hl rfl home inside free
    let kind : StoreKind := ⟨a.psn, true, true, a.full, true⟩
    let stored := s.storeLocal (localOf (s.target ctx a.addr)) a.data kind false
    refine ⟨stored.1, { a with done := true, err := stored.2 }, ?_, rfl, fun k hk hk' => ?_, fun k hk => ?_⟩
    · simp [State.perform_single hs hd home, State.performHere, hl, free, sameSector_single, stored, kind]
    · rw [State.storeLocal_mem inside, Mem.get_store safe, if_pos ⟨hk, hk'⟩]
    · rw [State.storeLocal_mem inside, Mem.get_store safe, if_neg (by omega)]
  case cow =>
    rintro s ctx who a t hs hd hl rfl home inside cow
    simp [State.perform_single hs hd home, State.performHere, hl, inside, cow]

end

section
/-! SUPPORT. Words of memory, and what the end of a command writes. -/

namespace Sys2Proof.Machine

/-! ### Words of memory (R58) -/

@[simp] theorem leBytes_length (n x : Nat) : (leBytes n x).length = n := by
  induction n generalizing x with
  | zero => rfl
  | succ n ih => rw [leBytes, List.length_cons, ih]

theorem leNat_leBytes (n x : Nat) : leNat (leBytes n x) = x % 256 ^ n := by
  induction n generalizing x with
  | zero => rw [leBytes, leNat, pow_zero, Nat.mod_one]
  | succ n ih =>
    have parts : x % (256 * 256 ^ n) = x % 256 + 256 * (x / 256 % 256 ^ n) := Nat.mod_mul
    rw [leBytes, leNat, ih, BitVec.toNat_ofNat, show 256 ^ (n + 1) = 256 * 256 ^ n from Nat.pow_succ', parts]

/-- A word reads as it was written. -/
theorem Mem.word_putWord_same {m : Mem} (h : m.wf = true) (a : Nat) (v : Word) : (m.putWord a v).word a = v := by
  have bytes : (m.write a (leBytes 8 v.toNat)).read a 8 = leBytes 8 v.toNat := by simpa using Mem.read_write h a (leBytes 8 v.toNat)
  rw [Mem.word, Mem.putWord, bytes, leNat_leBytes, Nat.mod_eq_of_lt (show v.toNat < 256 ^ 8 from v.isLt), BitVec.ofNat_toNat, BitVec.setWidth_eq]

/-- A word reads as before where another is written. -/
theorem Mem.word_putWord_apart {m : Mem} (h : m.wf = true) {a b : Nat} (hab : b + 8 ≤ a ∨ a + 8 ≤ b) (v : Word) : (m.putWord a v).word b = m.word b := by
  have bytes : (m.putWord a v).read b 8 = m.read b 8 := by
    rw [Mem.read, Mem.read, cellsRead_eq, cellsRead_eq]
    refine List.map_congr_left fun i hi => (Mem.get_write h a (b + i) _).trans (if_neg ?_)
    have := List.mem_range.mp hi
    rw [leBytes_length]
    omega
  rw [Mem.word, Mem.word, bytes]

@[simp] theorem Mem.word_stampStore (m : Mem) (a b : Nat) : (m.stampStore a).word b = m.word b := rfl

/-- Words written as zero one after another read as zero. -/
theorem Mem.word_foldl_zero {m : Mem} (h : m.wf = true) (b n : Nat) {i : Nat} (hi : i < n) :
    ((List.range n).foldl (fun m i => m.putWord (b + 8 * i) 0) m).word (b + 8 * i) = 0 := by
  induction n with
  | zero => omega
  | succ n ih =>
    have before := Mem.wf_foldl (fun m i hm => Mem.wf_putWord hm (b + 8 * i) 0) (List.range n) h
    rw [List.range_succ, List.foldl_concat]
    by_cases hin : i = n
    · rw [hin]
      exact Mem.word_putWord_same before ..
    · rw [Mem.word_putWord_apart before (by omega)]
      exact ih (by omega)

/-! ### The end of a command (R72) -/

@[simp] theorem State.cairnAddScc_host (s : State) (k : Nat) (n : Word) : (s.cairnAddScc k n).host = s.host := by
  rw [State.cairnAddScc]
  split <;> rfl

theorem State.finishCmd_host (s : State) (c : SysCmd) (a code : Nat) (v : Word) :
    (s.finishCmd c a code v).host = { s.host with cmd := none, headers := [] } := by
  rw [State.finishCmd, State.cairnAddScc_host]

theorem State.finishCmd_mem {a : Nat} (h : a + 64 ≤ Config.memBytes) (s : State) (c : SysCmd) (code : Nat) (v : Word) :
    (s.finishCmd c a code v).mem = ((s.mem.putWord (a + 48) v).putWord (a + 56) (BitVec.ofNat 64 code)).stampStore a := by
  rw [State.finishCmd, State.cairnAddScc_mem]
  exact if_pos h

/-- RESULT and STATUS are written, and 1 is added to DONE. -/
theorem State.finishCmd_writes {s : State} (hs : s.safe = true) {a : Nat} (h : a + 64 ≤ Config.memBytes) (c : SysCmd) (code : Nat) (v : Word) :
    let t := s.finishCmd c a code v
    t.host.cmd = none ∧ t.mem.word (a + 48) = v ∧ t.mem.word (a + 56) = BitVec.ofNat 64 code ∧
      t.cairn.val (field c.w1 19 0) = cairnSum (s.cairn.val (field c.w1 19 0)) 1 := by
  refine ⟨?_, ?_, ?_, ?_⟩
  · rw [State.finishCmd_host]
  · rw [State.finishCmd_mem h, Mem.word_stampStore, Mem.word_putWord_apart (Mem.wf_putWord hs ..) (by omega), Mem.word_putWord_same hs]
  · rw [State.finishCmd_mem h, Mem.word_stampStore, Mem.word_putWord_same (Mem.wf_putWord hs ..)]
  · rw [State.finishCmd, State.cairnAddScc_cairn, Cairns.val_add, if_pos rfl]

end Sys2Proof.Machine
end

section
/-! SUPPORT. Launch queues: what becomes of the next descriptor of a queue and of a held launch (R66 to R68, R73, R81, R86). -/

namespace Sys2Proof.Machine

section
variable {s : State} {n : Nat} {q : LQueue} (hn : n < 64) (hq : s.host.queue n = q) (he : bitAt q.ctl 63 = true)
include hn hq he

/-- A queue that is overrun stops. -/
theorem exec_launchDescriptorTake_overrun (die : Nat) (ho : s.overrun q = true) : exec (.launchDescriptorTake n die) s = .next (s.putQueue n q.stop) := by
  change execLaunchDescriptorTake n die s = _
  simp [execLaunchDescriptorTake, Nat.not_le.mpr hn, hq, he, ho]

variable (ho : s.overrun q = false) (hp : q.next < s.bell q)
include ho hp

/-- A descriptor that a CANCEL took out is passed over. -/
theorem exec_launchDescriptorTake_marked (die : Nat) (hm : q.marks.contains q.head = true) :
    exec (.launchDescriptorTake n die) s = .next (s.putQueue n { q with head := q.head + 1 }) := by
  change execLaunchDescriptorTake n die s = _
  simp only [execLaunchDescriptorTake, Nat.not_le.mpr hn, hq, he, ho, Nat.not_le.mpr hp, hm, Bool.not_true, Bool.false_eq_true, or_self, if_false, if_true]

variable {d : SysCmd} (hm : q.marks.contains q.head = false) (hd : s.descriptor q q.head = d)
include hm hd

/-- A descriptor that is no launch, or whose context does not exist, is discarded. -/
theorem exec_launchDescriptorTake_bad (die : Nat) (hb : launchOk d = false ∨ tget s.host.ctxs (field q.ctl 31 20) = none) :
    exec (.launchDescriptorTake n die) s = .next ((s.putQueue n { q with head := q.head + 1 }.bad).advance (field d.w2 19 0) true) := by
  have bad : (!launchOk d || (tget s.host.ctxs (field q.ctl 31 20)).isNone) = true := by simpa using hb
  change execLaunchDescriptorTake n die s = _
  simp only [execLaunchDescriptorTake, Nat.not_le.mpr hn, hq, he, ho, Nat.not_le.mpr hp, hm, hd, bad, Bool.not_true, Bool.false_eq_true, or_self, if_false,
    if_true]

variable {die : Nat} {l : Launch} (hk : launchOk d = true) (hx : tget s.host.ctxs (field q.ctl 31 20) ≠ none)
  (hl : launchOf d (field q.ctl 31 20) (field q.ctl 56 54) die (some (n, q.head)) = l)
include hk hx hl

/-- A launch whose phase has gone by is admitted as one that is late. -/
theorem exec_launchDescriptorTake_late (hj : l.phase < tgetD s.host.phases (s.jobOf (field q.ctl 31 20)) 0) :
    exec (.launchDescriptorTake n die) s = .next ((s.putQueue n { q with head := q.head + 1 }.bad).admitLaunch l) := by
  have there : (tget s.host.ctxs (field q.ctl 31 20)).isNone = false := by simpa [Option.isNone_eq_false_iff, Option.isSome_iff_ne_none] using hx
  change execLaunchDescriptorTake n die s = _
  simp only [execLaunchDescriptorTake, Nat.not_le.mpr hn, hq, he, ho, Nat.not_le.mpr hp, hm, hd, hk, there, hl, hj, decide_true, Bool.not_true, Bool.or_self,
    Bool.false_eq_true, or_self, if_false, if_true]

variable (hj : tgetD s.host.phases (s.jobOf (field q.ctl 31 20)) 0 ≤ l.phase)
include hj

/-- A launch that no die has room for waits in its queue. -/
theorem exec_launchDescriptorTake_waits (hr : s.launchDie l die = none) : exec (.launchDescriptorTake n die) s = .next s := by
  have there : (tget s.host.ctxs (field q.ctl 31 20)).isNone = false := by simpa [Option.isNone_eq_false_iff, Option.isSome_iff_ne_none] using hx
  change execLaunchDescriptorTake n die s = _
  simp only [execLaunchDescriptorTake, Nat.not_le.mpr hn, hq, he, ho, Nat.not_le.mpr hp, hm, hd, hk, there, hl, Nat.not_lt.mpr hj, hr, decide_false,
    Bool.not_true, Bool.or_self, Bool.false_eq_true, or_self, if_false]

/-- A launch is taken by the die chosen for it. -/
theorem exec_launchDescriptorTake_taken {k : Nat} (hr : s.launchDie l die = some k) :
    exec (.launchDescriptorTake n die) s = .next (((s.putQueue n { q with head := q.head + 1 }).admitLaunch { l with die := k }).drawn) := by
  have there : (tget s.host.ctxs (field q.ctl 31 20)).isNone = false := by simpa [Option.isNone_eq_false_iff, Option.isSome_iff_ne_none] using hx
  change execLaunchDescriptorTake n die s = _
  simp only [execLaunchDescriptorTake, Nat.not_le.mpr hn, hq, he, ho, Nat.not_le.mpr hp, hm, hd, hk, there, hl, Nat.not_lt.mpr hj, hr, decide_false,
    Bool.not_true, Bool.or_self, Bool.false_eq_true, or_self, if_false]
end

section
variable {s : State} {lid : Nat} {l : Launch} (hl : tget s.host.launches lid = some l) (hh : l.st = .held) (hc : l.cancelled = false)
include hl hh hc

theorem exec_heldLaunchRelease_runs (hp : tgetD s.host.phases (s.jobOf l.ctx) 0 ≤ l.phase) (hm : s.mustHold l = false) :
    exec (.heldLaunchRelease lid) s = .next (s.putLaunch lid { l with st := .runnable }) := by
  change execHeldLaunchRelease lid s = _
  simp [execHeldLaunchRelease, hl, hh, hc, Nat.not_lt.mpr hp, hm]

theorem exec_heldLaunchRelease_late (hp : l.phase < tgetD s.host.phases (s.jobOf l.ctx) 0) :
    exec (.heldLaunchRelease lid) s = .next ((s.badSrc l).endLaunch lid true) := by
  change execHeldLaunchRelease lid s = _
  simp [execHeldLaunchRelease, hl, hh, hc, hp]
end

/-- A region switches to the redirections of its context between blocks. -/
theorem exec_regionReplaceSwitch {s : State} {key : Nat} {r : Region} (hr : tget s.regions key = some r) (hm : r.replaceMark = true) (hw : r.work = none) :
    exec (.regionReplaceSwitch key) s = .next (s.putRegion key { r with replaceMark := false, redirect := s.redirectOf r.ctx }).replaceEnd := by
  change execRegionReplaceSwitch key s = _
  simp [execRegionReplaceSwitch, hr, hm, hw]

end Sys2Proof.Machine
end

section
/-! SUPPORT. The system commands: the codes each ends with, and its effect (R71 to R77, R304). -/

namespace Sys2Proof.Machine

/-- The first context of a job starts as it is named. -/
theorem Ctx.inherit_nil {x : Ctx} (hx : x.counts = []) : x.inherit [] = x := by
  obtain ⟨⟩ := x
  cases hx
  rfl

/-- A posted command is taken as the one at hand, and ends with code 1 where it is of no kind or a reserved bit of it is set. -/
theorem exec_systemCommandTake {s : State} {q : LQueue} {c : SysCmd} (hq : s.host.scq = q) (hd : s.descriptor q q.head = c) (hc : s.host.cmd = none)
    (he : bitAt q.ctl 63 = true) (ho : s.overrun q = false) (hp : q.next < s.bell q) :
    ∃ t : State, t.host.cmd = some (c, q.base + 64 * (q.head % lqDepth q.ctl)) ∧ t.host.scq.head = q.head + 1 ∧
      ((∃ i, Decode.command c = .ok i) ∧ Decode.commandOk c = true → exec .systemCommandTake s = .next t) ∧
      (¬ ((∃ i, Decode.command c = .ok i) ∧ Decode.commandOk c = true) →
        exec .systemCommandTake s = .next (t.finishCmd c (q.base + 64 * (q.head % lqDepth q.ctl)) 1 0)) := by
  let t : State := { s with host := { s.host with
    scq := { q with head := q.head + 1 }
    cmd := some (c, q.base + 64 * (q.head % lqDepth q.ctl)) } }
  have taken : exec .systemCommandTake s = match Decode.command c with
      | .ok _ => .next (if Decode.commandOk c then t else t.finishCmd c (q.base + 64 * (q.head % lqDepth q.ctl)) 1 0)
      | .error _ => .next (t.finishCmd c (q.base + 64 * (q.head % lqDepth q.ctl)) 1 0) := by
    change execSystemCommandTake s = _
    simp only [execSystemCommandTake, hq, hd, hc, he, ho, Nat.not_le.mpr hp, Option.isSome_none, Bool.not_true, Bool.false_eq_true, or_self, if_false] <;> rfl
  refine ⟨t, rfl, rfl, fun ⟨⟨i, hi⟩, hk⟩ => ?_, fun bad => ?_⟩
  · rw [taken, hi, hk]
    rfl
  · rw [taken]
    cases hi : Decode.command c with
    | ok i =>
      have hk : Decode.commandOk c = false := Bool.eq_false_iff.mpr fun hk => bad ⟨⟨i, hi⟩, hk⟩
      rw [hk]
      rfl
    | error e => rfl

/-! ### Commands at hand (R72) -/

/-- The command at hand on a context that does not exist ends with code 2. -/
theorem exec_command_absent {s : State} {c : SysCmd} {a : Nat} (h : s.host.cmd = some (c, a)) (ho : Decode.commandOk c = true)
    (hx : tget s.host.ctxs (cmdCtx c) = none) {n : Nat} {i : Instr}
    (hi : (n, i) ∈ [(0x11, Instr.ctxfree), (0x12, .cancelCommand), (0x13, .snapCommand), (0x14, .snapdropCommand), (0x15, .replaceCommand), (0x16, .cfginv)])
    (hk : field c.w0 7 0 = n) : exec i s = .next (s.finishCmd c a 2 0) := by
  simp only [List.mem_cons, Prod.mk.injEq, List.not_mem_nil, or_false] at hi
  rcases hi with ⟨rfl, rfl⟩ | ⟨rfl, rfl⟩ | ⟨rfl, rfl⟩ | ⟨rfl, rfl⟩ | ⟨rfl, rfl⟩ | ⟨rfl, rfl⟩
  · exact show execCtxfree s = _ from ctxStep_none h hk ho hx _
  · exact show execCancelCommand s = _ from ctxStep_none h hk ho hx _
  · exact show execSnapCommand s = _ from ctxStep_none h hk ho hx _
  · exact show execSnapdropCommand s = _ from ctxStep_none h hk ho hx _
  · exact show execReplaceCommand s = _ from ctxStep_none h hk ho hx _
  · exact show execCfginv s = _ from ctxStep_none h hk ho hx _

section
variable {s : State} {c : SysCmd} {a : Nat} (h : s.host.cmd = some (c, a)) (ho : Decode.commandOk c = true)
include h ho

/-! ### CTXNEW (R76, R179) -/

section
variable (hk : field c.w0 7 0 = 0x10)
include hk

theorem exec_ctxnew_zero (h0 : cmdCtx c = 0) : exec .ctxnew s = .next (s.finishCmd c a 1 0) := by
  change execCtxnew s = _
  rw [execCtxnew, cmdStep_eq h hk ho]
  simp only [h0, if_true]

variable (h0 : cmdCtx c ≠ 0)
include h0

theorem exec_ctxnew_exists (hx : tget s.host.ctxs (cmdCtx c) ≠ none) : exec .ctxnew s = .next (s.finishCmd c a 2 0) := by
  change execCtxnew s = _
  rw [execCtxnew, cmdStep_eq h hk ho]
  simp only [h0, Option.isSome_iff_ne_none.mpr hx, if_false, if_true]

variable (hx : tget s.host.ctxs (cmdCtx c) = none)
include hx

theorem exec_ctxnew_feats (hf : featsIn (newCtx c).feats s.featenN = false) : exec .ctxnew s = .next (s.finishCmd c a 4 0) := by
  change execCtxnew s = _
  rw [execCtxnew, cmdStep_eq h hk ho]
  simp only [h0, hx, hf, Option.isSome_none, Bool.false_eq_true, Bool.not_false, if_false, if_true]

variable (hf : featsIn (newCtx c).feats s.featenN = true)
include hf

theorem exec_ctxnew_save (hs : saveOk (newCtx c) = false) : exec .ctxnew s = .next (s.finishCmd c a 6 0) := by
  change execCtxnew s = _
  rw [execCtxnew, cmdStep_eq h hk ho]
  simp only [h0, hx, hf, hs, Option.isSome_none, Bool.false_eq_true, Bool.not_true, Bool.not_false, if_false, if_true]

/-- A new context, with the phases of its job, and the log control of its save area. -/
theorem exec_ctxnew_made (hs : saveOk (newCtx c) = true) : ∃ s1 : State, exec .ctxnew s = .next (s1.finishCmd c a 0 0) ∧
    tget s1.host.ctxs (cmdCtx c) = some ((newCtx c).inherit ((s.jobCtxs (newCtx c).job).filterMap fun j => tget s.host.ctxs j)) ∧
    (s.jobCtxs (newCtx c).job = [] → tget s1.host.ctxs (cmdCtx c) = some (newCtx c) ∧ tgetD s1.host.phases (newCtx c).job 0 = 0) ∧
    (s.safe = true → ∀ i, i < 8 → s1.mem.word ((newCtx c).saveBase + 0x10000 + 8 * i) = 0) := by
  let others := s.jobCtxs (newCtx c).job
  let x := (newCtx c).inherit (others.filterMap fun j => tget s.host.ctxs j)
  let m := (List.range 8).foldl (fun m i => m.putWord ((newCtx c).saveBase + 0x10000 + 8 * i) 0) s.mem
  let phases := if others.isEmpty then tdel s.host.phases (newCtx c).job else s.host.phases
  have made : exec .ctxnew s = .next ((State.putCtx { s with mem := m, host := { s.host with phases := phases } } (cmdCtx c) x).finishCmd c a 0 0) := by
    change execCtxnew s = _
    rw [execCtxnew, cmdStep_eq h hk ho]
    simp only [h0, hx, hf, hs, Option.isSome_none, Bool.false_eq_true, Bool.not_true, if_false, m, phases, x, others]
  have put : tget (tput s.host.ctxs (cmdCtx c) x) (cmdCtx c) = some x := tget_tput_self ..
  refine ⟨_, made, put, fun first => ⟨put.trans ?_, ?_⟩, fun safe i hi => Mem.word_foldl_zero safe _ 8 hi⟩
  · simp only [x, others, first, List.filterMap_nil]
    rw [Ctx.inherit_nil rfl]
  · simp [phases, others, first, tgetD]
end

/-! ### TOPO and CINIT (R75, R77) -/

section
variable (hk : field c.w0 7 0 = 0x17)
include hk

theorem exec_topo_none (hn : field c.w3 11 0 = 0) :
    exec .topo s = .next (State.finishCmd { s with link := { s.link with topoDone := true } } c a 0 0) := by
  change execTopo s = _
  rw [execTopo, cmdStep_eq h hk ho]
  simp only [hn, if_true]

theorem exec_topo_outside (hn : field c.w3 11 0 ≠ 0) (hb : c.w2.toNat % 8 ≠ 0 ∨ Config.memBytes < c.w2.toNat + 8 * field c.w3 11 0) :
    exec .topo s = .next (s.finishCmd c a 6 0) := by
  change execTopo s = _
  rw [execTopo, cmdStep_eq h hk ho]
  simp only [hn, hb, if_false, if_true]

variable (hn : field c.w3 11 0 ≠ 0) (ha : c.w2.toNat % 8 = 0) (hb : c.w2.toNat + 8 * field c.w3 11 0 ≤ Config.memBytes)
  {ws : List Word} (hw : ((List.range (field c.w3 11 0)).map fun i => s.mem.word (c.w2.toNat + 8 * i)) = ws)
include hn ha hb hw

theorem exec_topo_bad (hg : ws.all topoOk = false) : exec .topo s = .next (s.finishCmd c a 1 0) := by
  change execTopo s = _
  rw [execTopo, cmdStep_eq h hk ho]
  simp only [hn, ha, Nat.not_lt.mpr hb, hw, hg, ne_eq, not_true_eq_false, Bool.false_eq_true, or_self, if_false]

theorem exec_topo_routes (hg : ws.all topoOk = true) :
    exec .topo s = .next (State.finishCmd { s with link := { ws.foldl Link.topo s.link with topoDone := true } } c a 0 0) := by
  change execTopo s = _
  rw [execTopo, cmdStep_eq h hk ho]
  simp only [hn, ha, Nat.not_lt.mpr hb, hw, hg, ne_eq, not_true_eq_false, or_self, if_false, if_true]
end

section
variable (hk : field c.w0 7 0 = 0x18)
include hk

theorem exec_cinit_outside (hn : field c.w3 19 0 = 0 ∨ 0x80000 < field c.w2 19 0 + field c.w3 19 0) : exec .cinit s = .next (s.finishCmd c a 6 0) := by
  change execCinit s = _
  rw [execCinit, cmdStep_eq h hk ho]
  simp only [hn, if_true]

/-- The cairns of the range are as new, and the others as before. -/
theorem exec_cinit_range (hn : field c.w3 19 0 ≠ 0) (hb : field c.w2 19 0 + field c.w3 19 0 ≤ 0x80000) :
    ∃ s1 : State, exec .cinit s = .next (s1.finishCmd c a 0 0) ∧ s1.cairn.waits = s.cairn.waits ∧
      ∀ j, if field c.w2 19 0 ≤ j ∧ j < field c.w2 19 0 + field c.w3 19 0 then s1.cairn.val j = 0 ∧ s1.cairn.flag j = false
        else s1.cairn.val j = s.cairn.val j ∧ s1.cairn.flag j = s.cairn.flag j := by
  have ran : exec .cinit s = .next (State.finishCmd { s with cairn := { s.cairn with
      vals := s.cairn.vals.filter fun e => decide (e.1 < field c.w2 19 0 ∨ field c.w2 19 0 + field c.w3 19 0 ≤ e.1)
      flags := s.cairn.flags.filter fun x => decide (x < field c.w2 19 0 ∨ field c.w2 19 0 + field c.w3 19 0 ≤ x) } } c a 0 0) := by
    change execCinit s = _
    rw [execCinit, cmdStep_eq h hk ho]
    simp only [hn, Nat.not_lt.mpr hb, or_self, if_false]
  refine ⟨_, ran, rfl, fun j => ?_⟩
  simp only [Cairns.val, Cairns.flag, tgetD, tget_filter fun x => decide (x < field c.w2 19 0 ∨ field c.w2 19 0 + field c.w3 19 0 ≤ x)]
  split
  · next within =>
    have kept : ¬ (j < field c.w2 19 0 ∨ field c.w2 19 0 + field c.w3 19 0 ≤ j) := by omega
    simp [kept]
  · next outside =>
    have kept : j < field c.w2 19 0 ∨ field c.w2 19 0 + field c.w3 19 0 ≤ j := by omega
    simp [kept]
end

/-! ### Commands on a context -/

section
variable {x : Ctx} (hx : tget s.host.ctxs (cmdCtx c) = some x)
include hx

/-! CTXFREE (R76). -/

theorem exec_ctxfree_busy (hk : field c.w0 7 0 = 0x11) (hb : s.ctxBusy (cmdCtx c) = true) : exec .ctxfree s = .next (s.finishCmd c a 3 0) := by
  change execCtxfree s = _
  rw [execCtxfree, ctxStep_eq h hk ho hx]
  simp only [hb, if_true]

theorem exec_ctxfree_freed (hk : field c.w0 7 0 = 0x11) (hb : s.ctxBusy (cmdCtx c) = false) :
    ∃ s1 : State, exec .ctxfree s = .next (s1.finishCmd c a 0 0) ∧ tget s1.host.ctxs (cmdCtx c) = none ∧ s1.mem = s.mem := by
  have freed : exec .ctxfree s = .next (State.finishCmd { s.invalidate (cmdCtx c) with
      host := { (s.invalidate (cmdCtx c)).host with ctxs := tdel (s.invalidate (cmdCtx c)).host.ctxs (cmdCtx c) }
      caches := { (s.invalidate (cmdCtx c)).caches with
        cfg := (s.invalidate (cmdCtx c)).caches.cfg.map fun e =>
          (e.1, e.2.filter fun i => decide (i.ctx ≠ cmdCtx c) || s.imageHeld e.1 i) }
      link := { (s.invalidate (cmdCtx c)).link with
        ports := (s.invalidate (cmdCtx c)).link.ports.map fun e =>
          (e.1, { e.2 with tokens := e.2.tokens.filter fun t => decide (t.tok.ctx ≠ cmdCtx c) }) } } c a 0 0) := by
    change execCtxfree s = _
    rw [execCtxfree, ctxStep_eq h hk ho hx]
    simp only [hb, Bool.false_eq_true, if_false]
  exact ⟨_, freed, tget_tdel_self .., s.invalidate_mem (cmdCtx c)⟩

/-! CANCEL (R73, R83, R85). -/

section
variable (hk : field c.w0 7 0 = 0x12)
include hk

theorem exec_cancelCommand_level (hl : field c.w2 1 0 ≠ 0)
    (hm : s.anyMember (cmdCtx c) (field c.w2 1 0) (if field c.w2 1 0 = 3 then 0 else c.w3.toNat) = true) :
    exec .cancelCommand s = .next ((s.cancelLevel (cmdCtx c) (field c.w2 1 0) (if field c.w2 1 0 = 3 then 0 else c.w3.toNat)).finishCmd c a 0 0) := by
  change execCancelCommand s = _
  rw [execCancelCommand, ctxStep_eq h hk ho hx]
  simp only [hl, hm, if_false, if_true]

theorem exec_cancelCommand_nobody (hl : field c.w2 1 0 ≠ 0)
    (hm : s.anyMember (cmdCtx c) (field c.w2 1 0) (if field c.w2 1 0 = 3 then 0 else c.w3.toNat) = false) :
    exec .cancelCommand s = .next (s.finishCmd c a 5 0) := by
  change execCancelCommand s = _
  rw [execCancelCommand, ctxStep_eq h hk ho hx]
  simp only [hl, hm, Bool.false_eq_true, if_false]

variable (hl : field c.w2 1 0 = 0)
include hl

theorem exec_cancelCommand_launch {l : Nat} (hb : s.launchBy c.w3.toNat c.w4.toNat (cmdCtx c) = some l) :
    exec .cancelCommand s = .next ((s.cancelLaunch l).finishCmd c a 0 0) := by
  change execCancelCommand s = _
  rw [execCancelCommand, ctxStep_eq h hk ho hx]
  simp only [hl, hb, if_true]

variable (hb : s.launchBy c.w3.toNat c.w4.toNat (cmdCtx c) = none) {q : LQueue} (hq : s.host.queue c.w3.toNat = q)
include hb hq

theorem exec_cancelCommand_posted (hp : field q.ctl 31 20 = cmdCtx c ∧ q.head ≤ c.w4.toNat ∧ c.w4.toNat < q.head + s.postedTo q ∧ c.w4.toNat ∉ q.marks) :
    exec .cancelCommand s = .next ((s.cancelPosted c.w3.toNat q c.w4.toNat).finishCmd c a 0 0) := by
  change execCancelCommand s = _
  rw [execCancelCommand, ctxStep_eq h hk ho hx]
  simp [hl, hb, hq, hp]

theorem exec_cancelCommand_absent (hp : ¬ (field q.ctl 31 20 = cmdCtx c ∧ q.head ≤ c.w4.toNat ∧ c.w4.toNat < q.head + s.postedTo q ∧ c.w4.toNat ∉ q.marks)) :
    exec .cancelCommand s = .next (s.finishCmd c a 5 0) := by
  have unmet : ¬ (field q.ctl 31 20 = cmdCtx c ∧ q.head ≤ c.w4.toNat ∧ c.w4.toNat < q.head + s.postedTo q ∧ q.marks.contains c.w4.toNat = false) := by
    simpa using hp
  change execCancelCommand s = _
  rw [execCancelCommand, ctxStep_eq h hk ho hx]
  simp only [hl, hb, hq, unmet, if_true, if_false]
end

/-! SNAP and SNAPDROP (R74). -/

theorem exec_snapCommand (hk : field c.w0 7 0 = 0x13) (hb : c.w2.toNat % 65536 = 0) (hl : c.w3.toNat % 65536 = 0) (hs : c.w2.toNat + c.w3.toNat ≤ 2 ^ 56)
    {v : Word} {s1 : State} (hv : s.snap (cmdCtx c) c.w2.toNat c.w3.toNat (field c.w4 19 0) = (v, s1)) :
    exec .snapCommand s = .next (s1.finishCmd c a 0 v) := by
  change execSnapCommand s = _
  rw [execSnapCommand, ctxStep_eq h hk ho hx]
  simp only [hb, hl, Nat.not_lt.mpr hs, hv, ne_eq, not_true_eq_false, or_self, if_false]

theorem exec_snapdropCommand (hk : field c.w0 7 0 = 0x14) : exec .snapdropCommand s =
    .next (if s.hasSnap (cmdCtx c) (field c.w4 19 0) c.w2 then (s.snapDrop (cmdCtx c) (field c.w4 19 0) c.w2).finishCmd c a 0 0
      else s.finishCmd c a 6 0) := by
  change execSnapdropCommand s = _
  rw [execSnapdropCommand, ctxStep_eq h hk ho hx]

/-! REPLACE (R304). -/

section
variable (hk : field c.w0 7 0 = 0x15)
include hk

theorem exec_replaceCommand_again (hr : s.host.replacing ≠ none) : exec .replaceCommand s = .next s.replaceEnd := by
  change execReplaceCommand s = _
  rw [execReplaceCommand, ctxStep_eq h hk ho hx]
  simp only [Option.isSome_iff_ne_none.mpr hr, if_true]

variable (hr : s.host.replacing = none)
include hr

theorem exec_replaceCommand_misaligned (ha : c.w2.toNat % 2048 ≠ 0 ∨ c.w3.toNat % 2048 ≠ 0 ∨ c.w4.toNat % 2048 ≠ 0) :
    exec .replaceCommand s = .next (s.finishCmd c a 6 0) := by
  change execReplaceCommand s = _
  rw [execReplaceCommand, ctxStep_eq h hk ho hx]
  simp only [hr, ha, Option.isSome_none, Bool.false_eq_true, if_false, if_true]

variable (h2 : c.w2.toNat % 2048 = 0) (h3 : c.w3.toNat % 2048 = 0) (h4 : c.w4.toNat % 2048 = 0) {ts : List Nat}
  (ht : s.rangeBlocks (cmdCtx c) c.w3.toNat c.w4.toNat = ts)
include h2 h3 h4 ht

theorem exec_replaceCommand_asks (hl : (ts.filter fun t => (s.headerAt t).isNone) ≠ []) :
    exec .replaceCommand s = .next (s.askHeaders (cmdCtx c) (ts.filter fun t => (s.headerAt t).isNone)) := by
  have some_ : (ts.filter fun t => (s.headerAt t).isNone).isEmpty = false := List.isEmpty_eq_false_iff.mpr hl
  change execReplaceCommand s = _
  rw [execReplaceCommand, ctxStep_eq h hk ho hx]
  simp only [hr, h2, h3, h4, ht, some_, Option.isSome_none, ne_eq, not_true_eq_false, Bool.false_eq_true, Bool.not_false, or_self, if_false, if_true]

variable (hl : (ts.filter fun t => (s.headerAt t).isNone) = [])
include hl

theorem exec_replaceCommand_lacks (hb : ∃ t ∈ ts, s.blockLacks t = true) : exec .replaceCommand s = .next (s.finishCmd c a 4 0) := by
  change execReplaceCommand s = _
  rw [execReplaceCommand, ctxStep_eq h hk ho hx]
  simp only [hr, h2, h3, h4, ht, hl, List.any_eq_true.mpr hb, Option.isSome_none, ne_eq, not_true_eq_false, Bool.false_eq_true, List.isEmpty_nil, Bool.not_true,
    or_self, if_false, if_true]

variable (hb : ∀ t ∈ ts, s.blockLacks t = false)
include hb

theorem exec_replaceCommand_full (hf : redirectAfter (s.redirectOf (cmdCtx c)) c.w2.toNat c.w3.toNat c.w4.toNat = none) :
    exec .replaceCommand s = .next (s.finishCmd c a 7 0) := by
  have has : ts.any s.blockLacks = false := List.any_eq_false.mpr fun t ht => by simp [hb t ht]
  change execReplaceCommand s = _
  rw [execReplaceCommand, ctxStep_eq h hk ho hx]
  simp only [hr, h2, h3, h4, ht, hl, has, hf, Option.isSome_none, ne_eq, not_true_eq_false, Bool.false_eq_true, List.isEmpty_nil, Bool.not_true, or_self,
    if_false]

theorem exec_replaceCommand_installs {t : List (Nat × Nat × Nat)} (hf : redirectAfter (s.redirectOf (cmdCtx c)) c.w2.toNat c.w3.toNat c.w4.toNat = some t) :
    exec .replaceCommand s = .next (State.replaceEnd { s.replaceCode (cmdCtx c) t with
      host := { (s.replaceCode (cmdCtx c) t).host with replacing := some (cmdCtx c, a) } }) := by
  have has : ts.any s.blockLacks = false := List.any_eq_false.mpr fun t ht => by simp [hb t ht]
  change execReplaceCommand s = _
  rw [execReplaceCommand, ctxStep_eq h hk ho hx]
  simp only [hr, h2, h3, h4, ht, hl, has, hf, Option.isSome_none, ne_eq, not_true_eq_false, Bool.false_eq_true, List.isEmpty_nil, Bool.not_true, or_self,
    if_false]
end

/-! CFGINV (R76). -/

/-- The images of the context that no block in flight holds leave the configuration caches. -/
theorem exec_cfginv (hk : field c.w0 7 0 = 0x16) : ∃ s1 : State, exec .cfginv s = .next (s1.finishCmd c a 0 0) ∧ s1.mem = s.mem ∧ s1.regions = s.regions ∧
    ∀ p i, i ∈ tgetD s1.caches.cfg p [] ↔ i ∈ tgetD s.caches.cfg p [] ∧ (i.ctx ≠ cmdCtx c ∨ s.imageHeld p i = true) := by
  refine ⟨_, show execCfginv s = _ from ctxStep_eq h hk ho hx _, rfl, rfl, fun p i => ?_⟩
  simp only [tgetD, tget_map fun (k : Nat) (l : List CfgImage) => l.filter fun i => decide (i.ctx ≠ cmdCtx c) || s.imageHeld k i]
  cases tget s.caches.cfg p <;> simp
end
end

end Sys2Proof.Machine
end

section
/-! SUPPORT. What a CANCEL of a posted descriptor marks, and what TOPO routes. -/

namespace Sys2Proof.Machine

/-- A descriptor that a CANCEL took out is marked. -/
theorem State.mem_marks_cancelPosted (s : State) (n : Nat) (q : LQueue) (m : Nat) : m ∈ ((s.cancelPosted n q m).host.queue n).marks := by
  have marked : ((s.cancelPosted n q m).host.lq) = tput s.host.lq n { q with marks := (s.host.queue n).marks ++ [m] } := by
    unfold State.cancelPosted
    dsimp only
    split
    · rfl
    · rw [State.advance_host]
  rw [Hosting.queue, marked, tgetD_tput, if_pos rfl]
  exact List.mem_append_right _ (List.mem_singleton.mpr rfl)

/-- The ports of a routing word. -/
theorem Link.tget_routes_topo (l : Link) (w : Word) : tget (l.topo w).routes (field w 13 12 * 4096 + field w 11 0) =
    some ((List.range (field w 18 16)).map fun i => field w (22 + 4 * i) (19 + 4 * i)) := tget_tput_self ..

end Sys2Proof.Machine

open Sys2Proof Sys2Proof.Machine

/-- Settles O56, event by event and command by command. The order of the codes of CTXNEW and REPLACE and the code of a CINIT of none (log 38), the headers
that REPLACE asks for (log 39), that a posted descriptor which a CANCEL takes out becomes a cancelled launch (log 40), and what the number of a descriptor
names once its queue has been enabled anew (log 87) are the model's choice. -/
theorem hostEvents : Obligations.HostEvents := by
  unfold Obligations.HostEvents
  refine ⟨?take, ?release, ?system, ?ends, ?commands, ?switch⟩
  case take =>
    intro s n die q d ctx l taken hn he
    refine ⟨exec_launchDescriptorTake_overrun hn rfl he die, fun ho hp => exec_launchDescriptorTake_marked hn rfl he ho hp die,
      fun ho hp hm => ⟨?_, ?_, ?_⟩⟩
    · exact exec_launchDescriptorTake_bad hn rfl he ho hp hm rfl die
    · exact fun hk hx => exec_launchDescriptorTake_late hn rfl he ho hp hm rfl hk hx rfl
    · exact fun hk hx hj => ⟨exec_launchDescriptorTake_waits hn rfl he ho hp hm rfl hk hx rfl hj,
        fun k => exec_launchDescriptorTake_taken hn rfl he ho hp hm rfl hk hx rfl hj⟩
  case release =>
    exact fun s lid l hl hh hc => ⟨exec_heldLaunchRelease_runs hl hh hc, exec_heldLaunchRelease_late hl hh hc⟩
  case system =>
    exact fun s => exec_systemCommandTake rfl rfl
  case ends =>
    exact fun s c a code v hs ha => State.finishCmd_writes hs ha c code v
  case commands =>
    intro s c a h ho k ends
    refine ⟨fun n i hi hk hx => exec_command_absent h ho hx hi hk, ?ctxnew, fun x hx => ⟨?ctxfree, ?level, ?launch, ?snap, ?snapdrop, ?replace, ?cfginv⟩, ?topo, ?cinit⟩
    case ctxnew =>
      exact fun hk => ⟨exec_ctxnew_zero h ho hk, exec_ctxnew_exists h ho hk, fun h0 hx => ⟨exec_ctxnew_feats h ho hk h0 hx,
        exec_ctxnew_save h ho hk h0 hx, exec_ctxnew_made h ho hk h0 hx⟩⟩
    case ctxfree =>
      exact fun hk => ⟨exec_ctxfree_busy h ho hx hk, exec_ctxfree_freed h ho hx hk⟩
    case level =>
      exact fun hk hl => ⟨exec_cancelCommand_level h ho hx hk hl, exec_cancelCommand_nobody h ho hx hk hl⟩
    case launch =>
      exact fun hk hl => ⟨fun l => exec_cancelCommand_launch h ho hx hk hl, fun hb =>
        ⟨fun hp => ⟨exec_cancelCommand_posted h ho hx hk hl hb rfl hp, State.mem_marks_cancelPosted ..⟩, exec_cancelCommand_absent h ho hx hk hl hb rfl⟩⟩
    case snap =>
      exact fun hk hb hl hs v s1 => exec_snapCommand h ho hx hk hb hl hs
    case snapdrop =>
      intro hk
      have ran := exec_snapdropCommand h ho hx hk
      exact ⟨fun hs => ran.trans (congrArg _ (if_pos hs)), fun hs => ran.trans (congrArg _ (if_neg (Bool.eq_false_iff.mp hs)))⟩
    case replace =>
      refine fun hk => ⟨exec_replaceCommand_again h ho hx hk, exec_replaceCommand_misaligned h ho hx hk, fun hr h2 h3 h4 => ⟨?_, ?_, fun hl hb => ⟨?_, ?_⟩⟩⟩
      · exact exec_replaceCommand_asks h ho hx hk hr h2 h3 h4 rfl
      · exact exec_replaceCommand_lacks h ho hx hk hr h2 h3 h4 rfl
      · exact exec_replaceCommand_full h ho hx hk hr h2 h3 h4 rfl hl hb
      · refine fun t ht => ⟨_, ?_, ?_, exec_replaceCommand_installs h ho hx hk hr h2 h3 h4 rfl hl hb ht⟩ <;> rfl
    case cfginv =>
      exact exec_cfginv h ho hx
    case topo =>
      intro hk ws
      refine ⟨fun hn => ⟨_, exec_topo_none h ho hk hn, rfl⟩, exec_topo_outside h ho hk, fun ha hb => ⟨fun hg => ?_, fun hg => ?_⟩⟩
      · by_cases hn : field c.w3 11 0 = 0
        · refine ⟨_, exec_topo_none h ho hk hn, rfl, fun w hw => ?_⟩
          have short := congrArg List.length hw
          simp [ws, hn] at short
        · refine ⟨_, exec_topo_routes h ho hk hn ha hb (ws := ws) rfl hg, rfl, fun w hw => ?_⟩
          rw [hw]
          exact Link.tget_routes_topo ..
      · by_cases hn : field c.w3 11 0 = 0
        · simp [ws, hn] at hg
        · exact exec_topo_bad h ho hk hn ha hb rfl hg
    case cinit =>
      exact fun hk => ⟨exec_cinit_outside h ho hk, exec_cinit_range h ho hk⟩
  case switch =>
    exact fun s key r => exec_regionReplaceSwitch

end

section
/-! SUPPORT. The dispatch units: the choice, the turn of a round list, placing, the L2 mode (R86 to R91, R161). -/

namespace Sys2Proof.Machine

/-! ### The choice (R88, R89) -/

/-- The first number below a bound at which a search finds something. -/
theorem findSome?_range_eq_some {α : Type} {f : Nat → Option α} {i n : Nat} {a : α} (hi : i < n) (hf : f i = some a) (before : ∀ j, j < i → f j = none) :
    (List.range n).findSome? f = some a := by
  obtain ⟨k, rfl⟩ := Nat.exists_eq_add_of_lt hi
  have none_before : (List.range i).findSome? f = none := List.findSome?_eq_none_iff.mpr fun j hj => before j (List.mem_range.mp hj)
  rw [show i + k + 1 = i + (k + 1) by omega, List.range_add, List.findSome?_append, none_before, List.range_succ_eq_map]
  simp [hf]

/-- What a dispatch unit does for the launches of one priority: it places one (none), or asks for room. -/
def State.prioChoice (s : State) (die p : Nat) : Option (Nat × Option (List Nat)) :=
  if (s.runnable die p).any fun e => (s.placeable [] e.2 die).isSome then some (p, none)
  else ((s.runnable die p).findSome? fun e => s.preemption e.2 die).map fun ks => (p, some ks)

theorem State.dieChoice_eq_prioChoice (s : State) (die : Nat) : s.dieChoice die = (List.range 8).findSome? fun i => s.prioChoice die (7 - i) := rfl

section
variable {s : State} {die p : Nat}

theorem State.prioChoice_idle (place : ((s.runnable die p).any fun e => (s.placeable [] e.2 die).isSome) = false)
    (room : ∀ e ∈ s.runnable die p, s.preemption e.2 die = none) : s.prioChoice die p = none := by
  rw [State.prioChoice, place, List.findSome?_eq_none_iff.mpr room]
  rfl

/-- The highest priority with something to do decides. -/
theorem State.dieChoice_highest {c : Nat × Option (List Nat)} (hp : p < 8) (above : ∀ q, p < q → q < 8 → s.prioChoice die q = none)
    (hc : s.prioChoice die p = some c) : s.dieChoice die = some c :=
  findSome?_range_eq_some (i := 7 - p) (by omega) (by rwa [show 7 - (7 - p) = p by omega]) fun j hj => above (7 - j) (by omega) (by omega)

theorem State.dieChoice_idle (idle : ∀ q, q < 8 → s.prioChoice die q = none) : s.dieChoice die = none :=
  List.findSome?_eq_none_iff.mpr fun i _ => idle (7 - i) (by omega)

theorem State.foldl_post {α : Type} (f : α → Turn) (l : List α) (s : State) :
    l.foldl (fun s' a => s'.post (f a)) s = { s with agenda := s.agenda ++ l.map f } := by
  induction l generalizing s with
  | nil => simp
  | cons a l ih => rw [List.foldl_cons, ih]; simp [State.post]

theorem exec_dispatchChoice_places (hd : die < 4) (h : s.dieChoice die = some (p, none)) : exec (.dispatchChoice die) s = .next (s.serveRound die p) := by
  change execDispatchChoice die s = _
  rw [execDispatchChoice, if_neg (by omega), h]

theorem exec_dispatchChoice_preempts {ks : List Nat} (hd : die < 4) (h : s.dieChoice die = some (p, some ks)) :
    exec (.dispatchChoice die) s = .next { s with agenda := s.agenda ++ ks.map fun k => .event (.preempt k) } := by
  change execDispatchChoice die s = _
  rw [execDispatchChoice, if_neg (by omega), h]
  exact congrArg _ (State.foldl_post (fun k => .event (.preempt k)) ks s)

theorem exec_dispatchChoice_idle (hd : die < 4) (h : s.dieChoice die = none) : exec (.dispatchChoice die) s = .next s := by
  change execDispatchChoice die s = _
  rw [execDispatchChoice, if_neg (by omega), h]

/-! ### Placing (R68, R88) -/

/-- The only runnable launch of a priority whose round list is empty is placed: its job comes to the list and has a quantum. -/
theorem State.serveRound_only {lid : Nat} {l : Launch} {q : Spot} (only : s.runnable die p = [(lid, l)])
    (empty : tgetD (tgetD s.host.dies die Die.blank).rounds p [] = []) (place : s.placeable [] l die = some q) :
    s.serveRound die p = (s.putRounds die p [⟨s.jobOf l.ctx, quantum, true⟩]).place lid l q := by
  have list : s.roundList die p = [⟨s.jobOf l.ctx, 0, false⟩] := by
    rw [State.roundList, only, empty]
    rfl
  rw [State.serveRound, list, only]
  simp [place, quantum]

theorem State.tget_place_regions (s : State) (lid : Nat) (l : Launch) (q : Spot) (k : Nat) :
    tget (s.place lid l q).regions k = if k = coreKey q.part q.core then some (newRegion s lid l q) else tget s.regions k := tget_tput ..

theorem State.tget_place_launches (s : State) (lid : Nat) (l : Launch) (q : Spot) :
    tget (s.place lid l q).host.launches lid = some { l with st := .placed (coreKey q.part q.core), die := dieOf q.part } := tget_tput_self ..

/-! ### The L2 mode (R161) -/

/-- Whether a context keeps the L2 of its partitions to itself. -/
def State.wantsPrivate (s : State) (ctx : Nat) : Bool := ((tget s.host.ctxs ctx).map fun c => c.l2Private).getD false

theorem contains_switched (want : Bool) (l : List Nat) (part : Nat) :
    (if want then ninsert l part else l.filter fun p => decide (p ≠ part)).contains part = want := by
  cases want with
  | true => simp [mem_ninsert]
  | false => simp

variable {part : Nat} {e : Nat × Region} (here : (s.regions.find? fun e => decide (e.2.part = part)) = some e)
include here

theorem exec_l2ModeSwitch_same (h : s.wantsPrivate e.2.ctx = s.caches.l2Private.contains part) : exec (.l2ModeSwitch part) s = .next s := by
  change execL2ModeSwitch part s = _
  rw [execL2ModeSwitch, here]
  exact if_pos h

theorem exec_l2ModeSwitch_switches (h : s.wantsPrivate e.2.ctx ≠ s.caches.l2Private.contains part) :
    exec (.l2ModeSwitch part) s = .next { s with caches := { s.caches with
      l2Private := if s.wantsPrivate e.2.ctx then ninsert s.caches.l2Private part else s.caches.l2Private.filter fun p => decide (p ≠ part)
      l2 := s.caches.l2.filter fun x => decide (dieOf x.1 ≠ dieOf part) } } := by
  change execL2ModeSwitch part s = _
  rw [execL2ModeSwitch, here]
  exact if_neg h

/-- The partition's mode is that of its regions; a switch leaves no line of the die's L2. -/
theorem exec_l2ModeSwitch : ∃ t, exec (.l2ModeSwitch part) s = .next t ∧ t.caches.l2Private.contains part = s.wantsPrivate e.2.ctx ∧ t.mem = s.mem ∧
    t.regions = s.regions ∧ (s.wantsPrivate e.2.ctx ≠ s.caches.l2Private.contains part → ∀ x ∈ t.caches.l2, dieOf x.1 ≠ dieOf part) := by
  by_cases h : s.wantsPrivate e.2.ctx = s.caches.l2Private.contains part
  · exact ⟨s, exec_l2ModeSwitch_same here h, h.symm, rfl, rfl, fun hn => absurd h hn⟩
  · refine ⟨_, exec_l2ModeSwitch_switches here h, contains_switched .., rfl, rfl, fun _ x hx => ?_⟩
    exact of_decide_eq_true (List.mem_filter.mp hx).2
end

end Sys2Proof.Machine
end

section
/-! SUPPORT. Regions that halt, are parked and come back (R102, R103, R105 to R109). -/

namespace Sys2Proof.Machine

/-- A loop whose every round leaves a part of the machine leaves it. -/
theorem State.foldl_keeps {α β : Type} {part : State → β} {f : State → α → State} (h : ∀ (s : State) (a : α), part (f s a) = part s) (l : List α)
    (s : State) : part (l.foldl f s) = part s :=
  List.foldlRecOn (motive := fun t => part t = part s) l f rfl fun t ht a _ => (h t a).trans ht

/-! ### What leaves a region but for its caches and its allocation buffers -/

/-- `r'` is `r` but for its translation and barrier caches and its allocation buffers. -/
def Region.SameButHeap (r r' : Region) : Prop := r' = { r with tlb := r'.tlb, barrier := r'.barrier, bufs := r'.bufs }

/-- From `s` to `t` no region changes but for its translation and barrier caches and its allocation buffers. -/
def State.KeepsRegions (s t : State) : Prop := ∀ k r, tget s.regions k = some r → ∃ r', tget t.regions k = some r' ∧ r.SameButHeap r'

theorem Region.SameButHeap.trans {r r1 r2 : Region} (h : r.SameButHeap r1) (h1 : r1.SameButHeap r2) : r.SameButHeap r2 := by
  rw [Region.SameButHeap] at h h1 ⊢
  rw [h1, h]

theorem State.KeepsRegions.refl (s : State) : s.KeepsRegions s := fun _ r h => ⟨r, h, rfl⟩

theorem State.KeepsRegions.trans {s t u : State} (h : s.KeepsRegions t) (h1 : t.KeepsRegions u) : s.KeepsRegions u := by
  intro k r hr
  obtain ⟨r1, hr1, hs⟩ := h k r hr
  obtain ⟨r2, hr2, hs1⟩ := h1 k r1 hr1
  exact ⟨r2, hr2, hs.trans hs1⟩

theorem State.KeepsRegions.foldl {α : Type} {f : State → α → State} (h : ∀ (s : State) (a : α), s.KeepsRegions (f s a)) (l : List α) (s : State) :
    s.KeepsRegions (l.foldl f s) :=
  List.foldlRecOn l f (.refl s) fun t ht a _ => ht.trans (h t a)

theorem State.KeepsRegisters.keepsRegions {s t : State} (h : s.KeepsRegisters t) : s.KeepsRegions t := by
  intro k r hr
  obtain ⟨r', hr', hs⟩ := h.2 k r hr
  rw [Region.SameButCaches] at hs
  exact ⟨r', hr', by rw [hs]; rfl⟩

theorem State.keepsRegions_putBuf (s : State) (o : TlbOf) (h : Nat) (b : Option HeapBuf) : s.KeepsRegions (s.putBuf o h b) := by
  cases o with
  | tile t => exact .refl s
  | core key =>
    intro k r hr
    unfold State.putBuf
    dsimp only
    split
    · next q hq =>
      by_cases hk : k = key
      · subst hk
        cases hq.symm.trans hr
        exact ⟨_, tget_tput_self .., rfl⟩
      · exact ⟨r, (tget_tput_ne _ _ _ _ hk).trans hr, rfl⟩
    · exact ⟨r, hr, rfl⟩

theorem State.keepsRegions_closeBuf (s : State) (o : TlbOf) (h : Nat) : s.KeepsRegions (s.closeBuf o h) := by
  unfold State.closeBuf
  split
  · exact (State.keepsRegisters_closePage ..).keepsRegions.trans (State.keepsRegions_putBuf _ o h none)
  · exact .refl s

/-! ### Halting (R102, R103, R105) -/

theorem State.tget_putRegion (s : State) (key : Nat) (r : Region) : tget (s.putRegion key r).regions key = some r := tget_tput_self ..

/-- A region whose waits, minor faults and image fetches are withdrawn. -/
def Region.withdrawn (r : Region) : Region :=
  { r.dropMinor with engines := r.engines.map fun e => { e with minor := false }, minor := false, waiting := false }

theorem State.tget_withdraw {s : State} {key : Nat} {r : Region} (h : tget s.regions key = some r) :
    tget (s.withdraw key).regions key = some r.withdrawn := by
  rw [State.withdraw, h]
  exact tget_tput_self ..

theorem State.withdraw_splits (s : State) (key : Nat) : (s.withdraw key).host.splits = s.host.splits := by
  unfold State.withdraw
  split <;> rfl

/-- A region as it halts, but for its caches and its allocation buffers. -/
def Region.haltedFor (r : Region) (why : RunState) : Region := Region.withdrawn { r.haltCore with run := why, haltDue := false }

theorem State.tget_haltRegion {s : State} {key : Nat} {r : Region} (h : tget s.regions key = some r) (why : RunState) :
    ∃ t, tget (s.haltRegion key why).regions key = some t ∧ (r.haltedFor why).SameButHeap t := by
  have core (u : State) : u.KeepsRegions ((List.range 16).foldl (fun s' h => s'.closeBuf (.core key) h) u) :=
    .foldl (fun u h => u.keepsRegions_closeBuf (.core key) h) _ u
  have tiles (u : State) : u.KeepsRegions (r.tiles.foldl (fun s' k => (List.range 16).foldl (fun s'' h => s''.closeBuf (.tile k) h) s') u) :=
    .foldl (fun u k => .foldl (fun u h => u.keepsRegions_closeBuf (.tile k) h) _ u) _ u
  rw [State.haltRegion, h]
  exact (core _).trans (tiles _) key _ (State.tget_withdraw (State.tget_putRegion ..))

/-- A block at work is kept once its effects are checked, but for a resize. -/
theorem Region.haltWork_checked {r : Region} {w : Work} (h : r.work = some w) (hc : w.checked = true) (hs : r.resizeStage w = none) :
    r.haltWork = some w := by simp [Region.haltWork, h, hc, hs]

theorem Region.haltWork_unchecked {r : Region} {w : Work} (h : r.work = some w) (hc : w.checked = false) : r.haltWork = none := by
  simp [Region.haltWork, h, hc]

section
variable {s : State} {key : Nat} {r : Region} (h : tget s.regions key = some r)
include h

/-- What a halt keeps of a region. -/
theorem State.haltRegion_keeps (why : RunState) : ∃ t, tget (s.haltRegion key why).regions key = some t ∧ t.run = why ∧ t.s = r.s ∧ t.h = r.h ∧
    t.cycle = r.cycle ∧ t.engines.length = r.engines.length ∧ t.work = r.haltWork := by
  obtain ⟨t, ht, same⟩ := State.tget_haltRegion h why
  rw [Region.SameButHeap] at same
  refine ⟨t, ht, ?_⟩
  rw [same]
  exact ⟨rfl, rfl, rfl, rfl, List.length_map .., rfl⟩

/-- A running region is pre-empted at once, unless its block resizes and has moved its panels. -/
theorem exec_preempt_halts (hc : r.cancelling = false) (hr : r.run = .running ∨ r.run = .brk) (hs : r.work.bind r.resizeStage ≠ some 2) :
    exec (.preempt key) s = .next (s.haltRegion key .preempted) := by
  change execPreempt key s = _
  rw [execPreempt, h]
  -- `hs` rules the arm of a resize out.
  rcases hr with hr | hr <;> simp only [hc, hr, Bool.false_eq_true, if_false]

theorem exec_preempt_waits (hc : r.cancelling = false) (hr : r.run = .running ∨ r.run = .brk) (hs : r.work.bind r.resizeStage = some 2) :
    exec (.preempt key) s = .next (s.putRegion key { r with haltDue := true }) := by
  change execPreempt key s = _
  rw [execPreempt, h]
  rcases hr with hr | hr <;> simp only [hc, hr, hs, Bool.false_eq_true, if_false]

end

/-! ### Parking (R103, R106 to R108) -/

theorem State.cairnAddScc_parked (s : State) (k : Nat) (n : Word) : (s.cairnAddScc k n).parked = s.parked := by
  rw [State.cairnAddScc]
  split <;> rfl

theorem State.replaceEnd_parked (s : State) : s.replaceEnd.parked = s.parked := by
  unfold State.replaceEnd
  split
  · split
    · rfl
    · exact State.cairnAddScc_parked ..
  · rfl

theorem State.freeRegion_parked (s : State) (key : Nat) : (s.freeRegion key).parked = s.parked := by
  unfold State.freeRegion
  split
  · rfl
  · exact State.replaceEnd_parked _

theorem State.tget_parkAs (s : State) (key pid : Nat) (r : Region) (part img : Option Nat) (res : Bool) (nc : Option Nat) :
    ∃ p, tget (s.parkAs key pid r part img res nc).parked pid = some p ∧ p.part = part ∧ p.image = img ∧ p.resident = res ∧
      p.region = { r with tlb := [], barrier := [] } ∧ p.tiles.length = r.total ∧
      p.splits.length = (s.host.splits.filter fun x => decide (x.key = key)).length := by
  unfold State.parkAs
  dsimp only
  rw [State.freeRegion_parked]
  split <;> exact ⟨_, tget_tput_self .., rfl, rfl, rfl, rfl, by simp, List.length_map ..⟩

theorem State.tget_park {s : State} {key : Nat} {r : Region} (h : tget s.regions key = some r) (pid : Nat) (part img : Option Nat) (res : Bool)
    (nc : Option Nat) : ∃ p, tget (s.park key pid part img res nc).parked pid = some p ∧ p.part = part ∧ p.image = img ∧ p.resident = res ∧
      p.region = { r.withdrawn with tlb := [], barrier := [] } ∧ p.tiles.length = r.total ∧
      p.splits.length = (s.host.splits.filter fun x => decide (x.key = key)).length := by
  rw [State.park, State.tget_withdraw h, ← State.withdraw_splits s key]
  exact State.tget_parkAs ..

/-! ### The exchange (R107, R108) -/

section
variable {s : State} {part : Nat} {e : Nat × Region}

theorem exec_bivouacExchange_only
    (only : (s.regions.filter fun e => decide (e.2.part = part ∧ e.2.run = .preempted) && !e.2.cancelling) = [e]) :
    exec (.bivouacExchange part) s = .next (if s.haltTurns e.1 e.2 = [] then s.exchange part e else s) := by
  change execBivouacExchange part s = _
  simp only [execBivouacExchange, only, List.foldl_cons, List.foldl_nil, List.isEmpty_iff]

theorem State.exchange_swap_only {t : State} (swap : s.exchangeSwap part e.1 e.2 = some t) (out : s.exchangeOut part e.1 e.2 = none) :
    s.exchange part e = t := by
  rw [State.exchange, out, swap]

theorem State.exchange_out_only (swap : s.exchangeSwap part e.1 e.2 = none) : s.exchange part e = (s.exchangeOut part e.1 e.2).getD s := by
  rw [State.exchange, swap]
  cases s.exchangeOut part e.1 e.2 <;> rfl

theorem State.exchangeOut_room {s1 : State} {key : Nat} {r : Region} (room : State.makeRoom part r [] 9 s = some s1) :
    s.exchangeOut part key r = some (s1.park key r.launch (some part) none true none) := by
  rw [State.exchangeOut, room]

theorem State.exchangeOut_full {key : Nat} {r : Region} (full : State.makeRoom part r [] 9 s = none) :
    s.exchangeOut part key r = (s.takeImage r).map fun a => a.2.park key r.launch none (some a.1) true none := by
  rw [State.exchangeOut, full]
end

/-! ### Resume (R92, R103, R108, R109) -/

section
variable {s : State} {pid : Nat} {p : Parked} {l : Launch} (hp : tget s.parked pid = some p) (hl : tget s.host.launches pid = some l)
  (stays : s.staysParked p l = false)
include hp hl stays

/-- A parked region that may run and has a place goes to one of its places; from a bivouac to another partition by way of the save area. -/
theorem exec_regionResume_goes (dies : (s.placementDies l.ctx).isEmpty = false)
    (places : ((s.resumeSpots p).filter fun q => !s.outranked l (dieOf q.part)) ≠ []) :
    ∃ q ∈ (s.resumeSpots p).filter fun q => !s.outranked l (dieOf q.part), exec (.regionResume pid) s =
      .next (if p.part = none ∨ p.part = some q.part then s.drawn.unpark pid p q else (s.drawn.spill pid p).getD s) := by
  obtain ⟨q, qs, spots⟩ := List.exists_cons_of_ne_nil places
  have lt : s.choice (qs.length + 1) < (q :: qs).length := s.choice_lt (Nat.succ_pos _)
  rw [spots]
  refine ⟨(q :: qs).getD (s.choice (qs.length + 1)) q, ?_, ?_⟩
  · rw [List.getD_eq_getElem _ _ lt]
    exact List.getElem_mem lt
  · change execRegionResume pid s = _
    simp only [execRegionResume, hp, hl, stays, dies, spots, Bool.false_eq_true, if_false, Option.isNone_iff_eq_none]
    split <;> rfl

/-- A parked region that no die can take is reported once. -/
theorem exec_regionResume_nowhere (dies : (s.placementDies l.ctx).isEmpty = true) :
    ∃ t, exec (.regionResume pid) s = .next t ∧ Report.noPlacement pid ∈ t.dev.reports ∧ t.parked = s.parked := by
  have resumed : exec (.regionResume pid) s = .next (if s.dev.reports.contains (.noPlacement pid) then s else s.report (.noPlacement pid)) := by
    change execRegionResume pid s = _
    simp only [execRegionResume, hp, hl, stays, dies, Bool.false_eq_true, if_false, if_true]
  refine ⟨_, resumed, ?_⟩
  split
  · next h => exact ⟨List.contains_iff_mem.mp h, rfl⟩
  · exact ⟨List.mem_append_right _ (List.mem_singleton.mpr rfl), rfl⟩
end

theorem State.staysParked_eq_false {s : State} {p : Parked} {l : Launch} (hr : p.resident = true) (hc : l.cancelled = false)
    (hj : l.phase ≤ tgetD s.host.phases (s.jobOf l.ctx) 0) : s.staysParked p l = false := by simp [State.staysParked, hr, hc, hj]

end Sys2Proof.Machine
end

section
/-! SUPPORT. The arbiter of a PE; copies of a pipeline stage, their mergers and their withdrawal (R98 to R101). -/

namespace Sys2Proof.Machine

/-! ### Sharing a PE (R98) -/

/-- A PE at the start of a window. -/
def Pe.windowed (p : Pe) : Pe :=
  { p with
    shares := if (p.occupancy.map fun e => e.2).sum = 0 then []
      else p.occupancy.map fun e => (e.1, e.2 * 4096 / (p.occupancy.map fun e => e.2).sum)
    occupancy := []
    window := 0
    dealt := [] }

/-- No node has more than the whole of a window. -/
theorem Pe.windowed_shares_le {p : Pe} {e : Nat × Nat} (h : e ∈ p.windowed.shares) : e.2 ≤ 4096 := by
  rw [Pe.windowed] at h
  dsimp only at h
  split at h
  · cases h
  · obtain ⟨o, ho, rfl⟩ := List.mem_map.mp h
    have part : o.2 ≤ (p.occupancy.map fun e => e.2).sum := List.le_sum_of_mem (List.mem_map_of_mem ho)
    exact Nat.div_le_of_le_mul (Nat.mul_le_mul_right 4096 part)

theorem exec_arbiterWindow (s : State) (tile pe : Nat) :
    exec (.arbiterWindow tile pe) s = .next (s.putTile tile ((s.tile tile).putPe pe ((s.tile tile).pe pe).windowed)) := rfl

/-! ### Replication (R99) -/

/-- The number that the next copy of a unit has. -/
def Region.nextCopy (r : Region) (bslot : Nat) : Nat := ((List.range 4).find? fun i => !(r.copies bslot).contains i).getD 3

/-- A unit with fewer than three copies beside it has a number left for one. -/
theorem Region.nextCopy_fresh {r : Region} {bslot : Nat} (h : (r.replicas.filter fun x => decide (x.bslot = bslot)).length < 3) :
    r.nextCopy bslot < 4 ∧ r.nextCopy bslot ∉ r.copies bslot := by
  have few : (r.copies bslot).length < 4 := by
    rw [Region.copies, List.length_cons, List.length_map]
    omega
  cases hf : (List.range 4).find? fun i => !(r.copies bslot).contains i with
  | some i =>
    rw [Region.nextCopy, hf]
    exact ⟨List.mem_range.mp (List.mem_of_find?_eq_some hf), by simpa using List.find?_some hf⟩
  | none =>
    have taken : List.range 4 ⊆ r.copies bslot := fun i hi => by simpa using List.find?_eq_none.mp hf i hi
    exact absurd (List.nodup_range.subperm taken).length_le (by simpa using few)

theorem State.mapNode_regions (s : State) (r : Region) (bslot : Nat) (m : Image) (q : Placed) : (s.mapNode r bslot m q).regions = s.regions := by
  unfold State.mapNode
  split <;> rfl

theorem State.mapNode_host (s : State) (r : Region) (bslot : Nat) (m : Image) (q : Placed) : (s.mapNode r bslot m q).host = s.host := by
  unfold State.mapNode
  split <;> rfl

/-- The splitter and mergers of a unit made, where it has none yet. -/
def State.withSplit (s : State) (key bslot : Nat) (r : Region) (b : Bif) : State :=
  if (s.splitOf key bslot).isSome then s
  else { s with host := { s.host with splits := s.host.splits ++ [s.newSplit key bslot r b] } }

theorem State.withSplit_mem (s : State) (key bslot : Nat) (r : Region) (b : Bif) : (s.withSplit key bslot r b).mem = s.mem := by
  rw [State.withSplit]
  split <;> rfl

theorem State.withSplit_splits (s : State) (key bslot : Nat) (r : Region) (b : Bif) :
    (s.withSplit key bslot r b).host.splits = s.host.splits ++ (if (s.splitOf key bslot).isSome then [] else [s.newSplit key bslot r b]) := by
  rw [State.withSplit]
  split
  · exact (List.append_nil _).symm
  · rfl

/-- Where the tiles of a copy stand: the tile each is a copy of, and its distances from the region's origin. -/
def Region.placesOn (r : Region) (own free : List Nat) : List (Nat × Nat × Nat) :=
  (own.zip free).map fun p => ((r.ownTile p.1).getD 0, p.2 % 16 + 16 - r.x0, p.2 / 16 % 8 + 16 - r.y0)

/-- A unit with a copy on free tiles. -/
def State.withCopy (s : State) (key bslot : Nat) (r : Region) (b : Bif) (free : List Nat) (ps : List Placed) : State :=
  ps.foldl (fun s' q => s'.mapNode r bslot b.image q)
    (((s.withSplit key bslot r b).emptyTiles free).putRegion key
      { r with replicas := r.replicas ++ [⟨bslot, r.nextCopy bslot, r.placesOn (maskTiles r b) free, false, false⟩] })

section
variable (s : State) (key bslot : Nat) (r : Region) (b : Bif) (free : List Nat) (ps : List Placed)

theorem State.tget_withCopy : tget (s.withCopy key bslot r b free ps).regions key =
    some { r with replicas := r.replicas ++ [⟨bslot, r.nextCopy bslot, r.placesOn (maskTiles r b) free, false, false⟩] } := by
  rw [State.withCopy, State.foldl_keeps (part := State.regions) fun s q => s.mapNode_regions r bslot b.image q]
  exact tget_tput_self ..

theorem State.withCopy_mem : (s.withCopy key bslot r b free ps).mem = s.mem := by
  rw [State.withCopy, State.foldl_mem fun s q => s.mapNode_mem r bslot b.image q]
  exact s.withSplit_mem ..

theorem State.withCopy_splits : (s.withCopy key bslot r b free ps).host.splits =
    s.host.splits ++ (if (s.splitOf key bslot).isSome then [] else [s.newSplit key bslot r b]) := by
  rw [State.withCopy, State.foldl_keeps (part := State.host) fun s q => s.mapNode_host r bslot b.image q]
  exact s.withSplit_splits ..
end

section
variable {s : State} {key bslot : Nat} {r : Region} {b : Bif} (hr : tget s.regions key = some r) (hb : tget r.blocks bslot = some b)
  {own free : List Nat} {mine : List Replica} {use : StageUse} (ho : maskTiles r b = own) (hf : (s.adjoining r).take own.length = free)
  (hm : (r.replicas.filter fun x => decide (x.bslot = bslot)) = mine) (hu : tgetD s.host.stages (key * 8 + bslot) ⟨0, 0, 0⟩ = use)
include hr hb ho hf hm hu

/-- A stage is not replicated without its feature, where it is not elastic, without free tiles, where it is not busy, or with three copies. -/
theorem exec_replicate_refused
    (h : s.featenN.testBit 11 = false ∨ b.elastic = false ∨ free.length < own.length ∨ 4 * use.last < 3 * 4096 ∨ 3 ≤ mine.length) :
    exec (.replicate key bslot) s = .next s := by
  change execReplicate key bslot s = _
  simp only [execReplicate, hr, hb, ho, hf, hm, hu]
  refine if_pos ?_
  rcases h with h | h | h | h | h <;> simp [h]

/-- Else it has one more copy, if its nodes find room on the free tiles. -/
theorem exec_replicate_copies (feature : s.featenN.testBit 11 = true) (run : r.run = .running) (hc : r.cancelling = false) (elastic : b.elastic = true)
    (room : free.length = own.length) (busy : 3 * 4096 ≤ 4 * use.last) (few : mine.length < 3) (stay : ∀ x ∈ mine, x.draining = false)
    (going : s.unitEnding r b bslot = false) {ps : List Placed}
    (place : placeNodes (fun _ _ => ⟨0, 0, 0⟩) (fun tile p => (s.tile tile).fenced.contains p) b.image bslot free (List.range (b.image.hdr.ncnt + 1)) [] [] =
      .ok ps) : exec (.replicate key bslot) s = .next (s.withCopy key bslot r b free ps) := by
  have none_draining : (mine.any fun x => x.draining) = false := List.any_eq_false.mpr fun x hx => by simp [stay x hx]
  change execReplicate key bslot s = _
  simp only [execReplicate, hr, hb, ho, hf, hm, hu, place]
  rw [if_neg (by simp [feature, run, hc, elastic, room, none_draining, going, Nat.not_lt.mpr busy, Nat.not_le.mpr few])]
  subst ho
  rfl
end

/-! ### Withdrawal (R101) -/

section
variable {s : State} {key bslot : Nat} {r : Region} {b : Bif} {y : Split} {x : Replica} {xs : List Replica} (hr : tget s.regions key = some r)
  (hb : tget r.blocks bslot = some b) (hy : s.splitOf key bslot = some y) (run : r.run = .running)
  (last : (r.replicas.filter fun x => decide (x.bslot = bslot)).reverse = x :: xs)
include hr hb hy run last

/-- Dealing to the last copy stops where the dispatch unit needs tiles. -/
theorem exec_replicaWithdraw_drains (hd : x.draining = false) : exec (.replicaWithdraw key bslot) s = .next (if s.tilesNeeded (dieOf r.part)
    then s.putRegion key { r with replicas := r.replicas.map fun w => if w = x then { x with draining := true } else w } else s) := by
  change execReplicaWithdraw key bslot s = _
  simp only [execReplicaWithdraw, hr, hb, hy, last, run, hd, ne_eq, not_true_eq_false, if_false, Bool.not_false, if_true]

/-- A copy that has drained is sent TEAR. -/
theorem exec_replicaWithdraw_tears (hd : x.draining = true) (ht : x.torn = false) : exec (.replicaWithdraw key bslot) s =
    .next (if s.copyTags r b y x.id = [] then (s.tearCopy r b bslot x).putRegion key
      { r with replicas := r.replicas.map fun w => if w = x then { x with torn := true } else w } else s) := by
  change execReplicaWithdraw key bslot s = _
  simp only [execReplicaWithdraw, hr, hb, hy, last, run, hd, ht, ne_eq, not_true_eq_false, if_false, Bool.not_true, Bool.not_false, Bool.false_eq_true,
    if_true, List.isEmpty_iff]

/-- A copy that has torn down is removed. -/
theorem exec_replicaWithdraw_drops (hd : x.draining = true) (ht : x.torn = true) : exec (.replicaWithdraw key bslot) s =
    .next (if s.unitNodes r.ctx bslot (x.places.map r.placeKey) = [] then s.dropCopy key bslot r x else s) := by
  change execReplicaWithdraw key bslot s = _
  simp only [execReplicaWithdraw, hr, hb, hy, last, run, hd, ht, ne_eq, not_true_eq_false, if_false, Bool.not_true, Bool.false_eq_true, List.isEmpty_iff]
end

/-! ### Mergers (R100) -/

theorem Split.headOf_some {x : Split} {arc id : Nat} {h : MergeTok} (hh : x.headOf arc id = some h) : h ∈ x.held ∧ h.chan.src = arc := by
  rw [Split.headOf] at hh
  have found := List.find?_some hh
  exact ⟨List.mem_of_find?_eq_some hh, (of_decide_eq_true found).2⟩

/-- A search for the lowest tag through a list finds one of it, of the lowest tag. -/
theorem foldl_lowest {α : Type} {tag : α → Nat} {f : Option α → α → Option α} (first : ∀ a, f none a = some a)
    (next : ∀ m a, f (some m) a = if tag a < tag m then some a else some m) {l : List α} {a : α} (h : l.foldl f none = some a) :
    a ∈ l ∧ ∀ c ∈ l, tag a ≤ tag c := by
  have lowest : ∀ (l : List α) (m : α), l.foldl f (some m) = some a → (a = m ∨ a ∈ l) ∧ tag a ≤ tag m ∧ ∀ c ∈ l, tag a ≤ tag c := by
    intro l
    induction l with
    | nil =>
      intro m h
      cases h
      exact ⟨.inl rfl, Nat.le_refl _, fun c hc => by cases hc⟩
    | cons b l ih =>
      intro m h
      rw [List.foldl_cons, next] at h
      split at h <;>
      · obtain ⟨hm, hle, hl⟩ := ih _ h
        simp only [List.mem_cons, forall_eq_or_imp]
        exact ⟨by tauto, by omega, by omega, hl⟩
  cases l with
  | nil => cases h
  | cons b l =>
    rw [List.foldl_cons, first] at h
    obtain ⟨hm, hle, hl⟩ := lowest l b h
    exact ⟨List.mem_cons.mpr hm, List.forall_mem_cons.mpr ⟨hle, hl⟩⟩

section
variable {s : State} {r : Region} {b : Bif} {x : Split} {arc : Nat}

/-- Once TEAR stands first from every copy, a merger emits one and holds none of the arc. -/
theorem State.mergeArc_tears (h : ∀ id ∈ r.copies x.bslot, ∃ h, x.headOf arc id = some h ∧ h.chan.tok.flags.tear = true) :
    ∃ h z, s.mergeArc r b x arc = some (h, z) ∧ h.chan.tok.flags.tear = true ∧ ∀ g ∈ z.held, ¬ (g.chan.src = arc ∧ g.chan.tok.flags.tear = true) := by
  obtain ⟨h0, head, tear⟩ := h 0 List.mem_cons_self
  have all : ((r.copies x.bslot).all fun id => (x.headOf arc id).any fun h => h.chan.tok.flags.tear) = true :=
    List.all_eq_true.mpr fun id hid => by
      obtain ⟨g, hg, ht⟩ := h id hid
      rw [hg]
      exact ht
  have heads : ((r.copies x.bslot).filterMap (x.headOf arc)).head? = some h0 := by
    rw [Region.copies, List.filterMap_cons_some head]
    rfl
  refine ⟨h0, { x with held := x.held.filter fun g => !(decide (g.chan.src = arc) && g.chan.tok.flags.tear) }, ?_, tear, fun g hg => ?_⟩
  · rw [State.mergeArc, if_pos all, heads]
    rfl
  · rintro ⟨src, tear⟩
    have kept := (List.mem_filter.mp hg).2
    simp [src, tear] at kept

/-- A token that a merger emits stands first from its copy, and no copy can still send one of a lower ITAG on the arc. -/
theorem State.mergeArc_token {h : MergeTok} {z : Split} (hm : s.mergeArc r b x arc = some (h, z)) (token : h.chan.tok.flags.tear = false) :
    h ∈ x.held ∧ h.chan.src = arc ∧ ∀ id ∈ r.copies x.bslot,
      (∀ g, x.headOf arc id = some g → g.chan.tok.flags.tear = false → h.chan.tok.itag.toNat ≤ g.chan.tok.itag.toNat) ∧
      (x.headOf arc id = none → ∀ j ∈ s.copyTags r b x id, h.chan.tok.itag.toNat ≤ j) := by
  unfold State.mergeArc at hm
  dsimp only at hm
  split at hm
  case isTrue all =>
    obtain ⟨g, hg, he⟩ := Option.map_eq_some_iff.mp hm
    cases he
    obtain ⟨id, hid, head⟩ := List.mem_filterMap.mp (List.mem_of_mem_head? hg)
    have tear := List.all_eq_true.mp all id hid
    rw [head, Option.any_some, token] at tear
    cases tear
  case isFalse =>
    split at hm
    · cases hm
    · next g lowest =>
      split at hm
      · cases hm
      · next waits =>
        cases hm
        obtain ⟨mem, le⟩ := foldl_lowest (tag := fun h : MergeTok => h.chan.tok.itag.toNat) (fun _ => rfl) (fun _ _ => rfl) lowest
        obtain ⟨id0, -, head⟩ := List.mem_filterMap.mp (List.mem_filter.mp mem).1
        obtain ⟨held, src⟩ := Split.headOf_some head
        refine ⟨held, src, fun id hid => ⟨fun g hg ht => ?_, fun hn j hj => ?_⟩⟩
        · exact le g (List.mem_filter.mpr ⟨List.mem_filterMap.mpr ⟨id, hid, hg⟩, by rw [ht]; rfl⟩)
        · by_contra lt
          refine waits (Bool.or_eq_true_iff.mpr (.inl (List.any_eq_true.mpr ⟨id, hid, ?_⟩)))
          rw [hn]
          exact List.any_eq_true.mpr ⟨j, hj, decide_eq_true (by omega)⟩
end

end Sys2Proof.Machine
end

section
/-! SUPPORT. Image fetches of the configuration cache (R93). -/

namespace Sys2Proof.Machine

/-- A read at a home here changes nothing but memory. -/
theorem State.loadLocal_eq (s : State) (a n : Nat) : ∃ m, (s.loadLocal a n).2 = { s with mem := m } := by
  unfold State.loadLocal
  split
  · exact ⟨_, rfl⟩
  · refine ⟨s.mem, ?_⟩
    dsimp only
    (repeat' split) <;> rfl

theorem State.loadNow_eq (s : State) (a n : Nat) : ∃ m, (s.loadNow a n).2.2 = { s with mem := m } := by
  have pieces : ∀ (ps : List (Nat × Nat)) (s : State), ∃ m, (State.loadPieces ps s).2.2 = { s with mem := m } := by
    intro ps
    induction ps with
    | nil => exact fun s => ⟨s.mem, rfl⟩
    | cons p ps ih =>
      intro s
      obtain ⟨m1, h1⟩ := s.loadLocal_eq (localOf p.1) p.2
      obtain ⟨m2, h2⟩ := ih (s.loadLocal (localOf p.1) p.2).2
      exact ⟨m2, show (State.loadPieces ps (s.loadLocal (localOf p.1) p.2).2).2.2 = _ by rw [h2, h1]⟩
  exact pieces _ s

/-- An image for which there is room is the first of its partition, and its fetch is over. -/
theorem State.imageCame_caches {s : State} {f : Fetch} {l : List CfgImage} (room : s.imageRoom f.part = some l) (bs : List Byte) :
    (s.imageCame f bs).caches = { s.caches with
      fetches := s.caches.fetches.filter fun g => decide (g ≠ f)
      cfg := tput s.caches.cfg f.part (⟨f.ctx, f.addr, imageOf bs⟩ :: l) } := by
  rw [State.imageCame, room]
  dsimp only
  split <;> rfl

section
variable {s : State} {idx : Nat} {f : Fetch} (hf : s.caches.fetches[idx]? = some f) (going : f.failed = none)
include hf going

/-- An image at a home here is read in one step. -/
theorem exec_configFetchDone_here (here : s.isLocal (s.target f.ctx f.pa) = true) : ∃ (s2 : State) (bs : List Byte),
    exec (.configFetchDone idx) s = .next (s2.imageCame f bs) ∧ s2.regions = s.regions ∧ s2.caches.cfg = s.caches.cfg := by
  let head := s.loadNow (s.target f.ctx f.pa) 12
  let whole := head.2.2.loadNow (s.target f.ctx f.pa) (imageLen (recAt head.1 0))
  obtain ⟨m1, h1⟩ : ∃ m, head.2.2 = { s with mem := m } := s.loadNow_eq ..
  obtain ⟨m2, h2⟩ : ∃ m, whole.2.2 = { head.2.2 with mem := m } := head.2.2.loadNow_eq ..
  refine ⟨whole.2.2, whole.1, ?_, by rw [h2, h1], by rw [h2, h1]⟩
  change execConfigFetchDone idx s = _
  simp only [execConfigFetchDone, hf, going, Option.isSome_none, Bool.false_eq_true, if_false, here, if_true]
  rfl

/-- An image of a remote home has come once its sectors have. -/
theorem exec_configFetchDone_came (remote : s.isLocal (s.target f.ctx f.pa) = false) {h bs : List Byte} (head : f.bytes 1 = some h)
    (whole : f.bytes ((imageLen (recAt h 0) + 63) / 64) = some bs) : exec (.configFetchDone idx) s = .next (s.imageCame f bs) := by
  change execConfigFetchDone idx s = _
  simp only [execConfigFetchDone, hf, going, Option.isSome_none, Bool.false_eq_true, if_false, remote, head, whole]
end

end Sys2Proof.Machine
end

section
open Sys2Proof Sys2Proof.Machine

/-- Settles O57, event by event. What a choice that can be made takes, and when (log 19), which parked regions an exchange spills (log 41), that an event whose
condition does not hold leaves the machine as it is (log 78), and when a stage is busy, is merged and loses its copies (log 82) are the model's choice. -/
theorem dispatchEvents : Obligations.DispatchEvents := by
  unfold Obligations.DispatchEvents
  refine ⟨?choice, ?turn, ?place, ?mode, ?preempt, ?halt, ?leave, ?out, ?swap, ?park, ?resume, ?arbiter, ?replicate, ?withdraw, ?tears, ?token, ?fetch, ?image⟩
  case choice =>
    intro s die hd can idle
    have idle_none (q : Nat) (h : idle q) : s.prioChoice die q = none := State.prioChoice_idle h.1 h.2
    refine ⟨fun p hp above => ?_, fun h => exec_dispatchChoice_idle hd (State.dieChoice_idle fun q hq => idle_none q (h q hq))⟩
    have decides {c} := State.dieChoice_highest (c := c) hp fun q hq h8 => idle_none q (above q hq h8)
    exact ⟨fun hc => exec_dispatchChoice_places hd (decides (if_pos hc)), fun ks hc hk => exec_dispatchChoice_preempts hd
      (decides (by rw [State.prioChoice, if_neg (Bool.eq_false_iff.mp hc), hk]; rfl))⟩
  case turn =>
    exact fun s die p lid l q only empty place => ⟨_, State.serveRound_only only empty place, rfl, rfl⟩
  case place =>
    intro s lid l q t
    exact ⟨(s.tget_place_regions lid l q _).trans (if_pos rfl), s.tget_place_launches lid l q,
      fun k hk => (s.tget_place_regions lid l q k).trans (if_neg hk), s.place_mem lid l q⟩
  case mode =>
    exact fun s part e here => exec_l2ModeSwitch here
  case preempt =>
    exact fun s key r h hc hr => ⟨exec_preempt_halts h hc hr, exec_preempt_waits h hc hr⟩
  case halt =>
    intro s key r why h
    obtain ⟨t, ht, run, hs, hh, cycle, engines, work⟩ := State.haltRegion_keeps h why
    exact ⟨t, ht, run, hs, hh, cycle, engines, fun w hw hc hz => work.trans (Region.haltWork_checked hw hc hz),
      fun w hw hc => work.trans (Region.haltWork_unchecked hw hc)⟩
  case leave =>
    intro s part e only
    have ran := exec_bivouacExchange_only only
    exact ⟨fun h => ran.trans (congrArg _ (if_neg h)), fun h => ran.trans (congrArg _ (if_pos h))⟩
  case out =>
    intro s part e swap
    rw [State.exchange_out_only swap]
    refine ⟨fun s1 room => by rw [State.exchangeOut_room room]; rfl, fun full => ?_⟩
    rw [State.exchangeOut_full full]
    exact ⟨fun a s1 image => by rw [image]; rfl, fun none => by rw [none]; rfl⟩
  case swap =>
    exact fun s s1 part e => State.exchange_swap_only
  case park =>
    intro s key pid r part img res nc h
    obtain ⟨p, hp, hpart, himg, hres, region, tiles, splits⟩ := State.tget_park h pid part img res nc
    refine ⟨p, hp, hpart, himg, hres, ?_⟩
    rw [region]
    exact ⟨rfl, rfl, rfl, rfl, rfl, tiles, splits⟩
  case resume =>
    intro s pid p l hp hl hr hc hj spots
    have stays := State.staysParked_eq_false hr hc hj
    refine ⟨fun dies places => ?_, exec_regionResume_nowhere hp hl stays⟩
    obtain ⟨q, hq, goes⟩ := exec_regionResume_goes hp hl stays dies places
    exact ⟨q, hq, fun here => goes.trans (congrArg _ (if_pos here)), fun h0 h1 => goes.trans (congrArg _ (if_neg (by tauto)))⟩
  case arbiter =>
    intro s tile pe
    refine ⟨_, exec_arbiterWindow s tile pe, ?_⟩
    simp only [State.tile_putTile, Tile.pe_putPe]
    exact ⟨rfl, rfl, fun e => Pe.windowed_shares_le, rfl, fun k hk => s.tile_putTile_ne tile k _ hk⟩
  case replicate =>
    intro s key bslot r b hr hb own free mine use
    refine ⟨exec_replicate_refused hr hb rfl rfl rfl rfl, fun feature run hc elastic room busy few stay going ps place => ?_⟩
    have fresh := Region.nextCopy_fresh few
    refine ⟨_, r.nextCopy bslot, r.placesOn own free, exec_replicate_copies hr hb rfl rfl rfl rfl feature run hc elastic room busy few stay going place,
      fresh.1, fresh.2, ?_, State.tget_withCopy .., State.withCopy_mem .., State.withCopy_splits ..⟩
    simp [Region.placesOn, room]
  case withdraw =>
    exact fun s key bslot r b y x xs hr hb hy run last => ⟨exec_replicaWithdraw_drains hr hb hy run last, exec_replicaWithdraw_tears hr hb hy run last,
      exec_replicaWithdraw_drops hr hb hy run last⟩
  case tears =>
    exact fun s r b x arc h _ => State.mergeArc_tears h
  case token =>
    exact fun s r b x arc h z => State.mergeArc_token
  case fetch =>
    exact fun s idx f hf going => ⟨exec_configFetchDone_here hf going, fun remote h bs => exec_configFetchDone_came hf going remote⟩
  case image =>
    intro s f bs l room
    rw [State.imageCame_caches room]
    refine ⟨?_, fun h => ?_⟩
    · rw [tgetD_tput, if_pos rfl]
    · exact of_decide_eq_true (List.mem_filter.mp h).2 rfl

end

section
/-! SUPPORT. The registers that a launch finds, and the turns that run a decoded record (R68, R111, R126, R292). -/

namespace Sys2Proof.Machine

/-! ### Registers (R68, R111) -/

/-- Three registers have a value of the launch's own; the other 29 are zero. -/
theorem readS_newRegion (s : State) (lid : Nat) (l : Launch) (p : Spot) (n : BitVec 5) :
    readS (newRegion s lid l p).s n = if n = 1 then l.arg0 else if n = 2 then l.arg1 else 0 := by
  by_cases h0 : n = 0
  · subst h0; rfl
  by_cases h1 : n = 1
  · subst h1; rfl
  by_cases h2 : n = 2
  · subst h2; rfl
  obtain ⟨k, hk⟩ : ∃ k, n.toNat = k + 3 := ⟨n.toNat - 3, by bv_omega⟩
  rw [if_neg h1, if_neg h2, readS, if_neg h0, hk]
  change (List.replicate 29 (0 : Word)).getD k 0 = 0
  rw [List.getD_eq_getElem?_getD, List.getElem?_replicate]
  split <;> rfl

/-! ### Turns of records (R126, R292) -/

theorem State.recordOf_of_decode {s : State} {key : Nat} {r : Region} {w : Work} {b : Bif} {x : Rec96} {i : Instr} (hr : tget s.regions key = some r)
    (hw : r.work = some w) (hb : tget r.blocks w.slot = some b) (hx : b.image.recs[w.pc]? = some x) (hi : Decode.record x = .ok i) :
    s.recordOf key = some i := by
  simp only [State.recordOf, hr, hw, hb, hx, hi]

/-- A node record is a record that decodes. -/
theorem record_of_nodeRecOf {x : Rec96} {i : Instr} {c : Rules.NodeRule} {n : NodeRec} (h : nodeRecOf x = some (i, c, n)) : Decode.record x = .ok i := by
  unfold nodeRecOf at h
  split at h
  · next j hj =>
    split at h
    · cases h; exact hj
    · cases h
  · cases h

theorem State.nodeOf_of_decode {s : State} {tile idx : Nat} {f : Firing} {n : NodeInst} {i : Instr} (hf : (s.tile tile).ready[idx]? = some f)
    (hn : (s.tile tile).inst f.pe f.slot = some n) (hi : Decode.record n.bits = .ok i) : s.nodeOf tile idx = some i := by
  rw [Tile.inst] at hn
  simp only [State.nodeOf, hf, hn, hi]

/-- A turn that has an instruction runs it for the agent it serves. -/
theorem performTurn_of_turnInstr {s : State} {t : Turn} {i : Instr} {a : Actor} (ht : t ≠ .tick) (h : s.turnInstr t = some (i, a)) :
    performTurn t s = exec i (s.serving a) := by
  rw [performTurn, if_neg ht, h]

theorem State.turnInstr_record {s : State} {key : Nat} {i : Instr} (h : s.recordOf key = some i) : s.turnInstr (.record key) = some (i, .core key) := by
  rw [State.turnInstr, h, Option.map_some]

theorem State.turnInstr_fire {s : State} {tile idx : Nat} {i : Instr} (h : s.nodeOf tile idx = some i) :
    s.turnInstr (.fire tile idx) = some (i, .fire tile idx) := by
  rw [State.turnInstr, h, Option.map_some]

end Sys2Proof.Machine

open Sys2Proof Sys2Proof.Machine

/-- Settles O14: what a register file answers, and what stands in the one a launch is placed with. -/
theorem scalarRegisterZero : Obligations.ScalarRegisterZero := by
  unfold Obligations.ScalarRegisterZero
  exact ⟨fun rs v => ⟨readS_zero rs, writeS_zero rs v⟩, fun rs n k v hl hn => readS_writeS rs n k v hl hn,
    fun s lid l p n => ⟨rfl, readS_newRegion s lid l p n⟩⟩

/-- Settles O4: the posted turn is the next, and it finds the record or the node that stands there. -/
theorem stepRunsDecodedRecord : Obligations.StepRunsDecodedRecord := by
  unfold Obligations.StepRunsDecodedRecord
  constructor
  · intro s ts key r w b x i ha hr hw hb hx hi
    have turn := State.turnInstr_record (s := { s with agenda := ts }) (State.recordOf_of_decode hr hw hb hx hi)
    exact (step_agenda ha).trans (performTurn_of_turnInstr (by nofun) turn)
  · rintro s ts tile idx f n i ha hf hn ⟨c, m, hi⟩
    have turn := State.turnInstr_fire (s := { s with agenda := ts }) (State.nodeOf_of_decode hf hn (record_of_nodeRecOf hi))
    exact (step_agenda ha).trans (performTurn_of_turnInstr (by nofun) turn)
end

section
/-! SUPPORT. A token on an arc within its tile (R127, R131, Table 5.7). -/

namespace Sys2Proof.Machine

/-- Only a LAST token counts at taps (R197). -/
theorem State.tapArc_of_not_last (s : State) (key : Nat) (img : Image) (node k : Nat) {tok : Token} (f : FaultRec) (h : tok.flags.last = false) :
    s.tapArc key img node k tok f = s := by
  simp [State.tapArc, h]

/-- A token as it travels from one end of an arc to port `p` of node `m`, on PE `pe` of the same tile: one cycle on its own PE, two between PEs. -/
def Src1.localTok (q : Src1) (k : Nat) (p : Port) (m pe : Nat) (tok : Token) : ChanTok :=
  ⟨{ tok with ctx := q.rg.ctx, bslot := q.bslot, node := m, port := p, copy := 0 }, arcOf q.tile q.bslot q.node 0 k,
    q.lat + (if q.pe = pe then 1 else 2), if q.pe = pe then 1 else 2, true, .node⟩

/-- Outside TMR groups an arc within a tile has one end, in the channels of that tile. -/
theorem State.sendNode_local {s : State} {q : Src1} {m pe slot : Nat} (mine : q.blk.image.tmrOf q.node = none) (theirs : q.blk.image.tmrOf m = none)
    (copy : q.copy = 0) (home : homeTile (instTiles q.rg q.blk q.tile) q.tile 0 = q.tile)
    (place : (s.tile q.tile).findNode q.rg.ctx q.bslot m 0 = some (pe, slot)) (k : Nat) (p : Port) (tok : Token) :
    s.sendNode q k p m tok = s.toChan q.tile (q.localTok k p m pe tok) := by
  simp [State.sendNode, Src1.localTok, travel, mine, theirs, copy, home, place]

theorem State.chans_toChan (s : State) (tile : Nat) (c : ChanTok) : ((s.toChan tile c).tile tile).chans = (s.tile tile).chans ++ [c] := by
  rw [State.toChan, State.tile_putTile]

end Sys2Proof.Machine

open Sys2Proof Sys2Proof.Machine

/-- Settles O49: no tap counts the token, and outside TMR groups its arc has one end, in a channel of the tile, a path of one or two cycles away. -/
theorem tokenTravels : Obligations.TokenTravels := by
  unfold Obligations.TokenTravels
  intro s q n k p m tok r target last mine theirs copy home pe slot place
  have sent : s.emit q n k tok r = s.toChan q.tile (q.localTok k p m.toNat pe tok) := by
    rw [State.emit, target, State.tapArc_of_not_last _ _ _ _ _ _ last]
    exact State.sendNode_local mine theirs copy home place k p tok
  rw [sent]
  exact ⟨State.chans_toChan .., fun j hj => State.tile_putTile_ne _ _ _ _ hj, rfl, rfl, rfl, rfl⟩
end

section
/-! SUPPORT. Control blocks: fetch, the start of evaluation, the commit (R122 to R124, R292). -/

namespace Sys2Proof.Machine

/-! ### Fetch (R122, R444) -/

section
variable {s s1 : State} {key a slot : Nat} {r r1 : Region} {m : Image} (hr : tget s.regions key = some r) (next : r.nextFetch = some a)
  (room : r.freeSlot = some slot) (can : s.canFetch r = true) (image : s.wantImage key r a = .ok s1 (some m)) (hr1 : tget s1.regions key = some r1)
include hr next room can image hr1

theorem exec_blockFetch_control (hc : m.hdr.control = true) :
    exec (.blockFetch key) s = .next ((s1.touchImage r.part r.ctx (r.redirected a)).putRegion key (r1.takeControl slot a m m.fixedNext)) := by
  change execBlockFetch key s = _
  simp only [execBlockFetch, hr, next, room, can, image, hr1, hc, Bool.not_true, Bool.false_eq_true, if_false, if_true]

/-- A fabric block is issued where no block before it is in flight. -/
theorem exec_blockFetch_fabric (hc : m.hdr.control = false) (first : r.fetched = []) (idle : r.work = none) :
    exec (.blockFetch key) s = .next (s1.putRegion key (r1.issueReached slot a m)) := by
  change execBlockFetch key s = _
  simp [execBlockFetch, hr, next, room, can, image, hr1, hc, first, idle]
end

/-! ### The start of evaluation (R96, R123) -/

theorem State.beginBlock_of_decodes {s : State} {r : Region} {b : Bif} (feats : featsIn b.image.hdr.freq (s.diefeat (dieOf r.part)) = true)
    (decodes : b.image.decodes = true) (key slot : Nat) : s.beginBlock key r slot b = s.putWork key (Work.start r slot) := by
  simp [State.beginBlock, feats, decodes]

theorem exec_blockCommit_begins {s : State} {key slot : Nat} {r : Region} {b : Bif} (hr : tget s.regions key = some r) (live : r.live = true)
    (idle : r.work = none) (head : r.fetched.head? = some slot) (hb : tget r.blocks slot = some b) (mark : r.replaceMark = false)
    (mode : s.modeDue r = false) (held : r.heldByRunw = false) (trap : r.trapDue = false) :
    exec (.blockCommit key) s = .next (s.beginBlock key r slot b) := by
  change execBlockCommit key s = _
  simp [execBlockCommit, hr, live, idle, head, hb, mark, mode, held, trap]

/-! ### The commit (R124, R299) -/

theorem exec_blockCommit_commits {s : State} {key : Nat} {r : Region} {w : Work} {b : Bif} (hr : tget s.regions key = some r) (live : r.live = true)
    (hw : r.work = some w) (hb : tget r.blocks w.slot = some b) (ended : b.image.recs.length ≤ w.pc) (trap : w.checked = true ∨ r.trapDue = false) :
    exec (.blockCommit key) s = .next (s.commitBlock ⟨key, r, w, b⟩) := by
  have goes : ¬ (w.pc < b.image.recs.length ∨ (w.checked = false ∧ r.trapDue = true)) := by
    rintro (h | ⟨hc, ht⟩)
    · omega
    · simp [hc, ht] at trap
  change execBlockCommit key s = _
  simp [execBlockCommit, hr, live, hw, hb, if_neg goes]

section
variable {c : CSite} (halt : c.w.ending = .halt)
include halt

/-- Control flow goes no further than HALT. -/
theorem State.reached_of_halt (s : State) (next : Nat) : s.reached c next = .plain s := by
  simp [State.reached, halt]

/-- HALT dominates a TRAP #code of the same block (log 63). -/
theorem State.endCommit_of_halt (cancels : c.w.cancels = []) (due : c.rg.haltDue = false) (s : State) (next : Nat) :
    s.endCommit c next = s.advanceAll c.w.empties := by
  simp only [State.endCommit, cancels, due, halt, if_true]
  cases c.w.trapCode <;> rfl

theorem State.commitBlock_of_halt {s : State} (hr : tget s.regions c.key = some c.rg) (cancels : c.w.cancels = []) (due : c.rg.haltDue = false) :
    s.commitBlock c = (s.putRegion c.key { (c.rg.committed c.w) with haltAfter := true, nextFetch := none }).advanceAll c.w.empties := by
  rw [State.commitBlock, State.reached_of_halt halt]
  simp only [hr, State.endCommit_of_halt halt cancels due, Region.follow, halt]
end

/-- The commit of a block without status writes. -/
theorem Region.committed_of_no_writes {w : Work} (h : w.csrw = []) (r : Region) : r.committed w = { r with
    s := w.s
    h := w.h
    queue := r.queue.filter fun f => !w.pops.contains f.seq
    blocks := tdel r.blocks w.slot
    fetched := r.fetched.filter fun n => decide (n ≠ w.slot)
    work := none
    trapped := false } := by
  rw [Region.committed, h]
  rfl

end Sys2Proof.Machine
end

section
/-! SUPPORT. Fabric blocks: mapping, refusal, completion (R125, R132, R194, R286, R300). -/

namespace Sys2Proof.Machine

/-! ### Mapping (R125, R299) -/

theorem State.mapNode_cairn (s : State) (rg : Region) (bslot : Nat) (m : Image) (q : Placed) : (s.mapNode rg bslot m q).cairn = s.cairn := by
  unfold State.mapNode
  split <;> rfl

/-- The machine with a unit mapped on all its tiles. -/
def State.withMapped (s : State) (key bslot : Nat) (rg : Region) (b : Bif) (ps : List Placed) : State :=
  (ps.foldl (fun s' q => s'.mapNode rg bslot b.image q) s).putRegion key { rg with blocks := tput rg.blocks bslot { b with phase := .mapped } }

theorem State.withMapped_mem (s : State) (key bslot : Nat) (rg : Region) (b : Bif) (ps : List Placed) : (s.withMapped key bslot rg b ps).mem = s.mem :=
  State.foldl_keeps (part := State.mem) (fun u q => u.mapNode_mem rg bslot b.image q) ps s

theorem State.withMapped_cairn (s : State) (key bslot : Nat) (rg : Region) (b : Bif) (ps : List Placed) : (s.withMapped key bslot rg b ps).cairn = s.cairn :=
  State.foldl_keeps (part := State.cairn) (fun u q => u.mapNode_cairn rg bslot b.image q) ps s

section
variable {s : State} {key bslot : Nat} {rg : Region} {b : Bif} (hr : tget s.regions key = some rg) (hb : tget rg.blocks bslot = some b)
include hr hb

/-- A unit waits for the commit of the block that issued it. -/
theorem exec_fabricBlockMap_uncommitted (h : rg.uncommitted b = true) : exec (.fabricBlockMap key bslot) s = .next s := by
  change execFabricBlockMap key bslot s = _
  simp [execFabricBlockMap, hr, hb, h]

variable (issued : b.phase = .issued) (run : rg.run = .running) (stays : rg.cancelling = false) (committed : rg.uncommitted b = false)
include issued run stays committed

/-! After that commit the mapper's verdict decides. -/

theorem exec_fabricBlockMap_waits (h : s.mapUnit rg bslot b = .wait) : exec (.fabricBlockMap key bslot) s = .next s := by
  change execFabricBlockMap key bslot s = _
  simp [execFabricBlockMap, hr, hb, issued, run, stays, committed, h]

theorem exec_fabricBlockMap_refuses {code node : Nat} (h : s.mapUnit rg bslot b = .refuse code node) :
    exec (.fabricBlockMap key bslot) s = .next (s.refuseUnit key rg bslot b code node) := by
  change execFabricBlockMap key bslot s = _
  simp [execFabricBlockMap, hr, hb, issued, run, stays, committed, h]

theorem exec_fabricBlockMap_maps {ps : List Placed} (h : s.mapUnit rg bslot b = .ok ps) : exec (.fabricBlockMap key bslot) s =
    .next (((s.withMapped key bslot rg b ps).touchImage rg.part rg.ctx (rg.redirected b.addr)).landHeld) := by
  change execFabricBlockMap key bslot s = _
  simp [execFabricBlockMap, State.withMapped, hr, hb, issued, run, stays, committed, h]
end

/-! ### Refusal (R286, R300) -/

/-- A region without a refused unit, the engines bound to it unbound, with the record on its way to the queue. -/
def Region.refused (rg : Region) (bslot : Nat) (f : FaultRec) : Region :=
  { rg with
    blocks := tdel rg.blocks bslot
    engines := rg.engines.map fun e => if e.unit = some bslot then { e with unit := none } else e
    faultTokens := rg.faultTokens ++ [f] }

/-- The record of a refusal. -/
def State.refusal (s : State) (rg : Region) (bslot : Nat) (b : Bif) (code node : Nat) : FaultRec :=
  rg.faultRec 31 code 0 bslot node b.image.hdr.blkid 0 s.mem.pts

theorem State.faultToken_putRegion (s : State) (key : Nat) (r : Region) (f : FaultRec) :
    (s.putRegion key r).faultToken key f = (s.putRegion key r).putRegion key { r with faultTokens := r.faultTokens ++ [f] } := by
  simp only [State.faultToken, State.tget_putRegion]

theorem State.excludeDie_fields (s : State) (ctx die : Nat) :
    (s.excludeDie ctx die).regions = s.regions ∧ (s.excludeDie ctx die).tiles = s.tiles ∧ (s.excludeDie ctx die).cairn = s.cairn := by
  unfold State.excludeDie
  split <;> exact ⟨rfl, rfl, rfl⟩

theorem State.refuseUnit_fields (s : State) (key : Nat) (rg : Region) (bslot : Nat) (b : Bif) (code node : Nat) :
    tget (s.refuseUnit key rg bslot b code node).regions key = some (rg.refused bslot (s.refusal rg bslot b code node)) ∧
    (s.refuseUnit key rg bslot b code node).tiles = s.tiles ∧
    ∀ k, b.cairn = some k → (s.refuseUnit key rg bslot b code node).cairn = s.cairn.advance k true := by
  -- The state before the loss of a die, which leaves all three.
  obtain ⟨u, ends, regions, tiles, cairn⟩ : ∃ u : State,
      s.refuseUnit key rg bslot b code node = (if code = cAbsentFeature then u.excludeDie rg.ctx (dieOf rg.part) else u) ∧
      tget u.regions key = some (rg.refused bslot (s.refusal rg bslot b code node)) ∧ u.tiles = s.tiles ∧
      ∀ k, b.cairn = some k → u.cairn = s.cairn.advance k true := by
    refine ⟨_, rfl, ?_⟩
    rw [State.faultToken_putRegion]
    cases b.cairn with
    | none => exact ⟨State.tget_putRegion .., rfl, fun k hk => nomatch hk⟩
    | some k =>
      refine ⟨?_, State.advance_tiles .., fun j hj => ?_⟩
      · exact (congrArg (tget · key) (State.advance_regions ..)).trans (State.tget_putRegion ..)
      · cases hj; exact State.advance_cairn ..
  obtain ⟨r, t, c⟩ := u.excludeDie_fields rg.ctx (dieOf rg.part)
  rw [ends]
  split
  · rw [r, t, c]; exact ⟨regions, tiles, cairn⟩
  · exact ⟨regions, tiles, cairn⟩

/-! ### Completion (R194, R331) -/

/-- A region without a completed unit and its copies; an idle control core is due to wake. -/
def Region.completed (rg : Region) (bslot : Nat) : Region :=
  { rg with
    replicas := rg.replicas.filter fun x => decide (x.bslot ≠ bslot)
    blocks := tdel rg.blocks bslot
    idle := rg.idle.map fun i => (i.1, i.2.1, true) }

/-- The machine without a completed unit: its entry, its nodes and tokens, its splitter and its measures. -/
def State.withoutUnit (s : State) (key bslot : Nat) (rg : Region) (b : Bif) : State :=
  let s1 := s.putRegion key (rg.completed bslot)
  { s1 with
    tiles := s1.tiles.map fun e => if (unitTiles rg b bslot).contains e.1 then (e.1, e.2.clearUnit rg.ctx bslot) else e
    host := { s1.host with
      splits := s1.host.splits.filter fun x => decide (x.key ≠ key ∨ x.bslot ≠ bslot)
      stages := tdel s1.host.stages (key * 8 + bslot) } }

section
variable {s : State} {key bslot : Nat} {rg : Region} {b : Bif} (hr : tget s.regions key = some rg) (hb : tget rg.blocks bslot = some b)
  (mapped : b.phase = .mapped) (run : rg.run = .running) (stays : rg.cancelling = false) (done : s.unitDone rg bslot b = true)
include hr hb mapped run stays done

theorem exec_unitComplete_no_cairn (cairn : b.cairn = none) : exec (.unitComplete key bslot) s = .next (s.withoutUnit key bslot rg b) := by
  change execUnitComplete key bslot s = _
  simp [execUnitComplete, State.withoutUnit, Region.completed, hr, hb, mapped, run, stays, done, cairn]

theorem exec_unitComplete_cairn {k : Nat} (cairn : b.cairn = some k) :
    exec (.unitComplete key bslot) s = .next ((s.withoutUnit key bslot rg b).advance k false) := by
  change execUnitComplete key bslot s = _
  simp [execUnitComplete, State.withoutUnit, Region.completed, hr, hb, mapped, run, stays, done, cairn]
end

end Sys2Proof.Machine
end

section
/-! SUPPORT. Tokens that arrive, and firings and cores whose wait is over (R94, R121, R127, R143, R145, R196, R210, R282, R331). -/

namespace Sys2Proof.Machine

/-! ### Arrival (R121, R282, R455) -/

/-- The machine once a token has gone where its arc leads. -/
def State.arrive (s : State) (key : Nat) (rg : Region) (tile idx : Nat) (c : ChanTok) : State :=
  match c.dest with
  | .node => s.arriveNode key tile idx c.tok
  | .store port => s.arriveStore key tile idx port c.tok
  | .block dev blkid => if dev = s.dev.devNum then s.arriveBlock rg tile idx blkid c else s.arriveRemote rg tile idx dev c

/-- A token arrives that is due at the head of its arc. -/
theorem exec_tokenArrival {s : State} {tile idx key : Nat} {c : ChanTok} {rg : Region} (hc : (s.tile tile).arrivals[idx]? = some c)
    (hr : s.regionOf tile = some (key, rg)) (due : c.left = 0) (run : rg.run = .running) (head : (s.tile tile).headOfArc idx c = true) :
    exec (.tokenArrival tile idx) s = .next (s.arrive key rg tile idx c) := by
  change execTokenArrival tile idx s = _
  simp only [execTokenArrival, State.arrive, hc, hr, due, run, head, ne_eq, not_true_eq_false, Bool.true_eq_false, or_self, if_false]
  cases c.dest with
  | node => rfl
  | store => rfl
  | block dev blkid => exact (apply_ite Host.Outcome.next ..).symm

@[simp] theorem Tile.stream_dropArrival (t : Tile) (idx port : Nat) : (t.dropArrival idx).stream port = t.stream port := by
  unfold Tile.dropArrival
  split <;> rfl

/-- A store port that takes tokens and has room holds one more. -/
theorem State.buf_arriveStore {s : State} {tile port : Nat} {tok : Token} (data : tok.flags.tear = false)
    (takes : ((s.tile tile).stream port).takes = true) (room : (dataToks ((s.tile tile).stream port).buf).length < 16) (key idx : Nat) :
    (((s.arriveStore key tile idx port tok).tile tile).stream port).buf = ((s.tile tile).stream port).buf ++ [tok] := by
  simp [State.arriveStore, data, takes, Nat.not_le.mpr room]

/-! ### Firings that stand on a slot (R143, R145) -/

/-- A PUT that stalled is tried again as its node's firing. -/
theorem exec_stalledPutProceed {s s1 : State} {tile idx : Nat} {n : NodeRec} (h : s.retried tile idx .slot = some (.putNode n, s1)) :
    exec (.stalledPutProceed tile idx) s = exec (.putNode n) s1 := by
  change execStalledPutProceed tile idx s = _
  rw [execStalledPutProceed, h]
  rfl

/-- So is a read that waits. -/
theorem exec_readReevaluate {s s1 : State} {tile idx : Nat} {n : NodeRec} {i : Instr} (h : s.retried tile idx .slot = some (i, s1))
    (hi : i ∈ [.getNode n, .getr n, .rls n, .mldb n]) : exec (.readReevaluate tile idx) s = exec i s1 := by
  simp only [List.mem_cons, List.not_mem_nil, or_false] at hi
  change execReadReevaluate tile idx s = _
  rw [execReadReevaluate, h]
  obtain rfl | rfl | rfl | rfl := hi <;> rfl

theorem exec_barrierRetry {s s1 : State} {tile idx : Nat} {i : Instr} (h : s.retried tile idx .moving = some (i, s1)) :
    exec (.barrierRetry tile idx) s = .next { s1 with actor := s.actor } := by
  change execBarrierRetry tile idx s = _
  rw [execBarrierRetry, h]

/-- A later row of a panel in progress, not its LAST, joins it at RCNT (Table 6.3). -/
theorem putTurn_joins {s : State} {x : Site} {n : NodeRec} {tok : Token} {row vec : Nat} {st : Stmt} (operand : x.f.l = some tok)
    (name : x.inst.name = some (row, vec)) (stmt : tget (s.tile x.tile).stmts n.mod.toNat = some st) (last : tok.flags.last = false)
    (held : ((s.tile x.tile).slot row).held = true) (own : ((s.tile x.tile).slot row).stmt = n.mod.toNat) (same : ((s.tile x.tile).slot row).vec = vec)
    (filling : ((s.tile x.tile).slot row).st = .filling) (writer : ((s.tile x.tile).slot row).wnode = x.f.node)
    (room : ((s.tile x.tile).slot row).rcnt < st.rows) :
    putTurn n s x = .fired ((s.putTile x.tile (((s.tile x.tile).putRow row ((s.tile x.tile).slot row).rcnt (rowOfTok tok)).putSlot row
      { (s.tile x.tile).slot row with rcnt := ((s.tile x.tile).slot row).rcnt + 1 })).putInst x { x.inst with name := some (row, vec) }) [] 0 := by
  simp [putTurn, State.putRowAt, operand, name, stmt, last, held, own, same, filling, writer, Nat.not_le.mpr room]

/-- RLS issues and counts in one turn (R424). -/
theorem rlsTurn_issues {s s2 : State} {x : Site} {n : NodeRec} {st : Stmt} {row : Nat} (selected : x.selected n = true)
    (issued : s.panelRead x n (fmtShape n) = .issued s2 st row) :
    rlsTurn n s x = .fired (s2.countRead x n row) (x.sends n (x.memOut n noLanes)) 0 := by
  simp [rlsTurn, selected, issued]

/-! ### Cairn waits (R196) -/

/-- A wait whose cairn has reached its threshold is over, once an answer to another device has its port. -/
theorem exec_cairnWaitComplete {s : State} {idx : Nat} {w : CWait} (hw : s.cairn.waits[idx]? = some w)
    (reached : w.thresh.toNat ≤ (s.cairn.val w.cairn).toNat) (port : ∀ dev p tag, w.who = .remote dev p tag → (s.link.port p).up = true) :
    exec (.cairnWaitComplete idx) s = .next (State.waitOver { s with cairn := { s.cairn with waits := ldrop s.cairn.waits idx } } w) := by
  change execCairnWaitComplete idx s = _
  simp only [execCairnWaitComplete, hw]
  rw [if_neg]
  rintro (below | blocked)
  · omega
  · split at blocked
    · next dev p tag hp => simp [port dev p tag hp] at blocked
    · cases blocked

/-! ### Idle control cores (R331) -/

section
variable {s : State} {key limit since : Nat} {due : Bool} {r : Region} (hr : tget s.regions key = some r) (idle : r.idle = some (limit, since, due))
include hr idle

theorem exec_idleWake_wakes (h : due = true ∨ (limit ≠ 0 ∧ since + limit ≤ r.cycle.toNat)) :
    exec (.idleWake key) s = .next (s.putRegion key { r with idle := none }) := by
  change execIdleWake key s = _
  simp only [execIdleWake, hr, idle]
  exact if_pos (by simpa using h)

theorem exec_idleWake_sleeps (hd : due = false) (h : limit = 0 ∨ r.cycle.toNat < since + limit) : exec (.idleWake key) s = .next s := by
  change execIdleWake key s = _
  simp only [execIdleWake, hr, idle]
  refine if_neg ?_
  simp only [hd, Bool.false_or, Bool.and_eq_true, decide_eq_true_eq]
  omega
end

end Sys2Proof.Machine
end

section
/-! SUPPORT. Launches that end, by completion and by cancellation (R78, R82 to R84). -/

namespace Sys2Proof.Machine

/-! ### Completion (R78) -/

theorem exec_launchComplete {s : State} {lid key : Nat} {l : Launch} {rg : Region} (hl : tget s.host.launches lid = some l) (st : l.st = .placed key)
    (hr : tget s.regions key = some rg) (own : rg.launch = lid) (halted : rg.haltAfter = true) (stays : rg.cancelling = false) (run : rg.run = .running)
    (idle : rg.work = none) (blocks : rg.blocks = []) (engines : rg.engines = []) : exec (.launchComplete lid) s = .next (s.leave lid key rg false) := by
  change execLaunchComplete lid s = _
  simp [execLaunchComplete, hl, st, hr, own, halted, stays, run, idle, blocks, engines]

/-! ### Cancellation (R83, R84) -/

section
variable {s : State} {lid : Nat} {l : Launch} (hl : tget s.host.launches lid = some l) (cancelled : l.cancelled = true)
include hl cancelled

theorem exec_cancelAdvance_unplaced (st : l.st = .held ∨ l.st = .runnable) : exec (.cancelAdvance lid) s = .next (s.endLaunch lid true) := by
  change execCancelAdvance lid s = _
  rcases st with st | st <;> simp [execCancelAdvance, hl, cancelled, st]

theorem exec_cancelAdvance_placed {key : Nat} {rg : Region} (st : l.st = .placed key) (hr : tget s.regions key = some rg) (own : rg.launch = lid)
    (cancelling : rg.cancelling = true) (engines : rg.engines = []) (written : (s.link.reqs.any fun q => decide (q.who = .gone key)) = false) :
    exec (.cancelAdvance lid) s = .next ((s.flagUnits rg.blocks).leave lid key rg true) := by
  change execCancelAdvance lid s = _
  simp only [execCancelAdvance, hl, cancelled, st, hr, written]
  simp [own, cancelling, engines]

theorem exec_cancelAdvance_parked {pid : Nat} {p : Parked} (st : l.st = .parked pid) (hp : tget s.parked pid = some p)
    (written : (s.link.reqs.any fun q => decide (q.who = .parked pid ∧ q.typ = 2)) = false) :
    exec (.cancelAdvance lid) s = .next (s.leaveParked lid pid p) := by
  change execCancelAdvance lid s = _
  simp only [execCancelAdvance, hl, cancelled, st, hp, written, Bool.not_true, Bool.false_eq_true, if_false]
end

/-! ### Settling levels leaves the launches (R79 to R82) -/

theorem State.releasePages_host (s : State) (job : Nat) : (s.releasePages job).host = s.host := by
  refine State.foldl_keeps (part := State.host) (fun t u => ?_) _ s
  split
  · rfl
  · dsimp only
    split
    · exact State.foldl_keeps (part := State.host) (fun v c => by split <;> rfl) _ t
    · rfl

theorem State.phaseEnds_host (s : State) (job : Nat) : (s.phaseEnds job).host = s.host := State.releasePages_host s job

theorem State.nextPhase_launches (job fuel : Nat) (s : State) : (State.nextPhase job fuel s).host.launches = s.host.launches := by
  induction fuel generalizing s with
  | zero => rfl
  | succ fuel ih =>
    rw [State.nextPhase]
    dsimp only
    split
    · rfl
    · split
      · rw [ih, State.phaseEnds_host]
      · rw [State.phaseEnds_host]

theorem State.countUp_launches (s : State) (ctx level num : Nat) : (s.countUp ctx level num).host.launches = s.host.launches := by
  unfold State.countUp
  split <;> rfl

theorem State.completeArm_launches (s : State) (ctx : Nat) (c : Ctx) (a : Arm) : (s.completeArm ctx c a).host.launches = s.host.launches := by
  unfold State.completeArm
  dsimp only
  split
  · rw [State.countUp_launches, State.advance_host]; rfl
  · change (ite _ _ _ : State).host.launches = _
    split
    · rw [State.nextPhase_launches, State.advance_host]; rfl
    · split
      · change (State.advance ..).host.launches = _
        rw [State.advance_host]; rfl
      · rw [State.advance_host]; rfl
  · rw [State.advance_host]; rfl

theorem State.settleAll_launches (job fuel : Nat) (s : State) : (s.settleAll job fuel).host.launches = s.host.launches := by
  induction fuel generalizing s with
  | zero => rfl
  | succ fuel ih =>
    rw [State.settleAll]
    split
    · rw [ih, State.completeArm_launches]
    · rfl

/-- A launch that has not ended ends. -/
theorem State.tget_endLaunch {s : State} {lid : Nat} {l : Launch} (hl : tget s.host.launches lid = some l) (st : l.st ≠ .ended) (flagged : Bool) :
    tget (s.endLaunch lid flagged).host.launches lid = some { l with st := .ended } := by
  simp only [State.endLaunch, hl, if_neg st]
  rw [State.settle, State.settleAll_launches, State.countUp_launches, State.advance_host]
  exact tget_tput_self ..

end Sys2Proof.Machine
end

section
open Sys2Proof Sys2Proof.Machine

/-- Settles O58, event by event. That a unit maps on all its tiles in one step, and which issued unit maps next (log 45), which unit of a block takes a token
(log 49), and that an event whose condition does not hold leaves the machine as it is (log 78) are the model's choice. -/
theorem blockEvents : Obligations.BlockEvents := by
  unfold Obligations.BlockEvents
  refine ⟨?fetch, ?take, ?begin, ?halt, ?committed, ?map, ?refuse, ?arrive, ?store, ?retry, ?panels, fun s s1 tile idx i h => exec_barrierRetry h, ?wait,
    ?idle, ?complete, ?launch, ?cancel, ?ended⟩
  case fetch =>
    exact fun s s1 key r a slot m r1 hr next room can image hr1 =>
      ⟨exec_blockFetch_control hr next room can image hr1, exec_blockFetch_fabric hr next room can image hr1⟩
  case take =>
    exact fun r slot a m nxt => ⟨rfl, rfl, rfl, rfl, ⟨_, tget_tput_self .., rfl, rfl, rfl⟩, fun k hk => tget_tput_ne _ _ _ _ hk⟩
  case begin =>
    intro s key r slot b hr live idle head hb mark mode held trap decodes feats
    rw [exec_blockCommit_begins hr live idle head hb mark mode held trap, State.beginBlock_of_decodes feats decodes]
  case halt =>
    intro s key r w b hr live hw hb ended trap cancels halt due
    rw [exec_blockCommit_commits hr live hw hb ended trap, State.commitBlock_of_halt (c := ⟨key, r, w, b⟩) halt hr cancels due]
  case committed =>
    intro r w no_writes
    rw [Region.committed_of_no_writes no_writes]
    refine ⟨rfl, rfl, rfl, tget_tdel_self .., rfl, rfl, fun f hf => ?_, fun k hk => tget_tdel_ne _ _ _ hk⟩
    simpa using List.mem_filter.mp hf
  case map =>
    intro s key bslot rg b hr hb issued run stays
    refine ⟨exec_fabricBlockMap_uncommitted hr hb, fun committed => ⟨exec_fabricBlockMap_waits hr hb issued run stays committed, fun ps placed => ?_,
      fun code node => exec_fabricBlockMap_refuses hr hb issued run stays committed⟩⟩
    exact ⟨_, exec_fabricBlockMap_maps hr hb issued run stays committed placed, State.tget_putRegion .., State.withMapped_mem .., State.withMapped_cairn ..⟩
  case refuse =>
    intro s key rg bslot b code node
    obtain ⟨region, tiles, cairn⟩ := s.refuseUnit_fields key rg bslot b code node
    refine ⟨_, _, region, tget_tdel_self .., rfl, rfl, rfl, rfl, tiles, State.refuseUnit_mem .., fun k hk small => ?_⟩
    rw [cairn k hk, Cairns.flag_advance _ _ _ _ small, Cairns.val_advance _ _ _ _ small]
    simp
  case arrive =>
    intro s tile idx c key rg hc hr due run head
    rw [exec_tokenArrival hc hr due run head]
    exact ⟨fun hd => by simp only [State.arrive, hd], fun p hd => by simp only [State.arrive, hd], fun b hd => by simp only [State.arrive, hd, if_true],
      fun d b hd other => by simp only [State.arrive, hd, if_neg other]⟩
  case store =>
    exact fun s key tile idx port tok data takes room => State.buf_arriveStore data takes room key idx
  case retry =>
    exact fun s tile idx n s1 => ⟨exec_stalledPutProceed, fun h => exec_readReevaluate (n := n) h (by simp), fun h => exec_readReevaluate (n := n) h (by simp),
      fun h => exec_readReevaluate (n := n) h (by simp), fun h => exec_readReevaluate (n := n) h (by simp)⟩
  case panels =>
    rintro s s1 tile idx n x hx rfl
    refine ⟨fun tok row vec st again operand name stmt last held own same filling writer room => ⟨latency 0x240 n, ?_⟩,
      fun s2 st row again selected issued => ⟨latency 0x243 n, ?_⟩⟩
    · rw [exec_stalledPutProceed again]
      exact (fireNode_eq hx n _ 0 (putTurn n)).trans (by rw [putTurn_joins operand name stmt last held own same filling writer room]; rfl)
    · rw [exec_readReevaluate (n := n) again (by simp)]
      exact (fireNode_eq hx n _ 0 (rlsTurn n)).trans (by rw [rlsTurn_issues selected issued]; rfl)
  case wait =>
    intro s idx w hw reached
    have ends := exec_cairnWaitComplete hw reached
    refine ⟨fun key r who hr => ⟨_, ends (by simp [who]), ?_⟩, fun tile id who => ⟨_, ends (by simp [who]), ?_⟩,
      fun dev port tag who up => ⟨{ s with cairn := { s.cairn with waits := ldrop s.cairn.waits idx } }, ?_, rfl⟩⟩
    · simp [State.waitOver, who, hr]
    · simp only [State.waitOver, who]
      exact ⟨rfl, congrArg Tile.ready (State.tile_putTile ..)⟩
    · refine (ends fun d p t hp => ?_).trans (by simp only [State.waitOver, who])
      cases who.symm.trans hp
      exact up
  case idle =>
    exact fun s key r limit since due hr idle => ⟨exec_idleWake_wakes hr idle, exec_idleWake_sleeps hr idle⟩
  case complete =>
    intro s key bslot rg b hr hb mapped run stays done
    cases hk : b.cairn with
    | none =>
      exact ⟨_, _, exec_unitComplete_no_cairn hr hb mapped run stays done hk, State.tget_putRegion .., tget_tdel_self .., rfl, fun k h => (nomatch h),
        fun _ => rfl⟩
    | some k =>
      refine ⟨_, rg.completed bslot, exec_unitComplete_cairn hr hb mapped run stays done hk, ?_, tget_tdel_self .., State.advance_mem .., fun j hj small => ?_,
        fun h => (nomatch h)⟩
      · rw [State.advance_regions]
        exact State.tget_putRegion ..
      · cases hj
        rw [State.advance_cairn, Cairns.val_advance _ _ _ _ small, Cairns.flag_advance _ _ _ _ small]
        simp [State.withoutUnit]
  case launch =>
    exact fun s lid l key rg hl st hr own halted stays run idle blocks engines =>
      exec_launchComplete hl st hr own halted stays run idle blocks engines
  case cancel =>
    exact fun s lid l hl cancelled => ⟨exec_cancelAdvance_unplaced hl cancelled,
      fun key rg st hr own cancelling engines written => exec_cancelAdvance_placed hl cancelled st hr own cancelling engines written,
      fun pid p st hp written => exec_cancelAdvance_parked hl cancelled st hp written⟩
  case ended =>
    exact fun s lid l flagged hl st => ⟨_, State.tget_endLaunch hl st flagged, rfl⟩
end

section
/-! SUPPORT. Firings that go on, and the turns of the panel nodes (R142 to R146, R423 to R425). -/

namespace Sys2Proof.Machine

/-! ### A firing that its turn leaves standing -/

/-- The acting firing stands in its tile. -/
theorem State.mem_ready_of_site {s : State} {x : Site} (h : s.site = some x) : x.f ∈ (s.tile x.tile).ready := by
  unfold State.site at h
  split at h
  · split at h
    · next f k rg hf _ =>
      split at h
      · cases h
        exact List.mem_of_getElem? hf
      · cases h
    · cases h
  · cases h

theorem State.firingBegun_putFiring {s : State} {x : Site} {f : Firing} (stands : x.f ∈ (s.tile x.tile).ready) (same : f.id = x.f.id)
    (begun : f.begun = true) : (s.putFiring x f).firingBegun x = true := by
  simp only [State.firingBegun, State.putFiring, State.tile_putTile, List.any_map, List.any_eq_true]
  exact ⟨x.f, stands, by simp [same, begun]⟩

/-- A firing whose read has issued, its next turn at row 0; `aux` says what it serves. -/
def Firing.serving (f : Firing) (aux : List Nat) : Firing := { f with st := .ready, begun := true, row := 0, aux := aux }

/-- The turn that issues a firing's read starts it. -/
theorem FireRes.run_stay_serving {s : State} {x : Site} (stands : x.f ∈ (s.tile x.tile).ready) (first : x.f.begun = false) (aux : List Nat)
    (n : NodeRec) (lat gap : Nat) :
    (FireRes.stay (s.putFiring x (x.f.serving aux))).run x n lat gap = (s.putFiring x (x.f.serving aux)).began x n := by
  have begun : (s.putFiring x (x.f.serving aux)).firingBegun x = true := State.firingBegun_putFiring stands rfl rfl
  simp [first, begun]

/-! ### Reads (Table 6.4, R424, R425) -/

section
variable {s s1 : State} {x : Site} {n : NodeRec} {st : Stmt} {row : Nat} {shape : Stmt → Bool}

/-- A read that issues changes its slot's entry only: the firings of its tile stand as they did. -/
theorem State.panelRead_ready (issued : s.panelRead x n shape = .issued s1 st row) : (s1.tile x.tile).ready = (s.tile x.tile).ready := by
  unfold State.panelRead at issued
  split at issued
  · cases issued
  · cases issued
  · dsimp only at issued
    split at issued
    · cases issued
    · cases issued
      rw [State.tile_putTile]
      rfl
    · cases issued

theorem Site.panelName_undeclared (undeclared : tget (s.tile x.tile).stmts n.mod.toNat = none) :
    x.panelName s n shape = .fault (x.foldRec s n cUndeclared 0) := by
  rw [Site.panelName, undeclared]

theorem State.panelRead_undeclared (undeclared : tget (s.tile x.tile).stmts n.mod.toNat = none) :
    s.panelRead x n shape = .fault (.fault s (x.foldRec s n cUndeclared 0)) := by
  rw [State.panelRead, Site.panelName_undeclared undeclared]

/-- The last token of a panel that is served counts the read. -/
theorem State.serveRow_last {first rows : Nat} (aux : x.f.aux.take 3 = [first, rows, 0]) (last : rows = x.f.row + 1) (pick : Nat → Row) :
    s.serveRow x n pick = .fired (s.countRead x n first) (x.sends n (x.rowOut x.f.row true (pick x.f.row))) 0 := by
  obtain ⟨rest, haux⟩ : ∃ rest, x.f.aux = [first, rows, 0] ++ rest := ⟨x.f.aux.drop 3, by rw [← aux, List.take_append_drop]⟩
  simp [State.serveRow, haux, last]

theorem getTurn_begun (begun : x.f.begun = true) :
    getTurn n s x = s.serveRow x n fun k => (s.tile x.tile).row (x.f.aux.getD 0 0 + k) :=
  if_pos begun

theorem getTurn_unselected (first : x.f.begun = false) (unselected : x.selected n = false) :
    getTurn n s x = .fired s (x.sends n (x.memOut n noLanes)) 0 := by
  simp [getTurn, first, unselected]

theorem getTurn_issues (first : x.f.begun = false) (selected : x.selected n = true) (issued : s.panelRead x n (fmtShape n) = .issued s1 st row) :
    getTurn n s x = .stay (s1.putFiring x (x.f.serving [row, st.rows, 0])) := by
  simp [getTurn, first, selected, issued, State.serve, Firing.serving]

theorem getTurn_undeclared (first : x.f.begun = false) (selected : x.selected n = true)
    (undeclared : tget (s.tile x.tile).stmts n.mod.toNat = none) : getTurn n s x = .fault s (x.foldRec s n cUndeclared 0) := by
  simp [getTurn, first, selected, State.panelRead_undeclared undeclared]

/-- The valid index elements of a GETR, in order; each names a row. -/
def Site.indices (x : Site) (n : NodeRec) : List Lane := (x.opB n .n32).filter fun l => l.valid

/-- The row that token `k` of a begun GETR carries. -/
def State.indexedRow (s : State) (x : Site) (n : NodeRec) (k : Nat) : Row :=
  match (x.indices n)[k]? with
  | some l => getrRow (s.tile x.tile) (x.f.aux.getD 0 0) (x.f.aux.getD 3 0) l
  | none => x.noRow n

theorem getrTurn_begun (begun : x.f.begun = true) : getrTurn n s x = s.serveRow x n (s.indexedRow x n) :=
  if_pos begun

theorem getrTurn_issues (first : x.f.begun = false) (issued : s.panelRead x n (fmtShape n) = .issued s1 st row) :
    getrTurn n s x = .stay (s1.putFiring x (x.f.serving [row, max 1 (x.indices n).length, 0, st.rows])) := by
  simp [getrTurn, first, issued, Site.indices, Firing.serving]

theorem getrTurn_undeclared (first : x.f.begun = false) (undeclared : tget (s.tile x.tile).stmts n.mod.toNat = none) :
    getrTurn n s x = .fault s (x.foldRec s n cUndeclared 0) := by
  simp [getrTurn, first, State.panelRead_undeclared undeclared]

/-- An index without poison gives its row as stored, and past the panel's rows one with no element valid. -/
theorem getrRow_lanes {l : Lane} (clean : l.poison = false) (t : Tile) (base rows : Nat) :
    (getrRow t base rows l).lanes = if l.val.toNat < rows then (t.row (base + l.val.toNat)).lanes else noLanes := by
  rw [getrRow]
  split
  · rw [clean]
    rfl
  · rfl

theorem State.indexedRow_lanes {k : Nat} {l : Lane} (index : (x.indices n)[k]? = some l) (clean : l.poison = false) :
    (s.indexedRow x n k).lanes = if l.val.toNat < x.f.aux.getD 3 0 then ((s.tile x.tile).row (x.f.aux.getD 0 0 + l.val.toNat)).lanes else noLanes := by
  rw [State.indexedRow, index]
  exact getrRow_lanes clean ..

theorem rlsTurn_unselected (unselected : x.selected n = false) : rlsTurn n s x = .fired s (x.sends n (x.memOut n noLanes)) 0 := by
  simp [rlsTurn, unselected]

theorem rlsTurn_undeclared (selected : x.selected n = true) (undeclared : tget (s.tile x.tile).stmts n.mod.toNat = none) :
    rlsTurn n s x = .fault s (x.foldRec s n cUndeclared 0) := by
  simp [rlsTurn, selected, State.panelRead_undeclared undeclared]

end

/-! ### PUT (Table 6.3, R423) -/

section
variable {s : State} {x : Site} {n : NodeRec} {tok : Token}

theorem putTurn_undeclared (operand : x.f.l = some tok) (fresh : x.inst.name = none)
    (undeclared : tget (s.tile x.tile).stmts n.mod.toNat = none) : putTurn n s x = .fault s (x.foldRec s n cUndeclared 0) := by
  simp [putTurn, operand, fresh, Site.panelName_undeclared undeclared]

variable {row vec : Nat} {st : Stmt} (operand : x.f.l = some tok) (name : x.inst.name = some (row, vec))
  (stmt : tget (s.tile x.tile).stmts n.mod.toNat = some st) (held : ((s.tile x.tile).slot row).held = true)
  (own : ((s.tile x.tile).slot row).stmt = n.mod.toNat) (same : ((s.tile x.tile).slot row).vec = vec)
  (filling : ((s.tile x.tile).slot row).st = .filling) (writer : ((s.tile x.tile).slot row).wnode = x.f.node)
include operand name stmt held own same filling writer

/-- LAST on a panel's last row ends it: the slot is READY and the node has no panel in progress. -/
theorem putTurn_ends (last : tok.flags.last = true) (whole : ((s.tile x.tile).slot row).rcnt + 1 = st.rows) :
    putTurn n s x = .fired ((s.putTile x.tile (((s.tile x.tile).putRow row ((s.tile x.tile).slot row).rcnt (rowOfTok tok)).finishFill row)).putInst x
      { x.inst with name := none }) (x.sends n (x.complOut n [])) 0 := by
  simp [putTurn, State.putRowAt, operand, name, stmt, last, held, own, same, filling, writer, whole]

/-- LAST before the panel's last row, or a row past it without, is a fault against the slot. -/
theorem putTurn_misshapen (wrong : if tok.flags.last then ((s.tile x.tile).slot row).rcnt + 1 ≠ st.rows else st.rows ≤ ((s.tile x.tile).slot row).rcnt) :
    putTurn n s x = s.slotFault x n cPanelShape 0 row vec vec := by
  cases last : tok.flags.last <;> rw [last] at wrong
  · have past : st.rows ≤ ((s.tile x.tile).slot row).rcnt := wrong
    simp [putTurn, State.putRowAt, operand, name, stmt, last, held, own, same, filling, writer, past]
  · have short : ((s.tile x.tile).slot row).rcnt + 1 ≠ st.rows := wrong
    simp [putTurn, State.putRowAt, operand, name, stmt, last, held, own, same, filling, writer, short]

end

end Sys2Proof.Machine
end

section
open Sys2Proof Sys2Proof.Machine

/-- Settles O45: each node's turn at the case at hand, carried out at its site. -/
theorem nodePanels : Obligations.NodePanels := by
  unfold Obligations.NodePanels
  intro s x n site
  have get_run : exec (.getNode n) s = .next ((getTurn n s x).run x n _ 0) := fireNode_eq site n (latency 0x241 n) 0 (getTurn n)
  have getr_run : exec (.getr n) s = .next ((getrTurn n s x).run x n _ 0) := fireNode_eq site n (latency 0x242 n) 0 (getrTurn n)
  have rls_run : exec (.rls n) s = .next ((rlsTurn n s x).run x n _ 0) := fireNode_eq site n (latency 0x243 n) 0 (rlsTurn n)
  have put_run : exec (.putNode n) s = .next ((putTurn n s x).run x n _ 0) := fireNode_eq site n (latency 0x240 n) 0 (putTurn n)
  refine ⟨?last, fun first unselected => ⟨_, by rw [get_run, getTurn_unselected first unselected]; rfl⟩,
    fun unselected => ⟨_, by rw [rls_run, rlsTurn_unselected unselected]; rfl⟩, ?issued, ?put,
    fun undeclared fresh tok operand => by rw [put_run, putTurn_undeclared operand fresh undeclared]; rfl,
    fun undeclared first selected => ⟨by rw [get_run, getTurn_undeclared first selected undeclared]; rfl,
      by rw [getr_run, getrTurn_undeclared first undeclared]; rfl, by rw [rls_run, rlsTurn_undeclared selected undeclared]; rfl⟩⟩
  case last =>
    intro first rows begun aux last
    have base : x.f.aux.getD 0 0 = first := by simpa using congrArg (List.getD · 0 0) aux
    refine ⟨⟨x.rowOut x.f.row true ((s.tile x.tile).row (first + x.f.row)), ⟨latency 0x241 n, ?_⟩, rfl, rfl⟩,
      ⟨x.rowOut x.f.row true (s.indexedRow x n x.f.row), ⟨latency 0x242 n, ?_⟩, rfl, fun l index clean => ?_⟩⟩
    · rw [get_run, getTurn_begun begun, State.serveRow_last aux last, base]
      rfl
    · rw [getr_run, getrTurn_begun begun, State.serveRow_last aux last]
      rfl
    · exact base ▸ State.indexedRow_lanes index clean
  case issued =>
    intro s1 st row issued
    have stands : x.f ∈ (s1.tile x.tile).ready := State.panelRead_ready issued ▸ State.mem_ready_of_site site
    refine ⟨fun selected => ⟨_, by rw [rls_run, rlsTurn_issues selected issued]; rfl⟩, fun first selected => ?_, fun first aux served => ?_⟩
    · rw [get_run, getTurn_issues first selected issued]
      exact congrArg _ (FireRes.run_stay_serving stands first ..)
    · subst served
      rw [getr_run, getrTurn_issues first issued]
      exact congrArg _ (FireRes.run_stay_serving stands first ..)
  case put =>
    rintro tok row vec st operand name stmt e ⟨held, own, same, filling, writer⟩ t1
    refine ⟨fun last room => ⟨latency 0x240 n, ?_⟩, fun last whole => ⟨latency 0x240 n, ?_⟩, fun wrong => ?_⟩
    · rw [put_run, putTurn_joins operand name stmt last held own same filling writer room]
      rfl
    · rw [put_run, putTurn_ends operand name stmt held own same filling writer last whole]
      rfl
    · rw [put_run, putTurn_misshapen operand name stmt held own same filling writer wrong, State.slotFault, FireRes.run_fault]
      exact ⟨_, rfl, rfl, rfl⟩
end

section
/-! SUPPORT. TLBINV: the entries of the invalidated context leave every cache of translations, table pointers and barrier pages (R169, R209, R332). -/

namespace Sys2Proof.Machine

/-- A tile without a context's translations and barrier entries. -/
def Tile.invalidate (t : Tile) (ctx : Nat) : Tile :=
  { t with tlb := t.tlb.filter fun e => decide (e.ctx ≠ ctx), barrier := t.barrier.filter fun e => decide (e.ctx ≠ ctx) }

theorem State.tile_invalidate (s : State) (ctx k : Nat) : (s.invalidate ctx).tile k = (s.tile k).invalidate ctx := by
  have tiles : tget (s.invalidate ctx).tiles k = (tget s.tiles k).map fun t => t.invalidate ctx := tget_map (fun _ t => Tile.invalidate t ctx) s.tiles k
  rw [State.tile, State.tile, tgetD, tgetD, tiles]
  cases tget s.tiles k <;> rfl

/-- The table pointers that the walker of a die keeps (R168). -/
theorem State.walkers_invalidate (s : State) (ctx d : Nat) :
    tgetD (s.invalidate ctx).caches.walkers d [] = (tgetD s.caches.walkers d []).filter fun e => decide (e.ctx ≠ ctx) := by
  have walkers : tget (s.invalidate ctx).caches.walkers d = (tget s.caches.walkers d).map fun es => es.filter fun e => decide (e.ctx ≠ ctx) :=
    tget_map (fun _ (es : List WalkEntry) => es.filter fun e : WalkEntry => decide (e.ctx ≠ ctx)) s.caches.walkers d
  rw [tgetD, tgetD, walkers]
  cases tget s.caches.walkers d <;> rfl

/-- What a filter by a number leaves does not bear it. -/
theorem ne_of_mem_filter {α : Type} {num : α → Nat} {c : Nat} {l : List α} {e : α} (h : e ∈ l.filter fun e => decide (num e ≠ c)) : num e ≠ c :=
  of_decide_eq_true (List.mem_filter.mp h).2

end Sys2Proof.Machine

open Sys2Proof Sys2Proof.Machine

/-- Settles O30: each cache is its old self filtered by context. -/
theorem invalidateDropsContext : Obligations.InvalidateDropsContext := by
  unfold Obligations.InvalidateDropsContext
  intro s ctx t
  refine ⟨fun k r region => ?regions, fun k => ?tiles, fun d e he => ?walkers, rfl, rfl⟩
  case regions =>
    rw [State.tget_invalidate_regions, Option.map_eq_some_iff] at region
    obtain ⟨r, -, rfl⟩ := region
    exact ⟨fun e he => ne_of_mem_filter he, fun e he => ne_of_mem_filter he⟩
  case tiles =>
    rw [State.tile_invalidate]
    exact ⟨fun e he => ne_of_mem_filter he, fun e he => ne_of_mem_filter he⟩
  case walkers =>
    rw [State.walkers_invalidate] at he
    exact ne_of_mem_filter he
end

section
/-! SUPPORT. Faults of nodes: the FAULT token, and how the firing that met the fault stands after it (R175, R224, R226). -/

namespace Sys2Proof.Machine

/-! ### The parts of the machine that a fault's steps write -/

@[simp] theorem Tile.inst_putInst (t : Tile) (pe slot : Nat) (n : NodeInst) : (t.putInst pe slot n).inst pe slot = some n := by
  rw [Tile.inst, Tile.putInst, Tile.pe_putPe, tget_tput_self]

@[simp] theorem State.holdBack_tiles (s : State) (x : Site) : (s.holdBack x).tiles = s.tiles := by unfold State.holdBack; split <;> rfl
@[simp] theorem State.holdBack_regions (s : State) (x : Site) : (s.holdBack x).regions = s.regions := by unfold State.holdBack; split <;> rfl
@[simp] theorem State.holdBack_cairn (s : State) (x : Site) : (s.holdBack x).cairn = s.cairn := by unfold State.holdBack; split <;> rfl

/-- A tile whose firing has ended in a class-00 fault: its node stops, and the firing is gone. -/
def Tile.stopNode (t : Tile) (f : Firing) : Tile :=
  let t1 := match t.inst f.pe f.slot with
    | some n => t.putInst f.pe f.slot { n with stopped := true }
    | none => t
  { t1 with ready := t1.ready.filter fun g => decide (g.id ≠ f.id) }

theorem Tile.stopNode_chans (t : Tile) (f : Firing) : (t.stopNode f).chans = t.chans := by unfold Tile.stopNode; dsimp only; split <;> rfl

theorem Tile.inst_stopNode {t : Tile} {f : Firing} {n : NodeInst} (h : t.inst f.pe f.slot = some n) :
    (t.stopNode f).inst f.pe f.slot = some { n with stopped := true } := by
  rw [Tile.stopNode, h]
  exact t.inst_putInst ..

/-- A tile with a firing put in another state. -/
def Tile.setFiring (t : Tile) (f : Firing) (st : FireSt) : Tile := { t with ready := t.ready.map fun g => if g.id = f.id then { g with st := st } else g }

theorem Tile.st_of_mem_setFiring {t : Tile} {f g : Firing} {st : FireSt} (h : g ∈ (t.setFiring f st).ready) (same : g.id = f.id) : g.st = st := by
  obtain ⟨g0, -, rfl⟩ := List.mem_map.mp h
  by_cases h0 : g0.id = f.id
  · rw [if_pos h0]
  · rw [if_neg h0] at same
    exact absurd same h0

/-! ### The fault of a firing outside a TMR group, by class -/

section
variable {s : State} {x : Site} {f : FaultRec} {r : Region} (region : tget s.regions x.key = some r)

/-- The machine once the FAULT token of a node's record has left. -/
def State.withToken (s : State) (key : Nat) (r : Region) (f : FaultRec) : State := s.putRegion key { r with faultTokens := r.faultTokens ++ [f] }

include region

theorem State.faultToken_eq : s.faultToken x.key f = s.withToken x.key r f := by
  rw [State.faultToken, region]
  rfl

theorem State.nodeFault_minor (minor : codeClass f.code = 1) :
    s.nodeFault x f = (s.withToken x.key r f).putTile x.tile ((s.tile x.tile).setFiring x.f .minor) := by
  rw [State.nodeFault, State.faultToken_eq region, minor]
  rfl

variable (alone : x.blk.image.tmrOf x.f.node = none)
include alone

theorem State.nodeFault_stops (cls : codeClass f.code = 0) :
    s.nodeFault x f = ((s.withToken x.key r f).putTile x.tile ((s.tile x.tile).stopNode x.f)).holdBack x := by
  rw [State.nodeFault, State.faultToken_eq region, cls, alone]
  rfl

/-- In every class the token leaves, and no cairn moves. -/
theorem State.nodeFault_token : (s.nodeFault x f).regions = (s.withToken x.key r f).regions ∧ (s.nodeFault x f).cairn = s.cairn := by
  rw [State.nodeFault, State.faultToken_eq region]
  dsimp only
  split
  · exact ⟨rfl, rfl⟩
  · exact ⟨rfl, rfl⟩
  · exact ⟨rfl, rfl⟩
  · rw [alone]
    exact ⟨State.holdBack_regions .., State.holdBack_cairn ..⟩
end

end Sys2Proof.Machine

open Sys2Proof Sys2Proof.Machine

/-- Settles O50: in every class the record leaves as a FAULT token; the classes differ in what becomes of the firing. -/
theorem nodeFaultStops : Obligations.NodeFaultStops := by
  unfold Obligations.NodeFaultStops
  intro s x f r region alone t
  obtain ⟨regions, cairn⟩ : t.regions = _ ∧ t.cairn = _ := State.nodeFault_token region alone
  refine ⟨⟨{ r with faultTokens := r.faultTokens ++ [f] }, ?token, rfl⟩, State.nodeFault_mem s x f, cairn, fun cls => ?stopped, fun cls => ?minor⟩
  case token =>
    rw [regions]
    exact State.tget_putRegion ..
  case stopped =>
    have tile : t.tile x.tile = (s.tile x.tile).stopNode x.f := by
      rw [show t = _ from State.nodeFault_stops region alone cls, State.tile, State.holdBack_tiles]
      exact State.tile_putTile ..
    rw [tile]
    exact ⟨fun g hg => ne_of_mem_filter (num := Firing.id) hg, Tile.stopNode_chans .., fun m node => Tile.inst_stopNode node⟩
  case minor =>
    have tile : t.tile x.tile = (s.tile x.tile).setFiring x.f .minor := by
      rw [show t = _ from State.nodeFault_minor region cls]
      exact State.tile_putTile ..
    rw [tile]
    exact fun g hg same => Tile.st_of_mem_setFiring hg same
end

section
/-! SUPPORT. The memory nodes: the lanes of what they send, and the turns that begin and end their accesses (R171, R189, R418 to R421). -/

namespace Sys2Proof.Machine

/-! ### Lanes -/

theorem getElem?_flatMap_pair {α : Type} (a b : Nat → α) {n i : Nat} (h : i < n) :
    ((List.range n).flatMap fun j => [a j, b j])[2 * i]? = some (a i) ∧ ((List.range n).flatMap fun j => [a j, b j])[2 * i + 1]? = some (b i) := by
  induction n with
  | zero => omega
  | succ n ih =>
    have length : ((List.range n).flatMap fun j => [a j, b j]).length = 2 * n := by simp [Nat.mul_comm]
    rw [List.range_succ, List.flatMap_append]
    by_cases last : i = n
    · subst last
      constructor <;> rw [List.getElem?_append_right (by omega), length] <;> simp
    · obtain ⟨even, odd⟩ := ih (by omega)
      constructor <;> rw [List.getElem?_append_left (by omega)] <;> assumption

section
variable {v : Nat → Nat} {valid psn : Nat → Bool} {i : Nat} (h : i < 8)
include h

/-- The two lanes of a pair of a row. -/
theorem laneAt_pairs : laneAt ((List.range 8).flatMap fun i => mkPair (v i) (valid i) (psn i)) (2 * i) = mkLane (v i % 2 ^ 32) (valid i) (psn i) ∧
    laneAt ((List.range 8).flatMap fun i => mkPair (v i) (valid i) (psn i)) (2 * i + 1) = mkLane (v i / 2 ^ 32) (valid i) (psn i) := by
  obtain ⟨even, odd⟩ := getElem?_flatMap_pair (fun i => mkLane (v i % 2 ^ 32) (valid i) (psn i)) (fun i => mkLane (v i / 2 ^ 32) (valid i) (psn i)) h
  exact ⟨by rw [laneAt, List.getD_eq_getElem?_getD]; exact congrArg (Option.getD · _) even,
    by rw [laneAt, List.getD_eq_getElem?_getD]; exact congrArg (Option.getD · _) odd⟩

theorem pairValid_pairs : pairValid ((List.range 8).flatMap fun i => mkPair (v i) (valid i) (psn i)) i = valid i := by
  obtain ⟨even, odd⟩ := laneAt_pairs (v := v) (valid := valid) (psn := psn) h
  rw [pairValid, even, odd]
  cases valid i <;> rfl

theorem pairPsn_pairs (ok : valid i = true) : pairPsn ((List.range 8).flatMap fun i => mkPair (v i) (valid i) (psn i)) i = psn i := by
  obtain ⟨even, odd⟩ := laneAt_pairs (v := v) (valid := valid) (psn := psn) h
  rw [pairPsn, even, odd, ok]
  exact Bool.or_self _

theorem pairVal_pairs (ok : valid i = true) (small : v i < 2 ^ 64) :
    pairVal ((List.range 8).flatMap fun i => mkPair (v i) (valid i) (psn i)) i = v i := by
  obtain ⟨even, odd⟩ := laneAt_pairs (v := v) (valid := valid) (psn := psn) h
  rw [pairVal, even, odd, ok]
  simp only [mkLane, toElem, if_true, BitVec.toNat_ofNat]
  omega
end

/-- The units of a row: every element, or the even element of every pair. -/
theorem mem_rowUnits {f : Fmt} {e : Nat} : e ∈ rowUnits f ↔ if isPair f then ∃ i < 8, e = 2 * i else e < 16 := by
  cases h : isPair f <;> simp [rowUnits, h, eq_comm]

/-- A lane holds the low 32 bits of what it is given. -/
theorem mkLane_mod (v : Nat) (valid poison : Bool) : mkLane (v % 2 ^ 32) valid poison = mkLane v valid poison := by
  rw [mkLane, mkLane, show toElem (v % 2 ^ 32) = toElem v from BitVec.eq_of_toNat_eq (by simp [toElem])]

/-- A loaded unit carries what was read of it; of a pair, its even lane the low half. -/
theorem laneAt_loadLanes {f : Fmt} {e : Nat} (unit : e ∈ rowUnits f) (as : List Acc) (valid poison : Nat → Bool) :
    laneAt (loadLanes f as valid poison) e = mkLane (leNat (laneBytes as e)) (valid e) (lanePsn as e || poison e) := by
  rw [mem_rowUnits] at unit
  cases pair : isPair f with
  | true =>
    rw [if_pos pair] at unit
    obtain ⟨i, hi, rfl⟩ := unit
    have lanes : loadLanes f as valid poison = (List.range 8).flatMap fun i =>
        mkPair (leNat (laneBytes as (2 * i))) (valid (2 * i)) (lanePsn as (2 * i) || poison (2 * i)) := by
      simp [loadLanes, rowUnits, pair, List.flatMap_map]
    rw [lanes, (laneAt_pairs hi).1]
    exact mkLane_mod ..
  | false =>
    have lanes : loadLanes f as valid poison = (List.range 16).map fun e => mkLane (leNat (laneBytes as e)) (valid e) (lanePsn as e || poison e) := by
      simp [loadLanes, rowUnits, pair, List.map_eq_flatMap]
    have small : e < 16 := by simpa [pair] using unit
    rw [lanes, laneAt]
    simp [small]

theorem mkLane_valid (v : Nat) (valid poison : Bool) : (mkLane v valid poison).valid = valid := by cases valid <;> rfl

/-- What a loaded unit's lane says, where the unit is valid. -/
theorem mkLane_eq_of_valid {v : Nat} {valid poison : Bool} (h : (mkLane v valid poison).valid = true) : mkLane v valid poison = ⟨toElem v, true, poison⟩ :=
  if_pos (mkLane_valid v valid poison ▸ h)

/-- A row is whole where no unit of it is left out. -/
theorem whole_row (f : Fmt) (p : Nat → Bool) (pa : Nat) :
    (decide (pa % 64 = 0) && decide (((rowUnits f).filter p).length = (rowUnits f).length)) = decide (pa % 64 = 0 ∧ (rowUnits f).filter p = rowUnits f) := by
  rw [← Bool.decide_and]
  exact decide_eq_decide.mpr (and_congr_right fun _ => ⟨List.filter_sublist.eq_of_length, congrArg _⟩)

/-! ### Completion tokens (R418) -/

theorem Site.memOut_lanes (x : Site) (n : NodeRec) (ls : List Lane) : (x.memOut n ls).lanes = ls := by
  rw [Site.memOut, Site.out]
  split <;> rfl

/-- Element 0 of a completion token says whether an access had an error. -/
theorem laneAt_complLanes (as : List Acc) : laneAt (complLanes (accErrs as)) 0 = if (as.any fun p => p.err) then Lane.on 1 else Lane.on 0 := by
  cases errs : as.any fun p => p.err with
  | false =>
    have clean : accErrs as = [] := by simpa [accErrs] using errs
    rw [clean]
    rfl
  | true =>
    have failed : accErrs as ≠ [] := by simpa [accErrs] using errs
    obtain ⟨e, es, h⟩ := List.exists_cons_of_ne_nil failed
    rw [h]
    rfl

/-! ### Accesses of a firing -/

section
variable {s s1 : State} {x : Site} {n : NodeRec} {as : List Acc}

theorem State.tile_issueAccs (s : State) (key : Nat) (as : List Acc) (k : Nat) : (s.issueAccs key as).1.tile k = s.tile k := by
  rw [State.issueAccs]
  split <;> rfl

theorem State.turnFiring_all (h : s.turnAccs x.rg.ctx x.who x.f.accs = .all s1 as) (g : State → List Acc → FireRes) :
    s.turnFiring x g = g (s1.noteErrs x.key as) as := by
  rw [State.turnFiring, h]

variable (site : s.site = some x)
include site

/-- The turn that lays a firing's accesses out starts it. -/
theorem FireRes.run_stay_beginAccs (first : x.f.begun = false) (as : List Acc) (ls : List Lane) (n : NodeRec) (lat gap : Nat) :
    (FireRes.stay (s.beginAccs x as ls)).run x n lat gap = (s.beginAccs x as ls).began x n := by
  have stands : x.f ∈ ((s.issueAccs x.key as).1.tile x.tile).ready := State.tile_issueAccs s x.key as x.tile ▸ State.mem_ready_of_site site
  have begun : (s.beginAccs x as ls).firingBegun x = true := State.firingBegun_putFiring stands rfl rfl
  simp [first, begun]

/-! ### The turn that ends a firing's accesses (R420, R421) -/

section
variable (begun : x.f.begun = true) (all : s.turnAccs x.rg.ctx x.who x.f.accs = .all s1 as)
include begun all

theorem exec_ld_ends : exec (.ld n) s = .next ((s1.noteErrs x.key as).fires x n (latency 0x201 n) 0
    (x.sends n (x.memOut n (loadLanes n.fmt as (fun e => n.lit.getLsbD e && x.sel n e) fun _ => false))) 0) := by
  change execLd n s = _
  rw [execLd, fireNode_eq site]
  dsimp only
  rw [if_pos begun, State.turnFiring_all all, State.fires]

theorem exec_st_ends : exec (.st n) s = .next ((s1.noteErrs x.key as).fires x n (latency 0x202 n) 0 (x.sends n (x.complOut n (accErrs as))) 0) := by
  change execSt n s = _
  rw [execSt, fireNode_eq site]
  dsimp only
  rw [if_pos begun, State.turnFiring_all all, State.fires]

theorem exec_ldg_ends : ∃ fl, exec (.ldg n) s = .next ((s1.noteErrs x.key as).fires x n (latency 0x203 n) 0
    (x.sends n (x.memOut n (loadLanes n.fmt as (fun e => (laneAt (x.opB n n.fmt) e).valid && x.sel n e) fun e => (laneAt (x.opB n n.fmt) e).poison))) fl) := by
  change ∃ fl, execLdg n s = _
  rw [execLdg, fireNode_eq site]
  dsimp only
  rw [if_pos begun, State.turnFiring_all all]
  exact ⟨_, rfl⟩

theorem exec_stx_ends : ∃ fl, exec (.stx n) s = .next ((s1.noteErrs x.key as).fires x n (latency 0x204 n) 0
    (x.sends n { x.complOut n (accErrs as) with scaled := scaledOf (x.dataToks n true) }) fl) := by
  change ∃ fl, execStx n s = _
  rw [execStx, fireNode_eq site]
  dsimp only
  rw [if_pos begun, State.turnFiring_all all]
  exact ⟨_, rfl⟩
end

/-! ### The turn that begins them -/

section
variable (first : x.f.begun = false) (room : s.roomOut x = true) {pa : Nat}
include first room

theorem exec_ld_begins (address : rowAddr n.fmt (x.opA n .i64) false = .at pa) :
    exec (.ld n) s = .next ((s.beginAccs x (((rowUnits n.fmt).filter fun e => n.lit.getLsbD e && x.sel n e).flatMap fun e =>
      layPhys e (pa + 4 * e) (elemSize n.fmt) false [] false false 1) []).began x n) := by
  change execLd n s = _
  rw [execLd, fireNode_eq site]
  simp only [first, room, address, Bool.not_true, Bool.false_eq_true, if_false]
  exact congrArg _ (FireRes.run_stay_beginAccs site first ..)

theorem exec_st_begins (address : rowAddr n.fmt (x.opA n .i64) true = .at pa) {us : List Nat}
    (units : us = (rowUnits n.fmt).filter fun e => n.lit.getLsbD e && unitValid n.fmt (x.opB n n.fmt) e && x.sel n e) (nonempty : us ≠ []) {full : Bool}
    (whole : full = decide (pa % 64 = 0 ∧ us = rowUnits n.fmt)) :
    exec (.st n) s = .next ((s.beginAccs x (us.flatMap fun e => layPhys e (pa + 4 * e) (elemSize n.fmt) true (unitBytes n.fmt (x.opB n n.fmt) e)
      (if full then us.any (unitPsn n.fmt (x.opB n n.fmt)) else unitPsn n.fmt (x.opB n n.fmt) e) full 1) []).began x n) := by
  subst units whole
  change execSt n s = _
  rw [execSt, fireNode_eq site]
  simp only [first, room, address, Bool.not_true, Bool.false_eq_true, if_false, List.isEmpty_iff, nonempty, whole_row]
  exact congrArg _ (FireRes.run_stay_beginAccs site first ..)

theorem exec_ldg_begins (address : baseCheck (x.opA n .i64) false = .at pa) {es : List Nat}
    (units : es = (rowUnits n.fmt).filter fun e => (laneAt (x.opB n n.fmt) e).valid && x.sel n e && !(laneAt (x.opB n n.fmt) e).poison) (nonempty : es ≠ [])
    (inPage : idxFaults n.fmt (basePage (x.opA n .i64)) pa (x.opB n n.fmt) es = none) :
    exec (.ldg n) s = .next ((s.beginAccs x (es.flatMap fun e =>
      layPhys e (idxAddr n.fmt pa (x.opB n n.fmt) e).toNat (elemSize n.fmt) false [] false false) []).began x n) := by
  subst units
  change execLdg n s = _
  rw [execLdg, fireNode_eq site]
  simp only [first, room, address, inPage, Bool.not_true, Bool.false_eq_true, if_false, List.isEmpty_iff, nonempty]
  exact congrArg _ (FireRes.run_stay_beginAccs site first ..)

theorem exec_stx_begins (address : baseCheck (x.opA n .i64) true = .at pa) {es ws : List Nat}
    (units : es = (rowUnits n.fmt).filter fun e => (laneAt (x.opB n n.fmt) e).valid && !(laneAt (x.opB n n.fmt) e).poison && x.sel n e)
    (writers : ws = es.filter fun e => unitValid n.fmt x.opC e && !es.any fun k => decide (e < k) && unitValid n.fmt x.opC k &&
      decide (idxAddr n.fmt pa (x.opB n n.fmt) k = idxAddr n.fmt pa (x.opB n n.fmt) e)) (nonempty : ws ≠ [])
    (inPage : idxFaults n.fmt (basePage (x.opA n .i64)) pa (x.opB n n.fmt) es = none) :
    exec (.stx n) s = .next ((s.beginAccs x (ws.flatMap fun e => layPhys e (idxAddr n.fmt pa (x.opB n n.fmt) e).toNat (elemSize n.fmt) true
      (unitBytes n.fmt x.opC e) (unitPsn n.fmt x.opC e) false) []).began x n) := by
  subst units writers
  change execStx n s = _
  rw [execStx, fireNode_eq site]
  simp only [first, room, address, inPage, Bool.not_true, Bool.false_eq_true, if_false, List.isEmpty_iff, nonempty]
  exact congrArg _ (FireRes.run_stay_beginAccs site first ..)
end

/-! ### XLAT (R171, R419) -/

/-- The translated element of an outcome. -/
def XRes.tae : XRes → Option Nat
  | .ok pa e => some (mkTae pa e.size (e.w && !e.cow) false).toNat
  | .fault _ => none

/-- The translated element of a pair, from the outcomes of the firing's translations. -/
def translatedPair (rs : List (Nat × XRes)) (i : Nat) : Nat := (rs.findSome? fun r => if r.1 = i then r.2.tae else none).getD 0

/-- A row of XLAT. -/
def xlatLanes (a : List Lane) (rs : List (Nat × XRes)) : List Lane :=
  (List.range 8).flatMap fun i => mkPair (translatedPair rs i) (pairValid a i) (pairPsn a i)

/-- The valid unpoisoned pairs that XLAT translates. -/
def Site.xlatOps (x : Site) (n : NodeRec) : List (Nat × Nat) :=
  ((List.range 8).filter fun i => pairValid (x.opA n n.fmt) i && !pairPsn (x.opA n n.fmt) i && x.sel n (2 * i)).map fun i => (i, pairVal (x.opA n n.fmt) i)

theorem exec_xlat {rs : List (Nat × XRes)}
    (outcomes : s.xlatPairs (.tile x.tile) x.rg.ctx (if n.mod.getLsbD 0 then .write else .read) (x.xlatOps n) [] = (rs, s1))
    (ok : ∀ r ∈ rs, ∃ pa e, r.2 = .ok pa e) :
    exec (.xlat n) s = .next (s1.fires x n (latency 0x200 n) 0 (x.sends n (x.memOut n (xlatLanes (x.opA n n.fmt) rs))) 0) := by
  change execXlat n s = _
  rw [execXlat, fireNode_eq site]
  rw [Site.xlatOps] at outcomes
  simp only [outcomes]
  have tae (i : Nat) : (fun r : Nat × XRes => if r.1 = i then r.2.tae else none) = fun r => match r.2 with
      | .ok pa e => if r.1 = i then some (mkTae pa e.size (e.w && !e.cow) false).toNat else none
      | .fault _ => none := by
    funext ⟨j, o⟩
    cases o with
    | ok pa e => rfl
    | fault c => exact ite_self _
  rw [List.filterMap_eq_nil_iff.mpr]
  · simp only [xlatLanes, translatedPair, tae]
    rfl
  · intro r hr
    obtain ⟨pa, e, h⟩ := ok r hr
    rw [h]
end

/-- The outcomes name the pairs in their order. -/
theorem State.xlatPairs_pairs (o : TlbOf) (ctx : Nat) (it : Intent) (ps : List (Nat × Nat)) (s : State) (acc : List (Nat × XRes)) :
    (s.xlatPairs o ctx it ps acc).1.map Prod.fst = acc.map Prod.fst ++ ps.map Prod.fst := by
  induction ps generalizing s acc with
  | nil => simp [State.xlatPairs]
  | cons p ps ih => simp [State.xlatPairs, ih]

theorem translatedPair_of_mem {rs : List (Nat × XRes)} (once : (rs.map Prod.fst).Nodup) {i v : Nat} {o : XRes} (h : (i, o) ∈ rs) (tae : o.tae = some v) :
    translatedPair rs i = v := by
  induction rs with
  | nil => cases h
  | cons r rs ih =>
    rw [List.map_cons, List.nodup_cons] at once
    rw [translatedPair, List.findSome?_cons]
    rcases List.mem_cons.mp h with rfl | h
    · rw [if_pos rfl, tae]
      rfl
    · have other : r.1 ≠ i := fun same => once.1 (same ▸ List.mem_map_of_mem (f := Prod.fst) h)
      rw [if_neg other]
      exact ih once.2 h

theorem Site.nodup_xlatOps (x : Site) (n : NodeRec) : ((x.xlatOps n).map Prod.fst).Nodup := by
  rw [Site.xlatOps, List.map_map]
  simpa [Function.comp_def] using List.nodup_range.filter _

end Sys2Proof.Machine

open Sys2Proof Sys2Proof.Machine

/-- Settles O44: each node's turn, with all accesses performed, at its first turn, and where every translation is a success.
That an element which the predicate does not select makes no access is the model's choice (log 55). -/
theorem nodeMemory : Obligations.NodeMemory := by
  unfold Obligations.NodeMemory
  intro s x n site f a b done sized
  refine ⟨fun s1 as begun all => ⟨?ld, ?ldg, ?st, ?stx⟩, fun pa first room => ⟨?ld_begins, ?st_begins, ?ldg_begins, ?stx_begins⟩,
    fun rs s1 _ outcomes ok => ?xlat⟩
  case ld =>
    refine ⟨_, ⟨_, _, exec_ld_ends site begun all⟩, fun e unit => ?_⟩
    rw [laneAt_loadLanes unit]
    refine ⟨mkLane_valid .., fun valid => ?_⟩
    rw [mkLane_eq_of_valid valid, Bool.or_false]
    exact ⟨rfl, rfl⟩
  case ldg =>
    obtain ⟨fl, ends⟩ := exec_ldg_ends site begun all
    refine ⟨_, ⟨_, fl, ends⟩, fun e unit => ?_⟩
    rw [laneAt_loadLanes unit]
    refine ⟨mkLane_valid .., fun valid => ?_⟩
    rw [mkLane_eq_of_valid valid]
    exact ⟨rfl, rfl⟩
  case st => exact ⟨_, ⟨_, _, exec_st_ends site begun all⟩, rfl, (congrArg (laneAt · 0) (Site.memOut_lanes ..)).trans (laneAt_complLanes as)⟩
  case stx =>
    obtain ⟨fl, ends⟩ := exec_stx_ends site begun all
    exact ⟨_, ⟨_, fl, ends⟩, rfl, (congrArg (laneAt · 0) (Site.memOut_lanes ..)).trans (laneAt_complLanes as)⟩
  case ld_begins => exact fun address => exec_ld_begins site first room address
  case st_begins =>
    intro address us full nonempty
    exact exec_st_begins site first room address rfl nonempty rfl
  case ldg_begins =>
    intro address es nonempty inPage
    exact exec_ldg_begins site first room address rfl nonempty inPage
  case stx_begins =>
    intro address es d ws nonempty inPage
    exact exec_stx_begins site first room address rfl rfl nonempty inPage
  case xlat =>
    refine ⟨_, ⟨_, _, exec_xlat site outcomes ok⟩, fun i hi => ⟨pairValid_pairs hi,
      fun valid => pairPsn_pairs hi ((pairValid_pairs hi).symm.trans valid), fun pa e mem => ?_⟩⟩
    have pairs : rs.map Prod.fst = (x.xlatOps n).map Prod.fst := by
      have := State.xlatPairs_pairs (.tile x.tile) x.rg.ctx (if n.mod.getLsbD 0 then .write else .read) (x.xlatOps n) s []
      rwa [show s.xlatPairs _ _ _ (x.xlatOps n) _ = _ from outcomes] at this
    have valid : pairValid (x.opA n n.fmt) i = true := by
      have op : i ∈ (x.xlatOps n).map Prod.fst := pairs ▸ List.mem_map_of_mem (f := Prod.fst) mem
      simp only [Site.xlatOps, List.map_map, List.mem_map, List.mem_filter, Bool.and_eq_true] at op
      obtain ⟨j, ⟨-, ⟨valid, -⟩, -⟩, rfl⟩ := op
      exact valid
    have value : translatedPair rs i = _ := translatedPair_of_mem (pairs ▸ x.nodup_xlatOps n) mem rfl
    rw [← value]
    exact pairVal_pairs hi valid (value ▸ BitVec.isLt _)
end

section
/-! SUPPORT. Fault records and minor faults: what enters the queue, what the SCC serves, and what outlasts its budget (R174, R175, R225). -/

namespace Sys2Proof.Machine

/-! ### The queue (R225) -/

theorem length_dropClass {q : List FaultRec} {c : Nat} (h : (oldest q c).isSome = true) : (dropClass c q).length + 1 = q.length := by
  induction q with
  | nil => cases h
  | cons f q ih =>
    by_cases hf : f.cls = c
    · simp [dropClass, hf]
    · simpa [dropClass, hf] using ih (by simpa [oldest, hf] using h)

/-- The queue's offer to a record, by the room it has. -/
theorem Region.offer_room {r : Region} (room : r.queue.length < 16) (f : FaultRec) : r.offer f = some (r.enqueue f, true) := if_pos room

theorem Region.offer_lost {r : Region} {f : FaultRec} (full : 16 ≤ r.queue.length) (cls : f.cls = 3) :
    r.offer f = some ({ r with fqlost := min 65535 (r.fqlost + 1) }, false) := by
  rw [Region.offer, if_neg (by omega), if_pos cls]

theorem Region.offer_displaces {r : Region} {f : FaultRec} (full : 16 ≤ r.queue.length) (cls : f.cls ≠ 3) (old : (oldest r.queue 3).isSome = true) :
    r.offer f = some ({ r with queue := dropClass 3 r.queue, fqlost := min 65535 (r.fqlost + 1) }.enqueue f, true) := by
  rw [Region.offer, if_neg (by omega), if_neg cls, if_pos old]

/-- The region after the oldest FAULT token has been taken with the answer `r1`. -/
def Region.taken (r1 : Region) (fs : List FaultRec) (entered : Bool) : Region :=
  { r1 with faultTokens := fs, idle := if entered then r1.idle.map fun i => (i.1, i.2.1, true) else r1.idle }

theorem exec_faultTokenEntry {s : State} {key : Nat} {r : Region} (region : tget s.regions key = some r) (run : r.run = .running) :
    exec (.faultTokenEntry key) s = .next (s.putRegion key (r.offerFirst r.faultTokens [])) := by
  change execFaultTokenEntry key s = _
  rw [execFaultTokenEntry, region]
  dsimp only
  rw [if_pos run]

/-- The oldest token, where the queue answers it, is the one taken. -/
theorem Region.offerFirst_of_answer {r r1 : Region} {f : FaultRec} {fs : List FaultRec} {entered : Bool} (tokens : r.faultTokens = f :: fs)
    (answer : r.offer f = some (r1, entered)) : r.offerFirst r.faultTokens [] = r1.taken fs entered := by
  rw [tokens, Region.offerFirst, answer]
  rfl

/-! ### Minor faults (R174, R175) -/

/-- Whether a fault waits for the resume of a saved region. -/
def Who.isParked : Who → Bool
  | .parked _ => true
  | _ => false

theorem Who.isParked_eq_false {who : Who} (placed : ∀ pid, who ≠ .parked pid) : who.isParked = false := by
  cases who with
  | parked pid => exact absurd rfl (placed pid)
  | _ => rfl

section
variable {s : State} {idx : Nat} {m : Minor} (pending : s.host.minors[idx]? = some m)
include pending

theorem exec_minorFaultServed_serves {s1 : State} (cls : codeClass m.code = 1) (placed : ∀ pid, m.who ≠ .parked pid)
    (served : (s.dropMinor idx).serveMinor m = some s1) :
    exec (.minorFaultServed idx) s = .next ((s1.changeRecord m fun _ => none).release m.who) := by
  change execMinorFaultServed idx s = _
  rw [execMinorFaultServed, pending]
  dsimp only
  rw [if_neg, served]
  rintro (other | parked)
  · exact other cls
  · exact Bool.false_ne_true ((Who.isParked_eq_false placed).symm.trans parked)

theorem exec_minorFaultServed_waits (unserved : (s.dropMinor idx).serveMinor m = none) : exec (.minorFaultServed idx) s = .next s := by
  change execMinorFaultServed idx s = _
  rw [execMinorFaultServed, pending]
  dsimp only
  rw [unserved]
  exact ite_self _
end

theorem length_changeFirst (p : FaultRec → Bool) (g : FaultRec → FaultRec) (q : List FaultRec) :
    (changeFirst p (fun f => some (g f)) q).length = q.length := by
  induction q with
  | nil => rfl
  | cons f q ih => cases h : p f <;> simp [changeFirst, h, ih]

/-- A changed record leaves the queue's length. -/
theorem State.tget_changeRecord {s : State} {m : Minor} {r : Region} (region : tget s.regions m.key = some r) (g : FaultRec → FaultRec) :
    ∃ r', tget (s.changeRecord m fun f => some (g f)).regions m.key = some r' ∧ r'.queue.length = r.queue.length := by
  rw [State.changeRecord, region]
  dsimp only
  split
  · exact ⟨_, State.tget_putRegion .., length_changeFirst ..⟩
  · exact ⟨_, State.tget_putRegion .., rfl⟩

/-! ### The budget (R174) -/

section
variable {s : State} {idx : Nat} {m : Minor} {r : Region} (pending : s.host.minors[idx]? = some m) (region : tget s.regions m.key = some r)
include pending region

theorem exec_budgetExceeded_within (early : s.now < m.since + r.budget) : exec (.budgetExceeded idx) s = .next s := by
  change execBudgetExceeded idx s = _
  rw [execBudgetExceeded, pending]
  dsimp only
  rw [region]
  exact if_pos (.inr (.inr (.inr (.inr early))))

theorem exec_budgetExceeded_major {r1 : Region} (cls : codeClass m.code = 1) (placed : ∀ pid, m.who ≠ .parked pid) (run : r.run = .running)
    (live : r.cancelling = false) (late : m.since + r.budget ≤ s.now) {s1 : State}
    (changed : s.changeRecord m (fun f => some { f with cls := 2, code := cBudget }) = s1) (region1 : tget s1.regions m.key = some r1) :
    exec (.budgetExceeded idx) s = .next (s1.putRegion m.key { r1 with run := .major cBudget }) := by
  change execBudgetExceeded idx s = _
  rw [execBudgetExceeded, pending]
  dsimp only
  rw [region]
  dsimp only
  rw [if_neg, changed, region1]
  rintro (other | parked | halted | cancelled | early)
  · exact other cls
  · exact Bool.false_ne_true ((Who.isParked_eq_false placed).symm.trans parked)
  · exact halted run
  · rw [live] at cancelled
    cases cancelled
  · omega
end

end Sys2Proof.Machine
end

section
/-! SUPPORT. Major faults: the region halts and is saved, and what it waits for is served (R176, R179). -/

namespace Sys2Proof.Machine

/-- The machine with the faults that keep a region from going on put off to its resume. -/
def State.deferFaults (s : State) (key : Nat) (r : Region) : State :=
  { s with host := { s.host with minors := s.host.minors.map fun m : Minor => if m.major key r s.now then { m with who := .parked r.launch } else m } }

/-- The machine once a region with a major fault has halted. -/
def State.majorHalt (s : State) (key : Nat) (r : Region) (code : Nat) : State := (s.deferFaults key r).haltRegion key (.major code)

theorem State.tget_majorHalt {s : State} {key : Nat} {r : Region} (region : tget s.regions key = some r) (code : Nat) :
    ∃ r1, tget (s.majorHalt key r code).regions key = some r1 ∧ r1.run = .major code ∧ r1.s = r.s ∧ r1.h = r.h := by
  obtain ⟨r1, region1, run, s_eq, h_eq, -⟩ := State.haltRegion_keeps (s := s.deferFaults key r) region (.major code)
  exact ⟨r1, region1, run, s_eq, h_eq⟩

/-- The region `r`, halted as `r1`, finishes what it had begun, and is then parked with its image; where that has no room the host is told. -/
def State.saveHalted (s : State) (key : Nat) (r r1 : Region) : State :=
  if (s.haltTurns key r1).isEmpty then
    match s.takeImage r1 with
    | some (a, s2) => s2.park key r.launch none (some a) (!s.host.minors.any fun m => decide (m.who = .parked r.launch)) (r.badCore key)
    | none => s.reportOnce (.saveFull r.launch)
  else s

theorem exec_majorFaultSave {s s1 : State} {key c : Nat} {r r1 : Region} (region : tget s.regions key = some r) (run : r.run = .major c)
    (live : r.cancelling = false) (halt : s.majorHalt key r c = s1) (halted : tget s1.regions key = some r1) :
    exec (.majorFaultSave key) s = .next (s1.saveHalted key r r1) := by
  rw [State.majorHalt, State.deferFaults] at halt
  dsimp only at halt
  change execMajorFaultSave key s = _
  rw [execMajorFaultSave, region, State.saveHalted]
  simp only [run, live, halt, halted, Bool.not_true, Bool.or_self, Bool.false_eq_true, if_false]
  cases (s1.haltTurns key r1).isEmpty with
  | false => rfl
  | true => cases s1.takeImage r1 <;> rfl

/-- The faults of a saved region. -/
def State.parkedFaults (s : State) (pid : Nat) : List Minor := s.host.minors.filter fun m => decide (m.who = .parked pid)

/-- The machine without them. -/
def State.withoutParkedFaults (s : State) (pid : Nat) : State :=
  { s with host := { s.host with minors := s.host.minors.filter fun m => decide (m.who ≠ .parked pid) } }

section
variable {s : State} {pid : Nat} {p : Parked} (parked : tget s.parked pid = some p) (waits : p.resident = false)
include parked waits

theorem exec_majorFaultServed_serves {s1 : State} (served : State.serveAll (s.parkedFaults pid) (s.withoutParkedFaults pid) = some s1) :
    exec (.majorFaultServed pid true) s = .next { s1 with parked := tput s1.parked pid { p with resident := true } } := by
  rw [State.parkedFaults, State.withoutParkedFaults] at served
  change execMajorFaultServed pid true s = _
  rw [execMajorFaultServed, parked]
  simp only [waits, served, Bool.false_eq_true, if_false, if_true]

theorem exec_majorFaultServed_fails {b : Bool}
    (unserved : b = false ∨ State.serveAll (s.parkedFaults pid) (s.withoutParkedFaults pid) = none) :
    exec (.majorFaultServed pid b) s = .next ((s.parkedFaults pid).foldl (fun s' m => s'.reportOnce (.pageLost m.ctx m.va)) s) := by
  have unmade : (if b then State.serveAll (s.parkedFaults pid) (s.withoutParkedFaults pid) else none) = none := by
    rcases unserved with rfl | h
    · rfl
    · rw [h]
      exact ite_self _
  rw [State.parkedFaults, State.withoutParkedFaults] at unmade
  change execMajorFaultServed pid b s = _
  rw [execMajorFaultServed, parked]
  simp only [waits, unmade, Bool.false_eq_true, if_false]
  rfl
end

theorem State.serveAll_single (s : State) (m : Minor) : State.serveAll [m] s = s.serveMajor m := by
  rw [State.serveAll]
  cases s.serveMajor m <;> rfl

theorem State.mem_reportOnce (s : State) (x : Report) : x ∈ (s.reportOnce x).dev.reports := by
  rw [State.reportOnce]
  split
  · exact List.contains_iff_mem.mp ‹_›
  · simp

theorem State.reportOnce_parked (s : State) (x : Report) : (s.reportOnce x).parked = s.parked := by
  rw [State.reportOnce]
  split <;> rfl

end Sys2Proof.Machine
end

section
/-! SUPPORT. Errors that checks and ECC find, and the rebase of the timestamps (R191, R228 to R233). -/

namespace Sys2Proof.Machine

/-! ### Checks of PEs (R229 to R231) -/

@[simp] theorem State.rasevUp_regions (s : State) (part lo w : Nat) : (s.rasevUp part lo w).regions = s.regions := rfl
@[simp] theorem State.tile_rasevUp (s : State) (part lo w k : Nat) : (s.rasevUp part lo w).tile k = s.tile k := rfl

/-- What a die's loss of features changes: the host's tables, and the turns that pre-empt. -/
theorem State.dropFeats_keeps {α : Type} (part : State → α) (posted : ∀ (s : State) (t : Turn), part (s.post t) = part s)
    (hosted : ∀ (s : State) (h : Hosting), part { s with host := h } = part s) (s : State) (die : Nat) : part (s.dropFeats die) = part s := by
  rw [State.dropFeats]
  split
  · rfl
  · refine (State.foldl_keeps (fun u e => ?_) _ _).trans (hosted ..)
    split
    · exact posted ..
    · rfl

@[simp] theorem State.dropFeats_regions (s : State) (die : Nat) : (s.dropFeats die).regions = s.regions :=
  s.dropFeats_keeps State.regions (fun _ _ => rfl) (fun _ _ => rfl) die

@[simp] theorem State.tile_dropFeats (s : State) (die k : Nat) : (s.dropFeats die).tile k = s.tile k :=
  s.dropFeats_keeps (fun u => u.tile k) (fun _ _ => rfl) (fun _ _ => rfl) die

/-- Whether a PE's last failed check lies within 2^20 cycles. -/
def State.failsAgain (s : State) (tile pe : Nat) : Bool := ((s.tile tile).pe pe).lastFail.any fun c => decide (s.now ≤ c + 2 ^ 20)

section
variable {s : State} {tile pe : Nat} (inTile : pe < 16) (unfenced : (s.tile tile).fenced.contains pe = false)
include inTile unfenced

theorem State.peFails_eq : s.peFails tile pe =
    if !s.failsAgain tile pe then
      (s.putTile tile ((s.tile tile).putPe pe { (s.tile tile).pe pe with lastFail := some s.now })).rasevUp (tile / 128) 32 16
    else if (s.tile tile).spareUsed.isNone then
      ((s.putTile tile { (s.tile tile).putPe pe { (s.tile tile).pe pe with lastFail := none } with spareUsed := some pe }).rasevUp
        (tile / 128) 24 8).rasevUp (tile / 128) 32 16
    else s.fencePe tile pe := by
  have checked : ¬ (16 ≤ pe ∨ (s.tile tile).fenced.contains pe = true) := by
    rw [unfenced]
    simpa using inTile
  rw [State.peFails, State.failsAgain]
  dsimp only
  rw [if_neg checked]
  cases ((s.tile tile).pe pe).lastFail <;> rfl

theorem State.peFails_first (first : s.failsAgain tile pe = false) : s.peFails tile pe =
    (s.putTile tile ((s.tile tile).putPe pe { (s.tile tile).pe pe with lastFail := some s.now })).rasevUp (tile / 128) 32 16 := by
  rw [State.peFails_eq inTile unfenced, first]
  exact if_pos rfl

variable (again : s.failsAgain tile pe = true)
include again

theorem State.peFails_spare (free : (s.tile tile).spareUsed = none) : s.peFails tile pe =
    ((s.putTile tile { (s.tile tile).putPe pe { (s.tile tile).pe pe with lastFail := none } with spareUsed := some pe }).rasevUp
      (tile / 128) 24 8).rasevUp (tile / 128) 32 16 := by
  rw [State.peFails_eq inTile unfenced, again, free]
  exact (if_neg (by decide)).trans (if_pos rfl)

theorem State.peFails_fences (taken : (s.tile tile).spareUsed.isSome = true) : s.peFails tile pe = s.fencePe tile pe := by
  rw [State.peFails_eq inTile unfenced, again, Option.isNone_eq_false_iff.mpr taken]
  exact (if_neg (by decide)).trans (if_neg (by decide))
end

/-- The record of a PE fenced off. -/
def State.peLost (s : State) (r : Region) (tile pe : Nat) : FaultRec :=
  { r.faultRec pe cPeLost 0 0 0 0 0 s.mem.pts with x := tile % 16, y := tile / 16 % 8, rtile := (r.rtile tile).getD 0 }

/-- A region whose PE has been fenced off: it halts, and the record enters its queue, or waits where that has no room. -/
def Region.losesPe (r : Region) (f : FaultRec) : Region :=
  match r.offer f with
  | some (r1, _) => { r1 with run := .major cPeLost }
  | none => { r with faultTokens := r.faultTokens ++ [f], run := .major cPeLost }

theorem Region.losesPe_run (r : Region) (f : FaultRec) : (r.losesPe f).run = .major cPeLost := by
  rw [Region.losesPe]
  split <;> rfl

theorem Region.losesPe_queue {r : Region} (room : r.queue.length < 16) (f : FaultRec) : (r.losesPe f).queue = r.queue ++ [{ f with seq := r.seq }] := by
  rw [Region.losesPe, Region.offer, if_pos room]
  rfl

/-- The machine once a PE counts as fenced off. -/
def State.withFence (s : State) (tile pe : Nat) : State :=
  (s.putTile tile { s.tile tile with fenced := ninsert (s.tile tile).fenced pe }).rasevUp (tile / 128) 16 8

/-- The machine once the region that holds the tile of a fenced PE has halted. -/
def State.haltFenced (s : State) (tile pe : Nat) : State :=
  match s.regionOf tile with
  | some (key, r) => if r.cancelling then s.withFence tile pe else (s.withFence tile pe).putRegion key (r.losesPe (s.peLost r tile pe))
  | none => s.withFence tile pe

theorem State.fencePe_eq (s : State) (tile pe : Nat) : s.fencePe tile pe = (s.haltFenced tile pe).dropFeats (dieOf (tile / 128)) := by
  have region : ((s.putTile tile { s.tile tile with fenced := ninsert (s.tile tile).fenced pe }).rasevUp (tile / 128) 16 8).regionOf tile =
      s.regionOf tile := rfl
  rw [State.fencePe, State.haltFenced]
  dsimp only
  rw [region]
  cases s.regionOf tile with
  | none => rfl
  | some e =>
    dsimp only
    split
    · rfl
    · rw [Region.losesPe, State.peLost]
      generalize e.2.offer _ = answer
      cases answer <;> rfl

theorem State.mem_fenced_fencePe (s : State) (tile pe : Nat) : pe ∈ ((s.fencePe tile pe).tile tile).fenced := by
  have tile_eq : (s.haltFenced tile pe).tile tile = (s.withFence tile pe).tile tile := by
    rw [State.haltFenced]
    split
    · split <;> rfl
    · rfl
  rw [State.fencePe_eq, State.tile_dropFeats, tile_eq, State.withFence, State.tile_rasevUp, State.tile_putTile]
  exact (mem_ninsert ..).mpr (.inl rfl)

theorem State.tget_fencePe {s : State} {tile key : Nat} {r : Region} (holds : s.regionOf tile = some (key, r)) (live : r.cancelling = false) (pe : Nat) :
    tget (s.fencePe tile pe).regions key = some (r.losesPe (s.peLost r tile pe)) := by
  rw [State.fencePe_eq, State.dropFeats_regions, State.haltFenced, holds]
  dsimp only
  rw [live]
  exact State.tget_putRegion ..

/-! ### Errors in control cores (R232) -/

/-- The region that a trap leaves where no trap is active and there is a handler. -/
theorem State.takeTrap_taken {s : State} {key : Nat} {r : Region} (region : tget s.regions key = some r) (ready : r.active = false)
    (handler : r.trapbase ≠ 0) (f : FaultRec) (resume efx swc : Nat) (queue : Bool) :
    ∃ r', tget (s.takeTrap key f resume efx swc queue).regions key = some r' ∧ r'.cancelling = r.cancelling ∧
      r'.trapRec = some (if queue then f else { f with seq := r.seq }) ∧ r'.trapcause = trapCause f.code swc efx queue := by
  rw [State.takeTrap, region]
  dsimp only
  rw [if_neg (by rw [ready]; simpa using handler)]
  exact ⟨_, State.tget_putRegion .., rfl, rfl, rfl⟩

section
variable {s : State} {key : Nat} {r : Region} (region : tget s.regions key = some r) (run : r.run = .running) (live : r.cancelling = false)
include region run live

/-- A second error in uncommitted state within 2^20 cycles halts the region. -/
theorem exec_ccEccError_again {c : Nat} (before : r.ccErr = some c) (soon : s.now ≤ c + 2 ^ 20) :
    exec (.ccEccError key false) s = .next (s.putRegion key { r with run := .major cUncorrectable, ccErr := none }) := by
  refine congrArg Host.Outcome.next (?_ : s.coreFails key = _)
  rw [State.coreFails, region]
  dsimp only
  rw [if_neg (by simp [run, live]), before]
  exact if_pos soon

/-- Any other abandons what is not committed. -/
theorem exec_ccEccError_first (alone : ∀ c, r.ccErr = some c → c + 2 ^ 20 < s.now) :
    exec (.ccEccError key false) s = .next (((s.dropCore key).putRegion key { r.haltCore with ccErr := some s.now }).rasevUp r.part 0 16) := by
  refine congrArg Host.Outcome.next (?_ : s.coreFails key = _)
  rw [State.coreFails, region]
  dsimp only
  rw [if_neg (by simp [run, live])]
  split
  · next c before => exact if_neg (Nat.not_le.mpr (alone c before))
  · rfl

/-- The record of an error in committed state (R225). -/
def State.coreLost (s : State) (r : Region) : FaultRec := r.faultRec 31 cUncorrectable 0 0 0 0 0 s.mem.pts

/-- An error in committed state takes a trap and stops the region that is left. -/
theorem exec_ccEccError_committed : exec (.ccEccError key true) s = .next (
    let s1 := s.takeTrap key (s.coreLost r) (r.resumeAt.getD 0) 0 0 false
    match tget s1.regions key with
    | some r1 => if r1.cancelling then s1 else s1.putRegion key { r1 with run := .stopped }
    | none => s1) := by
  change execCcEccError key true s = _
  rw [execCcEccError, region]
  dsimp only
  rw [if_neg (by simp), if_neg (by simp [run, live])]
  rfl

theorem exec_ccEccError_committed_stops : ∃ t, exec (.ccEccError key true) s = .next t ∧
    ∀ r', tget t.regions key = some r' → r'.cancelling = true ∨ r'.run = .stopped := by
  refine ⟨_, exec_ccEccError_committed region run live, fun r' h => ?_⟩
  dsimp only at h
  split at h
  · next r1 h1 =>
    split at h
    · exact .inl (Option.some.inj (h1.symm.trans h) ▸ ‹_›)
    · exact .inr (Option.some.inj ((State.tget_putRegion ..).symm.trans h) ▸ rfl)
  · next h1 => exact absurd h (by rw [h1]; exact nofun)

/-- With a handler and no trap active the record is kept as that of the trap. -/
theorem exec_ccEccError_committed_traps (ready : r.active = false) (handler : r.trapbase ≠ 0) : ∃ t r' f, exec (.ccEccError key true) s = .next t ∧
    tget t.regions key = some r' ∧ r'.run = .stopped ∧ r'.trapRec = some f ∧ f.code = cUncorrectable ∧ field r'.trapcause 7 0 = cUncorrectable := by
  obtain ⟨r1, region1, live1, record, cause⟩ := State.takeTrap_taken region ready handler (s.coreLost r) (r.resumeAt.getD 0) 0 0 false
  rw [exec_ccEccError_committed region run live]
  dsimp only
  rw [region1]
  dsimp only
  rw [live1, live]
  refine ⟨_, _, _, rfl, State.tget_putRegion .., rfl, record, rfl, ?_⟩
  dsimp only
  rw [cause]
  exact (by decide : field (trapCause cUncorrectable 0 0 false) 7 0 = cUncorrectable)
end

/-! ### Uncorrectable errors (R228, R233, Table 10.5) -/

theorem exec_uncorrectableError_sector {n : Nat} (inMemory : n * 64 < Config.memBytes) (s : State) :
    exec (.uncorrectableError (.sector n)) s = .next { s with mem := { s.mem with poison := ninsert s.mem.poison n } } := congrArg _ (if_pos inMemory)

theorem exec_uncorrectableError_orphanLine {n : Nat} (inMemory : n * 64 < Config.memBytes) (s : State) :
    exec (.uncorrectableError (.orphanLine n)) s = .next (s.orphan n) := congrArg _ (if_pos inMemory)

theorem exec_uncorrectableError_corrected {part : Nat} (inDevice : part < 16) (s : State) :
    exec (.uncorrectableError (.corrected part)) s = .next (s.correctedUp part) := congrArg _ (if_pos inDevice)

theorem exec_uncorrectableError_foldRow {s : State} {tile row : Nat} {r : Row} (held : tget (s.tile tile).rows row = some r) :
    exec (.uncorrectableError (.foldRow tile row)) s =
      .next (s.putTile tile { s.tile tile with rows := tput (s.tile tile).rows row { r with lanes := poisonLanes r.lanes } }) := by
  change execUncorrectableError (.foldRow tile row) s = _
  rw [execUncorrectableError]
  dsimp only
  rw [held]

theorem getElem?_poisonChan {cs : List ChanTok} {idx : Nat} {c : ChanTok} (h : cs[idx]? = some c) :
    (poisonChan cs idx)[idx]? = some { c with tok := c.tok.poisoned } := by
  rw [poisonChan, h]
  dsimp only
  rw [getElem?_lput, if_pos rfl, h]
  rfl

/-- The fields of OPLOG as an orphan leaves them. -/
theorem field_oplog {next lost count : Nat} (hn : next < 256) (hl : lost < 256) (hc : count < 256) :
    field (BitVec.ofNat 32 (next * 2 ^ 24 + lost * 256 + count)) 31 24 = next ∧ field (BitVec.ofNat 32 (next * 2 ^ 24 + lost * 256 + count)) 7 0 = count := by
  simp only [field, BitVec.toNat_ofNat, Nat.shiftRight_eq_div_pow]
  omega

theorem State.orphan_oplog (s : State) (n : Nat) :
    let old := tgetD s.dev.oplog (homeDie (n * 64)) 0
    let log := tgetD (s.orphan n).dev.oplog (homeDie (n * 64)) 0
    field log 31 24 = (field old 31 24 + 1) % 256 ∧ field log 7 0 = min 255 (field old 7 0 + 1) := by
  intro old log
  have lost : field old 15 8 < 256 := Nat.mod_lt _ (by decide)
  have count : log = BitVec.ofNat 32 ((field old 31 24 + 1) % 256 * 2 ^ 24 +
      (if decide (field old 7 0 = 255) && (tget s.dev.oprings (homeDie (n * 64) * 256 + field old 31 24)).isSome then min 255 (field old 15 8 + 1)
        else field old 15 8) * 256 + min 255 (field old 7 0 + 1)) := by
    simp only [log, State.orphan, tgetD_tput, if_true]
    rfl
  rw [count]
  exact field_oplog (Nat.mod_lt _ (by decide)) (by split <;> omega) (by omega)

/-- The fields of RASEV as a corrected error leaves them (Table 10.4). -/
theorem field_rasev (old : Word) :
    field (BitVec.ofNat 64 (old.toNat % 2 ^ 48 + min 65535 (old.toNat / 2 ^ 48 + 1) * 2 ^ 48)) 63 48 = min 65535 (field old 63 48 + 1) ∧
    field (BitVec.ofNat 64 (old.toNat % 2 ^ 48 + min 65535 (old.toNat / 2 ^ 48 + 1) * 2 ^ 48)) 47 0 = field old 47 0 := by
  have := old.isLt
  simp only [field, BitVec.toNat_ofNat, Nat.shiftRight_eq_div_pow]
  omega

end Sys2Proof.Machine

open Sys2Proof Sys2Proof.Machine

/-- Settles O59: each event by its lemmas above, one clause of the statement after the other. The record that the budget's stands in for, the fields
past a count's width, LOST of an orphan, the new timestamps and events whose condition does not hold are the model's choices (logs 66, 72, 74, 77, 78). -/
theorem faultEvents : Obligations.FaultEvents := by
  unfold Obligations.FaultEvents
  refine ⟨?tokens, fun r f => ⟨{ f with seq := r.seq }, rfl, rfl, rfl, rfl⟩, ?served, ?budget, ?save, ?resident, ?major, ?pe, ?core, ?places, ?rebase⟩
  case tokens =>
    intro s key r f fs region run tokens lost
    refine ⟨s.putRegion key (r.offerFirst r.faultTokens []), ⟨exec_faultTokenEntry region run, rfl⟩, fun room => ⟨_, State.tget_putRegion .., ?_⟩,
      fun full cls => ?_, fun full cls old => ⟨_, State.tget_putRegion .., ?_⟩⟩
    · rw [Region.offerFirst_of_answer tokens (Region.offer_room room f)]
      exact ⟨rfl, rfl, rfl⟩
    · rw [Region.offerFirst_of_answer tokens (Region.offer_lost full cls)]
      exact State.tget_putRegion ..
    · rw [Region.offerFirst_of_answer tokens (Region.offer_displaces full cls old)]
      refine ⟨rfl, rfl, ?_⟩
      simpa [Region.taken, Region.enqueue] using length_dropClass old
  case served =>
    exact fun s idx m pending cls placed => ⟨fun s1 served => exec_minorFaultServed_serves pending cls placed served,
      exec_minorFaultServed_waits pending⟩
  case budget =>
    intro s idx m r pending region cls placed run live
    obtain ⟨r1, region1, queue⟩ := State.tget_changeRecord region fun f => { f with cls := 2, code := cBudget }
    exact ⟨fun late => ⟨_, _, exec_budgetExceeded_major pending region cls placed run live late rfl region1, State.tget_putRegion .., rfl, queue,
      State.changeRecord_mem ..⟩, exec_budgetExceeded_within pending region⟩
  case save =>
    intro s key r c region run live
    obtain ⟨r1, region1, run1, s_eq, h_eq⟩ := State.tget_majorHalt region c
    have saves : exec (.majorFaultSave key) s = .next ((s.majorHalt key r c).saveHalted key r r1) := exec_majorFaultSave region run live rfl region1
    rw [State.saveHalted] at saves
    refine ⟨s.majorHalt key r c, r1, fun busy => ?_, fun still => ⟨fun a s2 image => ⟨_, by rw [saves, still, image]; rfl⟩, fun full => ?_⟩,
      region1, run1, s_eq, h_eq⟩
    · rw [saves, if_neg (by simpa using busy)]
    · rw [saves, still, full]
      rfl
  case resident =>
    intro s pid p parked waits others
    have no_faults : s.parkedFaults pid = [] := List.filter_eq_nil_iff.mpr fun m hm => by simpa using others m hm
    refine ⟨⟨_, exec_majorFaultServed_serves (s1 := s.withoutParkedFaults pid) parked waits (by rw [no_faults]; rfl), tget_tput_self .., rfl⟩, ?_⟩
    rw [exec_majorFaultServed_fails parked waits (.inl rfl), no_faults]
    rfl
  case major =>
    intro s pid p m parked waits single
    have faults : s.parkedFaults pid = [m] := single
    refine ⟨fun s1 served => exec_majorFaultServed_serves parked waits (by rw [faults, State.serveAll_single]; exact served), fun b unserved => ?_⟩
    refine ⟨_, exec_majorFaultServed_fails parked waits (unserved.imp_right fun h => by rw [faults, State.serveAll_single]; exact h), ?_⟩
    rw [faults]
    exact ⟨State.mem_reportOnce .., State.reportOnce_parked ..⟩
  case pe =>
    intro s tile pe inTile unfenced p again
    refine ⟨fun first => ⟨s.peFails tile pe, rfl, ?_⟩, fun second free => ⟨s.peFails tile pe, rfl, ?_⟩,
      fun second taken => ⟨s.peFails tile pe, rfl, ?_⟩⟩
    · rw [State.peFails_first inTile unfenced first, State.tile_rasevUp, State.tile_putTile, Tile.pe_putPe]
      exact ⟨rfl, rfl⟩
    · rw [State.peFails_spare inTile unfenced second free, State.tile_rasevUp, State.tile_rasevUp, State.tile_putTile]
      exact ⟨rfl, rfl⟩
    · rw [State.peFails_fences inTile unfenced second taken]
      refine ⟨State.mem_fenced_fencePe .., fun key r holds live => ⟨_, State.tget_fencePe holds live pe, Region.losesPe_run .., fun room => ?_⟩⟩
      exact ⟨_, Region.losesPe_queue room _, rfl, rfl, rfl, rfl⟩
  case core =>
    intro s key r region run live
    refine ⟨exec_ccEccError_committed_traps region run live, fun _ => exec_ccEccError_committed_stops region run live,
      fun c before soon => ⟨_, _, exec_ccEccError_again region run live before soon, State.tget_putRegion .., rfl, rfl, rfl⟩,
      fun alone => ⟨_, _, exec_ccEccError_first region run live alone, State.tget_putRegion .., ?_⟩⟩
    exact ⟨run, rfl, rfl, rfl, rfl⟩
  case places =>
    intro s
    refine ⟨?sector, ?orphan, ?row, ?channel, fun tile idx => ⟨_, rfl, ?matching⟩, ?miss, fun tile pe => ⟨_, rfl, ?accumulator⟩, fun tile pe => rfl,
      fun key => rfl, ?corrected⟩
    case sector => exact fun n inMemory => ⟨_, exec_uncorrectableError_sector inMemory s, (mem_ninsert ..).mpr (.inl rfl), rfl⟩
    case orphan =>
      exact fun n inMemory => ⟨_, exec_uncorrectableError_orphanLine inMemory s, (mem_ninsert ..).mpr (.inl rfl), rfl, tget_tput_self ..,
        s.orphan_oplog n⟩
    case row =>
      intro tile row r held
      refine ⟨_, exec_uncorrectableError_foldRow held, ?_⟩
      rw [State.tile_putTile]
      exact tget_tput_self ..
    case channel => exact fun tile idx c stands => ⟨_, rfl, by rw [State.tile_putTile]; exact getElem?_poisonChan stands⟩
    case matching => rw [State.tile_putTile]
    case miss => exact fun tile idx c stands => ⟨_, rfl, by rw [State.tile_putTile]; exact getElem?_poisonChan stands⟩
    case accumulator => rw [State.tile_putTile, Tile.pe_putPe]
    case corrected =>
      intro part inDevice
      refine ⟨_, exec_uncorrectableError_corrected inDevice s, ?_⟩
      intro old new
      have counted : new = _ := tgetD_tput ..
      rw [counted, if_pos rfl]
      exact ⟨(field_rasev old).1, (field_rasev old).2, fun p other => tget_tput_ne _ _ _ _ other⟩
  case rebase =>
    intro s m late
    exact ⟨_, if_neg (Nat.not_lt.mpr late), rfl, rfl, tget_map (fun _ v => v - s.mem.pts) _, tget_map (fun _ v => v - s.mem.pts) _⟩
end

section
/-! SUPPORT. Sums of cairns (Table 8.3). -/

namespace Sys2Proof.Machine

/-- A sum of cairns stops at the largest value (Table 8.3). -/
theorem toNat_cairnSum (v k : Word) : (cairnSum v k).toNat = min (v.toNat + k.toNat) (2 ^ 64 - 1) := by
  unfold cairnSum
  split
  · next fits =>
    rw [BitVec.toNat_add, Nat.mod_eq_of_lt fits]
    omega
  · next large =>
    rw [BitVec.toNat_allOnes]
    omega

end Sys2Proof.Machine

open Sys2Proof Sys2Proof.Machine

/-- Settles O23: the value of the cairn becomes the sum, which saturates, and the flags are not written. -/
theorem cairnAddSaturates : Obligations.CairnAddSaturates := by
  unfold Obligations.CairnAddSaturates
  intro cs k j n
  refine ⟨?sum, fun other => ?frame, rfl⟩
  case sum => rw [Cairns.val_add, if_pos rfl, toNat_cairnSum]
  case frame => rw [Cairns.val_add, if_neg other]
end

section
/-! SUPPORT. The nodes of groups 11 and 12: the operands of cairn nodes, the agreement of copies, and the turn of each node
(R196, R198, R235, R430 to R436, R446). -/

namespace Sys2Proof.Machine

/-! ### The elements that a fault names (Table 10.2) -/

/-- The mask of elements in ascending order has the bits of those elements. -/
theorem getLsbD_elemMask {es : List Nat} (ascending : es.Pairwise (· < ·)) {e : Nat} (he : e < 16) : (elemMask es).getLsbD e = decide (e ∈ es) := by
  have bits := Nat.mem_bitIndices (i := e) (n := (es.map fun i => 2 ^ i).sum)
  rw [Nat.bitIndices_sum_map_two_pow ascending.sortedLT] at bits
  rw [elemMask, BitVec.getLsbD_ofNat, Bool.eq_iff_iff]
  simp [he, bits]

/-- The lowest of some elements is one of them, and none is below it. -/
theorem lowest_spec {es : List Nat} {e : Nat} (he : e ∈ es) : lowest es ∈ es ∧ lowest es ≤ e := by
  cases es with
  | nil => cases he
  | cons a l =>
    have least : (a :: l).min? = some (lowest (a :: l)) := by
      rw [List.min?_cons', lowest, List.headD_cons, List.foldl_cons, Nat.min_self]
    obtain ⟨mem, le⟩ := List.min?_eq_some_iff.mp least
    exact ⟨mem, le e he⟩

/-! ### Operands of cairn nodes (R430) -/

section
variable (x : Site) (n : NodeRec)

/-- Whether the operands that a cairn node takes from tokens are valid. -/
def Site.cairnHere : Prop :=
  (n.mod.getLsbD 0 = true → pairValid (x.opA n .n64) 0 = true) ∧ (n.mod.getLsbD 1 = true → pairValid (x.opB n .n64) 0 = true)

/-- Whether an element of an operand that a cairn node takes is poisoned. -/
def Site.cairnPsn (e : Nat) : Bool := n.mod.getLsbD 0 && (laneAt (x.opA n .n64) e).poison || n.mod.getLsbD 1 && (laneAt (x.opB n .n64) e).poison

/-- The cairn that a cairn node names. -/
def Site.cairnNum : Nat := if n.mod.getLsbD 1 then pairVal (x.opB n .n64) 0 else field n.lit 19 0

/-- The amount or threshold of a cairn node. -/
def Site.cairnAmount : Word := BitVec.ofNat 64 (if n.mod.getLsbD 0 then pairVal (x.opA n .n64) 0 else field n.lit 31 20)

variable {x n}

theorem Site.cairnHere_iff :
    x.cairnHere n ↔ ((n.mod.getLsbD 0 && !pairValid (x.opA n .n64) 0) || (n.mod.getLsbD 1 && !pairValid (x.opB n .n64) 0)) = false := by
  simp [Site.cairnHere]

theorem Site.cairnOps_skip (absent : ¬ x.cairnHere n) : x.cairnOps n = .skip := by
  rw [Site.cairnHere_iff, Bool.not_eq_false] at absent
  exact if_pos absent

section
variable (here : x.cairnHere n)
include here

/-- With its operands valid, poison, then the number of the cairn, decide what a cairn node does. -/
theorem Site.cairnOps_here : x.cairnOps n =
    if (x.cairnPsn n 0 || x.cairnPsn n 1) = true then .fault cPoisonedOperand ((pairEls 0).filter (x.cairnPsn n))
    else if 2 ^ 20 ≤ x.cairnNum n then .fault cNoCairn (pairEls 0) else .ok (x.cairnNum n) (x.cairnAmount n) := by
  have poisoned : ((n.mod.getLsbD 0 && pairPsn (x.opA n .n64) 0) || (n.mod.getLsbD 1 && pairPsn (x.opB n .n64) 0)) = (x.cairnPsn n 0 || x.cairnPsn n 1) := by
    grind [pairPsn, Site.cairnPsn]
  have absent : (n.mod.getLsbD 1 && decide (2 ^ 20 ≤ pairVal (x.opB n .n64) 0)) = decide (2 ^ 20 ≤ x.cairnNum n) := by
    have literal : field n.lit 19 0 < 2 ^ 20 := Nat.mod_lt _ (by decide)
    rw [Site.cairnNum]
    cases n.mod.getLsbD 1
    · simpa using literal
    · rfl
  rw [Site.cairnOps, Site.cairnHere_iff.mp here, poisoned, absent]
  simp only [decide_eq_true_eq]
  rfl

end

/-- The elements at fault are in ascending order. -/
theorem pairwise_cairnPsn : ((pairEls 0).filter (x.cairnPsn n)).Pairwise (· < ·) := (by decide : (pairEls 0).Pairwise (· < ·)).filter _

theorem getLsbD_elemMask_cairnPsn {e : Nat} (he : e < 16) : (elemMask ((pairEls 0).filter (x.cairnPsn n))).getLsbD e = (decide (e < 2) && x.cairnPsn n e) := by
  rw [getLsbD_elemMask pairwise_cairnPsn he, Bool.eq_iff_iff]
  simp [pairEls]
  omega

theorem lowest_cairnPsn (poisoned : (x.cairnPsn n 0 || x.cairnPsn n 1) = true) :
    lowest ((pairEls 0).filter (x.cairnPsn n)) = if x.cairnPsn n 0 then 0 else 1 := by
  cases first : x.cairnPsn n 0 with
  | true => cases second : x.cairnPsn n 1 <;> simp [pairEls, first, second, lowest]
  | false =>
    have second : x.cairnPsn n 1 = true := by simpa [first] using poisoned
    simp [pairEls, first, second, lowest]

end

/-- A firing's add to a cairn, which queues a record where it overflows (Table 8.3). -/
theorem State.cairnAddBy_eq (s : State) (key k : Nat) (v : Word) (f : FaultRec) :
    s.cairnAddBy key k v f = if (s.cairn.val k).toNat + v.toNat < 2 ^ 64 then s.cairnAdd k v else (s.cairnAdd k v).faultToken key f := by
  by_cases fits : (s.cairn.val k).toNat + v.toNat < 2 ^ 64
  · rw [if_pos fits]
    exact if_neg (by simpa [cairnOver] using fits)
  · rw [if_neg fits]
    exact if_pos (by simpa [cairnOver] using fits)

/-- A firing that waits on a cairn has started. -/
theorem State.firingBegun_putFiring_cairn {s : State} {x : Site} {f : Firing} (stands : x.f ∈ (s.tile x.tile).ready) (same : f.id = x.f.id)
    (waits : f.st = .cairn) : (s.putFiring x f).firingBegun x = true := by
  simp only [State.firingBegun, State.putFiring, State.tile_putTile, List.any_map, List.any_eq_true]
  exact ⟨x.f, stands, by simp [same, waits]⟩

/-- The turn after which a firing stands as started starts it. -/
theorem FireRes.run_stay_started {s : State} {x : Site} (first : x.f.begun = false) (begun : s.firingBegun x = true) (n : NodeRec) (lat gap : Nat) :
    (FireRes.stay s).run x n lat gap = s.began x n := by
  simp [first, begun]

/-! ### CADD and CWAIT (R196, R430) -/

/-- What CADD forwards: its left token as a completion token. -/
def Site.fwdCompl (x : Site) (n : NodeRec) : Token := { x.fwd n with flags := { (x.fwd n).flags with compl := true } }

section
variable {s : State} {x : Site} {n : NodeRec} {k code : Nat} {v : Word} {es : List Nat} (site : s.site = some x)
include site

theorem exec_caddNode_skip (ops : x.cairnOps n = .skip) :
    exec (.caddNode n) s = .next (s.fires x n (latency 0x2C0 n) 0 (toBoth (x.fwdCompl n)) 0) := by
  change execCaddNode n s = _
  simp only [execCaddNode, fireNode_eq site, ops]
  rfl

theorem exec_caddNode_fault (ops : x.cairnOps n = .fault code es) :
    exec (.caddNode n) s = .next ((s.began x n).nodeFault x (x.elemFault s code 0 es 0)) := by
  change execCaddNode n s = _
  simp only [execCaddNode, fireNode_eq site, ops, FireRes.run_fault]

theorem exec_caddNode_adds (ops : x.cairnOps n = .ok k v) : exec (.caddNode n) s =
    .next ((s.cairnAddBy x.key k v (x.tapRec s)).fires x n (latency 0x2C0 n) 0 (toBoth (x.fwdCompl n)) 0) := by
  change execCaddNode n s = _
  simp only [execCaddNode, fireNode_eq site, ops]
  rfl

/-- A wait that has been answered ends. -/
theorem exec_cwaitNode_begun (begun : x.f.begun = true) :
    exec (.cwaitNode n) s = .next (s.fires x n (latency 0x2C1 n) 0 (toBoth (x.fwd n)) 0) := by
  change execCwaitNode n s = _
  simp only [execCwaitNode, fireNode_eq site, begun, if_true]
  rfl

theorem exec_cwaitNode_skip (ops : x.cairnOps n = .skip) :
    exec (.cwaitNode n) s = .next (s.fires x n (latency 0x2C1 n) 0 (toBoth (x.fwd n)) 0) := by
  change execCwaitNode n s = _
  simp only [execCwaitNode, fireNode_eq site, ops, ite_self]
  rfl

theorem exec_cwaitNode_reached (ops : x.cairnOps n = .ok k v) (reached : v.toNat ≤ (s.cairn.val k).toNat) :
    exec (.cwaitNode n) s = .next (s.fires x n (latency 0x2C1 n) 0 (toBoth (x.fwd n)) 0) := by
  change execCwaitNode n s = _
  simp only [execCwaitNode, fireNode_eq site, ops, reached, if_true, ite_self]
  rfl

section
variable (first : x.f.begun = false)
include first

theorem exec_cwaitNode_fault (ops : x.cairnOps n = .fault code es) :
    exec (.cwaitNode n) s = .next ((s.began x n).nodeFault x (x.elemFault s code 0 es 0)) := by
  change execCwaitNode n s = _
  simp [execCwaitNode, fireNode_eq site, ops, first]

/-- The machine in which a firing waits on a cairn. -/
def State.waitsOn (s : State) (x : Site) (k : Nat) (v : Word) : State :=
  State.putFiring { s with cairn := { s.cairn with waits := s.cairn.waits ++ [⟨k, v, x.who⟩] } } x { x.f with st := .cairn }

theorem exec_cwaitNode_waits (ops : x.cairnOps n = .ok k v) (short : (s.cairn.val k).toNat < v.toNat) :
    exec (.cwaitNode n) s = .next ((s.waitsOn x k v).began x n) := by
  have begun : (s.waitsOn x k v).firingBegun x = true := State.firingBegun_putFiring_cairn (State.mem_ready_of_site site) rfl rfl
  change execCwaitNode n s = _
  rw [execCwaitNode, fireNode_eq site]
  dsimp only
  rw [if_neg (by simp [first]), ops]
  dsimp only
  rw [if_neg (Nat.not_le.mpr short)]
  exact congrArg _ (FireRes.run_stay_started first begun n _ 0)

end
end

/-! ### BIN (R198, R431) -/

section
variable {s : State} {x : Site} {n : NodeRec} (site : s.site = some x)

/-- The contenders that BIN has. -/
def Site.contenders (x : Site) : List Token := x.inst.buf ++ x.f.l.toList

/-- The belays that BIN has. -/
def Site.belays (x : Site) : List Token := x.inst.buf2 ++ x.f.r.toList.filter fun t => t.flags.permit

/-- The flag of a token that is no belay. -/
def Site.noBelay (x : Site) : BitVec 10 := if x.f.r.any fun t => !t.flags.permit then fUNM else 0

include site

/-- A contender without a belay waits, and so does a belay without a contender. -/
theorem exec_bin_waits (token : n.lsrc = .token) (alone : x.contenders = [] ∨ x.belays = []) : exec (.bin n) s =
    .next ((s.putInst x { x.inst with buf := x.contenders, buf2 := x.belays }).fires x n (latency 0x2C2 n) 0 [] x.noBelay) := by
  change execBin n s = _
  rw [Site.contenders, Site.belays] at *
  rw [execBin, fireNode_eq site]
  dsimp only
  rw [if_pos token]
  split
  · next contender belay => rcases alone with empty | empty <;> simp_all
  · rfl

/-- The heads of both queues pair. -/
theorem exec_bin_pairs (token : n.lsrc = .token) {c b : Token} {cs bs : List Token} (contender : x.contenders = c :: cs) (belay : x.belays = b :: bs) :
    exec (.bin n) s = .next ((s.putInst x { x.inst with buf := cs, buf2 := bs }).fires x n (latency 0x2C2 n) 0 [(0, c), (1, belayTok c.itag)] x.noBelay) := by
  rw [Site.contenders] at contender
  rw [Site.belays] at belay
  change execBin n s = _
  rw [execBin, fireNode_eq site]
  dsimp only
  rw [if_pos token, contender, belay]
  rfl

/-- A contender operand that is no token pairs with every belay. -/
theorem exec_bin_operand (operand : n.lsrc ≠ .token) : exec (.bin n) s =
    .next ((s.putInst x { x.inst with buf2 := [] }).fires x n (latency 0x2C2 n) 0
      (x.belays.flatMap fun b => [(0, { x.fwd n with itag := b.itag }), (1, belayTok b.itag)]) x.noBelay) := by
  change execBin n s = _
  rw [execBin, fireNode_eq site]
  dsimp only
  rw [if_neg operand]
  rfl

end

/-! ### VOTE (R235, R433) -/

/-- All pairs of two lists of one length meet a condition where the elements at each place do. -/
theorem all_zip_iff {α : Type} {l m : List α} (same : l.length = m.length) (p : α → α → Bool) (d : α) :
    ((l.zip m).all fun q => p q.1 q.2) = true ↔ ∀ i, i < l.length → p (l.getD i d) (m.getD i d) = true := by
  rw [List.all_eq_true, List.forall_mem_iff_forall_getElem]
  simp only [List.getElem_zip, List.length_zip, ← same, Nat.min_self]
  refine forall₂_congr fun i hi => ?_
  rw [List.getD_eq_getElem _ _ hi, List.getD_eq_getElem _ _ (same ▸ hi)]

theorem agree_iff (a b : Token) : agree a b = true ↔ a.itag = b.itag ∧ a.flags = b.flags ∧ a.lanes.length = b.lanes.length ∧ ∀ i, i < a.lanes.length →
    (laneAt a.lanes i).valid = (laneAt b.lanes i).valid ∧ (laneAt a.lanes i).poison = (laneAt b.lanes i).poison ∧
    ((laneAt a.lanes i).valid = true → (laneAt a.lanes i).val = (laneAt b.lanes i).val) := by
  rw [agree]
  simp only [Bool.and_eq_true, decide_eq_true_eq, and_assoc]
  refine and_congr_right fun _ => and_congr_right fun _ => and_congr_right fun same => ?_
  rw [all_zip_iff same (fun p q => decide (p.valid = q.valid) && decide (p.poison = q.poison) && (!p.valid || decide (p.val = q.val))) Lane.off]
  simp [laneAt, imp_iff_not_or, and_assoc]

section
variable {s : State} {x : Site} {n : NodeRec} {w : Token}

/-- The node of a vote with one more token held. -/
def Site.voteHeld (x : Site) (w : Token) : NodeInst := { x.inst with buf := x.inst.buf ++ [w] }

/-- The node of a vote without the tokens of an ITAG. -/
def Site.voteGone (x : Site) (w : Token) : NodeInst :=
  { x.inst with buf := x.inst.buf.filter (fun y => !decide (y.itag = w.itag)), buf2 := x.inst.buf2.filter fun y => !decide (y.itag = w.itag) }

/-- The machine in which a vote of three has reported the copy that disagrees. -/
def State.voteOdd (s : State) (x : Site) (w : Token) (c : Nat) : State :=
  (s.putInst x (x.voteGone w)).faultToken x.key (x.faultRec s cVoteDisagree 0 0 0 0 (BitVec.ofNat 64 c) 0)

variable (site : s.site = some x)
include site

theorem exec_vote_none (operand : x.f.l = none) :
    exec (.vote n) s = .next (s.fires x n (latency 0x2C5 n) 0 (toBoth (x.fwd n)) 0) := by
  change execVote n s = _
  simp only [execVote, fireNode_eq site, operand]
  rfl

variable (operand : x.f.l = some w)
include operand

theorem exec_vote_first (before : (x.inst.buf.filter fun y => decide (y.itag = w.itag)) = []) :
    exec (.vote n) s = .next ((s.putInst x (x.voteHeld w)).fires x n (latency 0x2C5 n) 0 [] 0) := by
  change execVote n s = _
  simp [execVote, fireNode_eq site, operand, before, voteOn, Site.voteHeld]

theorem exec_vote_second {y : Token} (before : (x.inst.buf.filter fun y => decide (y.itag = w.itag)) = [y]) :
    exec (.vote n) s = .next ((s.putInst x (x.voteHeld w)).fires x n (latency 0x2C5 n) 0 (if agree y w then toBoth w else []) 0) := by
  change execVote n s = _
  cases same : agree y w <;> simp [execVote, fireNode_eq site, operand, before, voteOn, same, Site.voteHeld]

section
variable {y z : Token} {zs : List Token} (before : (x.inst.buf.filter fun y => decide (y.itag = w.itag)) = y :: z :: zs)
include before

theorem exec_vote_third_holds (pair : agree y z = true) (same : agree y w = true) :
    exec (.vote n) s = .next ((s.putInst x (x.voteGone w)).fires x n (latency 0x2C5 n) 0 [] 0) := by
  change execVote n s = _
  simp [execVote, fireNode_eq site, operand, before, voteOn, pair, same, Site.voteGone]

theorem exec_vote_third_odd (pair : agree y z = true) (other : agree y w = false) :
    exec (.vote n) s = .next ((s.voteOdd x w w.copy).fires x n (latency 0x2C5 n) 0 [] 0) := by
  change execVote n s = _
  simp [execVote, fireNode_eq site, operand, before, voteOn, pair, other, State.voteOdd, Site.voteGone]

theorem exec_vote_second_odd (differ : agree y z = false) (same : agree y w = true) :
    exec (.vote n) s = .next ((s.voteOdd x w z.copy).fires x n (latency 0x2C5 n) 0 (toBoth w) 0) := by
  change execVote n s = _
  simp [execVote, fireNode_eq site, operand, before, voteOn, differ, same, State.voteOdd, Site.voteGone]

theorem exec_vote_first_odd (differ : agree y z = false) (other : agree y w = false) (same : agree z w = true) :
    exec (.vote n) s = .next ((s.voteOdd x w y.copy).fires x n (latency 0x2C5 n) 0 (toBoth w) 0) := by
  change execVote n s = _
  simp [execVote, fireNode_eq site, operand, before, voteOn, differ, other, same, State.voteOdd, Site.voteGone]

theorem exec_vote_no_majority (differ : agree y z = false) (other : agree y w = false) (third : agree z w = false) :
    exec (.vote n) s = .next (((s.putInst x (x.voteGone w)).began x n).nodeFault x (x.rec0 s cNoMajority 0)) := by
  change execVote n s = _
  simp [execVote, fireNode_eq site, operand, before, voteOn, differ, other, third, Site.voteGone]

end
end

/-! ### TRAP (R434, R446) -/

section
variable {s : State} {x : Site} {n : NodeRec}

theorem getLsbD_elemMask_trapEls {e : Nat} (he : e < 16) :
    (elemMask (x.trapEls n)).getLsbD e = ((laneAt (x.opA n n.fmt) e).valid && x.sel n e) := by
  have ascending : (x.trapEls n).Pairwise (· < ·) := List.pairwise_lt_range.filter _
  rw [getLsbD_elemMask ascending he, Bool.eq_iff_iff]
  simp [Site.trapEls, he]

/-- The record of a trap names the lowest of its elements. -/
theorem lowest_trapEls {e : Nat} (he : e < 16) (bit : (elemMask (x.trapEls n)).getLsbD e = true) :
    lowest (x.trapEls n) ≤ e ∧ (elemMask (x.trapEls n)).getLsbD (lowest (x.trapEls n)) = true := by
  have ascending : (x.trapEls n).Pairwise (· < ·) := List.pairwise_lt_range.filter _
  have inRange : ∀ i ∈ x.trapEls n, i < 16 := fun i hi => List.mem_range.mp (List.mem_filter.mp hi).1
  rw [getLsbD_elemMask ascending he, decide_eq_true_eq] at bit
  obtain ⟨mem, le⟩ := lowest_spec bit
  exact ⟨le, (getLsbD_elemMask ascending (inRange _ mem)).trans (decide_eq_true mem)⟩

variable (site : s.site = some x)
include site

theorem exec_trapNode_unselected (unselected : x.selected n = false) :
    exec (.trapNode n) s = .next (s.fires x n (latency 0x300 n) 0 [] 0) := by
  change execTrapNode n s = _
  simp [execTrapNode, fireNode_eq site, unselected]

theorem exec_trapNode_selected (selected : x.selected n = true) :
    exec (.trapNode n) s = .next ((s.began x n).nodeFault x (x.elemFault s cTrap (field n.lit 3 0) (x.trapEls n) 0)) := by
  change execTrapNode n s = _
  simp [execTrapNode, fireNode_eq site, selected]

/-! ### EFENCE (R436) -/

theorem exec_efenceNode_clean (clean : (x.dataToks n true).filterMap complErr = []) :
    exec (.efenceNode n) s = .next (s.fires x n (latency 0x303 n) 0 (x.sends n (x.complOut n [])) 0) := by
  change execEfenceNode n s = _
  simp only [execEfenceNode, fireNode_eq site, clean]
  rfl

theorem exec_efenceNode_fault {e : Nat} {es : List Nat} (errs : (x.dataToks n true).filterMap complErr = e :: es) :
    exec (.efenceNode n) s = .next ((s.began x n).nodeFault x (x.faultRec s cPendingError 0 0 0 (BitVec.ofNat 64 (es.foldl min e)) 0 0)) := by
  change execEfenceNode n s = _
  simp only [execEfenceNode, fireNode_eq site, errs, FireRes.run_fault]

end

theorem complErr_eq (t : Token) : complErr t =
    if t.flags.compl = true ∧ (laneAt t.lanes 0).valid = true ∧ (laneAt t.lanes 0).val.getLsbD 0 = true then some (pairVal t.lanes 1) else none := by
  simp only [complErr, Bool.and_eq_true, and_assoc]

/-! ### TRACE (R238, R435) -/

section
variable {s : State} {x : Site} {n : NodeRec}

theorem exec_trace (site : s.site = some x) : exec (.trace n) s =
    .next (((s.traceOne x n (x.fwd n)).1.putInst x (s.traceOne x n (x.fwd n)).2).fires x n (latency 0x302 n) 0 (toBoth (x.fwd n)) 0) := by
  change execTrace n s = _
  rw [execTrace, fireNode_eq site]
  rfl

variable {t : Token} {w r d : Nat} (loffs : x.inst.loffs = [w, r, d])
include loffs

theorem State.traceOne_no_ring (ring : x.ring n = none) : s.traceOne x n t = (s, { x.inst with loffs := [w, r, d + 1] }) := by
  simp [State.traceOne, loffs, ring]

variable {pa r' : Nat} {s1 s2 s3 : State} (ring : x.ring n = some pa)
  (read : (if w - r < 2 ^ field n.lit 3 0 then (r, s) else s.traceRcnt x.rg.ctx pa) = (r', s1))
include ring read

/-- A record for which the ring has room is stored, and counted. -/
theorem State.traceOne_stores (room : w - r' < 2 ^ field n.lit 3 0)
    (stored : s1.traceStore x.rg.ctx (pa + 64 + 32 * (w % 2 ^ field n.lit 3 0)) (x.traceRec t) = some s2)
    (counted : s2.traceStore x.rg.ctx pa (leBytes 8 (w + 1)) = some s3) : s.traceOne x n t = (s3, { x.inst with loffs := [w + 1, r', d] }) := by
  simp [State.traceOne, loffs, ring, read, room, stored, counted]

/-- Any other is dropped, and the drop counted. -/
theorem State.traceOne_drops
    (dropped : w - r' < 2 ^ field n.lit 3 0 → s1.traceStore x.rg.ctx (pa + 64 + 32 * (w % 2 ^ field n.lit 3 0)) (x.traceRec t) = none)
    (counted : s1.traceStore x.rg.ctx (pa + 16) (leBytes 8 (d + 1)) = some s2) : s.traceOne x n t = (s2, { x.inst with loffs := [w, r', d + 1] }) := by
  by_cases room : w - r' < 2 ^ field n.lit 3 0
  · simp [State.traceOne, loffs, ring, read, room, dropped room, counted]
  · simp [State.traceOne, loffs, ring, read, room, counted]

end

end Sys2Proof.Machine

open Sys2Proof Sys2Proof.Machine

/-- Settles O47, node by node. That EMASK names both elements of a pair (log 54), that a contender of BIN that is no token is always there (log 60), that
TRACE stores its record and its count in one step (log 61), and that the record of a vote names the voter (log 73) are the model's choice. -/
theorem nodeSync : Obligations.NodeSync := by
  unfold Obligations.NodeSync
  refine ⟨?nodes, fun s k v => by rw [State.cairnAdd, Cairns.val_add, if_pos rfl, cairnSum], agree_iff, complErr_eq⟩
  intro s x n site gives faults t u both a b usesA usesB k v here psn
  refine ⟨?skip, ?poisoned, ?sound, fun begun => ⟨_, exec_cwaitNode_begun site begun⟩, ?bin, fun operand => ⟨_, exec_vote_none site operand⟩, ?vote,
    fun unselected => ⟨_, exec_trapNode_unselected site unselected⟩, ?trap, fun clean => ⟨_, exec_efenceNode_clean site clean⟩, ?efence,
    fun s1 m one => ?trace, ?traceOne⟩
  case skip =>
    intro absent
    have ops := Site.cairnOps_skip absent
    exact ⟨⟨_, exec_caddNode_skip site ops⟩, ⟨_, exec_cwaitNode_skip site ops⟩⟩
  case poisoned =>
    intro valid poisoned
    have ops := (Site.cairnOps_here valid).trans (if_pos poisoned)
    exact ⟨x.elemFault s cPoisonedOperand 0 ((pairEls 0).filter (x.cairnPsn n)) 0, rfl, lowest_cairnPsn poisoned, fun e he => getLsbD_elemMask_cairnPsn he, exec_caddNode_fault site ops,
      fun first => exec_cwaitNode_fault site first ops⟩
  case sound =>
    intro valid clean
    have unpoisoned := (Site.cairnOps_here valid).trans (if_neg (Bool.not_eq_true _ ▸ clean))
    refine ⟨fun high => ?absent, fun low => ?found⟩
    case absent =>
      have ops := unpoisoned.trans (if_pos high)
      exact ⟨x.elemFault s cNoCairn 0 (pairEls 0) 0, rfl, rfl, rfl, exec_caddNode_fault site ops, fun first => exec_cwaitNode_fault site first ops⟩
    case found =>
      have ops := unpoisoned.trans (if_neg (Nat.not_le.mpr low))
      refine ⟨⟨latency 0x2C0 n, ?_⟩, fun reached => ⟨_, exec_cwaitNode_reached site ops reached⟩, fun first short => exec_cwaitNode_waits site first ops short⟩
      rw [exec_caddNode_adds site ops, State.cairnAddBy_eq]
      rfl
  case bin =>
    exact ⟨fun token alone => ⟨_, exec_bin_waits site token alone⟩, fun token c cs b bs contender belay => ⟨_, exec_bin_pairs site token contender belay⟩,
      fun operand => ⟨_, exec_bin_operand site operand⟩⟩
  case vote =>
    intro w operand before held gone odd
    refine ⟨fun first => ⟨_, exec_vote_first site operand first⟩, fun y one => ⟨_, exec_vote_second site operand one⟩, fun y z zs two => ?_⟩
    exact ⟨fun pair same => ⟨_, exec_vote_third_holds site operand two pair same⟩, fun pair other => ⟨_, exec_vote_third_odd site operand two pair other⟩,
      fun differ same => ⟨_, exec_vote_second_odd site operand two differ same⟩,
      fun differ other same => ⟨_, exec_vote_first_odd site operand two differ other same⟩,
      fun differ other third => exec_vote_no_majority site operand two differ other third⟩
  case trap =>
    exact fun selected => ⟨x.elemFault s cTrap (field n.lit 3 0) (x.trapEls n) 0, rfl, rfl, rfl, rfl, rfl, fun e he => getLsbD_elemMask_trapEls he, fun e he bit => lowest_trapEls he bit,
      exec_trapNode_selected site selected⟩
  case efence => exact fun e es errs => ⟨x.faultRec s cPendingError 0 0 0 (BitVec.ofNat 64 (es.foldl min e)) 0 0, rfl, rfl, exec_efenceNode_fault site errs⟩
  case trace => exact ⟨_, by rw [exec_trace site, one]; rfl⟩
  case traceOne =>
    intro w r d loffs cap
    exact ⟨State.traceOne_no_ring loffs, fun pa r' s1 ring read => ⟨fun s2 s3 => State.traceOne_stores loffs ring read,
      fun s2 => State.traceOne_drops loffs ring read⟩⟩
end

section
/-! SUPPORT. The events of stream ports, of engines and of the relocation engines: what each turn does in each case
(R193, R208, R212 to R214, R220, R336 to R347, R443). -/

namespace Sys2Proof.Machine

/-! ### Commands of a port (R339) -/

section
variable {p : Stream} {t : Token}

/-- The last token of a load stream closes the port, with TEAR behind it (R443). -/
theorem Stream.sendTok_last (last : t.flags.last = true) :
    p.sendTok t = { p.digestTok t with buf := p.buf ++ [t, Token.tearTok 0 0 0 .left 0], st := .closed } :=
  if_pos last

theorem Stream.sendTok_more (more : t.flags.last = false) : p.sendTok t = { p.digestTok t with buf := p.buf ++ [t] } :=
  if_neg (by simp [more])

/-- A running load port told to stop lets its newest token in flight be the last. -/
theorem Stream.endLoad_flight {fs : List (Nat × Token)} {k : Nat} (flight : p.flight = fs ++ [(k, t)]) :
    p.endLoad = some { p with ending := true, flight := fs ++ [(k, { t with flags := { t.flags with last := true } })] } := by
  simp [Stream.endLoad, flight]

/-- With none in flight it sends an empty last token. -/
theorem Stream.endLoad_empty (flight : p.flight = []) (room : p.room = true) :
    p.endLoad = some (p.sendTok (loadTok (patternOf p.desc) p.pos 0 [] true)) := by
  simp [Stream.endLoad, flight, room]

theorem Stream.command_stop_store (run : p.st = .running) (store : (patternOf p.desc).store = true) (order : Nat) :
    p.command .stop order = some ({ p with st := .closed, buf := [] }, p.buf) := by
  simp [Stream.command, run, store]

theorem Stream.command_stop_load (run : p.st = .running) (load : (patternOf p.desc).store = false) (first : p.ending = false) (order : Nat) :
    p.command .stop order = p.endLoad.map fun p1 => (p1, []) := by
  simp [Stream.command, run, load, first]

end

/-! ### Turns of a port (R336 to R338) -/

section
variable {s s1 s2 : State} {x : SSite} {as bs : List Acc}

/-- A token whose reads are laid out and issued is in flight. -/
theorem State.beginRead_issues
    (laid : s.layElems ⟨.tile x.tile, x.rg.ctx, .read, 0, false, false, false, x.p.pos + 1⟩ (patternOf x.p.desc).esize
      ((patternOf x.p.desc).addrs ((x.rg.rtile x.tile).getD 0) x.p.pos) 0 [] = .ok s1 as) (issued : s1.issueAccs x.key as = (s2, bs)) :
    s.beginRead x = s2.putPort x { x.p with
      accs := x.p.accs ++ bs
      flight := x.p.flight ++ [(x.p.pos, loadTok (patternOf x.p.desc) x.p.pos 0 [] false)]
      pos := x.p.pos + 1 } := by
  simp only [State.beginRead, laid, issued]

/-- A turn of a port's accesses that meets no fault leaves them as performed so far. -/
theorem State.turnPort_performs (turn : s.turnAccs x.rg.ctx x.who x.p.accs = .all s1 as ∨ s.turnAccs x.rg.ctx x.who x.p.accs = .more s1 as) :
    s.turnPort x = s1.putPort x { x.p with accs := as } := by
  rcases turn with turn | turn <;> simp only [State.turnPort, turn]

/-- A port that runs or is closed, and whose faults are served, may take a turn of its kind. -/
theorem SSite.mayTurn (live : x.p.st = .running ∨ x.p.st = .closed) (sound : x.p.faulted = false) (still : x.p.minor = false) {otherKind : Prop}
    (kind : ¬ otherKind) : ¬ ((x.p.st ≠ .running ∧ x.p.st ≠ .closed) ∨ otherKind ∨ x.p.faulted = true ∨ x.p.minor = true) := by
  rintro (⟨notRunning, notClosed⟩ | other | faulted | minor)
  · exact live.elim notRunning notClosed
  · exact kind other
  · simp [sound] at faulted
  · simp [still] at minor

variable {tile port : Nat} (site : s.ssite tile port = some x)
include site

theorem State.ssite_tile : x.tile = tile ∧ x.port = port := by
  unfold State.ssite at site
  split at site
  · cases site
    exact ⟨rfl, rfl⟩
  · cases site

theorem exec_streamScoreboardStep_performs {c : SCmd} {n : Nat} {rest : List (SCmd × Nat)} {p : Stream} {ts : List Token}
    (queue : x.p.queue = (c, n) :: rest) (performed : x.p.command c n = some (p, ts)) :
    exec (.streamScoreboardStep tile port) s = .next ((s.putPort x { p with queue := rest }).dropToks x.key ts) := by
  change execStreamScoreboardStep tile port s = _
  simp only [execStreamScoreboardStep, site, queue, performed]

variable (live : x.p.st = .running ∨ x.p.st = .closed) (sound : x.p.faulted = false) (still : x.p.minor = false)
include live sound still

section
variable (load : (patternOf x.p.desc).store = false)
include load

theorem exec_loadStreamToken_feeds {t : Token} {rest : List Token} {c : Nat × Bif × Nat × Port} (run : x.rg.run = .running)
    (buf : x.p.buf = t :: rest) (feeds : x.feeds = some c) : exec (.loadStreamToken tile port) s = .next (s.feed x c t rest) := by
  change execLoadStreamToken tile port s = _
  simp only [execLoadStreamToken, site]
  rw [if_neg (SSite.mayTurn live sound still (by simp [load])), if_pos run, buf, feeds]

variable (blocked : x.p.buf = [] ∨ x.feeds = none ∨ x.rg.run ≠ .running)
include blocked

/-- A port whose buffer goes nowhere goes on with its oldest token in flight. -/
theorem exec_loadStreamToken_flight {k : Nat} {t : Token} {rest : List (Nat × Token)} (flight : x.p.flight = (k, t) :: rest) :
    exec (.loadStreamToken tile port) s = if x.p.tokDone k then .next (s.putPort x (x.p.readTok k t.flags.last))
      else .next (if s.begins x x.mayRead then s.drawn.beginRead x else s.drawn.turnPort x) := by
  change execLoadStreamToken tile port s = _
  simp only [execLoadStreamToken, site]
  rw [if_neg (SSite.mayTurn live sound still (by simp [load])), flight]
  rcases blocked with empty | unfed | halted
  · simp [empty]
  · simp [unfed]
  · simp [halted]

/-- With none in flight it begins the next. -/
theorem exec_loadStreamToken_idle (flight : x.p.flight = []) :
    exec (.loadStreamToken tile port) s = .next (if x.mayRead then s.beginRead x else s) := by
  change execLoadStreamToken tile port s = _
  simp only [execLoadStreamToken, site]
  rw [if_neg (SSite.mayTurn live sound still (by simp [load])), flight]
  rcases blocked with empty | unfed | halted
  · simp [empty]
  · simp [unfed]
  · simp [halted]

end

section
variable (store : (patternOf x.p.desc).store = true)
include store

theorem exec_storeStreamToken_wrote {f : Nat × Token} (written : (x.p.flight.find? fun f => x.p.tokDone f.1) = some f) :
    exec (.storeStreamToken tile port) s = .next (s.wroteTok x f.1) := by
  change execStoreStreamToken tile port s = _
  simp only [execStoreStreamToken, site]
  rw [if_neg (SSite.mayTurn live sound still (by simp [store])), written]

variable (unwritten : (x.p.flight.find? fun f => x.p.tokDone f.1) = none)
include unwritten

theorem exec_storeStreamToken_head {t : Token} {rest : List Token} (buf : x.p.buf = t :: rest) (data : t.flags.tear = false) :
    exec (.storeStreamToken tile port) s = .next (if s.begins x x.mayTake then s.drawn.takeTok x t rest else s.drawn.turnPort x) := by
  change execStoreStreamToken tile port s = _
  simp only [execStoreStreamToken, site]
  rw [if_neg (SSite.mayTurn live sound still (by simp [store])), unwritten, buf]
  simp [data]

theorem exec_storeStreamToken_empty (buf : x.p.buf = []) : exec (.storeStreamToken tile port) s = .next (s.turnPort x) := by
  change execStoreStreamToken tile port s = _
  simp only [execStoreStreamToken, site]
  rw [if_neg (SSite.mayTurn live sound still (by simp [store])), unwritten, buf]

end

end

/-- A token that a store port takes, where its writes are laid out and issued. -/
def SSite.taken (x : SSite) (t : Token) (bs : List Acc) (rest : List Token) : Stream :=
  { (x.p.digestTok t) with
    pos := x.p.pos + 1
    accs := x.p.accs ++ bs
    flight := x.p.flight ++ [(x.p.pos, t)]
    buf := rest }

section
variable {s s1 s2 : State} {x : SSite} {t : Token} {rest : List Token} {as bs : List Acc}
  (laid : s.layStore (.tile x.tile) x.rg.ctx (patternOf x.p.desc) t x.p.pos
    (fullStore (patternOf x.p.desc) (storeElems (patternOf x.p.desc) ((x.rg.rtile x.tile).getD 0) x.p.pos t) t)
    (storeElems (patternOf x.p.desc) ((x.rg.rtile x.tile).getD 0) x.p.pos t) [] = .ok s1 as) (issued : s1.issueAccs x.key as = (s2, bs))
include laid issued

theorem State.takeTok_more (more : (t.flags.last || decide ((patternOf x.p.desc).total ≤ x.p.pos + 1)) = false) :
    s.takeTok x t rest = s2.putPort x (x.taken t bs rest) := by
  simp only [State.takeTok, laid, issued, SSite.taken]
  exact if_neg (by simp [more])

/-- With the last token the port closes, and drops what it still holds. -/
theorem State.takeTok_last (last : (t.flags.last || decide ((patternOf x.p.desc).total ≤ x.p.pos + 1)) = true) :
    s.takeTok x t rest = (s2.putPort x { x.taken t bs rest with st := .closed, buf := [] }).dropToks x.key rest := by
  simp only [State.takeTok, laid, issued, SSite.taken]
  exact if_pos last

end

/-! ### The end of a stream (R177, R338) -/

theorem State.logOverflow_regions (s : State) (ctx : Nat) : (s.logOverflow ctx).regions = s.regions := by
  unfold State.logOverflow
  split <;> rfl

theorem State.deposit_regions (s : State) (ctx lo hi : Nat) (cowf : Bool) : (s.deposit ctx lo hi cowf).regions = s.regions := by
  unfold State.deposit
  extract_lets _ _ _ full _ _ _ s1
  split
  · exact State.logOverflow_regions s1 ctx
  · rfl

/-- The machine with the dirty range of a port deposited. -/
def State.depositDirty (s : State) (x : SSite) : State :=
  match x.p.dirty with
  | some (lo, hi) => s.deposit x.rg.ctx lo hi false
  | none => s

theorem State.depositDirty_regions (s : State) (x : SSite) : (s.depositDirty x).regions = s.regions := by
  unfold State.depositDirty
  split
  · exact State.deposit_regions ..
  · rfl

@[simp] theorem State.stream_putPort (s : State) (x : SSite) (p : Stream) : ((s.putPort x p).tile x.tile).stream x.port = p := by
  rw [State.putPort, State.tile_putTile, Tile.stream_putStream]

theorem exec_streamComplete {s : State} {tile port : Nat} {x : SSite} (site : s.ssite tile port = some x) (closed : x.p.st = .closed)
    (landed : x.p.flight = []) (empty : x.p.buf = []) : exec (.streamComplete tile port) s =
      .next ((s.depositDirty x).putPort x { x.p with st := .idle, desc := [], dirty := none, ending := false }) := by
  change execStreamComplete tile port s = _
  simp only [execStreamComplete, site]
  rw [if_neg (by simp [closed, landed, empty])]
  rfl

/-! ### Engines (R193, R342 to R347) -/

section
variable {s : State} {key idx : Nat} {x : ESite} (site : s.esite key idx = some x) (live : x.e.stopped = false) (sound : x.e.faulted = false)
  (still : x.e.minor = false)
include site live sound still

theorem exec_engineDrain_copy (kind : engKind x.e.words ≠ 0x23) : exec (.engineDrain key idx) s = .next (s.copyTurn x) := by
  change execEngineDrain key idx s = _
  simp [execEngineDrain, site, live, sound, still, kind]

theorem exec_engineDrain_cred (kind : engKind x.e.words = 0x23) : exec (.engineDrain key idx) s = .next (s.credTurn x) := by
  change execEngineDrain key idx s = _
  simp [execEngineDrain, site, live, sound, still, kind]

end

section
variable {s : State} {x : ESite}

theorem State.copyTurn_work (work : x.e.work ≠ []) : s.copyTurn x = s.workTurn x (copyKind x.e.words) :=
  if_neg (by simp [work])

theorem State.copyTurn_done (done : x.e.work = []) : s.copyTurn x = s.finishEngine x :=
  if_pos (by simp [done])

/-- The machine without what the members have brought to a CRED that ends. -/
def State.withoutCreds (s : State) (e : Engine) : State :=
  { s with link := { s.link with creds := s.link.creds.filter fun c => decide (c.group ≠ credGroup e.words ∨ c.kth ≠ e.joined) } }

theorem State.mem_withoutCreds (s : State) (e : Engine) (c : CredIn) :
    c ∈ (s.withoutCreds e).link.creds ↔ c ∈ s.link.creds ∧ ¬ (c.group = credGroup e.words ∧ c.kth = e.joined) := by
  simp [State.withoutCreds, imp_iff_not_or]

/-- A CRED whose members have all joined, and agree, folds its next piece, and ends with the last. -/
theorem State.credTurn_joined (member : credMember x.e.words (credRank x.e.words) = s.dev.devNum)
    (joined : ∀ r ∈ credOthers x.e.words, ∃ c, s.credIn x.e r = some c ∧ credAgrees x.e.words c = true) :
    s.credTurn x = if x.e.work.isEmpty then (s.withoutCreds x.e).drain x else s.workTurn x (s.credKind x.e) := by
  have all_in : ((credOthers x.e.words).any fun r => (s.credIn x.e r).isNone) = false := by
    rw [List.any_eq_false]
    intro r hr
    obtain ⟨c, hc, -⟩ := joined r hr
    simp [hc]
  have all_agree : ((credOthers x.e.words).any fun r => ((s.credIn x.e r).map fun c => !credAgrees x.e.words c).getD true) = false := by
    rw [List.any_eq_false]
    intro r hr
    obtain ⟨c, hc, agrees⟩ := joined r hr
    simp [hc, agrees]
  rw [State.credTurn]
  dsimp only
  rw [if_neg (not_not.mpr member), all_in, all_agree]
  rfl

/-! ### The end of an engine (R346) -/

/-- Whether an engine's end signals a cairn. -/
def ESite.signals (x : ESite) : Prop := (engKind x.e.words = 0x24 ∨ engKind x.e.words = 0x25) ∧ bitAt (dw x.e.words 4) 32 = true

theorem State.finishEngine_silent (silent : ¬ x.signals) : s.finishEngine x = s.drain x := if_neg silent

section
variable (signals : x.signals)
include signals

theorem State.finishEngine_here (here : field (dw x.e.words 4) 31 20 = s.dev.devNum) :
    s.finishEngine x = (s.cairnAddScc (field (dw x.e.words 4) 19 0) 1).drain x :=
  (if_pos signals).trans (if_pos here)

variable (away : field (dw x.e.words 4) 31 20 ≠ s.dev.devNum)
include away

/-- A signal that has gone out is waited for. -/
theorem State.finishEngine_sent (sent : x.e.signal = 1) : s.finishEngine x = s := by
  refine (if_pos signals).trans ((if_neg away).trans ?_)
  rw [sent]
  rfl

theorem State.finishEngine_answered (answered : x.e.signal = 2) : s.finishEngine x = s.drain x := by
  refine (if_pos signals).trans ((if_neg away).trans ?_)
  rw [answered]
  rfl

theorem State.finishEngine_sends {s1 : State} (unsent : x.e.signal = 0)
    (request : s.request 6 (field (dw x.e.words 4) 31 20) 0 x.rg.ctx 0 1
      (cairnBody 1 s.freshTag (field (dw x.e.words 4) 19 0) 1 s.mem.pts) x.who = .ok s1) :
    s.finishEngine x = s1.putEngine x.key { x.e with signal := 1 } := by
  refine (if_pos signals).trans ((if_neg away).trans ?_)
  rw [unsent, request]
  rfl

end

theorem State.sameButHostTiles_toChan (s : State) (tile : Nat) (c : ChanTok) : s.SameButHostTiles (s.toChan tile c) := rfl

theorem State.sameButHostTiles_dealTo (s : State) (rg : Region) (bslot : Nat) (blk : Bif) (tile : Nat) (tok : Token) :
    s.SameButHostTiles (s.dealTo rg bslot blk tile tok).1 := by
  unfold State.dealTo
  dsimp only
  split
  · split
    · rfl
    · split <;> rfl
  · rfl

theorem State.sameButHostTiles_injectAt (s : State) (via tile : Nat) (rg : Region) (bslot : Nat) (blk : Bif) (node : Nat) (p : Port) (src : Nat) (tok : Token) :
    s.SameButHostTiles (s.injectAt via tile rg bslot blk node p src tok) := by
  unfold State.injectAt
  exact .foldl (fun t e => t.sameButHostTiles_toChan ..) _ s

/-- A token put on its way writes tiles, and the splitter of its unit. -/
theorem State.sameButHostTiles_inject (s : State) (via tile : Nat) (rg : Region) (bslot : Nat) (blk : Bif) (node : Nat) (p : Port) (src : Nat) (tok : Token) :
    s.SameButHostTiles (s.inject via tile rg bslot blk node p src tok) :=
  (State.sameButHostTiles_dealTo ..).trans (.foldl (fun _ _ => State.sameButHostTiles_injectAt ..) _ _)

theorem State.dropEngine_cairn (s : State) (key id : Nat) : (s.dropEngine key id).cairn = s.cairn := by
  unfold State.dropEngine
  split <;> rfl

theorem State.tget_dropEngine {r : Region} {key : Nat} (region : tget s.regions key = some r) (id : Nat) :
    tget (s.dropEngine key id).regions key = some { r with engines := r.engines.filter fun e => decide (e.id ≠ id) } := by
  rw [State.dropEngine, region]
  exact tget_tput_self ..

theorem State.cairnAddScc_regions (s : State) (k : Nat) (n : Word) : (s.cairnAddScc k n).regions = s.regions := by
  rw [State.cairnAddScc]
  split <;> rfl

/-- The machine in which the cairn of an engine has advanced. -/
def State.drainCount (s : State) (x : ESite) : State :=
  match x.e.cairn with
  | some k => s.cairnAddScc k 1
  | none => s

/-- A drained engine leaves its region; before that its cairn advances and its token goes on its way. -/
theorem State.drain_eq (s : State) (x : ESite) : ∃ t, (s.drainCount x).SameButHostTiles t ∧ s.drain x = t.dropEngine x.key x.e.id := by
  refine ⟨_, ?_, rfl⟩
  split
  · split
    · split
      · exact State.sameButHostTiles_inject ..
      · rfl
    · rfl
  · rfl

theorem State.tget_drain_regions {r : Region} (region : tget s.regions x.key = some r) :
    tget (s.drain x).regions x.key = some { r with engines := r.engines.filter fun e => decide (e.id ≠ x.e.id) } := by
  obtain ⟨t, same, drained⟩ := s.drain_eq x
  have counted : (s.drainCount x).regions = s.regions := by
    unfold State.drainCount
    split
    · exact State.cairnAddScc_regions ..
    · rfl
  rw [drained]
  exact State.tget_dropEngine (by rw [same.regions, counted, region]) _

theorem State.drain_cairn {k : Nat} (cairn : x.e.cairn = some k) : (s.drain x).cairn = s.cairn.add k 1 := by
  obtain ⟨t, same, drained⟩ := s.drain_eq x
  rw [drained, State.dropEngine_cairn, same.cairn, State.drainCount, cairn]
  exact State.cairnAddScc_cairn ..

/-! ### Pieces (R193, R344, R345) -/

section
variable {g : EngKind} {i : Nat} {p : EngPiece}

/-- A turn goes to the chosen one of the pieces that can take one. -/
theorem State.workTurn_chosen (ready : x.e.ready (decide (x.rg.run = .running)) ≠ [])
    (chosen : i = (x.e.ready (decide (x.rg.run = .running))).getD (s.choice (x.e.ready (decide (x.rg.run = .running))).length) 0)
    (piece : x.e.work[i]? = some p) :
    s.workTurn x g = if p.accs.isEmpty then s.drawn.beginPiece x g i p else s.drawn.turnPiece x g i p := by
  subst chosen
  rw [State.workTurn]
  rw [if_neg (by simp [ready]), piece]

theorem State.turnPiece_all {s1 : State} {as : List Acc} (turn : s.turnAccs x.rg.ctx x.who p.accs = .all s1 as) :
    s.turnPiece x g i p = s1.pieceDone x g i p as := by
  simp only [State.turnPiece, turn]

theorem State.pieceDone_index {as : List Acc} (stage : p.stage = 0) (clean : lanePsn as 1 = false) : s.pieceDone x g i p as =
    s.putEngine x.key (x.e.swap i [{ p with stage := 1, idx := idxVal x.e.words (laneBytes as 1), accs := [] }]) := by
  simp only [State.pieceDone, stage]
  rw [clean]
  rfl

theorem State.pieceDone_source {s2 s3 : State} {as bs cs : List Acc} (stage : p.stage = 1)
    (laid : (s.setFlags x.key (g.out p as).flags).layEngine x .write 0 (g.cut p).dst p.n (g.out p as).bytes (g.out p as).psn
      (decide ((g.cut p).dst % 64 = 0 ∧ p.n = 64)) = .ok s2 bs) (issued : s2.issueAccs x.key bs = (s3, cs)) :
    s.pieceDone x g i p as = s3.putEngine x.key (x.e.swap i [{ p with stage := 2, accs := cs }]) := by
  simp only [State.pieceDone, stage, laid, issued]

theorem State.pieceDone_written {as : List Acc} (stage : 2 ≤ p.stage) :
    s.pieceDone x g i p as = (s.noteErrs x.key as).putEngine x.key (x.e.swap i []) := by
  rw [State.pieceDone]
  split
  · omega
  · omega
  · rfl

end
end

/-- A piece ends with its sector at the latest. -/
theorem enginePiece_within (w : List Word) (pos : Nat) (idx : Int) : (enginePiece w pos idx).dst % 64 + (enginePiece w pos idx).n ≤ 64 := by
  have cut : (enginePiece w pos idx).n ≤ 64 - ((enginePiece w pos idx).dst % 64).toNat := Nat.min_le_left ..
  omega

/-- An engine without indices reads and writes at the offset of its piece. -/
theorem enginePiece_direct {w : List Word} (gathers : engKind w ≠ 0x21) (scatters : engKind w ≠ 0x22) (pos : Nat) (idx : Int) :
    (enginePiece w pos idx).src = ((field (dw w 1) 55 0 + pos : Nat) : Int) ∧ (enginePiece w pos idx).dst = ((field (dw w 2) 55 0 + pos : Nat) : Int) := by
  simp [enginePiece, gathers, scatters]

/-! ### Relocation engines (R208, R212 to R214, R220) -/

section
variable {s : State} {m : Nat} {e : RelocEng} {q : Reloc}

section
variable {rest : List Reloc} (engine : tget s.heap.engines m = some e) (queue : e.queue = q :: rest)
include engine queue

theorem exec_relocRun_starts (pass : e.pass = 0) :
    exec (.relocRun m) s = .next (s.putEng m { RelocEng.blank with queue := e.queue, pass := 1 }) := by
  change execRelocRun m s = _
  simp [execRelocRun, tgetD, engine, queue, pass]

theorem exec_relocRun_selects (pass : e.pass = 1) (wanted : q.cancelled = false) :
    exec (.relocRun m) s = .next (s.putEng m { e with pass := 2, pages := s.relocSelect q m }) := by
  change execRelocRun m s = _
  simp [execRelocRun, tgetD, engine, queue, pass, wanted]

theorem exec_relocRun_marks (pass : e.pass = 2) :
    exec (.relocRun m) s = .next ((s.markPages q e.pages .evacuating).putEng m { e with pass := 3, cur := 0, off := 0 }) := by
  change execRelocRun m s = _
  simp [execRelocRun, tgetD, engine, queue, pass]

theorem exec_relocRun_evacuates (pass : e.pass = 3) : exec (.relocRun m) s = .next (s.evacuate m e q) := by
  change execRelocRun m s = _
  simp [execRelocRun, tgetD, engine, queue, pass]

theorem exec_relocRun_forwards (pass : e.pass = 4) :
    exec (.relocRun m) s = .next ((s.markPages q e.pages .forwarded).putEng m { e with pass := 5 }) := by
  change execRelocRun m s = _
  simp [execRelocRun, tgetD, engine, queue, pass]

theorem exec_relocRun_reports (pass : 5 ≤ e.pass) : exec (.relocRun m) s = .next (s.relocReport m e q) := by
  obtain ⟨n, later⟩ := Nat.exists_eq_add_of_le' pass
  change execRelocRun m s = _
  simp [execRelocRun, tgetD, engine, queue, later]

end

section
variable {w : Nat × Nat} {frame n : Nat} (page : e.pages[e.cur]? = some w) (free : e.moving = none) (wanted : q.cancelled = false)
  (mapped : s.pageFrame q.ctx w.1 = some frame) (size : n = hdrSize (s.mem.word (frame + e.off)))
  (inPage : e.off < 65536) (object : n ≠ 0)
include page free wanted mapped size inPage object

/-- An object that is not LIVE, or is pinned, is passed over. -/
theorem State.evacuate_skips (stays : hdrState (s.mem.word (frame + e.off)) ≠ 1 ∨ hdrPin (s.mem.word (frame + e.off)) ≠ 0) :
    s.evacuate m e q = s.putEng m { e with off := e.off + n } := by
  simp only [State.evacuate, free, wanted, page, mapped, ← size, Bool.false_eq_true, if_false]
  rw [if_neg (by simp [inPage, object]), if_pos stays]

/-- One that is LIVE and not pinned starts to move, where its destination page has room. -/
theorem State.evacuate_starts (live : hdrState (s.mem.word (frame + e.off)) = 1) (unpinned : hdrPin (s.mem.word (frame + e.off)) = 0)
    (owned : (s.mem.frame frame).cow = false) {d : HeapBuf} (dest : e.dest = some d)
    (room : d.fill + n ≤ 65536) : s.evacuate m e q =
      State.putEng { s with mem := s.mem.putHeader (frame + e.off) (setHdrState (s.mem.word (frame + e.off)) 2) } m { e with moving := some (frame, e.off) } := by
  simp only [State.evacuate, free, wanted, page, mapped, ← size, Bool.false_eq_true, if_false]
  rw [if_neg (by simp [inPage, object]), if_neg (by simp [live, unpinned]), State.startMove, owned, dest]
  simp [room]

end

/-- The last engine of a RELOC to report adds to its cairn, with the flag of one that was cancelled or stopped. -/
theorem State.relocReport_last (wanted : q.cancelled = false) (whole : e.full = false) {left cairn : Nat} {was : Bool}
    (report : tget s.heap.reports q.id = some (left, cairn, was)) (last : left ≤ 1) : s.relocReport m e q =
      ({ s with heap := { s.heap with engines := tput s.heap.engines m { RelocEng.blank with queue := e.queue.tail },
                                      reports := tdel s.heap.reports q.id } } : State).advance cairn was := by
  simp [State.relocReport, State.putEng, wanted, whole, report, last]

end

end Sys2Proof.Machine

open Sys2Proof Sys2Proof.Machine

/-- Settles O60, unit by unit. That the tokens of a port and the pieces of an engine that are under way go on in a free order (log 71), that a CRED folds
its members' parts in rank order (log 36), and that a step of a relocation engine takes one object (log 70) are the model's choice. -/
theorem streamAndRelocEvents : Obligations.StreamAndRelocEvents := by
  unfold Obligations.StreamAndRelocEvents
  refine ⟨?ports, ?bind, ?bound, ?stop, ?read, ?engines, ?finish, ?pieces, fun w p => ?cut, ?drain, ?reloc, ?evacuate, ?report⟩
  case ports =>
    intro s tile port x site q
    obtain ⟨rfl, rfl⟩ := State.ssite_tile site
    refine ⟨fun c n rest p ts => exec_streamScoreboardStep_performs site, ?load, ?store, ?complete, fun k => ?wrote⟩
    case load =>
      intro live load sound still
      refine ⟨fun t rest c => exec_loadStreamToken_feeds site live sound still load, fun blocked => ⟨?sends, ?turns, ?begins⟩⟩
      case sends =>
        intro k t rest flight read
        rw [exec_loadStreamToken_flight site live sound still load blocked flight, if_pos read]
      case turns =>
        intro k t rest s1 as flight unread goesOn turn
        rw [exec_loadStreamToken_flight site live sound still load blocked flight, if_neg (by simp [unread]), if_neg (by simp [goesOn]),
          State.turnPort_performs turn]
      case begins =>
        rintro u s1 s2 as bs (⟨flight, may, rfl⟩ | ⟨k, t, rest, flight, unread, begins, rfl⟩) laid issued
        · rw [exec_loadStreamToken_idle site live sound still load blocked flight, if_pos may, State.beginRead_issues laid issued]
        · rw [exec_loadStreamToken_flight site live sound still load blocked flight, if_neg (by simp [unread]), if_pos begins,
            State.beginRead_issues laid issued]
    case store =>
      intro live store sound still
      refine ⟨fun f => exec_storeStreamToken_wrote site live sound still store, fun unwritten => ⟨?takes, ?performs⟩⟩
      case takes =>
        intro t rest s1 s2 as bs buf data begins es laid issued p last
        rw [exec_storeStreamToken_head site live sound still store unwritten buf data, if_pos begins]
        exact ⟨fun more => congrArg _ (State.takeTok_more laid issued more), fun ends => congrArg _ (State.takeTok_last laid issued ends)⟩
      case performs =>
        rintro u s1 as (⟨buf, rfl⟩ | ⟨t, rest, buf, data, goesOn, rfl⟩) turn
        · rw [exec_storeStreamToken_empty site live sound still store unwritten buf, State.turnPort_performs turn]
        · rw [exec_storeStreamToken_head site live sound still store unwritten buf data, if_neg (by simp [goesOn]), State.turnPort_performs turn]
    case complete =>
      intro closed landed empty
      refine ⟨_, exec_streamComplete site closed landed empty, ?_⟩
      rw [State.stream_putPort]
      exact ⟨rfl, rfl, rfl, rfl, State.depositDirty_regions ..⟩
    case wrote =>
      intro p
      have port : p = _ := State.stream_putPort ..
      rw [port]
      exact ⟨rfl, rfl, rfl, rfl, rfl, State.wroteTok_mem ..⟩
  case bind => exact fun p order d st => ⟨_, if_pos st, rfl, rfl, rfl, rfl⟩
  case bound =>
    intro p order bound
    exact ⟨⟨_, congrArg (fun p' => some (p', [])) (if_pos bound), rfl⟩, ⟨_, by rw [Stream.command, bound], rfl, rfl⟩⟩
  case stop =>
    intro p order run
    refine ⟨fun store => Stream.command_stop_store run store order, fun load first => ?_⟩
    rw [Stream.command_stop_load run load first]
    refine ⟨fun fs k t flight => by rw [Stream.endLoad_flight flight]; rfl, fun flight room => ?_⟩
    rw [Stream.endLoad_empty flight room, Stream.sendTok_last rfl]
    exact ⟨_, _, _, rfl, rfl, rfl, rfl, rfl, rfl⟩
  case read =>
    intro p k last q t
    have sent : t = (p.landed k).sendTok (loadTok q k (q.addrs 0 k).length (p.accsOf k) (last || decide (q.total ≤ k + 1))) := rfl
    cases ends : last || decide (q.total ≤ k + 1) with
    | true =>
      rw [ends, Stream.sendTok_last rfl] at sent
      rw [sent]
      exact ⟨rfl, rfl, rfl, _, _, rfl, rfl, by simpa [loadTok] using ends, fun _ => ⟨rfl, _, rfl, rfl⟩, nofun⟩
    | false =>
      rw [ends, Stream.sendTok_more rfl] at sent
      rw [sent]
      exact ⟨rfl, rfl, rfl, _, [], rfl, rfl, by simpa [loadTok] using ends, nofun, fun _ => ⟨rfl, rfl⟩⟩
  case engines =>
    intro s key idx x site live sound still
    refine ⟨fun kind work => ?copies, fun kind done => ?copied, fun kind member joined => ?cred⟩
    case copies => rw [exec_engineDrain_copy site live sound still kind, State.copyTurn_work work]
    case copied => rw [exec_engineDrain_copy site live sound still kind, State.copyTurn_done done]
    case cred =>
      rw [exec_engineDrain_cred site live sound still kind, State.credTurn_joined member joined]
      refine ⟨fun work => by rw [if_neg (by simp [work])], fun done => ⟨s.withoutCreds x.e, by rw [if_pos (by simp [done])], rfl, rfl, rfl, ?_⟩⟩
      exact State.mem_withoutCreds s x.e
  case finish =>
    exact fun s x => ⟨State.finishEngine_silent, State.finishEngine_here, fun signals away => ⟨State.finishEngine_sent signals away,
      State.finishEngine_answered signals away, fun unsent s1 => State.finishEngine_sends signals away unsent⟩⟩
  case pieces =>
    intro s x g i p ps ready chosen piece
    have turn := State.workTurn_chosen (g := g) ready chosen piece
    refine ⟨fun waits => turn.trans (if_pos (by simp [waits])), fun under s1 as all => ?_⟩
    rw [turn, if_neg (by simp [under]), State.turnPiece_all all]
    exact ⟨State.pieceDone_index, fun stage s2 bs s3 cs => State.pieceDone_source stage, State.pieceDone_written⟩
  case cut => exact ⟨enginePiece_within .., fun gathers scatters => enginePiece_direct gathers scatters ..⟩
  case drain =>
    intro s x r region
    refine ⟨_, State.tget_drain_regions region, fun e he => ne_of_mem_filter (num := Engine.id) he, State.drain_mem .., fun k cairn => ?_⟩
    rw [State.drain_cairn cairn, Cairns.val_add, if_pos rfl]
  case reloc =>
    exact fun s m e q rest engine queue => ⟨exec_relocRun_starts engine queue, exec_relocRun_selects engine queue, exec_relocRun_marks engine queue,
      exec_relocRun_evacuates engine queue, exec_relocRun_forwards engine queue, exec_relocRun_reports engine queue⟩
  case evacuate =>
    rintro s m e q _ d w n page free wanted frame mapped rfl size inPage object
    exact ⟨State.evacuate_skips page free wanted mapped size inPage object,
      fun live unpinned owned dest room => State.evacuate_starts page free wanted mapped size inPage object live unpinned owned dest room⟩
  case report =>
    intro s m e q wanted whole left cairn was report last small
    refine ⟨_, State.relocReport_last wanted whole report last, ?_, ?_, ?_⟩
    · rw [State.advance_cairn, Cairns.val_advance _ _ _ _ small, if_pos rfl]
    · rw [State.advance_cairn, Cairns.flag_advance _ _ _ _ small]
      simp [Bool.or_comm]
    · rw [State.advance_heap]
      exact (tgetD_tput ..).trans (if_pos rfl)
end

section
/-! SUPPORT. The values of a row of lanes by index, the lanes that values make, and integers modulo the width of a format (R116, R246, R251, R354). -/

namespace Sys2Proof.Machine

/-! ### Formats -/

section
variable {f : Fmt} {j : Nat}

theorem isFloat_of_isInt (int : Rules.isInt f = true) : Rules.isFloat f = false := by
  revert int
  cases f <;> decide

/-- The values of an element fill it. -/
theorem fmtWidth_mul_perElem (single : isPair f = false) : Rules.fmtWidth f * perElem f = 32 := by
  revert single
  cases f <;> decide

theorem perElem_pos (single : isPair f = false) : 0 < perElem f :=
  Nat.pos_of_ne_zero fun none => by simpa [none] using fmtWidth_mul_perElem single

theorem valNum_pair (pair : isPair f = true) : valNum f = 8 := if_pos pair

theorem valNum_single (single : isPair f = false) : valNum f = 16 * perElem f := by simp [valNum, perElem, single]

theorem valNum_pos : 0 < valNum f := by
  cases f <;> decide

theorem elemOf_pair (pair : isPair f = true) : elemOf f j = 2 * j := if_pos pair

theorem elemOf_single (single : isPair f = false) : elemOf f j = j / perElem f := by simp [elemOf, single]

@[simp] theorem elemOf_zero : elemOf f 0 = 0 := by simp [elemOf]

theorem elemOf_lt (h : j < valNum f) : elemOf f j < 16 := by
  cases pair : isPair f with
  | true =>
    rw [valNum_pair pair] at h
    rw [elemOf_pair pair]
    omega
  | false =>
    rw [valNum_single pair] at h
    rw [elemOf_single pair]
    exact Nat.div_lt_of_lt_mul (by rwa [Nat.mul_comm])

end

/-! ### Lists by index -/

/-- Blocks of one length, one after the other. -/
theorem flatMap_map_range {α : Type} (g : Nat → Nat → α) (m : Nat) {v : Nat} (pos : 0 < v) :
    ((List.range m).flatMap fun i => (List.range v).map (g i)) = (List.range (m * v)).map fun j => g (j / v) (j % v) := by
  induction m with
  | zero => simp
  | succ m ih =>
    have block : (List.range v).map (g m) = (List.range v).map fun k => g ((m * v + k) / v) ((m * v + k) % v) := by
      refine List.map_congr_left fun k hk => ?_
      have inside : k < v := List.mem_range.mp hk
      rw [Nat.mul_add_mod_of_lt inside, Nat.mul_comm m v, Nat.mul_add_div pos, Nat.div_eq_of_lt inside, Nat.add_zero]
    rw [List.range_succ, List.flatMap_append, ih, Nat.succ_mul, List.range_add, List.map_append, List.map_map, List.flatMap_singleton, block]
    rfl

theorem eq_map_getD {α : Type} (l : List α) (d : α) : l = (List.range l.length).map fun j => l.getD j d :=
  List.ext_getElem (by simp) fun j h _ => by simp [h]

theorem getD_map_range {α : Type} (g : Nat → α) (d : α) {m j : Nat} (h : j < m) : ((List.range m).map g).getD j d = g j := by
  simp [List.getD_eq_getElem?_getD, h]

theorem zipIdx_map_range {α : Type} (g : Nat → α) (m : Nat) : ((List.range m).map g).zipIdx = (List.range m).map fun j => (g j, j) :=
  List.ext_getElem (by simp) fun j _ _ => by simp

theorem getD_take_drop {α : Type} (l : List α) (d : α) (a : Nat) {v k : Nat} (h : k < v) : ((l.drop a).take v).getD k d = l.getD (a + k) d := by
  simp [List.getD_eq_getElem?_getD, h]

/-- Those of some indexes that a test keeps, as blocks of one or none. -/
theorem flatten_map_ite {α : Type} (p : Nat → Bool) (g : Nat → α) (is : List Nat) :
    (is.map fun i => if p i then [g i] else []).flatten = (is.filter p).map g := by
  induction is with
  | nil => rfl
  | cons i is ih => cases h : p i <;> simp [h, ih]

/-! ### Packed values -/

theorem packVals_lt (w : Nat) (vs : List Nat) : packVals w vs < 2 ^ (w * vs.length) := by
  induction vs with
  | nil => simp [packVals]
  | cons v vs ih =>
    have low : v % 2 ^ w < 2 ^ w := Nat.mod_lt _ (Nat.two_pow_pos w)
    calc packVals w (v :: vs) < 2 ^ w + 2 ^ w * packVals w vs := Nat.add_lt_add_right low _
      _ = 2 ^ w * (packVals w vs + 1) := by ring
      _ ≤ 2 ^ w * 2 ^ (w * vs.length) := Nat.mul_le_mul_left _ ih
      _ = 2 ^ (w * (v :: vs).length) := by rw [← pow_add, List.length_cons]; ring_nf

theorem packVals_getD (w : Nat) (vs : List Nat) (k : Nat) : packVals w vs / 2 ^ (w * k) % 2 ^ w = vs.getD k 0 % 2 ^ w := by
  induction vs generalizing k with
  | nil => simp [packVals]
  | cons v vs ih =>
    cases k with
    | zero => simp [packVals]
    | succ k =>
      have next : packVals w (v :: vs) / 2 ^ w = packVals w vs := by
        rw [packVals, Nat.add_mul_div_left _ _ (Nat.two_pow_pos w), Nat.div_eq_of_lt (Nat.mod_lt _ (Nat.two_pow_pos w)), Nat.zero_add]
      rw [Nat.mul_succ, Nat.add_comm, pow_add, ← Nat.div_div_eq_div_mul, next, ih, List.getD_cons_succ]

/-! ### The values of a row -/

section
variable {f : Fmt} {ls : List Lane} {j : Nat}

theorem allVals_single (single : isPair f = false) : allVals f ls = (List.range (16 * perElem f)).map fun j =>
    (laneAt ls (j / perElem f)).val.toNat / 2 ^ (Rules.fmtWidth f * (j % perElem f)) % 2 ^ Rules.fmtWidth f := by
  rw [← flatMap_map_range (fun i k => (laneAt ls i).val.toNat / 2 ^ (Rules.fmtWidth f * k) % 2 ^ Rules.fmtWidth f) 16 (perElem_pos single)]
  simp [allVals, elemVals, perElem, single]

@[simp] theorem length_allVals (f : Fmt) (ls : List Lane) : (allVals f ls).length = valNum f := by
  cases pair : isPair f with
  | true => simp [allVals, valNum, pair]
  | false => simp [allVals_single pair, valNum_single pair]

theorem allVals_eq_map (f : Fmt) (ls : List Lane) : allVals f ls = (List.range (valNum f)).map (valAt f ls) := by
  rw [← length_allVals f ls]
  exact eq_map_getD _ 0

theorem zipIdx_allVals (f : Fmt) (ls : List Lane) : (allVals f ls).zipIdx = (List.range (valNum f)).map fun j => (valAt f ls j, j) := by
  rw [allVals_eq_map, zipIdx_map_range]

theorem head?_allVals (f : Fmt) (ls : List Lane) : (allVals f ls).head? = some (valAt f ls 0) := by
  rw [allVals_eq_map, List.head?_map, List.head?_range, if_neg valNum_pos.ne']
  rfl

theorem valAt_pair (pair : isPair f = true) (h : j < valNum f) : valAt f ls j = pairVal ls j := by
  rw [valNum_pair pair] at h
  simp [valAt, allVals, pair, h]

theorem valAt_single (single : isPair f = false) (h : j < valNum f) :
    valAt f ls j = (laneAt ls (elemOf f j)).val.toNat / 2 ^ (Rules.fmtWidth f * (j % perElem f)) % 2 ^ Rules.fmtWidth f := by
  rw [valNum_single single] at h
  rw [valAt, allVals_single single, getD_map_range _ _ h, elemOf_single single]

theorem valOk_pair (pair : isPair f = true) : valOk f ls j = pairValid ls j := if_pos pair
theorem valOk_single (single : isPair f = false) : valOk f ls j = (laneAt ls (elemOf f j)).valid := by simp [valOk, single]
theorem valPsn_pair (pair : isPair f = true) : valPsn f ls j = pairPsn ls j := if_pos pair
theorem valPsn_single (single : isPair f = false) : valPsn f ls j = (laneAt ls (elemOf f j)).poison := by simp [valPsn, single]

theorem valAt_lt (f : Fmt) (ls : List Lane) (j : Nat) : valAt f ls j < 2 ^ Rules.fmtWidth f := by
  by_cases h : j < valNum f
  · cases pair : isPair f with
    | true =>
      have wide : Rules.fmtWidth f = 64 := by simpa [isPair] using pair
      rw [valAt_pair pair h, wide, pairVal]
      omega
    | false =>
      rw [valAt_single pair h]
      exact Nat.mod_lt _ (Nat.two_pow_pos _)
  · rw [valAt, List.getD_eq_default _ _ (by simpa using h)]
    exact Nat.two_pow_pos _

theorem unitLane_pair (pair : isPair f = true) (e : Nat) : unitLane f ls e = ⟨(laneAt ls e).val, pairValid ls (e / 2), pairPsn ls (e / 2)⟩ := if_pos pair
theorem unitLane_single (single : isPair f = false) (e : Nat) : unitLane f ls e = laneAt ls e := if_neg (by simpa [isPair] using single)

@[simp] theorem valid_unitLane_elemOf (f : Fmt) (ls : List Lane) (j : Nat) : (unitLane f ls (elemOf f j)).valid = valOk f ls j := by
  cases pair : isPair f with
  | true => simp [unitLane_pair pair, elemOf_pair pair, valOk_pair pair]
  | false => rw [unitLane_single pair, valOk_single pair]

@[simp] theorem poison_unitLane_elemOf (f : Fmt) (ls : List Lane) (j : Nat) : (unitLane f ls (elemOf f j)).poison = valPsn f ls j := by
  cases pair : isPair f with
  | true => simp [unitLane_pair pair, elemOf_pair pair, valPsn_pair pair]
  | false => rw [unitLane_single pair, valPsn_single pair]

@[simp] theorem valid_unitLane_zero (f : Fmt) (ls : List Lane) : (unitLane f ls 0).valid = valOk f ls 0 := by
  simpa using valid_unitLane_elemOf f ls 0

@[simp] theorem poison_unitLane_zero (f : Fmt) (ls : List Lane) : (unitLane f ls 0).poison = valPsn f ls 0 := by
  simpa using poison_unitLane_elemOf f ls 0

/-- An element is seen as the first value of its unit is. -/
theorem unitLane_eq_value {e : Nat} (he : e < 16) :
    ∃ k < valNum f, elemOf f k ≤ e ∧ (unitLane f ls e).valid = valOk f ls k ∧ (unitLane f ls e).poison = valPsn f ls k := by
  cases pair : isPair f with
  | true =>
    refine ⟨e / 2, by rw [valNum_pair pair]; omega, by rw [elemOf_pair pair]; omega, ?_⟩
    rw [unitLane_pair pair, valOk_pair pair, valPsn_pair pair]
    exact ⟨rfl, rfl⟩
  | false =>
    have first : elemOf f (e * perElem f) = e := by rw [elemOf_single pair, Nat.mul_div_left _ (perElem_pos pair)]
    refine ⟨e * perElem f, by rw [valNum_single pair]; exact Nat.mul_lt_mul_of_pos_right he (perElem_pos pair), first.le, ?_⟩
    rw [unitLane_single pair, valOk_single pair, valPsn_single pair, first]
    exact ⟨rfl, rfl⟩

/-- Some element below a bound is valid and poisoned where a value below it is. -/
theorem any_unitLane_psn {m : Nat} (hm : m ≤ 16) :
    ((List.range m).any fun e => (unitLane f ls e).valid && (unitLane f ls e).poison) = true ↔
      ∃ k, k < valNum f ∧ elemOf f k < m ∧ valOk f ls k = true ∧ valPsn f ls k = true := by
  simp only [List.any_eq_true, List.mem_range, Bool.and_eq_true]
  constructor
  · rintro ⟨e, he, ok, psn⟩
    obtain ⟨k, hk, below, valid, poison⟩ := unitLane_eq_value (f := f) (ls := ls) (he.trans_le hm)
    exact ⟨k, hk, below.trans_lt he, valid ▸ ok, poison ▸ psn⟩
  · rintro ⟨k, -, below, ok, psn⟩
    exact ⟨elemOf f k, below, by simpa using ok, by simpa using psn⟩

end

/-! ### Rows made of values -/

theorem laneAt_map_range (g : Nat → Lane) {e : Nat} (he : e < 16) : laneAt ((List.range 16).map g) e = g e := getD_map_range g _ he

theorem laneAt_replicate_off (m e : Nat) : laneAt (List.replicate m Lane.off) e = Lane.off := by
  rw [laneAt, List.getD_eq_getElem?_getD, List.getElem?_replicate]
  split <;> rfl

theorem mkLane_psn (v : Nat) (valid poison : Bool) : (mkLane v valid poison).poison = (valid && poison) := by cases valid <;> rfl

section
variable {f : Fmt} {vals : List Nat} {valid psn : Nat → Bool} {j : Nat}

theorem lanesOf_pair (pair : isPair f = true) :
    lanesOf f vals valid psn = (List.range 8).flatMap fun i => mkPair (vals.getD i 0) (valid (2 * i)) (psn (2 * i)) := if_pos pair

theorem laneAt_lanesOf (single : isPair f = false) {e : Nat} (he : e < 16) :
    laneAt (lanesOf f vals valid psn) e = mkLane (packVals (Rules.fmtWidth f) ((vals.drop (perElem f * e)).take (perElem f))) (valid e) (psn e) := by
  rw [lanesOf, if_neg (by simp [single])]
  exact laneAt_map_range _ he

variable (h : j < valNum f)
include h

theorem valOk_lanesOf : valOk f (lanesOf f vals valid psn) j = valid (elemOf f j) := by
  cases pair : isPair f with
  | true => rw [valOk_pair pair, lanesOf_pair pair, elemOf_pair pair, pairValid_pairs (valNum_pair pair ▸ h)]
  | false => rw [valOk_single pair, laneAt_lanesOf pair (elemOf_lt h), mkLane_valid]

theorem valPsn_lanesOf : valPsn f (lanesOf f vals valid psn) j = (valid (elemOf f j) && psn (elemOf f j)) := by
  cases pair : isPair f with
  | true =>
    obtain ⟨even, odd⟩ := laneAt_pairs (v := fun i => vals.getD i 0) (valid := fun i => valid (2 * i)) (psn := fun i => psn (2 * i)) (valNum_pair pair ▸ h)
    rw [valPsn_pair pair, lanesOf_pair pair, elemOf_pair pair, pairPsn, even, odd, mkLane_psn, mkLane_psn, Bool.or_self]
  | false => rw [valPsn_single pair, laneAt_lanesOf pair (elemOf_lt h), mkLane_psn]

theorem valAt_lanesOf (ok : valid (elemOf f j) = true) (small : vals.getD j 0 < 2 ^ Rules.fmtWidth f) :
    valAt f (lanesOf f vals valid psn) j = vals.getD j 0 := by
  cases pair : isPair f with
  | true =>
    have wide : Rules.fmtWidth f = 64 := by simpa [isPair] using pair
    rw [elemOf_pair pair] at ok
    rw [valAt_pair pair h, lanesOf_pair pair]
    exact pairVal_pairs (valid := fun i => valid (2 * i)) (valNum_pair pair ▸ h) ok (wide ▸ small)
  | false =>
    have pos := perElem_pos pair
    have packed := packVals_lt (Rules.fmtWidth f) ((vals.drop (perElem f * elemOf f j)).take (perElem f))
    have fits : packVals (Rules.fmtWidth f) ((vals.drop (perElem f * elemOf f j)).take (perElem f)) < 2 ^ 32 :=
      packed.trans_le (Nat.pow_le_pow_right (by decide) (fmtWidth_mul_perElem pair ▸ Nat.mul_le_mul_left _ (List.length_take_le ..)))
    rw [valAt_single pair h, laneAt_lanesOf pair (elemOf_lt h), ok, mkLane, if_pos rfl, toElem, BitVec.toNat_ofNat, Nat.mod_eq_of_lt fits, packVals_getD,
      getD_take_drop _ _ _ (Nat.mod_lt _ pos), elemOf_single pair, Nat.div_add_mod, Nat.mod_eq_of_lt small]

end

/-! ### Integers modulo a width -/

theorem wrapN_lt (w : Nat) (z : Int) : wrapN w z < 2 ^ w := by
  have low := Int.emod_nonneg z (b := (2 ^ w : Nat)) (by simp)
  have high := Int.emod_lt_of_pos z (b := (2 ^ w : Nat)) (by simp)
  rw [wrapN]
  omega

@[simp] theorem wrapN_zero (w : Nat) : wrapN w 0 = 0 := by simp [wrapN]

theorem wrapN_modEq (w : Nat) (z : Int) : (wrapN w z : Int) ≡ z [ZMOD (2 ^ w : Nat)] := by
  rw [wrapN, Int.toNat_of_nonneg (Int.emod_nonneg z (by simp))]
  exact Int.mod_modEq ..

theorem wrapN_congr {w : Nat} {y z : Int} (h : y ≡ z [ZMOD (2 ^ w : Nat)]) : wrapN w y = wrapN w z := congrArg Int.toNat h

/-- A value read in a format is the value, modulo the format's width. -/
theorem intOf_modEq (f : Fmt) (v : Nat) : intOf f v ≡ v [ZMOD (2 ^ Rules.fmtWidth f : Nat)] := by
  have residue : ((v % 2 ^ Rules.fmtWidth f : Nat) : Int) ≡ v [ZMOD (2 ^ Rules.fmtWidth f : Nat)] := by
    rw [Int.natCast_mod]
    exact Int.mod_modEq ..
  rw [intOf, signed]
  split
  · split
    · exact residue
    · simpa using residue.sub (Int.modEq_zero_iff_dvd.mpr dvd_rfl)
  · exact residue

theorem wrapN_intOf (f : Fmt) {v : Nat} (small : v < 2 ^ Rules.fmtWidth f) : wrapN (Rules.fmtWidth f) (intOf f v) = v := by
  rw [wrapN_congr (intOf_modEq f v), wrapN, ← Int.natCast_mod, Int.toNat_natCast, Nat.mod_eq_of_lt small]

/-- Sums may be wrapped before they are added to. -/
theorem intOf_wrapN_modEq (f : Fmt) (z : Int) : intOf f (wrapN (Rules.fmtWidth f) z) ≡ z [ZMOD (2 ^ Rules.fmtWidth f : Nat)] :=
  (intOf_modEq f _).trans (wrapN_modEq ..)

end Sys2Proof.Machine
end

section
/-! SUPPORT. RED, SCAN, PACK and UNPACK: the pairwise tree, the running value, and values of half and double width (R264, R366, R367, R370). -/

namespace Sys2Proof.Machine

/-! ### Node records and their firings -/

/-- A well-formed node record names a format of its entry (Table 13.12). -/
theorem fmt_mem_of_wellFormed {i : Instr} {c : Rules.NodeRule} {n : NodeRec} (rule : Rules.nodeRule i = some (c, n)) (wf : i.WellFormed) : n.fmt ∈ c.fmts := by
  unfold Instr.WellFormed Instr.wf at wf
  simp only [rule, Rules.nodeOk, Bool.and_eq_true, decide_eq_true_eq] at wf
  obtain ⟨⟨⟨⟨⟨-, fmt⟩, -⟩, -⟩, -⟩, -⟩ := wf
  exact fmt

/-- A firing that is a function of its operands, at its site. -/
theorem firePure_eq {s : State} {x : Site} (site : s.site = some x) (n : NodeRec) (op : Nat) (g : Site → Out × BitVec 10) :
    firePure s n op g = .next (s.fires x n (latency op n) 0 (x.sends n (g x).1) (g x).2) :=
  fireNode_eq site ..

/-! ### Combining steps (R366) -/

section
variable {f : Fmt} (int : Rules.isFloat f = false) (p : BitVec 8) (a b : Nat)
include int

theorem redStep_sum : redStep f p 0 a b = VRes.plain (wrapN (Rules.fmtWidth f) (intOf f a + intOf f b)) := if_neg (by simp [int])
theorem redStep_least : redStep f p 1 a b = VRes.plain (if intOf f b < intOf f a then b else a) := if_neg (by simp [int])
theorem redStep_greatest : redStep f p 2 a b = VRes.plain (if intOf f a < intOf f b then b else a) := if_neg (by simp [int])
theorem redStep_and : redStep f p 3 a b = VRes.plain (a &&& b) := if_neg (by simp [int])
theorem redStep_or : redStep f p 4 a b = VRes.plain (a ||| b) := if_neg (by simp [int])
theorem redStep_xor (op : Nat) : redStep f p (op + 5) a b = VRes.plain (a ^^^ b) := if_neg (by simp [int])

/-- A step on integers raises no flag and adds no poison. -/
theorem redStep_plain (op : Nat) : ∃ v, redStep f p op a b = VRes.plain v := by
  match op with
  | 0 => exact ⟨_, redStep_sum int ..⟩
  | 1 => exact ⟨_, redStep_least int ..⟩
  | 2 => exact ⟨_, redStep_greatest int ..⟩
  | 3 => exact ⟨_, redStep_and int ..⟩
  | 4 => exact ⟨_, redStep_or int ..⟩
  | op + 5 => exact ⟨_, redStep_xor int ..⟩

theorem redStep_flags (op : Nat) : (redStep f p op a b).flags = 0 := by
  obtain ⟨v, h⟩ := redStep_plain int p a b op
  rw [h]
  rfl

theorem redStep_psn (op : Nat) : (redStep f p op a b).psn = false := by
  obtain ⟨v, h⟩ := redStep_plain int p a b op
  rw [h]
  rfl

variable {a b}

/-- A step keeps within the format's width. -/
theorem redStep_lt (op : Nat) (ha : a < 2 ^ Rules.fmtWidth f) (hb : b < 2 ^ Rules.fmtWidth f) : (redStep f p op a b).bits < 2 ^ Rules.fmtWidth f := by
  match op with
  | 0 => rw [redStep_sum int]; exact wrapN_lt ..
  | 1 => rw [redStep_least int, VRes.plain]; split <;> assumption
  | 2 => rw [redStep_greatest int, VRes.plain]; split <;> assumption
  | 3 => rw [redStep_and int]; exact Nat.and_lt_two_pow _ hb
  | 4 => rw [redStep_or int]; exact Nat.or_lt_two_pow ha hb
  | op + 5 => rw [redStep_xor int]; exact Nat.xor_lt_two_pow ha hb

end

/-! ### The pairwise tree (R264) -/

/-- Two results combined: flags and poison gather. -/
def VRes.join (g : Nat → Nat → VRes) (a b : VRes) : VRes :=
  ⟨(g a.bits b.bits).bits, a.flags ||| b.flags ||| (g a.bits b.bits).flags, a.psn || b.psn || (g a.bits b.bits).psn⟩

/-- A node of the tree stands for the values below it: a result for some, nothing for none. -/
def Part.Of (R : List Nat → VRes → Prop) (vals : List Nat) : Part → Prop
  | some r => vals ≠ [] ∧ R vals r
  | none => vals = []

section
variable {g : Nat → Nat → VRes} {R : List Nat → VRes → Prop} (join : ∀ {l m a b}, R l a → R m b → R (l ++ m) (VRes.join g a b))
include join

theorem Part.of_redPair {l m : List Nat} {x y : Part} (hx : Part.Of R l x) (hy : Part.Of R m y) : Part.Of R (l ++ m) (redPair g x y) := by
  match x, y with
  | none, _ =>
    obtain rfl : l = [] := hx
    exact hy
  | some _, none =>
    obtain rfl : m = [] := hy
    rw [List.append_nil]
    exact hx
  | some _, some _ => exact ⟨by simp [hx.1], join hx.2 hy.2⟩

/-- A level of the tree halves the parts and keeps the values they stand for, in their order. -/
theorem Part.of_redLevel : ∀ {groups : List (List Nat)} {xs : List Part}, List.Forall₂ (Part.Of R) groups xs →
    ∃ groups', List.Forall₂ (Part.Of R) groups' (redLevel g xs) ∧ groups'.flatten = groups.flatten ∧ (redLevel g xs).length = (xs.length + 1) / 2
  | _, [], .nil => ⟨[], .nil, rfl, rfl⟩
  | [l], [x], .cons hx .nil => by
    have same : redLevel g [x] = [x] := by simp [redLevel]
    exact ⟨[l], same ▸ .cons hx .nil, rfl, by simp [same]⟩
  | l :: m :: _, _ :: _ :: _, .cons hx (.cons hy rest) => by
    obtain ⟨groups', parts, values, halved⟩ := Part.of_redLevel rest
    refine ⟨(l ++ m) :: groups', .cons (Part.of_redPair join hx hy) parts, by simp [values], ?_⟩
    simp only [redLevel, List.length_cons, halved]
    omega

/-- The tree's result stands for all values of its leaves. -/
theorem Part.of_redTree {n : Nat} {groups : List (List Nat)} {xs : List Part} (parts : List.Forall₂ (Part.Of R) groups xs) (deep : xs.length ≤ 2 ^ n) :
    Part.Of R groups.flatten (redTree g n xs) := by
  induction n generalizing groups xs with
  | zero =>
    match parts, deep with
    | .nil, _ => exact rfl
    | .cons hx .nil, _ => simpa [redTree] using hx
    | .cons _ (.cons _ _), deep => simp at deep
  | succ n ih =>
    match parts with
    | .nil => exact rfl
    | .cons hx .nil => simpa [redTree] using hx
    | .cons hx (.cons hy rest) =>
      obtain ⟨groups', parts', values, halved⟩ := Part.of_redLevel join (.cons hx (.cons hy rest))
      rw [← values]
      refine ih parts' ?_
      rw [halved]
      rw [pow_succ] at deep
      omega

end

/-- What a reduction of integer values gives (R264, R366). -/
structure IntReduces (f : Fmt) (op : Nat) (vals : List Nat) (r : VRes) : Prop where
  flags : r.flags = 0
  psn : r.psn = false
  small : r.bits < 2 ^ Rules.fmtWidth f
  sum : op = 0 → r.bits = wrapN (Rules.fmtWidth f) (vals.map fun v => intOf f v).sum
  least : op = 1 → r.bits ∈ vals ∧ ∀ v ∈ vals, intOf f r.bits ≤ intOf f v
  greatest : op = 2 → r.bits ∈ vals ∧ ∀ v ∈ vals, intOf f v ≤ intOf f r.bits
  ands : op = 3 → ∀ i, r.bits.testBit i = true ↔ ∀ v ∈ vals, v.testBit i = true
  ors : op = 4 → ∀ i, r.bits.testBit i = true ↔ ∃ v ∈ vals, v.testBit i = true
  xors : op = 5 → r.bits = vals.foldl (fun p v => p ^^^ v) 0

theorem foldl_xor (v : Nat) (vs : List Nat) : vs.foldl (fun p v => p ^^^ v) v = v ^^^ vs.foldl (fun p v => p ^^^ v) 0 := by
  rw [← List.foldl_assoc (op := fun p v : Nat => p ^^^ v), Nat.xor_zero]

section
variable {f : Fmt} {op : Nat}

theorem IntReduces.single {v : Nat} (small : v < 2 ^ Rules.fmtWidth f) : IntReduces f op [v] (VRes.plain v) where
  flags := rfl
  psn := rfl
  small := small
  sum _ := by simp [VRes.plain, wrapN_intOf f small]
  least _ := by simp [VRes.plain]
  greatest _ := by simp [VRes.plain]
  ands _ i := by simp [VRes.plain]
  ors _ i := by simp [VRes.plain]
  xors _ := by simp [VRes.plain]

theorem IntReduces.join (int : Rules.isFloat f = false) (p : BitVec 8) {l m : List Nat} {a b : VRes} (ha : IntReduces f op l a) (hb : IntReduces f op m b) :
    IntReduces f op (l ++ m) (VRes.join (redStep f p op) a b) where
  flags := by simp [VRes.join, redStep_flags int, ha.flags, hb.flags]
  psn := by simp [VRes.join, redStep_psn int, ha.psn, hb.psn]
  small := redStep_lt int p op ha.small hb.small
  sum := by
    rintro rfl
    rw [VRes.join, redStep_sum int, ha.sum rfl, hb.sum rfl, List.map_append, List.sum_append]
    exact wrapN_congr ((intOf_wrapN_modEq ..).add (intOf_wrapN_modEq ..))
  least := by
    rintro rfl
    obtain ⟨ma, la⟩ := ha.least rfl
    obtain ⟨mb, lb⟩ := hb.least rfl
    rw [VRes.join, redStep_least int, VRes.plain]
    split
    next less => exact ⟨List.mem_append_right _ mb, List.forall_mem_append.mpr ⟨fun v hv => less.le.trans (la v hv), lb⟩⟩
    next least => exact ⟨List.mem_append_left _ ma, List.forall_mem_append.mpr ⟨la, fun v hv => (not_lt.mp least).trans (lb v hv)⟩⟩
  greatest := by
    rintro rfl
    obtain ⟨ma, la⟩ := ha.greatest rfl
    obtain ⟨mb, lb⟩ := hb.greatest rfl
    rw [VRes.join, redStep_greatest int, VRes.plain]
    split
    next greater => exact ⟨List.mem_append_right _ mb, List.forall_mem_append.mpr ⟨fun v hv => (la v hv).trans greater.le, lb⟩⟩
    next greatest => exact ⟨List.mem_append_left _ ma, List.forall_mem_append.mpr ⟨la, fun v hv => (lb v hv).trans (not_lt.mp greatest)⟩⟩
  ands := by
    rintro rfl i
    rw [VRes.join, redStep_and int, VRes.plain, Nat.testBit_and, Bool.and_eq_true, ha.ands rfl, hb.ands rfl, List.forall_mem_append]
  ors := by
    rintro rfl i
    simp only [VRes.join, redStep_or int, VRes.plain, Nat.testBit_or, Bool.or_eq_true, ha.ors rfl, hb.ors rfl, List.mem_append, or_and_right, exists_or]
  xors := by
    rintro rfl
    rw [VRes.join, redStep_xor int p _ _ 0, ha.xors rfl, hb.xors rfl, List.foldl_append, foldl_xor (l.foldl _ 0) m]
    rfl

end

/-! ### Running values (R367) -/

/-- The running result after a valid value. -/
def runStep (g : Nat → Nat → VRes) (x : Nat) : Option Nat → VRes
  | some a => g a x
  | none => VRes.plain x

section
variable {g : Nat → Nat → VRes} {excl : Bool} {ident : Nat}

theorem scanRun_invalid (x : Nat) (items : List (Nat × Bool)) (s : Option Nat) :
    scanRun g excl ident ((x, false) :: items) s = VRes.plain 0 :: scanRun g excl ident items s := rfl

theorem scanRun_valid (x : Nat) (items : List (Nat × Bool)) (s : Option Nat) : scanRun g excl ident ((x, true) :: items) s =
    { runStep g x s with bits := if excl then s.getD ident else (runStep g x s).bits } :: scanRun g excl ident items (some (runStep g x s).bits) := by
  cases s <;> rfl

@[simp] theorem length_scanRun (items : List (Nat × Bool)) (s : Option Nat) : (scanRun g excl ident items s).length = items.length := by
  induction items generalizing s with
  | nil => rfl
  | cons it items ih =>
    obtain ⟨x, _ | _⟩ := it
    · rw [scanRun_invalid, List.length_cons, ih, List.length_cons]
    · rw [scanRun_valid, List.length_cons, ih, List.length_cons]

/-- Where the step raises no flag and adds no poison, no result does. -/
theorem scanRun_silent (silent : ∀ a b, (g a b).flags = 0 ∧ (g a b).psn = false) (items : List (Nat × Bool)) (s : Option Nat) :
    ∀ r ∈ scanRun g excl ident items s, r.flags = 0 ∧ r.psn = false := by
  induction items generalizing s with
  | nil => nofun
  | cons it items ih =>
    obtain ⟨x, _ | _⟩ := it
    · rw [scanRun_invalid]
      exact List.forall_mem_cons.mpr ⟨⟨rfl, rfl⟩, ih s⟩
    · rw [scanRun_valid]
      refine List.forall_mem_cons.mpr ⟨?_, ih _⟩
      cases s with
      | none => exact ⟨rfl, rfl⟩
      | some a => exact silent a x

end

/-- A running value stands for a sum: none for an empty one. -/
def RunsAt (f : Fmt) (total : Int) : Option Nat → Prop
  | some a => a = wrapN (Rules.fmtWidth f) total
  | none => total = 0

section
variable {f : Fmt}

/-- The running value after one more valid value. -/
theorem RunsAt.next (int : Rules.isFloat f = false) (p : BitVec 8) {total : Int} {x : Nat} (small : x < 2 ^ Rules.fmtWidth f) {s : Option Nat} (at_ : RunsAt f total s) :
    (runStep (redStep f p 0) x s).bits = wrapN (Rules.fmtWidth f) (total + intOf f x) := by
  match s with
  | none =>
    obtain rfl : total = 0 := at_
    rw [Int.zero_add, wrapN_intOf f small]
    rfl
  | some a =>
    obtain rfl : a = _ := at_
    rw [runStep, redStep_sum int]
    exact wrapN_congr ((intOf_wrapN_modEq ..).add_right _)

theorem RunsAt.getD {total : Int} {s : Option Nat} (at_ : RunsAt f total s) : s.getD 0 = wrapN (Rules.fmtWidth f) total := by
  match s with
  | none =>
    obtain rfl : total = 0 := at_
    simp
  | some a => exact at_

/-- What a running sum gives at a valid value: the total so far, with the value itself or without. -/
theorem scanRun_sum (int : Rules.isFloat f = false) (p : BitVec 8) (excl : Bool) {items : List (Nat × Bool)} (small : ∀ it ∈ items, it.1 < 2 ^ Rules.fmtWidth f)
    {total : Int} {s : Option Nat} (at_ : RunsAt f total s) {j : Nat} (hj : (items[j]?.map Prod.snd) = some true) :
    ((scanRun (redStep f p 0) excl 0 items s).map fun r => r.bits).getD j 0 =
      wrapN (Rules.fmtWidth f) (total + (((items.take (if excl then j else j + 1)).filter Prod.snd).map fun it => intOf f it.1).sum) := by
  induction items generalizing total s j with
  | nil => simp at hj
  | cons it items ih =>
    obtain ⟨x, valid⟩ := it
    have ih' := fun {total s} => @ih (fun it h => small it (.tail _ h)) total s
    have next := RunsAt.next int p (small _ (.head _)) at_
    cases valid with
    | false =>
      rw [scanRun_invalid]
      cases j with
      | zero => simp at hj
      | succ j =>
        have rest := ih' at_ (j := j) hj
        cases excl <;> simpa using rest
    | true =>
      rw [scanRun_valid]
      cases j with
      | zero =>
        cases excl with
        | true => simpa using at_.getD
        | false => simpa using next
      | succ j =>
        have rest := ih' (s := some _) next (j := j) hj
        cases excl <;> simpa [add_assoc] using rest

end

/-! ### RED (R264, R366) -/

/-- The leaves of RED's tree: the valid values. -/
def redParts (f : Fmt) (a : List Lane) : List Part := (List.range (valNum f)).map fun j => if valOk f a j then some (VRes.plain (valAt f a j)) else none

/-- The values that RED combines. -/
def validVals (f : Fmt) (a : List Lane) : List Nat := ((List.range (valNum f)).filter fun j => valOk f a j).map fun j => valAt f a j

/-- RED's lanes: the result in the first element or pair, the others off. -/
def redLanes (f : Fmt) (r : VRes) (psn : Bool) : List Lane :=
  if isPair f then mkPair r.bits true psn ++ List.replicate 14 Lane.off else mkLane r.bits true psn :: List.replicate 15 Lane.off

theorem valNum_le (f : Fmt) : valNum f ≤ 128 := by
  cases f <;> decide

/-- RED's tree over the valid values. -/
def Site.redTotal (x : Site) (n : NodeRec) : Part := redTree (redStep n.fmt x.pol (field n.mod 2 0)) 8 (redParts n.fmt (x.opA n n.fmt))

/-- Whether a valid element of a row is poisoned. -/
def rowPsn (f : Fmt) (a : List Lane) : Bool := (List.range 16).any fun e => (unitLane f a e).valid && (unitLane f a e).poison

theorem rowPsn_iff {f : Fmt} {a : List Lane} : rowPsn f a = true ↔ ∃ j, j < valNum f ∧ valOk f a j = true ∧ valPsn f a j = true := by
  rw [rowPsn, any_unitLane_psn le_rfl]
  exact exists_congr fun j => and_congr_right fun h => and_iff_right (elemOf_lt h)

section
variable {f : Fmt} {r : VRes} {psn : Bool}

theorem valOk_redLanes : valOk f (redLanes f r psn) 0 = true := by
  cases pair : isPair f <;> simp [valOk, redLanes, pair, pairValid, laneAt, mkPair, mkLane]

theorem valPsn_redLanes : valPsn f (redLanes f r psn) 0 = psn := by
  cases pair : isPair f <;> simp [valPsn, redLanes, pair, pairPsn, laneAt, mkPair, mkLane]

theorem laneAt_redLanes_rest {e : Nat} (rest : (if isPair f then 2 else 1) ≤ e) : laneAt (redLanes f r psn) e = Lane.off := by
  cases pair : isPair f with
  | true =>
    obtain ⟨k, rfl⟩ := Nat.exists_eq_add_of_le' (show 2 ≤ e by simpa [pair] using rest)
    rw [redLanes, if_pos pair]
    exact laneAt_replicate_off 14 k
  | false =>
    obtain ⟨k, rfl⟩ := Nat.exists_eq_add_of_le' (show 1 ≤ e by simpa [pair] using rest)
    rw [redLanes, if_neg (by simp [pair])]
    exact laneAt_replicate_off 15 k

theorem laneAt_redLanes (single : isPair f = false) : laneAt (redLanes f r psn) 0 = mkLane r.bits true psn := by
  simp [redLanes, single, laneAt]

theorem toNat_laneAt_redLanes (single : isPair f = false) (small : r.bits < 2 ^ Rules.fmtWidth f) : (laneAt (redLanes f r psn) 0).val.toNat = r.bits := by
  have width : Rules.fmtWidth f ≤ 32 := Nat.le_of_dvd (by decide) ⟨_, (fmtWidth_mul_perElem single).symm⟩
  rw [laneAt_redLanes single, mkLane, if_pos rfl, toElem, BitVec.toNat_ofNat, Nat.mod_eq_of_lt (small.trans_le (Nat.pow_le_pow_right (by decide) width))]

theorem valAt_redLanes (small : r.bits < 2 ^ Rules.fmtWidth f) : valAt f (redLanes f r psn) 0 = r.bits := by
  cases pair : isPair f with
  | true =>
    have wide : Rules.fmtWidth f = 64 := by simpa [isPair] using pair
    have lanes : pairVal (redLanes f r psn) 0 = r.bits % 2 ^ 32 % 2 ^ 32 + 2 ^ 32 * (r.bits / 2 ^ 32 % 2 ^ 32) := by
      rw [redLanes, if_pos pair]
      rfl
    rw [wide] at small
    rw [valAt_pair pair valNum_pos, lanes]
    omega
  | false =>
    rw [valAt_single pair valNum_pos, elemOf_zero, toNat_laneAt_redLanes pair small, Nat.zero_mod, Nat.mul_zero, pow_zero, Nat.div_one, Nat.mod_eq_of_lt small]

end

/-- RED's result stands for its valid values by every relation that one value meets and that the combining step keeps. -/
theorem redTotal_of {x : Site} {n : NodeRec} {R : List Nat → VRes → Prop} (single : ∀ v, v < 2 ^ Rules.fmtWidth n.fmt → R [v] (VRes.plain v))
    (join : ∀ {l m a b}, R l a → R m b → R (l ++ m) (VRes.join (redStep n.fmt x.pol (field n.mod 2 0)) a b)) :
    Part.Of R (validVals n.fmt (x.opA n n.fmt)) (x.redTotal n) := by
  rw [validVals, ← flatten_map_ite]
  refine Part.of_redTree join ?_ ?_
  · rw [redParts, List.forall₂_map_left_iff, List.forall₂_map_right_iff, List.forall₂_same]
    intro j _
    cases valOk n.fmt (x.opA n n.fmt) j with
    | true => exact ⟨by simp, single _ (valAt_lt ..)⟩
    | false => exact rfl
  · simp only [redParts, List.length_map, List.length_range]
    exact (valNum_le n.fmt).trans (by decide)

theorem map_zipIdx_redParts (f : Fmt) (a : List Lane) : ((allVals f a).zipIdx.map fun p : Nat × Nat =>
    if (unitLane f a (elemOf f p.2)).valid then some (VRes.plain p.1) else none) = redParts f a := by
  simp [zipIdx_allVals, redParts]

section
variable {s : State} {x : Site} {n : NodeRec} (site : s.site = some x)
include site

theorem exec_red_none (none : x.redTotal n = none) :
    exec (.red n) s = .next (s.fires x n (latency 0x083 n) 0 (x.sends n (x.out n false noLanes)) 0) := by
  rw [Site.redTotal] at none
  rw [show exec (.red n) s = execRed n s from rfl, execRed, firePure_eq site]
  simp only [map_zipIdx_redParts, none]

theorem exec_red_some {r : VRes} (some : x.redTotal n = some r) : exec (.red n) s =
    .next (s.fires x n (latency 0x083 n) 0 (x.sends n (x.out n false (redLanes n.fmt r (rowPsn n.fmt (x.opA n n.fmt) || r.psn)))) r.flags) := by
  rw [Site.redTotal] at some
  rw [show exec (.red n) s = execRed n s from rfl, execRed, firePure_eq site]
  simp only [map_zipIdx_redParts, some]
  rfl

end

/-! ### SCAN (R367) -/

section
variable (x : Site) (n : NodeRec)

/-- The values of SCAN's row, with their validity. -/
def rowItems (f : Fmt) (a : List Lane) : List (Nat × Bool) := (List.range (valNum f)).map fun j => (valAt f a j, valOk f a j)

/-- Whether the right operand's first value starts SCAN. -/
def Site.scanCarry : Bool := decide (n.rsrc ≠ .zero) && valOk n.fmt (x.opB n n.fmt) 0

/-- The results of SCAN, value by value. -/
def Site.scanRes : List VRes :=
  scanRun (redStep n.fmt x.pol (field n.mod 2 0)) (n.mod.getLsbD 3) (redIdent n.fmt (field n.mod 2 0)) (rowItems n.fmt (x.opA n n.fmt))
    (if x.scanCarry n then some (valAt n.fmt (x.opB n n.fmt) 0) else none)

/-- Whether poison has reached SCAN's element `i`. -/
def Site.scanPsn (i : Nat) : Bool :=
  (x.scanCarry n && valPsn n.fmt (x.opB n n.fmt) 0) ||
    ((List.range (i + 1)).any fun e => (unitLane n.fmt (x.opA n n.fmt) e).valid && (unitLane n.fmt (x.opA n n.fmt) e).poison) ||
    (x.scanRes n).zipIdx.any fun p => p.1.psn && decide (elemOf n.fmt p.2 ≤ i)

/-- The lanes of SCAN. -/
def Site.scanLanes : List Lane :=
  lanesOf n.fmt ((x.scanRes n).map fun r => r.bits) (fun i => (unitLane n.fmt (x.opA n n.fmt) i).valid) (x.scanPsn n)

variable {x n}

theorem exec_scan {s : State} (site : s.site = some x) : exec (.scan n) s =
    .next (s.fires x n (latency 0x084 n) 0 (x.sends n (x.out n false (x.scanLanes n))) ((x.scanRes n).foldl (fun fl r => fl ||| r.flags) 0)) := by
  rw [show exec (.scan n) s = execScan n s from rfl, execScan, firePure_eq site]
  simp only [zipIdx_allVals, head?_allVals, List.map_map, Function.comp_def, valid_unitLane_elemOf, valid_unitLane_zero, poison_unitLane_zero]
  rfl

theorem valOk_scanLanes {j : Nat} (h : j < valNum n.fmt) : valOk n.fmt (x.scanLanes n) j = valOk n.fmt (x.opA n n.fmt) j := by
  rw [Site.scanLanes, valOk_lanesOf h, valid_unitLane_elemOf]

theorem foldl_flags_silent {rs : List VRes} (silent : ∀ r ∈ rs, r.flags = 0) : rs.foldl (fun fl r => fl ||| r.flags) 0 = 0 := by
  induction rs with
  | nil => rfl
  | cons r rs ih =>
    obtain ⟨first, rest⟩ := List.forall_mem_cons.mp silent
    rw [List.foldl_cons, first]
    exact ih rest

theorem scanRes_of_sum (op : field n.mod 2 0 = 0) : x.scanRes n = scanRun (redStep n.fmt x.pol 0) (n.mod.getLsbD 3) 0 (rowItems n.fmt (x.opA n n.fmt))
    (if x.scanCarry n then some (valAt n.fmt (x.opB n n.fmt) 0) else none) := by
  rw [Site.scanRes, op]
  rfl

section
variable (int : Rules.isInt n.fmt = true)
include int

theorem scanRes_silent : ∀ r ∈ x.scanRes n, r.flags = 0 ∧ r.psn = false :=
  scanRun_silent (fun _ _ => ⟨redStep_flags (isFloat_of_isInt int) .., redStep_psn (isFloat_of_isInt int) ..⟩) _ _

/-- SCAN of integers raises no flag. -/
theorem foldl_scanRes_flags : (x.scanRes n).foldl (fun fl r => fl ||| r.flags) 0 = 0 := 
  foldl_flags_silent fun r hr => (scanRes_silent int r hr).1

/-- SCAN of integers carries on the poison of the valid values before, and of its start. -/
theorem valPsn_scanLanes {j : Nat} (h : j < valNum n.fmt) (ok : valOk n.fmt (x.opA n n.fmt) j = true) :
    valPsn n.fmt (x.scanLanes n) j = true ↔ (x.scanCarry n = true ∧ valPsn n.fmt (x.opB n n.fmt) 0 = true) ∨
      ∃ k, k < valNum n.fmt ∧ elemOf n.fmt k ≤ elemOf n.fmt j ∧ valOk n.fmt (x.opA n n.fmt) k = true ∧ valPsn n.fmt (x.opA n n.fmt) k = true := by
  have policy : ((x.scanRes n).zipIdx.any fun p => p.1.psn && decide (elemOf n.fmt p.2 ≤ elemOf n.fmt j)) = false :=
    List.any_eq_false.mpr fun p hp => by simp [(scanRes_silent int _ (List.fst_mem_of_mem_zipIdx hp)).2]
  rw [Site.scanLanes, valPsn_lanesOf h, valid_unitLane_elemOf, ok, Bool.true_and, Site.scanPsn, policy, Bool.or_false, Bool.or_eq_true, Bool.and_eq_true,
    any_unitLane_psn (elemOf_lt h)]
  simp only [Nat.lt_succ_iff]

/-- A SCAN that adds gives at each value the sum of the valid values before and of its start. -/
theorem valAt_scanLanes (op : field n.mod 2 0 = 0) {j : Nat} (h : j < valNum n.fmt) (ok : valOk n.fmt (x.opA n n.fmt) j = true) :
    valAt n.fmt (x.scanLanes n) j = wrapN (Rules.fmtWidth n.fmt) ((if x.scanCarry n then intOf n.fmt (valAt n.fmt (x.opB n n.fmt) 0) else 0) +
      (((List.range (if n.mod.getLsbD 3 then j else j + 1)).filter fun k => valOk n.fmt (x.opA n n.fmt) k).map
        fun k => intOf n.fmt (valAt n.fmt (x.opA n n.fmt) k)).sum) := by
  have start : RunsAt n.fmt (if x.scanCarry n then intOf n.fmt (valAt n.fmt (x.opB n n.fmt) 0) else 0)
      (if x.scanCarry n then some (valAt n.fmt (x.opB n n.fmt) 0) else none) := by
    cases x.scanCarry n with
    | true => exact (wrapN_intOf n.fmt (valAt_lt ..)).symm
    | false => exact rfl
  have taken : ∀ m ≤ valNum n.fmt, (((rowItems n.fmt (x.opA n n.fmt)).take m).filter Prod.snd).map (fun it => intOf n.fmt it.1) =
      ((List.range m).filter fun k => valOk n.fmt (x.opA n n.fmt) k).map fun k => intOf n.fmt (valAt n.fmt (x.opA n n.fmt) k) := by
    intro m hm
    rw [rowItems, ← List.map_take, List.take_range, Nat.min_eq_left hm, List.filter_map, List.map_map]
    rfl
  have value := scanRun_sum (isFloat_of_isInt int) x.pol (n.mod.getLsbD 3) (items := rowItems n.fmt (x.opA n n.fmt)) (by simp [rowItems, valAt_lt]) start (j := j)
    (by simp [rowItems, h, ok])
  rw [taken _ (by split <;> omega)] at value
  rw [← scanRes_of_sum op] at value
  rw [Site.scanLanes, valAt_lanesOf h (by simpa using ok) (value ▸ wrapN_lt ..), value]

end
end

/-! ### Formats of half and double width (R370) -/

section
variable {f : Fmt} (narrow : f ∈ Rules.fPack)
include narrow

theorem isPair_of_narrow : isPair f = false := by
  revert narrow
  cases f <;> decide

theorem valNum_wider : valNum f = valNum (wider f) + valNum (wider f) := by
  revert narrow
  cases f <;> decide

theorem perElem_wider (single : isPair (wider f) = false) : perElem f = perElem (wider f) * 2 := by
  revert narrow single
  cases f <;> decide

theorem perElem_of_wider_pair (pair : isPair (wider f) = true) : perElem f = 1 := by
  revert narrow pair
  cases f <;> decide

theorem intMin_eq : intMin f = intLow f := by
  revert narrow
  cases f <;> decide

theorem intMax_eq : intMax f = intHigh f := by
  revert narrow
  cases f <;> decide

end

/-! ### PACK (R370) -/

/-- The value indexes of an element. -/
def elemIdxs (f : Fmt) (i : Nat) : List Nat := (List.range (perElem f)).map fun k => perElem f * i + k

theorem mem_elemIdxs {f : Fmt} (single : isPair f = false) {i k : Nat} (hi : i < 16) : k ∈ elemIdxs f i ↔ k < valNum f ∧ elemOf f k = i := by
  have pos := perElem_pos single
  simp only [elemIdxs, List.mem_map, List.mem_range, elemOf_single single, valNum_single single, Nat.div_eq_iff pos]
  constructor
  · rintro ⟨k, hk, rfl⟩
    have := Nat.mul_le_mul_left (perElem f) (Nat.succ_le_of_lt hi)
    have := Nat.mul_comm i (perElem f)
    rw [Nat.mul_succ] at *
    omega
  · rintro ⟨_, low, high⟩
    have := Nat.mul_comm i (perElem f)
    exact ⟨k - perElem f * i, by omega, by omega⟩

section
variable (x : Site) (n : NodeRec)

/-- Where PACK takes a value from: the left operand's values, then the right operand's. -/
def Site.packSrc (j : Nat) : List Lane × Nat :=
  if j < valNum (wider n.fmt) then (x.opA n (wider n.fmt), j) else (x.opB n (wider n.fmt), j - valNum (wider n.fmt))

/-- A value that PACK takes, brought into the narrow format. -/
def Site.packRes (j : Nat) : VRes :=
  intRes n.fmt (n.mod.getLsbD 0) (intOf (wider n.fmt) (valAt (wider n.fmt) (x.packSrc n j).1 (x.packSrc n j).2))

/-- Whether every value of an element of PACK is valid, and whether one is poisoned. -/
def Site.packOk (i : Nat) : Bool := (elemIdxs n.fmt i).all fun k => valOk (wider n.fmt) (x.packSrc n k).1 (x.packSrc n k).2
def Site.packPsn (i : Nat) : Bool := (elemIdxs n.fmt i).any fun k => valPsn (wider n.fmt) (x.packSrc n k).1 (x.packSrc n k).2

/-- The lanes and flags of PACK. -/
def Site.packLanes : List Lane := lanesOf n.fmt ((List.range (valNum n.fmt)).map fun j => (x.packRes n j).bits) (fun i => x.packOk n i) fun i => x.packPsn n i
def Site.packFlags : BitVec 10 :=
  (List.range (valNum n.fmt)).foldl (fun fl j => if x.packOk n (elemOf n.fmt j) then fl ||| (x.packRes n j).flags else fl) 0

variable {x n}

/-- The values of both operands in their order. -/
theorem map_pack {α : Type} (narrow : n.fmt ∈ Rules.fPack) (g : Nat → α) :
    (allVals (wider n.fmt) (x.opA n (wider n.fmt)) ++ allVals (wider n.fmt) (x.opB n (wider n.fmt))).map g =
      (List.range (valNum n.fmt)).map fun j => g (valAt (wider n.fmt) (x.packSrc n j).1 (x.packSrc n j).2) := by
  rw [valNum_wider narrow, List.range_add, allVals_eq_map, allVals_eq_map, List.map_append, List.map_append, List.map_map, List.map_map, List.map_map]
  refine congrArg₂ (· ++ ·) (List.map_congr_left fun j hj => ?_) (List.map_congr_left fun j _ => ?_)
  · simp [Site.packSrc, List.mem_range.mp hj]
  · simp [Site.packSrc]

/-- The lane that holds a value of an operand of PACK. -/
theorem unitLane_packSrc (j : Nat) :
    (if j < valNum (wider n.fmt) then unitLane (wider n.fmt) (x.opA n (wider n.fmt)) (elemOf (wider n.fmt) j)
      else unitLane (wider n.fmt) (x.opB n (wider n.fmt)) (elemOf (wider n.fmt) (j - valNum (wider n.fmt)))) =
      unitLane (wider n.fmt) (x.packSrc n j).1 (elemOf (wider n.fmt) (x.packSrc n j).2) := by
  rw [Site.packSrc]
  split <;> rfl

theorem exec_pack {s : State} (site : s.site = some x) (narrow : n.fmt ∈ Rules.fPack) :
    exec (.pack n) s = .next (s.fires x n (latency 0x087 n) 0 (x.sends n (x.out n false (x.packLanes n))) (x.packFlags n)) := by
  rw [show exec (.pack n) s = execPack n s from rfl, execPack, firePure_eq site]
  simp only [map_pack narrow, length_allVals, unitLane_packSrc, zipIdx_map_range, List.map_map, List.foldl_map, List.all_map, List.any_map, Function.comp_def,
    valid_unitLane_elemOf, poison_unitLane_elemOf, Site.packLanes, Site.packFlags, Site.packRes, Site.packOk, Site.packPsn, elemIdxs]

/-- An integer result brought into a narrow format. -/
theorem intRes_eq {f : Fmt} (narrow : f ∈ Rules.fPack) (sat : Bool) (v : Int) :
    intRes f sat v = (let z := if sat then clampI v (intLow f) (intHigh f) else v; ⟨wrapN (Rules.fmtWidth f) z, if z = v then 0 else fSAT, false⟩) := by
  cases sat with
  | true => simp [intRes, intMin_eq narrow, intMax_eq narrow]
  | false => simp [intRes, VRes.plain]

/-- Flags gathered of values that raise SAT or none. -/
theorem foldl_sat {ok : Nat → Bool} {g : Nat → BitVec 10} (two : ∀ j, g j = 0 ∨ g j = fSAT) (is : List Nat) :
    let fl := is.foldl (fun fl j => if ok j then fl ||| g j else fl) 0
    (fl = 0 ∨ fl = fSAT) ∧ (fl = fSAT ↔ ∃ j ∈ is, ok j = true ∧ g j = fSAT) := by
  have differ : (0 : BitVec 10) ≠ fSAT := by decide
  induction is using List.reverseRecOn with
  | nil => exact ⟨.inl rfl, by simpa using differ⟩
  | append_singleton is j ih =>
    obtain ⟨either, raised⟩ := ih
    have last : (∃ i ∈ is ++ [j], ok i = true ∧ g i = fSAT) ↔ (∃ i ∈ is, ok i = true ∧ g i = fSAT) ∨ ok j = true ∧ g j = fSAT := by
      simp [or_and_right, exists_or]
    simp only [List.foldl_append, List.foldl_cons, List.foldl_nil, last, ← raised]
    generalize is.foldl (fun fl j => if ok j then fl ||| g j else fl) 0 = fl at either
    cases ok j with
    | false => exact ⟨either, by simp⟩
    | true => obtain rfl | rfl := either <;> obtain h | h := two j <;> simp [h]

/-- A value brought into a narrow format raises SAT where clamping changes it. -/
theorem intRes_flags {f : Fmt} (narrow : f ∈ Rules.fPack) (sat : Bool) (v : Int) :
    ((intRes f sat v).flags = 0 ∨ (intRes f sat v).flags = fSAT) ∧
    ((intRes f sat v).flags = fSAT ↔ sat = true ∧ (if sat then clampI v (intLow f) (intHigh f) else v) ≠ v) := by
  rw [intRes_eq narrow]
  cases sat with
  | false => exact ⟨.inl (if_pos rfl), by simp [fSAT]⟩
  | true =>
    by_cases same : clampI v (intLow f) (intHigh f) = v
    · simp [same, fSAT]
    · simp [same]

section
variable (narrow : n.fmt ∈ Rules.fPack) {j : Nat} (h : j < valNum n.fmt)
include narrow

theorem packFlags_spec : (x.packFlags n = 0 ∨ x.packFlags n = fSAT) ∧
    (x.packFlags n = fSAT ↔ ∃ j, j < valNum n.fmt ∧ valOk n.fmt (x.packLanes n) j = true ∧ (x.packRes n j).flags = fSAT) := by
  obtain ⟨either, raised⟩ := foldl_sat (ok := fun j => x.packOk n (elemOf n.fmt j)) (fun j => (intRes_flags narrow (n.mod.getLsbD 0) _).1) (List.range (valNum n.fmt))
  refine ⟨either, raised.trans (exists_congr fun j => ?_)⟩
  rw [List.mem_range]
  exact and_congr_right fun h => by rw [Site.packLanes, valOk_lanesOf h, Site.packRes]

include h

theorem valOk_packLanes : valOk n.fmt (x.packLanes n) j = true ↔
    ∀ k, k < valNum n.fmt → elemOf n.fmt k = elemOf n.fmt j → valOk (wider n.fmt) (x.packSrc n k).1 (x.packSrc n k).2 = true := by
  rw [Site.packLanes, valOk_lanesOf h, Site.packOk, List.all_eq_true]
  simp only [mem_elemIdxs (isPair_of_narrow narrow) (elemOf_lt h), and_imp]

theorem valPsn_packLanes : valPsn n.fmt (x.packLanes n) j = true ↔ valOk n.fmt (x.packLanes n) j = true ∧
    ∃ k, k < valNum n.fmt ∧ elemOf n.fmt k = elemOf n.fmt j ∧ valPsn (wider n.fmt) (x.packSrc n k).1 (x.packSrc n k).2 = true := by
  rw [Site.packLanes, valPsn_lanesOf h, valOk_lanesOf h, Bool.and_eq_true, Site.packPsn, List.any_eq_true]
  simp only [mem_elemIdxs (isPair_of_narrow narrow) (elemOf_lt h), and_assoc]

theorem valAt_packLanes (ok : valOk n.fmt (x.packLanes n) j = true) : valAt n.fmt (x.packLanes n) j = (x.packRes n j).bits := by
  have value := getD_map_range (fun j => (x.packRes n j).bits) 0 h
  have small : (x.packRes n j).bits < 2 ^ Rules.fmtWidth n.fmt := by
    rw [Site.packRes, intRes_eq narrow]
    exact wrapN_lt ..
  rw [Site.packLanes, valOk_lanesOf h] at ok
  rw [Site.packLanes, valAt_lanesOf h ok (value ▸ small), value]

end
end

/-! ### UNPACK (R370) -/

theorem take_drop_allVals {f : Fmt} {off m : Nat} (h : off + m ≤ valNum f) (ls : List Lane) :
    ((allVals f ls).drop off).take m = (List.range m).map fun j => valAt f ls (off + j) := by
  refine List.ext_getElem ?_ fun j _ hj => ?_
  · rw [List.length_take, List.length_drop, length_allVals, List.length_map, List.length_range]
    omega
  rw [List.length_map, List.length_range] at hj
  have inside : off + j < (allVals f ls).length := by
    rw [length_allVals]
    omega
  simp [valAt, List.getElem?_eq_getElem inside]

section
variable (x : Site) (n : NodeRec)

/-- The first value that UNPACK takes. -/
def unpackFrom : Nat := if n.mod.getLsbD 0 then valNum (wider n.fmt) else 0

/-- The element that an element of UNPACK's output comes from. -/
def unpackElem (i : Nat) : Nat := elemOf n.fmt (unpackFrom n + if isPair (wider n.fmt) then i / 2 else perElem (wider n.fmt) * i)

/-- The lanes of UNPACK. -/
def Site.unpackLanes : List Lane :=
  lanesOf (wider n.fmt) ((List.range (valNum (wider n.fmt))).map fun j =>
      wrapN (Rules.fmtWidth (wider n.fmt)) (intOf n.fmt (valAt n.fmt (x.opA n n.fmt) (unpackFrom n + j))))
    (fun i => (laneAt (x.opA n n.fmt) (unpackElem n i)).valid) fun i => (laneAt (x.opA n n.fmt) (unpackElem n i)).poison

variable {x n}

theorem valAt_unpackLanes {j : Nat} (h : j < valNum (wider n.fmt)) (ok : valOk (wider n.fmt) (x.unpackLanes n) j = true) :
    valAt (wider n.fmt) (x.unpackLanes n) j = wrapN (Rules.fmtWidth (wider n.fmt)) (intOf n.fmt (valAt n.fmt (x.opA n n.fmt) (unpackFrom n + j))) := by
  have value := getD_map_range (fun j => wrapN (Rules.fmtWidth (wider n.fmt)) (intOf n.fmt (valAt n.fmt (x.opA n n.fmt) (unpackFrom n + j)))) 0 h
  rw [Site.unpackLanes, valOk_lanesOf h] at ok
  rw [Site.unpackLanes, valAt_lanesOf h ok (value ▸ wrapN_lt ..), value]

variable (narrow : n.fmt ∈ Rules.fPack)
include narrow

theorem exec_unpack {s : State} (site : s.site = some x) :
    exec (.unpack n) s = .next (s.fires x n (latency 0x088 n) 0 (x.sends n (x.out n false (x.unpackLanes n))) 0) := by
  have half : (if isPair (wider n.fmt) then 8 else 16 * perElem (wider n.fmt)) = valNum (wider n.fmt) := by
    cases pair : isPair (wider n.fmt) with
    | true => rw [valNum_pair pair]; rfl
    | false => rw [valNum_single pair]; rfl
  have room : unpackFrom n + valNum (wider n.fmt) ≤ valNum n.fmt := by
    rw [valNum_wider narrow, unpackFrom]
    split <;> omega
  rw [show exec (.unpack n) s = execUnpack n s from rfl, execUnpack, firePure_eq site]
  have values := take_drop_allVals room (x.opA n n.fmt)
  rw [unpackFrom] at values
  simp only [half, values, List.map_map]
  rfl

/-- A value of UNPACK lies in the element that its element comes from. -/
theorem unpackElem_elemOf (j : Nat) : unpackElem n (elemOf (wider n.fmt) j) = elemOf n.fmt (unpackFrom n + j) := by
  have single := isPair_of_narrow narrow
  cases pair : isPair (wider n.fmt) with
  | true => simp [unpackElem, elemOf_pair pair, pair]
  | false =>
    have pos := perElem_pos pair
    have whole : ∃ c, unpackFrom n = perElem (wider n.fmt) * c := by
      rw [unpackFrom, valNum_single pair]
      split
      · exact ⟨16, Nat.mul_comm ..⟩
      · exact ⟨0, rfl⟩
    obtain ⟨c, first⟩ := whole
    rw [unpackElem, elemOf_single single, elemOf_single single, elemOf_single pair, perElem_wider narrow pair, ← Nat.div_div_eq_div_mul, ← Nat.div_div_eq_div_mul,
      first, if_neg (by simp [pair]), Nat.mul_add_div pos, Nat.mul_add_div pos, Nat.mul_div_cancel_left _ pos]

section
variable {j : Nat} (h : j < valNum (wider n.fmt))
include h

theorem valOk_unpackLanes : valOk (wider n.fmt) (x.unpackLanes n) j = valOk n.fmt (x.opA n n.fmt) (unpackFrom n + j) := by
  rw [Site.unpackLanes, valOk_lanesOf h, unpackElem_elemOf narrow, valOk_single (isPair_of_narrow narrow)]

theorem valPsn_unpackLanes : valPsn (wider n.fmt) (x.unpackLanes n) j =
    (valOk n.fmt (x.opA n n.fmt) (unpackFrom n + j) && valPsn n.fmt (x.opA n n.fmt) (unpackFrom n + j)) := by
  rw [Site.unpackLanes, valPsn_lanesOf h, unpackElem_elemOf narrow, valOk_single (isPair_of_narrow narrow), valPsn_single (isPair_of_narrow narrow)]

end
end

end Sys2Proof.Machine

open Sys2Proof Sys2Proof.Machine

/-- Settles O37: RED by its pairwise tree over the valid values, SCAN by its running value, PACK and UNPACK by the element that each value comes from.
That PACK raises SAT for valid elements alone is the model's choice (log 14). -/
theorem nodeReductions : Obligations.NodeReductions := by
  unfold Obligations.NodeReductions
  intro s x n site f a w op gives
  refine ⟨?red, ?scan, ?pack, ?unpack⟩
  case red =>
    intro _ vals
    have leaves := redTotal_of (x := x) (n := n) (R := fun _ _ => True) (fun _ _ => trivial) fun _ _ => trivial
    cases total : x.redTotal n with
    | none =>
      rw [total] at leaves
      exact ⟨_, _, ⟨_, exec_red_none site total⟩, fun _ => ⟨rfl, rfl⟩, fun some => absurd leaves some⟩
    | some r =>
      rw [total] at leaves
      refine ⟨_, _, ⟨_, exec_red_some site total⟩, fun none => absurd none leaves.1, fun _ => ⟨valOk_redLanes, fun e => laneAt_redLanes_rest, fun int => ?_⟩⟩
      have reduces := redTotal_of (x := x) (n := n) (fun _ => IntReduces.single) (IntReduces.join (isFloat_of_isInt int) x.pol)
      rw [total] at reduces
      obtain ⟨-, red⟩ := reduces
      rw [valPsn_redLanes, valAt_redLanes red.small, red.psn, Bool.or_false]
      exact ⟨red.flags, rowPsn_iff, fun single => toNat_laneAt_redLanes single red.small, red.sum, red.least, red.greatest, fun h i _ => red.ands h i,
        fun h i _ => red.ors h i, red.xors⟩
  case scan =>
    intro _ b carry
    refine ⟨_, _, ⟨_, exec_scan site⟩, fun j h => valOk_scanLanes h, fun int => ⟨foldl_scanRes_flags int, fun j h ok => ?_⟩⟩
    exact ⟨valPsn_scanLanes int h ok, fun sum => valAt_scanLanes int sum h ok⟩
  case pack =>
    intro wf src half at_ v z
    have narrow := fmt_mem_of_wellFormed (i := .pack n) rfl wf
    refine ⟨_, _, ⟨_, exec_pack site narrow⟩, fun j h => ⟨valOk_packLanes narrow h, fun ok => ?_, valPsn_packLanes narrow h⟩, ?_⟩
    · rw [valAt_packLanes narrow h ok, Site.packRes, intRes_eq narrow]
      rfl
    · obtain ⟨either, raised⟩ := packFlags_spec (x := x) narrow
      refine ⟨either, raised.trans ?_⟩
      simp only [Site.packRes, intRes_flags narrow, and_left_comm (b := n.mod.getLsbD 0 = true), exists_and_left]
      rfl
  case unpack =>
    intro wf dst from_
    have narrow := fmt_mem_of_wellFormed (i := .unpack n) rfl wf
    exact ⟨_, ⟨_, exec_unpack narrow site⟩, fun j h => ⟨valOk_unpackLanes narrow h, valPsn_unpackLanes narrow h, valAt_unpackLanes h⟩⟩
end

section
/-! SUPPORT. The opcode maps as a whole: the number of a record's rule names the record, and what a number names has that number
(Tables 13.10, 13.11). -/

namespace Sys2Proof.Laws.RecordEncoding

/-- Every instruction keeps the law of its encoding: one law for each constructor, in the order of the table. -/
theorem holds (i : Instr) : Statement i :=
  Instr.casesOn i
    powerSample thermalSample freezeTrigger clockStop samplePreload extest statedump portTrained idleNullTimer linkFault routeRehash
    classReleaseTimer waitRetryTimer stagingTimeout queryTimer keepAliveTimer commitResend pageMove launchDescriptorTake heldLaunchRelease
    regionReplaceSwitch dispatchChoice l2ModeSwitch preempt bivouacExchange regionResume arbiterWindow replicate replicaWithdraw configFetchDone
    blockFetch blockCommit fabricBlockMap tokenArrival unitComplete launchComplete cancelAdvance faultTokenEntry trapEntry minorFaultServed
    budgetExceeded majorFaultSave majorFaultServed peCheckFailure ccEccError uncorrectableError timestampRebase cairnWaitComplete idleWake
    stalledPutProceed readReevaluate barrierRetry relocRun streamScoreboardStep loadStreamToken storeStreamToken streamComplete engineDrain addS subS
    mulS mulhS divS remS andS orS xorS andnS shlS shrS sarS minS maxS movi sel setc clz popc lds sts csrr csrw run runw exitB exitc callb retb
    replaceB bwait feat fdecl fresize fqry fdrop fspill ffill cnew cadd cwait crd launch cancel arm sbind sgo sstop sbar copy gather scatter cred
    rput rget xbegin xput xcommit xabort hld hst hmov hpin hunpin hcmp hnew reloc relq snap snapdrop trap trapRd trapPop rett efence halt idle tlbinv
    addNode subNode mulNode mulhNode mad minNode maxNode abs neg adda idx iota sad andNode orNode xorNode andnNode notNode shlNode shrNode sarNode
    rot clzNode popcNode bfx bfi cmp selNode perm bcast shfl red scan compact expand pack unpack vmask fan merge delay tag lastNode sink fadd fsub
    fmul ffma fmin fmax fcmp fsgn fclass fsfu cvt ftoi itof frnd qmax qcvt dqt scaleNode scacc rng mldb mrow mqrow mrec mout ppset ppmul ppdiv ppcmb
    ppnrm ppout xlat ld st ldg stx pref putNode getNode getr rls hldNode hstNode hnewNode hpinNode hunpinNode hcmpNode caddNode cwaitNode bin bout
    tap vote trapNode brk trace efenceNode nop abortedRecordTimeout coldReset warmReset resetRestart thermalTrip freezeCmd warmresetCmd contCmd
    dumpdataRead bypass idcode registerWrite devnumWrite featenWrite lqctlWrite scqctlWrite nullFlit rdreq wrreq rdrsp wrack tokenFlit cairnAdd
    cairnWait cairnRead greply hopReadHeader hopPin hopUnpin hopWait classBind classRelease xstage prepareTxn readyTxn commitTxn abortTxn doneTxn
    queryTxn keepTxn recordResume systemCommandTake ctxnew ctxfree cancelCommand snapCommand snapdropCommand replaceCommand cfginv topo cinit
    malformedCommand

end Sys2Proof.Laws.RecordEncoding

namespace Sys2Proof.Rules

variable {i : Instr} {op : Nat}

/-- The opcode of a node record names it (Table 13.10). -/
theorem mkNode_of_nodeRule {c : NodeRule} {n : NodeRec} (rule : nodeRule i = some (c, n)) : mkNode c.op n = some i ∧ c.op < 1024 := by
  obtain ⟨node, -⟩ := Laws.RecordEncoding.holds i
  exact (node c n rule).2

/-- The opcode of a control record whose M its entry allows names it (Table 13.11). -/
theorem mkCtl_of_ctlRule {c : CtlRule} {r : CtlRec} (rule : ctlRule i = some (c, r)) (m : c.mOk = true) : mkCtl c.op r = some i ∧ c.op < 256 := by
  obtain ⟨-, ctl⟩ := Laws.RecordEncoding.holds i
  exact (ctl c r rule m).2

/-- What a node opcode names is a node record of that opcode, with the fields it was given. -/
theorem nodeRule_of_mkNode {n : NodeRec} (named : mkNode op n = some i) : ∃ c, nodeRule i = some (c, n) ∧ c.op = op := by
  unfold mkNode at named
  split at named <;> cases named <;> exact ⟨_, rfl, rfl⟩

/-- What a control opcode names is a control record of that opcode, with the fields it was given; TRAP's three forms share theirs (R327). -/
theorem ctlRule_of_mkCtl {r : CtlRec} (named : mkCtl op r = some i) : ∃ c, ctlRule i = some (c, r) ∧ c.op = op := by
  unfold mkCtl at named
  repeat' split at named
  all_goals cases named
  all_goals
    refine ⟨_, rfl, ?_⟩
    simp only [plain, streamCmd, Laws.op_regOrImm, apply_ite CtlRule.op, ite_self]

/-- No control record is a node's record. -/
theorem nodeRule_eq_none {c : CtlRule} {r : CtlRec} (rule : ctlRule i = some (c, r)) : nodeRule i = none := by
  cases node : nodeRule i with
  | none => rfl
  | some p =>
    obtain ⟨apart, -⟩ := Laws.RecordEncoding.holds i
    obtain ⟨noCtl, -⟩ := apart _ _ node
    cases noCtl.symm.trans rule

/-- A well-formed control record has an M its entry allows (R290). -/
theorem mOk_of_wellFormed {c : CtlRule} {r : CtlRec} (node : nodeRule i = none) (rule : ctlRule i = some (c, r)) (wf : i.WellFormed) :
    c.mOk = true := by
  unfold Instr.WellFormed Instr.wf at wf
  simp only [node, rule, ctlOk, Bool.and_eq_true] at wf
  obtain ⟨⟨-, mOk⟩, -⟩ := wf
  exact mOk

end Sys2Proof.Rules
end

section
/-! SUPPORT. The fields of a record and their bits: each decodes to what was encoded, and is encoded as it stood (Tables 13.2 to 13.4). -/

namespace Sys2Proof.Decode

open BitVec (extractLsb'_append_eq_of_le extractLsb'_append_eq_of_add_le extractLsb'_append_extractLsb'_eq_extractLsb' extractLsb'_eq_self)

/-! ### A word is its slices, for each layout -/

theorem nodeTarget_slices (x : BitVec 16) :
    x.extractLsb' 15 1 ++ x.extractLsb' 13 2 ++ x.extractLsb' 12 1 ++ x.extractLsb' 7 5 ++ x.extractLsb' 0 7 = x := by
  simp (disch := rfl) only [extractLsb'_append_extractLsb'_eq_extractLsb']
  exact extractLsb'_eq_self

theorem regionTarget_slices (x : BitVec 16) :
    x.extractLsb' 15 1 ++ x.extractLsb' 13 2 ++ x.extractLsb' 12 1 ++ x.extractLsb' 4 8 ++ x.extractLsb' 0 4 = x := by
  simp (disch := rfl) only [extractLsb'_append_extractLsb'_eq_extractLsb']
  exact extractLsb'_eq_self

theorem nodeRecord_slices (x : Rec96) :
    x.extractLsb' 94 2 ++ x.extractLsb' 84 10 ++ x.extractLsb' 80 4 ++ x.extractLsb' 72 8 ++ x.extractLsb' 70 2 ++ x.extractLsb' 68 2 ++
      x.extractLsb' 66 2 ++ x.extractLsb' 64 2 ++ x.extractLsb' 48 16 ++ x.extractLsb' 32 16 ++ x.extractLsb' 0 32 = x := by
  simp (disch := rfl) only [extractLsb'_append_extractLsb'_eq_extractLsb']
  exact extractLsb'_eq_self

theorem ctlRecord_slices (x : Rec96) :
    x.extractLsb' 94 2 ++ x.extractLsb' 86 8 ++ x.extractLsb' 81 5 ++ x.extractLsb' 76 5 ++ x.extractLsb' 71 5 ++ x.extractLsb' 68 3 ++
      x.extractLsb' 64 4 ++ x.extractLsb' 0 64 = x := by
  simp (disch := rfl) only [extractLsb'_append_extractLsb'_eq_extractLsb']
  exact extractLsb'_eq_self

/-! ### Codes of two and four bits -/

@[simp] theorem srcOf_srcBits (v : Src) : srcOf (srcBits v) = v := by cases v <;> rfl
@[simp] theorem pmodeOf_pmodeBits (v : PMode) : pmodeOf (pmodeBits v) = v := by cases v <;> rfl
@[simp] theorem portOf_portBits (v : Port) : portOf (portBits v) = v := by cases v <;> rfl
@[simp] theorem fmtOf_fmtBits (v : Fmt) : fmtOf (fmtBits v) = v := by cases v <;> rfl

@[simp] theorem srcBits_srcOf : ∀ x, srcBits (srcOf x) = x := by decide
@[simp] theorem pmodeBits_pmodeOf : ∀ x, pmodeBits (pmodeOf x) = x := by decide
@[simp] theorem portBits_portOf : ∀ x, portBits (portOf x) = x := by decide
@[simp] theorem fmtBits_fmtOf : ∀ x, fmtBits (fmtOf x) = x := by decide

/-! ### Targets (Table 13.3, R277) -/

/-- A target field decodes to the target that was encoded. -/
@[simp] theorem targetOf_targetBits (t : Target) : targetOf (targetBits t) = some t := by
  cases t with
  | unwired => rfl
  | node p n =>
    simp only [targetOf, targetBits, extractLsb'_append_eq_of_le, extractLsb'_append_eq_of_add_le,
      extractLsb'_eq_self, Nat.reduceLeDiff, Nat.reduceSub]
    simp
  | region q =>
    simp only [targetOf, targetBits, extractLsb'_append_eq_of_le, extractLsb'_append_eq_of_add_le,
      extractLsb'_eq_self, Nat.reduceLeDiff, Nat.reduceSub]
    simp

/-- A target field that decodes is the encoding of its target. -/
theorem targetBits_of_targetOf {x : BitVec 16} {t : Target} (read : targetOf x = some t) : targetBits t = x := by
  unfold targetOf at read
  split at read
  · split at read <;> cases read
    exact Eq.symm ‹x = 0#16›
  · next used =>
    have used : x.extractLsb' 15 1 = 1#1 := (BitVec.eq_zero_or_eq_one _).resolve_left used
    split at read
    · cases read
    · next rsv =>
      have rsv : x.extractLsb' 7 5 = 0#5 := not_not.mp rsv
      split at read
      · next node =>
        cases read
        simpa only [used, rsv, node, targetBits, portBits_portOf] using nodeTarget_slices x
      · next region =>
        have region : x.extractLsb' 12 1 = 1#1 := (BitVec.eq_zero_or_eq_one _).resolve_left region
        split at read <;> cases read
        next zero =>
        obtain ⟨port, low⟩ := zero
        have middle : x.extractLsb' 4 8 = 0#8 := by
          calc x.extractLsb' 4 8 = x.extractLsb' 7 5 ++ x.extractLsb' 4 3 :=
              (extractLsb'_append_extractLsb'_eq_extractLsb' (start₁ := 4) (len₁ := 3) (len₂ := 5) rfl).symm
            _ = 0#8 := by rw [rsv, low]; rfl
        simpa only [used, region, port, middle, targetBits] using regionTarget_slices x

/-! ### Node records (Table 13.2) -/

section
variable (op : Nat) (n : NodeRec)

@[simp] theorem class_nodeBits : (nodeBits op n).extractLsb' 94 2 = 0#2 := by
  simp only [nodeBits, extractLsb'_append_eq_of_le, extractLsb'_eq_self, Nat.reduceLeDiff, Nat.reduceSub]

@[simp] theorem opcode_nodeBits : (nodeBits op n).extractLsb' 84 10 = BitVec.ofNat 10 op := by
  simp only [nodeBits, extractLsb'_append_eq_of_le, extractLsb'_append_eq_of_add_le, extractLsb'_eq_self, Nat.reduceLeDiff, Nat.reduceSub]

/-- The fields of a node record are read back. -/
@[simp] theorem nodeFields_nodeBits : nodeFields (nodeBits op n) = .ok n := by
  simp only [nodeFields, nodeBits, extractLsb'_append_eq_of_le, extractLsb'_append_eq_of_add_le, extractLsb'_eq_self,
    Nat.reduceLeDiff, Nat.reduceSub]
  simp
end

/-- A node record whose fields can be read is the encoding of its opcode and its fields. -/
theorem nodeBits_of_nodeFields {x : Rec96} {n : NodeRec} (node : x.extractLsb' 94 2 = 0#2) (read : nodeFields x = .ok n) :
    nodeBits (x.extractLsb' 84 10).toNat n = x := by
  unfold nodeFields at read
  split at read
  · cases read
  · next rsv =>
    have rsv : x.extractLsb' 64 2 = 0#2 := not_not.mp rsv
    split at read <;> cases read
    next first second =>
    simpa only [nodeBits, BitVec.ofNat_toNat, BitVec.setWidth_eq, fmtBits_fmtOf, srcBits_srcOf, pmodeBits_pmodeOf, targetBits_of_targetOf first,
      targetBits_of_targetOf second, node, rsv] using nodeRecord_slices x

/-! ### Control records (Table 13.4) -/

section
variable (op : Nat) (r : CtlRec)

@[simp] theorem class_ctlBits : (ctlBits op r).extractLsb' 94 2 = 1#2 := by
  simp only [ctlBits, extractLsb'_append_eq_of_le, extractLsb'_eq_self, Nat.reduceLeDiff, Nat.reduceSub]

@[simp] theorem opcode_ctlBits : (ctlBits op r).extractLsb' 86 8 = BitVec.ofNat 8 op := by
  simp only [ctlBits, extractLsb'_append_eq_of_le, extractLsb'_append_eq_of_add_le, extractLsb'_eq_self, Nat.reduceLeDiff, Nat.reduceSub]

/-- The fields of a control record are read back. -/
@[simp] theorem ctlFields_ctlBits : ctlFields (ctlBits op r) = r := by
  simp only [ctlFields, ctlBits, extractLsb'_append_eq_of_le, extractLsb'_append_eq_of_add_le, extractLsb'_eq_self,
    Nat.reduceLeDiff, Nat.reduceSub]
end

/-- A control record is the encoding of its opcode and its fields: it has no reserved bits. -/
theorem ctlBits_ctlFields {x : Rec96} (ctl : x.extractLsb' 94 2 = 1#2) : ctlBits (x.extractLsb' 86 8).toNat (ctlFields x) = x := by
  simpa only [ctlBits, ctlFields, BitVec.ofNat_toNat, BitVec.setWidth_eq, ctl] using ctlRecord_slices x

/-! ### What the decoder accepts (R273, Table 13.12) -/

variable {x : Rec96} {i : Instr}

/-- The decoder answers an instruction just where it is well formed. -/
theorem ite_wf_iff {k : Instr} {e : DecodeErr} : (if k.wf then Except.ok k else .error e) = .ok i ↔ k = i ∧ i.WellFormed := by
  constructor
  · intro answer
    split at answer
    · next wf => cases answer; exact ⟨rfl, wf⟩
    · cases answer
  · rintro ⟨rfl, wf⟩
    exact if_pos wf

/-- A word of class 0 decodes to what its opcode names of its fields, where that is well formed. -/
theorem record_node (node : x.extractLsb' 94 2 = 0#2) :
    record x = .ok i ↔ ∃ n, nodeFields x = .ok n ∧ Rules.mkNode (x.extractLsb' 84 10).toNat n = some i ∧ i.WellFormed := by
  rw [record, if_pos node]
  cases nodeFields x with
  | error e => simp
  | ok n =>
    simp only [Except.ok.injEq, exists_eq_left']
    cases Rules.mkNode (x.extractLsb' 84 10).toNat n with
    | none => simp
    | some k => simpa using ite_wf_iff

/-- A word of class 1 decodes to what its opcode names of its fields, where that is well formed. -/
theorem record_ctl (ctl : x.extractLsb' 94 2 = 1#2) :
    record x = .ok i ↔ Rules.mkCtl (x.extractLsb' 86 8).toNat (ctlFields x) = some i ∧ i.WellFormed := by
  have apart : ¬ x.extractLsb' 94 2 = 0#2 := by simp [ctl]
  rw [record, if_neg apart, if_pos ctl]
  cases Rules.mkCtl (x.extractLsb' 86 8).toNat (ctlFields x) with
  | none => simp
  | some k => simpa using ite_wf_iff

/-- Records are of class 0 or class 1. -/
theorem class_of_record (accepted : record x = .ok i) : x.extractLsb' 94 2 = 0#2 ∨ x.extractLsb' 94 2 = 1#2 := by
  unfold record at accepted
  split at accepted
  · next node => exact .inl node
  · split at accepted
    · next ctl => exact .inr ctl
    · cases accepted

/-! ### What the encoder writes -/

theorem encode_node {c : Rules.NodeRule} {n : NodeRec} (rule : Rules.nodeRule i = some (c, n)) : encode i = some (nodeBits c.op n) := by
  simp only [encode, rule]

theorem encode_ctl {c : Rules.CtlRule} {r : CtlRec} (ctl : Rules.nodeRule i = none) (rule : Rules.ctlRule i = some (c, r)) :
    encode i = some (ctlBits c.op r) := by
  simp only [encode, ctl, rule]

theorem encode_event (ctl : Rules.nodeRule i = none) (event : Rules.ctlRule i = none) : encode i = none := by
  simp only [encode, ctl, event]

/-- A well-formed node record is what its word decodes to. -/
theorem record_nodeBits {c : Rules.NodeRule} {n : NodeRec} (rule : Rules.nodeRule i = some (c, n)) (wf : i.WellFormed) :
    record (nodeBits c.op n) = .ok i := by
  obtain ⟨named, bound⟩ := Rules.mkNode_of_nodeRule rule
  have opcode : ((nodeBits c.op n).extractLsb' 84 10).toNat = c.op := by rw [opcode_nodeBits, BitVec.toNat_ofNat, Nat.mod_eq_of_lt bound]
  exact (record_node (class_nodeBits c.op n)).mpr ⟨n, nodeFields_nodeBits c.op n, opcode.symm ▸ named, wf⟩

/-- A well-formed control record is what its word decodes to. -/
theorem record_ctlBits {c : Rules.CtlRule} {r : CtlRec} (ctl : Rules.nodeRule i = none) (rule : Rules.ctlRule i = some (c, r)) (wf : i.WellFormed) :
    record (ctlBits c.op r) = .ok i := by
  obtain ⟨named, bound⟩ := Rules.mkCtl_of_ctlRule rule (Rules.mOk_of_wellFormed ctl rule wf)
  have opcode : ((ctlBits c.op r).extractLsb' 86 8).toNat = c.op := by rw [opcode_ctlBits, BitVec.toNat_ofNat, Nat.mod_eq_of_lt bound]
  refine (record_ctl (class_ctlBits c.op r)).mpr ⟨?_, wf⟩
  rwa [opcode, ctlFields_ctlBits]

end Sys2Proof.Decode

open Sys2Proof Decode

/-- Settles O1: a record is a node's or a control record by its rule, and each kind is read back field by field. -/
theorem decodeOfEncode : Obligations.DecodeOfEncode := by
  intro i x encoded wf
  cases node : Rules.nodeRule i with
  | some rule =>
    cases (encode_node node).symm.trans encoded
    exact record_nodeBits node wf
  | none =>
    cases ctl : Rules.ctlRule i with
    | some rule =>
      cases (encode_ctl node ctl).symm.trans encoded
      exact record_ctlBits node ctl wf
    | none => cases (encode_event node ctl).symm.trans encoded

/-- Settles O2: what an opcode names has that opcode and those fields, and the fields of a word that decodes are all of its bits. -/
theorem encodeOfDecode : Obligations.EncodeOfDecode := by
  intro x i decoded
  rcases class_of_record decoded with node | ctl
  · obtain ⟨n, fields, named, wf⟩ := (record_node node).mp decoded
    obtain ⟨c, rule, op⟩ := Rules.nodeRule_of_mkNode named
    have word : nodeBits c.op n = x := op ▸ nodeBits_of_nodeFields node fields
    exact ⟨word ▸ encode_node rule, wf⟩
  · obtain ⟨named, wf⟩ := (record_ctl ctl).mp decoded
    obtain ⟨c, rule, op⟩ := Rules.ctlRule_of_mkCtl named
    have word : ctlBits c.op (ctlFields x) = x := op ▸ ctlBits_ctlFields ctl
    exact ⟨(encode_ctl (Rules.nodeRule_eq_none rule) rule).trans (congrArg some word), wf⟩
end

section
/-! SUPPORT. Local records of a control block, and what they leave in its working copy (R292, R301 to R305, R319, R323, R327 to R331). -/

namespace Sys2Proof.Machine

/-- The machine after a local record: the block goes on, or faults. -/
def LRes.after (lr : LRes) (s : State) (c : CSite) : State :=
  match lr with
  | .ok w => s.afterRecord c w
  | .fault code => s.coreFault c c.w code 0 0

section
variable {s : State} {c : CSite} (site : s.csite = some c)
include site

theorem ctlLocal_after (g : State → CSite → LRes) : ctlLocal s g = .next ((g s c).after s c) := by
  rw [ctlLocal_eq site]
  cases g s c <;> rfl

/-- A local record does what the checks before a block's first effect take it to do (R451). -/
theorem exec_local {i : Instr} {lr : LRes} (local_ : localRes s c i = some lr) : exec i s = .next (lr.after s c) := by
  unfold localRes at local_
  split at local_ <;> cases local_ <;> (unfold exec; exact ctlLocal_after site _)

theorem exec_local_ok {i : Instr} {w : Work} (ends : localRes s c i = some (.ok w)) : exec i s = .next (s.afterRecord c w) := exec_local site ends

theorem exec_local_fault {i : Instr} {code : Nat} (faults : localRes s c i = some (.fault code)) : exec i s = .next (s.coreFault c c.w code 0 0) :=
  exec_local site faults

end

/-! ### Register targets (R279, R301) -/

/-- A block address has 56 bits and is that of a whole block. -/
theorem blockAddrOk_iff (v : Word) : Rules.blockAddrOk v = true ↔ v.toNat < 2 ^ 56 ∧ v.toNat % 2048 = 0 := by
  have := v.isLt
  simp only [Rules.blockAddrOk, field, Nat.shiftRight_eq_div_pow, Bool.and_eq_true, decide_eq_true_eq]
  omega

theorem targetWork_ok {v : Word} (target : v.toNat < 2 ^ 56 ∧ v.toNat % 2048 = 0) (c : CSite) :
    targetWork v c = .ok { c.w with ending := .goto v.toNat } := if_pos ((blockAddrOk_iff v).mpr target)

theorem targetWork_fault {v : Word} (target : ¬ (v.toNat < 2 ^ 56 ∧ v.toNat % 2048 = 0)) (c : CSite) :
    targetWork v c = .fault cIllegalInstr := if_neg (mt (blockAddrOk_iff v).mp target)

section
variable (c : CSite) (r : CtlRec)

theorem exitBWork_imm (imm : r.m.getLsbD 0 = false) : exitBWork r c = .ok { c.w with ending := .goto r.imm.toNat } := by
  rw [exitBWork, imm]; rfl

theorem exitBWork_reg (reg : r.m.getLsbD 0 = true) : exitBWork r c = targetWork (c.reg r.a) c := if_pos reg

/-! ### Reference moves (R319) -/

theorem hmovWork_toH (m : r.m = 0) : hmovWork r c = .ok (c.w.setH r.d (c.reg r.a)) := by rw [hmovWork, m]; rfl
theorem hmovWork_fromH (m : r.m = 1) : hmovWork r c = .ok (c.w.setS r.d (readH c.w.h r.a)) := by rw [hmovWork, m]; rfl
theorem hmovWork_between (m : r.m = 2) : hmovWork r c = .ok (c.w.setH r.d (readH c.w.h r.a)) := by rw [hmovWork, m]; rfl

end

end Sys2Proof.Machine

open Sys2Proof Sys2Proof.Machine

/-- Settles O16, record by record: each ends in the working copy that its rule gives, and EXIT of a bad target faults. -/
theorem localRecordResults : Obligations.LocalRecordResults := by
  unfold Obligations.LocalRecordResults
  intro s c r site
  refine ⟨?exitImm, ?exitReg, ?exitBad, ?exitc, ?callb, ?retb, ?halt, ?rett, ?trap, ?idle, ?feat, ?hmovTo, ?hmovFrom, ?hmovBetween, ?relq⟩
  case exitImm => exact fun imm => exec_local_ok site (congrArg some (exitBWork_imm c r imm))
  case exitReg => exact fun reg target => exec_local_ok site (congrArg some ((exitBWork_reg c r reg).trans (targetWork_ok target c)))
  case exitBad => exact fun reg target => exec_local_fault site (congrArg some ((exitBWork_reg c r reg).trans (targetWork_fault target c)))
  case hmovTo => exact fun m => exec_local_ok site (congrArg some (hmovWork_toH c r m))
  case hmovFrom => exact fun m => exec_local_ok site (congrArg some (hmovWork_fromH c r m))
  case hmovBetween => exact fun m => exec_local_ok site (congrArg some (hmovWork_between c r m))
  case retb => exact fun target => exec_local_ok site (congrArg some (targetWork_ok target c))
  case exitc | callb | halt | rett | trap | idle | feat | relq => exact exec_local_ok site rfl

end

section
/-! SUPPORT. The scalar records: the values of Tables 14.4 and 14.5, conditions, counts of bits, status registers (R113, R294 to R296, R298). -/

namespace Sys2Proof.Machine

/-! ### Values (Table 14.4) -/

section
variable (a x : Word)

theorem addVal_eq : a + x = BitVec.ofNat 64 (a.toNat + x.toNat) := by simp [BitVec.ofNat_add]
theorem mulVal_eq : a * x = BitVec.ofNat 64 (a.toNat * x.toNat) := by simp [BitVec.ofNat_mul]

theorem subVal_eq : a - x = BitVec.ofInt 64 (a.toNat - x.toNat) := by
  apply BitVec.eq_of_toNat_eq
  rw [BitVec.toNat_sub, BitVec.toNat_ofInt]
  omega

theorem shlVal_eq (n : Nat) : a <<< n = BitVec.ofNat 64 (a.toNat * 2 ^ n) := by
  apply BitVec.eq_of_toNat_eq
  rw [BitVec.toNat_shiftLeft, BitVec.toNat_ofNat, Nat.shiftLeft_eq]

theorem shrVal_eq (n : Nat) : a >>> n = BitVec.ofNat 64 (a.toNat / 2 ^ n) := by
  rw [← Nat.shiftRight_eq_div_pow, ← BitVec.toNat_ushiftRight, BitVec.ofNat_toNat, BitVec.setWidth_eq]

theorem sarVal_eq (n : Nat) : a.sshiftRight n = BitVec.ofInt 64 (a.toInt / 2 ^ n) := by
  rw [BitVec.sshiftRight, Int.shiftRight_eq_div_pow]
  norm_cast

/-- Of two words that a key tells apart, the lesser's place does not rest on which comparison is asked. -/
theorem ite_lt_eq_ite_le {α : Type} [LinearOrder α] {key : Word → α} (inj : Function.Injective key) :
    (if key a < key x then x else a) = if key a ≤ key x then x else a := by
  rcases lt_trichotomy (key a) (key x) with less | same | more
  · rw [if_pos less, if_pos less.le]
  · rw [inj same, ite_self, ite_self]
  · rw [if_neg more.not_gt, if_neg more.not_ge]

theorem minVal_eq (u : Bool) : minVal u a x = if u then (if a.toNat ≤ x.toNat then a else x) else (if a.toInt ≤ x.toInt then a else x) := by
  simp only [minVal, ← not_lt, ite_not]

theorem maxVal_eq (u : Bool) : maxVal u a x = if u then (if a.toNat ≤ x.toNat then x else a) else (if a.toInt ≤ x.toInt then x else a) := by
  rw [maxVal, ite_lt_eq_ite_le a x fun _ _ => BitVec.eq_of_toNat_eq, ite_lt_eq_ite_le a x fun _ _ => BitVec.eq_of_toInt_eq]

/-! ### Division (Table 14.5) -/

theorem divVal_zero (u : Bool) : divVal u a 0 = BitVec.allOnes 64 := if_pos rfl
theorem remVal_zero (u : Bool) : remVal u a 0 = a := if_pos rfl

end

section
variable (a : Word) {x : Word} (nonzero : x ≠ 0)
include nonzero

theorem divVal_unsigned : divVal true a x = BitVec.ofNat 64 (a.toNat / x.toNat) := if_neg nonzero
theorem remVal_unsigned : remVal true a x = BitVec.ofNat 64 (a.toNat % x.toNat) := if_neg nonzero
theorem divVal_signed : divVal false a x = BitVec.ofInt 64 (a.toInt.tdiv x.toInt) := if_neg nonzero
theorem remVal_signed : remVal false a x = BitVec.ofInt 64 (a.toInt.tmod x.toInt) := if_neg nonzero

/-- Quotient and remainder give the dividend back. -/
theorem divVal_mul_add_remVal (u : Bool) : a = divVal u a x * x + remVal u a x := by
  cases u with
  | true =>
    calc a = BitVec.ofNat 64 (a.toNat / x.toNat * x.toNat + a.toNat % x.toNat) := by
          rw [Nat.div_add_mod', BitVec.ofNat_toNat, BitVec.setWidth_eq]
      _ = _ := by rw [BitVec.ofNat_add, BitVec.ofNat_mul, BitVec.ofNat_toNat, BitVec.setWidth_eq, divVal_unsigned a nonzero, remVal_unsigned a nonzero]
  | false =>
    calc a = BitVec.ofInt 64 (a.toInt.tdiv x.toInt * x.toInt + a.toInt.tmod x.toInt) := by rw [Int.tdiv_mul_add_tmod, BitVec.ofInt_toInt]
      _ = _ := by rw [BitVec.ofInt_add, BitVec.ofInt_mul, BitVec.ofInt_toInt, divVal_signed a nonzero, remVal_signed a nonzero]

theorem toNat_divVal_unsigned : (divVal true a x).toNat = a.toNat / x.toNat := by
  rw [divVal_unsigned a nonzero, BitVec.toNat_ofNat]
  exact Nat.mod_eq_of_lt ((Nat.div_le_self ..).trans_lt a.isLt)

theorem toNat_remVal_unsigned_lt : (remVal true a x).toNat < x.toNat := by
  have pos : 0 < x.toNat := Nat.pos_of_ne_zero fun zero => nonzero (BitVec.eq_of_toNat_eq zero)
  rw [remVal_unsigned a nonzero, BitVec.toNat_ofNat]
  exact (Nat.mod_le ..).trans_lt (Nat.mod_lt _ pos)

/-- The signed remainder is less than the divisor, and so is in range. -/
theorem toInt_remVal_signed : (remVal false a x).toInt = a.toInt.tmod x.toInt := by
  have low := x.le_toInt
  have high := x.toInt_lt
  have nonzeroInt : x.toInt ≠ 0 := fun zero => nonzero (BitVec.eq_of_toInt_eq zero)
  have size : (a.toInt.tmod x.toInt).natAbs < x.toInt.natAbs := by
    rw [Int.natAbs_tmod]
    exact Nat.mod_lt _ (Int.natAbs_pos.mpr nonzeroInt)
  rw [remVal_signed a nonzero]
  exact BitVec.toInt_ofInt_eq_self (by decide) (by omega) (by omega)

/-- The signed remainder has the sign of the dividend. -/
theorem remVal_signed_neg_iff (left : remVal false a x ≠ 0) : (remVal false a x).toInt < 0 ↔ a.toInt < 0 := by
  have leftInt : (remVal false a x).toInt ≠ 0 := fun zero => left (BitVec.eq_of_toInt_eq zero)
  rw [toInt_remVal_signed a nonzero] at leftInt ⊢
  have nonneg := fun h : 0 ≤ a.toInt => Int.tmod_nonneg x.toInt h
  have nonpos := fun h : 0 ≤ -a.toInt => Int.tmod_nonneg x.toInt h
  rw [Int.neg_tmod] at nonpos
  omega

end

/-! ### Counts of bits (R296) -/

section
variable (x : Word)

theorem clzFrom_le (n : Nat) : clzFrom x n ≤ n := by
  induction n with
  | zero => exact le_rfl
  | succ n ih => rw [clzFrom]; split <;> omega

/-- The bits above the highest one are zero. -/
theorem getLsbD_of_clzFrom (n : Nat) {i : Nat} (above : n - clzFrom x n ≤ i) (below : i < n) : x.getLsbD i = false := by
  induction n with
  | zero => omega
  | succ n ih =>
    rw [clzFrom] at above
    split at above
    · omega
    · next clear =>
      rcases Nat.lt_succ_iff_lt_or_eq.mp below with less | rfl
      · exact ih (by omega) less
      · exact Bool.eq_false_iff.mpr clear

/-- The highest one bit stands below them. -/
theorem getLsbD_clzFrom (n : Nat) (some_one : clzFrom x n < n) : x.getLsbD (n - 1 - clzFrom x n) = true := by
  induction n with
  | zero => omega
  | succ n ih =>
    rw [clzFrom] at some_one ⊢
    split at some_one
    · next one => rwa [if_pos one]
    · next clear =>
      rw [if_neg clear, show n + 1 - 1 - (1 + clzFrom x n) = n - 1 - clzFrom x n by omega]
      exact ih (by omega)

theorem popFrom_eq (n : Nat) : popFrom x n = ((List.range n).filter fun i => x.getLsbD i).length := by
  induction n with
  | zero => rfl
  | succ n ih =>
    rw [popFrom, ih, List.range_succ, List.filter_append, List.length_append, Nat.add_comm]
    cases one : x.getLsbD n <;> simp [one]

end

/-! ### Records that write D -/

/-- A local record that writes D, by the value it writes. -/
theorem exec_writes {s : State} {c : CSite} (site : s.csite = some c) {i : Instr} {r : CtlRec} {u v : Word}
    (writes : localRes s c i = some (.ok (c.w.setS r.d u))) (value : u = v) : exec i s = .next (s.afterRecord c (c.w.setS r.d v)) :=
  exec_local_ok site (value ▸ writes)

/-- What DIV and REM leave where `v` is the result: a zero divisor sets DZ when the block commits. -/
def CSite.afterDivision (c : CSite) (r : CtlRec) (v : Word) : Work :=
  if c.x r = 0 then { c.w.setS r.d v with csrw := c.w.csrw ++ [(0x1001, 2)] } else c.w.setS r.d v

theorem divWork_eq (r : CtlRec) (f : Word → Word → Word) (c : CSite) : divWork r f c = .ok (c.afterDivision r (f (c.sA r) (c.x r))) := rfl

/-- An immediate shift count above 63 is ill formed (R294). -/
theorem shift_wellFormed {i : Instr} {r : CtlRec} (shift : i = .shlS r ∨ i = .shrS r ∨ i = .sarS r) (imm : r.m.getLsbD 0 = true) (large : 64 ≤ r.imm.toNat) :
    ¬ i.WellFormed := by
  have extra : Rules.ctlExtra i = false := by
    rcases shift with rfl | rfl | rfl <;> simp [Rules.ctlExtra, imm, large]
  rcases shift with rfl | rfl | rfl <;> simp [Instr.WellFormed, Instr.wf, Rules.nodeRule, Rules.ctlRule, extra]

/-! ### Status registers (R113, R298) -/

/-- The entry of a number in a table that holds, of the numbers of a list, those with a value. -/
theorem tget_filterMap {α : Type} (f : Nat → Option α) (l : List Nat) (n : Nat) :
    tget (l.filterMap fun k => (f k).map fun v => (k, v)) n = if n ∈ l then f n else none := by
  induction l with
  | nil => rfl
  | cons k l ih =>
    by_cases here : k = n
    · subst here
      cases value : f k <;> simp [value, ih, tget_cons]
    · cases value : f k <;> simp [value, ih, tget_cons, here, Ne.symm here]

theorem tget_csrs (r : Region) (n : Nat) : tget r.csrs n = r.csr n := by
  rw [Region.csrs, tget_filterMap]
  split
  · rfl
  · next unlisted =>
    symm
    unfold Region.csr
    split
    case h_10 => rfl
    all_goals exact absurd (by decide) unlisted

theorem csrwOk_iff (n : Nat) (v : Word) : csrwOk n v = true ↔
    n = 1 ∨ (n = 3 ∧ v.toNat < 2 ^ 16) ∨ ((n = 0x10 ∨ n = 0x11) ∧ v.toNat < 2 ^ 56 ∧ v.toNat % 2048 = 0) ∨ n = 0x12 := by
  have small : field v 63 16 = 0 ↔ v.toNat < 2 ^ 16 := by
    have := v.isLt
    simp only [field, Nat.shiftRight_eq_div_pow]
    omega
  unfold csrwOk
  split <;> simp_all [blockAddrOk_iff]

theorem setCsr_trapcause_active (r : Region) (v : Word) : bitAt (r.setCsr 0x12 v).trapcause 63 = bitAt v 63 := by
  change bitAt (v &&& trapcauseMask) 63 = _
  rw [bitAt_and, (by decide : bitAt trapcauseMask 63 = true), Bool.and_true]

section
variable {c : CSite} {r : CtlRec}

theorem csrrWork_ok {v : Word} (listed : tget c.w.csrs (field r.imm 11 0) = some v) : csrrWork r c = .ok (c.w.setS r.d v) := by
  rw [csrrWork, listed]

theorem csrrWork_fault (unlisted : tget c.w.csrs (field r.imm 11 0) = none) : csrrWork r c = .fault cIllegalInstr := by
  rw [csrrWork, unlisted]

end

end Sys2Proof.Machine

open Sys2Proof Sys2Proof.Machine

/-- Settles O12: each binary record by the value of its function, DIV and REM by the division of Table 14.5. -/
theorem scalarBinaryResults : Obligations.ScalarBinaryResults := by
  unfold Obligations.ScalarBinaryResults
  refine ⟨fun s c r site => ?binary, fun r imm large => ?shifts, fun s c r site => ?division, fun r => rfl⟩
  case binary =>
    refine ⟨?add, ?sub, ?mul, ?mulh, ?and, ?or, ?xor, ?andn, ?shl, ?shr, ?sar, ?min, ?max⟩
    case add => exact exec_writes site rfl (addVal_eq ..)
    case sub => exact exec_writes site rfl (subVal_eq ..)
    case mul => exact exec_writes site rfl (mulVal_eq ..)
    case shl => exact exec_writes site rfl (shlVal_eq ..)
    case shr => exact exec_writes site rfl (shrVal_eq ..)
    case sar => exact exec_writes site rfl (sarVal_eq ..)
    case min => exact exec_writes site rfl (minVal_eq ..)
    case max => exact exec_writes site rfl (maxVal_eq ..)
    case mulh | and | or | xor | andn => exact exec_local_ok site rfl
  case shifts => exact ⟨shift_wellFormed (.inl rfl) imm large, shift_wellFormed (.inr (.inl rfl)) imm large, shift_wellFormed (.inr (.inr rfl)) imm large⟩
  case division =>
    refine ⟨divVal (isU r) (c.sA r) (c.x r), remVal (isU r) (c.sA r) (c.x r), _, _, exec_local_ok site (congrArg some (divWork_eq ..)),
      exec_local_ok site (congrArg some (divWork_eq ..)), fun zero => ?byZero, fun nonzero => ?byNonzero⟩
    case byZero =>
      change c.x r = 0 at zero
      rw [zero, divVal_zero, remVal_zero]
      exact ⟨rfl, rfl, if_pos zero, if_pos zero⟩
    case byNonzero =>
      change c.x r ≠ 0 at nonzero
      refine ⟨if_neg nonzero, if_neg nonzero, divVal_mul_add_remVal _ nonzero _, fun unsigned => ?_, fun signed => ?_⟩
      · rw [show isU r = true from unsigned]
        exact ⟨toNat_divVal_unsigned _ nonzero, toNat_remVal_unsigned_lt _ nonzero⟩
      · rw [show isU r = false from signed]
        exact ⟨divVal_signed _ nonzero, remVal_signed_neg_iff _ nonzero⟩

/-- Settles O13: each record by the value it writes; a write of `s0` changes no register. -/
theorem scalarOtherResults : Obligations.ScalarOtherResults := by
  unfold Obligations.ScalarOtherResults
  intro s c r site
  refine ⟨exec_local_ok site rfl, exec_writes site rfl (ite_not ..), ?setc, ?clz, exec_writes site rfl (congrArg _ (popFrom_eq ..)), fun v => ?zero⟩
  case setc =>
    refine ⟨condHolds r.cc (c.sA r) (c.x r), exec_local_ok site rfl, ?_⟩
    refine ⟨?_, ?_, ?_, ?_, ?_, ?_⟩ <;> intro cc <;> rw [cc] <;> exact decide_eq_true_iff
  case clz =>
    exact ⟨clzFrom (c.sA r) 64, clzFrom_le .., exec_local_ok site rfl, fun i => getLsbD_of_clzFrom _ 64, getLsbD_clzFrom _ 64⟩
  case zero => rw [Work.setS, writeS_zero]

/-- Settles O15: CSRR by the table its block began with, CSRW by the registers that take its value, and what each of them takes at the commit. -/
theorem statusRegisterAccess : Obligations.StatusRegisterAccess := by
  unfold Obligations.StatusRegisterAccess
  refine ⟨fun s c r v site listed => ?read, fun s c r site ok => ?write, fun s c r site unlisted => ?readFault, fun r slot n => tget_csrs r n,
    fun s c r site bad => ?writeFault, csrwOk_iff, fun r v => ⟨rfl, rfl, rfl, rfl, setCsr_trapcause_active r v⟩⟩
  case read => exact exec_local_ok site (congrArg some (csrrWork_ok listed))
  case write => exact exec_local_ok site (congrArg some (if_pos ok))
  case readFault => exact exec_local_fault site (congrArg some (csrrWork_fault unlisted))
  case writeFault => exact exec_local_fault site (congrArg some (if_neg (Bool.eq_false_iff.mp bad)))
end

section
/-! SUPPORT. TRAP.RD and TRAP.POP, the waits, and what a record leaves unchanged (R124, R234, R292, R303, R313, R327, R329). -/

namespace Sys2Proof.Machine

/-! ### The software head (R327) -/

theorem oldest_append {before : List FaultRec} {n : Nat} (none_before : ∀ g ∈ before, g.cls ≠ n) (rest : List FaultRec) :
    oldest (before ++ rest) n = oldest rest n := by
  have missed : (before.find? fun f => decide (f.cls = n)) = none := by simpa using none_before
  rw [oldest, List.find?_append, missed, Option.none_or, oldest]

theorem oldest_cons_self {f : FaultRec} {n : Nat} (cls : f.cls = n) (rest : List FaultRec) : oldest (f :: rest) n = some f :=
  List.find?_cons_of_pos (decide_eq_true cls)

theorem oldest_eq_none {q : List FaultRec} {n : Nat} (none_in : ∀ g ∈ q, g.cls ≠ n) : oldest q n = none := by simpa [oldest] using none_in

/-- Records of the model's own write to a region no field of its queue. -/
theorem Region.setCsr_queue (r : Region) (n : Nat) (v : Word) : (r.setCsr n v).queue = r.queue := by
  unfold Region.setCsr
  split <;> rfl

theorem Region.foldl_setCsr_queue (l : List (Nat × Word)) (r : Region) : (l.foldl (fun r x => r.setCsr x.1 x.2) r).queue = r.queue := by
  induction l generalizing r with
  | nil => rfl
  | cons x l ih => exact (ih _).trans (r.setCsr_queue ..)

/-- A commit retires the records that the block has popped. -/
theorem Region.committed_queue (c : CSite) : (c.rg.committed c.w).queue = c.queue := Region.foldl_setCsr_queue ..

/-- A word of a record, 0 where there is none. -/
def recordWord (o : Option FaultRec) (n : Nat) : Word :=
  match o with
  | some f => f.word n
  | none => 0

section
variable (c : CSite) (r : CtlRec)

theorem trapRdWork_own (own : bitAt r.imm 3 = false) : trapRdWork r c = .ok (c.w.setS r.d (recordWord c.rg.trapRec (r.imm.toNat % 8))) := by
  rw [trapRdWork, trapSel, if_neg (Bool.eq_false_iff.mp own)]
  rfl

theorem trapRdWork_software (software : bitAt r.imm 3 = true) :
    trapRdWork r c = .ok (c.w.setS r.d (recordWord (softHead c.queue) (r.imm.toNat % 8))) := by
  rw [trapRdWork, trapSel, if_pos software]
  rfl

theorem trapPopWork_some {f : FaultRec} (head : softHead c.queue = some f) : trapPopWork r c = .ok { c.w with pops := c.w.pops ++ [f.seq] } := by
  rw [trapPopWork, head]

theorem trapPopWork_none (head : softHead c.queue = none) : trapPopWork r c = .ok c.w := by rw [trapPopWork, head]

end

/-! ### Waits (R303, R313, R329) -/

section
variable {s : State} {c : CSite} (site : s.csite = some c) (r : CtlRec)
include site

/-- BWAIT stands while a unit of the region is left. -/
theorem exec_bwait : exec (.bwait r) s = .next (if c.rg.anyUnit then s.putWork c.key c.w else s.afterWait c c.w) := by
  refine (show execBwait r s = _ from ctlWait_eq site _).trans (congrArg Host.Outcome.next ?_)
  split <;> rfl

/-- What a first turn of CWAIT does: it faults, ends, or waits at the cairn. -/
theorem exec_cwait (first : c.w.begun = false) : exec (.cwait r) s = .next (
    if 2 ^ 20 ≤ (c.sA r).toNat then s.coreFault c c.w cNoCairn 0 0
    else if (c.x r).toNat ≤ (s.cairn.val (c.sA r).toNat).toNat then s.afterWait c c.w
    else (s.postWait c.key (c.sA r).toNat (c.x r)).putWork c.key c.w) := by
  refine (show execCwait r s = _ from ctlWait_eq site _).trans (congrArg Host.Outcome.next ?_)
  rw [first, if_neg Bool.false_ne_true]
  split
  · rfl
  · split <;> rfl

/-- EFENCE ends where no access is open and no error pends. -/
theorem exec_efence_ends (no_access : s.openAccs c.rg = []) (no_error : c.rg.errs = []) : exec (.efence r) s =
    .next ((s.putRegion c.key c.rg).afterWait c (if c.w.aux.isEmpty then { c.w with aux := [c.rg.issued] } else c.w)) := by
  refine (show execEfence r s = _ from ctlWait_eq site _).trans (congrArg Host.Outcome.next ?_)
  have same : ({ c.rg with errs := [] } : Region) = c.rg := by rw [← no_error]
  simp only [no_access, no_error, List.any_nil, List.filter_nil, Bool.false_eq_true, if_false, same]
  rfl

end
end Sys2Proof.Machine

open Sys2Proof Sys2Proof.Machine

/-- Settles O17: TRAP.RD by the record it selects, TRAP.POP by the software head, which is the first record of its class. -/
theorem trapRecordReads : Obligations.TrapRecordReads := by
  unfold Obligations.TrapRecordReads
  refine ⟨fun s c r site => ?records, fun before after f cls none_before => ?first, fun before after f cls none_before none_zero => ?second,
    fun q none_in => ?empty⟩
  case records =>
    refine ⟨fun own => ?own, fun software => ?software, fun f head => ?pop, fun head => ?noPop, rfl, Region.committed_queue c⟩
    case own => exact exec_local_ok site (congrArg some (trapRdWork_own c r own))
    case software => exact exec_local_ok site (congrArg some (trapRdWork_software c r software))
    case pop => exact exec_local_ok site (congrArg some (trapPopWork_some c r head))
    case noPop => exact exec_local_ok site (congrArg some (trapPopWork_none c r head))
  case first => rw [softHead, oldest_append none_before, oldest_cons_self cls, Option.some_or]
  case second => rw [softHead, oldest_eq_none none_zero, oldest_append none_before, oldest_cons_self cls, Option.none_or]
  case empty => rw [softHead, oldest_eq_none fun g h => (none_in g h).1, oldest_eq_none fun g h => (none_in g h).2, Option.none_or]

/-- Settles O18, wait by wait. That the later records of the block read the status registers as they stand when the wait ends is the model's
choice (log 58). -/
theorem waitRecordResults : Obligations.WaitRecordResults := by
  unfold Obligations.WaitRecordResults
  refine ⟨fun s c r site => ⟨fun none_left => ?ends, fun left => ?stays⟩, fun s c r site first => ⟨fun none => ?fault, fun some reached => ?reached,
    fun some short => ?waits⟩, fun s c r site no_access no_error => ⟨_, exec_efence_ends site r no_access no_error, ?regs, ?refs⟩⟩
  case ends => rw [exec_bwait site, none_left, if_neg Bool.false_ne_true]
  case stays => rw [exec_bwait site, left, if_pos rfl]
  case fault => exact (exec_cwait site r first).trans (congrArg _ (if_pos none))
  case reached => exact (exec_cwait site r first).trans (congrArg _ ((if_neg some.not_ge).trans (if_pos reached)))
  case waits => exact (exec_cwait site r first).trans (congrArg _ ((if_neg some.not_ge).trans (if_neg short.not_ge)))
  case regs | refs => split <;> rfl

/-- Settles O19: a record puts its block's working copy back into the region table, and nothing else. -/
theorem recordFrame : Obligations.RecordFrame := by
  unfold Obligations.RecordFrame
  intro s c w site
  obtain ⟨-, region, -, -⟩ := State.csite_some site
  rw [State.afterRecord, State.putWork_eq region]
  exact ⟨rfl, rfl, rfl, rfl, rfl, rfl, rfl, rfl, fun k other => tget_tput_ne _ _ _ _ other, State.tget_putRegion ..⟩

end

section
/-! SUPPORT. Traps: the registers and the record that taking one writes, its return, and when one is taken (R293, R325, R328). -/

namespace Sys2Proof.Machine

/-! ### TRAPCAUSE at entry (Table 14.10) -/

section
variable (code swc efx : Nat) (queue : Bool)

theorem toNat_trapCause : (trapCause code swc efx queue).toNat =
    2 ^ 63 + efx % 256 * 2 ^ 32 + swc % 65536 * 2 ^ 16 + queue.toNat * 256 + code % 256 := by
  rw [trapCause, BitVec.toNat_ofNat]
  cases queue <;> simp only [Bool.toNat_true, Bool.toNat_false, if_true, Bool.false_eq_true, if_false] <;> omega

theorem trapCause_fields : field (trapCause code swc efx queue) 39 32 = efx % 256 ∧ field (trapCause code swc efx queue) 31 16 = swc % 65536 ∧
    field (trapCause code swc efx queue) 7 0 = code % 256 := by
  have := queue.toNat_le
  simp only [field, toNat_trapCause, Nat.shiftRight_eq_div_pow]
  omega

theorem trapCause_active : bitAt (trapCause code swc efx queue) 63 = true := by
  have := queue.toNat_le
  simp only [bitAt, BitVec.getLsbD, toNat_trapCause, Nat.testBit_eq_decide_div_mod_eq, decide_eq_true_eq]
  omega

theorem trapCause_queue : bitAt (trapCause code swc efx queue) 8 = queue := by
  simp only [bitAt, BitVec.getLsbD, toNat_trapCause, Nat.testBit_eq_decide_div_mod_eq]
  cases queue <;> simp only [Bool.toNat_true, Bool.toNat_false, decide_eq_true_eq, decide_eq_false_iff_not] <;> omega

end

/-! ### Taking a trap (R325) -/

/-- A region as a trap leaves it where none is active and there is a handler. -/
def Region.trappedBy (r : Region) (f : FaultRec) (resume efx swc : Nat) (queue : Bool) : Region :=
  { r.abandon with
    trapblk := BitVec.ofNat 64 resume
    trapcause := trapCause f.code swc efx queue
    trapRec := some (if queue then f else { f with seq := r.seq })
    seq := if queue then r.seq else (r.seq + 1) % 65536
    nextFetch := some r.trapbase.toNat
    trapped := true
    idle := none }

section
variable {s : State} {key : Nat} {r : Region} (region : tget s.regions key = some r) (f : FaultRec) (resume efx swc : Nat) (queue : Bool)
include region

theorem State.takeTrap_cancels (deadly : r.active = true ∨ r.trapbase = 0) : s.takeTrap key f resume efx swc queue = s.cancelLaunch r.launch := by
  rw [State.takeTrap, region]
  exact if_pos (by simpa using deadly)

theorem State.takeTrap_traps (ready : r.active = false) (handler : r.trapbase ≠ 0) :
    s.takeTrap key f resume efx swc queue = (s.dropCore key).putRegion key (r.trappedBy f resume efx swc queue) := by
  rw [State.takeTrap, region]
  exact if_neg (by simpa [ready] using handler)

end

/-- The entries of the fetched blocks are free. -/
theorem Region.tget_abandon_blocks (r : Region) {n : Nat} (fetched : n ∈ r.fetched) : tget r.abandon.blocks n = none := by
  refine (tget_filter (fun k => !r.fetched.contains k) r.blocks n).trans (if_neg ?_)
  simpa using fetched

/-! ### Returning (R328) -/

theorem bitAt_clearActive (x : Word) (i : Nat) (low : i < 63) : bitAt (x &&& 0x7FFFFFFFFFFFFFFF#64) i = bitAt x i := by
  have ones : ∀ i < 63, bitAt (0x7FFFFFFFFFFFFFFF#64) i = true := by decide
  rw [bitAt_and, ones i low, Bool.and_true]

theorem Region.returnTrap_active (r : Region) : r.returnTrap.active = false := by
  rw [Region.active, Region.returnTrap, bitAt_and, (by decide : bitAt (0x7FFFFFFFFFFFFFFF#64) 63 = false), Bool.and_false]

/-! ### When a trap is taken (R293, Table 14.9) -/

/-- A class-00 fault of a block that has asked for no cancellation. -/
theorem State.coreFault_traps (s : State) (c : CSite) {w : Work} {code : Nat} (cls : codeClass code = 0) (no_cancel : w.cancels = []) (reason addr : Nat) :
    s.coreFault c w code reason addr = (s.advanceAll w.empties).takeTrap c.key (c.faultRec s code reason addr) c.blk.addr w.efx 0 false := by
  rw [State.coreFault, cls, no_cancel]
  rfl

section
variable {r : Region}

theorem Region.resumeAt_next {a : Nat} (none_fetched : r.fetched = []) (next : r.nextFetch = some a) : r.resumeAt = some a := by
  rw [Region.resumeAt, none_fetched]
  exact next

theorem Region.resumeAt_fetched {n : Nat} {ns : List Nat} {b : Bif} (fetched : r.fetched = n :: ns) (entry : tget r.blocks n = some b) :
    r.resumeAt = some b.addr := by
  rw [Region.resumeAt, fetched]
  simp only [List.head?_cons, entry, Option.map_some, Option.some_or]

/-- TRAP_ENTRY at a block boundary. -/
theorem exec_trapEntry {s : State} {key a : Nat} {f : FaultRec} (region : tget s.regions key = some r) (run : r.run = .running)
    (live : r.cancelling = false) (ready : r.trapped = false) (boundary : r.work = none) (due : oldest r.queue 0 = some f) (resume : r.resumeAt = some a) :
    exec (.trapEntry key) s = .next (s.takeTrap key f a 0 0 true) := by
  change execTrapEntry key s = _
  simp only [execTrapEntry, region, due, resume, run, live, ready, boundary, ne_eq, not_true_eq_false, decide_false, Bool.or_self, Bool.false_eq_true, if_false]

end

end Sys2Proof.Machine

open Sys2Proof Sys2Proof.Machine

/-- Settles O31: a trap writes its registers and its record over the region with its fetched blocks abandoned. -/
theorem trapEntrySaves : Obligations.TrapEntrySaves := by
  unfold Obligations.TrapEntrySaves
  intro s key r f resume efx swc queue region
  refine ⟨State.takeTrap_cancels region f resume efx swc queue, fun ready handler => ⟨r.trappedBy f resume efx swc queue, ?_⟩⟩
  obtain ⟨efx_field, swc_field, code_field⟩ := trapCause_fields f.code swc efx queue
  have record : ((r.trappedBy f resume efx swc queue).trapRec.map fun f => f.code) = some f.code := by cases queue <;> rfl
  rw [State.takeTrap_traps region f resume efx swc queue ready handler]
  exact ⟨State.tget_putRegion .., rfl, trapCause_active .., efx_field, swc_field, trapCause_queue .., code_field, record, rfl, rfl, rfl,
    fun n => r.tget_abandon_blocks, rfl, rfl, rfl, rfl, rfl, rfl⟩

/-- Settles O32: RETT writes where fetch goes on and clears one bit of TRAPCAUSE. -/
theorem trapReturnRestores : Obligations.TrapReturnRestores := by
  unfold Obligations.TrapReturnRestores
  exact fun r => ⟨rfl, r.returnTrap_active, bitAt_clearActive r.trapcause, rfl, rfl, rfl, rfl, rfl⟩

/-- Settles O33: a fault of class 00 is the trap of its block, and TRAP_ENTRY that of the queue's oldest record of that class. -/
theorem trapsTaken : Obligations.TrapsTaken := by
  unfold Obligations.TrapsTaken
  refine ⟨fun s c w code reason addr cls no_cancel => s.coreFault_traps c cls no_cancel reason addr,
    fun s key r f region run live ready boundary due => ⟨fun a none_fetched next => ?next, fun n ns b fetched entry => ?fetched⟩⟩
  case next => exact exec_trapEntry region run live ready boundary due (Region.resumeAt_next none_fetched next)
  case fetched => exact exec_trapEntry region run live ready boundary due (Region.resumeAt_fetched fetched entry)

end

section
/-! SUPPORT. Effect records: the shell of an effect, the accesses of a record, cairns, launches, cancellation, arming (R297, R311 to R317). -/

namespace Sys2Proof.Machine

/-! ### The accesses of a record (R297, R451) -/

/-- The last access turn of a record: its first turn, in which the accesses are laid out, or a later one. -/
def CSite.LastTurn (c : CSite) (s s1 : State) (it : Intent) (va n : Nat) (data : List Byte) (as bs : List Acc) : Prop :=
  (c.w.begun = true ∧ as = c.w.accs ∧ s.turnAccs c.rg.ctx c.who as = .all s1 bs) ∨
  (c.w.begun = false ∧ ∃ s2 s3 as0, s.lay ⟨.core c.key, c.rg.ctx, it, 0, decide (it = .write), false, false, 0⟩ va n data = .ok s2 as0 ∧
    s2.issueAccs c.key as0 = (s3, as) ∧ s3.turnAccs c.rg.ctx c.who as = .all s1 bs)

/-- The working copy of a record whose accesses are performed. -/
def Work.performed (w : Work) (bs : List Acc) : Work := { w with begun := true, accs := bs }

theorem State.ctlTurn_all {s s1 : State} {c : CSite} {as bs : List Acc} (all : s.turnAccs c.rg.ctx c.who as = .all s1 bs)
    (g : State → Work → List Acc → CRes) : s.ctlTurn c as g = g s1 (c.w.performed bs) bs := by
  rw [State.ctlTurn, all]
  rfl

section
variable {s s1 : State} {c : CSite} {va n : Nat} {data : List Byte} {as bs : List Acc}

theorem State.ctlAccess_last {it : Intent} (last : c.LastTurn s s1 it va n data as bs) (g : State → Work → List Acc → CRes) :
    s.ctlAccess c it va n data false false g = g s1 (c.w.performed bs) bs := by
  rw [State.ctlAccess]
  rcases last with ⟨begun, rfl, all⟩ | ⟨first, s2, s3, as0, laid, issued, all⟩
  · rw [if_pos begun, State.ctlTurn_all all]
  · rw [first, if_neg Bool.false_ne_true, laid]
    dsimp only
    rw [issued]
    exact State.ctlTurn_all all g

/-- A load none of whose bytes is poisoned. -/
theorem State.ctlLoad_last (last : c.LastTurn s s1 .read va n [] as bs) (clean : bs.all (fun a => !a.psn) = true) (g : State → Work → List Byte → CRes) :
    s.ctlLoad c va n g = g s1 (c.w.performed bs) (laneBytes bs 0) := by
  have none_poisoned : (bs.find? fun a => a.psn) = none := by simpa using clean
  rw [State.ctlLoad, State.ctlAccess_last last, none_poisoned]

theorem State.ctlStore_last (last : c.LastTurn s s1 .write va data.length data as bs) (g : State → Work → CRes) :
    s.ctlStore c va data false false g = g (s1.noteErrs c.key bs) (c.w.performed bs) := State.ctlAccess_last last _

end

section
variable {s s1 : State} {c : CSite} (site : s.EffectSite s1 c) (r : CtlRec)
include site

/-! ### LDS and STS (R297) -/

theorem exec_lds_last {s2 : State} {as bs : List Acc} (last : c.LastTurn s1 s2 .read (c.va r) (widthBytes r.m) [] as bs)
    (clean : bs.all (fun a => !a.psn) = true) :
    exec (.lds r) s = .next (s2.afterEffect c (c.w.setS r.d (widthVal r.m (leNat (laneBytes bs 0))))) := by
  refine (show execLds r s = _ from ctlEffect_eq site _).trans (congrArg Host.Outcome.next ?_)
  rw [State.ctlLoad_last last clean]
  rfl

theorem exec_sts_last {s2 : State} {as bs : List Acc}
    (last : c.LastTurn s1 s2 .write (c.va r) (widthBytes r.m) (leBytes (widthBytes r.m) (c.sB r).toNat) as bs) :
    exec (.sts r) s = .next ((s2.noteErrs c.key bs).afterEffect c c.w) := by
  refine (show execSts r s = _ from ctlEffect_eq site _).trans (congrArg Host.Outcome.next ?_)
  rw [State.ctlStore_last (by rwa [leBytes_length])]
  rfl

/-! ### Cairns (R311, R312, R314) -/

theorem exec_crd_none (large : 2 ^ 20 ≤ (c.sA r).toNat) : exec (.crd r) s = .next (s1.coreFault c c.w cNoCairn 0 0) := by
  refine (show execCrd r s = _ from ctlEffect_eq site _).trans (congrArg Host.Outcome.next ?_)
  rw [if_pos large]
  rfl

theorem exec_cadd_none (large : 2 ^ 20 ≤ (c.sA r).toNat) : exec (.cadd r) s = .next (s1.coreFault c c.w cNoCairn 0 0) := by
  refine (show execCadd r s = _ from ctlEffect_eq site _).trans (congrArg Host.Outcome.next ?_)
  rw [if_pos large]
  rfl

section
variable (small : (c.sA r).toNat < 2 ^ 20)
include small

theorem exec_crd : exec (.crd r) s = .next (s1.afterEffect c (c.w.setS r.d
    (if r.m.getLsbD 0 then (if s1.cairn.flag (c.sA r).toNat then 1 else 0) else s1.cairn.val (c.sA r).toNat))) := by
  refine (show execCrd r s = _ from ctlEffect_eq site _).trans (congrArg Host.Outcome.next ?_)
  rw [if_neg small.not_ge]
  rfl

theorem exec_cadd : exec (.cadd r) s =
    .next ((s1.cairnAddBy c.key (c.sA r).toNat (c.x r) (c.faultRec s1 cCairnOverflow 0 0)).afterEffect c c.w) := by
  refine (show execCadd r s = _ from ctlEffect_eq site _).trans (congrArg Host.Outcome.next ?_)
  rw [if_neg small.not_ge]
  rfl

theorem exec_cadd_fits (fits : (s1.cairn.val (c.sA r).toNat).toNat + (c.x r).toNat < 2 ^ 64) :
    exec (.cadd r) s = .next ((s1.cairnAdd (c.sA r).toNat (c.x r)).afterEffect c c.w) := by
  rw [exec_cadd site r small, State.cairnAddBy_eq, if_pos fits]

theorem exec_cadd_overflows (large : 2 ^ 64 ≤ (s1.cairn.val (c.sA r).toNat).toNat + (c.x r).toNat) : exec (.cadd r) s =
    .next (((s1.cairnAdd (c.sA r).toNat (c.x r)).faultToken c.key (c.faultRec s1 cCairnOverflow 0 0)).afterEffect c c.w) := by
  rw [exec_cadd site r small, State.cairnAddBy_eq, if_neg large.not_gt]

end

theorem exec_cnew_named (named : r.a ≠ 0) (small : (c.sA r).toNat < 2 ^ 20) :
    exec (.cnew r) s = .next ({ s1 with cairn := s1.cairn.create (c.sA r).toNat }.afterEffect c (c.w.setS r.d (c.sA r))) := by
  refine (show execCnew r s = _ from ctlEffect_eq site _).trans (congrArg Host.Outcome.next ?_)
  rw [if_pos named, if_neg small.not_ge]
  rfl

theorem exec_cnew_free (unnamed : r.a = 0) : exec (.cnew r) s = .next (match s1.freeCairn with
    | none => s1.afterEffect c (c.w.setS r.d (BitVec.allOnes 64))
    | some k => State.afterEffect { s1 with
        cairn := { s1.cairn.create k with taken := tput s1.cairn.taken k c.rg.ctx }
        draws := s1.draws + 1 } c (c.w.setS r.d (BitVec.ofNat 64 k))) := by
  refine (show execCnew r s = _ from ctlEffect_eq site _).trans (congrArg Host.Outcome.next ?_)
  rw [if_neg (not_not.mpr unnamed)]
  cases s1.freeCairn <;> rfl

end

/-- The cairns that CNEW may take are those of the device's upper range (R311). -/
theorem State.freeCairn_range {s : State} {n : Nat} (free : s.freeCairn = some n) : 0x80000 ≤ n ∧ n < 0x100000 := by
  rw [State.freeCairn] at free
  generalize s.cairn.taken.length + 1 = fuel, s.choice 524288 = i at free
  induction fuel generalizing i with
  | zero => cases free
  | succ fuel ih =>
    rw [State.freeCairn.go] at free
    split at free
    · exact ih _ free
    · cases free
      omega

section
variable (cs : Cairns) (k : Nat)

@[simp] theorem Cairns.val_create (j : Nat) : (cs.create k).val j = if j = k then 0 else cs.val j := by simp [Cairns.create, Cairns.val, tgetD_tput]
@[simp] theorem Cairns.flag_create : (cs.create k).flag k = false := by simp [Cairns.create, Cairns.flag]

end

end Sys2Proof.Machine

open Sys2Proof Sys2Proof.Machine

/-- Settles O20: the last turn of the accesses, whether the first turn or a later one, gives LDS its bytes and ends STS. -/
theorem scalarMemoryRecords : Obligations.ScalarMemoryRecords := by
  unfold Obligations.ScalarMemoryRecords
  exact ⟨fun s s1 s3 c r as bs site last clean => exec_lds_last site r last clean, fun s s1 s3 c r as bs site last => exec_sts_last site r last⟩

/-- Settles O22, record by record: a number above 0xF_FFFF has no cairn (R313), CADD saturates and reports it (Table 8.3), and CNEW takes the cairn it names or a
free one (R311). -/
theorem cairnRecords : Obligations.CairnRecords := by
  unfold Obligations.CairnRecords
  intro s s1 c r site
  refine ⟨fun small value => ?value, fun small flag => ?flag, exec_cadd_fits site r, exec_cadd_overflows site r,
    fun large => ⟨exec_crd_none site r large, exec_cadd_none site r large⟩, exec_cnew_named site r, fun unnamed n free => ?free,
    fun unnamed taken => ?taken⟩
  case value => exact (exec_crd site r small).trans (by rw [value, if_neg Bool.false_ne_true]; rfl)
  case flag => exact (exec_crd site r small).trans (by rw [flag, if_pos rfl]; rfl)
  case free =>
    obtain ⟨low, high⟩ := State.freeCairn_range free
    rw [exec_cnew_free site r unnamed, free]
    refine ⟨_, 0, rfl, ?val, rfl, Cairns.flag_create .., low, high, fun j other => ?others⟩
    case val => exact (Cairns.val_create ..).trans (if_pos rfl)
    case others => exact (Cairns.val_create ..).trans (if_neg other)
  case taken => rw [exec_cnew_free site r unnamed, taken]

end

section
/-! SUPPORT. Effect records that launch, cancel, arm, issue units and redirect fetches (R299, R304, R315 to R317). -/

namespace Sys2Proof.Machine

/-- The cairn that RUN or RUNW names for its unit. -/
def CSite.unitCairn (c : CSite) (r : CtlRec) : Option Nat := if r.d = 0 then none else some (readS c.w.s r.d).toNat

theorem CSite.toList_unitCairn (c : CSite) (r : CtlRec) : (c.unitCairn r).toList = if r.d = 0 then [] else [(readS c.w.s r.d).toNat] := by
  rw [CSite.unitCairn]
  split <;> rfl

section
variable {s s1 : State} {c : CSite} (site : s.EffectSite s1 c) (r : CtlRec)
include site

/-! ### LAUNCH (R315) -/

section
variable {s2 : State} {as bs : List Acc} (aligned : (c.sA r).toNat % 64 = 0) (last : c.LastTurn s1 s2 .read (c.sA r).toNat 64 [] as bs)
  (clean : bs.all (fun a => !a.psn) = true)
include aligned last clean

/-- A descriptor that fails flags the cairn it names. -/
theorem exec_launch_bad (bad : launchOk (sysCmdOf (wordsOf (laneBytes bs 0))) = false) :
    exec (.launch r) s = .next ((s2.advance (field (sysCmdOf (wordsOf (laneBytes bs 0))).w2 19 0) true).afterEffect c (c.w.setS r.d 1)) := by
  refine (show execLaunch r s = _ from ctlEffect_eq site _).trans (congrArg Host.Outcome.next ?_)
  rw [if_neg (not_not.mpr aligned), State.ctlLoad_last last clean]
  dsimp only
  rw [bad, Bool.not_false, if_pos rfl]
  rfl

theorem exec_launch_admits (good : launchOk (sysCmdOf (wordsOf (laneBytes bs 0))) = true) {die : Nat} {l : Launch}
    (launch : launchOf (sysCmdOf (wordsOf (laneBytes bs 0))) c.rg.ctx (field r.imm 2 0) 0 none = l)
    (chosen : s2.launchDie l (dieOf c.rg.part) = some die) :
    exec (.launch r) s = .next (((s2.admitLaunch { l with die := die }).drawn).afterEffect c (c.w.setS r.d 0)) := by
  refine (show execLaunch r s = _ from ctlEffect_eq site _).trans (congrArg Host.Outcome.next ?_)
  rw [if_neg (not_not.mpr aligned), State.ctlLoad_last last clean]
  dsimp only
  rw [good, Bool.not_true, if_neg Bool.false_ne_true, launch, chosen]
  rfl

end

/-! ### CANCEL (R316) -/

theorem exec_cancel_reaches (reaches : (field r.imm 1 0 = 0 ∧ c.sA r = 0) ∨ s1.anyMember c.rg.ctx (field r.imm 1 0) (c.sA r).toNat = true) :
    exec (.cancel r) s = .next (s1.afterEffect c { (c.w.setS r.d 0) with cancels := c.w.cancels ++ [(field r.imm 1 0, c.sA r)] }) := by
  refine (show execCancel r s = _ from ctlEffect_eq site _).trans (congrArg Host.Outcome.next ?_)
  rw [if_pos (by simpa using reaches)]
  rfl

theorem exec_cancel_none (other : ¬ (field r.imm 1 0 = 0 ∧ c.sA r = 0)) (none : s1.anyMember c.rg.ctx (field r.imm 1 0) (c.sA r).toNat = false) :
    exec (.cancel r) s = .next (s1.afterEffect c (c.w.setS r.d 5)) := by
  refine (show execCancel r s = _ from ctlEffect_eq site _).trans (congrArg Host.Outcome.next ?_)
  rw [if_neg (by simpa [none] using other)]
  rfl

/-! ### ARM (R317) -/

section
variable {x : Ctx} (small : (c.sA r).toNat < 2 ^ 20) (ctx : tget s1.host.ctxs c.rg.ctx = some x)
include small ctx

/-- The number of the level that ARM binds: the launch has but one. -/
def CSite.armNum (c : CSite) (r : CtlRec) : Nat := if field r.imm 1 0 = 3 then 0 else (c.sB r).toNat

theorem exec_arm_binds (room : armFull x.arms (field r.imm 1 0) (c.armNum r) = false) : exec (.arm r) s =
    .next ((s1.arm c.rg.ctx (field r.imm 1 0) (c.armNum r) (c.sA r).toNat (field r.imm 63 32)).afterEffect c c.w) := by
  refine (show execArm r s = _ from ctlEffect_eq site _).trans (congrArg Host.Outcome.next ?_)
  rw [if_neg small.not_ge, ctx]
  exact congrArg (CRes.run · c) (if_neg (Bool.eq_false_iff.mp room))

theorem exec_arm_full (full : armFull x.arms (field r.imm 1 0) (c.armNum r) = true) : exec (.arm r) s = .next (s1.coreFault c c.w cArmFull 0 0) := by
  refine (show execArm r s = _ from ctlEffect_eq site _).trans (congrArg Host.Outcome.next ?_)
  rw [if_neg small.not_ge, ctx]
  exact congrArg (CRes.run · c) (if_pos full)

end

/-! ### RUN and RUNW (R299) -/

section
variable {s2 : State} {m : Image} (numbered : r.d = 0 ∨ (readS c.w.s r.d).toNat < 2 ^ 20)
  (image : s1.wantImage c.key c.rg r.imm.toNat = .ok s2 (some m)) (fabric : m.hdr.control = false)
include numbered image fabric

omit site in
/-- A named image of a fabric block is a unit to issue. -/
theorem runTurn_unit (hold : Bool) : runTurn r hold s1 c =
    if c.runMask r = 0 then .effect s2 { c.w with empties := c.w.empties ++ (c.unitCairn r).toList }
    else match tget s2.regions c.key with
      | none => .stay s2 c.w
      | some rg =>
        match rg.freeSlot with
        | none => .stay s2 c.w
        | some b => .effect (s2.putRegion c.key (rg.issueUnit b r.imm.toNat m (c.runMask r) (c.unitCairn r) hold c.blk.order)) c.w := by
  have named : ¬ (r.d ≠ 0 ∧ 2 ^ 20 ≤ (readS c.w.s r.d).toNat) := fun ⟨named, large⟩ => numbered.elim named large.not_gt
  rw [runTurn]
  dsimp only
  rw [if_neg named, image]
  dsimp only
  rw [fabric, if_neg Bool.false_ne_true]
  rfl

/-- A unit of some instance takes the lowest free entry (R444). -/
theorem exec_run_issues {rg : Region} {b : Nat} (mask : c.runMask r ≠ 0) (region : tget s2.regions c.key = some rg) (free : rg.freeSlot = some b) :
    let after := fun hold => (s2.putRegion c.key (rg.issueUnit b r.imm.toNat m (c.runMask r) (c.unitCairn r) hold c.blk.order)).afterEffect c c.w
    exec (.run r) s = .next (after false) ∧ exec (.runw r) s = .next (after true) := by
  have issued (hold : Bool) := runTurn_unit r numbered image fabric hold
  simp only [if_neg mask, region, free] at issued
  exact ⟨(show execRun r s = _ from ctlEffect_eq site _).trans (by rw [issued]; rfl),
    (show execRunw r s = _ from ctlEffect_eq site _).trans (by rw [issued]; rfl)⟩

/-- A unit of no instance is not issued; its cairn is kept for the end of the block. -/
theorem exec_run_empty (mask : c.runMask r = 0) :
    let after := s2.afterEffect c { c.w with empties := c.w.empties ++ (c.unitCairn r).toList }
    exec (.run r) s = .next after ∧ exec (.runw r) s = .next after := by
  have kept (hold : Bool) := runTurn_unit r numbered image fabric hold
  simp only [if_pos mask] at kept
  exact ⟨(show execRun r s = _ from ctlEffect_eq site _).trans (by rw [kept]; rfl),
    (show execRunw r s = _ from ctlEffect_eq site _).trans (by rw [kept]; rfl)⟩

end

/-! ### REPLACE (R304) -/

theorem exec_replaceB_misaligned
    (misaligned : (c.sA r).toNat % 2048 ≠ 0 ∨ (c.sB r).toNat % 2048 ≠ 0 ∨ r.imm.toNat % 2048 ≠ 0) :
    exec (.replaceB r) s = .next (s1.afterEffect c (c.w.setS r.d 2)) := by
  refine (show execReplaceB r s = _ from ctlEffect_eq site _).trans (congrArg Host.Outcome.next ?_)
  rw [if_pos misaligned]
  rfl

section
variable (old : (c.sA r).toNat % 2048 = 0) (new : (c.sB r).toNat % 2048 = 0) (len : r.imm.toNat % 2048 = 0)
  (featured : s1.replaceLacks c c.w.pc (c.sB r).toNat r.imm.toNat (s1.diefeat (dieOf c.rg.part)) = false)
include old new len featured

theorem exec_replaceB_installs {t : List (Nat × Nat × Nat)}
    (room : redirectAfter (s1.redirectOf c.rg.ctx) (c.sA r).toNat (c.sB r).toNat r.imm.toNat = some t) :
    exec (.replaceB r) s = .next ((s1.replaceCode c.rg.ctx t).afterEffect c (c.w.setS r.d 0)) := by
  refine (show execReplaceB r s = _ from ctlEffect_eq site _).trans (congrArg Host.Outcome.next ?_)
  dsimp only
  rw [if_neg (by simp [old, new, len]), featured, if_neg Bool.false_ne_true, room]
  rfl

theorem exec_replaceB_full
    (full : redirectAfter (s1.redirectOf c.rg.ctx) (c.sA r).toNat (c.sB r).toNat r.imm.toNat = none) :
    exec (.replaceB r) s = .next (s1.afterEffect c (c.w.setS r.d 1)) := by
  refine (show execReplaceB r s = _ from ctlEffect_eq site _).trans (congrArg Host.Outcome.next ?_)
  dsimp only
  rw [if_neg (by simp [old, new, len]), featured, if_neg Bool.false_ne_true, full]
  rfl

end
end

/-! ### Cairns of units of no instance (R299) -/

/-- Each of different cairns advances by one, and no other. -/
theorem State.val_advanceAll {ks : List Nat} (small : ∀ k ∈ ks, k < 2 ^ 20) (different : ks.Nodup) (s : State) (k : Nat) :
    (s.advanceAll ks).cairn.val k = if k ∈ ks then cairnSum (s.cairn.val k) 1 else s.cairn.val k := by
  induction ks generalizing s with
  | nil => rfl
  | cons j ks ih =>
    obtain ⟨absent, rest⟩ := List.nodup_cons.mp different
    have first (i : Nat) : (s.advance j false).cairn.val i = if i = j then cairnSum (s.cairn.val j) 1 else s.cairn.val i := by
      rw [State.advance_cairn, Cairns.val_advance _ _ _ _ (small j List.mem_cons_self)]
    change ((s.advance j false).advanceAll ks).cairn.val k = _
    rw [ih (fun i h => small i (List.mem_cons_of_mem _ h)) rest, first]
    by_cases here : k = j
    · subst here
      rw [if_neg absent, if_pos rfl, if_pos List.mem_cons_self]
    · simp only [List.mem_cons, here, false_or, if_false]

/-! ### The tile mask (R299) -/

theorem CSite.getLsbD_runMask (c : CSite) (r : CtlRec) {t : Nat} (tile : t < c.rg.size) (size : c.rg.size ≤ 128) :
    (c.runMask r).getLsbD t = (r.m.getLsbD 0 || (if t < 64 then (c.sA r).getLsbD t else (c.sB r).getLsbD (t - 64))) := by
  have all : (BitVec.ofNat 128 (2 ^ c.rg.size - 1)).getLsbD t = true := by
    rw [BitVec.getLsbD_ofNat, Nat.testBit_two_pow_sub_one, decide_eq_true tile, decide_eq_true (tile.trans_le size)]
    rfl
  rw [CSite.runMask]
  cases r.m.getLsbD 0 with
  | true => exact all
  | false =>
    rw [if_neg Bool.false_ne_true, BitVec.getLsbD_and, all, Bool.and_true, BitVec.getLsbD_ofNat, decide_eq_true (tile.trans_le size), Bool.true_and,
      Nat.add_comm, Nat.testBit_two_pow_mul_add _ (c.sA r).isLt]
    rfl

end Sys2Proof.Machine

open Sys2Proof Sys2Proof.Machine

/-- Settles O24: LAUNCH by its descriptor and the die chosen, CANCEL by what it reaches, ARM by the room and the entries of the table. -/
theorem launchRecords : Obligations.LaunchRecords := by
  unfold Obligations.LaunchRecords
  refine ⟨fun s s1 s2 c r bs site begun all aligned clean => ?launch, fun s s1 c r site => ⟨exec_cancel_reaches site r, exec_cancel_none site r⟩,
    fun s s1 c r x site small ctx => ⟨fun ⟨room, unbound⟩ => ?binds, fun full => ?full⟩⟩
  case launch =>
    have last : c.LastTurn s1 s2 .read (c.sA r).toNat 64 [] c.w.accs bs := .inl ⟨begun, rfl, all⟩
    exact ⟨exec_launch_bad site r aligned last clean, fun good die => exec_launch_admits site r aligned last clean good rfl⟩
  case binds =>
    refine exec_arm_binds site r small ctx ?_
    simp only [armFull, Bool.or_eq_false_iff, decide_eq_false_iff_not, List.any_eq_false, decide_eq_true_eq, not_and]
    exact ⟨room.not_ge, unbound⟩
  case full => exact exec_arm_full site r small ctx (by simp [armFull, full])

/-- Settles O25: RUN and RUNW by their mask, which names the tiles of the region, and REPLACE by its argument and the room of the table. -/
theorem unitRecords : Obligations.UnitRecords := by
  unfold Obligations.UnitRecords
  refine ⟨fun s s1 s2 c r m rg b site numbered image fabric => exec_run_issues site r numbered image fabric,
    fun s s1 s2 c r m site numbered image fabric mask => ?empty, fun s ks small different => State.val_advanceAll small different s,
    fun c r t => c.getLsbD_runMask r, fun s s1 c r site => ⟨exec_replaceB_misaligned site r, fun old new len featured =>
      ⟨fun t => exec_replaceB_installs site r old new len featured, exec_replaceB_full site r old new len featured⟩⟩⟩
  case empty =>
    have kept := exec_run_empty site r numbered image fabric mask
    rwa [CSite.toList_unitCairn] at kept

end

section
/-! SUPPORT. The fold records: declaring, resizing, querying, dropping, spilling and filling (R306 to R310). -/

namespace Sys2Proof.Machine

section
variable {s s1 : State} {c : CSite} (site : s.EffectSite s1 c) (r : CtlRec)
include site

/-! ### FDECL (R306) -/

section
variable {idx : Nat} {d : Stmt} {clean : Bool} (decl : c.blk.image.declAt (field r.imm 3 0) = some (idx, d, clean))
include decl

theorem exec_fdecl_bad (bad : declCheck idx d (s1.stmtsOf c.rg) clean ≠ 0) :
    exec (.fdecl r) s = .next (s1.coreFault c c.w cDeclFault (declCheck idx d (s1.stmtsOf c.rg) clean) 0) := by
  refine (show execFdecl r s = _ from ctlEffect_eq site _).trans (congrArg Host.Outcome.next ?_)
  dsimp only
  rw [decl]
  exact congrArg (CRes.run · c) (if_pos bad)

section
variable (good : declCheck idx d (s1.stmtsOf c.rg) clean = 0)
include good

theorem exec_fdecl_new (new : tget (s1.stmtsOf c.rg) idx = none) :
    exec (.fdecl r) s = .next ((s1.mapTiles c.rg.tiles fun t => t.declare idx d).afterEffect c c.w) := by
  refine (show execFdecl r s = _ from ctlEffect_eq site _).trans (congrArg Host.Outcome.next ?_)
  dsimp only
  rw [decl]
  dsimp only
  rw [if_neg (not_not.mpr good), new]
  rfl

/-- A redeclaration that keeps the lattice moves no panel. -/
theorem exec_fdecl_same {o : Stmt} (old : tget (s1.stmtsOf c.rg) idx = some o) (lat : o.lat = d.lat) (first : c.w.aux = []) :
    exec (.fdecl r) s = .next ((s1.mapTiles c.rg.tiles fun t => t.redeclare idx d).afterEffect c c.w) := by
  refine (show execFdecl r s = _ from ctlEffect_eq site _).trans (congrArg Host.Outcome.next ?_)
  dsimp only
  rw [decl]
  dsimp only
  rw [if_neg (not_not.mpr good), old]
  dsimp only
  rw [if_pos (by simp [lat, first])]
  rfl

end
end

/-! ### FRESIZE, FDROP and FQRY (R307 to R309) -/

section
variable (none_ : tget (s1.stmtsOf c.rg) (c.sA r).toNat = none)
include none_

theorem exec_fresize_none : exec (.fresize r) s = .next (s1.afterEffect c (c.w.setS r.d 4)) := by
  refine (show execFresize r s = _ from ctlEffect_eq site _).trans (congrArg Host.Outcome.next ?_)
  dsimp only
  rw [none_]
  rfl

theorem exec_fdrop_none : exec (.fdrop r) s = .next (s1.afterEffect c (c.w.setS r.d 4)) := by
  refine (show execFdrop r s = _ from ctlEffect_eq site _).trans (congrArg Host.Outcome.next ?_)
  dsimp only
  rw [none_]
  rfl

theorem exec_fqry_none : exec (.fqry r) s = .next (s1.afterEffect c (c.w.setS r.d 1)) := by
  refine (show execFqry r s = _ from ctlEffect_eq site _).trans (congrArg Host.Outcome.next ?_)
  dsimp only
  rw [none_]
  rfl

end

section
variable {d : Stmt} (stmt : tget (s1.stmtsOf c.rg) (c.sA r).toNat = some d)
include stmt

theorem exec_fresize_done {s2 : State} {st : Nat} (done : s1.resizeTurn c.rg (c.sA r).toNat (resizeLat r.imm d.rank) (c.w.aux.getD 0 0) = .done s2 st) :
    exec (.fresize r) s = .next (s2.afterEffect c (c.w.setS r.d (BitVec.ofNat 64 st))) := by
  refine (show execFresize r s = _ from ctlEffect_eq site _).trans (congrArg Host.Outcome.next ?_)
  dsimp only
  rw [stmt]
  dsimp only
  rw [done]
  rfl

theorem exec_fdrop_free (free : ∀ k ∈ c.rg.tiles, (s1.tile k).anySlot d (fun e => decide (e = .draining)) = false) :
    exec (.fdrop r) s = .next ((s1.mapTiles c.rg.tiles fun t => t.drop (c.sA r).toNat).afterEffect c (c.w.setS r.d 0)) := by
  refine (show execFdrop r s = _ from ctlEffect_eq site _).trans (congrArg Host.Outcome.next ?_)
  dsimp only
  rw [stmt]
  dsimp only
  rw [if_neg (by simpa using free)]
  rfl

/-- FQRY of a slot that the statement has on a tile that the region has. -/
theorem exec_fqry_slot (slot : (c.sB r).toNat < d.foot) (tile : field r.imm 7 1 < c.rg.size) :
    let e := (s1.tile (c.rg.tileKey (field r.imm 7 1))).slot (d.base + (c.sB r).toNat * d.rows)
    exec (.fqry r) s = .next (s1.afterEffect c (c.w.setS r.d (BitVec.ofNat 64 (if bitAt r.imm 0 then e.word1 else e.word0)))) := by
  refine (show execFqry r s = _ from ctlEffect_eq site _).trans (congrArg Host.Outcome.next ?_)
  dsimp only
  rw [stmt]
  dsimp only
  rw [if_neg (by omega)]
  rfl

end

/-! ### FSPILL and FFILL (R310) -/

section
variable {idx tile : Nat} {st : Stmt} {ws ds : List Nat} (name : s1.spillName c r = .name idx st tile ws ds) (begun : c.w.begun = true)
  {s2 : State} {bs : List Acc} (all : s1.turnAccs c.rg.ctx c.who c.w.accs = .all s2 bs)
include name begun all

theorem exec_fspill_ends : exec (.fspill r) s =
    .next (((s2.noteErrs c.key bs).putTile tile (((s2.noteErrs c.key bs).tile tile).endSpill (st.slotRow ds))).afterEffect c (c.w.setS r.d 0)) := by
  refine (show execFspill r s = _ from ctlEffect_eq site _).trans (congrArg Host.Outcome.next ?_)
  rw [name]
  dsimp only
  rw [if_pos begun, State.ctlTurn_all all]
  rfl

theorem exec_ffill_ends : exec (.ffill r) s =
    .next ((s2.putTile tile (((List.range st.rows).foldl (fun t n => t.putRow (st.slotRow ds) n (filledRow bs n)) (s2.tile tile)).finishFill
      (st.slotRow ds))).afterEffect c (c.w.setS r.d 0)) := by
  refine (show execFfill r s = _ from ctlEffect_eq site _).trans (congrArg Host.Outcome.next ?_)
  rw [name]
  dsimp only
  rw [if_pos begun, State.ctlTurn_all all]
  rfl

end
end

end Sys2Proof.Machine

open Sys2Proof Sys2Proof.Machine

/-- Settles O26, record by record: FDECL by its checks and the statement it finds, FRESIZE, FQRY and FDROP by the statement they name, FSPILL and FFILL at their
last access turn. -/
theorem foldRecords : Obligations.FoldRecords := by
  unfold Obligations.FoldRecords
  refine ⟨fun s s1 c r idx d clean site decl => ?declare, fun s s1 c r site => ⟨fun none => ?none, fun d stmt => ?named⟩,
    fun s s1 s2 c r idx st tile ws ds bs site name begun all => ?spill⟩
  case declare =>
    exact ⟨exec_fdecl_new site r decl, fun good o => exec_fdecl_same site r decl good, exec_fdecl_bad site r decl⟩
  case none => exact ⟨exec_fresize_none site r none, exec_fdrop_none site r none, exec_fqry_none site r none⟩
  case named =>
    exact ⟨fun s2 st => exec_fresize_done site r stmt, exec_fdrop_free site r stmt, exec_fqry_slot site r stmt⟩
  case spill => exact ⟨exec_fspill_ends site r name begun all, exec_ffill_ends site r name begun all⟩

end

section
/-! SUPPORT. Every instruction has a meaning: each shell of a meaning answers a next state or a fault, and each event answers a next state (R126, R292). -/

namespace Sys2Proof.Machine

/-- An outcome that is a meaning: a next state or a fault, and no refusal. -/
inductive Meant : Host.Outcome State Fault Refusal → Prop
  | next (s : State) : Meant (.next s)
  | fault (f : Fault) : Meant (.fault f)

theorem Meant.ne_refused {o : Host.Outcome State Fault Refusal} (meant : Meant o) (r : Refusal) : o ≠ .refused r := by
  cases meant <;> exact nofun

/-! ### The shells of meanings -/

section
variable (s : State)

theorem meant_ctlLocal (g : State → CSite → LRes) : Meant (ctlLocal s g) := by
  unfold ctlLocal
  split
  · exact .fault _
  · split <;> exact .next _

theorem meant_ctlWait (g : State → CSite → CRes) : Meant (ctlWait s g) := by
  unfold ctlWait
  split
  · exact .fault _
  · exact .next _

theorem meant_ctlEffect (g : State → CSite → CRes) : Meant (ctlEffect s g) := by
  unfold ctlEffect
  split
  · exact .fault _
  · (repeat' split) <;> exact .next _

theorem meant_fireNode (n : NodeRec) (lat gap : Nat) (g : State → Site → FireRes) : Meant (fireNode s n lat gap g) := by
  unfold fireNode
  split
  · exact .fault _
  · exact .next _

theorem meant_firePure (n : NodeRec) (op : Nat) (g : Site → Out × BitVec 10) : Meant (firePure s n op g) := meant_fireNode ..

theorem meant_fireMap1 (n : NodeRec) (op : Nat) (g : Nat → VRes) : Meant (fireMap1 s n op g) := meant_firePure ..

theorem meant_fireMap2 (n : NodeRec) (op : Nat) (g : Nat → Nat → VRes) : Meant (fireMap2 s n op g) := meant_firePure ..

theorem meant_fireScaled (n : NodeRec) (op : Nat) (c : Bool) (g : Site → Out × BitVec 10) : Meant (fireScaled s n op c g) := meant_fireNode ..

theorem meant_fireFp1 (n : NodeRec) (op : Nat) (g : BitVec 8 → Nat → VRes) : Meant (fireFp1 s n op g) := meant_fireScaled ..

theorem meant_fireFp2 (n : NodeRec) (op : Nat) (g : BitVec 8 → Nat → Nat → VRes) : Meant (fireFp2 s n op g) := meant_fireScaled ..

theorem meant_fireConv (n : NodeRec) (op : Nat) (g : BitVec 8 → Nat → Nat → VRes) : Meant (fireConv s n op g) := meant_fireScaled ..

theorem meant_firePoly (n : NodeRec) (op : Nat) (g : State → Site → PolyAcc → FireRes) : Meant (firePoly s n op g) := meant_fireNode ..

theorem meant_recvHeld (typ op : Nat) (g : State → HeldFlit → Served) : Meant (recvHeld typ op s g) := by
  obtain ⟨t, taken⟩ := recvHeld_next typ op s g
  exact taken ▸ .next t

theorem meant_recvFlit (typ op : Nat) (g : State → Flit → Option State) : Meant (recvFlit typ op s g) := meant_recvHeld ..

theorem meant_hopStep (op : Nat) (g : State → Flit → Nat → HopRes) : Meant (hopStep op g s) := meant_recvFlit ..

theorem meant_cmdStep (kind : Nat) (g : State → SysCmd → Nat → State) : Meant (cmdStep kind s g) := by
  obtain ⟨t, taken⟩ := cmdStep_next kind s g
  exact taken ▸ .next t

theorem meant_ctxStep (kind : Nat) (g : State → SysCmd → Nat → State) : Meant (ctxStep kind s g) := meant_cmdStep ..

theorem meant_mgmtStep (f : State → Word → State) : Meant (mgmtStep s f) := by
  unfold mgmtStep
  split <;> exact .next _

theorem meant_regStep (f : State → RegAccess → State) : Meant (regStep s f) := by
  unfold regStep
  split <;> exact .next _

end

theorem exec_meant (i : Instr) (s : State) : Meant (exec i s) := by
  cases i <;> dsimp only [exec]
  case addS | subS | mulS | mulhS | divS | remS | andS | orS | xorS | andnS | shlS | shrS | sarS | minS | maxS | movi | sel | setc | clz | popc | csrr
      | csrw | exitB | exitc | callb | retb | feat | hmov | relq | trap | trapRd | trapPop | rett | halt | idle =>
    exact meant_ctlLocal ..
  case bwait | cwait | efence => exact meant_ctlWait ..
  case lds | sts | run | runw | replaceB | fdecl | fresize | fqry | fdrop | fspill | ffill | cnew | cadd | crd | launch | cancel | arm | sbind | sgo
      | sstop | sbar | copy | gather | scatter | cred | rput | rget | xbegin | xput | xcommit | xabort | hld | hst | hpin | hunpin | hcmp | hnew | reloc
      | snap | snapdrop | tlbinv =>
    exact meant_ctlEffect ..
  case selNode | compact | expand | fan | merge | delay | tag | lastNode | sink | qmax | qcvt | dqt | scacc | mldb | mrow | mqrow | mrec | mout | xlat
      | ld | st | ldg | stx | pref | putNode | getNode | getr | rls | hldNode | hstNode | hnewNode | hpinNode | hunpinNode | hcmpNode | caddNode
      | cwaitNode | bin | bout | tap | vote | trapNode | brk | trace | efenceNode | nop =>
    exact meant_fireNode ..
  case addNode | subNode | mulNode | mulhNode | minNode | maxNode | adda | andNode | orNode | xorNode | andnNode | shlNode | shrNode | sarNode | rot | bfi
      | cmp =>
    exact meant_fireMap2 ..
  case abs | neg | notNode | clzNode | popcNode | bfx => exact meant_fireMap1 ..
  case mad | idx | iota | sad | perm | bcast | shfl | red | scan | pack | unpack | vmask | scaleNode | rng => exact meant_firePure ..
  case ppset | ppmul | ppdiv | ppcmb | ppnrm | ppout => exact meant_firePoly ..
  case fadd | fsub | fmul | fmin | fmax | fcmp | fsgn => exact meant_fireFp2 ..
  case fclass | fsfu | frnd => exact meant_fireFp1 ..
  case cvt | ftoi | itof => exact meant_fireConv ..
  case ffma =>
    unfold execFfma
    exact meant_fireScaled ..
  case nullFlit | rdrsp | wrack | cairnAdd | cairnWait | cairnRead | greply | classBind | classRelease | xstage | prepareTxn | readyTxn | commitTxn
      | abortTxn | doneTxn | queryTxn | keepTxn =>
    exact meant_recvFlit ..
  case rdreq | wrreq | tokenFlit => exact meant_recvHeld ..
  case hopReadHeader | hopPin | hopUnpin | hopWait => exact meant_hopStep ..
  case ctxfree | cancelCommand | snapCommand | snapdropCommand | replaceCommand | cfginv => exact meant_ctxStep ..
  case ctxnew | topo | cinit => exact meant_cmdStep ..
  case registerWrite | devnumWrite | featenWrite | lqctlWrite | scqctlWrite => exact meant_regStep ..
  case freezeCmd | warmresetCmd | contCmd | malformedCommand => exact meant_mgmtStep ..
  case freezeTrigger | samplePreload | extest | idleNullTimer | linkFault | bivouacExchange | peCheckFailure | abortedRecordTimeout | dumpdataRead
      | bypass | idcode | powerSample | thermalSample | statedump | arbiterWindow =>
    exact .next _
  case stalledPutProceed =>
    unfold execStalledPutProceed
    split
    · exact meant_fireNode ..
    · exact .next _
  case readReevaluate =>
    unfold execReadReevaluate
    split
    case h_5 => exact .next _
    all_goals exact meant_fireNode ..
  case portTrained | dispatchChoice | ccEccError | thermalTrip | recordResume | routeRehash | classReleaseTimer | pageMove | launchDescriptorTake
      | tokenArrival | majorFaultServed | timestampRebase | relocRun | systemCommandTake | clockStop | waitRetryTimer | stagingTimeout | queryTimer
      | keepAliveTimer | commitResend | heldLaunchRelease | regionReplaceSwitch | l2ModeSwitch | preempt | regionResume | replicate | replicaWithdraw
      | configFetchDone | blockFetch | blockCommit | fabricBlockMap | unitComplete | launchComplete | cancelAdvance | faultTokenEntry | trapEntry
      | minorFaultServed | budgetExceeded | majorFaultSave | uncorrectableError | cairnWaitComplete | idleWake | barrierRetry | streamScoreboardStep
      | loadStreamToken | storeStreamToken | streamComplete | engineDrain | coldReset | warmReset | resetRestart =>
    dsimp only [execPortTrained, execDispatchChoice, execCcEccError, execThermalTrip, execRecordResume, execRouteRehash, execClassReleaseTimer, execPageMove,
      execLaunchDescriptorTake, execTokenArrival, execMajorFaultServed, execTimestampRebase, execRelocRun, execSystemCommandTake, execClockStop,
      execWaitRetryTimer, execStagingTimeout, execQueryTimer, execKeepAliveTimer, execCommitResend, execHeldLaunchRelease, execRegionReplaceSwitch,
      execL2ModeSwitch, execPreempt, execRegionResume, execReplicate, execReplicaWithdraw, execConfigFetchDone, execBlockFetch, execBlockCommit,
      execFabricBlockMap, execUnitComplete, execLaunchComplete, execCancelAdvance, execFaultTokenEntry, execTrapEntry, execMinorFaultServed,
      execBudgetExceeded, execMajorFaultSave, execUncorrectableError, execCairnWaitComplete, execIdleWake, execBarrierRetry, execStreamScoreboardStep,
      execLoadStreamToken, execStoreStreamToken, execStreamComplete, execEngineDrain, execColdReset, execWarmReset, execResetRestart]
    (repeat' split) <;> exact .next _

/-- A turn is a cycle of the clock, an instruction, or nothing. -/
theorem performTurn_meant (t : Turn) (s : State) : Meant (performTurn t s) := by
  unfold performTurn
  split
  · exact .next _
  · split
    · exact exec_meant ..
    · exact .next _

end Sys2Proof.Machine

open Sys2Proof Sys2Proof.Machine

/-- Settles O11: every shell of a meaning and every event answers a next state or a fault. -/
theorem stepNeverRefuses : Obligations.StepNeverRefuses := by
  unfold Obligations.StepNeverRefuses
  exact fun s r => (performTurn_meant ..).ne_refused r

end
